-- ==== Sys2Proof/Word.lean ====
section
/-! DEFINITION. The word types (R2, R46, R54) and the sparse table by number that the state is made of. -/

namespace Sys2Proof

/-- A queue entry, a register or a table word (R46). -/
abbrev Word := BitVec 64

/-- A lane word (R54): 1024 bits, element 0 in the lowest bits (R2). -/
abbrev LaneWord := BitVec 1024

/-- One byte (R2). -/
abbrev Byte := BitVec 8

/-- A sparse table: pairs of a number and an entry, in rising order of the number. -/
abbrev NMap (α : Type) := List (Nat × α)

/-- The entry of number `k`, if one is listed. -/
def NMap.find {α : Type} : NMap α → Nat → Option α
  | [], _ => none
  | (j, v) :: rest, k => if k = j then some v else NMap.find rest k

/-- The entry of number `k`, or `d` where none is listed. -/
def NMap.getD {α : Type} (m : NMap α) (k : Nat) (d : α) : α := (NMap.find m k).getD d

/-- The table with entry `v` at number `k`. -/
def NMap.set {α : Type} : NMap α → Nat → α → NMap α
  | [], k, v => [(k, v)]
  | (j, w) :: rest, k, v =>
    if k = j then (k, v) :: rest
    else if k < j then (k, v) :: (j, w) :: rest
    else (j, w) :: NMap.set rest k v

/-- The table without an entry at number `k`. -/
def NMap.erase {α : Type} (m : NMap α) (k : Nat) : NMap α := m.filter (fun p => p.1 != k)

/-- The numbers are strictly rising and each is above `lo` (`lo` counted from one below). -/
def NMap.risingFrom {α : Type} : Nat → NMap α → Bool
  | _, [] => true
  | lo, (j, _) :: rest => decide (lo ≤ j) && NMap.risingFrom (j + 1) rest

end Sys2Proof
end

