-- ==== Sys2Proof/Machine/Bits.lean ====
section
/-! DEFINITION. Bit fields, sign extension, byte order and the CRC-32C of R92, on plain numbers. -/

namespace Sys2Proof.Machine

/-- Bits `[hi:lo]` of a number (R2). -/
def bits (x hi lo : Nat) : Nat := (x >>> lo) % 2 ^ (hi + 1 - lo)

/-- Bit `n` of a number, as 0 or 1 (R2). -/
def bitAt (x n : Nat) : Nat := (x >>> n) % 2

/-- Bit `n` of a number. -/
def bitB (x n : Nat) : Bool := (x >>> n) % 2 == 1

/-- The signed reading of the low `w` bits of `x`. -/
def toSigned (w x : Nat) : Int :=
  let y := x % 2 ^ w
  if y < 2 ^ (w - 1) then (y : Int) else (y : Int) - (2 ^ w : Nat)

/-- The low `w` bits of an integer, two's complement. -/
def ofInt (w : Nat) (x : Int) : Nat := (x % ((2 ^ w : Nat) : Int)).toNat

/-- `x` with bits `[hi:lo]` replaced by the low bits of `v`. -/
def putBits (x hi lo v : Nat) : Nat :=
  let m := 2 ^ (hi + 1 - lo)
  x - ((x >>> lo) % m) * 2 ^ lo + (v % m) * 2 ^ lo

/-- 0 or 1. -/
def b2n (b : Bool) : Nat := if b then 1 else 0

/-- Rotation to the left of a 64-bit number (R192). -/
def rotl64 (x n : Nat) : Nat := ((x <<< n) ||| (x % 2 ^ 64) >>> (64 - n)) % 2 ^ 64

/-- The `n` low bytes of a number, lowest first (R2). -/
def bytesOf : Nat → Nat → List Byte
  | 0, _ => []
  | n + 1, x => BitVec.ofNat 8 x :: bytesOf n (x >>> 8)

/-- The number whose bytes are given, lowest first (R2). -/
def ofBytes : List Byte → Nat
  | [] => 0
  | b :: bs => b.toNat + 256 * ofBytes bs

/-- The fields of width `w` of a number, the lowest first. -/
def fieldsOf (w : Nat) : Nat → Nat → List Nat
  | 0, _ => []
  | n + 1, x => x % 2 ^ w :: fieldsOf w n (x >>> w)

/-- The number whose fields of width `w` are given, the lowest first. -/
def ofFields (w : Nat) : List Nat → Nat
  | [] => 0
  | x :: xs => x % 2 ^ w + 2 ^ w * ofFields w xs

/-- One bit step of the reflected CRC-32C (R92). -/
def crcBits : Nat → Nat → Nat
  | 0, c => c
  | n + 1, c => crcBits n (if c % 2 = 1 then (c >>> 1) ^^^ 0x82F63B78 else c >>> 1)

/-- The CRC-32C register after one byte (R92). -/
def crcByte (c b : Nat) : Nat := crcBits 8 (c ^^^ (b % 256))

/-- The CRC-32C register after the four bytes of one word, least significant byte first (R92, R117). -/
def crcWord (c w : Nat) : Nat :=
  crcByte (crcByte (crcByte (crcByte c w) (w >>> 8)) (w >>> 16)) (w >>> 24)

/-- The CRC-32C of a list of bytes, with the parameters of R92. -/
def crc32c (bs : List Nat) : Nat := (bs.foldl crcByte 0xFFFFFFFF) ^^^ 0xFFFFFFFF

/-- Leading zero bits of a 64-bit number (R101). -/
def clz64 (x : Nat) : Nat := if x = 0 then 64 else 63 - Nat.log2 x

/-- Trailing zero bits among the `n` low bits (R101). -/
def ctzN : Nat → Nat → Nat
  | 0, _ => 0
  | n + 1, x => if x % 2 = 1 then 0 else 1 + ctzN n (x >>> 1)

/-- One bits among the `n` low bits (R101). -/
def popN : Nat → Nat → Nat
  | 0, _ => 0
  | n + 1, x => x % 2 + popN n (x >>> 1)

/-- The `n` low bits in reversed order (R101). -/
def revN : Nat → Nat → Nat
  | 0, _ => 0
  | n + 1, x => (x % 2) * 2 ^ n + revN n (x >>> 1)

/-- Groups of `n` elements, `k` of them. -/
def chunks {α : Type} (n : Nat) : Nat → List α → List (List α)
  | 0, _ => []
  | k + 1, xs => xs.take n :: chunks n k (xs.drop n)

end Sys2Proof.Machine
end

