-- ==== Sys2Proof/Syntax.lean ====
section
/-! DEFINITION. The instructions: one constructor of `Instr` for each row of spec/opcode_table.json.

Sequencer instructions carry their operand fields as the word formats lay them out (R75, R76, R82–R84), one structure
for each shape of operands; the heads IDL (R73) and DLY (R209) say when a word issues and are read by the fetch.
Memory command words (R209) and collective words (R347) are instructions of their engines. The rows without an
encoding are events of the machine: the state holds what an event concerns, and its meaning does nothing where its
conditions do not hold. The constructors with operands stand first. -/

namespace Sys2Proof

/-- Format R: destination, two sources. -/
structure FDAB where
  d : BitVec 6
  a : BitVec 6
  b : BitVec 6
  ka : Bool
  kb : Bool
  deriving DecidableEq, Repr, Inhabited

/-- Format R: destination, one source. -/
structure FDA where
  d : BitVec 6
  a : BitVec 6
  ka : Bool
  deriving DecidableEq, Repr, Inhabited

/-- Format R: destination only. -/
structure FD where
  d : BitVec 6
  deriving DecidableEq, Repr, Inhabited

/-- Format R: two sources. -/
structure FAB where
  a : BitVec 6
  b : BitVec 6
  ka : Bool
  kb : Bool
  deriving DecidableEq, Repr, Inhabited

/-- Format R: one source. -/
structure FA where
  a : BitVec 6
  ka : Bool
  deriving DecidableEq, Repr, Inhabited

/-- Format R: one source tested by keep-read, no keep bit. -/
structure FA0 where
  a : BitVec 6
  deriving DecidableEq, Repr, Inhabited

/-- Format I: destination, source, signed 10-bit immediate. -/
structure FImm where
  d : BitVec 6
  a : BitVec 6
  ka : Bool
  imm : BitVec 10
  deriving DecidableEq, Repr, Inhabited

/-- Format I: destination, source, 6-bit count. -/
structure FShI where
  d : BitVec 6
  a : BitVec 6
  ka : Bool
  cnt : BitVec 6
  deriving DecidableEq, Repr, Inhabited

/-- Format U: destination, 17-bit immediate. -/
structure FU where
  d : BitVec 6
  imm : BitVec 17
  deriving DecidableEq, Repr, Inhabited

/-- Format U: 17-bit count. -/
structure FIdl where
  imm : BitVec 17
  deriving DecidableEq, Repr, Inhabited

/-- Format W: MOV. -/
structure FMov where
  d : BitVec 6
  a : BitVec 6
  wd : BitVec 2
  ka : Bool
  deriving DecidableEq, Repr, Inhabited

/-- Format W: queues A at width WD. -/
structure FAW where
  a : BitVec 6
  wd : BitVec 2
  deriving DecidableEq, Repr, Inhabited

/-- Format W: QCNT. -/
structure FDAW where
  d : BitVec 6
  a : BitVec 6
  wd : BitVec 2
  deriving DecidableEq, Repr, Inhabited

/-- Format B: condition and offset. -/
structure FBrc where
  gq : BitVec 6
  gb : BitVec 6
  gn : Bool
  off : BitVec 10
  deriving DecidableEq, Repr, Inhabited

/-- Format B: BR, the always-true form. -/
structure FBr where
  off : BitVec 10
  deriving DecidableEq, Repr, Inhabited

/-- Format B: guard prefix. -/
structure FGrd where
  gq : BitVec 6
  gb : BitVec 6
  gn : Bool
  deriving DecidableEq, Repr, Inhabited

/-- Format I: LOOP. -/
structure FLoop where
  a : BitVec 6
  ka : Bool
  body : BitVec 10
  deriving DecidableEq, Repr, Inhabited

/-- Format U: CALL. -/
structure FCall where
  target : BitVec 16
  deriving DecidableEq, Repr, Inhabited

/-- SEG: four words (R79). -/
structure FSeg where
  opn : Bool
  cnt : BitVec 32
  off : BitVec 32
  sig : BitVec 32
  deriving DecidableEq, Repr, Inhabited

/-- OPEN: two words (R80). -/
structure FOpen where
  s : BitVec 4
  lte : BitVec 8
  a : BitVec 6
  ka : Bool
  wr : Bool
  dir : Bool
  lane : BitVec 3
  off : BitVec 12
  cnt : BitVec 16
  deriving DecidableEq, Repr, Inhabited

/-- Format S: a stream. -/
structure FS where
  s : BitVec 4
  deriving DecidableEq, Repr, Inhabited

/-- Format S: a stream and a source. -/
structure FSA where
  s : BitVec 4
  a : BitVec 6
  ka : Bool
  deriving DecidableEq, Repr, Inhabited

/-- Format S: a stream and a destination. -/
structure FSD where
  s : BitVec 4
  a : BitVec 6
  deriving DecidableEq, Repr, Inhabited

/-- Format W: LDS and STS. -/
structure FLs where
  d : BitVec 6
  a : BitVec 6
  ka : Bool
  disp : BitVec 5
  deriving DecidableEq, Repr, Inhabited

/-- Format V: destination, two sources. -/
structure FV3 where
  vd : BitVec 5
  va : BitVec 5
  vb : BitVec 5
  fmt : BitVec 3
  deriving DecidableEq, Repr, Inhabited

/-- Format V: destination, one source. -/
structure FV2 where
  vd : BitVec 5
  va : BitVec 5
  fmt : BitVec 3
  deriving DecidableEq, Repr, Inhabited

/-- Format V: VCVT. -/
structure FVcvt where
  vd : BitVec 5
  va : BitVec 5
  dst : BitVec 5
  fmt : BitVec 3
  deriving DecidableEq, Repr, Inhabited

/-- Format V: destination, source, immediate. -/
structure FVn where
  vd : BitVec 5
  va : BitVec 5
  n : BitVec 5
  fmt : BitVec 3
  deriving DecidableEq, Repr, Inhabited

/-- Format V: VUNPK3. -/
structure FVp where
  vd : BitVec 5
  va : BitVec 5
  p : BitVec 3
  deriving DecidableEq, Repr, Inhabited

/-- Format V: VUNPK4. -/
structure FVh where
  vd : BitVec 5
  va : BitVec 5
  h : BitVec 1
  deriving DecidableEq, Repr, Inhabited

/-- Format V: VTOQ. -/
structure FVtoq where
  q : BitVec 5
  k3 : BitVec 1
  w : BitVec 4
  wd : BitVec 2
  k : BitVec 3
  fmt : BitVec 3
  deriving DecidableEq, Repr, Inhabited

/-- Format V: VFROMQ. -/
structure FVfromq where
  k3 : BitVec 1
  w : BitVec 4
  q : BitVec 5
  wd : BitVec 2
  k : BitVec 3
  fmt : BitVec 3
  deriving DecidableEq, Repr, Inhabited

/-- Format V: VIOTA. -/
structure FViota where
  vd : BitVec 5
  fmt : BitVec 3
  deriving DecidableEq, Repr, Inhabited

/-- Format V: VZERO. -/
structure FVzero where
  vd : BitVec 5
  deriving DecidableEq, Repr, Inhabited

/-- Format M: MMA. -/
structure FMma where
  t : BitVec 7
  sa : BitVec 5
  sb : BitVec 5
  acc : Bool
  ta : Bool
  tb : Bool
  deriving DecidableEq, Repr, Inhabited

/-- A tile. -/
structure FT where
  t : BitVec 7
  deriving DecidableEq, Repr, Inhabited

/-- Format M: ACCMV. -/
structure FAmv where
  t : BitVec 7
  s : BitVec 5
  rnd : BitVec 3
  deriving DecidableEq, Repr, Inhabited

/-- Format M: a tile and a stream. -/
structure FTS where
  t : BitVec 7
  s : BitVec 5
  deriving DecidableEq, Repr, Inhabited

/-- Format F: two tiles. -/
structure FTU where
  t : BitVec 7
  u : BitVec 7
  deriving DecidableEq, Repr, Inhabited

/-- Format F: TRSM. -/
structure FTrsm where
  t : BitVec 7
  u : BitVec 7
  fl : BitVec 4
  deriving DecidableEq, Repr, Inhabited

/-- Format Q: QUANT with RTE. -/
structure FQr where
  sd : BitVec 5
  sa : BitVec 5
  rnd : BitVec 2
  seed : BitVec 3
  rte : Bool
  deriving DecidableEq, Repr, Inhabited

/-- Format Q: QUANT without RTE. -/
structure FQn where
  sd : BitVec 5
  sa : BitVec 5
  rnd : BitVec 2
  seed : BitVec 3
  deriving DecidableEq, Repr, Inhabited

/-- Format Q: DEQUANT. -/
structure FQd where
  sd : BitVec 5
  sa : BitVec 5
  deriving DecidableEq, Repr, Inhabited

/-- Format P: two sources, no keep bits. -/
structure FP2 where
  a : BitVec 6
  b : BitVec 6
  deriving DecidableEq, Repr, Inhabited

/-- Format P: one source, no keep bits. -/
structure FP1 where
  a : BitVec 6
  deriving DecidableEq, Repr, Inhabited

/-- Format Y: CSRRD. -/
structure FCsrR where
  d : BitVec 6
  csr : BitVec 11
  deriving DecidableEq, Repr, Inhabited

/-- Format Y: CSRWR. -/
structure FCsrW where
  a : BitVec 6
  csr : BitVec 11
  deriving DecidableEq, Repr, Inhabited

/-- Operands of a memory command word (R209): MC_ACT. -/
structure FMcAct where
  bank : BitVec 4
  row : BitVec 16
  deriving DecidableEq, Repr, Inhabited

/-- Operands of a memory command word (R209): MC_RD. -/
structure FMcCol where
  bank : BitVec 4
  col : BitVec 4
  ap : Bool
  stp : BitVec 11
  deriving DecidableEq, Repr, Inhabited

/-- Operands of a memory command word (R209): MC_PRE. -/
structure FMcBank where
  bank : BitVec 4
  deriving DecidableEq, Repr, Inhabited

/-- Operands of a memory command word (R209): MC_TAG. -/
structure FMcTag where
  tag : BitVec 16
  deriving DecidableEq, Repr, Inhabited

/-- Operands of a memory command word (R209): MC_BIND. -/
structure FMcBind where
  cursor : BitVec 2
  deriving DecidableEq, Repr, Inhabited

/-- Operands of a memory command word (R209): MC_SVW. -/
structure FMcSvw where
  cls : BitVec 2
  mask : BitVec 4
  len : BitVec 14
  deriving DecidableEq, Repr, Inhabited

/-- Operands of a memory command word (R209): MC_LOOP. -/
structure FMcLoop where
  level : BitVec 1
  target : BitVec 10
  count : BitVec 9
  deriving DecidableEq, Repr, Inhabited

/-- Operands of a memory command word (R209): MC_DLY. -/
structure FMcDly where
  e : BitVec 20
  deriving DecidableEq, Repr, Inhabited

/-- Fields of a collective word (R347): CX_SEND. -/
structure FCxData where
  slot : BitVec 6
  ck : BitVec 5
  wfmt : BitVec 5
  deriving DecidableEq, Repr, Inhabited

/-- Fields of a collective word (R347): CX_COPY. -/
structure FCxCopy where
  slot : BitVec 6
  ck : BitVec 5
  src : BitVec 6
  deriving DecidableEq, Repr, Inhabited

/-- Fields of a collective word (R347): CX_WAIT_DELIVERY. -/
structure FCxWaitD where
  ck : BitVec 5
  slot : BitVec 6
  deriving DecidableEq, Repr, Inhabited

/-- Fields of a collective word (R347): CX_WAIT_FLAG. -/
structure FCxWaitF where
  ck : BitVec 5
  slot : BitVec 6
  deriving DecidableEq, Repr, Inhabited

/-- Fields of a collective word (R347): CX_LOOP. -/
structure FCxLoop where
  count : BitVec 8
  body : BitVec 8
  deriving DecidableEq, Repr, Inhabited

/-- Fields of a collective word (R347): CX_PEER. -/
structure FCxPeer where
  k : BitVec 5
  deriving DecidableEq, Repr, Inhabited

/-- Fields of a collective word (R347): CX_MCAST. -/
structure FCxMcast where
  slot : BitVec 6
  ck : BitVec 5
  wfmt : BitVec 5
  dst : BitVec 6
  deriving DecidableEq, Repr, Inhabited

/-- Fields of a collective word (R347): CX_DONE. -/
structure FCxSlot where
  slot : BitVec 6
  deriving DecidableEq, Repr, Inhabited

/-- Every row of the opcode table. -/
inductive Instr where
  /-- R101. Pushes x + y modulo 2^64. -/
  | add (f : FDAB)
  /-- R101. Pushes x − y. -/
  | sub (f : FDAB)
  /-- R101. Pushes x AND y. -/
  | and (f : FDAB)
  /-- R101. Pushes x OR y. -/
  | or (f : FDAB)
  /-- R101. Pushes x XOR y. -/
  | xor (f : FDAB)
  /-- R101. Shifts x left by y[5:0] with zero fill. -/
  | shl (f : FDAB)
  /-- R101. Shifts x right by y[5:0] with zero fill. -/
  | shr (f : FDAB)
  /-- R101. Shifts x right by y[5:0], filling with x[63]. -/
  | sra (f : FDAB)
  /-- R101. Pushes the low 64 bits of x × y. -/
  | mul (f : FDAB)
  /-- R101. Pushes the high 64 bits of the signed 128-bit product. -/
  | mulhs (f : FDAB)
  /-- R101. Pushes the high 64 bits of the unsigned 128-bit product. -/
  | mulhu (f : FDAB)
  /-- R101. Pushes the signed minimum of x and y. -/
  | min (f : FDAB)
  /-- R101. Pushes the signed maximum of x and y. -/
  | max (f : FDAB)
  /-- R101. Pushes the unsigned minimum of x and y. -/
  | minu (f : FDAB)
  /-- R101. Pushes the unsigned maximum of x and y. -/
  | maxu (f : FDAB)
  /-- R101. Pushes x AND NOT y. -/
  | andn (f : FDAB)
  /-- R101. Pushes 1 if x = y, else 0. -/
  | seq (f : FDAB)
  /-- R101. Pushes 1 if x ≠ y, else 0. -/
  | sne (f : FDAB)
  /-- R101. Pushes 1 if x < y signed, else 0. -/
  | slt (f : FDAB)
  /-- R101. Pushes 1 if x < y unsigned, else 0. -/
  | sltu (f : FDAB)
  /-- R101. Pushes 1 if x ≥ y signed, else 0. -/
  | sge (f : FDAB)
  /-- R101. Pushes 1 if x ≥ y unsigned, else 0. -/
  | sgeu (f : FDAB)
  /-- R101. Pushes bit n of x. -/
  | bext (f : FDAB)
  /-- R101. Pushes x with bit n inverted. -/
  | bflip (f : FDAB)
  /-- R102. Signed division truncated toward zero, with fixed edge cases and f = 20. -/
  | div (f : FDAB)
  /-- R102. Unsigned division, with fixed edge cases. -/
  | divu (f : FDAB)
  /-- R102. Signed remainder, with the sign following x. -/
  | rem (f : FDAB)
  /-- R102. Unsigned remainder. -/
  | remu (f : FDAB)
  /-- R101. Counts the leading zero bits of x. -/
  | clz (f : FDA)
  /-- R101. Counts the trailing zero bits of x. -/
  | ctz (f : FDA)
  /-- R101. Counts the one bits of x. -/
  | popc (f : FDA)
  /-- R101. Reverses the bits of x. -/
  | brev (f : FDA)
  /-- R101. Reverses the bytes of x. -/
  | bswap (f : FDA)
  /-- R101. Sign-extends x from bit n. -/
  | sext (f : FDAB)
  /-- R101. Zero-extends x from bit n. -/
  | zext (f : FDAB)
  /-- R103. Adds the sign-extended IMM10 to x. -/
  | addi (f : FImm)
  /-- R103. ANDs x with the sign-extended IMM10. -/
  | andi (f : FImm)
  /-- R103. ORs x with the sign-extended IMM10. -/
  | ori (f : FImm)
  /-- R103. XORs x with the sign-extended IMM10. -/
  | xori (f : FImm)
  /-- R103. Shifts x left by IMM10[5:0]. -/
  | shli (f : FShI)
  /-- R103. Shifts x right logically by IMM10[5:0]. -/
  | shri (f : FShI)
  /-- R103. Shifts x right arithmetically by IMM10[5:0]. -/
  | srai (f : FShI)
  /-- R103. Pushes 1 if x is below the signed IMM10, else 0. -/
  | slti (f : FImm)
  /-- R104. Pushes the sign-extended IMM17. -/
  | li (f : FU)
  /-- R104. Pops D and pushes (x << 17) OR IMM17. -/
  | lcat (f : FU)
  /-- R115. Occupies m + 1 cycles and does nothing else. -/
  | idle (f : FIdl)
  /-- R105. Moves the heads of w queues to w queues. -/
  | mov (f : FMov)
  /-- R105. Pops and discards the heads of w queues. -/
  | drop (f : FAW)
  /-- R105. Pushes the entry counts of w queues. -/
  | qcnt (f : FDAW)
  /-- R106. Removes every entry of w queues, pending entries included. -/
  | qclr (f : FAW)
  /-- R109. Branches by OFF10 when the guard bit of the head of GQ holds. -/
  | brc (f : FBrc)
  /-- R109. Branches unconditionally by OFF10. -/
  | br (f : FBr)
  /-- R110. Guards the next word by a bit of a queue head, which it keep-reads. -/
  | grd (f : FGrd)
  /-- R112. Pops a trip count and pushes a hardware loop record over the next IMM10 words. -/
  | loop (f : FLoop)
  /-- R111. Pushes the return address to q63 and transfers to IMM17[15:0]. -/
  | call (f : FCall)
  /-- R111. Transfers to bits [15:0] of A. -/
  | jr (f : FA)
  /-- R111. Transfers to A[15:0] and pushes the link to q63. -/
  | jrl (f : FA)
  /-- R116. Opens a timed or OPEN segment, waiting for its stamp or taking SEGLATE. -/
  | seg (f : FSeg)
  /-- R119. Pushes the TB of its issue cycle. -/
  | tbrd (f : FD)
  /-- R119. Writes the wall-cycle count, in handler mode only. -/
  | wbrd (f : FD)
  /-- R120. Pops a footprint selection, checks it, takes the checkpoint and reports the phase boundary. -/
  | phase (f : FA)
  /-- R123. Tests the head of A and freezes or traps while it is pending. -/
  | waitq (f : FA0)
  /-- R124. Waits for a ready flag, holding or taking ARRIVAL. -/
  | waitf (f : FA)
  /-- R125. Binds a stream to a layout entry, lane and schedule. -/
  | openS (f : FOpen)
  /-- R127. Closes a stream from the next cycle. -/
  | close (f : FS)
  /-- R127. Advances a stream's schedule by n words. -/
  | sadv (f : FSA)
  /-- R127. Rewinds a stream to its start and restarts its schedule. -/
  | srew (f : FS)
  /-- R128. Pushes a stream's status word. -/
  | sstat (f : FSD)
  /-- R129. Writes a layout table word. -/
  | ltwr (f : FAB)
  /-- R129. Reads a layout table word. -/
  | ltrd (f : FDA)
  /-- R129. Writes a footprint table word. -/
  | fpwr (f : FAB)
  /-- R129. Reads a footprint table word. -/
  | fprd (f : FDA)
  /-- R129. Writes a time-slot table word. -/
  | tswr (f : FAB)
  /-- R129. Reads a time-slot table word. -/
  | tsrd (f : FDA)
  /-- R107. FP32 addition under FRM. -/
  | fadd (f : FDAB)
  /-- R107. FP32 subtraction. -/
  | fsub (f : FDAB)
  /-- R107. FP32 multiplication. -/
  | fmul (f : FDAB)
  /-- R107. FP32 division. -/
  | fdiv (f : FDAB)
  /-- R107. FP32 square root. -/
  | fsqrt (f : FDA)
  /-- R107. Pushes 1 if x < y in FP32, else 0. -/
  | fcmplt (f : FDAB)
  /-- R107. Converts FP32 to a signed 64-bit integer. -/
  | fcvti (f : FDA)
  /-- R107. Converts a signed 64-bit integer to FP32. -/
  | icvtf (f : FDA)
  /-- R320. Paged load of 64 bits. -/
  | ldsD (f : FLs)
  /-- R320. Paged load of 32 bits, zero-extended. -/
  | ldsWu (f : FLs)
  /-- R320. Paged load of 32 bits, sign-extended. -/
  | ldsWs (f : FLs)
  /-- R320. Paged load of 16 bits, zero-extended. -/
  | ldsHu (f : FLs)
  /-- R320. Paged load of 8 bits, zero-extended. -/
  | ldsBu (f : FLs)
  /-- R321. Paged store of 64 bits, as egress. -/
  | stsD (f : FLs)
  /-- R321. Paged store of 32 bits. -/
  | stsW (f : FLs)
  /-- R321. Paged store of 16 bits. -/
  | stsH (f : FLs)
  /-- R321. Paged store of 8 bits. -/
  | stsB (f : FLs)
  /-- R322. Word form: reserves a pending entry and loads 8 paged bytes into it, with forwarding. -/
  | ldq (f : FDA)
  /-- R322. Line-fill form: loads 128 paged bytes into the scratchpad at LAND.ADDR. -/
  | ldqLineFill (f : FDA)
  /-- R323. Paged store of 8 bytes, as egress. -/
  | stq (f : FAB)
  /-- R291. Sends 8 bytes to a scratchpad word of a local or remote core. -/
  | rstq (f : FAB)
  /-- R318. Requests the migration of a page to its prepared frame, with a deadline, as egress. -/
  | migr (f : FAB)
  /-- R324. Pushes the access unit's status word. -/
  | austat (f : FD)
  /-- R288. Scratchpad atomic add over three reserved bank cycles. -/
  | amoadd (f : FDAB)
  /-- R288. Scratchpad atomic signed maximum. -/
  | amomax (f : FDAB)
  /-- R288. Scratchpad atomic swap. -/
  | amoswp (f : FDAB)
  /-- R288. Scratchpad atomic compare-and-swap with an aligned pair. -/
  | amocas (f : FDAB)
  /-- R290. Paged atomic add, commit-gated. -/
  | pamoadd (f : FDAB)
  /-- R290. Paged atomic compare-and-swap, commit-gated. -/
  | pamocas (f : FDAB)
  /-- R298. Reads a ready flag, trapping on overrun. -/
  | flagrd (f : FDA)
  /-- R297. Arms a ready flag with a count. -/
  | flagset (f : FAB)
  /-- R140. Elementwise addition. -/
  | vadd (f : FV3)
  /-- R140. Elementwise subtraction. -/
  | vsub (f : FV3)
  /-- R140. Elementwise multiplication. -/
  | vmul (f : FV3)
  /-- R140. Fused a × b + c, with the addend popped from VD. -/
  | vfma (f : FV3)
  /-- R140. Fused a × b − c. -/
  | vfms (f : FV3)
  /-- R140. Elementwise minimum. -/
  | vmin (f : FV3)
  /-- R140. Elementwise maximum. -/
  | vmax (f : FV3)
  /-- R140. Elementwise absolute value. -/
  | vabs (f : FV2)
  /-- R140. Elementwise negation. -/
  | vneg (f : FV2)
  /-- R140. Saturating integer addition. -/
  | vadds (f : FV3)
  /-- R140. Saturating integer subtraction. -/
  | vsubs (f : FV3)
  /-- R140. High half of the signed integer product. -/
  | vmulhi (f : FV3)
  /-- R140. Elementwise absolute difference. -/
  | vdiff (f : FV3)
  /-- R141. Correctly rounded reciprocal. -/
  | vrcp (f : FV2)
  /-- R141. Correctly rounded reciprocal square root. -/
  | vrsq (f : FV2)
  /-- R141. Correctly rounded square root. -/
  | vsqrt (f : FV2)
  /-- R141. Correctly rounded 2^a. -/
  | vexp2 (f : FV2)
  /-- R141. Correctly rounded log2 a. -/
  | vlog2 (f : FV2)
  /-- R141. Floor of each element. -/
  | vfloor (f : FV2)
  /-- R141. Rounds each element to an integer. -/
  | vround (f : FV2)
  /-- R141. Computes a × 2^floor(b). -/
  | vscale (f : FV3)
  /-- R142. Bitwise AND. -/
  | vand (f : FV3)
  /-- R142. Bitwise OR. -/
  | vor (f : FV3)
  /-- R142. Bitwise XOR. -/
  | vxor (f : FV3)
  /-- R142. Bitwise a AND NOT b. -/
  | vandn (f : FV3)
  /-- R142. Elementwise left shift. -/
  | vshl (f : FV3)
  /-- R142. Elementwise logical right shift. -/
  | vshr (f : FV3)
  /-- R142. Elementwise arithmetic right shift. -/
  | vsra (f : FV3)
  /-- R142. Elementwise population count. -/
  | vpopc (f : FV2)
  /-- R143. Compare equal, producing a mask. -/
  | vceq (f : FV3)
  /-- R143. Compare not equal. -/
  | vcne (f : FV3)
  /-- R143. Compare less than. -/
  | vclt (f : FV3)
  /-- R143. Compare less than or equal. -/
  | vcle (f : FV3)
  /-- R143. Compare unordered. -/
  | vcun (f : FV3)
  /-- R143. Bitwise select by a mask popped from VD. -/
  | vsel (f : FV3)
  /-- R144. Pairwise-tree sum of all elements. -/
  | vsum (f : FV2)
  /-- R145. Maximum element of the word. -/
  | vmaxr (f : FV2)
  /-- R145. Minimum element of the word. -/
  | vminr (f : FV2)
  /-- R145. Largest magnitude in the word. -/
  | vamaxr (f : FV2)
  /-- R144. Pairwise-tree sum of squares. -/
  | vsumsq (f : FV2)
  /-- R144. Grouped dot products into 16 sums. -/
  | vdot (f : FV3)
  /-- R146. Converts elements to the format given by FN5. -/
  | vcvt (f : FVcvt)
  /-- R148. Broadcasts element n. -/
  | vbcast (f : FVn)
  /-- R148. Interleaves the lower halves of a and b. -/
  | vzip (f : FV3)
  /-- R148. Takes the even elements of a and b. -/
  | vunzip (f : FV3)
  /-- R148. Reverses the element order. -/
  | vrev (f : FV2)
  /-- R148. Shuffles a by the indices in b. -/
  | vshufl (f : FV3)
  /-- R148. Rotates the elements down by n. -/
  | vrotl (f : FVn)
  /-- R149. Decodes trit position p of every T3 byte into INT8. -/
  | vunpk3 (f : FVp)
  /-- R151. Sign-extends half of the INT4 elements to INT8. -/
  | vunpk4 (f : FVh)
  /-- R152. Moves w elements of a vector queue into q32–q63. -/
  | vtoq (f : FVtoq)
  /-- R152. Moves w queue values into elements of a vector queue. -/
  | vfromq (f : FVfromq)
  /-- R153. Writes r_i = i. -/
  | viota (f : FViota)
  /-- R153. Writes an all-zero word. -/
  | vzero (f : FVzero)
  /-- R253. Matrix multiply-accumulate in float mode. -/
  | mmaFlt (f : FMma)
  /-- R254. Matrix multiply with W4G weights expanded by the prologue. -/
  | mmaW4 (f : FMma)
  /-- R253. Matrix multiply in L6 mode. -/
  | mmaL6 (f : FMma)
  /-- R253. Ternary matrix multiply into INT32. -/
  | mmaT3 (f : FMma)
  /-- R253. INT8 matrix multiply into INT32. -/
  | mmaI8 (f : FMma)
  /-- R253. FP32 matrix multiply. -/
  | mmaF32 (f : FMma)
  /-- R258. Zeroes a tile. -/
  | accz (f : FT)
  /-- R260. Converts tile rows into a write stream. -/
  | accmv (f : FAmv)
  /-- R259. Loads tile rows from a stream. -/
  | accld (f : FTS)
  /-- R259. Adds stream rows into a tile. -/
  | accadd (f : FTS)
  /-- R270. Right-looking Cholesky factorisation of a tile. -/
  | chol (f : FT)
  /-- R271. LU factorisation with partial pivoting. -/
  | lup (f : FT)
  /-- R277. Givens-rotation QR with encoded rotations. -/
  | givqr (f : FT)
  /-- R279. Applies stored rotations to another tile. -/
  | grot (f : FTU)
  /-- R276. Triangular solve, overwriting the right-hand side. -/
  | trsm (f : FTrsm)
  /-- R261. Reads one tile element. -/
  | accrd (f : FDA)
  /-- R261. Writes one tile element. -/
  | accwr (f : FAB)
  /-- R275. Reads a pivot entry. -/
  | pivrd (f : FDA)
  /-- R275. Reads GROWTH, MAXA or MAXU. -/
  | gfrd (f : FDA)
  /-- R262. Reads a station's step counter. -/
  | estep (f : FDA)
  /-- R281. Clears the latched breakdown of station 1. -/
  | resume (f : FA)
  /-- R263. Ends the station's command in progress. -/
  | eabort (f : FA)
  /-- R200. Quantises with the tensor multiplier taken from the view AMAX. -/
  | quantTensor (f : FQr)
  /-- R200. Quantises to an MX format with block scales. -/
  | quantBlock (f : FQn)
  /-- R200. Quantises with the tensor multiplier, then block scales. -/
  | quantBlockTensor (f : FQr)
  /-- R200. Casts elements with saturation. -/
  | quantCast (f : FQn)
  /-- R201. Dequantises, dividing by DQSCALE. -/
  | dequantTensor (f : FQd)
  /-- R201. Dequantises with block scales. -/
  | dequantBlock (f : FQd)
  /-- R201. Dequantises with block scales and DQSCALE. -/
  | dequantBlockTensor (f : FQd)
  /-- R201. Converts elements to a float format. -/
  | dequantCast (f : FQd)
  /-- R203. Binds a statistics record to a layout entry. -/
  | stbind (f : FAB)
  /-- R203. Clears a record's home and shards. -/
  | stclr (f : FA)
  /-- R203. Reads a record word. -/
  | strd (f : FDA)
  /-- R203. Requests a merge of one record into another at the next commit. -/
  | stmerge (f : FA)
  /-- R203. Reads a record's generation and overflow status. -/
  | stgen (f : FDA)
  /-- R203. Writes a home record word. -/
  | stset (f : FAB)
  /-- R234. Starts an engine's table at TB0 + S. -/
  | mcstart (f : FP2)
  /-- R235. Stops an engine's table, or resolves MEMTIME by stopping. -/
  | mcstopStop (f : FP2)
  /-- R223. In handler mode, skips the failing word of a trapped engine. -/
  | mcstopSkip (f : FP2)
  /-- R233. Reads table rows from scratchpad for an engine. -/
  | mcbase (f : FP2)
  /-- R232. Binds an engine cursor to a core's scratchpad address. -/
  | mcbind (f : FP2)
  /-- R236. Reads an engine status page. -/
  | mcstat (f : FP2)
  /-- R365. Starts a collective run, as egress. -/
  | colstart (f : FP2)
  /-- R366. Reads the state page of a group's run. -/
  | colstat (f : FP2)
  /-- R367. Aborts a group's active run. -/
  | colabort (f : FP1)
  /-- R390. Reads a CSR. -/
  | csrrd (f : FCsrR)
  /-- R390. Writes the RW fields of a CSR, the write of every register with no row of its own. -/
  | csrwr (f : FCsrW)
  /-- R386. Takes SYSCALL with its operand, or hands over from handler mode. -/
  | trap (f : FA)
  /-- R388. Reads one item of a frozen or non-running context. -/
  | ctxrd (f : FDA)
  /-- R388. Writes one item of a frozen or non-running context, including CTXWIN and AUKEY from a system core. -/
  | ctxwr (f : FAB)
  /-- R379. Requests a pre-emption hold that switches to a resident slot. -/
  | ctxswSwitch (f : FA)
  /-- R381. Saves a resident slot through the streaming slot. -/
  | ctxswSave (f : FA)
  /-- R381. Restores a resident slot from its save area. -/
  | ctxswRestore (f : FA)
  /-- R389. Releases a double fault, a watchdog freeze or a HOLD. -/
  | ctxswRelease (f : FA)
  /-- R389. Ends a slot's task with STATUS 0x06 or 0x07. -/
  | ctxswEnd (f : FA)
  /-- R389. Requests a KIND-8 hold with no switch and sets OSH. -/
  | ctxswHold (f : FA)
  /-- R406. Drops a page's entries from its owner's translation buffer. -/
  | mtlbinv (f : FDAB)
  /-- R406. Loads a page's entry into the owner's translation buffer. -/
  | mtlbwr (f : FDAB)
  /-- R407. Writes a word of a partition table selected by A[63:60]. -/
  | lptwr (f : FDAB)
  /-- R408. Returns the hypervisor version. -/
  | hvcallVersion (f : FDAB)
  /-- R408. Returns the partition's base die, size and package. -/
  | hvcallPartinfo (f : FDAB)
  /-- R408. Returns a die's paged frame range. -/
  | hvcallFrames (f : FDAB)
  /-- R411. Writes a signed attestation quote over a nonce. -/
  | hvcallAttest (f : FDAB)
  /-- R217. Opens a row in a bank after the timing checks. -/
  | mcAct (f : FMcAct)
  /-- R215. Reads one column to the selected cursor. -/
  | mcRd (f : FMcCol)
  /-- R215. Writes one column from the selected cursor. -/
  | mcWr (f : FMcCol)
  /-- R217. Precharges a bank. -/
  | mcPre (f : FMcBank)
  /-- R224. Refreshes one bank and lowers its OWED. -/
  | mcRefpb (f : FMcBank)
  /-- R216. Stamps a tag on the granules written by the preceding RDs. -/
  | mcTag (f : FMcTag)
  /-- R214. Selects the cursor for later RDs and WRs. -/
  | mcBind (f : FMcBind)
  /-- R227. Opens a service window of a class over the masked bank groups. -/
  | mcSvw (f : FMcSvw)
  /-- R212. Repeats a table body COUNT + 1 times at a level. -/
  | mcLoop (f : FMcLoop)
  /-- R211. Delays the next table word by E cycles. -/
  | mcDly (f : FMcDly)
  /-- R349. Sends chunk k, narrowed to WFMT, to the peer. -/
  | cxSend (f : FCxData)
  /-- R349. Takes a unit from the predecessor and writes chunk k. -/
  | cxRecv (f : FCxData)
  /-- R349. Adds the incoming unit to its own chunk and sends the sum to the peer. -/
  | cxRrs (f : FCxData)
  /-- R349. Copies chunk k from one slot to another. -/
  | cxCopy (f : FCxCopy)
  /-- R349. Adds the incoming unit to its own chunk and writes the narrowed result. -/
  | cxRed (f : FCxData)
  /-- R349. Waits until every earlier write and send of the run is delivered. -/
  | cxWaitDelivery (f : FCxWaitD)
  /-- R349. Waits until the ready flag of chunk k's granule reads READY. -/
  | cxWaitFlag (f : FCxWaitF)
  /-- R349. Runs the next BODY words COUNT times. -/
  | cxLoop (f : FCxLoop)
  /-- R347. Sets peer and predecessor by offset K. -/
  | cxPeer (f : FCxPeer)
  /-- R349. Multicasts chunk k to every other member, or writes it to a paged slot. -/
  | cxMcast (f : FCxMcast)
  /-- R356. Waits for the multicast units due, then writes the completion record. -/
  | cxDone (f : FCxSlot)
  /-- R19. A 128-byte launch packet from the host, a system core or a permitted peer is written into a free slot of the partition launch queue, or is dropped wit. -/
  | launchPacketWrite
  /-- R22. Once the target slot is free on every named core, the launch unit takes the head packet, checks it, loads the image, clears state, applies the initial. -/
  | launch
  /-- R23. When every core of the task has ended its part, or the task ends otherwise, the slots are freed and the completion record is written if NOTIFY is set. -/
  | taskCompletion
  /-- R404. After HALT, a core's part ends on the first cycle by which its commands, stream schedules, loads and egress have all finished. -/
  | corePartEnd
  /-- R25. After the last SLATH arrival reaches the timebase unit, every member completes SLATH on TB0 and CSR TB0 is written. -/
  | slathBarrierComplete
  /-- R26. If the SLATH barrier is not complete within WDOG, WATCHDOG goes to the partition operating system and the arrived cores keep waiting. -/
  | slathWatchdog
  /-- R38. H cycles after the earliest own-cause freeze, or after a stamped hold request, every agent of the domain freezes on F and HOLDINFO is written. -/
  | domainFreeze
  /-- R42. The power manager, the operating system, the SNAP trigger or the watchdog requests a hold, which is stamped with TB c and freezes the domain on c + H. -/
  | holdRequest
  /-- R42. A requested hold clears when its requester releases it, but never before its minimum length. -/
  | holdRelease
  /-- R40. After the last clear, the agents that froze early replay their catch-up windows, buffered data is delivered, and every agent executes F on wall cycle . -/
  | domainResume
  /-- R121. On P + H, the phase commits: PHASENO increments, shards merge, egress departs, time-slot entries take effect, shadows restart and flags disarm. -/
  | phaseCommit
  /-- R121. Cores that issued PHASE on differing cycles each take ILLEGAL 0x0C on P′ + H, and no commit performs. -/
  | phaseMismatch
  /-- R393. On SEGSIG or POISON in phase p ≥ 1, once every agent has frozen, the domain is restored to the end of the PHASE cycle that began the phase and then re. -/
  | phaseCancel
  /-- R29. If SEGEND has not issued by I_seg + C, SEGCNT is raised on I_seg + C + 1, before any word of that cycle. -/
  | segcntLate
  /-- R384. When HOLDW or LIVEW reaches the limit, the watchdog fires to the operating system, holds the domain, stops any running handler and sets WDF. -/
  | watchdogExpiry
  /-- R33. The result of an earlier instruction is written or pushed on its perform cycle t + f − 1. -/
  | resultPerform
  /-- R63. On T1 + j, a read stream's block reads its bank rows and drives word j onto its lane, with the tag check on the first drive into each granule. -/
  | streamDrive
  /-- R64. On T1 + j, a write stream's block takes the word from its lane slot, stores its elements at the cursor and updates the bound statistics record. -/
  | streamStore
  /-- R268. A factorisation step reads its region on its first cycle, tests for breakdown, computes, and writes on its last cycle. -/
  | factStep
  /-- R184. A record change stamped on cycle c (store contribution, STCLR, STSET or commit) is applied on c + H, in the order of R185. -/
  | recordChangeApply
  /-- R292. An arrival into an unslotted granule replaces the addressed bytes, stamps its tag and counts toward the ready flag. -/
  | plainArrivalApply
  /-- R293. A waiting reducing write whose slot is current is added into the granule in the slot's format, one word per granule per cycle. -/
  | reducingWriteApply
  /-- R308. The data of a paged load or paged atomic lands in its pending queue entry, which becomes valid. -/
  | loadLanding
  /-- R322. A line fill writes its 128 bytes at LAND.ADDR, stamps LAND.TAG and makes the entry in D valid. -/
  | lineFillLanding
  /-- R305. The owner translates an arriving paged request and checks its key, permission, alignment and race tag, then queues it or faults it. -/
  | pagedRequestArrival
  /-- R317. In a class-0 service window, the owner performs a queued paged request oldest first. -/
  | pagedRequestPerform
  /-- R306. The space manager answers an XLAT fault with retry, which resends the halted requests, or with fatal, which delivers a fault record. -/
  | spaceManagerAnswer
  /-- R318. A migration completion reaches the issuing context, is stamped with its TB cycle, and is applied to SLIP and MIGST at the next commit. -/
  | migrCompletion
  /-- R318. Once the copy is done, FRAME ← NEXT, NXV ← 0 and MST ← 0 take effect together between two accesses. -/
  | migrationCopyEnd
  /-- R232. An MCBIND reaches its engine on t + 24 and writes the cursor before that cycle's word. -/
  | mcbindArrival
  /-- R233. An MCBASE reaches its engine, which replaces its table memory, or takes MEMTIME 0x09 if the engine is busy. -/
  | mcbaseArrival
  /-- R234. An MCSTART arrival makes the engine STARTED and records S and the controller, or takes MEMTIME 0x09. -/
  | mcstartArrival
  /-- R235. A mode-0 MCSTOP arriving at a STARTED or RUNNING engine stops it, issues PREA when allowed, and makes it IDLE. -/
  | mcstopArrival
  /-- R236. The requested engine page, as it stood at the end of t + 23, is written into the issuer's scratchpad on t + 47. -/
  | mcstatPageWrite
  /-- R234. On TB0 + S, a STARTED engine becomes RUNNING and word 0 becomes due, or MEMTIME 0x09 is taken if no table is loaded. -/
  | tableStart
  /-- R224. On each TB0 + k·tREFI, every OWED_b increases by 1, or MEMTIME 0x03 is taken if that would pass MAXPOST. -/
  | refreshTick
  /-- R225. Outside RUNNING and TRAPPED, on each TB0 + k·tREFIpb, the engine issues REFPB to bank k mod 16 when the rules allow it. -/
  | standingRefresh
  /-- R215. A RD's 64 bytes are written to the cursor core's scratchpad on c + RL − 1, with the pending TAG stamp where one is due. -/
  | mcRdData
  /-- R215. The cursor's core takes a WR's 64 bytes from its scratchpad on c + WL as its own event, and the bytes go to the DRAM column. -/
  | mcWrTake
  /-- R228. At c + L, the service window ends with every bank of the masked groups closed. -/
  | svwEnd
  /-- R229. When its engine freezes, the keeper drains issued commands, records the open banks and closes them. -/
  | keeperEntry
  /-- R229. While HW > 0 and every bank is idle, the keeper issues REFAB, which lowers HW by tREFI. -/
  | keeperRefab
  /-- R229. While a cause or request of the domain remains, the keeper scrubs one row per step. -/
  | keeperScrubStep
  /-- R230. After the last clear, the keeper reactivates every recorded row so that each meets its age and spacing rules at release. -/
  | keeperReopen
  /-- R401. In a scrub window, the channel scrubs one row with 16 RDs, writes corrected columns back, and records poison patterns. -/
  | scrubStep
  /-- R348. A departed COLSTART reaches the engine, which waits for a free run, reads and checks the block, computes SIG and starts the words. -/
  | collectiveRunStart
  /-- R344. A unit from a member reaches the engine and is buffered, or held back by flow control, until its word takes it. -/
  | collectiveUnitArrival
  /-- R349. A multicast unit reaches a receiving engine, which writes the destination chunk with no word of its own. -/
  | mcastUnitArrival
  /-- R360. An abort unit reaches a member, which completes any chunk write already begun, discards units, stops and writes its record. -/
  | abortUnitArrival
  /-- R355. When no progress comes from a member for COLTO, the waiting engine aborts the run with STATUS 0x02. -/
  | collectiveTimeout
  /-- R361. When COLSTART's TRAP bit was set, an abort is delivered to the starting core as the COLLABORT trap on its stamped cycle. -/
  | collabort
  /-- R379. Once no core is in handler mode, the keepers close the outgoing rows and the incoming slot's domain resumes at its frozen cycle. -/
  | contextSwitch
  /-- R381. When the last byte of the save-area image has performed, the saved slot becomes free. -/
  | saveComplete
  /-- R381. The read save area is checked and moved into the slot, or SERR is set and the slot is left free. -/
  | restoreComplete
  /-- R383. A packet write's notify reaches the queue doorbell and is served, or sets PNB if the doorbell is unmapped. -/
  | doorbellNotify
  /-- R383. When an unmap completes, the launch unit reads PNB and, if it is set, clears it and rescans all slots. -/
  | doorbellUnmap
  /-- R383. At each doorbell map, the launch unit reads PNB and, if it is set, clears it and rescans. -/
  | doorbellMap
  /-- R403. When SEVT AND SEVEN ≠ 0 and the core is not in its event handler, SEPC takes the next address and the system core continues at SVEC. -/
  | systemEvent
  /-- R412. Every 65,536 wall cycles, the power manager samples THERM and PWR and adjusts duty with holds, trips at 115 °C or cuts power at 125 °C. -/
  | powerSample
  /-- R411. D0.S0 leaves reset, runs the boot ROM, checks each stage's signature, extends the measurement registers and starts the hypervisor. -/
  | boot
  /-- R411. In recovery mode, a signed image received through the mailbox is checked and booted. -/
  | recoveryImage
  /-- R409. A flit that fails its CRC is retried from the sender's replay buffer. -/
  | linkFlitRetry
  /-- R409. After 8 failed retries, the link goes down, SEVT bit 7 is set, and collectives whose units are lost end with STATUS 0x02. -/
  | linkDown
  /-- R409. A link whose lanes fail drops to 8 lanes at half rate. -/
  | linkLaneLoss
  /-- R117. Checks the segment's count and signature, then closes the segment. -/
  | segend
  /-- R118. Arrives at the task's start barrier. -/
  | slath
  /-- R376. Ends handler mode; the context replays from its frozen cycle. -/
  | tret
  /-- R402. Requests a snapshot hold that latches the snapshot registers. -/
  | snap
  /-- R325. Waits for the context's earlier loads and earlier-phase egress, then delivers faults. -/
  | fence
  /-- R404. Stops the core's issue, or on a system core waits for an enabled event. -/
  | halt
  /-- R217. Precharges every open bank. -/
  | mcPrea
  /-- R224. Refreshes every bank. -/
  | mcRefab
  /-- R213. Ends the table and makes the engine IDLE. -/
  | mcEnd
  /-- R349. Collective word that does nothing. -/
  | cxNop
  /-- R252. On a scheduled cycle after issue, an engine command taps its next operand word or reads its scale or bank word: MMA word c on t + D − L_X + s_X·c, QUA. -/
  | operandTap
  /-- R367. A COLABORT reaches its die's collective engine, which aborts the group's active run with STATUS 0x01 and sends abort units to the members. -/
  | colabortArrival
  /-- R318. During a class-2 service window, the owner copies lines of a migrating page from its old frame to the frame in NEXT. -/
  | migrationLineCopy
  deriving DecidableEq, Repr

end Sys2Proof
end

