-- ==== Sys2Proof/Machine/Fields.lean ====
section
/-! DEFINITION. The value rules of operand fields: reserved values, misaligned widths and undefined CSR numbers of each
instruction (R78–R84, R87, R88, R139, R152, R200, R209, R347). -/

namespace Sys2Proof.Machine

/-- A fault of an encoding: its REASON and the WORD that carries it (R88). -/
abbrev FieldFault := Nat × Nat

/-- One fault where a condition holds. -/
def bad (reason : Nat) (c : Bool) (word : Nat := 0) : List FieldFault := if c then [(reason, word)] else []

/-- Each governed register field is a non-zero multiple of the width `2^wd`, for a width above 1 (R78). -/
def width (wd : Nat) (fs : List Nat) : List FieldFault :=
  bad 5 (wd != 0 && fs.any (fun q => q == 0 || q % 2 ^ wd != 0))

/-- FMT3 of the integer class (R132). -/
def intClass (fmt : Nat) : Bool := fmt == 3 || fmt == 4 || fmt == 5

/-- Elements of a lane word under FMT3 (R132). -/
def elems3 (fmt : Nat) : Nat :=
  if fmt == 0 || fmt == 3 then 32 else if fmt == 1 || fmt == 2 || fmt == 4 then 64 else 128

/-- The wire formats of collective words (R347). -/
def wireFmt (f : Nat) : Bool := f == 0 || f == 1 || f == 2 || f == 0x0A || f == 0x0B || f == 0x0C

/-- The CSR numbers that a chapter defines, on a compute core or on a system core (R18, R43, R174–R179, R202, R243,
R274, R313, R369–R378, R403). R403 lists a system core's own numbers and is silent on the compute numbers there: FRM and VFLAGS, which its
scalar floating-point group names, are defined, 0x030 and 0x031 give the TB of slots 0 and 1, which a system core reads (R24), and the others are not
(REASON 0x08; DESIGN CHOICE, log 71). So 0x044–0x05F are undefined everywhere (R179, `csr_undefined`). -/
def csrDefined (sys : Bool) (n : Nat) : Bool :=
  if sys then
    n == 0x30 || n == 0x31 || n == 0x40 || n == 0x42 || decide (0x100 ≤ n ∧ n ≤ 0x103) || n == 0x110 || n == 0x111 || decide (0x120 ≤ n ∧ n ≤ 0x124)
      || decide (0x128 ≤ n ∧ n ≤ 0x12A)
  else
    decide (n ≤ 4) || n == 8 || n == 9 || decide (0x30 ≤ n ∧ n ≤ 0x36) || decide (0x40 ≤ n ∧ n ≤ 0x43)
      || decide (0x60 ≤ n ∧ n ≤ 0x6B) || decide (0x80 ≤ n ∧ n ≤ 0x87) || decide (0xA0 ≤ n ∧ n ≤ 0xA5)

/-- The reserved values, misaligned widths and undefined CSR numbers of an instruction. A SEED that is not zero where RND is not 2 counts as a
reserved value, REASON 0x03 (DESIGN CHOICE, log 78). -/
def fieldFaults (sys : Bool) : Instr → List FieldFault
  | .mov f => width f.wd.toNat [f.d.toNat, f.a.toNat]
  | .drop f => width f.wd.toNat [f.a.toNat]
  | .qcnt f => width f.wd.toNat [f.d.toNat, f.a.toNat]
  | .qclr f => width f.wd.toNat [f.a.toNat]
  | .loop f => bad 3 (f.body.toNat == 0)
  | .seg f => bad 3 (f.cnt.toNat == 0) 1 ++ bad 3 (f.opn && f.off.toNat != 0) 2 ++ bad 3 (f.opn && f.sig.toNat != 0) 3
  | .openS f => width 2 [f.a.toNat] ++ bad 3 (decide (f.off.toNat < 2)) 1 ++ bad 3 (f.cnt.toNat == 0) 1
  | .amocas f => width 1 [f.b.toNat]
  | .pamocas f => width 1 [f.b.toNat]
  | .vadd f => bad 3 (decide (f.fmt.toNat ≥ 6))
  | .vsub f => bad 3 (decide (f.fmt.toNat ≥ 6))
  | .vmul f => bad 3 (decide (f.fmt.toNat ≥ 6))
  | .vfma f => bad 3 (decide (f.fmt.toNat ≥ 6)) ++ bad 3 (decide (f.vd.toNat ≥ 16))
  | .vfms f => bad 3 (decide (f.fmt.toNat ≥ 6)) ++ bad 3 (decide (f.vd.toNat ≥ 16))
  | .vadds f => bad 3 (!intClass f.fmt.toNat)
  | .vsubs f => bad 3 (!intClass f.fmt.toNat)
  | .vmulhi f => bad 3 (!intClass f.fmt.toNat)
  | .vdiff f => bad 3 (decide (f.fmt.toNat ≥ 6))
  | .vrcp f => bad 3 (decide (f.fmt.toNat ≥ 3))
  | .vrsq f => bad 3 (decide (f.fmt.toNat ≥ 3))
  | .vsqrt f => bad 3 (decide (f.fmt.toNat ≥ 3))
  | .vexp2 f => bad 3 (decide (f.fmt.toNat ≥ 3))
  | .vlog2 f => bad 3 (decide (f.fmt.toNat ≥ 3))
  | .vfloor f => bad 3 (decide (f.fmt.toNat ≥ 3))
  | .vround f => bad 3 (decide (f.fmt.toNat ≥ 3))
  | .vscale f => bad 3 (decide (f.fmt.toNat ≥ 3))
  | .vsel f => bad 3 (decide (f.vd.toNat ≥ 16))
  | .vcvt f => bad 2 (decide (f.dst.toNat ≥ 0x17)) ++ bad 3 (decide (f.dst.toNat ≥ 0x0F ∧ f.dst.toNat < 0x17))
  | .vunpk3 f => bad 3 (decide (f.p.toNat ≥ 5))
  | .vtoq f => bad 5 ((32 + f.q.toNat) % 2 ^ f.wd.toNat != 0)
      ++ bad 3 (decide ((8 * f.k3.toNat + f.k.toNat + 1) * 2 ^ f.wd.toNat > elems3 f.fmt.toNat))
  | .vfromq f => bad 5 ((32 + f.q.toNat) % 2 ^ f.wd.toNat != 0)
      ++ bad 3 (decide ((8 * f.k3.toNat + f.k.toNat + 1) * 2 ^ f.wd.toNat > elems3 f.fmt.toNat))
  | .mmaFlt f => bad 3 (decide (f.sa.toNat < 16 ∨ f.sb.toNat < 16))
  | .mmaW4 f => bad 3 (decide (f.sa.toNat < 16 ∨ f.sb.toNat < 16))
  | .mmaL6 f => bad 3 (decide (f.sa.toNat < 16 ∨ f.sb.toNat < 16))
  | .mmaT3 f => bad 3 (decide (f.sa.toNat < 16 ∨ f.sb.toNat < 16))
  | .mmaI8 f => bad 3 (decide (f.sa.toNat < 16 ∨ f.sb.toNat < 16))
  | .mmaF32 f => bad 3 (decide (f.sa.toNat < 16 ∨ f.sb.toNat < 16))
  | .accmv f => bad 3 (decide (f.s.toNat < 16)) ++ bad 3 (decide (f.rnd.toNat ≥ 5))
  | .accld f => bad 3 (decide (f.s.toNat < 16))
  | .accadd f => bad 3 (decide (f.s.toNat < 16))
  | .quantTensor f => bad 3 (decide (f.sd.toNat < 16 ∨ f.sa.toNat < 16)) ++ bad 3 (decide (f.rnd.toNat = 3))
      ++ bad 3 (decide (f.seed.toNat ≠ 0 ∧ f.rnd.toNat ≠ 2))
  | .quantBlock f => bad 3 (decide (f.sd.toNat < 16 ∨ f.sa.toNat < 16)) ++ bad 3 (decide (f.rnd.toNat = 3))
      ++ bad 3 (decide (f.seed.toNat ≠ 0 ∧ f.rnd.toNat ≠ 2))
  | .quantBlockTensor f => bad 3 (decide (f.sd.toNat < 16 ∨ f.sa.toNat < 16)) ++ bad 3 (decide (f.rnd.toNat = 3))
      ++ bad 3 (decide (f.seed.toNat ≠ 0 ∧ f.rnd.toNat ≠ 2))
  | .quantCast f => bad 3 (decide (f.sd.toNat < 16 ∨ f.sa.toNat < 16)) ++ bad 3 (decide (f.rnd.toNat = 3))
      ++ bad 3 (decide (f.seed.toNat ≠ 0 ∧ f.rnd.toNat ≠ 2))
  | .dequantTensor f => bad 3 (decide (f.sd.toNat < 16 ∨ f.sa.toNat < 16))
  | .dequantBlock f => bad 3 (decide (f.sd.toNat < 16 ∨ f.sa.toNat < 16))
  | .dequantBlockTensor f => bad 3 (decide (f.sd.toNat < 16 ∨ f.sa.toNat < 16))
  | .dequantCast f => bad 3 (decide (f.sd.toNat < 16 ∨ f.sa.toNat < 16))
  -- an undefined CSR number: REASON 0x08 of class 0x01 (R88, R179)
  | .csrrd f => bad 8 (!csrDefined sys f.csr.toNat)
  | .csrwr f => bad 8 (!csrDefined sys f.csr.toNat)
  | .mcSvw f => bad 3 (f.mask.toNat == 0 || decide (f.len.toNat < 128))
  | .mcLoop f => bad 3 (f.count.toNat == 0)
  | .cxSend f => bad 3 (!wireFmt f.wfmt.toNat)
  | .cxRecv f => bad 3 (!wireFmt f.wfmt.toNat)
  | .cxRrs f => bad 3 (!wireFmt f.wfmt.toNat)
  | .cxRed f => bad 3 (!wireFmt f.wfmt.toNat)
  | .cxLoop f => bad 3 (f.count.toNat == 0 || f.body.toNat == 0)
  | .cxMcast f => bad 3 (!wireFmt f.wfmt.toNat)
  | .launchPacketWrite => []
  | .launch => []
  | .taskCompletion => []
  | .corePartEnd => []
  | .slathBarrierComplete => []
  | .slathWatchdog => []
  | .domainFreeze => []
  | .holdRequest => []
  | .holdRelease => []
  | .domainResume => []
  | .phaseCommit => []
  | .phaseMismatch => []
  | .phaseCancel => []
  | .segcntLate => []
  | .watchdogExpiry => []
  | .resultPerform => []
  | .streamDrive => []
  | .streamStore => []
  | .factStep => []
  | .recordChangeApply => []
  | .plainArrivalApply => []
  | .reducingWriteApply => []
  | .loadLanding => []
  | .lineFillLanding => []
  | .pagedRequestArrival => []
  | .pagedRequestPerform => []
  | .spaceManagerAnswer => []
  | .migrCompletion => []
  | .migrationCopyEnd => []
  | .mcbindArrival => []
  | .mcbaseArrival => []
  | .mcstartArrival => []
  | .mcstopArrival => []
  | .mcstatPageWrite => []
  | .tableStart => []
  | .refreshTick => []
  | .standingRefresh => []
  | .mcRdData => []
  | .mcWrTake => []
  | .svwEnd => []
  | .keeperEntry => []
  | .keeperRefab => []
  | .keeperScrubStep => []
  | .keeperReopen => []
  | .scrubStep => []
  | .collectiveRunStart => []
  | .collectiveUnitArrival => []
  | .mcastUnitArrival => []
  | .abortUnitArrival => []
  | .collectiveTimeout => []
  | .collabort => []
  | .contextSwitch => []
  | .saveComplete => []
  | .restoreComplete => []
  | .doorbellNotify => []
  | .doorbellUnmap => []
  | .doorbellMap => []
  | .systemEvent => []
  | .powerSample => []
  | .boot => []
  | .recoveryImage => []
  | .linkFlitRetry => []
  | .linkDown => []
  | .linkLaneLoss => []
  | .add _ => []
  | .sub _ => []
  | .and _ => []
  | .or _ => []
  | .xor _ => []
  | .shl _ => []
  | .shr _ => []
  | .sra _ => []
  | .mul _ => []
  | .mulhs _ => []
  | .mulhu _ => []
  | .min _ => []
  | .max _ => []
  | .minu _ => []
  | .maxu _ => []
  | .andn _ => []
  | .seq _ => []
  | .sne _ => []
  | .slt _ => []
  | .sltu _ => []
  | .sge _ => []
  | .sgeu _ => []
  | .bext _ => []
  | .bflip _ => []
  | .div _ => []
  | .divu _ => []
  | .rem _ => []
  | .remu _ => []
  | .clz _ => []
  | .ctz _ => []
  | .popc _ => []
  | .brev _ => []
  | .bswap _ => []
  | .sext _ => []
  | .zext _ => []
  | .addi _ => []
  | .andi _ => []
  | .ori _ => []
  | .xori _ => []
  | .shli _ => []
  | .shri _ => []
  | .srai _ => []
  | .slti _ => []
  | .li _ => []
  | .lcat _ => []
  | .idle _ => []
  | .brc _ => []
  | .br _ => []
  | .grd _ => []
  | .call _ => []
  | .jr _ => []
  | .jrl _ => []
  | .segend => []
  | .slath => []
  | .tbrd _ => []
  | .wbrd _ => []
  | .phase _ => []
  | .waitq _ => []
  | .waitf _ => []
  | .close _ => []
  | .sadv _ => []
  | .srew _ => []
  | .sstat _ => []
  | .ltwr _ => []
  | .ltrd _ => []
  | .fpwr _ => []
  | .fprd _ => []
  | .tswr _ => []
  | .tsrd _ => []
  | .fadd _ => []
  | .fsub _ => []
  | .fmul _ => []
  | .fdiv _ => []
  | .fsqrt _ => []
  | .fcmplt _ => []
  | .fcvti _ => []
  | .icvtf _ => []
  | .ldsD _ => []
  | .ldsWu _ => []
  | .ldsWs _ => []
  | .ldsHu _ => []
  | .ldsBu _ => []
  | .stsD _ => []
  | .stsW _ => []
  | .stsH _ => []
  | .stsB _ => []
  | .ldq _ => []
  | .ldqLineFill _ => []
  | .stq _ => []
  | .rstq _ => []
  | .migr _ => []
  | .austat _ => []
  | .amoadd _ => []
  | .amomax _ => []
  | .amoswp _ => []
  | .pamoadd _ => []
  | .flagrd _ => []
  | .flagset _ => []
  | .vmin _ => []
  | .vmax _ => []
  | .vabs _ => []
  | .vneg _ => []
  | .vand _ => []
  | .vor _ => []
  | .vxor _ => []
  | .vandn _ => []
  | .vshl _ => []
  | .vshr _ => []
  | .vsra _ => []
  | .vpopc _ => []
  | .vceq _ => []
  | .vcne _ => []
  | .vclt _ => []
  | .vcle _ => []
  | .vcun _ => []
  | .vsum _ => []
  | .vmaxr _ => []
  | .vminr _ => []
  | .vamaxr _ => []
  | .vsumsq _ => []
  | .vdot _ => []
  | .vbcast _ => []
  | .vzip _ => []
  | .vunzip _ => []
  | .vrev _ => []
  | .vshufl _ => []
  | .vrotl _ => []
  | .vunpk4 _ => []
  | .viota _ => []
  | .vzero _ => []
  | .accz _ => []
  | .chol _ => []
  | .lup _ => []
  | .givqr _ => []
  | .grot _ => []
  | .trsm _ => []
  | .accrd _ => []
  | .accwr _ => []
  | .pivrd _ => []
  | .gfrd _ => []
  | .estep _ => []
  | .resume _ => []
  | .eabort _ => []
  | .stbind _ => []
  | .stclr _ => []
  | .strd _ => []
  | .stmerge _ => []
  | .stgen _ => []
  | .stset _ => []
  | .mcstart _ => []
  | .mcstopStop _ => []
  | .mcstopSkip _ => []
  | .mcbase _ => []
  | .mcbind _ => []
  | .mcstat _ => []
  | .colstart _ => []
  | .colstat _ => []
  | .colabort _ => []
  | .trap _ => []
  | .tret => []
  | .ctxrd _ => []
  | .ctxwr _ => []
  | .ctxswSwitch _ => []
  | .ctxswSave _ => []
  | .ctxswRestore _ => []
  | .ctxswRelease _ => []
  | .ctxswEnd _ => []
  | .ctxswHold _ => []
  | .snap => []
  | .fence => []
  | .halt => []
  | .mtlbinv _ => []
  | .mtlbwr _ => []
  | .lptwr _ => []
  | .hvcallVersion _ => []
  | .hvcallPartinfo _ => []
  | .hvcallFrames _ => []
  | .hvcallAttest _ => []
  | .mcAct _ => []
  | .mcRd _ => []
  | .mcWr _ => []
  | .mcPre _ => []
  | .mcPrea => []
  | .mcRefpb _ => []
  | .mcRefab => []
  | .mcTag _ => []
  | .mcBind _ => []
  | .mcEnd => []
  | .mcDly _ => []
  | .cxNop => []
  | .cxCopy _ => []
  | .cxWaitDelivery _ => []
  | .cxWaitFlag _ => []
  | .cxPeer _ => []
  | .cxDone _ => []
  | .operandTap => []
  | .colabortArrival => []
  | .migrationLineCopy => []

end Sys2Proof.Machine
end

