-- ==== Sys2Proof/WellFormed.lean ====
section
/-! DEFINITION. Well-formed instructions: no field holds a reserved value, every governed register field is aligned and
every CSR number is defined (R78–R84, R87). -/

namespace Sys2Proof

/-- The instruction breaks no field rule, on a compute core or, where `sys`, on a system core. -/
def WellFormedOn (sys : Bool) (i : Instr) : Bool := (Machine.fieldFaults sys i).isEmpty

/-- The instruction breaks no field rule on a compute core. -/
abbrev WellFormed (i : Instr) : Prop := WellFormedOn false i = true

end Sys2Proof
end

