-- ==== Sys2Proof/Decode.lean ====
section
/-! DEFINITION. The decoder: from instruction words to an instruction, or to the reason why they are illegal (R73–R88), for
sequencer words, memory command words (R209) and collective words (R347), and the encoder that writes the words of
an instruction. -/

namespace Sys2Proof
open Sys2Proof.Machine

/-- What decoding finds: an instruction and its number of words, or the REASON, the WORD and the offending word's bits of
an illegal encoding (R88). -/
inductive Decoded where
  | ok (i : Instr) (words : Nat)
  | illegal (reason word raw : Nat)
  deriving DecidableEq, Repr

/-- What the first word alone says: a reserved major or minor (R81), or an instruction with the mask and pattern of its fixed and must-be-zero bits
(R75). -/
inductive FirstWord where
  | reserved (reason : Nat)
  | row (mask pattern : Nat) (i : Instr)

/-- The fields of shape DAB of a word. -/
def getDAB (w : Nat) : FDAB :=
  ⟨BitVec.ofNat 6 (bits w 22 17), BitVec.ofNat 6 (bits w 16 11), BitVec.ofNat 6 (bits w 10 5), bitB w 4, bitB w 3⟩

/-- The fields of shape DA of a word. -/
def getDA (w : Nat) : FDA :=
  ⟨BitVec.ofNat 6 (bits w 22 17), BitVec.ofNat 6 (bits w 16 11), bitB w 4⟩

/-- The fields of shape Imm of a word. -/
def getImm (w : Nat) : FImm :=
  ⟨BitVec.ofNat 6 (bits w 22 17), BitVec.ofNat 6 (bits w 16 11), bitB w 10, BitVec.ofNat 10 (bits w 9 0)⟩

/-- The fields of shape ShI of a word. -/
def getShI (w : Nat) : FShI :=
  ⟨BitVec.ofNat 6 (bits w 22 17), BitVec.ofNat 6 (bits w 16 11), bitB w 10, BitVec.ofNat 6 (bits w 5 0)⟩

/-- The fields of shape U of a word. -/
def getU (w : Nat) : FU :=
  ⟨BitVec.ofNat 6 (bits w 22 17), BitVec.ofNat 17 (bits w 16 0)⟩

/-- The fields of shape Idl of a word. -/
def getIdl (w : Nat) : FIdl :=
  ⟨BitVec.ofNat 17 (bits w 16 0)⟩

/-- The fields of shape Mov of a word. -/
def getMov (w : Nat) : FMov :=
  ⟨BitVec.ofNat 6 (bits w 22 17), BitVec.ofNat 6 (bits w 16 11), BitVec.ofNat 2 (bits w 10 9), bitB w 8⟩

/-- The fields of shape AW of a word. -/
def getAW (w : Nat) : FAW :=
  ⟨BitVec.ofNat 6 (bits w 16 11), BitVec.ofNat 2 (bits w 10 9)⟩

/-- The fields of shape DAW of a word. -/
def getDAW (w : Nat) : FDAW :=
  ⟨BitVec.ofNat 6 (bits w 22 17), BitVec.ofNat 6 (bits w 16 11), BitVec.ofNat 2 (bits w 10 9)⟩

/-- The fields of shape Brc of a word. -/
def getBrc (w : Nat) : FBrc :=
  ⟨BitVec.ofNat 6 (bits w 22 17), BitVec.ofNat 6 (bits w 16 11), bitB w 10, BitVec.ofNat 10 (bits w 9 0)⟩

/-- The fields of shape Br of a word. -/
def getBr (w : Nat) : FBr :=
  ⟨BitVec.ofNat 10 (bits w 9 0)⟩

/-- The fields of shape Grd of a word. -/
def getGrd (w : Nat) : FGrd :=
  ⟨BitVec.ofNat 6 (bits w 22 17), BitVec.ofNat 6 (bits w 16 11), bitB w 10⟩

/-- The fields of shape Loop of a word. -/
def getLoop (w : Nat) : FLoop :=
  ⟨BitVec.ofNat 6 (bits w 16 11), bitB w 10, BitVec.ofNat 10 (bits w 9 0)⟩

/-- The fields of shape Call of a word. -/
def getCall (w : Nat) : FCall :=
  ⟨BitVec.ofNat 16 (bits w 15 0)⟩

/-- The fields of shape A of a word. -/
def getA (w : Nat) : FA :=
  ⟨BitVec.ofNat 6 (bits w 16 11), bitB w 4⟩

/-- The fields of shape D of a word. -/
def getD (w : Nat) : FD :=
  ⟨BitVec.ofNat 6 (bits w 22 17)⟩

/-- The fields of shape A0 of a word. -/
def getA0 (w : Nat) : FA0 :=
  ⟨BitVec.ofNat 6 (bits w 16 11)⟩

/-- The fields of shape S of a word. -/
def getS (w : Nat) : FS :=
  ⟨BitVec.ofNat 4 (bits w 22 19)⟩

/-- The fields of shape SA of a word. -/
def getSA (w : Nat) : FSA :=
  ⟨BitVec.ofNat 4 (bits w 22 19), BitVec.ofNat 6 (bits w 10 5), bitB w 4⟩

/-- The fields of shape SD of a word. -/
def getSD (w : Nat) : FSD :=
  ⟨BitVec.ofNat 4 (bits w 22 19), BitVec.ofNat 6 (bits w 10 5)⟩

/-- The fields of shape AB of a word. -/
def getAB (w : Nat) : FAB :=
  ⟨BitVec.ofNat 6 (bits w 16 11), BitVec.ofNat 6 (bits w 10 5), bitB w 4, bitB w 3⟩

/-- The fields of shape Ls of a word. -/
def getLs (w : Nat) : FLs :=
  ⟨BitVec.ofNat 6 (bits w 22 17), BitVec.ofNat 6 (bits w 16 11), bitB w 8, BitVec.ofNat 5 (bits w 4 0)⟩

/-- The fields of shape V3 of a word. -/
def getV3 (w : Nat) : FV3 :=
  ⟨BitVec.ofNat 5 (bits w 22 18), BitVec.ofNat 5 (bits w 17 13), BitVec.ofNat 5 (bits w 12 8), BitVec.ofNat 3 (bits w 2 0)⟩

/-- The fields of shape V2 of a word. -/
def getV2 (w : Nat) : FV2 :=
  ⟨BitVec.ofNat 5 (bits w 22 18), BitVec.ofNat 5 (bits w 17 13), BitVec.ofNat 3 (bits w 2 0)⟩

/-- The fields of shape Vcvt of a word. -/
def getVcvt (w : Nat) : FVcvt :=
  ⟨BitVec.ofNat 5 (bits w 22 18), BitVec.ofNat 5 (bits w 17 13), BitVec.ofNat 5 (bits w 7 3), BitVec.ofNat 3 (bits w 2 0)⟩

/-- The fields of shape Vn of a word. -/
def getVn (w : Nat) : FVn :=
  ⟨BitVec.ofNat 5 (bits w 22 18), BitVec.ofNat 5 (bits w 17 13), BitVec.ofNat 5 (bits w 12 8), BitVec.ofNat 3 (bits w 2 0)⟩

/-- The fields of shape Vp of a word. -/
def getVp (w : Nat) : FVp :=
  ⟨BitVec.ofNat 5 (bits w 22 18), BitVec.ofNat 5 (bits w 17 13), BitVec.ofNat 3 (bits w 2 0)⟩

/-- The fields of shape Vh of a word. -/
def getVh (w : Nat) : FVh :=
  ⟨BitVec.ofNat 5 (bits w 22 18), BitVec.ofNat 5 (bits w 17 13), BitVec.ofNat 1 (bits w 0 0)⟩

/-- The fields of shape Vtoq of a word. -/
def getVtoq (w : Nat) : FVtoq :=
  ⟨BitVec.ofNat 5 (bits w 22 18), BitVec.ofNat 1 (bits w 17 17), BitVec.ofNat 4 (bits w 16 13), BitVec.ofNat 2 (bits w 12 11), BitVec.ofNat 3 (bits w 10 8), BitVec.ofNat 3 (bits w 2 0)⟩

/-- The fields of shape Vfromq of a word. -/
def getVfromq (w : Nat) : FVfromq :=
  ⟨BitVec.ofNat 1 (bits w 22 22), BitVec.ofNat 4 (bits w 21 18), BitVec.ofNat 5 (bits w 17 13), BitVec.ofNat 2 (bits w 12 11), BitVec.ofNat 3 (bits w 10 8), BitVec.ofNat 3 (bits w 2 0)⟩

/-- The fields of shape Viota of a word. -/
def getViota (w : Nat) : FViota :=
  ⟨BitVec.ofNat 5 (bits w 22 18), BitVec.ofNat 3 (bits w 2 0)⟩

/-- The fields of shape Vzero of a word. -/
def getVzero (w : Nat) : FVzero :=
  ⟨BitVec.ofNat 5 (bits w 22 18)⟩

/-- The fields of shape Mma of a word. -/
def getMma (w : Nat) : FMma :=
  ⟨BitVec.ofNat 7 (bits w 22 16), BitVec.ofNat 5 (bits w 15 11), BitVec.ofNat 5 (bits w 10 6), bitB w 5, bitB w 4, bitB w 3⟩

/-- The fields of shape T of a word. -/
def getT (w : Nat) : FT :=
  ⟨BitVec.ofNat 7 (bits w 22 16)⟩

/-- The fields of shape Amv of a word. -/
def getAmv (w : Nat) : FAmv :=
  ⟨BitVec.ofNat 7 (bits w 22 16), BitVec.ofNat 5 (bits w 15 11), BitVec.ofNat 3 (bits w 2 0)⟩

/-- The fields of shape TS of a word. -/
def getTS (w : Nat) : FTS :=
  ⟨BitVec.ofNat 7 (bits w 22 16), BitVec.ofNat 5 (bits w 15 11)⟩

/-- The fields of shape TU of a word. -/
def getTU (w : Nat) : FTU :=
  ⟨BitVec.ofNat 7 (bits w 22 16), BitVec.ofNat 7 (bits w 15 9)⟩

/-- The fields of shape Trsm of a word. -/
def getTrsm (w : Nat) : FTrsm :=
  ⟨BitVec.ofNat 7 (bits w 22 16), BitVec.ofNat 7 (bits w 15 9), BitVec.ofNat 4 (bits w 3 0)⟩

/-- The fields of shape Qr of a word. -/
def getQr (w : Nat) : FQr :=
  ⟨BitVec.ofNat 5 (bits w 22 18), BitVec.ofNat 5 (bits w 17 13), BitVec.ofNat 2 (bits w 9 8), BitVec.ofNat 3 (bits w 7 5), bitB w 4⟩

/-- The fields of shape Qn of a word. -/
def getQn (w : Nat) : FQn :=
  ⟨BitVec.ofNat 5 (bits w 22 18), BitVec.ofNat 5 (bits w 17 13), BitVec.ofNat 2 (bits w 9 8), BitVec.ofNat 3 (bits w 7 5)⟩

/-- The fields of shape Qd of a word. -/
def getQd (w : Nat) : FQd :=
  ⟨BitVec.ofNat 5 (bits w 22 18), BitVec.ofNat 5 (bits w 17 13)⟩

/-- The fields of shape P2 of a word. -/
def getP2 (w : Nat) : FP2 :=
  ⟨BitVec.ofNat 6 (bits w 22 17), BitVec.ofNat 6 (bits w 16 11)⟩

/-- The fields of shape P1 of a word. -/
def getP1 (w : Nat) : FP1 :=
  ⟨BitVec.ofNat 6 (bits w 22 17)⟩

/-- The fields of shape CsrR of a word. -/
def getCsrR (w : Nat) : FCsrR :=
  ⟨BitVec.ofNat 6 (bits w 22 17), BitVec.ofNat 11 (bits w 10 0)⟩

/-- The fields of shape CsrW of a word. -/
def getCsrW (w : Nat) : FCsrW :=
  ⟨BitVec.ofNat 6 (bits w 16 11), BitVec.ofNat 11 (bits w 10 0)⟩

/-- The fields of SEG from its four words (R79). -/
def getSeg (w w1 w2 w3 : Nat) : FSeg :=
  ⟨bitB w 22, BitVec.ofNat 32 w1, BitVec.ofNat 32 w2, BitVec.ofNat 32 w3⟩

/-- The fields of OPEN from its two words (R80). -/
def getOpen (w w1 : Nat) : FOpen :=
  ⟨BitVec.ofNat 4 (bits w 22 19), BitVec.ofNat 8 (bits w 18 11), BitVec.ofNat 6 (bits w 10 5),
    bitB w 4, bitB w 0, bitB w1 31, BitVec.ofNat 3 (bits w1 30 28), BitVec.ofNat 12 (bits w1 27 16),
    BitVec.ofNat 16 (bits w1 15 0)⟩

/-- The first word of major 0x01 (R81). -/
def first01 (w : Nat) : FirstWord :=
  match bits w 2 0 with
  | 0 => .row 0x1F800007 0x00800000 (.add (getDAB w))
  | 1 => .row 0x1F800007 0x00800001 (.sub (getDAB w))
  | 2 => .row 0x1F800007 0x00800002 (.and (getDAB w))
  | 3 => .row 0x1F800007 0x00800003 (.or (getDAB w))
  | 4 => .row 0x1F800007 0x00800004 (.xor (getDAB w))
  | 5 => .row 0x1F800007 0x00800005 (.shl (getDAB w))
  | 6 => .row 0x1F800007 0x00800006 (.shr (getDAB w))
  | 7 => .row 0x1F800007 0x00800007 (.sra (getDAB w))
  | _ => .reserved 2

/-- The first word of major 0x02 (R81). -/
def first02 (w : Nat) : FirstWord :=
  match bits w 2 0 with
  | 0 => .row 0x1F800007 0x01000000 (.mul (getDAB w))
  | 1 => .row 0x1F800007 0x01000001 (.mulhs (getDAB w))
  | 2 => .row 0x1F800007 0x01000002 (.mulhu (getDAB w))
  | 3 => .row 0x1F800007 0x01000003 (.min (getDAB w))
  | 4 => .row 0x1F800007 0x01000004 (.max (getDAB w))
  | 5 => .row 0x1F800007 0x01000005 (.minu (getDAB w))
  | 6 => .row 0x1F800007 0x01000006 (.maxu (getDAB w))
  | 7 => .row 0x1F800007 0x01000007 (.andn (getDAB w))
  | _ => .reserved 2

/-- The first word of major 0x03 (R81). -/
def first03 (w : Nat) : FirstWord :=
  match bits w 2 0 with
  | 0 => .row 0x1F800007 0x01800000 (.seq (getDAB w))
  | 1 => .row 0x1F800007 0x01800001 (.sne (getDAB w))
  | 2 => .row 0x1F800007 0x01800002 (.slt (getDAB w))
  | 3 => .row 0x1F800007 0x01800003 (.sltu (getDAB w))
  | 4 => .row 0x1F800007 0x01800004 (.sge (getDAB w))
  | 5 => .row 0x1F800007 0x01800005 (.sgeu (getDAB w))
  | 6 => .row 0x1F800007 0x01800006 (.bext (getDAB w))
  | 7 => .row 0x1F800007 0x01800007 (.bflip (getDAB w))
  | _ => .reserved 2

/-- The first word of major 0x04 (R81). -/
def first04 (w : Nat) : FirstWord :=
  match bits w 2 0 with
  | 0 => .row 0x1F800007 0x02000000 (.div (getDAB w))
  | 1 => .row 0x1F800007 0x02000001 (.divu (getDAB w))
  | 2 => .row 0x1F800007 0x02000002 (.rem (getDAB w))
  | 3 => .row 0x1F800007 0x02000003 (.remu (getDAB w))
  | _ => .reserved 2

/-- The first word of major 0x05 (R81). -/
def first05 (w : Nat) : FirstWord :=
  match bits w 2 0 with
  | 0 => .row 0x1F8007EF 0x02800000 (.clz (getDA w))
  | 1 => .row 0x1F8007EF 0x02800001 (.ctz (getDA w))
  | 2 => .row 0x1F8007EF 0x02800002 (.popc (getDA w))
  | 3 => .row 0x1F8007EF 0x02800003 (.brev (getDA w))
  | 4 => .row 0x1F8007EF 0x02800004 (.bswap (getDA w))
  | 5 => .row 0x1F800007 0x02800005 (.sext (getDAB w))
  | 6 => .row 0x1F800007 0x02800006 (.zext (getDAB w))
  | _ => .reserved 2

/-- The first word of major 0x06 (R81). -/
def first06 (w : Nat) : FirstWord :=
  .row 0x1F800000 0x03000000 (.addi (getImm w))

/-- The first word of major 0x07 (R81). -/
def first07 (w : Nat) : FirstWord :=
  .row 0x1F800000 0x03800000 (.andi (getImm w))

/-- The first word of major 0x08 (R81). -/
def first08 (w : Nat) : FirstWord :=
  .row 0x1F800000 0x04000000 (.ori (getImm w))

/-- The first word of major 0x09 (R81). -/
def first09 (w : Nat) : FirstWord :=
  .row 0x1F800000 0x04800000 (.xori (getImm w))

/-- The first word of major 0x0A (R81). -/
def first0A (w : Nat) : FirstWord :=
  .row 0x1F8003C0 0x05000000 (.shli (getShI w))

/-- The first word of major 0x0B (R81). -/
def first0B (w : Nat) : FirstWord :=
  .row 0x1F8003C0 0x05800000 (.shri (getShI w))

/-- The first word of major 0x0C (R81). -/
def first0C (w : Nat) : FirstWord :=
  .row 0x1F8003C0 0x06000000 (.srai (getShI w))

/-- The first word of major 0x0D (R81). -/
def first0D (w : Nat) : FirstWord :=
  .row 0x1F800000 0x06800000 (.slti (getImm w))

/-- The first word of major 0x0E (R81). -/
def first0E (w : Nat) : FirstWord :=
  .row 0x1F800000 0x07000000 (.li (getU w))

/-- The first word of major 0x0F (R81). -/
def first0F (w : Nat) : FirstWord :=
  .row 0x1F800000 0x07800000 (.lcat (getU w))

/-- The first word of major 0x00 (R81). -/
def first00 (w : Nat) : FirstWord :=
  .row 0x1FFE0000 0x00000000 (.idle (getIdl w))

/-- The first word of major 0x10 (R81). -/
def first10 (w : Nat) : FirstWord :=
  match bits w 7 5 with
  | 0 => .row 0x1F8000FF 0x08000000 (.mov (getMov w))
  | 1 => .row 0x1FFE01FF 0x08000020 (.drop (getAW w))
  | 2 => .row 0x1F8001FF 0x08000040 (.qcnt (getDAW w))
  | 3 => .row 0x1FFE01FF 0x08000060 (.qclr (getAW w))
  | _ => .reserved 2

/-- The first word of major 0x11 (R81). -/
def first11 (w : Nat) : FirstWord :=
  if bits w 22 10 = 1 then .row 0x1F800000 0x08800000 (.br (getBr w)) else .row 0x1F800000 0x08800000 (.brc (getBrc w))

/-- The first word of major 0x12 (R81). -/
def first12 (w : Nat) : FirstWord :=
  .row 0x1F8003FF 0x09000000 (.grd (getGrd w))

/-- The first word of major 0x13 (R81). -/
def first13 (w : Nat) : FirstWord :=
  .row 0x1FFE0000 0x09800000 (.loop (getLoop w))

/-- The first word of major 0x14 (R81). -/
def first14 (w : Nat) : FirstWord :=
  .row 0x1FFF0000 0x0A000000 (.call (getCall w))

/-- The first word of major 0x15 (R81). -/
def first15 (w : Nat) : FirstWord :=
  match bits w 2 0 with
  | 0 => .row 0x1FFE07EF 0x0A800000 (.jr (getA w))
  | 1 => .row 0x1FFE07EF 0x0A800001 (.jrl (getA w))
  | _ => .reserved 2

/-- The first word of major 0x16 (R81). -/
def first16 (w : Nat) (e : List Nat) : FirstWord :=
  .row 0x1FBFFFFF 0x0B000000 (.seg (getSeg w (e.getD 0 0) (e.getD 1 0) (e.getD 2 0)))

/-- The first word of major 0x17 (R81). -/
def first17 (w : Nat) : FirstWord :=
  match bits w 2 0 with
  | 0 => .row 0x1FFFFFFF 0x0B800000 .segend
  | 1 => .row 0x1FFFFFFF 0x0B800001 .slath
  | 2 => .row 0x1F81FFFF 0x0B800002 (.tbrd (getD w))
  | 3 => .row 0x1F81FFFF 0x0B800003 (.wbrd (getD w))
  | 4 => .row 0x1FFE07EF 0x0B800004 (.phase (getA w))
  | 5 => .row 0x1FFE07FF 0x0B800005 (.waitq (getA0 w))
  | 6 => .row 0x1FFE07EF 0x0B800006 (.waitf (getA w))
  | _ => .reserved 2

/-- The first word of major 0x18 (R81). -/
def first18 (w : Nat) (e : List Nat) : FirstWord :=
  if bits w 3 0 < 2 then .row 0x1F80000E 0x0C000000 (.openS (getOpen w (e.getD 0 0))) else .reserved 2

/-- The first word of major 0x19 (R81). -/
def first19 (w : Nat) : FirstWord :=
  match bits w 3 0 with
  | 0 => .row 0x1F87FFFF 0x0C800000 (.close (getS w))
  | 1 => .row 0x1F87F80F 0x0C800001 (.sadv (getSA w))
  | 2 => .row 0x1F87FFFF 0x0C800002 (.srew (getS w))
  | 3 => .row 0x1F87F81F 0x0C800003 (.sstat (getSD w))
  | _ => .reserved 2

/-- The first word of major 0x1A (R81). -/
def first1A (w : Nat) : FirstWord :=
  match bits w 2 0 with
  | 0 => .row 0x1FFE0007 0x0D000000 (.ltwr (getAB w))
  | 1 => .row 0x1F8007EF 0x0D000001 (.ltrd (getDA w))
  | 2 => .row 0x1FFE0007 0x0D000002 (.fpwr (getAB w))
  | 3 => .row 0x1F8007EF 0x0D000003 (.fprd (getDA w))
  | 4 => .row 0x1FFE0007 0x0D000004 (.tswr (getAB w))
  | 5 => .row 0x1F8007EF 0x0D000005 (.tsrd (getDA w))
  | _ => .reserved 2

/-- The first word of major 0x1B (R81). -/
def first1B (w : Nat) : FirstWord :=
  match bits w 2 0 with
  | 0 => .row 0x1F800007 0x0D800000 (.fadd (getDAB w))
  | 1 => .row 0x1F800007 0x0D800001 (.fsub (getDAB w))
  | 2 => .row 0x1F800007 0x0D800002 (.fmul (getDAB w))
  | 3 => .row 0x1F800007 0x0D800003 (.fdiv (getDAB w))
  | 4 => .row 0x1F8007EF 0x0D800004 (.fsqrt (getDA w))
  | 5 => .row 0x1F800007 0x0D800005 (.fcmplt (getDAB w))
  | 6 => .row 0x1F8007EF 0x0D800006 (.fcvti (getDA w))
  | 7 => .row 0x1F8007EF 0x0D800007 (.icvtf (getDA w))
  | _ => .reserved 2

/-- The first word of major 0x1C (R81). -/
def first1C (w : Nat) : FirstWord :=
  match bits w 7 5 with
  | 0 => .row 0x1F8006E0 0x0E000000 (.ldsD (getLs w))
  | 1 => .row 0x1F8006E0 0x0E000020 (.ldsWu (getLs w))
  | 2 => .row 0x1F8006E0 0x0E000040 (.ldsWs (getLs w))
  | 3 => .row 0x1F8006E0 0x0E000060 (.ldsHu (getLs w))
  | 4 => .row 0x1F8006E0 0x0E000080 (.ldsBu (getLs w))
  | _ => .reserved 2

/-- The first word of major 0x1D (R81). -/
def first1D (w : Nat) : FirstWord :=
  match bits w 7 5 with
  | 0 => .row 0x1F8006E0 0x0E800000 (.stsD (getLs w))
  | 1 => .row 0x1F8006E0 0x0E800020 (.stsW (getLs w))
  | 2 => .row 0x1F8006E0 0x0E800040 (.stsH (getLs w))
  | 3 => .row 0x1F8006E0 0x0E800060 (.stsB (getLs w))
  | _ => .reserved 2

/-- The first word of major 0x1E (R81). -/
def first1E (w : Nat) : FirstWord :=
  match bits w 2 0 with
  | 0 => .row 0x1F8007EF 0x0F000000 (.ldq (getDA w))
  | 1 => .row 0x1FFE0007 0x0F000001 (.stq (getAB w))
  | 2 => .row 0x1FFE0007 0x0F000002 (.rstq (getAB w))
  | 3 => .row 0x1FFE0007 0x0F000003 (.migr (getAB w))
  | 4 => .row 0x1F81FFFF 0x0F000004 (.austat (getD w))
  | _ => .reserved 2

/-- The first word of major 0x1F (R81). -/
def first1F (w : Nat) : FirstWord :=
  match bits w 2 0 with
  | 0 => .row 0x1F800007 0x0F800000 (.amoadd (getDAB w))
  | 1 => .row 0x1F800007 0x0F800001 (.amomax (getDAB w))
  | 2 => .row 0x1F800007 0x0F800002 (.amoswp (getDAB w))
  | 3 => .row 0x1F800007 0x0F800003 (.amocas (getDAB w))
  | 4 => .row 0x1F800007 0x0F800004 (.pamoadd (getDAB w))
  | 5 => .row 0x1F800007 0x0F800005 (.pamocas (getDAB w))
  | 6 => .row 0x1F8007EF 0x0F800006 (.flagrd (getDA w))
  | 7 => .row 0x1FFE0007 0x0F800007 (.flagset (getAB w))
  | _ => .reserved 2

/-- The first word of major 0x20 (R81). -/
def first20 (w : Nat) : FirstWord :=
  match bits w 7 3 with
  | 0 => .row 0x1F8000F8 0x10000000 (.vadd (getV3 w))
  | 1 => .row 0x1F8000F8 0x10000008 (.vsub (getV3 w))
  | 2 => .row 0x1F8000F8 0x10000010 (.vmul (getV3 w))
  | 3 => .row 0x1F8000F8 0x10000018 (.vfma (getV3 w))
  | 4 => .row 0x1F8000F8 0x10000020 (.vfms (getV3 w))
  | 5 => .row 0x1F8000F8 0x10000028 (.vmin (getV3 w))
  | 6 => .row 0x1F8000F8 0x10000030 (.vmax (getV3 w))
  | 7 => .row 0x1F801FF8 0x10000038 (.vabs (getV2 w))
  | 8 => .row 0x1F801FF8 0x10000040 (.vneg (getV2 w))
  | 9 => .row 0x1F8000F8 0x10000048 (.vadds (getV3 w))
  | 10 => .row 0x1F8000F8 0x10000050 (.vsubs (getV3 w))
  | 11 => .row 0x1F8000F8 0x10000058 (.vmulhi (getV3 w))
  | 12 => .row 0x1F8000F8 0x10000060 (.vdiff (getV3 w))
  | _ => .reserved 2

/-- The first word of major 0x21 (R81). -/
def first21 (w : Nat) : FirstWord :=
  match bits w 7 3 with
  | 0 => .row 0x1F801FF8 0x10800000 (.vrcp (getV2 w))
  | 1 => .row 0x1F801FF8 0x10800008 (.vrsq (getV2 w))
  | 2 => .row 0x1F801FF8 0x10800010 (.vsqrt (getV2 w))
  | 3 => .row 0x1F801FF8 0x10800018 (.vexp2 (getV2 w))
  | 4 => .row 0x1F801FF8 0x10800020 (.vlog2 (getV2 w))
  | 5 => .row 0x1F801FF8 0x10800028 (.vfloor (getV2 w))
  | 6 => .row 0x1F801FF8 0x10800030 (.vround (getV2 w))
  | 7 => .row 0x1F8000F8 0x10800038 (.vscale (getV3 w))
  | _ => .reserved 2

/-- The first word of major 0x22 (R81). -/
def first22 (w : Nat) : FirstWord :=
  match bits w 7 3 with
  | 0 => .row 0x1F8000F8 0x11000000 (.vand (getV3 w))
  | 1 => .row 0x1F8000F8 0x11000008 (.vor (getV3 w))
  | 2 => .row 0x1F8000F8 0x11000010 (.vxor (getV3 w))
  | 3 => .row 0x1F8000F8 0x11000018 (.vandn (getV3 w))
  | 4 => .row 0x1F8000F8 0x11000020 (.vshl (getV3 w))
  | 5 => .row 0x1F8000F8 0x11000028 (.vshr (getV3 w))
  | 6 => .row 0x1F8000F8 0x11000030 (.vsra (getV3 w))
  | 7 => .row 0x1F801FF8 0x11000038 (.vpopc (getV2 w))
  | _ => .reserved 2

/-- The first word of major 0x23 (R81). -/
def first23 (w : Nat) : FirstWord :=
  match bits w 7 3 with
  | 0 => .row 0x1F8000F8 0x11800000 (.vceq (getV3 w))
  | 1 => .row 0x1F8000F8 0x11800008 (.vcne (getV3 w))
  | 2 => .row 0x1F8000F8 0x11800010 (.vclt (getV3 w))
  | 3 => .row 0x1F8000F8 0x11800018 (.vcle (getV3 w))
  | 4 => .row 0x1F8000F8 0x11800020 (.vcun (getV3 w))
  | 5 => .row 0x1F8000F8 0x11800028 (.vsel (getV3 w))
  | _ => .reserved 2

/-- The first word of major 0x24 (R81). -/
def first24 (w : Nat) : FirstWord :=
  match bits w 7 3 with
  | 0 => .row 0x1F801FF8 0x12000000 (.vsum (getV2 w))
  | 1 => .row 0x1F801FF8 0x12000008 (.vmaxr (getV2 w))
  | 2 => .row 0x1F801FF8 0x12000010 (.vminr (getV2 w))
  | 3 => .row 0x1F801FF8 0x12000018 (.vamaxr (getV2 w))
  | 4 => .row 0x1F801FF8 0x12000020 (.vsumsq (getV2 w))
  | 5 => .row 0x1F8000F8 0x12000028 (.vdot (getV3 w))
  | _ => .reserved 2

/-- The first word of major 0x25 (R81). -/
def first25 (w : Nat) : FirstWord :=
  .row 0x1F801F00 0x12800000 (.vcvt (getVcvt w))

/-- The first word of major 0x26 (R81). -/
def first26 (w : Nat) : FirstWord :=
  match bits w 7 3 with
  | 0 => .row 0x1F8000F8 0x13000000 (.vbcast (getVn w))
  | 1 => .row 0x1F8000F8 0x13000008 (.vzip (getV3 w))
  | 2 => .row 0x1F8000F8 0x13000010 (.vunzip (getV3 w))
  | 3 => .row 0x1F801FF8 0x13000018 (.vrev (getV2 w))
  | 4 => .row 0x1F8000F8 0x13000020 (.vshufl (getV3 w))
  | 5 => .row 0x1F8000F8 0x13000028 (.vrotl (getVn w))
  | 6 => .row 0x1F801FF8 0x13000030 (.vunpk3 (getVp w))
  | 7 => .row 0x1F801FFE 0x13000038 (.vunpk4 (getVh w))
  | _ => .reserved 2

/-- The first word of major 0x27 (R81). -/
def first27 (w : Nat) : FirstWord :=
  match bits w 7 3 with
  | 0 => .row 0x1F8000F8 0x13800000 (.vtoq (getVtoq w))
  | 1 => .row 0x1F8000F8 0x13800008 (.vfromq (getVfromq w))
  | 2 => .row 0x1F83FFF8 0x13800010 (.viota (getViota w))
  | 3 => .row 0x1F83FFFF 0x13800018 (.vzero (getVzero w))
  | _ => .reserved 2

/-- The first word of major 0x28 (R81). -/
def first28 (w : Nat) : FirstWord :=
  match bits w 2 0 with
  | 0 => .row 0x1F800007 0x14000000 (.mmaFlt (getMma w))
  | 1 => .row 0x1F800007 0x14000001 (.mmaW4 (getMma w))
  | 2 => .row 0x1F800007 0x14000002 (.mmaL6 (getMma w))
  | 3 => .row 0x1F800007 0x14000003 (.mmaT3 (getMma w))
  | 4 => .row 0x1F800007 0x14000004 (.mmaI8 (getMma w))
  | 5 => .row 0x1F800007 0x14000005 (.mmaF32 (getMma w))
  | _ => .reserved 2

/-- The first word of major 0x29 (R81). -/
def first29 (w : Nat) : FirstWord :=
  match bits w 5 3 with
  | 0 => .row 0x1F80FFFF 0x14800000 (.accz (getT w))
  | 1 => .row 0x1F8007F8 0x14800008 (.accmv (getAmv w))
  | 2 => .row 0x1F8007FF 0x14800010 (.accld (getTS w))
  | 3 => .row 0x1F8007FF 0x14800018 (.accadd (getTS w))
  | _ => .reserved 2

/-- The first word of major 0x2A (R81). -/
def first2A (w : Nat) : FirstWord :=
  match bits w 8 6 with
  | 0 => .row 0x1F80FFFF 0x15000000 (.chol (getT w))
  | 1 => .row 0x1F80FFFF 0x15000040 (.lup (getT w))
  | 2 => .row 0x1F80FFFF 0x15000080 (.givqr (getT w))
  | 3 => .row 0x1F8001FF 0x150000C0 (.grot (getTU w))
  | 4 => .row 0x1F8001F0 0x15000100 (.trsm (getTrsm w))
  | _ => .reserved 2

/-- The first word of major 0x2B (R81). -/
def first2B (w : Nat) : FirstWord :=
  match bits w 2 0 with
  | 0 => .row 0x1F8007EF 0x15800000 (.accrd (getDA w))
  | 1 => .row 0x1FFE0007 0x15800001 (.accwr (getAB w))
  | 2 => .row 0x1F8007EF 0x15800002 (.pivrd (getDA w))
  | 3 => .row 0x1F8007EF 0x15800003 (.gfrd (getDA w))
  | 4 => .row 0x1F8007EF 0x15800004 (.estep (getDA w))
  | 5 => .row 0x1FFE07EF 0x15800005 (.resume (getA w))
  | 6 => .row 0x1FFE07EF 0x15800006 (.eabort (getA w))
  | _ => .reserved 2

/-- The first word of major 0x30 (R81). -/
def first30 (w : Nat) : FirstWord :=
  match bits w 12 10 with
  | 0 => .row 0x1F801C0F 0x18000000 (.quantTensor (getQr w))
  | 1 => .row 0x1F801C0F 0x18000400 (.quantBlock (getQn w))
  | 2 => .row 0x1F801C0F 0x18000800 (.quantBlockTensor (getQr w))
  | 3 => .row 0x1F801C0F 0x18000C00 (.quantCast (getQn w))
  | _ => .reserved 2

/-- The first word of major 0x31 (R81). -/
def first31 (w : Nat) : FirstWord :=
  match bits w 12 10 with
  | 0 => .row 0x1F801FFF 0x18800000 (.dequantTensor (getQd w))
  | 1 => .row 0x1F801FFF 0x18800400 (.dequantBlock (getQd w))
  | 2 => .row 0x1F801FFF 0x18800800 (.dequantBlockTensor (getQd w))
  | 3 => .row 0x1F801FFF 0x18800C00 (.dequantCast (getQd w))
  | _ => .reserved 2

/-- The first word of major 0x32 (R81). -/
def first32 (w : Nat) : FirstWord :=
  match bits w 2 0 with
  | 0 => .row 0x1FFE0007 0x19000000 (.stbind (getAB w))
  | 1 => .row 0x1FFE07EF 0x19000001 (.stclr (getA w))
  | 2 => .row 0x1F8007EF 0x19000002 (.strd (getDA w))
  | 3 => .row 0x1FFE07EF 0x19000003 (.stmerge (getA w))
  | 4 => .row 0x1F8007EF 0x19000004 (.stgen (getDA w))
  | 5 => .row 0x1FFE0007 0x19000005 (.stset (getAB w))
  | _ => .reserved 2

/-- The first word of major 0x34 (R81). -/
def first34 (w : Nat) : FirstWord :=
  match bits w 10 8 with
  | 0 => .row 0x1F8007FF 0x1A000000 (.mcstart (getP2 w))
  | 1 => .row 0x1F8007FF 0x1A000100 (.mcstopStop (getP2 w))
  | 2 => .row 0x1F8007FF 0x1A000200 (.mcbase (getP2 w))
  | 3 => .row 0x1F8007FF 0x1A000300 (.mcbind (getP2 w))
  | 4 => .row 0x1F8007FF 0x1A000400 (.mcstat (getP2 w))
  | _ => .reserved 2

/-- The first word of major 0x35 (R81). -/
def first35 (w : Nat) : FirstWord :=
  match bits w 10 8 with
  | 0 => .row 0x1F8007FF 0x1A800000 (.colstart (getP2 w))
  | 1 => .row 0x1F8007FF 0x1A800100 (.colstat (getP2 w))
  | 2 => .row 0x1F81FFFF 0x1A800200 (.colabort (getP1 w))
  | _ => .reserved 2

/-- The first word of major 0x38 (R81). -/
def first38 (w : Nat) : FirstWord :=
  .row 0x1F81F800 0x1C000000 (.csrrd (getCsrR w))

/-- The first word of major 0x39 (R81). -/
def first39 (w : Nat) : FirstWord :=
  .row 0x1FFE0000 0x1C800000 (.csrwr (getCsrW w))

/-- The first word of major 0x3A (R81). -/
def first3A (w : Nat) : FirstWord :=
  match bits w 2 0 with
  | 0 => .row 0x1FFE07EF 0x1D000000 (.trap (getA w))
  | 1 => .row 0x1FFFFFFF 0x1D000001 .tret
  | 2 => .row 0x1F8007EF 0x1D000002 (.ctxrd (getDA w))
  | 3 => .row 0x1FFE0007 0x1D000003 (.ctxwr (getAB w))
  | 4 => .row 0x1FFE07EF 0x1D000004 (.ctxswSwitch (getA w))
  | 5 => .row 0x1FFFFFFF 0x1D000005 .snap
  | 6 => .row 0x1FFFFFFF 0x1D000006 .fence
  | 7 => .row 0x1FFFFFFF 0x1D000007 .halt
  | _ => .reserved 2

/-- The first word of major 0x3B (R81). -/
def first3B (w : Nat) : FirstWord :=
  match bits w 2 0 with
  | 0 => .row 0x1F800007 0x1D800000 (.mtlbinv (getDAB w))
  | 1 => .row 0x1F800007 0x1D800001 (.mtlbwr (getDAB w))
  | 2 => .row 0x1F800007 0x1D800002 (.lptwr (getDAB w))
  | 3 => .row 0x1F800007 0x1D800003 (.hvcallVersion (getDAB w))
  | _ => .reserved 2

/-- What the first word says, by its major opcode (R73, R81); `e` holds the words after it. A row's mask has every bit that its format does not
name, which must be as in the pattern, zero (R75). -/
def firstWord (w : Nat) (e : List Nat) : FirstWord :=
  match bits w 28 23 with
  | 0x01 => first01 w
  | 0x02 => first02 w
  | 0x03 => first03 w
  | 0x04 => first04 w
  | 0x05 => first05 w
  | 0x06 => first06 w
  | 0x07 => first07 w
  | 0x08 => first08 w
  | 0x09 => first09 w
  | 0x0A => first0A w
  | 0x0B => first0B w
  | 0x0C => first0C w
  | 0x0D => first0D w
  | 0x0E => first0E w
  | 0x0F => first0F w
  | 0x00 => first00 w
  | 0x10 => first10 w
  | 0x11 => first11 w
  | 0x12 => first12 w
  | 0x13 => first13 w
  | 0x14 => first14 w
  | 0x15 => first15 w
  | 0x16 => first16 w e
  | 0x17 => first17 w
  | 0x18 => first18 w e
  | 0x19 => first19 w
  | 0x1A => first1A w
  | 0x1B => first1B w
  | 0x1C => first1C w
  | 0x1D => first1D w
  | 0x1E => first1E w
  | 0x1F => first1F w
  | 0x20 => first20 w
  | 0x21 => first21 w
  | 0x22 => first22 w
  | 0x23 => first23 w
  | 0x24 => first24 w
  | 0x25 => first25 w
  | 0x26 => first26 w
  | 0x27 => first27 w
  | 0x28 => first28 w
  | 0x29 => first29 w
  | 0x2A => first2A w
  | 0x2B => first2B w
  | 0x30 => first30 w
  | 0x31 => first31 w
  | 0x32 => first32 w
  | 0x34 => first34 w
  | 0x35 => first35 w
  | 0x38 => first38 w
  | 0x39 => first39 w
  | 0x3A => first3A w
  | 0x3B => first3B w
  | _ => .reserved 1

/-- The number of words of an instruction, a guard prefix counted alone (R27, R79, R80). -/
def wordCount : Instr → Nat
  | .seg _ => 4
  | .openS _ => 2
  | _ => 1

/-- The majors and instructions a system core may execute (R403). -/
def sysLegal (w : Nat) : Bool :=
  let maj := bits w 28 23
  decide (maj ≤ 0x15) || decide (0x1B ≤ maj ∧ maj ≤ 0x1D)
    || (maj == 0x1F && (bits w 2 0 == 4 || bits w 2 0 == 5))
    || (maj == 0x3A) || maj == 0x38 || maj == 0x39 || maj == 0x3B
    || (maj == 0x17 && bits w 2 0 == 3)

/-- All faults of one instruction at the head of the words, without the guard rules: (reason, word) pairs. A word of major 0x3B on
a compute core has REASON 0x07 alone (R81). A bit of the row's mask that differs from its pattern is a must-be-zero bit that is set (R75, R88). -/
def ownFaults (sys : Bool) (w : Nat) (e : List Nat) : List FieldFault :=
  if sys && !sysLegal w then (match firstWord w e with | .reserved 1 => [(1, 0)] | _ => [(2, 0)])
  else if !sys && bits w 28 23 == 0x3B then [(7, 0)]
  else
    match firstWord w e with
    | .reserved reason => [(reason, 0)]
    | .row mask pattern i =>
      fieldFaults sys i ++ bad 3 (bits w 28 23 == 0x30 && bitB w 10 && bitB w 4) ++ bad 4 (w &&& mask != pattern) ++ (match i with | .slath => bad 4 (bits w 31 29 != 0) | _ => [])

/-- The kinds of instruction that no guard may stand before (R86). -/
def guardForbidden (w : Nat) : Bool :=
  let maj := bits w 28 23
  maj == 0x11 || maj == 0x12 || maj == 0x13 || maj == 0x16 || maj == 0x18 || (maj == 0x17 && (bits w 2 0 == 0 || bits w 2 0 == 1))

/-- The faults of a guarded word, carried by WORD 4 (R86, R88); a kind of several words is forbidden, and what would be its
further words is not looked at. The OFF10 of a GRD has REASON 0x06 in place of 0x04. -/
def guardedFaults (sys : Bool) (w : Nat) : List FieldFault :=
  (((ownFaults sys (w % 2 ^ 29) []).filter (fun f => f.2 == 0 && !(bits w 28 23 == 0x12 && f.1 == 4))).map (fun f => (f.1, 4)))
    ++ bad 6 (bits w 31 29 != 0 || guardForbidden w) 4

/-- The smaller fault: the lower reason, then the lower word (R88). -/
def minFault (a b : FieldFault) : FieldFault :=
  if a.1 < b.1 || (a.1 == b.1 && decide (a.2 ≤ b.2)) then a else b

/-- The faults of the words at the head of the list, the guarded word's among them (R87). -/
def allFaults (sys : Bool) (w : Nat) (e : List Nat) : List FieldFault :=
  if bits w 28 23 = 0x12 then
    bad 6 (bits w 9 0 != 0) 0 ++ guardedFaults sys (e.getD 0 0)
  else ownFaults sys w e

/-- Decodes the instruction whose words stand at the head of the list. Every word of an instruction is looked at,
the guarded word after GRD included (R87). -/
def decode (sys : Bool) : List Nat → Decoded
  | [] => .illegal 1 0 0
  | w :: e =>
    match allFaults sys w e with
    | [] =>
      match firstWord w e with
      | .row _ _ i => .ok i (wordCount i)
      | .reserved reason => .illegal reason 0 w
    | f :: fs =>
      let m := fs.foldl minFault f
      .illegal m.1 m.2 (if m.2 = 0 then w else if m.2 = 4 then e.getD 0 0 else e.getD (m.2 - 1) 0)


/-- The fields of a memory command word of shape McAct (R209). -/
def getMcAct (w : Nat) : FMcAct :=
  ⟨BitVec.ofNat 4 (bits w 19 16), BitVec.ofNat 16 (bits w 15 0)⟩

/-- The fields of a memory command word of shape McCol (R209). -/
def getMcCol (w : Nat) : FMcCol :=
  ⟨BitVec.ofNat 4 (bits w 19 16), BitVec.ofNat 4 (bits w 15 12), bitB w 11, BitVec.ofNat 11 (bits w 10 0)⟩

/-- The fields of a memory command word of shape McBank (R209). -/
def getMcBank (w : Nat) : FMcBank :=
  ⟨BitVec.ofNat 4 (bits w 19 16)⟩

/-- The fields of a memory command word of shape McTag (R209). -/
def getMcTag (w : Nat) : FMcTag :=
  ⟨BitVec.ofNat 16 (bits w 15 0)⟩

/-- The fields of a memory command word of shape McBind (R209). -/
def getMcBind (w : Nat) : FMcBind :=
  ⟨BitVec.ofNat 2 (bits w 1 0)⟩

/-- The fields of a memory command word of shape McSvw (R209). -/
def getMcSvw (w : Nat) : FMcSvw :=
  ⟨BitVec.ofNat 2 (bits w 19 18), BitVec.ofNat 4 (bits w 17 14), BitVec.ofNat 14 (bits w 13 0)⟩

/-- The fields of a memory command word of shape McLoop (R209). -/
def getMcLoop (w : Nat) : FMcLoop :=
  ⟨BitVec.ofNat 1 (bits w 19 19), BitVec.ofNat 10 (bits w 18 9), BitVec.ofNat 9 (bits w 8 0)⟩

/-- The fields of a memory command word of shape McDly (R209). -/
def getMcDly (w : Nat) : FMcDly :=
  ⟨BitVec.ofNat 20 (bits w 19 0)⟩

/-- A memory command word (R209); `none` is a table-word error of the word itself. -/
def decodeMc (w : Nat) : Option Instr :=
  let r : FirstWord := match bits w 23 20 with
    | 1 => .row 0x00F00000 0x00100000 (.mcAct (getMcAct w))
    | 2 => .row 0x00F00000 0x00200000 (.mcRd (getMcCol w))
    | 3 => .row 0x00F00000 0x00300000 (.mcWr (getMcCol w))
    | 4 => .row 0x00F0FFFF 0x00400000 (.mcPre (getMcBank w))
    | 5 => .row 0x00FFFFFF 0x00500000 (.mcPrea)
    | 6 => .row 0x00F0FFFF 0x00600000 (.mcRefpb (getMcBank w))
    | 7 => .row 0x00FFFFFF 0x00700000 (.mcRefab)
    | 8 => .row 0x00FF0000 0x00800000 (.mcTag (getMcTag w))
    | 9 => .row 0x00FFFFFC 0x00900000 (.mcBind (getMcBind w))
    | 10 => .row 0x00F00000 0x00A00000 (.mcSvw (getMcSvw w))
    | 11 => .row 0x00F00000 0x00B00000 (.mcLoop (getMcLoop w))
    | 12 => .row 0x00FFFFFF 0x00C00000 (.mcEnd)
    | 13 => .row 0x00F00000 0x00D00000 (.mcDly (getMcDly w))
    | _ => .reserved 1
  match r with
  | .reserved _ => none
  | .row mask pattern i => if w &&& mask != pattern || !(fieldFaults false i).isEmpty then none else some i

/-- The fields of a collective word of shape CxData (R347). -/
def getCxData (w : Nat) : FCxData :=
  ⟨BitVec.ofNat 6 (bits w 26 21), BitVec.ofNat 5 (bits w 20 16), BitVec.ofNat 5 (bits w 15 11)⟩

/-- The fields of a collective word of shape CxCopy (R347). -/
def getCxCopy (w : Nat) : FCxCopy :=
  ⟨BitVec.ofNat 6 (bits w 26 21), BitVec.ofNat 5 (bits w 20 16), BitVec.ofNat 6 (bits w 10 5)⟩

/-- The fields of a collective word of shape CxWaitD (R347). -/
def getCxWaitD (w : Nat) : FCxWaitD :=
  ⟨BitVec.ofNat 5 (bits w 20 16), BitVec.ofNat 6 (bits w 5 0)⟩

/-- The fields of a collective word of shape CxWaitF (R347). -/
def getCxWaitF (w : Nat) : FCxWaitF :=
  ⟨BitVec.ofNat 5 (bits w 20 16), BitVec.ofNat 6 (bits w 5 0)⟩

/-- The fields of a collective word of shape CxLoop (R347). -/
def getCxLoop (w : Nat) : FCxLoop :=
  ⟨BitVec.ofNat 8 (bits w 15 8), BitVec.ofNat 8 (bits w 7 0)⟩

/-- The fields of a collective word of shape CxPeer (R347). -/
def getCxPeer (w : Nat) : FCxPeer :=
  ⟨BitVec.ofNat 5 (bits w 20 16)⟩

/-- The fields of a collective word of shape CxMcast (R347). -/
def getCxMcast (w : Nat) : FCxMcast :=
  ⟨BitVec.ofNat 6 (bits w 26 21), BitVec.ofNat 5 (bits w 20 16), BitVec.ofNat 5 (bits w 15 11), BitVec.ofNat 6 (bits w 10 5)⟩

/-- The fields of a collective word of shape CxSlot (R347). -/
def getCxSlot (w : Nat) : FCxSlot :=
  ⟨BitVec.ofNat 6 (bits w 26 21)⟩

/-- A collective word (R347); `none` is a table error of the word itself (R348). -/
def decodeCx (w : Nat) : Option Instr :=
  let r : FirstWord := match bits w 31 27 with
    | 0 => .row 0xFFFFFFFF 0x00000000 (.cxNop)
    | 1 => .row 0xF80007FF 0x08000000 (.cxSend (getCxData w))
    | 2 => .row 0xF80007FF 0x10000000 (.cxRecv (getCxData w))
    | 3 => .row 0xF80007FF 0x18000000 (.cxRrs (getCxData w))
    | 4 => .row 0xF800F81F 0x20000000 (.cxCopy (getCxCopy w))
    | 5 => .row 0xF80007FF 0x28000000 (.cxRed (getCxData w))
    | 6 => if bitB w 10 then .row 0xFFE0FFC0 0x30000400 (.cxWaitFlag (getCxWaitF w))
        else .row 0xFFE0FFC0 0x30000000 (.cxWaitDelivery (getCxWaitD w))
    | 7 => .row 0xFFFF0000 0x38000000 (.cxLoop (getCxLoop w))
    | 8 => .row 0xFFE0FFFF 0x40000000 (.cxPeer (getCxPeer w))
    | 9 => .row 0xF800001F 0x48000000 (.cxMcast (getCxMcast w))
    | 10 => .row 0xF81FFFFF 0x50000000 (.cxDone (getCxSlot w))
    | _ => .reserved 1
  match r with
  | .reserved _ => none
  | .row mask pattern i => if w &&& mask != pattern || !(fieldFaults false i).isEmpty then none else some i

/-- The first word is that of a sequencer instruction other than IDLE, though a field of it may be reserved. -/
def knownRow (ws : List Nat) : Bool :=
  match firstWord (ws.getD 0 0) (ws.drop 1) with
  | .row _ _ _ => bits (ws.getD 0 0) 28 23 != 0
  | .reserved _ => false

/-- The instruction of one table word: the sequencer decoder's, on a compute core and then on a system core; else, where the word is
not a sequencer instruction (other than IDLE) with a reserved field, the memory command decoder's; else the collective decoder's. Bit 0 of
`w` is bit 0 of the first word. -/
def decodeTableWord (nbits w : Nat) : Option Instr :=
  let x := w % 2 ^ nbits
  let ws := fieldsOf 32 4 x
  match decode false ws with
  | .ok i _ => some i
  | .illegal _ _ _ =>
    match decode true ws with
    | .ok i _ => some i
    | .illegal _ _ _ =>
      match decodeMc (ws.getD 0 0) with
      | some i => if knownRow ws then decodeCx (ws.getD 0 0) else some i
      | none => decodeCx (ws.getD 0 0)

/-! ## The encoder -/

/-- A one-bit field. -/
def bit (b : Bool) : Nat := if b then 1 else 0

/-- The word of pattern `p` with fields of shape DAB. -/
def putDAB (p : Nat) (f : FDAB) : Nat :=
  p + f.d.toNat * 2 ^ 17 + f.a.toNat * 2 ^ 11 + f.b.toNat * 2 ^ 5 + bit f.ka * 2 ^ 4 + bit f.kb * 2 ^ 3

/-- The word of pattern `p` with fields of shape DA. -/
def putDA (p : Nat) (f : FDA) : Nat :=
  p + f.d.toNat * 2 ^ 17 + f.a.toNat * 2 ^ 11 + bit f.ka * 2 ^ 4

/-- The word of pattern `p` with fields of shape Imm. -/
def putImm (p : Nat) (f : FImm) : Nat :=
  p + f.d.toNat * 2 ^ 17 + f.a.toNat * 2 ^ 11 + bit f.ka * 2 ^ 10 + f.imm.toNat

/-- The word of pattern `p` with fields of shape ShI. -/
def putShI (p : Nat) (f : FShI) : Nat :=
  p + f.d.toNat * 2 ^ 17 + f.a.toNat * 2 ^ 11 + bit f.ka * 2 ^ 10 + f.cnt.toNat

/-- The word of pattern `p` with fields of shape U. -/
def putU (p : Nat) (f : FU) : Nat :=
  p + f.d.toNat * 2 ^ 17 + f.imm.toNat

/-- The word of pattern `p` with fields of shape Idl. -/
def putIdl (p : Nat) (f : FIdl) : Nat :=
  p + f.imm.toNat

/-- The word of pattern `p` with fields of shape Mov. -/
def putMov (p : Nat) (f : FMov) : Nat :=
  p + f.d.toNat * 2 ^ 17 + f.a.toNat * 2 ^ 11 + f.wd.toNat * 2 ^ 9 + bit f.ka * 2 ^ 8

/-- The word of pattern `p` with fields of shape AW. -/
def putAW (p : Nat) (f : FAW) : Nat :=
  p + f.a.toNat * 2 ^ 11 + f.wd.toNat * 2 ^ 9

/-- The word of pattern `p` with fields of shape DAW. -/
def putDAW (p : Nat) (f : FDAW) : Nat :=
  p + f.d.toNat * 2 ^ 17 + f.a.toNat * 2 ^ 11 + f.wd.toNat * 2 ^ 9

/-- The word of pattern `p` with fields of shape Brc. -/
def putBrc (p : Nat) (f : FBrc) : Nat :=
  p + f.gq.toNat * 2 ^ 17 + f.gb.toNat * 2 ^ 11 + bit f.gn * 2 ^ 10 + f.off.toNat

/-- The word of pattern `p` with fields of shape Br. -/
def putBr (p : Nat) (f : FBr) : Nat :=
  p + f.off.toNat

/-- The word of pattern `p` with fields of shape Grd. -/
def putGrd (p : Nat) (f : FGrd) : Nat :=
  p + f.gq.toNat * 2 ^ 17 + f.gb.toNat * 2 ^ 11 + bit f.gn * 2 ^ 10

/-- The word of pattern `p` with fields of shape Loop. -/
def putLoop (p : Nat) (f : FLoop) : Nat :=
  p + f.a.toNat * 2 ^ 11 + bit f.ka * 2 ^ 10 + f.body.toNat

/-- The word of pattern `p` with fields of shape Call. -/
def putCall (p : Nat) (f : FCall) : Nat :=
  p + f.target.toNat

/-- The word of pattern `p` with fields of shape A. -/
def putA (p : Nat) (f : FA) : Nat :=
  p + f.a.toNat * 2 ^ 11 + bit f.ka * 2 ^ 4

/-- The word of pattern `p` with fields of shape D. -/
def putD (p : Nat) (f : FD) : Nat :=
  p + f.d.toNat * 2 ^ 17

/-- The word of pattern `p` with fields of shape A0. -/
def putA0 (p : Nat) (f : FA0) : Nat :=
  p + f.a.toNat * 2 ^ 11

/-- The word of pattern `p` with fields of shape S. -/
def putS (p : Nat) (f : FS) : Nat :=
  p + f.s.toNat * 2 ^ 19

/-- The word of pattern `p` with fields of shape SA. -/
def putSA (p : Nat) (f : FSA) : Nat :=
  p + f.s.toNat * 2 ^ 19 + f.a.toNat * 2 ^ 5 + bit f.ka * 2 ^ 4

/-- The word of pattern `p` with fields of shape SD. -/
def putSD (p : Nat) (f : FSD) : Nat :=
  p + f.s.toNat * 2 ^ 19 + f.a.toNat * 2 ^ 5

/-- The word of pattern `p` with fields of shape AB. -/
def putAB (p : Nat) (f : FAB) : Nat :=
  p + f.a.toNat * 2 ^ 11 + f.b.toNat * 2 ^ 5 + bit f.ka * 2 ^ 4 + bit f.kb * 2 ^ 3

/-- The word of pattern `p` with fields of shape Ls. -/
def putLs (p : Nat) (f : FLs) : Nat :=
  p + f.d.toNat * 2 ^ 17 + f.a.toNat * 2 ^ 11 + bit f.ka * 2 ^ 8 + f.disp.toNat

/-- The word of pattern `p` with fields of shape V3. -/
def putV3 (p : Nat) (f : FV3) : Nat :=
  p + f.vd.toNat * 2 ^ 18 + f.va.toNat * 2 ^ 13 + f.vb.toNat * 2 ^ 8 + f.fmt.toNat

/-- The word of pattern `p` with fields of shape V2. -/
def putV2 (p : Nat) (f : FV2) : Nat :=
  p + f.vd.toNat * 2 ^ 18 + f.va.toNat * 2 ^ 13 + f.fmt.toNat

/-- The word of pattern `p` with fields of shape Vcvt. -/
def putVcvt (p : Nat) (f : FVcvt) : Nat :=
  p + f.vd.toNat * 2 ^ 18 + f.va.toNat * 2 ^ 13 + f.dst.toNat * 2 ^ 3 + f.fmt.toNat

/-- The word of pattern `p` with fields of shape Vn. -/
def putVn (p : Nat) (f : FVn) : Nat :=
  p + f.vd.toNat * 2 ^ 18 + f.va.toNat * 2 ^ 13 + f.n.toNat * 2 ^ 8 + f.fmt.toNat

/-- The word of pattern `p` with fields of shape Vp. -/
def putVp (p : Nat) (f : FVp) : Nat :=
  p + f.vd.toNat * 2 ^ 18 + f.va.toNat * 2 ^ 13 + f.p.toNat

/-- The word of pattern `p` with fields of shape Vh. -/
def putVh (p : Nat) (f : FVh) : Nat :=
  p + f.vd.toNat * 2 ^ 18 + f.va.toNat * 2 ^ 13 + f.h.toNat

/-- The word of pattern `p` with fields of shape Vtoq. -/
def putVtoq (p : Nat) (f : FVtoq) : Nat :=
  p + f.q.toNat * 2 ^ 18 + f.k3.toNat * 2 ^ 17 + f.w.toNat * 2 ^ 13 + f.wd.toNat * 2 ^ 11 + f.k.toNat * 2 ^ 8 + f.fmt.toNat

/-- The word of pattern `p` with fields of shape Vfromq. -/
def putVfromq (p : Nat) (f : FVfromq) : Nat :=
  p + f.k3.toNat * 2 ^ 22 + f.w.toNat * 2 ^ 18 + f.q.toNat * 2 ^ 13 + f.wd.toNat * 2 ^ 11 + f.k.toNat * 2 ^ 8 + f.fmt.toNat

/-- The word of pattern `p` with fields of shape Viota. -/
def putViota (p : Nat) (f : FViota) : Nat :=
  p + f.vd.toNat * 2 ^ 18 + f.fmt.toNat

/-- The word of pattern `p` with fields of shape Vzero. -/
def putVzero (p : Nat) (f : FVzero) : Nat :=
  p + f.vd.toNat * 2 ^ 18

/-- The word of pattern `p` with fields of shape Mma. -/
def putMma (p : Nat) (f : FMma) : Nat :=
  p + f.t.toNat * 2 ^ 16 + f.sa.toNat * 2 ^ 11 + f.sb.toNat * 2 ^ 6 + bit f.acc * 2 ^ 5 + bit f.ta * 2 ^ 4 + bit f.tb * 2 ^ 3

/-- The word of pattern `p` with fields of shape T. -/
def putT (p : Nat) (f : FT) : Nat :=
  p + f.t.toNat * 2 ^ 16

/-- The word of pattern `p` with fields of shape Amv. -/
def putAmv (p : Nat) (f : FAmv) : Nat :=
  p + f.t.toNat * 2 ^ 16 + f.s.toNat * 2 ^ 11 + f.rnd.toNat

/-- The word of pattern `p` with fields of shape TS. -/
def putTS (p : Nat) (f : FTS) : Nat :=
  p + f.t.toNat * 2 ^ 16 + f.s.toNat * 2 ^ 11

/-- The word of pattern `p` with fields of shape TU. -/
def putTU (p : Nat) (f : FTU) : Nat :=
  p + f.t.toNat * 2 ^ 16 + f.u.toNat * 2 ^ 9

/-- The word of pattern `p` with fields of shape Trsm. -/
def putTrsm (p : Nat) (f : FTrsm) : Nat :=
  p + f.t.toNat * 2 ^ 16 + f.u.toNat * 2 ^ 9 + f.fl.toNat

/-- The word of pattern `p` with fields of shape Qr. -/
def putQr (p : Nat) (f : FQr) : Nat :=
  p + f.sd.toNat * 2 ^ 18 + f.sa.toNat * 2 ^ 13 + f.rnd.toNat * 2 ^ 8 + f.seed.toNat * 2 ^ 5 + bit f.rte * 2 ^ 4

/-- The word of pattern `p` with fields of shape Qn. -/
def putQn (p : Nat) (f : FQn) : Nat :=
  p + f.sd.toNat * 2 ^ 18 + f.sa.toNat * 2 ^ 13 + f.rnd.toNat * 2 ^ 8 + f.seed.toNat * 2 ^ 5

/-- The word of pattern `p` with fields of shape Qd. -/
def putQd (p : Nat) (f : FQd) : Nat :=
  p + f.sd.toNat * 2 ^ 18 + f.sa.toNat * 2 ^ 13

/-- The word of pattern `p` with fields of shape P2. -/
def putP2 (p : Nat) (f : FP2) : Nat :=
  p + f.a.toNat * 2 ^ 17 + f.b.toNat * 2 ^ 11

/-- The word of pattern `p` with fields of shape P1. -/
def putP1 (p : Nat) (f : FP1) : Nat :=
  p + f.a.toNat * 2 ^ 17

/-- The word of pattern `p` with fields of shape CsrR. -/
def putCsrR (p : Nat) (f : FCsrR) : Nat :=
  p + f.d.toNat * 2 ^ 17 + f.csr.toNat

/-- The word of pattern `p` with fields of shape CsrW. -/
def putCsrW (p : Nat) (f : FCsrW) : Nat :=
  p + f.a.toNat * 2 ^ 11 + f.csr.toNat

/-- The memory command word of pattern `p` with fields of shape McAct. -/
def putMcAct (p : Nat) (f : FMcAct) : Nat :=
  p + f.bank.toNat * 2 ^ 16 + f.row.toNat

/-- The memory command word of pattern `p` with fields of shape McCol. -/
def putMcCol (p : Nat) (f : FMcCol) : Nat :=
  p + f.bank.toNat * 2 ^ 16 + f.col.toNat * 2 ^ 12 + bit f.ap * 2 ^ 11 + f.stp.toNat

/-- The memory command word of pattern `p` with fields of shape McBank. -/
def putMcBank (p : Nat) (f : FMcBank) : Nat :=
  p + f.bank.toNat * 2 ^ 16

/-- The memory command word of pattern `p` with fields of shape McTag. -/
def putMcTag (p : Nat) (f : FMcTag) : Nat :=
  p + f.tag.toNat

/-- The memory command word of pattern `p` with fields of shape McBind. -/
def putMcBind (p : Nat) (f : FMcBind) : Nat :=
  p + f.cursor.toNat

/-- The memory command word of pattern `p` with fields of shape McSvw. -/
def putMcSvw (p : Nat) (f : FMcSvw) : Nat :=
  p + f.cls.toNat * 2 ^ 18 + f.mask.toNat * 2 ^ 14 + f.len.toNat

/-- The memory command word of pattern `p` with fields of shape McLoop. -/
def putMcLoop (p : Nat) (f : FMcLoop) : Nat :=
  p + f.level.toNat * 2 ^ 19 + f.target.toNat * 2 ^ 9 + f.count.toNat

/-- The memory command word of pattern `p` with fields of shape McDly. -/
def putMcDly (p : Nat) (f : FMcDly) : Nat :=
  p + f.e.toNat

/-- The collective word of pattern `p` with fields of shape CxData. -/
def putCxData (p : Nat) (f : FCxData) : Nat :=
  p + f.slot.toNat * 2 ^ 21 + f.ck.toNat * 2 ^ 16 + f.wfmt.toNat * 2 ^ 11

/-- The collective word of pattern `p` with fields of shape CxCopy. -/
def putCxCopy (p : Nat) (f : FCxCopy) : Nat :=
  p + f.slot.toNat * 2 ^ 21 + f.ck.toNat * 2 ^ 16 + f.src.toNat * 2 ^ 5

/-- The collective word of pattern `p` with fields of shape CxWaitD. -/
def putCxWaitD (p : Nat) (f : FCxWaitD) : Nat :=
  p + f.ck.toNat * 2 ^ 16 + f.slot.toNat

/-- The collective word of pattern `p` with fields of shape CxWaitF. -/
def putCxWaitF (p : Nat) (f : FCxWaitF) : Nat :=
  p + f.ck.toNat * 2 ^ 16 + f.slot.toNat

/-- The collective word of pattern `p` with fields of shape CxLoop. -/
def putCxLoop (p : Nat) (f : FCxLoop) : Nat :=
  p + f.count.toNat * 2 ^ 8 + f.body.toNat

/-- The collective word of pattern `p` with fields of shape CxPeer. -/
def putCxPeer (p : Nat) (f : FCxPeer) : Nat :=
  p + f.k.toNat * 2 ^ 16

/-- The collective word of pattern `p` with fields of shape CxMcast. -/
def putCxMcast (p : Nat) (f : FCxMcast) : Nat :=
  p + f.slot.toNat * 2 ^ 21 + f.ck.toNat * 2 ^ 16 + f.wfmt.toNat * 2 ^ 11 + f.dst.toNat * 2 ^ 5

/-- The collective word of pattern `p` with fields of shape CxSlot. -/
def putCxSlot (p : Nat) (f : FCxSlot) : Nat :=
  p + f.slot.toNat * 2 ^ 21

/-- The words of an instruction without its head (R73–R86, R209, R347); an event has none. A guard prefix is written
without the word it guards. -/
def encodeBody : Instr → List Nat
  | .launchPacketWrite => []
  | .launch => []
  | .taskCompletion => []
  | .corePartEnd => []
  | .slathBarrierComplete => []
  | .slathWatchdog => []
  | .domainFreeze => []
  | .holdRequest => []
  | .holdRelease => []
  | .domainResume => []
  | .phaseCommit => []
  | .phaseMismatch => []
  | .phaseCancel => []
  | .segcntLate => []
  | .watchdogExpiry => []
  | .resultPerform => []
  | .streamDrive => []
  | .streamStore => []
  | .factStep => []
  | .recordChangeApply => []
  | .plainArrivalApply => []
  | .reducingWriteApply => []
  | .loadLanding => []
  | .lineFillLanding => []
  | .pagedRequestArrival => []
  | .pagedRequestPerform => []
  | .spaceManagerAnswer => []
  | .migrCompletion => []
  | .migrationCopyEnd => []
  | .mcbindArrival => []
  | .mcbaseArrival => []
  | .mcstartArrival => []
  | .mcstopArrival => []
  | .mcstatPageWrite => []
  | .tableStart => []
  | .refreshTick => []
  | .standingRefresh => []
  | .mcRdData => []
  | .mcWrTake => []
  | .svwEnd => []
  | .keeperEntry => []
  | .keeperRefab => []
  | .keeperScrubStep => []
  | .keeperReopen => []
  | .scrubStep => []
  | .collectiveRunStart => []
  | .collectiveUnitArrival => []
  | .mcastUnitArrival => []
  | .abortUnitArrival => []
  | .collectiveTimeout => []
  | .collabort => []
  | .contextSwitch => []
  | .saveComplete => []
  | .restoreComplete => []
  | .doorbellNotify => []
  | .doorbellUnmap => []
  | .doorbellMap => []
  | .systemEvent => []
  | .powerSample => []
  | .boot => []
  | .recoveryImage => []
  | .linkFlitRetry => []
  | .linkDown => []
  | .linkLaneLoss => []
  | .add f => [putDAB 0x00800000 f]
  | .sub f => [putDAB 0x00800001 f]
  | .and f => [putDAB 0x00800002 f]
  | .or f => [putDAB 0x00800003 f]
  | .xor f => [putDAB 0x00800004 f]
  | .shl f => [putDAB 0x00800005 f]
  | .shr f => [putDAB 0x00800006 f]
  | .sra f => [putDAB 0x00800007 f]
  | .mul f => [putDAB 0x01000000 f]
  | .mulhs f => [putDAB 0x01000001 f]
  | .mulhu f => [putDAB 0x01000002 f]
  | .min f => [putDAB 0x01000003 f]
  | .max f => [putDAB 0x01000004 f]
  | .minu f => [putDAB 0x01000005 f]
  | .maxu f => [putDAB 0x01000006 f]
  | .andn f => [putDAB 0x01000007 f]
  | .seq f => [putDAB 0x01800000 f]
  | .sne f => [putDAB 0x01800001 f]
  | .slt f => [putDAB 0x01800002 f]
  | .sltu f => [putDAB 0x01800003 f]
  | .sge f => [putDAB 0x01800004 f]
  | .sgeu f => [putDAB 0x01800005 f]
  | .bext f => [putDAB 0x01800006 f]
  | .bflip f => [putDAB 0x01800007 f]
  | .div f => [putDAB 0x02000000 f]
  | .divu f => [putDAB 0x02000001 f]
  | .rem f => [putDAB 0x02000002 f]
  | .remu f => [putDAB 0x02000003 f]
  | .clz f => [putDA 0x02800000 f]
  | .ctz f => [putDA 0x02800001 f]
  | .popc f => [putDA 0x02800002 f]
  | .brev f => [putDA 0x02800003 f]
  | .bswap f => [putDA 0x02800004 f]
  | .sext f => [putDAB 0x02800005 f]
  | .zext f => [putDAB 0x02800006 f]
  | .addi f => [putImm 0x03000000 f]
  | .andi f => [putImm 0x03800000 f]
  | .ori f => [putImm 0x04000000 f]
  | .xori f => [putImm 0x04800000 f]
  | .shli f => [putShI 0x05000000 f]
  | .shri f => [putShI 0x05800000 f]
  | .srai f => [putShI 0x06000000 f]
  | .slti f => [putImm 0x06800000 f]
  | .li f => [putU 0x07000000 f]
  | .lcat f => [putU 0x07800000 f]
  | .idle f => [putIdl 0x00000000 f]
  | .mov f => [putMov 0x08000000 f]
  | .drop f => [putAW 0x08000020 f]
  | .qcnt f => [putDAW 0x08000040 f]
  | .qclr f => [putAW 0x08000060 f]
  | .brc f => [putBrc 0x08800000 f]
  | .br f => [putBr 0x08800400 f]
  | .grd f => [putGrd 0x09000000 f]
  | .loop f => [putLoop 0x09800000 f]
  | .call f => [putCall 0x0A000000 f]
  | .jr f => [putA 0x0A800000 f]
  | .jrl f => [putA 0x0A800001 f]
  | .seg f => [0x0B000000 + bit f.opn * 2 ^ 22, f.cnt.toNat, f.off.toNat, f.sig.toNat]
  | .segend => [0x0B800000]
  | .slath => [0x0B800001]
  | .tbrd f => [putD 0x0B800002 f]
  | .wbrd f => [putD 0x0B800003 f]
  | .phase f => [putA 0x0B800004 f]
  | .waitq f => [putA0 0x0B800005 f]
  | .waitf f => [putA 0x0B800006 f]
  | .openS f => [0x0C000000 + f.s.toNat * 2 ^ 19 + f.lte.toNat * 2 ^ 11 + f.a.toNat * 2 ^ 5 + bit f.ka * 2 ^ 4 + bit f.wr,
      bit f.dir * 2 ^ 31 + f.lane.toNat * 2 ^ 28 + f.off.toNat * 2 ^ 16 + f.cnt.toNat]
  | .close f => [putS 0x0C800000 f]
  | .sadv f => [putSA 0x0C800001 f]
  | .srew f => [putS 0x0C800002 f]
  | .sstat f => [putSD 0x0C800003 f]
  | .ltwr f => [putAB 0x0D000000 f]
  | .ltrd f => [putDA 0x0D000001 f]
  | .fpwr f => [putAB 0x0D000002 f]
  | .fprd f => [putDA 0x0D000003 f]
  | .tswr f => [putAB 0x0D000004 f]
  | .tsrd f => [putDA 0x0D000005 f]
  | .fadd f => [putDAB 0x0D800000 f]
  | .fsub f => [putDAB 0x0D800001 f]
  | .fmul f => [putDAB 0x0D800002 f]
  | .fdiv f => [putDAB 0x0D800003 f]
  | .fsqrt f => [putDA 0x0D800004 f]
  | .fcmplt f => [putDAB 0x0D800005 f]
  | .fcvti f => [putDA 0x0D800006 f]
  | .icvtf f => [putDA 0x0D800007 f]
  | .ldsD f => [putLs 0x0E000000 f]
  | .ldsWu f => [putLs 0x0E000020 f]
  | .ldsWs f => [putLs 0x0E000040 f]
  | .ldsHu f => [putLs 0x0E000060 f]
  | .ldsBu f => [putLs 0x0E000080 f]
  | .stsD f => [putLs 0x0E800000 f]
  | .stsW f => [putLs 0x0E800020 f]
  | .stsH f => [putLs 0x0E800040 f]
  | .stsB f => [putLs 0x0E800060 f]
  | .ldq f => [putDA 0x0F000000 f]
  | .ldqLineFill f => [putDA 0x0F000000 f]
  | .stq f => [putAB 0x0F000001 f]
  | .rstq f => [putAB 0x0F000002 f]
  | .migr f => [putAB 0x0F000003 f]
  | .austat f => [putD 0x0F000004 f]
  | .amoadd f => [putDAB 0x0F800000 f]
  | .amomax f => [putDAB 0x0F800001 f]
  | .amoswp f => [putDAB 0x0F800002 f]
  | .amocas f => [putDAB 0x0F800003 f]
  | .pamoadd f => [putDAB 0x0F800004 f]
  | .pamocas f => [putDAB 0x0F800005 f]
  | .flagrd f => [putDA 0x0F800006 f]
  | .flagset f => [putAB 0x0F800007 f]
  | .vadd f => [putV3 0x10000000 f]
  | .vsub f => [putV3 0x10000008 f]
  | .vmul f => [putV3 0x10000010 f]
  | .vfma f => [putV3 0x10000018 f]
  | .vfms f => [putV3 0x10000020 f]
  | .vmin f => [putV3 0x10000028 f]
  | .vmax f => [putV3 0x10000030 f]
  | .vabs f => [putV2 0x10000038 f]
  | .vneg f => [putV2 0x10000040 f]
  | .vadds f => [putV3 0x10000048 f]
  | .vsubs f => [putV3 0x10000050 f]
  | .vmulhi f => [putV3 0x10000058 f]
  | .vdiff f => [putV3 0x10000060 f]
  | .vrcp f => [putV2 0x10800000 f]
  | .vrsq f => [putV2 0x10800008 f]
  | .vsqrt f => [putV2 0x10800010 f]
  | .vexp2 f => [putV2 0x10800018 f]
  | .vlog2 f => [putV2 0x10800020 f]
  | .vfloor f => [putV2 0x10800028 f]
  | .vround f => [putV2 0x10800030 f]
  | .vscale f => [putV3 0x10800038 f]
  | .vand f => [putV3 0x11000000 f]
  | .vor f => [putV3 0x11000008 f]
  | .vxor f => [putV3 0x11000010 f]
  | .vandn f => [putV3 0x11000018 f]
  | .vshl f => [putV3 0x11000020 f]
  | .vshr f => [putV3 0x11000028 f]
  | .vsra f => [putV3 0x11000030 f]
  | .vpopc f => [putV2 0x11000038 f]
  | .vceq f => [putV3 0x11800000 f]
  | .vcne f => [putV3 0x11800008 f]
  | .vclt f => [putV3 0x11800010 f]
  | .vcle f => [putV3 0x11800018 f]
  | .vcun f => [putV3 0x11800020 f]
  | .vsel f => [putV3 0x11800028 f]
  | .vsum f => [putV2 0x12000000 f]
  | .vmaxr f => [putV2 0x12000008 f]
  | .vminr f => [putV2 0x12000010 f]
  | .vamaxr f => [putV2 0x12000018 f]
  | .vsumsq f => [putV2 0x12000020 f]
  | .vdot f => [putV3 0x12000028 f]
  | .vcvt f => [putVcvt 0x12800000 f]
  | .vbcast f => [putVn 0x13000000 f]
  | .vzip f => [putV3 0x13000008 f]
  | .vunzip f => [putV3 0x13000010 f]
  | .vrev f => [putV2 0x13000018 f]
  | .vshufl f => [putV3 0x13000020 f]
  | .vrotl f => [putVn 0x13000028 f]
  | .vunpk3 f => [putVp 0x13000030 f]
  | .vunpk4 f => [putVh 0x13000038 f]
  | .vtoq f => [putVtoq 0x13800000 f]
  | .vfromq f => [putVfromq 0x13800008 f]
  | .viota f => [putViota 0x13800010 f]
  | .vzero f => [putVzero 0x13800018 f]
  | .mmaFlt f => [putMma 0x14000000 f]
  | .mmaW4 f => [putMma 0x14000001 f]
  | .mmaL6 f => [putMma 0x14000002 f]
  | .mmaT3 f => [putMma 0x14000003 f]
  | .mmaI8 f => [putMma 0x14000004 f]
  | .mmaF32 f => [putMma 0x14000005 f]
  | .accz f => [putT 0x14800000 f]
  | .accmv f => [putAmv 0x14800008 f]
  | .accld f => [putTS 0x14800010 f]
  | .accadd f => [putTS 0x14800018 f]
  | .chol f => [putT 0x15000000 f]
  | .lup f => [putT 0x15000040 f]
  | .givqr f => [putT 0x15000080 f]
  | .grot f => [putTU 0x150000C0 f]
  | .trsm f => [putTrsm 0x15000100 f]
  | .accrd f => [putDA 0x15800000 f]
  | .accwr f => [putAB 0x15800001 f]
  | .pivrd f => [putDA 0x15800002 f]
  | .gfrd f => [putDA 0x15800003 f]
  | .estep f => [putDA 0x15800004 f]
  | .resume f => [putA 0x15800005 f]
  | .eabort f => [putA 0x15800006 f]
  | .quantTensor f => [putQr 0x18000000 f]
  | .quantBlock f => [putQn 0x18000400 f]
  | .quantBlockTensor f => [putQr 0x18000800 f]
  | .quantCast f => [putQn 0x18000C00 f]
  | .dequantTensor f => [putQd 0x18800000 f]
  | .dequantBlock f => [putQd 0x18800400 f]
  | .dequantBlockTensor f => [putQd 0x18800800 f]
  | .dequantCast f => [putQd 0x18800C00 f]
  | .stbind f => [putAB 0x19000000 f]
  | .stclr f => [putA 0x19000001 f]
  | .strd f => [putDA 0x19000002 f]
  | .stmerge f => [putA 0x19000003 f]
  | .stgen f => [putDA 0x19000004 f]
  | .stset f => [putAB 0x19000005 f]
  | .mcstart f => [putP2 0x1A000000 f]
  | .mcstopStop f => [putP2 0x1A000100 f]
  | .mcstopSkip f => [putP2 0x1A000100 f]
  | .mcbase f => [putP2 0x1A000200 f]
  | .mcbind f => [putP2 0x1A000300 f]
  | .mcstat f => [putP2 0x1A000400 f]
  | .colstart f => [putP2 0x1A800000 f]
  | .colstat f => [putP2 0x1A800100 f]
  | .colabort f => [putP1 0x1A800200 f]
  | .csrrd f => [putCsrR 0x1C000000 f]
  | .csrwr f => [putCsrW 0x1C800000 f]
  | .trap f => [putA 0x1D000000 f]
  | .tret => [0x1D000001]
  | .ctxrd f => [putDA 0x1D000002 f]
  | .ctxwr f => [putAB 0x1D000003 f]
  | .ctxswSwitch f => [putA 0x1D000004 f]
  | .ctxswSave f => [putA 0x1D000004 f]
  | .ctxswRestore f => [putA 0x1D000004 f]
  | .ctxswRelease f => [putA 0x1D000004 f]
  | .ctxswEnd f => [putA 0x1D000004 f]
  | .ctxswHold f => [putA 0x1D000004 f]
  | .snap => [0x1D000005]
  | .fence => [0x1D000006]
  | .halt => [0x1D000007]
  | .mtlbinv f => [putDAB 0x1D800000 f]
  | .mtlbwr f => [putDAB 0x1D800001 f]
  | .lptwr f => [putDAB 0x1D800002 f]
  | .hvcallVersion f => [putDAB 0x1D800003 f]
  | .hvcallPartinfo f => [putDAB 0x1D800003 f]
  | .hvcallFrames f => [putDAB 0x1D800003 f]
  | .hvcallAttest f => [putDAB 0x1D800003 f]
  | .mcAct f => [putMcAct 0x00100000 f]
  | .mcRd f => [putMcCol 0x00200000 f]
  | .mcWr f => [putMcCol 0x00300000 f]
  | .mcPre f => [putMcBank 0x00400000 f]
  | .mcPrea => [0x00500000]
  | .mcRefpb f => [putMcBank 0x00600000 f]
  | .mcRefab => [0x00700000]
  | .mcTag f => [putMcTag 0x00800000 f]
  | .mcBind f => [putMcBind 0x00900000 f]
  | .mcSvw f => [putMcSvw 0x00A00000 f]
  | .mcLoop f => [putMcLoop 0x00B00000 f]
  | .mcEnd => [0x00C00000]
  | .mcDly f => [putMcDly 0x00D00000 f]
  | .cxNop => [0x00000000]
  | .cxSend f => [putCxData 0x08000000 f]
  | .cxRecv f => [putCxData 0x10000000 f]
  | .cxRrs f => [putCxData 0x18000000 f]
  | .cxCopy f => [putCxCopy 0x20000000 f]
  | .cxRed f => [putCxData 0x28000000 f]
  | .cxWaitDelivery f => [putCxWaitD 0x30000000 f]
  | .cxWaitFlag f => [putCxWaitF 0x30000400 f]
  | .cxLoop f => [putCxLoop 0x38000000 f]
  | .cxPeer f => [putCxPeer 0x40000000 f]
  | .cxMcast f => [putCxMcast 0x48000000 f]
  | .cxDone f => [putCxSlot 0x50000000 f]
  | .operandTap => []
  | .colabortArrival => []
  | .migrationLineCopy => []

/-- A memory command word, whose head is DLY in bits [31:24] (R209). -/
def isMcWord : Instr → Bool
  | .mcAct _
  | .mcRd _
  | .mcWr _
  | .mcPre _
  | .mcPrea
  | .mcRefpb _
  | .mcRefab
  | .mcTag _
  | .mcBind _
  | .mcSvw _
  | .mcLoop _
  | .mcEnd
  | .mcDly _ => true
  | _ => false

/-- A collective word, which has no head (R347). -/
def isCxWord : Instr → Bool
  | .cxNop
  | .cxSend _
  | .cxRecv _
  | .cxRrs _
  | .cxCopy _
  | .cxRed _
  | .cxWaitDelivery _
  | .cxWaitFlag _
  | .cxLoop _
  | .cxPeer _
  | .cxMcast _
  | .cxDone _ => true
  | _ => false

/-- The words of an instruction with head `h`: IDL of a sequencer word (R73), DLY of a memory command word (R209). -/
def encode (h : Nat) (i : Instr) : List Nat :=
  match encodeBody i with
  | [] => []
  | w :: ws => (if isCxWord i then w else if isMcWord i then w + h % 2 ^ 8 * 2 ^ 24 else w + h % 2 ^ 3 * 2 ^ 29) :: ws


end Sys2Proof
end

