-- ==== Sys2Proof/Machine/State.lean ====
section
/-! DEFINITION. The state of one AX8 package: plain data, every table sparse (`NMap`), and the state after reset.

Agents are numbered by their physical place: core `die·32 + core`, system core `die·2 + n`, memory command engine
`die·128 + e`, collective engine and die tables by die, partitions by their lowest die (R1, R14, R16). -/

namespace Sys2Proof.Machine

/-! ## Memory -/

/-- The package's bytes: pairs of an address and a byte, the addresses strictly rising, no byte 0x00 listed. Every storage of
the package has its own range of addresses (`Machine/Ops.lean`). -/
abbrev Memory := List Host.Cell

/-- What an address that is not listed reads as. -/
def memDefault : Byte := 0#8

/-- The canonical form of a memory: addresses strictly rising from `lo` on, and no listed byte equal to what an
unlisted address reads as. -/
def Memory.wfFrom : Nat → Memory → Bool
  | _, [] => true
  | lo, (a, b) :: rest => decide (lo ≤ a) && (b != memDefault) && Memory.wfFrom (a + 1) rest

/-- The canonical form of a memory. -/
def Memory.wf (m : Memory) : Bool := Memory.wfFrom 0 m

/-! ## Queues, streams, lanes -/

/-- An entry of a queue register (R46): a value with its poison tag (R398), or reserved by paged request `seqNo` that has not
landed (pending) or that faulted (R312). -/
inductive QEntry where
  | val (v : Word) (poison : Option Nat)
  | pending (seqNo : Nat)
  | faulted (seqNo : Nat)
  deriving DecidableEq, Repr

/-- An entry of a vector queue (R52) with its poison tag (R398). -/
structure WEntry where
  word : LaneWord
  poison : Option Nat
  deriving DecidableEq, Repr

/-- The six words of a layout entry (R58). -/
structure Layout where
  w0 : Word
  w1 : Word
  w2 : Word
  w3 : Word
  w4 : Word
  w5 : Word
  deriving DecidableEq, Repr

/-- An open stream (R61, R125, R126): the entry copy and the layout entry's number, kind, lane and direction, station,
schedule (`t1`, `cnt`, `adv`, `off`, the issue cycle `sched` of the OPEN or SREW that set it), words remaining, start and
cursor as linear indexes, and the granules whose tag a drive or a scale read of this opening has compared (R68, R195). -/
structure Strm where
  entry : Layout
  lte : Nat
  wr : Bool
  dir : Bool
  lane : Nat
  station : Nat
  t1 : Nat
  cnt : Nat
  remaining : Nat
  adv : Nat
  off : Nat
  sched : Nat
  start : Nat
  cursor : Nat
  seen : List Nat
  seenScale : List Nat
  deriving DecidableEq, Repr

/-- A lane word in transit (R54, R55): where and on which cycle it was driven, its sideband with its eight parity bits, and the block scales that
QZE writes with it (R195); for a word of a read stream, the linear index of its first element (R126); `elems` of its elements
are stored (R260); `entry` is the entry of the opening that drove it, which says what granules or tiles supplied its elements (R66). -/
structure LaneSlot where
  lane : Nat
  dir : Bool
  station : Nat
  cycle : Nat
  strm : Nat
  index : Nat
  word : LaneWord
  scales : List Nat
  poison : Option Nat
  parity : Nat
  elems : Nat
  entry : Layout
  deriving DecidableEq, Repr

/-- A record of a loop stack (R112). -/
structure LoopRec where
  first : Nat
  last : Nat
  left : Nat
  deriving DecidableEq, Repr

/-- The segment state (R116). -/
structure Seg where
  active : Bool
  opn : Bool
  start : Nat
  cnt : Nat
  expSig : Nat
  sig : Nat
  deriving DecidableEq, Repr

/-- What a result does on its perform cycle (R33). -/
inductive ResAct where
  | pushQ (first : Nat) (vs : List Word)
  | pushW (n : Nat) (v : LaneWord)
  | driveS (strm : Nat) (station : Nat) (v : LaneWord) (scales : List Nat)
  | qcount (sat nan : Nat) (qt : Option Nat)
  | sstat (q : Nat) (strm : Nat)
  | reserve (q : Nat) (seqNo : Nat)
  deriving DecidableEq, Repr

/-- What an instruction does at the end of its cycle, after the drives, stores and appends of that cycle (R120, R127). -/
inductive PostAct where
  | close (strm : Nat)
  | sadv (strm n : Nat)
  | srew (strm : Nat)
  | phase (m : Word)
  deriving DecidableEq, Repr

/-- A result on its way (R33, R99, R134, R136): issue cycle and address of the instruction, perform cycle, effect, VFLAGS
bits and T3 count of the instruction, poison, and whether EINFO of a QOVF names the producer (f > 1, R99). -/
structure Flight where
  issue : Nat
  addr : Nat
  perf : Nat
  act : ResAct
  flags : Nat
  t3 : Nat
  poison : Option Nat
  late : Bool
  deriving DecidableEq, Repr

/-- The multi-cycle commands of the engines (R36). -/
inductive CmdKind where
  | mma | accld | accadd | accmv | accz | chol | lup | givqr | grot | trsm | quant | dequant
  deriving DecidableEq, Repr

/-- A command in an engine (R36, R193, R244, R252, R259, R260, R266): station, kind, issue cycle and address, tiles,
streams and their entry copies, mode bits, dimensions kept from issue, the cycle of its last event, the words tapped so far of
each operand with the scale entries read for them, the tile's prior value, what a step or the conversion computed with
its flags, the rows and the single elements of its tile that a later command has written already (R245), the RESCALE state and the latched
breakdown. Its step counter is a function of its cycle. -/
structure Cmd where
  station : Nat
  kind : CmdKind
  issue : Nat
  addr : Nat
  tile : Nat
  tile2 : Nat
  sa : Nat
  sb : Nat
  entA : Layout
  entB : Layout
  mode : Nat
  acc : Bool
  ta : Bool
  tb : Bool
  dimM : Nat
  dimN : Nat
  dimK : Nat
  lead : Nat
  cycles : Nat
  last : Nat
  wordsA : List LaneWord
  wordsB : List LaneWord
  scalesA : List Nat
  scalesB : List Nat
  places : List Nat
  prior : List Nat
  out : List (Nat × Nat)
  outFlags : Nat
  supers : Nat
  skip : List Nat
  wrote : Bool
  rnd : Nat
  seed : Nat
  rescale : Bool
  amax : Nat
  qt : Nat
  latched : Option (Nat × Nat)
  poison : Option Nat
  deriving DecidableEq, Repr

/-- A scratchpad atomic in flight (R287): issue cycle, address of the instruction, operation, word address, bank code,
operands, destination, and the word read on t + 1 with its row's mark, none once the atomic has written. -/
structure Atomic where
  issue : Nat
  addr : Nat
  op : Nat
  a : Nat
  perm : Nat
  b0 : Word
  b1 : Word
  d : Nat
  x : Option Word
  poison : Option Nat
  deriving DecidableEq, Repr

/-- A ready flag (R296). -/
structure RFlag where
  cnt : Nat
  target : Nat
  armed : Bool
  ready : Bool
  ovr : Bool
  deriving DecidableEq, Repr

/-- A request of the access unit (R307). -/
inductive AuOp where
  | load | fill | store | atomic | migr | touch | rstq
  deriving DecidableEq, Repr

/-- Where a request stands: in its phase's lot, committed but kept back by the halted unit, a load that may not depart yet, departed and on its way, waiting at the owner's
channels, performed there, its result landed, returned untaken, faulted and not delivered yet, or delivered. -/
inductive AuPlace where
  | lot | held | waiting | departed | queued | performed | landed | untaken | faulted | delivered
  deriving DecidableEq, Repr

/-- One request of a context's sequence (R307–R312): number, operation, virtual address, bytes, sign extension, operands,
destination queue, address of the instruction, issue cycle, phase of issue, stamps, line-fill target and tag, place, value, its
64-byte lines that have still to perform, the cause, WHY and RACEAG value of its fault, whether its context's own stores gave all of
its bytes, so that it was never sent (R309), whether it landed while its core stood frozen, the wall cycle plus one on which its landing came
to a frozen core (R39), and, where it departed as its core halted in a phase that has been cancelled since, whether the replay is still to issue it
(1) or has (2) (R339, R404). -/
structure AuReq where
  seqNo : Nat
  op : AuOp
  va : Nat
  size : Nat
  signed : Bool
  b0 : Word
  b1 : Word
  cas : Bool
  dest : Nat
  pc : Nat
  issue : Nat
  phase : Nat
  stampPh : Nat
  stampSsn : Nat
  land : Nat
  tag : Nat
  place : AuPlace
  value : Nat
  left : List Nat
  poison : Option Nat
  cause : Nat
  why : Nat
  rag : Nat
  forwarded : Bool
  gap : Bool
  came : Nat
  ahead : Nat
  deriving DecidableEq, Repr

/-- A COLSTART in its phase's lot (R365). -/
structure ColStart where
  phase : Nat
  block : Nat
  rank : Nat
  trap : Bool
  deriving DecidableEq, Repr

/-- How an agent stands frozen (R37): the cycle, HOLDINFO's KIND (0 where it froze on F without a cause of its own), whether the
cause is a trap, and whether the cause has cleared. -/
structure Freeze where
  cycle : Nat
  kind : Nat
  trap : Bool
  clear : Bool
  deriving DecidableEq, Repr

/-- A word that arrives at a bank controller (R291, R292): slot it is for, earliest cycle, issue cycle where an instruction of a core sent it, source (a
partition rank, or none from outside the slots), order of its source (R332), byte address, bank code, bytes, tag where
it stamps one, poison, where it comes from a collective run, the die, group and serial number that a fault of it aborts (R357), and
the key of the run whose barrier record it is (R363); `wall`, where not 0, is the wall cycle before which an untimed unit's answer does not come
(R366); `gap` says that the word was taken while its core stood frozen, so that it is seen from the cycle of its stamp on, and `came` is the wall
cycle plus one on which it came to a frozen core, by which such words are taken in arrival order (R39). -/
structure Arrival where
  slot : Nat
  due : Nat
  issue : Option Nat
  src : Option Nat
  srcOrder : Nat
  addr : Nat
  perm : Nat
  data : List Byte
  tag : Option Nat
  poison : Option Nat
  run : Option (Nat × Nat × Nat)
  bar : Option Nat
  wall : Nat
  gap : Bool
  came : Nat
  deriving DecidableEq, Repr

/-- A trap that an untimed unit delivers to a context (R357, R361): its slot, the cycle of its stamp, CAUSE, EINFO, and whether it has been taken. -/
structure Stamped where
  slot : Nat
  cycle : Nat
  cause : Nat
  einfo : Nat
  taken : Bool
  deriving DecidableEq, Repr

/-- A data move of a memory command engine at a core (R215, R216): a RD's landing, a WR's take, or a TAG's stamps. `wsrc` is the
issue cycle plus one of the WR whose data a RD carries, 0 where it is the column as it stood; `early` marks a take that
the core makes before its engine has issued the WR, `void` one whose WR does not issue. -/
structure Move where
  slot : Nat
  due : Nat
  isWr : Bool
  eng : Nat
  issue : Nat
  addr : Nat
  dram : Nat
  data : List Byte
  wsrc : Nat
  early : Bool
  void : Bool
  tags : List (Nat × Nat)
  poison : Option Nat
  deriving DecidableEq, Repr

/-! ## A context -/

/-- The context state of one slot of a compute core (R61, R120, R369–R378). `release` is the cycle TB0 of its task (R25), whether or not
SLATH has written it to CSR TB0; `footSet` holds the footprint entries as the latest PHASE found them (R69); `badTab` names the words of its tables that fail their parity, `badWord` says that an instruction word which the next
instruction reads fails its parity (R397). `haltCols` holds the phase in which the core halted and how many of its COLSTARTs departed then, `seenCols` how many
of them a replay of that phase has issued again (R339, R404). -/
structure Ctx where
  -- sequencing
  now : Nat
  pc : Nat
  base : Nat
  nic : Option Nat
  started : Bool
  slathed : Bool
  slathPend : Bool
  halted : Option Nat
  partEnded : Bool
  guard : Option Bool
  savedGuard : Option (Nat × Bool)
  loops : List LoopRec
  hloops : List LoopRec
  seg : Seg
  sigNext : Option Nat
  handler : Bool
  frozen : Option Freeze
  sysCall : Option (Nat × Word)
  footSel : Option Word
  footSet : NMap Word
  badWord : Bool
  badTab : List Nat
  -- registers
  q : NMap (List QEntry)
  h : NMap Word
  w : NMap (List WEntry)
  strms : NMap Strm
  lanes : List LaneSlot
  layout : NMap Word
  foot : NMap Word
  slots : NMap Word
  slotsLive : NMap Word
  cause : Word
  epc : Word
  etb : Word
  einfo : Word
  tvec : Word
  mode : Word
  hfault : Word
  tb0 : Word
  release : Nat
  dmr : Word
  phaseno : Word
  ssn : Word
  holdinfo : Word
  ctxwin : Word
  frm : Word
  vrm : Word
  vflags : Word
  t3cnt : Word
  qseed : NMap Word
  satcnt : Word
  nancnt : Word
  qtscale : Word
  dqscale : Word
  mxdim : Word
  piv : NMap Nat
  maxa : Nat
  maxu : Nat
  growth : Word
  slip : Word
  migst : Word
  land : Word
  faultpc : Word
  raceag : Word
  aukey : Word
  -- engines
  flight : List Flight
  cmds : List Cmd
  lastStep : NMap Nat
  freeAt : NMap Nat
  atomics : List Atomic
  post : List PostAct
  -- access unit
  auNext : Nat
  aus : List AuReq
  auHalt : Option Nat
  migrs : List (Nat × Nat × Nat × Nat)
  cols : List ColStart
  haltCols : Nat × Nat
  seenCols : Nat
  -- port and flags
  flags : NMap RFlag
  slotDone : NMap Nat
  slotSeq : NMap (List (Nat × Nat))
  deriving DecidableEq, Repr

/-- A freshly reset context. -/
def Ctx.reset : Ctx :=
  { now := 0, pc := 0, base := 0, nic := none, started := false, slathed := false, slathPend := false, halted := none,
    partEnded := false, guard := none, savedGuard := none, loops := [], hloops := [],
    seg := ⟨false, false, 0, 0, 0, 0⟩, sigNext := none, handler := false, frozen := none, sysCall := none, footSel := none, footSet := [], badWord := false, badTab := [],
    q := [], h := [], w := [], strms := [], lanes := [], layout := [], foot := [], slots := [], slotsLive := [],
    cause := 0, epc := 0, etb := 0, einfo := 0, tvec := 0, mode := 0, hfault := 0, tb0 := 0, release := 0, dmr := 0, phaseno := 0,
    ssn := 0, holdinfo := 0, ctxwin := 0x00007F0007FF0000, frm := 0, vrm := 0, vflags := 0, t3cnt := 0, qseed := [],
    satcnt := 0, nancnt := 0, qtscale := 0, dqscale := 0x3F800000, mxdim := 0, piv := [], maxa := 0, maxu := 0, growth := 0,
    slip := 0, migst := 0, land := 0, faultpc := 0, raceag := 0, aukey := 0,
    flight := [], cmds := [], lastStep := [], freeAt := [], atomics := [], post := [],
    auNext := 0, aus := [], auHalt := none, migrs := [], cols := [], haltCols := (0, 0), seenCols := 0,
    flags := [], slotDone := [], slotSeq := [] }

/-- A checkpoint of a context, taken by the PHASE of cycle `cycle` that begins phase `phase` (R120), with the words that are on
their way to its granules or wait there and the data moves on their way (R295, R339). -/
structure Check where
  slot : Nat
  phase : Nat
  cycle : Nat
  ctx : Ctx
  inbound : List Arrival
  waiting : List Arrival
  moves : List Move
  deriving DecidableEq, Repr

/-- An image of the undo store (R394): the slot and phase whose first change of the granule it keeps, its bytes and its rows' marks. -/
structure Undo where
  slot : Nat
  phase : Nat
  gran : Nat
  data : List Byte
  marks : NMap Nat
  deriving DecidableEq, Repr

/-- A compute core (R13): its slots and what they share. `banks` are the bank rows touched on cycle `bankCycle` (R57);
`dirty` the phases of the dirty bits, by tile · 32 and the phase (R248, R394); `undo` the granule images of the undo store (R394); `inbound`
the words on their way to its bank controllers, `waiting` the reducing writes that wait for their slot (R292), and
`applied` the words that it has taken since its checkpoint, with the cycles of their stamps (R295, R339); `poison` the marks of its scratchpad and accumulator rows (R398); `snap` its snapshot registers (R402);
`stamped` the traps delivered to it since its checkpoint (R339, R357, R361). -/
structure CoreSt where
  ctxs : NMap Ctx
  checks : List Check
  tags : NMap Nat
  banks : List Nat
  bankCycle : Nat
  dirty : NMap Nat
  undo : List Undo
  waiting : List Arrival
  inbound : List Arrival
  applied : List Arrival
  moves : List Move
  poison : NMap Nat
  snap : NMap Nat
  stamped : List Stamped
  slotRun : Option Nat
  deriving DecidableEq, Repr

/-- A freshly reset core: three empty slots, none running. -/
def CoreSt.reset : CoreSt :=
  { ctxs := [], checks := [], tags := [], banks := [], bankCycle := 0, dirty := [], undo := [], waiting := [],
    inbound := [], applied := [], moves := [], poison := [], snap := [], stamped := [], slotRun := none }

/-! ## Memory command engines -/

/-- The state of an engine's table (R210). -/
inductive McState where
  | idle | started | running | trapped
  deriving DecidableEq, Repr

/-- A cursor (R214). -/
structure Cursor where
  valid : Bool
  rank : Nat
  addr : Nat
  deriving DecidableEq, Repr

/-- An instruction on its way to an engine (R231): arrival cycle, issuing core, kind (FN), operands, and MCBASE's words. -/
structure McMsg where
  due : Nat
  core : Nat
  fn : Nat
  a : Nat
  b : Nat
  words : List Nat
  deriving DecidableEq, Repr

/-- The `part`-th 64-byte line of a paged request in a channel's queue: its arrival's number at the owner, and the request, a context's (key + 1 and
sequence number) or another's (0 and id) (R303, R305, R317). -/
structure PagedPart where
  order : Nat
  key : Nat
  id : Nat
  part : Nat
  deriving DecidableEq, Repr

/-- A service window's own view of the banks (R227, R228): its first cycle, the open rows, and the cycles of the commands that count for R218, the
table's up to the window and the window's since, its REFABs among them. -/
structure Svc where
  start : Nat
  rows : NMap Nat
  actAt : NMap Nat
  preAt : NMap Nat
  rowLog : List (Nat × Nat)
  rdCol : List (Nat × Nat)
  wrCol : List (Nat × Nat)
  refAll : Option Nat
  deriving DecidableEq, Repr

/-- No window yet. -/
def Svc.reset : Svc := { start := 0, rows := [], actAt := [], preAt := [], rowLog := [], rdCol := [], wrCol := [], refAll := none }

/-- A memory command engine (R206–R239). `open` bank rows are in `rows`; the `last…` lists hold issue cycles for R218, newest
first; `preAt` holds each bank's precharge cycle; `rdLog` the RDs since the previous TAG (granule, core, landing cycle).
`prior` is the state that a MEMTIME interrupted, `trapInfo` its cycle, EINFO and controller, `told` that the controller's handler answers for it; `saved` the rows that the
keeper recorded, `keeper` its step (0 not begun, 1 the banks closed or closing, 3 reopening, 2 done, 5 to begin again in the same freeze), `busyTill`
the wall cycle from which it may go on, `refWall` that of the latest refresh of every bank, `bankWall` that of each bank by a table word, `scrubPace` a period of 2^20 wall cycles and the rows scrubbed in it; `taken` the data of takes made before their WR
issued (issue cycle, core, address, data, mark), `wrLast` the issue cycle plus one of the latest WR that reached a column. -/
structure EngSt where
  now : Nat
  st : McState
  table : NMap Nat
  loaded : Nat
  badWords : List Nat
  pc : Nat
  lastIssue : Nat
  wait : Nat
  first : Bool
  start : Nat
  ctrl : Nat
  left0 : Nat
  left1 : Nat
  act0 : Bool
  act1 : Bool
  cur0 : Cursor
  cur1 : Cursor
  cur2 : Cursor
  cur3 : Cursor
  curSel : Nat
  rows : NMap Nat
  actAt : NMap Nat
  preAt : NMap Nat
  refAt : NMap Nat
  refAll : Option Nat
  rowLog : List (Nat × Nat)
  rdCol : List (Nat × Nat)
  wrCol : List (Nat × Nat)
  owed : NMap Int
  ticks : Nat
  standing : Nat
  hw : Int
  reason : Nat
  ncmd : Nat
  windows : Nat
  paged : Nat
  holds : Nat
  scrub : Nat
  inbox : List McMsg
  stopping : Bool
  rdLog : List (Nat × Nat × Nat)
  svw : Option (Nat × Nat × Nat)
  svc : Svc
  frozen : Option Freeze
  trapInfo : Option (Nat × Nat × Nat)
  told : Bool
  prior : McState
  saved : NMap Nat
  keeper : Nat
  busyTill : Nat
  refWall : Nat
  bankWall : NMap Nat
  scrubPace : Nat × Nat
  timing : NMap Word
  scrubRow : Nat
  scrubCfg : Option Word
  corrected : List Nat
  queue : List PagedPart
  poison : NMap Nat
  taken : List (Nat × Nat × Nat × List Byte × Option Nat)
  wrLast : NMap Nat
  snap : NMap Nat
  deriving DecidableEq, Repr

/-- A freshly reset engine. -/
def EngSt.reset : EngSt :=
  { now := 0, st := .idle, table := [], loaded := 0, badWords := [], pc := 0, lastIssue := 0, wait := 0, first := false, start := 0, ctrl := 0,
    left0 := 0, left1 := 0, act0 := false, act1 := false, cur0 := ⟨false, 0, 0⟩, cur1 := ⟨false, 0, 0⟩,
    cur2 := ⟨false, 0, 0⟩, cur3 := ⟨false, 0, 0⟩, curSel := 0, rows := [], actAt := [], preAt := [], refAt := [],
    refAll := none, rowLog := [], rdCol := [], wrCol := [], owed := [], ticks := 0, standing := 0, hw := 0, reason := 0,
    ncmd := 0, windows := 0, paged := 0, holds := 0, scrub := 0, inbox := [], stopping := false, rdLog := [], svw := none, svc := .reset,
    frozen := none, trapInfo := none, told := false, prior := .idle, saved := [], keeper := 0, busyTill := 0, refWall := 0, bankWall := [], scrubPace := (0, 0), timing := [], scrubRow := 0,
    scrubCfg := none, corrected := [], queue := [], poison := [], taken := [], wrLast := [], snap := [] }

/-! ## Collective engines -/

/-- A unit of a run on its way to core `dest` of its location (R344), a multicast unit where `slot` is given (R349). -/
structure ColUnit where
  dest : Nat
  group : Nat
  epoch : Nat
  sender : Nat
  seqNo : Nat
  slot : Option Nat
  chunk : Nat
  wfmt : Nat
  data : List Nat
  poison : Option Nat
  born : Nat
  deriving DecidableEq, Repr

/-- A run of a program block (R344–R356), `serial` its number among all runs. `members` are locations, package · 256 + die · 32 + core; `loopAt` holds the first and last
word of the body, the passes left and the index of the pass; `taken` the units taken (sender, number); `kept` the
128-byte rows of the scratchpad that the run wrote, as written, with their marks (R349, R398); `lastWb` is the wall cycle of its latest own progress, `heard` that of
each member's (R355); `mcFrom` counts the multicast units applied by their senders; `born` is the wall cycle of its start. A run that is `aborted` here still
awaits the answers of its paged writes. -/
structure Run where
  serial : Nat
  core : Nat
  slot : Nat
  group : Nat
  rank : Nat
  epoch : Nat
  trap : Bool
  bar : Bool
  ns : Nat
  descs : List Nat
  words : List Nat
  members : List Nat
  active : Bool
  pc : Nat
  loopAt : Option (Nat × Nat × Nat × Nat)
  peer : Nat
  pred : Nat
  taken : List (Nat × Nat)
  sent : NMap Nat
  mcDone : Nat
  mcDue : Nat
  kept : NMap (List Byte × Option Nat)
  satn : Nat
  deny : Nat
  nword : Nat
  sig : Nat
  status : Nat
  aborted : Bool
  recSlot : Option Nat
  undelivered : Nat
  lastWb : Nat
  heard : NMap Nat
  mcFrom : NMap Nat
  born : Nat
  deriving DecidableEq, Repr

/-- A COLSTART waiting at the engine (R344). `bad` says that the port's read of its block met an error that its check does not correct, in the header or
the rest, and the address that the error record names (R355). -/
structure ColWait where
  core : Nat
  slot : Nat
  block : Nat
  rank : Nat
  trap : Bool
  bad : Option (Bool × Nat)
  deriving DecidableEq, Repr

/-- A collective engine (R343–R368): its runs, COLSTARTs that wait, units buffered, abort units held (core, group, epoch, STATUS, origin),
the latest ended run of each group, epochs (core · 64 + group), COLLABORTs to deliver (context, EINFO), units and abort
units on their way to a location, and COLABORTs that have departed. -/
structure CxeSt where
  runs : List Run
  waits : List ColWait
  units : List ColUnit
  aborts : List (Nat × Nat × Nat × Nat × Nat)
  ended : NMap Run
  epochs : NMap Nat
  colaborts : List (Nat × Nat)
  outbox : List (Nat × ColUnit)
  outAborts : List (Nat × Nat × Nat × Nat × Nat × Nat)
  installs : NMap Nat
  stops : List Nat
  deriving DecidableEq, Repr

/-- A freshly reset collective engine. -/
def CxeSt.reset : CxeSt :=
  { runs := [], waits := [], units := [], aborts := [], ended := [], epochs := [], colaborts := [], outbox := [], outAborts := [], installs := [], stops := [] }

/-! ## Dies, partitions, the package -/

/-- A migration in progress (R318): page, its size bit, frames, lines read in their old place (`taken`) and copied, and the MIGR as
`PagedPart` names it. -/
structure Migr where
  page : Nat
  big : Bool
  oldFrame : Nat
  newFrame : Nat
  taken : List Nat
  copied : List Nat
  key : Nat
  id : Nat
  deriving DecidableEq, Repr

/-- A paged request that does not come from a context's sequence: a system core, another package, or the write of a collective run to
a replica (R338, R359). `agent` is the paged agent id of R314, `run` names the run's write: die, group, replica and the run's serial number; `left` holds the lines that
have still to perform. -/
structure ExtReq where
  id : Nat
  op : AuOp
  va : Nat
  size : Nat
  agent : Nat
  pbase : Nat
  ph : Nat
  ssn : Nat
  key : Nat
  value : Nat
  cas : Option Nat
  run : Option (Nat × Nat × Nat × Nat)
  sys : Option Nat
  queued : Bool
  left : List Nat
  poison : Option Nat
  deriving DecidableEq, Repr

/-- What a die holds for its paged space (R303–R318): page table words, the entries in its translation buffer by their page number, race tags,
migrations, the MIGRs that wait for one, the count of arrivals, requests from outside the contexts, and the marks of the lines of its frames, by frame · 1024
and line (R398). -/
structure DieSt where
  pte : NMap Word
  tlb : NMap (Nat × Nat)
  race : NMap Nat
  migr : List Migr
  migrWait : List (Nat × Nat)
  arrivals : Nat
  ext : List ExtReq
  pagePoison : NMap Nat
  deriving DecidableEq, Repr

/-- A freshly reset die. -/
def DieSt.reset : DieSt := { pte := [], tlb := [], race := [], migr := [], migrWait := [], arrivals := 0, ext := [], pagePoison := [] }

/-- A task on a resident slot (R19–R26): its packet's fields and what the completion record needs (R23). -/
structure Task where
  notify : Bool
  wdog : Nat
  cores : List Nat
  crec : Nat
  task : Nat
  args : List Nat
  podn : Nat
  status : Nat
  arrived : List Nat
  tb0 : Option Nat
  slathWb : Nat
  slathFired : Bool
  relWb : Nat
  lastHalt : Nat
  lastHaltWb : Nat
  holds : Nat
  deriving DecidableEq, Repr

/-- A requested hold (R42): KIND, stamp, the wall cycle from which its length counts, its minimum length, released. -/
structure HoldReq where
  kind : Nat
  stamp : Nat
  since : Option Nat
  minLen : Nat
  released : Bool
  deriving DecidableEq, Repr

/-- How a domain stands: running, freezing toward F, frozen on F, or catching up toward F from wall cycle W (R38–R40). -/
inductive DomMode where
  | run
  | freezing (f : Nat)
  | frozen (f : Nat)
  | catchUp (f w : Nat)
  deriving DecidableEq, Repr

/-- The domain of one resident slot of a partition; `wdWhich` says which of the watchdog's counters fired, 1 for HOLDW and 2 for LIVEW; `barrier` holds the
keys of the barrier records that have arrived, `barDone` the phases and keys of those that a commit has counted (R17, R24, R38–R42, R121, R384, R392). -/
structure Domain where
  task : Option Task
  tb : Nat
  mode : DomMode
  reqs : List HoldReq
  reports : List (Nat × Nat × Nat)
  commits : List (Nat × Nat × Bool)
  mismatch : List (Nat × Nat × Nat)
  cancel : Option (Nat × Nat)
  cancelled : List (Nat × Nat)
  holdw : Nat
  livew : Nat
  wdf : Bool
  wdWhich : Nat
  osh : Bool
  barrier : List Nat
  barDone : List (Nat × Nat)
  engChecks : List (Nat × NMap EngSt)
  deriving DecidableEq, Repr

/-- A domain without a task. -/
def Domain.reset : Domain :=
  { task := none, tb := 0, mode := .run, reqs := [], reports := [], commits := [], mismatch := [], cancel := none,
    cancelled := [], holdw := 0, livew := 0, wdf := false, wdWhich := 0, osh := false, barrier := [], barDone := [], engChecks := [] }

/-- A change of a record waiting for its cycle (R184, R185): TB cycle of its cause, agent order, kind (0 STCLR, 1 STSET, 2
contribution, 3 commit), record (the slot, for a commit), die of the shard, word, value, and a contribution's 36 words. -/
structure RecChange where
  cycle : Nat
  order : Nat
  kind : Nat
  rid : Nat
  die : Nat
  word : Nat
  value : Word
  data : List Nat
  deriving DecidableEq, Repr

/-- The statistics records of a partition (R180–R189): home, shards (by die · 4096 + id) and view words, the changes and merges
waiting. A copy of them is the checkpoint that a cancel goes back to, with what each later cycle is still to see (R188, R189). -/
structure RecSt where
  home : NMap Word
  shard : NMap Word
  view : NMap Word
  changes : List RecChange
  merges : List (Nat × Nat × Nat × Nat)
  deriving DecidableEq, Repr

/-- A core of a saved context: its context and checkpoints, the shadows of its window, its tags, dirty bits, undo images and marks, what is on its way to it,
and the bytes of its instruction memory by their place in it (R381). The bytes of the window itself lie in the save area. -/
structure SavedCore where
  core : Nat
  ctx : Ctx
  checks : List Check
  shadows : List (Nat × List Byte)
  dirty : NMap Nat
  undo : List Undo
  moves : List Move
  inbound : List Arrival
  waiting : List Arrival
  applied : List Arrival
  stamped : List Stamped
  poison : NMap Nat
  tags : NMap Nat
  code : List (Nat × Byte)
  deriving DecidableEq, Repr

/-- What an image of a saved slot stands for, whose bytes the save areas hold: its number, the slot's domain, cores and engines, and of the records that it
owns the states to which a cancel goes back, by the PHASE cycles that they belong to, and what is still to change (R189, R381). -/
structure Image where
  no : Nat
  dom : Domain
  cores : List SavedCore
  engs : NMap EngSt
  recChecks : NMap RecSt
  changes : List RecChange
  merges : List (Nat × Nat × Nat × Nat)
  deriving DecidableEq, Repr

/-- A partition (R16): its launch unit, domains, records, tables and reliability state. `queue` holds level, order and bytes of each
packet, `arrivals` counts packets, `scanned` is the count that the launch unit knows of, `notifies` are notifies on their way,
`headTold` the packets that the operating system was told of, `unmapped` says that PNB is still to be read after an unmap, `rung` that a notify arrived in this wall cycle (R382, R383). `parked` holds the cores
whose slot the latest SWITCH left empty, so that they run nothing until the next (R379). -/
structure PartSt where
  size : Nat
  queue : List (Nat × Nat × List Nat)
  arrivals : Nat
  mapped : Bool
  pnb : Bool
  notifies : Nat
  unmapped : Bool
  rung : Bool
  scanned : Nat
  headTold : List Nat
  perms : NMap Word
  dom0 : Domain
  dom1 : Domain
  runSlot : Option Nat
  parked : List Nat
  switchTo : List Nat
  str : Nat
  strSlot : Nat
  serr : Bool
  images : List Image
  recs : RecSt
  recChecks : NMap RecSt
  owners : NMap Word
  groups : NMap Word
  saves : NMap Word
  wddef : Word
  colto : Word
  errs : NMap Word
  errFill : Nat
  errPlace : NMap Nat
  snseq : Nat
  frame0 : NMap Nat
  frames : NMap Nat
  deriving DecidableEq, Repr

/-- A partition as the hypervisor makes it at boot (R405, R407). -/
def PartSt.boot (size : Nat) : PartSt :=
  { size := size, queue := [], arrivals := 0, mapped := true, pnb := false, notifies := 0, unmapped := false, rung := false, scanned := 0, headTold := [], perms := [],
    dom0 := .reset, dom1 := .reset, runSlot := none, parked := [], switchTo := [], str := 0, strSlot := 0, serr := false,
    images := [], recs := ⟨[], [], [], [], []⟩, recChecks := [], owners := [], groups := [],
    saves := [], wddef := 2343750, colto := 234375, errs := [], errFill := 0, errPlace := [], snseq := 0, frame0 := [],
    frames := [] }

/-- A system core (R403): registers g1–g63, pc, its CSRs, FRM and VFLAGS of its own (R107, R108; log 71), its trap record, the paged request
that it waits for and that request's answer (a cause, 0 for none, and a value); `nonce` is what an ATTEST under way has read (R411). -/
structure SysSt where
  g : NMap Word
  pc : Nat
  sevt : Nat
  seven : Nat
  svec : Nat
  sepc : Nat
  errsel : Nat
  snsel : Nat
  frm : Word
  vflags : Word
  cause : Word
  einfo : Word
  inEvent : Bool
  halted : Bool
  running : Bool
  loops : List LoopRec
  guard : Option Bool
  req : Option Nat
  ans : Option (Nat × Nat)
  nonce : Option Nat
  deriving DecidableEq, Repr

/-- A freshly reset system core. -/
def SysSt.reset : SysSt :=
  { g := [], pc := 0, sevt := 0, seven := 0, svec := 0, sepc := 0, errsel := 0, snsel := 0, frm := 0, vflags := 0, cause := 0, einfo := 0,
    inEvent := false, halted := false, running := false, loops := [], guard := none, req := none, ans := none, nonce := none }

/-- A link (R409). -/
structure LinkSt where
  up : Bool
  lanes : Nat
  retries : Nat
  deriving DecidableEq, Repr

/-- Where the package stands in its boot (R411). -/
inductive BootSt where
  | off | recovery | running
  deriving DecidableEq, Repr

/-- How the records of an image directory are laid out (the MODEL's own field: R20 names the fields of a 32-byte record and gives them no places; log 19).
Each field is its first byte and its bytes; `kinds` are the codes of instructions, layout entries, footprint table, time-slot table and scratchpad data,
and a record of another code ends the list. -/
structure DirFmt where
  rank : Nat × Nat
  kind : Nat × Nat
  dest : Nat × Nat
  len : Nat × Nat
  src : Nat × Nat
  tag : Nat × Nat
  kinds : List Nat
  deriving DecidableEq, Repr

/-- The record layout that the model names where nothing has set another (DESIGN CHOICE, log 19). -/
def DirFmt.reset : DirFmt :=
  { rank := (0, 1), kind := (1, 1), dest := (4, 4), len := (8, 8), src := (16, 8), tag := (2, 2), kinds := [1, 2, 3, 4, 5] }

/-- The package's own state: boot, measurement registers MR0–MR7, package id, links, sensors, power manager (R409–R412), and
the record layout of image directories. -/
structure PkgSt where
  boot : BootSt
  mr : NMap Nat
  pkg : Nat
  links : NMap LinkSt
  therm : Word
  pwr : Word
  thold : Nat
  plim : Nat
  duty : Nat
  powerCut : Bool
  dirFmt : DirFmt
  deriving DecidableEq, Repr

/-! ## The machine -/

/-- An agent that runs in a wall cycle: a core, an engine, a system core, or a collective run of a die. -/
inductive Agent where
  | core (n : Nat)
  | eng (n : Nat)
  | sys (n : Nat)
  | cxe (die group : Nat)
  deriving DecidableEq, Repr

/-- What an event concerns: numbers and data that the event's meaning reads. -/
structure EvArg where
  a : Nat
  b : Nat
  c : Nat
  d : Nat
  data : List Nat
  deriving DecidableEq, Repr

/-- An error that strikes a storage or a hop and that its check does not correct, or one that it corrects (R397): a scratchpad,
accumulator or shadow row, a bit of the `n`-th lane word of a core, the `n`-th entry of a queue register (a vector queue from 64 on), a word of
instruction memory that the core's next instruction reads, a word of a core's tables, a word of an engine's table, a DRAM column, on the fabric a
data move, a word on its way to a core, a unit of a collective run, a paged request or its answer on its way, a line of a die's frames, the port access of
the word that a collective run executes, the port's reads of the block of the `n`-th COLSTART that waits at a die, those of its header or the rest. -/
inductive Upset where
  | row (core key : Nat)
  | lane (core n bit : Nat)
  | entry (core q n : Nat)
  | code (core : Nat)
  | table (core place : Nat)
  | command (eng n : Nat)
  | column (eng key : Nat)
  | fabric (core n : Nat)
  | word (core n : Nat)
  | unit (die n : Nat)
  | request (core n : Nat)
  | ext (die n : Nat)
  | line (die n : Nat)
  | port (die group : Nat)
  | block (die n : Nat) (header : Bool)
  | corrected (die cls loc : Nat)
  deriving DecidableEq, Repr

/-- No argument. -/
def EvArg.none : EvArg := ⟨0, 0, 0, 0, []⟩

/-- The whole package. `engSaved` holds the table state of engines for the slot that does not run (engine · 4 + slot, R207), `engHist`
the engines at the end of the latest wall cycles, from which a PHASE takes its checkpoint of them (R393). `agenda` holds the events that are to happen before any agent runs, `todo` the agents that have still to run in
wall cycle `wb`; `ev` is the argument of the event that executes, and the cursors name the agent an instruction acts
for. -/
structure State where
  wb : Nat
  free : Nat
  mem : Memory
  cores : NMap CoreSt
  syss : NMap SysSt
  engs : NMap EngSt
  cxes : NMap CxeSt
  dies : NMap DieSt
  parts : NMap PartSt
  pkg : PkgSt
  agenda : List (Instr × EvArg)
  todo : List Agent
  engSaved : NMap EngSt
  engHist : List (NMap EngSt)
  ev : EvArg
  curCore : Nat
  curSys : Nat
  curEng : Nat
  curDie : Nat
  curGroup : Nat
  onSys : Bool
  deriving DecidableEq, Repr

/-- Why a step can stop the model: an access to an address that the spec says does not exist. -/
inductive Fault where
  /-- Raised by LAUNCH where a section of the image directory ends outside the storage that it is loaded into. Safe: the model
  stops where the spec gives no effect. -/
  | noSuchAddress
  deriving DecidableEq, Repr

/-- Why an instruction has no meaning. -/
inductive Refusal where
  /-- Raised by `exec`'s arms that have no meaning yet. Safe. -/
  | notModelled (mnemonic : String)
  deriving DecidableEq, Repr

/-- The package right after power-on: nothing booted, nothing launched, every storage unlisted (R22, R369–R413; the values the
spec gives no reset for are 0, log 1). -/
def State.reset : State :=
  { wb := 0, free := 0, mem := [], cores := [], syss := [], engs := [], cxes := [], dies := [], parts := [],
    pkg := { boot := .off, mr := [], pkg := 0, links := [], therm := 0, pwr := 0, thold := 100, plim := 3200, duty := 16,
             powerCut := false, dirFmt := .reset },
    agenda := [], todo := [], engSaved := [], engHist := [], ev := .none, curCore := 0, curSys := 0, curEng := 0, curDie := 0, curGroup := 0,
    onSys := false }

end Sys2Proof.Machine
end

