-- ==== Sys2Proof/Config.lean ====
section
/-! DEFINITION. What an implementation or the world outside the package fixes, and the free values: constants without a body, so
that nothing can be proved of the value they have (log 3). -/

namespace Sys2Proof.Config
open Sys2Proof.Machine

/-- H, the crossing between agents of a domain, in cycles (R14). -/
def hop : Nat := 24

/-- What the outside world and the untimed units do on each wall cycle: the events that happen, in their order. Free. -/
opaque outside : Nat → List (Instr × EvArg)

/-- Whether a partition of another package, given by its package and lowest die, is a member of a task's pod domain (R17). Free. -/
opaque podPartition : Nat → Nat → Nat → Bool

/-- The partition of a die of another package (R343, R363). Free. -/
opaque farPartition : Nat → Nat → Nat

/-- The hypervisor's version (R408). Free. -/
opaque hvVersion : BitVec 64

/-- The package's identity, and a partition layout (base die and dies of each partition), as the bytes that a quote digests (R411). Free. -/
opaque identity : List (BitVec 8)
opaque layoutBytes : List (Nat × Nat) → List (BitVec 8)

/-- r and s of a signature of a digest with the package's identity key, by the counter of free values (R411). Free. -/
opaque signature : Nat → List (BitVec 8) → Nat × Nat

/-- Which latched word each word of a snapshot shows: the spec gives a snapshot's contents but not their order (R402). Free. -/
opaque snapPlace : Nat → Nat

/-- A value that the spec leaves open, by the counter of free values. Free. -/
opaque freeWord : Nat → BitVec 64

/-- How long the last SLATH arrival takes to the timebase unit, in cycles, by the counter of free values (R25). Free. -/
opaque slathTransit : Nat → Nat

/-- Paged agent id, key and PHASENO stamp of a system core's accesses (R314, R315, R340, R403). Free. -/
opaque sysAgent : Nat → Nat
opaque sysKey : Nat → Nat
opaque sysPhase : Nat → Nat

/-- What the sensors show on a wall cycle (R412). Free. -/
opaque therm : Nat → BitVec 64
opaque power : Nat → BitVec 64

/-- Bank, row and column of a line of a frame in its channel, by the frame's number · 1024 and the line's: the spec gives only the engine (R303). Free. -/
opaque lineKey : Nat → Nat

/-- The temperature of a DRAM stack on a wall cycle, in °C (R401). Free. -/
opaque stackTemp : Nat → Nat → Nat

/-- Whether a collective engine, or a system core, does nothing on a wall cycle (R15). Free. -/
opaque cxeWaits : Nat → Nat → Bool
opaque sysWaits : Nat → Nat → Bool

/-- The byte of another package's memory at a virtual address, by the counter of free values. Free. -/
opaque farByte : Nat → Nat → BitVec 8

/-- The errors that strike the package on a wall cycle (R397). Free. -/
opaque upsets : Nat → List Upset

/-- The bytes of a register image, as a save area holds them, and their number: of an image by its number, a core by its rank, and the byte's place. The spec
calls them opaque (R381). Free. -/
opaque imageLen : Nat
opaque imageByte : Nat → Nat → Nat → BitVec 8

/-- Where a location lies in an error record's LOC (R400). Free. -/
opaque errLoc : Nat → BitVec 48

end Sys2Proof.Config
end

