-- ==== Sys2Proof/Machine/Num.lean ====
section
/-! DEFINITION. Number formats to the last bit: the values of every format (R157–R164), RoundTo (R167), the flag
conditions (R168), the conversions (R169, R170), exact arithmetic on values and the functions of R141. -/

namespace Sys2Proof.Machine

/-- The value of one element: a NaN, an infinity, a zero with its sign, or `(−1)^neg · m · 2^e` with `m > 0`. -/
inductive Val where
  | nan
  | inf (neg : Bool)
  | zero (neg : Bool)
  | fin (neg : Bool) (m : Nat) (e : Int)
  deriving DecidableEq, Repr, Inhabited

/-- Sticky flags as VFLAGS numbers them (R176): NV 1, DZ 2, OF 4, UF 8, NX 16, T3ILL 32. -/
abbrev Flags := Nat

def fNV : Flags := 1
def fDZ : Flags := 2
def fOF : Flags := 4
def fUF : Flags := 8
def fNX : Flags := 16
def fT3 : Flags := 32

/-- A binary floating-point format (R157): width, significand bits, bias, largest finite magnitude pattern, and the
infinity and canonical NaN patterns where the format has them. -/
structure FpFmt where
  width : Nat
  mbits : Nat
  bias : Nat
  pmax : Nat
  infPat : Option Nat
  nanPat : Option Nat
  deriving DecidableEq, Repr

/-- The table of R157. -/
def fpFmt : Nat → Option FpFmt
  | 0x00 => some ⟨32, 23, 127, 0x7F7FFFFF, some 0x7F800000, some 0x7FC00000⟩
  | 0x01 => some ⟨16, 7, 127, 0x7F7F, some 0x7F80, some 0x7FC0⟩
  | 0x02 => some ⟨16, 10, 15, 0x7BFF, some 0x7C00, some 0x7E00⟩
  | 0x03 => some ⟨8, 3, 7, 0x7E, none, some 0x7F⟩
  | 0x04 => some ⟨8, 2, 15, 0x7B, some 0x7C, some 0x7F⟩
  | 0x05 => some ⟨6, 3, 1, 0x1F, none, none⟩
  | 0x06 => some ⟨6, 2, 3, 0x1F, none, none⟩
  | 0x07 => some ⟨4, 1, 1, 0x7, none, none⟩
  | _ => none

/-- Width of an element of a format code, in bits (R59, R157–R164); T3 counts one byte an element (R59). -/
def fmtWidth : Nat → Nat
  | 0x00 => 32 | 0x01 => 16 | 0x02 => 16 | 0x03 => 8 | 0x04 => 8 | 0x05 => 6 | 0x06 => 6 | 0x07 => 4
  | 0x08 => 8 | 0x09 => 6 | 0x0A => 32 | 0x0B => 16 | 0x0C => 8 | 0x0D => 8 | 0x0E => 4 | 0x0F => 8
  | 0x10 => 8 | 0x11 => 8 | 0x12 => 6 | 0x13 => 6 | 0x14 => 4 | 0x15 => 6 | 0x16 => 4
  | _ => 8

/-- Elements of one lane word at a width (R62). -/
def elemsPerWord (w : Nat) : Nat :=
  if w = 32 then 32 else if w = 16 then 64 else if w = 8 then 128 else if w = 6 then 128 else 256

/-- The element format of an MX code (R164), other codes unchanged. -/
def elemFmt : Nat → Nat
  | 0x10 => 0x03 | 0x11 => 0x04 | 0x12 => 0x05 | 0x13 => 0x06 | 0x14 => 0x07 | 0x15 => 0x09
  | f => f

/-- An MX format code (R164). -/
def isMx (f : Nat) : Bool := decide (0x10 ≤ f ∧ f ≤ 0x15)

/-- An integer format code (R161). -/
def isIntFmt (f : Nat) : Bool := decide (0x0A ≤ f ∧ f ≤ 0x0E)

/-- The L6 table T (R159). -/
def l6T : Nat → Nat
  | 0 => 0x10000 | 1 => 0x1306F | 2 => 0x16A0A | _ => 0x1AE8A

/-- A positive magnitude, or zero, as a value. -/
def mkVal (neg : Bool) (m : Nat) (e : Int) : Val := if m = 0 then .zero neg else .fin neg m e

/-- The value of an exact integer. -/
def valOfInt (x : Int) : Val := if x = 0 then .zero false else .fin (decide (x < 0)) x.natAbs 0

/-- Decoding of a binary floating-point pattern (R157). -/
def decodeFp (f : FpFmt) (p : Nat) : Val :=
  let neg := bitB p (f.width - 1)
  let mag := p % 2 ^ (f.width - 1)
  if f.infPat = some mag then .inf neg
  else if f.nanPat.isSome && decide (mag > f.pmax) then .nan
  else
    let ex := mag >>> f.mbits
    let man := mag % 2 ^ f.mbits
    if ex = 0 then mkVal neg man (1 - (f.bias : Int) - f.mbits)
    else .fin neg (man + 2 ^ f.mbits) ((ex : Int) - f.bias - f.mbits)

/-- Bounds of an integer format (R161). -/
def intBounds : Nat → Int × Int
  | 0x0A => (-(2 ^ 31 : Nat), (2 ^ 31 : Nat) - 1)
  | 0x0B => (-(2 ^ 15 : Nat), (2 ^ 15 : Nat) - 1)
  | 0x0C => (-128, 127)
  | 0x0D => (0, 255)
  | _ => (-8, 7)

/-- The integer a pattern of an integer format holds (R161). -/
def decodeInt (fmt p : Nat) : Int :=
  if fmt = 0x0D then ((p % 256 : Nat) : Int) else toSigned (fmtWidth fmt) p

/-- The value of one element pattern of a format, its block scale left out (R157–R161). -/
def decodeVal (fmt p : Nat) : Val :=
  match fpFmt fmt with
  | some f => decodeFp f p
  | none =>
    if fmt = 0x08 then (if p % 256 = 0xFF then .nan else .fin false 1 (((p % 256 : Nat) : Int) - 127))
    else if fmt = 0x09 then
      let s := bitB p 5
      let l := toSigned 5 p
      if l = -16 then (if s then .nan else .zero false)
      else .fin s (l6T (l % 4).toNat) (l / 4 - 16)
    else valOfInt (decodeInt fmt p)

/-- Canon(fmt) (R6, R157, R159): the canonical NaN, or +0 where the format has none. -/
def canon (fmt : Nat) : Nat :=
  match fpFmt fmt with
  | some f => f.nanPat.getD 0
  | none => if fmt = 0x08 then 0xFF else if fmt = 0x09 then 0x30 else 0

/-! ## Exact arithmetic on values -/

/-- Sign and magnitude of a finite value as an integer over `2^e`. -/
def Val.toDy : Val → Int × Int
  | .fin n m e => (if n then -(m : Int) else (m : Int), e)
  | _ => (0, 0)

/-- Sum of two dyadics. -/
def dyAdd (a b : Int × Int) : Int × Int :=
  if a.2 ≤ b.2 then (a.1 + b.1 * (2 ^ (b.2 - a.2).toNat : Nat), a.2)
  else (a.1 * (2 ^ (a.2 - b.2).toNat : Nat) + b.1, b.2)

/-- Value of a dyadic, an exact zero taking the given sign. -/
def valOfDy (zneg : Bool) (a : Int × Int) : Val :=
  if a.1 = 0 then .zero zneg else .fin (decide (a.1 < 0)) a.1.natAbs a.2

def Val.isNan : Val → Bool | .nan => true | _ => false
def Val.isInf : Val → Bool | .inf _ => true | _ => false
def Val.isZero : Val → Bool | .zero _ => true | _ => false
def Val.sign : Val → Bool
  | .nan => false | .inf n => n | .zero n => n | .fin n _ _ => n

def Val.negate : Val → Val
  | .nan => .nan | .inf n => .inf (!n) | .zero n => .zero (!n) | .fin n m e => .fin (!n) m e

def Val.abs : Val → Val
  | .nan => .nan | .inf _ => .inf false | .zero _ => .zero false | .fin _ m e => .fin false m e

/-- Exact sum; the flag says ∞ − ∞. An exact zero sum is +0 but −0 when `rd`; a sum of two zeros of one sign keeps it
(R140). -/
def Val.add (rd : Bool) : Val → Val → Val × Bool
  | .nan, _ => (.nan, false)
  | _, .nan => (.nan, false)
  | .inf a, .inf b => if a = b then (.inf a, false) else (.nan, true)
  | .inf a, _ => (.inf a, false)
  | _, .inf b => (.inf b, false)
  | .zero a, .zero b => (.zero (if a = b then a else rd), false)
  | .zero _, y => (y, false)
  | x, .zero _ => (x, false)
  | x, y => (valOfDy rd (dyAdd x.toDy y.toDy), false)

/-- Exact product; the flag says 0 × ∞. -/
def Val.mul : Val → Val → Val × Bool
  | .nan, _ => (.nan, false)
  | _, .nan => (.nan, false)
  | .inf _, .zero _ => (.nan, true)
  | .zero _, .inf _ => (.nan, true)
  | .inf a, y => (.inf (a != y.sign), false)
  | x, .inf b => (.inf (x.sign != b), false)
  | .zero a, y => (.zero (a != y.sign), false)
  | x, .zero b => (.zero (x.sign != b), false)
  | .fin a m e, .fin b n f => (.fin (a != b) (m * n) (e + f), false)

/-- Multiplication by a power of two. -/
def Val.scale (k : Int) : Val → Val
  | .fin n m e => .fin n m (e + k)
  | x => x

/-- Order of two magnitudes `m·2^e`. -/
def magCmp (m : Nat) (e : Int) (n : Nat) (f : Int) : Ordering :=
  if e ≤ f then compare m (n * 2 ^ (f - e).toNat) else compare (m * 2 ^ (e - f).toNat) n

/-- `x < y` by value, −0 = +0; false with a NaN. -/
def Val.lt (x y : Val) : Bool :=
  match x, y with
  | .nan, _ => false
  | _, .nan => false
  | .inf a, .inf b => a && !b
  | .inf a, _ => a
  | _, .inf b => !b
  | .zero _, .zero _ => false
  | .zero _, .fin b _ _ => !b
  | .fin a _ _, .zero _ => a
  | .fin a m e, .fin b n f =>
    if a != b then a
    else if a then magCmp m e n f == .gt
    else magCmp m e n f == .lt

/-- `x = y` by value, −0 = +0; false with a NaN. -/
def Val.eqv (x y : Val) : Bool := !x.isNan && !y.isNan && !x.lt y && !y.lt x

/-! ## RoundTo -/

/-- Does the choice of R167 take the upper neighbour? `num/den` is the exact place between the neighbours, `sticky`
says that the true value lies strictly above it, `even` that the lower neighbour is the even one. -/
def roundUp (mode : Nat) (neg : Bool) (num den : Nat) (sticky even : Bool) (r : Nat) : Bool :=
  if num = 0 && !sticky then false
  else
    match mode with
    | 1 => false
    | 2 => neg
    | 3 => !neg
    | 4 => decide (num * 2 ^ 32 / den + r ≥ 2 ^ 32)
    | _ =>
      if 2 * num > den then true
      else if 2 * num = den then (sticky || !even)
      else false

/-- Rounding of a positive magnitude `m·2^e` (plus something below one unit of `m` where `sticky`) to a binary grid of
`mbits` significand bits whose smallest spacing is `2^emin` (R167). -/
def roundBin (mbits : Nat) (emin : Int) (mode : Nat) (neg : Bool) (m : Nat) (e : Int) (sticky : Bool) (r : Nat) :
    Nat × Bool :=
  let top : Int := e + (Nat.log2 m : Int)
  let q : Int := max (top - mbits) emin
  let base := (q - emin).toNat * 2 ^ mbits
  if q ≤ e then (base + m * 2 ^ (e - q).toNat, sticky)
  else
    let d := (q - e).toNat
    let lo := m >>> d
    let rem := m % 2 ^ d
    let up := roundUp mode neg rem (2 ^ d) sticky (lo % 2 == 0) r
    (base + lo + b2n up, sticky || rem != 0)

/-- Largest `f ≤ 3` with `T[f] ≤ x` for an `x` in `[2^16, 2^17)` given as `num/den`. -/
def l6Idx (num den : Nat) : Nat :=
  if l6T 3 * den ≤ num then 3 else if l6T 2 * den ≤ num then 2 else if l6T 1 * den ≤ num then 1 else 0

/-- The L6 magnitude of index `L` as `m·2^e` (R159, the grid continued upward by R167). -/
def l6Mag (l : Int) : Nat × Int := (l6T (l % 4).toNat, l / 4 - 16)

/-- Rounding of a positive magnitude to the L6 grid (R167); the answer is `L`, with −16 for zero. -/
def roundL6 (mode : Nat) (neg : Bool) (m : Nat) (e : Int) (r : Nat) : Int × Bool :=
  let k : Int := e + (Nat.log2 m : Int)
  let lb := Nat.log2 m
  -- m / 2^lb lies in [1, 2); as a place in [2^16, 2^17) it is m·2^16 / 2^lb
  let f := l6Idx (m * 2 ^ 16) (2 ^ lb)
  let l0 : Int := 4 * k + f
  let lo : Int := if l0 < -15 then -16 else l0
  let hi : Int := lo + 1
  let loD : Int × Int := if lo = -16 then (0, 0) else (((l6Mag lo).1 : Int), (l6Mag lo).2)
  let hiD : Int × Int := (((l6Mag hi).1 : Int), (l6Mag hi).2)
  let num := dyAdd ((m : Int), e) (-loD.1, loD.2)
  let den := dyAdd hiD (-loD.1, loD.2)
  let w := min num.2 den.2
  let numN := num.1.natAbs * 2 ^ (num.2 - w).toNat
  let denN := den.1.natAbs * 2 ^ (den.2 - w).toNat
  let up := roundUp mode neg numN denN false (lo % 2 == 0) r
  (if up then hi else lo, numN != 0)

/-- Rounding of a positive magnitude to an integer (R167). -/
def roundInt (mode : Nat) (neg : Bool) (m : Nat) (e : Int) (r : Nat) : Nat × Bool :=
  if 0 ≤ e then (m * 2 ^ e.toNat, false)
  else
    let d := (-e).toNat
    let lo := m >>> d
    let rem := m % 2 ^ d
    (lo + b2n (roundUp mode neg rem (2 ^ d) false (lo % 2 == 0) r), rem != 0)

/-- Is an overflow of a value of this sign an infinity under the rounding mode ("IEEE ∞", R170)? -/
def overInf (mode : Nat) (neg : Bool) : Bool :=
  match mode with
  | 1 => false
  | 2 => neg
  | 3 => !neg
  | _ => true

/-- RoundTo(fmt, x, mode) with the format's overflow rule under `sat` (R167, R170), for a value into a format that is
not an integer one; `sticky` says that the true magnitude lies strictly between `m` and `m + 1` units. The tie 2^−128 goes up to the least
E8M0 value and raises NX only (DESIGN CHOICE, log 20). -/
def roundToS (fmt : Nat) (x : Val) (mode : Nat) (sat : Bool) (sticky : Bool) (r : Nat) : Nat × Flags :=
  match fpFmt fmt with
  | some f =>
    let sgn (n : Bool) (p : Nat) : Nat := b2n n * 2 ^ (f.width - 1) + p
    match x with
    | .nan => match f.nanPat with
      | some p => (p, 0)
      | none => (0, fNV)
    | .inf n => match f.infPat with
      | some p => (sgn n p, 0)
      | none => match f.nanPat with
        | some p => if sat then (sgn n f.pmax, fNV) else (p, fNV)
        | none => (sgn n f.pmax, fNV)
    | .zero n => (sgn n 0, 0)
    | .fin n m e =>
      let (code, inexact) := roundBin f.mbits (1 - (f.bias : Int) - f.mbits) mode n m e sticky r
      if code > f.pmax then
        let p :=
          if sat then sgn n f.pmax
          else match f.infPat with
            | some p => if overInf mode n then sgn n p else sgn n f.pmax
            | none => match f.nanPat with
              | some p => if overInf mode n then p else sgn n f.pmax
              | none => sgn n f.pmax
        (p, fOF ||| fNX)
      else (sgn n code, if inexact then (if code < 2 ^ f.mbits then fUF ||| fNX else fNX) else 0)
  | none =>
    if fmt = 0x08 then
      match x with
      | .nan => (0xFF, 0)
      | .inf n => (if n then 0xFF else if sat then 0xFE else 0xFF, fNV)
      | .zero _ => (0x00, fUF ||| fNX)
      | .fin n m e =>
        if n then (0xFF, fNV)
        else
          let k : Int := e + (Nat.log2 m : Int)
          if k < -127 then
            -- the neighbours are 0 and 2^−127, which has code 0x00; the tie goes up (log 20)
            let d := (-127 - e).toNat
            let up := roundUp mode false m (2 ^ d) sticky false r
            (0x00, if up then fNX else fUF ||| fNX)
          else
            let rem := m - 2 ^ Nat.log2 m
            let code := (k + 127).toNat
            let up := roundUp mode false rem (2 ^ Nat.log2 m) sticky (code % 2 == 0) r
            let c := code + b2n up
            let inexact := sticky || rem != 0
            if c > 0xFE then (if sat then 0xFE else if overInf mode false then 0xFF else 0xFE, fOF ||| fNX)
            else (c, if inexact then fNX else 0)
    else -- L6
      match x with
      | .nan => (0x30, 0)
      | .inf n => (if sat then b2n n * 32 + 0x0F else 0x30, fNV)
      | .zero _ => (0x10, 0)
      | .fin n m e =>
        let (l, inexact) := roundL6 mode n m e r
        if l > 15 then
          (if sat then b2n n * 32 + 0x0F else if overInf mode n then 0x30 else b2n n * 32 + 0x0F, fOF ||| fNX)
        else if l = -16 then (0x10, if inexact then fUF ||| fNX else 0)
        else (b2n n * 32 + ofInt 5 l, if inexact then fNX else 0)

/-- RoundTo of an exact value. -/
def roundTo (fmt : Nat) (x : Val) (mode : Nat) (sat : Bool) (r : Nat) : Nat × Flags :=
  roundToS fmt x mode sat false r

/-- IFit(fmt, x) (R139, R169): the exact integer where it lies in range, else the nearest bound or the wrapped value,
with OF. -/
def ifit (fmt : Nat) (x : Int) (sat : Bool) : Nat × Flags :=
  let (lo, hi) := intBounds fmt
  if lo ≤ x ∧ x ≤ hi then (ofInt (fmtWidth fmt) x, 0)
  else if sat then (ofInt (fmtWidth fmt) (if x < lo then lo else hi), fOF)
  else (ofInt (fmtWidth fmt) x, fOF)

/-- Conversion of a value that is not an integer format's into an integer of the given bounds (R169, R170). -/
def toIntRange (lo hi : Int) (x : Val) (mode r : Nat) : Int × Flags :=
  match x with
  | .nan => (0, fNV)
  | .inf n => (if n then lo else hi, fNV)
  | .zero _ => (0, 0)
  | .fin n m e =>
    let (k, inexact) := roundInt mode n m e r
    let v : Int := if n then -(k : Int) else (k : Int)
    if v < lo then (lo, fNV) else if v > hi then (hi, fNV)
    else (v, if inexact then fNX else 0)

/-- Conv(dst, src, a, rm, sat) (R169, R170). -/
def conv (dst src a mode : Nat) (sat : Bool) (r : Nat) : Nat × Flags :=
  if isIntFmt dst then
    if isIntFmt src then ifit dst (decodeInt src a) sat
    else
      let (lo, hi) := intBounds dst
      let (v, fl) := toIntRange lo hi (decodeVal src a) mode r
      (ofInt (fmtWidth dst) v, fl)
  else roundTo dst (decodeVal src a) mode sat r

/-! ## Quotients and roots -/

/-- Integer square root by bits: `n` halving steps. -/
def isqrtGo : Nat → Nat → Nat → Nat
  | 0, _, acc => acc
  | n + 1, x, acc =>
    let c := acc + 2 ^ n
    if c * c ≤ x then isqrtGo n x c else isqrtGo n x acc

/-- Integer square root, rounded down. -/
def isqrt (x : Nat) : Nat := isqrtGo (Nat.log2 x / 2 + 1) x 0

/-- Quotient of two positive magnitudes, at least 80 bits of it, with its sticky bit. -/
def magDiv (m : Nat) (e : Int) (n : Nat) (f : Int) : Nat × Int × Bool :=
  let sh := Nat.log2 n + 80
  let q := (m <<< sh) / n
  (q, e - f - sh, (m <<< sh) % n != 0)

/-- Root of a positive magnitude, at least 80 bits of it, with its sticky bit. -/
def magSqrt (m : Nat) (e : Int) : Nat × Int × Bool :=
  let (m1, e1) := if e % 2 = 0 then (m, e) else (m * 2, e - 1)
  let x := m1 <<< 180
  let q := isqrt x
  (q, e1 / 2 - 90, q * q != x)

/-- `x ÷ y` rounded (R107, R108, R276). -/
def divTo (fmt : Nat) (x y : Val) (mode : Nat) (sat : Bool) : Nat × Flags :=
  match x, y with
  | .nan, _ => (canon fmt, 0)
  | _, .nan => (canon fmt, 0)
  | .inf _, .inf _ => (canon fmt, fNV)
  | .zero _, .zero _ => (canon fmt, fNV)
  | .inf a, y => roundTo fmt (.inf (a != y.sign)) mode sat 0
  | x, .inf b => roundTo fmt (.zero (x.sign != b)) mode sat 0
  | .zero a, y => roundTo fmt (.zero (a != y.sign)) mode sat 0
  | .fin a _ _, .zero b => ((roundTo fmt (.inf (a != b)) mode sat 0).1, fDZ)
  | .fin a m e, .fin b n f =>
    let (q, k, s) := magDiv m e n f
    roundToS fmt (.fin (a != b) q k) mode sat s 0

/-- `√x` rounded (R107, R108, R141). -/
def sqrtTo (fmt : Nat) (x : Val) (mode : Nat) (sat : Bool) : Nat × Flags :=
  match x with
  | .nan => (canon fmt, 0)
  | .inf true => (canon fmt, fNV)
  | .inf false => roundTo fmt (.inf false) mode sat 0
  | .zero n => roundTo fmt (.zero n) mode sat 0
  | .fin true _ _ => (canon fmt, fNV)
  | .fin false m e =>
    let (q, k, s) := magSqrt m e
    roundToS fmt (.fin false q k) mode sat s 0

/-- A sum rounded (R107, R140); ∞ − ∞ is invalid. -/
def addTo (fmt : Nat) (x y : Val) (mode : Nat) (sat : Bool) : Nat × Flags :=
  match Val.add (mode == 2) x y with
  | (.nan, inv) => (canon fmt, if inv then fNV else 0)
  | (v, _) => roundTo fmt v mode sat 0

/-- A product rounded (R107, R140); 0 × ∞ is invalid. -/
def mulTo (fmt : Nat) (x y : Val) (mode : Nat) (sat : Bool) : Nat × Flags :=
  match Val.mul x y with
  | (.nan, inv) => (canon fmt, if inv then fNV else 0)
  | (v, _) => roundTo fmt v mode sat 0

/-- `x × y + z` with one rounding (R140). -/
def fmaTo (fmt : Nat) (x y z : Val) (mode : Nat) (sat : Bool) : Nat × Flags :=
  if x.isNan || y.isNan || z.isNan then (canon fmt, 0)
  else
    match Val.mul x y with
    | (.nan, _) => (canon fmt, fNV)
    | (p, _) => addTo fmt p z mode sat

/-! ## The functions of R141 -/

/-- ln 2 in units of 2^−256. -/
def ln2Fix : Nat := 0xB17217F7D1CF79ABC9E3B39803F2F6AF40F343267298B62D8A0D175B8BAAFA2B

/-- Terms of the exponential series in units of 2^−256: `k` more terms from term `t` of index `i`. -/
def expSeries : Nat → Nat → Nat → Nat → Nat
  | 0, _, _, _ => 0
  | k + 1, x, i, t => t + expSeries k x (i + 1) ((t * x) >>> 256 / (i + 1))

/-- `2^(num/2^d)` for a fraction `num/2^d` in [0, 1), in units of 2^−256, its last bits uncertain. -/
def exp2Fix (num d : Nat) : Nat :=
  let f := if d ≤ 256 then num <<< (256 - d) else num >>> (d - 256)
  let x := (f * ln2Fix) >>> 256
  expSeries 64 x 0 (2 ^ 256)

/-- Terms of the inverse hyperbolic tangent series in units of 2^−256. -/
def atanhSeries : Nat → Nat → Nat → Nat → Nat
  | 0, _, _, _ => 0
  | k + 1, z2, i, p => p / (2 * i + 1) + atanhSeries k z2 (i + 1) ((p * z2) >>> 256)

/-- `log2` of `m/2^b` in [1, 2), in units of 2^−240, its last bits uncertain. -/
def log2Fix (m b : Nat) : Nat :=
  let z := ((m - 2 ^ b) <<< 256) / (m + 2 ^ b)
  let z2 := (z * z) >>> 256
  let ln := 2 * atanhSeries 90 z2 0 z
  (ln <<< 240) / ln2Fix

/-- VEXP2 of R141: exact for an integer argument, else correctly rounded from 220 bits. -/
def exp2To (fmt : Nat) (x : Val) (mode : Nat) (sat : Bool) : Nat × Flags :=
  match x with
  | .nan => (canon fmt, 0)
  | .inf true => roundTo fmt (.zero false) mode sat 0
  | .inf false => roundTo fmt (.inf false) mode sat 0
  | .zero _ => roundTo fmt (.fin false 1 0) mode sat 0
  | .fin n m e =>
    let a : Int := if n then -(m : Int) else (m : Int)
    -- arguments beyond ±4096 round as ±4096.5 does: beyond every format's range
    if magCmp m e 4096 0 == .gt then
      roundToS fmt (.fin false 1 (if n then -4097 else 4096)) mode sat true 0
    else if 0 ≤ e then roundTo fmt (.fin false 1 (a * (2 ^ e.toNat : Nat))) mode sat 0
    else
      let d := (-e).toNat
      let ip : Int := a / ((2 ^ d : Nat) : Int)
      let fr := (a % ((2 ^ d : Nat) : Int)).toNat
      if fr = 0 then roundTo fmt (.fin false 1 ip) mode sat 0
      else roundToS fmt (.fin false (exp2Fix fr d >>> 36) (ip - 220)) mode sat true 0

/-- VLOG2 of R141: exact for powers of two, else correctly rounded from 200 bits. -/
def log2To (fmt : Nat) (x : Val) (mode : Nat) (sat : Bool) : Nat × Flags :=
  match x with
  | .nan => (canon fmt, 0)
  | .inf true => (canon fmt, fNV)
  | .inf false => roundTo fmt (.inf false) mode sat 0
  | .zero _ => ((roundTo fmt (.inf true) mode sat 0).1, fDZ)
  | .fin true _ _ => (canon fmt, fNV)
  | .fin false m e =>
    let b := Nat.log2 m
    let k : Int := e + (b : Int)
    if m = 2 ^ b then roundTo fmt (valOfInt k) mode sat 0
    else
      -- k + log2(m / 2^b), in units of 2^−200, not an integer multiple of them
      let fr := log2Fix m b >>> 40
      let t : Int := k * ((2 ^ 200 : Nat) : Int) + (fr : Int)
      if 0 ≤ t then roundToS fmt (.fin false t.toNat (-200)) mode sat true 0
      else roundToS fmt (.fin true ((-t).toNat - 1) (-200)) mode sat true 0

/-- VRCP of R141. -/
def rcpTo (fmt : Nat) (x : Val) (mode : Nat) (sat : Bool) : Nat × Flags :=
  match x with
  | .zero n => ((roundTo fmt (.inf n) mode sat 0).1, fDZ)
  | x => divTo fmt (.fin false 1 0) x mode sat

/-- VRSQ of R141. -/
def rsqTo (fmt : Nat) (x : Val) (mode : Nat) (sat : Bool) : Nat × Flags :=
  match x with
  | .nan => (canon fmt, 0)
  | .inf true => (canon fmt, fNV)
  | .inf false => roundTo fmt (.zero false) mode sat 0
  | .zero n => ((roundTo fmt (.inf n) mode sat 0).1, fDZ)
  | .fin true _ _ => (canon fmt, fNV)
  | .fin false m e =>
    -- 1/√(m·2^e) = √(2^(2k) / m) · 2^(−k − e/2), e made even
    let (m1, e1) := if e % 2 = 0 then (m, e) else (m * 2, e - 1)
    let k := Nat.log2 m1 + 90
    let q := 2 ^ (2 * k) / m1
    let rt := isqrt q
    let exact := rt * rt * m1 == 2 ^ (2 * k)
    roundToS fmt (.fin false rt (-(k : Int) - e1 / 2)) mode sat (!exact) 0

/-- The largest integer not above a finite value, or its rounding by a mode, the sign of a zero kept (R141). -/
def roundIntVal (mode : Nat) (x : Val) : Val :=
  match x with
  | .fin n m e =>
    let (k, _) := roundInt mode n m e 0
    mkVal n k 0
  | x => x

/-- floor of a value clamped to −1024 … 1023, for VSCALE (R141). -/
def floorClamp (x : Val) : Int :=
  match x with
  | .nan => 0
  | .inf n => if n then -1024 else 1023
  | .zero _ => 0
  | .fin n m e =>
    let f : Int :=
      if 0 ≤ e then (if magCmp m e 2048 0 == .gt then 2048 else (m * 2 ^ e.toNat : Nat)) * (if n then -1 else 1)
      else (if n then -(m : Int) else (m : Int)) / ((2 ^ (-e).toNat : Nat) : Int)
    max (-1024) (min 1023 f)

/-- The larger or smaller of two values by VMAX and VMIN, −0 < +0 (R140). -/
def valLtZ (x y : Val) : Bool :=
  match x, y with
  | .zero a, .zero b => a && !b
  | x, y => x.lt y

end Sys2Proof.Machine
end

