-- ==== Sys2Proof/Machine/Ops.lean ====
section
/-! DEFINITION. The named operations over memory and registers: one byte and wider accesses, the places of every
storage, the state of the current agent, taking an exception (R371, R375) and returning from one (R376). -/

namespace Sys2Proof.Machine

/-! ## Bytes -/

/-- The byte at an address. -/
def Memory.read : Memory → Nat → Byte
  | [], _ => memDefault
  | (a, b) :: rest, k => if k = a then b else if k < a then memDefault else Memory.read rest k

/-- The memory with a byte written; the canonical form is kept. -/
def Memory.write : Memory → Nat → Byte → Memory
  | [], k, v => if v = memDefault then [] else [(k, v)]
  | (a, b) :: rest, k, v =>
    if k = a then (if v = memDefault then rest else (k, v) :: rest)
    else if k < a then (if v = memDefault then (a, b) :: rest else (k, v) :: (a, b) :: rest)
    else (a, b) :: Memory.write rest k v

/-- The entries of a memory from an address on. -/
def Memory.above : Memory → Nat → Memory
  | [], _ => []
  | (a, b) :: rest, k => if a < k then Memory.above rest k else (a, b) :: rest

/-- `n` bytes from address `k` on, of a memory whose entries lie at `k` or above. -/
def Memory.spread : Nat → Nat → Memory → List Byte
  | 0, _, _ => []
  | n + 1, k, [] => memDefault :: Memory.spread n (k + 1) []
  | n + 1, k, (a, b) :: rest =>
    if a = k then b :: Memory.spread n (k + 1) rest else memDefault :: Memory.spread n (k + 1) ((a, b) :: rest)

/-- `n` bytes from an address on. -/
def Memory.readN (m : Memory) (n k : Nat) : List Byte := Memory.spread n k (Memory.above m k)

/-- The entries of bytes from an address on. -/
def Memory.cells : Nat → List Byte → Memory
  | _, [] => []
  | k, b :: bs => if b = memDefault then Memory.cells (k + 1) bs else (k, b) :: Memory.cells (k + 1) bs

/-- Bytes written from an address on. -/
def Memory.writeN : Memory → Nat → List Byte → Memory
  | [], k, bs => Memory.cells k bs
  | (a, b) :: rest, k, bs =>
    if a < k then (a, b) :: Memory.writeN rest k bs
    else Memory.cells k bs ++ Memory.above ((a, b) :: rest) (k + bs.length)

/-! ## Where each storage lies -/

/-- Word `w` of the instruction memory of a slot of a core (R74). -/
def imemAddr (core slot w : Nat) : Nat := 1 * 2 ^ 60 + core * 2 ^ 22 + slot * 2 ^ 20 + (w % 65536) * 4

/-- Byte `a` of a core's scratchpad (R56). -/
def spAddr (core a : Nat) : Nat := 2 * 2 ^ 60 + core * 2 ^ 23 + a % 2 ^ 23

/-- Byte `a` of a core's accumulator store (R53). -/
def accAddr (core a : Nat) : Nat := 3 * 2 ^ 60 + core * 2 ^ 21 + a % 2 ^ 21

/-- Byte `a` of a core's accumulator shadow for the writes of a phase (R248; two phases may hold a shadow of one tile, log 65). -/
def shadowAddr (core ph a : Nat) : Nat := 4 * 2 ^ 60 + core * 2 ^ 26 + ph % 32 * 2 ^ 21 + a % 2 ^ 21

/-- Byte of a row of a bank of a pseudo-channel (R206). -/
def dramAddr (eng bank row b : Nat) : Nat := 5 * 2 ^ 60 + eng * 2 ^ 30 + bank * 2 ^ 26 + row * 2 ^ 10 + b

/-- Byte of a paged frame of a die (R303). Where a frame lies in the rows of its channels is not stated; log 6. -/
def frameAddr (die frame b : Nat) : Nat := 6 * 2 ^ 60 + die * 2 ^ 48 + frame * 2 ^ 16 + b

/-- Word `w` of a system core's program (R403). -/
def sysAddr (sys w : Nat) : Nat := 7 * 2 ^ 60 + sys * 2 ^ 20 + (w % 65536) * 4

/-! ## The current agent -/

namespace State

def core (s : State) (n : Nat) : CoreSt := s.cores.getD n CoreSt.reset
def setCore (s : State) (n : Nat) (c : CoreSt) : State := { s with cores := s.cores.set n c }
def ctxOf (s : State) (n slot : Nat) : Ctx := (s.core n).ctxs.getD slot Ctx.reset
def setCtx (s : State) (n slot : Nat) (c : Ctx) : State :=
  s.setCore n { s.core n with ctxs := (s.core n).ctxs.set slot c }
/-- The running slot of a core; slot 0 where none runs. -/
def slotOf (s : State) (n : Nat) : Nat := ((s.core n).slotRun).getD 0
/-- The context that the current core runs. -/
def cur (s : State) : Ctx := s.ctxOf s.curCore (s.slotOf s.curCore)
def setCur (s : State) (c : Ctx) : State := s.setCtx s.curCore (s.slotOf s.curCore) c
def modCur (s : State) (f : Ctx → Ctx) : State := s.setCur (f s.cur)
def modCore (s : State) (f : CoreSt → CoreSt) : State := s.setCore s.curCore (f (s.core s.curCore))
def sys (s : State) : SysSt := s.syss.getD s.curSys SysSt.reset
def setSys (s : State) (c : SysSt) : State := { s with syss := s.syss.set s.curSys c }
def engOf (s : State) (e : Nat) : EngSt := s.engs.getD e EngSt.reset
def setEngOf (s : State) (e : Nat) (x : EngSt) : State := { s with engs := s.engs.set e x }
/-- The current engine. -/
def eng (s : State) : EngSt := s.engOf s.curEng
def setEng (s : State) (x : EngSt) : State := s.setEngOf s.curEng x
def modEng (s : State) (f : EngSt → EngSt) : State := s.setEng (f s.eng)
def cxe (s : State) (d : Nat) : CxeSt := s.cxes.getD d CxeSt.reset
def setCxe (s : State) (d : Nat) (x : CxeSt) : State := { s with cxes := s.cxes.set d x }
def die (s : State) (d : Nat) : DieSt := s.dies.getD d DieSt.reset
def setDie (s : State) (d : Nat) (x : DieSt) : State := { s with dies := s.dies.set d x }

/-- The lowest die of the partition that holds a die. -/
def partOfDie (s : State) (d : Nat) : Nat :=
  (s.parts.find? (fun p => decide (p.1 ≤ d ∧ d < p.1 + p.2.size))).elim d (·.1)
def part (s : State) (p : Nat) : PartSt := s.parts.getD p (PartSt.boot 1)
def setPart (s : State) (p : Nat) (x : PartSt) : State := { s with parts := s.parts.set p x }
def dom (s : State) (p slot : Nat) : Domain := if slot = 0 then (s.part p).dom0 else (s.part p).dom1
def setDom (s : State) (p slot : Nat) (d : Domain) : State :=
  s.setPart p (if slot = 0 then { s.part p with dom0 := d } else { s.part p with dom1 := d })

/-- Partition and physical die of the current core. -/
def curPart (s : State) : Nat := s.partOfDie (s.curCore / 32)
def curDieOf (s : State) : Nat := s.curCore / 32
/-- The domain of the current core's running slot. -/
def curDom (s : State) : Domain := s.dom s.curPart (s.slotOf s.curCore)
def setCurDom (s : State) (d : Domain) : State := s.setDom s.curPart (s.slotOf s.curCore) d
/-- Partition rank of a core (R18): PDIE × 32 + CORE. -/
def rankOf (s : State) (core : Nat) : Nat := core - 32 * s.partOfDie (core / 32)

def readSp (s : State) (core a n : Nat) : List Byte := s.mem.readN n (spAddr core a)
def writeSp (s : State) (core a : Nat) (bs : List Byte) : State := { s with mem := s.mem.writeN (spAddr core a) bs }
def fetchWord (s : State) (core slot w : Nat) : Nat := ofBytes (s.mem.readN 4 (imemAddr core slot w))
def fetchSys (s : State) (sys w : Nat) : Nat := ofBytes (s.mem.readN 4 (sysAddr sys w))

end State

/-- A value that the spec leaves open; the next one is another (log 3). -/
def fresh (s : State) : Word × State := (Config.freeWord s.free, { s with free := s.free + 1 })

/-! ## Stops of an instruction -/

/-- What can stop an instruction or an event on its cycle (R37): a trap with its CAUSE and EINFO, or a held cause with its HOLDINFO
KIND and the EINFO of the ARRIVAL that it is under MODE.LATE = 1; `fault` is the delivery of faulted request `seqNo`
(R312). -/
inductive Stop where
  | trap (cause einfo : Nat)
  | fault (seqNo : Nat)
  | hold (kind late : Nat)
  deriving DecidableEq, Repr

/-- The answer of a part of a meaning. -/
abbrev Res (α : Type) := Except Stop α

def illegal (einfo : Nat) : Stop := .trap 0x01 einfo
/-- An ILLEGAL class with a reason and the offending operand (R88, R204, R239, R264, R301, R326, R368, R391, R407). -/
def illegalOp (cls reason operand : Nat) : Stop := .trap 0x01 (cls + reason * 2 ^ 8 + (operand % 2 ^ 32) * 2 ^ 32)

/-! ## Taking an exception and returning from one -/

/-- IDL of the word at an address of a slot (R27). -/
def idlAt (s : State) (core slot w : Nat) : Nat := bits (s.fetchWord core slot w) 31 29

/-- The cycle on which the word at the context's pc issues (R27, R376). -/
def issueCycle (s : State) : Nat :=
  let c := s.cur
  match c.nic with
  | some n => n
  | none => max c.now (c.base + (if c.guard.isSome then 0 else idlAt s s.curCore (s.slotOf s.curCore) c.pc))

/-- The cycle from which the word at the context's pc is due (R27, R376). -/
def dueFrom (s : State) : Nat :=
  let c := s.cur
  c.nic.getD (c.base + (if c.guard.isSome then 0 else idlAt s s.curCore (s.slotOf s.curCore) c.pc))

/-- NIC as a trap saves it (R371): the cycle on which the word at the pc would issue; for a timed SEG that has begun to wait,
its stamp (R28, R116; DEDUCED, log 61). -/
def nicOf (s : State) : Nat :=
  let c := s.cur
  let word := fun k => s.fetchWord s.curCore (s.slotOf s.curCore) (c.pc + k)
  if c.guard.isNone && !c.seg.active && decide (dueFrom s < c.now) && word 0 % 2 ^ 29 == 0x0B000000 && word 1 != 0 then
    max (issueCycle s) (c.release + word 2)
  else issueCycle s

/-- Sets a bit of SEVT on every system core of a partition (R403). -/
def sysEventOn (s : State) (p bit : Nat) : State :=
  let size := (s.part p).size
  { s with syss := (List.range (2 * size)).foldl (fun m k =>
      let x := NMap.getD m (2 * p + k) SysSt.reset
      NMap.set m (2 * p + k) { x with sevt := x.sevt ||| 2 ^ bit }) s.syss }

/-! ## Error records (R400) -/

/-- An error record: at the same location the count rises, else the next record in order is filled (R400). The index, and the state; how LOC
shows a location and what SYND holds is not stated (log 3). -/
def addError (s : State) (p cls loc : Nat) (unc : Bool) : Nat × State :=
  let q := s.part p
  let l := (Config.errLoc loc).toNat % 2 ^ 48
  let same (i : Nat) : Bool :=
    let w := (q.errs.getD (i * 4) 0).toNat
    q.errPlace.find i == some loc && bits w 2 0 == cls && bitB w 3 == unc
  match (List.range 512).find? same with
  | some i =>
    let w := (q.errs.getD (i * 4) 0).toNat
    (i, sysEventOn (s.setPart p { q with
      errs := q.errs.set (i * 4) (BitVec.ofNat 64 (putBits w 15 8 (min (bits w 15 8 + 1) 255))) }) p 8)
  | none =>
    let i := q.errFill % 512
    let f := fresh s
    let errs := (((q.errs.set (i * 4) (BitVec.ofNat 64 (cls + b2n unc * 8 + l * 2 ^ 16))).set (i * 4 + 1)
      (BitVec.ofNat 64 s.wb)).set (i * 4 + 2) f.1).set (i * 4 + 3) 0
    (i, sysEventOn (f.2.setPart p { q with errs := errs, errPlace := q.errPlace.set i loc, errFill := (q.errFill + 1) % 512 }) p 8)

/-- EINFO of a POISON as the trap writes it: a lane word (class 3) or a word of control storage (class 6) whose check fails as it is read
gets its error record on the reading cycle; its location is the slot's queue, vector queue, granule, table word or address (R397, R399, R400). What stands above
EINFO's bits 31–0 tells a vector queue's location from a queue's, and is no part of EINFO. -/
def detectError (s : State) (einfo : Nat) : Nat × State :=
  let cls := bits einfo 11 9
  if cls = 3 || cls = 6 then
    let place := if cls = 6 && s.cur.badWord then 2 ^ 20 + s.cur.pc % 65536 else einfo / 2 ^ 16 % 2 ^ 24
    let r := addError s s.curPart cls (s.curCore * 2 ^ 32 + s.slotOf s.curCore * 2 ^ 24 + place) true
    (putBits einfo 8 0 r.1 % 2 ^ 32, r.2)
  else (einfo % 2 ^ 32, s)

/-- A double fault or a hand-over (R375): the handler stops before the word, HFAULT is written, the partition operating system
is notified, and CAUSE, EPC, ETB and EINFO keep their values. -/
def doubleFault (s : State) (code info : Nat) : State :=
  let s1 := s.modCur (fun c =>
    { c with hfault := BitVec.ofNat 64 (code + 2 ^ 8 + c.pc * 2 ^ 16 + (info % 2 ^ 32) * 2 ^ 32) })
  sysEventOn s1 s.curPart 4

/-- EPC of a trap (R371, R372): the word due, and for ILLEGAL of a guarded word its GRD. On the cycle of an extension word (word 2 of OPEN, words 2 to 4 of SEG)
the word due is the next instruction's, since the extension words are data of the instruction before it (R73; DEDUCED, log 87). -/
def trapPc (c : Ctx) (cause : Nat) : Nat := if cause = 0x01 && c.guard.isSome then (c.pc + 65535) % 65536 else c.pc % 65536

/-- A compute core takes a trap (R371): it freezes on its cycle, CAUSE, EPC, ETB and EINFO are written together, NIC is saved, and the
context enters handler mode at TVEC; a guard that waits for its word is kept with it. A trap condition in handler mode
is a double fault (R375). -/
def takeTrap (s : State) (cause einfo : Nat) : State :=
  if s.cur.handler then doubleFault s cause einfo
  else
    let n := nicOf s
    s.modCur (fun c =>
      { c with
        cause := BitVec.ofNat 64 cause
        epc := BitVec.ofNat 64 (trapPc c cause)
        etb := BitVec.ofNat 64 c.now
        einfo := BitVec.ofNat 64 einfo
        nic := some n
        handler := true
        hloops := []
        savedGuard := if cause = 0x01 then none else c.guard.map (fun g => (c.pc % 65536, g))
        guard := none
        pc := (c.tvec.toNat) % 65536
        frozen := some ⟨c.now, if cause = 0x0B then 5 else 1, true, false⟩ })

/-- The phase in which the current context issues: its PHASENO and the PHASEs that it has issued since (R17, R120, R121). -/
def phaseNow (s : State) : Nat :=
  let n := s.cur.phaseno.toNat
  n + (s.curDom.reports.filter (fun r => r.1 == s.curCore && decide (r.2.1 > n))).length

/-- A trap that cancels the phase instead of running the handler (R373, R392): SEGSIG and POISON in a phase p ≥ 1, the first
time in the phase's present run. -/
def cancels (s : State) (cause : Nat) : Bool :=
  (cause == 0x07 || cause == 0x15) && phaseNow s != 0
    && !s.curDom.cancelled.any (fun p => p.1 == cause && p.2 == phaseNow s)

/-- A stop of the current core on its cycle: a trap, the start of a cancel, or a held freeze. -/
def takeStop (s0 : State) (st : Stop) : State :=
  match st with
  | .trap cause einfo0 =>
    let det := if cause = 0x15 then detectError s0 einfo0 else (einfo0, s0)
    let einfo := det.1
    let s := det.2
    if !s.cur.handler && cancels s cause then
      -- R392: the agent freezes without entering a handler
      let d := s.curDom
      (s.modCur (fun c => { c with
        cause := BitVec.ofNat 64 cause, epc := BitVec.ofNat 64 (c.pc % 65536), etb := BitVec.ofNat 64 c.now,
        einfo := BitVec.ofNat 64 einfo, frozen := some ⟨c.now, 1, true, true⟩ })).setCurDom
        { d with cancel := some (match d.cancel with | some (t, k) => if t ≤ s.cur.now then (t, k) else (s.cur.now, cause)
                                                     | none => (s.cur.now, cause)) }
    else if !s.cur.handler && cause == 0x15 then
      -- R373, R392: POISON in phase 0 or a second time in a replay is a poison escalation
      let s1 := s.modCur (fun c => { c with
        cause := BitVec.ofNat 64 cause, epc := BitVec.ofNat 64 (c.pc % 65536), etb := BitVec.ofNat 64 c.now,
        einfo := BitVec.ofNat 64 einfo, frozen := some ⟨c.now, 1, true, false⟩ })
      sysEventOn s1 s.curPart 5
    else takeTrap s cause einfo
  | .fault seqNo =>
    let s := s0
    match s.cur.aus.find? (fun r => r.seqNo == seqNo) with
    | none => s
    | some r =>
      let opn := match r.op with
        | .load => 0 | .fill => 1 | .store => 2 | .atomic => 3 | .migr => 4 | .touch => 5 | .rstq => 6
      let s1 := takeTrap s r.cause (r.va % 2 ^ 57 + opn * 2 ^ 57 + r.why * 2 ^ 60)
      s1.modCur (fun c => { c with
        faultpc := BitVec.ofNat 64 (r.pc + r.seqNo % 2 ^ 32 * 2 ^ 16)
        raceag := if r.cause = 0x0E then BitVec.ofNat 64 (r.rag % 2 ^ 48) else c.raceag
        aus := c.aus.map (fun x =>
          if x.seqNo == seqNo && (x.op == .store || x.op == .rstq || x.op == .migr || x.op == .touch)
          then { x with place := .delivered } else x) })
  | .hold kind late =>
    let s := s0
    if bitB s.cur.mode.toNat 0 then takeTrap s 0x10 late
    else s.modCur (fun c => { c with frozen := some ⟨c.now, kind, false, false⟩ })

/-- A context can take a trap that an untimed unit delivers: its slot runs, no handler runs, and it has no trap of its own to take or to be
cancelled for (R357, R361). -/
def canTake (s : State) (core slot : Nat) : Bool :=
  let c := s.ctxOf core slot
  (s.core core).slotRun == some slot && !c.handler && (match c.frozen with | some f => !f.trap | none => true)

/-- A delivered trap noted with its cycle, for a replay of the phase or until the context can take it (R339). -/
def noteStamped (s : State) (core : Nat) (x : Stamped) : State :=
  s.setCore core { s.core core with stamped := (s.core core).stamped ++ [x] }

/-- A context takes a delivered trap on its present cycle, or at its frozen cycle in the place of its held cause (R361). -/
def takeStamped (s : State) (core cause einfo : Nat) : State :=
  let s1 := { s with curCore := core }
  let s2 := s1.modCur (fun c => match c.frozen with | some f => { c with now := f.cycle } | none => c)
  { takeStop s2 (.trap cause einfo) with curCore := s.curCore }

/-- A trap that an untimed unit delivers to a context: taken at once, or on the first cycle on which it can be (log 72). A word's poison is not
stamped for a replay, in which the engine does not read it again. -/
def deliverTrap (s : State) (core slot cause einfo : Nat) : State :=
  let c := s.ctxOf core slot
  let x : Stamped := ⟨slot, (match c.frozen with | some f => f.cycle | none => c.now), cause, einfo, canTake s core slot⟩
  if x.taken then takeStamped (if cause = 0x15 then s else noteStamped s core x) core cause einfo
  else if (s.dom (s.partOfDie (core / 32)) slot).task.isSome then noteStamped s core x
  else s

/-- The first delivered trap that the current context has still to take on its present cycle. -/
def stampedDue (s : State) : Option Stamped :=
  (s.core s.curCore).stamped.find? (fun x => x.slot == s.slotOf s.curCore && !x.taken && decide (x.cycle ≤ s.cur.now))

/-- The return from handler mode (R376): the cause clears, and the word at EPC issues on NIC once the domain resumes. -/
def leaveHandler (s : State) : State :=
  s.modCur (fun c =>
    { c with handler := false, pc := c.epc.toNat % 65536, hloops := [], savedGuard := none,
             guard := match c.savedGuard with
               | some (a, g) => if a = c.epc.toNat % 65536 then some g else none
               | none => none
             frozen := c.frozen.map (fun f => { f with clear := true }) })

end Sys2Proof.Machine
end

