-- ==== Sys2Proof/Machine/Flags.lean ====
section
/-! DEFINITION. The sticky flags and counters that instructions raise: VFLAGS and T3CNT (R136, R176–R178), SATCNT, NANCNT and QTSCALE
(R200, R202). -/

namespace Sys2Proof.Machine

/-- A count that saturates at `2^w − 1` (R177, R202). -/
def satAdd (w x n : Nat) : Nat := min (x + n) (2 ^ w - 1)

/-- VFLAGS with flags ORed in (R136). -/
def orFlags (c : Ctx) (fl : Nat) : Ctx := { c with vflags := c.vflags ||| BitVec.ofNat 64 (fl % 64) }

/-- T3CNT with illegal codes counted (R149, R177). -/
def addT3 (c : Ctx) (n : Nat) : Ctx := { c with t3cnt := BitVec.ofNat 64 (satAdd 32 c.t3cnt.toNat n) }

/-- SATCNT and NANCNT with a QUANT's counts added (R200). -/
def addQuantCounts (c : Ctx) (sat nan : Nat) : Ctx :=
  { c with satcnt := BitVec.ofNat 64 (satAdd 32 c.satcnt.toNat sat), nancnt := BitVec.ofNat 64 (satAdd 32 c.nancnt.toNat nan) }

/-- The rounding mode that FRM names (R107): codes 0–3, any other is RNE. -/
def frmCode (frm : Word) : Nat := let m := frm.toNat % 8; if m < 4 then m else 0

/-- The rounding mode of the scalar FP32 group for the agent that executes: of a context's FRM, or of a system core's own (R107; log 71). -/
def frmMode (s : State) : Nat := frmCode (if s.onSys then s.sys.frm else s.cur.frm)

/-- The rounding mode `rm` of the vector unit (R137). -/
def vrmMode (c : Ctx) : Nat := let m := c.vrm.toNat % 8; if m < 4 then m else 0

/-- The rounding mode of VCVT (R137, R146): codes 0–4, any other is RNE. -/
def vrmCvt (c : Ctx) : Nat := let m := c.vrm.toNat % 8; if m < 5 then m else 0

/-- VRM.SAT (R175). -/
def vrmSat (c : Ctx) : Bool := bitB c.vrm.toNat 3

end Sys2Proof.Machine
end

