-- ==== Sys2Proof/Machine/Operands.lean ====
section
/-! DEFINITION. Every operand form: queue registers, handler registers and system registers as sources and destinations (R46–R51,
R97–R100, R403), vector queues (R52, R133, R134), stream taps (R55, R63), layout entries (R58–R62), bank accesses (R57,
R287), footprints and windows (R70, R378, R394), poison (R398, R399), and the issue of an instruction (R27, R30, R50,
R112–R114). -/

namespace Sys2Proof.Machine

/-! ## Queues -/

/-- The entries of queue register `q`; q0 has none of its own (R49). -/
def qEntries (c : Ctx) (q : Nat) : List QEntry := c.q.getD q []

def setQ (c : Ctx) (q : Nat) (es : List QEntry) : Ctx :=
  { c with q := if es.isEmpty then c.q.erase q else c.q.set q es }

/-- EINFO of a consumed poisoned item (R399): tag, reader kind, and the queue, granule or tile. -/
def poisonInfo (tag kind place : Nat) : Nat := tag % 2 ^ 12 + kind * 2 ^ 12 + place * 2 ^ 16

/-- The place of a vector queue wn: 32 + n in EINFO (R399), and above it a bit that tells its storage from that of q(32 + n) (R400). -/
def vqPlace (n : Nat) : Nat := 2 ^ 21 + 32 + n

/-- The head of a queue by keep-read (R46, R50, R312, R399). An entry that has faulted holds like a pending one as long as the access unit is
halted (R311). -/
def headQ (c : Ctx) (q : Nat) (kind : Nat) : Res Word :=
  if q = 0 then .ok 0
  else
    match qEntries c q with
    | [] => .error (.trap 0x03 q)
    | .pending _ :: _ => .error (.hold 2 0x02)
    | .faulted n :: _ => .error (if c.auHalt.isSome then .hold 2 0x02 else .fault n)
    | .val v p :: _ =>
      match p with
      | some t => .error (.trap 0x15 (poisonInfo t kind q))
      | none => .ok v

/-- Which of the stops that the operands of one word meet comes first: QUNF and LANE, a faulted entry, a pending one, the others (R48,
R312; log 9). -/
def Stop.rank : Stop → Nat
  | .trap cause _ => if cause = 0x03 || cause = 0x04 then 0 else 3
  | .fault _ => 1
  | .hold _ _ => 2

/-- POISON holds the lowest tag of what is consumed on the cycle (R399). -/
def mergeTags (a b : Stop) : Stop :=
  match a, b with
  | .trap 0x15 x, .trap 0x15 y => .trap 0x15 (putBits x 11 0 (min (bits x 11 0) (bits y 11 0)))
  | a, _ => a

/-- The stop of two operands, `a` the earlier one: of several faulted entries the lowest sequence number (R312). -/
def joinStop (a b : Stop) : Stop :=
  if b.rank < a.rank then b
  else match a, b with
    | .fault m, .fault n => .fault (min m n)
    | a, b => mergeTags a b

/-- What all the operands of one word give, or the stop that they meet. -/
def gather {α : Type} : List (Res α) → Res (List α)
  | [] => .ok []
  | r :: rs =>
    match r, gather rs with
    | .ok x, .ok xs => .ok (x :: xs)
    | .ok _, .error b => .error b
    | .error a, .ok _ => .error a
    | .error a, .error b => .error (joinStop a b)

/-- Two events of one instruction on a cycle, `x` the earlier one: its stop, with the lowest tag consumed (R89, R399). -/
def lowestTag {α β : Type} (x : Res α) (y : Res β) : Res α :=
  match x, y with
  | .error a, .error b => .error (mergeTags a b)
  | x, _ => x

/-- The heads of several queues: QUNF for the first empty one, before a pending head freezes (R48). -/
def headsQ (c : Ctx) (qs : List Nat) : Res (List Word) := gather (qs.map (fun q => headQ c q 0))

/-- A queue without its head; q0 unchanged (R46). -/
def dropHead (c : Ctx) (q : Nat) : Ctx := if q = 0 then c else setQ c q (qEntries c q).tail

/-- Queues without their heads, each popped once though it is named twice (R77). -/
def dropHeads (c : Ctx) (qs : List Nat) : Ctx := qs.dedup.foldl dropHead c

/-- An entry appended; QOVF where four are held, q0 discards (R46). `late` and `addr` fill EINFO (R99). -/
def appendQ (c : Ctx) (q : Nat) (e : QEntry) (late : Bool) (addr : Nat) : Res Ctx :=
  if q = 0 then .ok c
  else if (qEntries c q).length ≥ 4 then .error (.trap 0x02 (q + b2n late * 2 ^ 6 + addr * 2 ^ 32))
  else .ok (setQ c q (qEntries c q ++ [e]))

/-- One value pushed into each of several queues, all or none (R48). -/
def pushQs (c : Ctx) (first : Nat) (vs : List Word) (poison : Option Nat) (late : Bool) (addr : Nat) : Res Ctx :=
  (vs.zipIdx).foldlM (fun c (v, k) => appendQ c (first + k) (.val v poison) late addr) c

/-! ## Register fields of every kind of agent -/

/-- A plain register of a system core, g0 reading 0 (R403). -/
def readG (s : State) (r : Nat) : Word := if r = 0 then 0 else s.sys.g.getD r 0
def writeG (s : State) (r : Nat) (v : Word) : State :=
  if r = 0 then s else s.setSys { s.sys with g := s.sys.g.set r v }

/-- A handler register, h0 reading 0 (R51). -/
def readH (c : Ctx) (r : Nat) : Word := if r = 0 then 0 else c.h.getD r 0
def writeH (c : Ctx) (r : Nat) (v : Word) : Ctx := if r = 0 then c else { c with h := c.h.set r v }

/-- The current agent runs handler code (R100). -/
def inHandler (s : State) : Bool := !s.onSys && s.cur.handler

/-- A source field with its keep bit. -/
abbrev Src := Nat × Bool

/-- The values of source fields, nothing popped yet (R97, R100, R403). In handler mode a field of 16–63 takes ILLEGAL class 0x05
(R51). -/
def srcVals (s : State) (fs : List Src) : Res (List Word) :=
  if s.onSys then .ok (fs.map (fun f => readG s f.1))
  else if s.cur.handler then
    if fs.any (fun f => f.1 ≥ 16) then .error (illegal 0x05) else .ok (fs.map (fun f => readH s.cur f.1))
  else headsQ s.cur (fs.map (·.1))

/-- An ILLEGAL that one readable operand shows ranks before a trap of the other (R89). -/
def peekCheck (s : State) (f : Src) (chk : Word → Res Unit) : Res Unit :=
  match srcVals s [f] with
  | .ok [x] => chk x
  | _ => .ok ()

/-- An operand that EINFO shows of an ILLEGAL: one that cannot be read has no value that the spec states (R204, R326), and a free one stands
for it (log 62). -/
def seenOr (s : State) (f : Src) : Word :=
  match srcVals s [f] with
  | .ok [x] => x
  | _ => Config.freeWord s.free

/-- The sources popped, those with a keep bit kept (R77, R97, R100). -/
def popSrcs (s : State) (fs : List Src) : State :=
  if s.onSys || s.cur.handler || fs.all (·.2) then s
  else s.modCur (fun c => dropHeads c ((fs.filter (fun f => !f.2)).map (·.1)))

/-- In handler mode a destination field of 16–63 takes ILLEGAL class 0x05 (R51). -/
def dstOk (s : State) (d : Nat) : Res Unit :=
  if inHandler s && decide (d ≥ 16) then .error (illegal 0x05) else .ok ()

/-- The address of the word that issues. -/
def pcOf (s : State) : Nat := if s.onSys then s.sys.pc else s.cur.pc

/-- Flags ORed into a system core's own VFLAGS (R108). -/
def orSys (s : State) (fl : Nat) : State := if fl = 0 then s else s.setSys { s.sys with vflags := s.sys.vflags ||| BitVec.ofNat 64 (fl % 64) }

/-- A result of an instruction that issues now with perform offset `f` (R33, R97, R99): written at once by a system core and in
handler mode (R100), else pushed on t + f − 1, its flags ORed in on that cycle. -/
def result (s : State) (f d : Nat) (v : Word) (flags : Nat := 0) : State :=
  if s.onSys then orSys (writeG s d v) flags
  else if s.cur.handler then s.modCur (fun c => orFlags (writeH c d v) flags)
  else s.modCur (fun c => { c with flight := c.flight ++
    [{ issue := c.now, addr := c.pc, perf := c.now + f - 1, act := .pushQ d [v], flags := flags, t3 := 0, poison := none,
       late := decide (f > 1) }] })

/-- A wide result, one value to each queue from `d` on (R48, R105). -/
def resultWide (s : State) (f d : Nat) (vs : List Word) : State :=
  s.modCur (fun c => { c with flight := c.flight ++
    [{ issue := c.now, addr := c.pc, perf := c.now + f - 1, act := .pushQ d vs, flags := 0, t3 := 0, poison := none,
       late := decide (f > 1) }] })

/-! ## Issue of an instruction -/

/-- The loop stack in force (R112, R374). -/
def loopsOf (s : State) : List LoopRec :=
  if s.onSys then s.sys.loops else if s.cur.handler then s.cur.hloops else s.cur.loops
def setLoops (s : State) (ls : List LoopRec) : State :=
  if s.onSys then s.setSys { s.sys with loops := ls }
  else s.modCur (fun c => if c.handler then { c with hloops := ls } else { c with loops := ls })

/-- The body of a loop holds an address. -/
def LoopRec.holds (l : LoopRec) (a : Nat) : Bool :=
  decide ((a + 65536 - l.first) % 65536 ≤ (l.last + 65536 - l.first) % 65536)

/-- The checks of R114 on an instruction of `n` words at the pc; `ends` says that it may not end a body. -/
def loopCheck (s : State) (n : Nat) (ends : Bool) : Res Unit :=
  match loopsOf s with
  | [] => .ok ()
  | l :: _ =>
    let p := pcOf s
    if ends && (p + n - 1) % 65536 == l.last then .error (illegal (0x0A + 2 * 2 ^ 8 + l.last * 2 ^ 16))
    else if (List.range (n - 1)).any (fun k => (p + k) % 65536 == l.last) then
      .error (illegal (0x0A + 3 * 2 ^ 8 + l.last * 2 ^ 16))
    else .ok ()

/-- The pc moved to an address, the next word due from `cycles` later on (R27), the guard used up. -/
def goto (s : State) (target cycles : Nat) : State :=
  if s.onSys then s.setSys { s.sys with pc := target % 65536, guard := none }
  else s.modCur (fun c =>
    if c.handler then { c with pc := target % 65536, guard := none }
    else { c with pc := target % 65536, base := c.now + cycles, nic := none, guard := none })

/-- The instruction of `n` words that occupies `cycles` is done: the next word in sequence, or the end of a trip of the innermost
loop (R27, R112). -/
def advance (s : State) (n cycles : Nat) : State :=
  let p := pcOf s
  match loopsOf s with
  | l :: ls =>
    if (p + n - 1) % 65536 = l.last then
      if l.left > 1 then goto (setLoops s ({ l with left := l.left - 1 } :: ls)) l.first cycles
      else goto (setLoops s ls) (l.last + 1) cycles
    else goto s (p + n) cycles
  | [] => goto s (p + n) cycles

/-- A taken transfer to a target: the innermost loop is left where the transfer goes from its body to outside it (R113). -/
def transfer (s : State) (target : Nat) (keepsLoop : Bool) : State :=
  let p := pcOf s
  match loopsOf s with
  | l :: ls =>
    if !keepsLoop && l.holds p && !l.holds (target % 65536) then goto (setLoops s ls) target 1 else goto s target 1
  | [] => goto s target 1

/-- The running signature with the word that issues; the second of two words enters it a cycle later, as it issues (R27, R30, R117). -/
def signWords (s : State) (n : Nat) : State :=
  if s.cur.seg.active && !s.cur.seg.opn && !s.cur.handler then
    let word (k : Nat) : Nat := s.fetchWord s.curCore (s.slotOf s.curCore) (s.cur.pc + k)
    s.modCur (fun c => { c with seg := { c.seg with sig := crcWord c.seg.sig (word 0) },
                                sigNext := if n = 2 then some (word 1) else none })
  else s

/-- A trap of a system core: the spec gives it no registers of its own; recorded, and taken to SVEC with SEPC (log 11). -/
def sysTrap (s : State) (cause einfo : Nat) : State :=
  let x := s.sys
  s.setSys { x with cause := BitVec.ofNat 64 cause, einfo := BitVec.ofNat 64 einfo, sepc := x.pc, pc := x.svec,
                    inEvent := true, guard := none, req := none, ans := none, nonce := none }

/-- How a body leaves the sequencer: in sequence over a number of cycles, by a transfer, or already settled. -/
inductive Flow where
  | seq (cycles : Nat)
  | jump (target : Nat) (keepsLoop : Bool)
  | settled
  deriving DecidableEq, Repr

/-- The rules of R114 and R86 for one instruction: its words, whether it may not end a loop body, whether it may run in handler
mode (R100), its cycles under a false guard, whether its words enter the signature, its busy check (class 0x02) and its other
checks, of which an ILLEGAL of a lower class than 0x0A comes before that of R114 (R88). -/
structure IssueRule where
  words : Nat := 1
  endsBody : Bool := false
  handlerOk : Bool := true
  falseCycles : Nat := 1
  signs : Bool := true
  first : State → Res Unit := fun _ => .ok ()
  pre : State → Res Unit := fun _ => .ok ()

/-- The guard that stands before the word that issues (R50). -/
def guardOf (s : State) : Option Bool := if s.onSys then s.sys.guard else s.cur.guard

/-- The sequencer after a body. -/
def flowOn (s : State) (n : Nat) : Flow → State
  | .seq cycles => advance s n cycles
  | .jump target keeps => transfer s target keeps
  | .settled => s

/-- Of two ILLEGALs of one word the one of the lower class (R88). -/
def lowerClass {α : Type} (checks : Res Unit) (body : Res α) : Res α :=
  match checks, body with
  | .error (.trap 0x01 a), .error (.trap 0x01 b) => .error (.trap 0x01 (if b % 256 < a % 256 then b else a))
  | .error st, _ => .error st
  | .ok _, r => r

/-- Issue of an instruction: a false guard leaves nothing but its cycles (R50, R110); else the checks, then the body, whose stop
is taken (R37) and whose success moves the sequencer on; the words that issue enter the signature (R30). -/
def issue (s : State) (r : IssueRule) (body : State → Res (State × Flow)) : Host.Outcome State Fault Refusal :=
  if guardOf s = some false then
    .next (advance (if s.onSys then s else signWords s r.words) r.words r.falseCycles)
  else
    let checks : Res Unit :=
      do
        r.first s
        if !r.handlerOk && inHandler s then throw (illegal 0x03)
        lowerClass (r.pre s) (loopCheck s r.words r.endsBody)
    let go := lowerClass checks (body (if s.onSys || !r.signs then s else signWords s r.words))
    match go with
    | .ok (t, fl) => .next (flowOn t r.words fl)
    | .error st =>
      if s.onSys then
        match st with
        | .trap cause einfo => .next (sysTrap s cause einfo)
        | .fault _ => .next s
        | .hold _ _ => .next s
      else .next (takeStop s st)

/-- A one-word instruction that runs on in sequence. -/
def issue1 (s : State) (handlerOk : Bool) (body : State → Res State) : Host.Outcome State Fault Refusal :=
  issue s { handlerOk := handlerOk } (fun s => do let t ← body s; return (t, .seq 1))

/-- Two sources and one result of perform offset `f` (R97). -/
def op2 (s : State) (d a b : Nat) (ka kb : Bool) (f : Nat) (op : Word → Word → Word × Nat) :
    Host.Outcome State Fault Refusal :=
  issue1 s true (fun s => do
    dstOk s d
    match ← srcVals s [(a, ka), (b, kb)] with
    | [x, y] => let r := op x y; return result (popSrcs s [(a, ka), (b, kb)]) f d r.1 r.2
    | _ => return s)

/-- One source and one result of perform offset `f` (R97). -/
def op1 (s : State) (d a : Nat) (ka : Bool) (f : Nat) (op : Word → Word × Nat) : Host.Outcome State Fault Refusal :=
  issue1 s true (fun s => do
    dstOk s d
    match ← srcVals s [(a, ka)] with
    | [x] => let r := op x; return result (popSrcs s [(a, ka)]) f d r.1 r.2
    | _ => return s)

/-! ## Layout entries -/

/-- Word `w` of layout entry `n` of the table (R58, R129). -/
def layoutWord (c : Ctx) (n w : Nat) : Word := c.layout.getD (n * 8 + w) 0

/-- Number of word `n` of a table of a core: layout entries (0), footprints (1), time slots (2). -/
def tabPlace (tab n : Nat) : Nat := (tab + 1) * 2 ^ 12 + n

/-- A table word whose parity fails is consumed at once by the instruction that reads it: POISON of class 6, the lowest word first (R397; log 48). -/
def parityOk (c : Ctx) (ps : List Nat) : Res Unit :=
  match (ps.filter c.badTab.contains).min? with
  | some p => .error (.trap 0x15 (poisonInfo (6 * 2 ^ 9) 0 p))
  | none => .ok ()

/-- A word written has its parity again. -/
def tabFresh (c : Ctx) (p : Nat) : Ctx := { c with badTab := c.badTab.filter (· != p) }

/-- The layout entry as the table holds it (R58). -/
def layoutEntry (c : Ctx) (n : Nat) : Layout :=
  ⟨layoutWord c n 0, layoutWord c n 1, layoutWord c n 2, layoutWord c n 3, layoutWord c n 4, layoutWord c n 5⟩

namespace Layout
def base (l : Layout) : Nat := bits l.w0.toNat 22 0
def space (l : Layout) : Nat := bits l.w0.toNat 24 23
def fmt (l : Layout) : Nat := bits l.w0.toNat 29 25
def perm (l : Layout) : Nat := bits l.w0.toNat 33 30
def blk (l : Layout) : Nat := if bitB l.w0.toNat 34 then 32 else 128
def mxax (l : Layout) : Nat := bits l.w0.toNat 36 35
def tid (l : Layout) : Nat := bits l.w0.toNat 63 48
def tag (l : Layout) : Nat := bits l.w1.toNat 15 0
def rid (l : Layout) : Nat := bits l.w1.toNat 27 16
def sbase (l : Layout) : Nat := bits l.w1.toNat 50 28
def sstr (l : Layout) : Nat := bits l.w1.toNat 63 51
def dimWord (l : Layout) : Nat → Word
  | 0 => l.w2 | 1 => l.w3 | 2 => l.w4 | _ => l.w5
/-- Extent of a dimension (R58). -/
def ext (l : Layout) (k : Nat) : Nat := bits (l.dimWord k).toNat 15 0 + 1
/-- Stride of a dimension, in elements (R58). -/
def stride (l : Layout) (k : Nat) : Int := toSigned 24 (bits (l.dimWord k).toNat 39 16)
/-- Elements of the entry (R59). -/
def count (l : Layout) : Nat := l.ext 0 * l.ext 1 * l.ext 2 * l.ext 3
/-- Elements of a lane word (R62). -/
def perWord (l : Layout) : Nat := elemsPerWord (fmtWidth l.fmt)
/-- Coordinates of a linear index (R59). -/
def coords (l : Layout) (n : Nat) : Nat × Nat × Nat × Nat :=
  (n % l.ext 0, n / l.ext 0 % l.ext 1, n / (l.ext 0 * l.ext 1) % l.ext 2, n / (l.ext 0 * l.ext 1 * l.ext 2) % l.ext 3)
/-- Linear index of coordinates (R59). -/
def index (l : Layout) (c0 c1 c2 c3 : Nat) : Nat := c0 + l.ext 0 * (c1 + l.ext 1 * (c2 + l.ext 2 * c3))
/-- Bit address of an element in its space (R59), as an integer. -/
def bitAddr (l : Layout) (n : Nat) : Int :=
  let (c0, c1, c2, c3) := l.coords n
  8 * (l.base : Int) + (fmtWidth l.fmt : Int) *
    ((c0 : Int) * l.stride 0 + (c1 : Int) * l.stride 1 + (c2 : Int) * l.stride 2 + (c3 : Int) * l.stride 3)
/-- Number of the block an element lies in (R59). -/
def block (l : Layout) (n : Nat) : Nat :=
  let (c0, c1, c2, c3) := l.coords n
  let b := l.blk
  let d (k c : Nat) : Nat := if l.mxax = k then c / b else c
  let e (k : Nat) : Nat := if l.mxax = k then l.ext k / b else l.ext k
  d 0 c0 + e 0 * (d 1 c1 + e 1 * (d 2 c2 + e 2 * d 3 c3))
/-- Byte address of the scale entry of a block (R59). -/
def scaleAddr (l : Layout) (m : Nat) : Nat := l.sbase + l.sstr * m
/-- An MX or W4G entry has scale entries. -/
def scaled (l : Layout) : Bool := isMx l.fmt || l.fmt == 0x16
/-- Bytes of a scale entry (R162, R164). -/
def scaleBytes (l : Layout) : Nat := if l.fmt = 0x16 then 4 else 1
/-- Size of the entry's space in bytes. -/
def spaceSize (l : Layout) : Nat := if l.space = 0 then 2 ^ 23 else 2 ^ 21
end Layout

/-- Smallest and largest element offset of an entry, in elements, from the corners of its extents. -/
def layoutSpan (l : Layout) : Int × Int :=
  let f (k : Nat) : Int := ((l.ext k - 1 : Nat) : Int) * l.stride k
  ([0, 1, 2, 3].foldl (fun a k => a + min 0 (f k)) 0, [0, 1, 2, 3].foldl (fun a k => a + max 0 (f k)) 0)

/-- The checks of R60 on an entry, but for the start coordinates and the count. -/
def layoutOk (l : Layout) : Bool :=
  let w := fmtWidth l.fmt
  let sp := layoutSpan l
  let lo : Int := 8 * (l.base : Int) + (w : Int) * sp.1
  let hi : Int := 8 * (l.base : Int) + (w : Int) * sp.2 + (w : Int)
  let blocks := l.count / l.blk
  decide (l.space < 2) && decide (l.fmt < 0x17) && decide (l.perm < 5)
    && bits l.w0.toNat 47 37 == 0
    && [l.w2, l.w3, l.w4, l.w5].all (fun x => bits x.toNat 63 40 == 0)
    && (l.space == 0 || ((l.fmt == 0x00 || l.fmt == 0x0A) && l.perm == 0 && l.tag == 0))
    && (if l.scaled then
          l.ext l.mxax % l.blk == 0 && decide (1 ≤ l.sstr)
            && (l.fmt != 0x16 || (decide (4 ≤ l.sstr) && l.sbase % 2 == 0))
            && decide (l.scaleAddr (blocks - 1) + l.scaleBytes ≤ 2 ^ 23)
        else l.sbase == 0 && l.sstr == 0 && !bitB l.w0.toNat 34 && l.mxax == 0)
    && decide (0 ≤ lo) && decide (hi ≤ 8 * (l.spaceSize : Int))

/-! ## Banks -/

/-- Bank of the scratchpad word that holds byte `a` under a permutation code (R56). -/
def bankOf (perm a : Nat) : Nat :=
  let w := bits a 20 7
  let lo := bits w 3 0
  match perm with
  | 1 => lo ^^^ bits w 7 4
  | 2 => lo ^^^ bits w 11 8
  | 3 => (lo + bits w 7 4) % 16
  | 4 => lo ^^^ bits w 7 4 ^^^ bits w 11 8
  | _ => lo

/-- The scratchpad byte that byte `a` names under a permutation code: the row is the word's, the bank the code's (R56). -/
def permAddr (perm a : Nat) : Nat := a - bits a 10 7 * 128 + bankOf perm a * 128

/-- `n` bytes of a core's scratchpad from byte `a` on, under a permutation code (R56). -/
def permRead (s : State) (core perm a n : Nat) : List Byte :=
  if a % 128 + n ≤ 128 then s.readSp core (permAddr perm a) n
  else (List.range n).flatMap (fun i => s.readSp core (permAddr perm (a + i)) 1)

/-- Bytes written to a core's scratchpad from byte `a` on, under a permutation code (R56). -/
def permWrite (s : State) (core perm a : Nat) (bs : List Byte) : State :=
  if a % 128 + bs.length ≤ 128 then s.writeSp core (permAddr perm a) bs
  else (bs.zipIdx).foldl (fun s b => s.writeSp core (permAddr perm (a + b.2)) [b.1]) s

/-- Number of a scratchpad bank, block · 16 + bank. -/
def spBank (perm a : Nat) : Nat := bits a 22 21 * 16 + bankOf perm a
/-- Number of an accumulator bank (R53), after those of the scratchpad. -/
def accBank (a : Nat) : Nat := 64 + bits a 10 7

/-- The atomic whose reserved cycles hold a bank on a cycle (R287), other than the one issued on `self`. -/
def bankHolder (c : Ctx) (b t : Nat) (self : Option Nat) : Option Atomic :=
  c.atomics.find? (fun x => some x.issue != self && decide (x.issue + 1 ≤ t ∧ t ≤ x.issue + 3)
    && spBank x.perm x.a == b)

/-- EINFO of a bank collision (R57). -/
def bankInfo (b : Nat) : Nat :=
  if b < 64 then 0x02 + (b / 16) * 2 ^ 8 + (b % 16) * 2 ^ 12 else 0x02 + 3 * 2 ^ 8 + 2 ^ 10 + (b % 16) * 2 ^ 12

/-- The current core touches banks on its present cycle, each once: AMOSLOT 0x01 at a reserved bank (R287), 0x02 at a bank touched
already (R57). Of several such banks EINFO names the first in the order of the access's elements (DESIGN CHOICE, log 77). -/
def useBanks (s : State) (bs : List Nat) (self : Option Nat := none) : Res State := do
  let t := s.cur.now
  let k := s.core s.curCore
  let used := if k.bankCycle = t then k.banks else []
  match bs.find? (fun b => (bankHolder s.cur b t self).isSome) with
  | some b =>
    let pcA := ((bankHolder s.cur b t self).map (·.addr)).getD 0
    .error (.trap 0x0F (0x01 + (b / 16 % 4) * 2 ^ 8 + (b % 16) * 2 ^ 12 + pcA * 2 ^ 32))
  | none =>
    match (bs.zipIdx).find? (fun p => used.contains p.1 || (bs.take p.2).contains p.1) with
    | some p => .error (.trap 0x0F (bankInfo p.1))
    | none => .ok (s.setCore s.curCore { k with banks := used ++ bs, bankCycle := t })

/-! ## Footprints and windows -/

/-- Word `w` of footprint entry `n` in the table (R69), and as the latest PHASE found it, which an FPWR of the phase leaves (R69, R120). -/
def footWord (c : Ctx) (n w : Nat) : Nat := (c.foot.getD (n * 4 + w) 0).toNat
def phaseWord (c : Ctx) (n w : Nat) : Nat := (c.footSet.getD (n * 4 + w) 0).toNat

/-- Footprint entry `n` of the phase covers a granule (space 0) or a tile (space 1) for an engine and a direction (R69). -/
def footCovers (c : Ctx) (n eng : Nat) (wr : Bool) (space g : Nat) : Bool :=
  let f0 := phaseWord c n 0
  bits f0 2 0 == eng && bitB f0 3 == wr && bitAt f0 4 == space
    && (if space = 0 then decide (bits f0 26 16 ≤ g ∧ g ≤ bits f0 42 32)
        else if g < 64 then bitB (phaseWord c n 1) g else bitB (phaseWord c n 2) (g - 64))

/-- EINFO of FOOTPRINT (R70); `extra` adds the bits of R378 and R394. -/
def footInfo (eng : Nat) (wr : Bool) (space g extra : Nat) : Nat :=
  eng + b2n wr * 8 + space * 16 + g * 2 ^ 8 + extra

/-- A granule or tile lies in the context's window (R378). -/
def inWindow (c : Ctx) (space g : Nat) : Bool :=
  let w := c.ctxwin.toNat
  if space = 0 then decide (bits w 10 0 ≤ g ∧ g ≤ bits w 26 16) else decide (bits w 38 32 ≤ g ∧ g ≤ bits w 46 40)

/-- The footprint check of granules or tiles (R70, R122, R378): the lowest failing one is reported. -/
def footCheck (c : Ctx) (eng : Nat) (wr : Bool) (space : Nat) (gs : List Nat) : Res Unit :=
  let fails (g : Nat) : Bool := !inWindow c space g || (match c.footSel with
    | none => false
    | some m => !(List.range 64).any (fun n => bitB m.toNat n && footCovers c n eng wr space g))
  match (gs.filter fails).min? with
  | none => .ok ()
  | some g => .error (.trap 0x09 (footInfo eng wr space g (if inWindow c space g then 0 else 2 ^ 19)))

/-! ## Poison marks of rows -/

/-- Key of a 128-byte row in the poison table: scratchpad rows first, then accumulator rows (R398). -/
def rowKey (space a : Nat) : Nat := space * 2 ^ 20 + a / 128

/-- Key of row `r` of a space as a permutation code names it (R56). -/
def permKey (space perm r : Nat) : Nat := rowKey space (if space = 0 then permAddr perm (r * 128) else r * 128)

/-- The lowest tag among rows (R399). -/
def rowPoison (k : CoreSt) (keys : List Nat) : Option Nat := (keys.filterMap (fun r => k.poison.find r)).min?

/-- Two marks merged: the lower tag (R398). -/
def mergePoison (a b : Option Nat) : Option Nat :=
  match a, b with
  | none, b => b
  | a, none => a
  | some x, some y => some (min x y)

/-! ## Vector queues -/

def wEntries (c : Ctx) (n : Nat) : List WEntry := c.w.getD n []
def setW (c : Ctx) (n : Nat) (es : List WEntry) : Ctx := { c with w := if es.isEmpty then c.w.erase n else c.w.set n es }

/-- A word pushed into a vector queue, which holds two (R52, R134). -/
def pushW (c : Ctx) (n : Nat) (v : LaneWord) (poison : Option Nat) (addr : Nat) : Res Ctx :=
  if (wEntries c n).length ≥ 2 then .error (.trap 0x02 (32 + n + 2 ^ 6 + addr * 2 ^ 32))
  else .ok (setW c n (wEntries c n ++ [⟨v, poison⟩]))

/-! ## The ring -/

/-- Station at which a word driven at station `x` on cycle `c` stands on cycle `t` (R55). -/
def slotStation (l : LaneSlot) (t : Nat) : Nat := if l.dir then (l.station + 8 * 8 - (t - l.cycle)) % 8 else (l.station + (t - l.cycle)) % 8

/-- The word on a lane at a station on a cycle (R55). -/
def laneAt (c : Ctx) (lane : Nat) (dir : Bool) (st t : Nat) : Option LaneSlot :=
  c.lanes.find? (fun l => l.lane == lane && l.dir == dir && decide (l.cycle ≤ t ∧ t < l.cycle + 8) && slotStation l t == st)

/-- EINFO of LANE (R55). -/
def laneInfo (code st lane : Nat) (dir : Bool) (strm : Nat) : Nat :=
  code + st * 2 ^ 8 + lane * 2 ^ 11 + b2n dir * 2 ^ 14 + strm * 2 ^ 16

/-- The eight parity bits of a lane word, one for each of its groups of 128 bits: the exclusive or of the group (R54; log 66). -/
def lanePar (v : LaneWord) : Nat :=
  ofFields 1 ((fieldsOf 128 8 v.toNat).map (fun g => [64, 32, 16, 8, 4, 2, 1].foldl (fun x k => x ^^^ (x >>> k)) g % 2))

/-- Drives a word for a stream at a station on the present cycle; LANE 0x01 where the slot holds a word (R55). -/
def drive (c : Ctx) (strm st : Nat) (lane : Nat) (dir : Bool) (v : LaneWord) (scales : List Nat) (poison : Option Nat)
    (index : Nat := 0) (elems : Nat := 256) : Res Ctx :=
  match laneAt c lane dir st c.now with
  | some _ => .error (.trap 0x04 (laneInfo 0x01 st lane dir strm))
  | none =>
    .ok { c with lanes := (c.lanes.filter (fun l => decide (c.now < l.cycle + 8))) ++
      [{ lane := lane, dir := dir, station := st, cycle := c.now, strm := strm, index := index, word := v,
         scales := scales, poison := poison, parity := lanePar v, elems := elems,
         entry := ((c.strms.find strm).map (·.entry)).getD ⟨0, 0, 0, 0, 0, 0⟩ }] }

/-- Granules or tiles that elements `n … n + k − 1` of an entry lie in, and the rows they touch (R53, R57). -/
def elemPlaces (l : Layout) (n k : Nat) : List (Nat × Nat) :=
  ((List.range k).filterMap (fun i =>
    if n + i < l.count then
      let a := (l.bitAddr (n + i)).toNat
      let w := fmtWidth l.fmt
      some [a / 8, (a + w - 1) / 8]
    else none)).flatten.map (fun a => (a, if l.space = 0 then a / 4096 else a / 16384))

/-- The elements of a tap: from the linear index of the word that stands in the slot. -/
def tapIndex (l : LaneSlot) : Nat := l.index

/-- The word on a lane at a station on a cycle, driven on an earlier one (R55). On the cycle of its drive (k = 0) a word cannot be tapped, and the station's slot
counts as one that holds no word (DEDUCED, log 92). -/
def laneBefore (c : Ctx) (lane : Nat) (dir : Bool) (st t : Nat) : Option LaneSlot :=
  c.lanes.find? (fun l => l.lane == lane && l.dir == dir && decide (l.cycle < t ∧ t < l.cycle + 8) && slotStation l t == st)

/-- The slot that a tap of a stream takes at a station on the present cycle, and the granules or tiles of its word (R55, R63, R66), by the
entry of the opening that drove it. `eng` is the tapping engine of the footprint check. A word that names a closed stream has no lane: LANE's EINFO then holds lane 0 and direction
cw (log 67). -/
def tapSlot (s : State) (strm station eng : Nat) : Res (LaneSlot × List Nat) := do
  let c := s.cur
  match c.strms.find strm with
  | none => .error (.trap 0x04 (laneInfo 0x04 station 0 false strm))
  | some st =>
    match laneBefore c st.lane st.dir station c.now with
    | some l =>
      if l.strm = strm then
        let ps := elemPlaces l.entry (tapIndex l) l.entry.perWord
        footCheck c eng false l.entry.space ((ps.map (·.2)).dedup)
        return (l, (ps.map (·.2)).dedup)
      else if st.remaining = 0 then .error (.trap 0x04 (laneInfo 0x04 station st.lane st.dir strm))
      else .error (.trap 0x04 (laneInfo 0x03 station st.lane st.dir strm))
    | none =>
      if st.remaining = 0 then .error (.trap 0x04 (laneInfo 0x04 station st.lane st.dir strm))
      else .error (.trap 0x04 (laneInfo 0x02 station st.lane st.dir strm))

/-- The poison of a tapped word: its mark, or class 3 where its parity bits do not agree with it (R54, R397, R399). -/
def tapPoison (x : LaneSlot × List Nat) : Res LaneSlot :=
  let own := mergePoison x.1.poison (if x.1.parity = lanePar x.1.word then none else some (3 * 2 ^ 9))
  match own with
  | some p => .error (.trap 0x15 (poisonInfo p 1 (x.2.headD 0)))
  | none => .ok x.1

/-- A tap of a stream at a station on the present cycle (R55, R63, R66, R399): the word and its slot; the cursor moves by
`moveCursor`. -/
def tap (s : State) (strm station eng : Nat) : Res LaneSlot := do
  let x ← tapSlot s strm station eng
  tapPoison x

/-- The cursor of a tapped stream at the element after the tapped word (R63). -/
def moveCursor (c : Ctx) (strm : Nat) (l : LaneSlot) : Ctx :=
  match c.strms.find strm with
  | none => c
  | some st => { c with strms := c.strms.set strm { st with cursor := tapIndex l + l.entry.perWord } }

end Sys2Proof.Machine
end

