-- ==== Sys2Proof/Machine/Control.lean ====
section
/-! DEFINITION. Queue operations, branches, guards, calls, loops, idling, segments, SLATH, the timebase, phases, waits, HALT and
SNAP: majors 0x00, 0x10–0x17 and part of 0x3A (R105, R106, R109–R124, R402, R404). -/

namespace Sys2Proof.Machine

/-! ## Queue operations (R105) -/

/-- Queues `q … q + w − 1`. -/
def wide (q w : Nat) : List Nat := (List.range w).map (q + ·)

/-- A width other than 1 takes ILLEGAL in handler mode (R100). -/
def widthOk (wd : Nat) (s : State) : Res Unit := if inHandler s && wd != 0 then .error (illegal 0x03) else .ok ()

/-- Plain registers of a system core written, one value to each from `d` on (R403). -/
def writeGs (s : State) (d : Nat) (vs : List Word) : State := (vs.zipIdx).foldl (fun s v => writeG s (d + v.2) v.1) s

/-- MOV moves w values: on a system core from w plain registers to w others, all read before any is written (R105, R403; DESIGN CHOICE, log 12). -/
def execMov (f : FMov) (s : State) : Host.Outcome State Fault Refusal :=
  issue s { pre := widthOk f.wd.toNat } (fun s => do
    let w := 2 ^ f.wd.toNat
    dstOk s f.d.toNat
    let fs := (wide f.a.toNat w).map (fun q => (q, f.ka))
    let vs ← srcVals s fs
    let t := popSrcs s fs
    return (if s.onSys then writeGs t f.d.toNat vs else if s.cur.handler then result t 1 f.d.toNat (vs.headD 0)
      else resultWide t 1 f.d.toNat vs, .seq 1))

/-- DROP discards the heads of w queues, and is ILLEGAL in handler mode, as QCNT and QCLR are (R100). On a system core, where they are legal (R403) and their
fields name plain registers, DROP and QCLR find no entry to remove and change nothing (DESIGN CHOICE, log 12). -/
def execDrop (f : FAW) (s : State) : Host.Outcome State Fault Refusal :=
  issue s { handlerOk := false } (fun s => do
    let fs := (wide f.a.toNat (2 ^ f.wd.toNat)).map (fun q => (q, false))
    let _ ← srcVals s fs
    return (popSrcs s fs, .seq 1))

/-- The count of a plain register that is no queue is not stated: it is free, that of g0 is 0 (R105, R403; DESIGN CHOICE, log 12). -/
def plainCount (s : State) (q i : Nat) : Word := if q = 0 then 0 else Config.freeWord (s.free + i)

/-- QCNT counts the entries of w queues (R105); on a system core it counts plain registers (R403). -/
def execQcnt (f : FDAW) (s : State) : Host.Outcome State Fault Refusal :=
  issue s { handlerOk := false } (fun s => do
    let w := 2 ^ f.wd.toNat
    if s.onSys then
      return (writeGs { s with free := s.free + w } f.d.toNat ((List.range w).map (fun i => plainCount s (f.a.toNat + i) i)), .seq 1)
    else
      let vs := (wide f.a.toNat w).map (fun q => BitVec.ofNat 64 (if q = 0 then 0 else (qEntries s.cur q).length))
      return (resultWide s 1 f.d.toNat vs, .seq 1))

/-- QCLR removes every entry; a removed pending entry's data is discarded when it lands (R105, R106). -/
def execQclr (f : FAW) (s : State) : Host.Outcome State Fault Refusal :=
  issue s { handlerOk := false } (fun s =>
    .ok (if s.onSys then s else s.modCur (fun c => (wide f.a.toNat (2 ^ f.wd.toNat)).foldl (fun c q => setQ c q []) c), .seq 1))

/-! ## Branches and guards (R109, R110) -/

/-- The bit a guard or a branch tests, by keep-read (R50, R109). -/
def testBit (s : State) (q b : Nat) (neg : Bool) : Res Bool := do
  let v ← if s.onSys then .ok (readG s q)
    else if s.cur.handler then (if q ≥ 16 then .error (illegal 0x05) else .ok (readH s.cur q))
    else headQ s.cur q 4
  return bitB v.toNat b != neg

/-- Target of BRC and BR (R85). -/
def brTarget (s : State) (off : BitVec 10) : Nat := ofInt 16 ((pcOf s : Int) + off.toInt)

/-- BRC is legal in OPEN segments and in handler mode (R32, R109), and on system cores (R403). -/
def brcLegal (s : State) : Res Unit :=
  if s.onSys || s.cur.handler || (s.cur.seg.active && s.cur.seg.opn) then .ok () else .error (illegal 0x03)

def execBrc (f : FBrc) (s : State) : Host.Outcome State Fault Refusal :=
  issue s { endsBody := true, pre := brcLegal } (fun s => do
    let taken ← testBit s f.gq.toNat f.gb.toNat f.gn
    return (s, if taken then .jump (brTarget s f.off) false else .seq 1))

def execBr (f : FBr) (s : State) : Host.Outcome State Fault Refusal :=
  issue s { endsBody := true } (fun s => .ok (s, .jump (brTarget s f.off) false))

/-- A guarded instruction that may not end a loop body (R114): CALL, JR or JRL. -/
def guardedEnds (w : Nat) : Bool := let m := bits w 28 23; m == 0x14 || m == 0x15

/-- The word after the one that issues. -/
def nextWord (s : State) : Nat :=
  if s.onSys then s.fetchSys s.curSys (s.sys.pc + 1) else s.fetchWord s.curCore (s.slotOf s.curCore) (s.cur.pc + 1)

/-- GRD tests its bit, and the next word issues on the next cycle, guarded by the outcome (R50, R86, R110). A guard and its word are
one instruction of two words for the loop rules of R114. -/
def execGrd (f : FGrd) (s : State) : Host.Outcome State Fault Refusal :=
  issue s { pre := fun s => loopCheck s 2 (guardedEnds (nextWord s)) } (fun s => do
    let holds ← testBit s f.gq.toNat f.gb.toNat f.gn
    let t := goto s (pcOf s + 1) 1
    return (if s.onSys then t.setSys { t.sys with guard := some holds }
      else t.modCur (fun c => { c with guard := some holds }), .settled))

/-! ## Calls and loops (R111–R114) -/

/-- The link of CALL and JRL: pushed into q63, written to h15 in handler mode (R374), to g63 on a system core (log 12). -/
def link (s : State) : State :=
  let v : Word := BitVec.ofNat 64 ((pcOf s + 1) % 65536)
  if s.onSys then writeG s 63 v
  else if s.cur.handler then s.modCur (fun c => writeH c 15 v)
  else resultWide s 1 63 [v]

def execCall (f : FCall) (s : State) : Host.Outcome State Fault Refusal :=
  issue s { endsBody := true } (fun s => .ok (link s, .jump f.target.toNat true))

/-- JR and JRL take their target from bits [15:0] of the source (R85, R111). -/
def jumpReg (f : FA) (s : State) (linked : Bool) : Host.Outcome State Fault Refusal :=
  issue s { endsBody := true } (fun s => do
    let vs ← srcVals s [(f.a.toNat, f.ka)]
    let t := popSrcs s [(f.a.toNat, f.ka)]
    return (if linked then link t else t, .jump ((vs.headD 0).toNat % 65536) linked))

def execJr (f : FA) (s : State) := jumpReg f s false
def execJrl (f : FA) (s : State) := jumpReg f s true

/-- LOOP with four loops active takes ILLEGAL class 0x0A, reason 0x01 (R112, R114). -/
def loopRoom (s : State) : Res Unit :=
  if (loopsOf s).length ≥ 4 then .error (illegal (0x0A + 2 ^ 8)) else .ok ()

def execLoop (f : FLoop) (s : State) : Host.Outcome State Fault Refusal :=
  issue s { endsBody := true, pre := loopRoom } (fun s => do
    let vs ← srcVals s [(f.a.toNat, f.ka)]
    let n := (vs.headD 0).toNat
    let t := popSrcs s [(f.a.toNat, f.ka)]
    let p := pcOf s
    if n = 0 then return (goto t (p + 1 + f.body.toNat) 1, .settled)
    else return (goto (setLoops t (⟨(p + 1) % 65536, (p + f.body.toNat) % 65536, n⟩ :: loopsOf t)) (p + 1) 1, .settled))

/-! ## Idling and segments (R115–R117) -/

def execIdle (f : FIdl) (s : State) : Host.Outcome State Fault Refusal :=
  issue s { falseCycles := f.imm.toNat + 1 } (fun s => .ok (s, .seq (f.imm.toNat + 1)))

/-- SEG inside a segment or in handler mode takes ILLEGAL (R32, R116). -/
def segLegal (s : State) : Res Unit :=
  if s.onSys || s.cur.seg.active || s.cur.handler then .error (illegal 0x03) else .ok ()

/-- A timed SEG that is late takes SEGLATE (R28, R116), which ranks before an ILLEGAL of its word (R89). -/
def segOnTime (f : FSeg) (s : State) : Res Unit :=
  let stamp := s.cur.release + f.off.toNat
  if !f.opn && s.cur.now > stamp then .error (.trap 0x08 ((s.cur.now - stamp) % 2 ^ 32)) else .ok ()

/-- SEG waits for its stamp, is late, or opens the segment (R28, R116). -/
def execSeg (f : FSeg) (s : State) : Host.Outcome State Fault Refusal :=
  issue s { words := 4, endsBody := true, pre := fun s => do segLegal s; segOnTime f s, signs := false } (fun s =>
    let c := s.cur
    if !f.opn && c.now < c.release + f.off.toNat then .ok (s, .settled)
    else .ok (s.modCur (fun c => { c with seg := ⟨true, f.opn, c.now, f.cnt.toNat, f.sig.toNat, 0xFFFFFFFF⟩ }), .seq 4))

/-- SEGEND outside a segment or in handler mode takes ILLEGAL (R32, R117). -/
def segendLegal (s : State) : Res Unit :=
  if s.onSys || !s.cur.seg.active || s.cur.handler then .error (illegal 0x03) else .ok ()

/-- The count check of SEGEND (R29, R117), which ranks before an ILLEGAL of its word (R89). -/
def segendOnTime (s : State) : Res Unit :=
  let g := s.cur.seg
  if !g.opn && s.cur.now != g.start + g.cnt then .error (.trap 0x06 ((s.cur.now - g.start) % 2 ^ 32)) else .ok ()

/-- SEGEND checks count and signature and closes the segment (R29–R31, R117). -/
def execSegend (s : State) : Host.Outcome State Fault Refusal :=
  issue s { endsBody := true, pre := fun s => do segendLegal s; segendOnTime s, signs := false } (fun s =>
    let g := s.cur.seg
    if !g.opn && (g.sig ^^^ 0xFFFFFFFF) != g.expSig then
      .error (.trap 0x07 ((g.sig ^^^ 0xFFFFFFFF) + g.expSig * 2 ^ 32))
    else
      let t := s.modCur (fun c => { c with seg := { c.seg with active := false } })
      .ok (t.setCurDom { t.curDom with livew := 0 }, .seq 1))

/-! ## SLATH, TBRD, WBRD (R118, R119) -/

/-- SLATH arrives at the barrier and waits (R25); issued after TB0 it takes SLATHMIS (R26). -/
def execSlath (s : State) : Host.Outcome State Fault Refusal :=
  issue s { handlerOk := false, signs := false } (fun s =>
    if s.cur.slathed then .error (.trap 0x1A 0)
    else
      let t := s.modCur (fun c => { c with slathPend := true })
      let d := t.curDom
      .ok (t.setCurDom { d with task := d.task.map (fun k =>
        if k.arrived.contains s.curCore then k else { k with arrived := k.arrived ++ [s.curCore] }) }, .settled))

def execTbrd (f : FD) (s : State) : Host.Outcome State Fault Refusal :=
  issue1 s true (fun s => do dstOk s f.d.toNat; return result s 1 f.d.toNat (BitVec.ofNat 64 s.cur.now))

/-- WBRD is legal in handler mode alone (R119), and on system cores (R403). -/
def execWbrd (f : FD) (s : State) : Host.Outcome State Fault Refusal :=
  issue s { pre := fun s => if s.onSys || s.cur.handler then .ok () else .error (illegal 0x03) } (fun s => do
    dstOk s f.d.toNat
    return (result s 1 f.d.toNat (BitVec.ofNat 64 s.wb), .seq 1))

/-! ## Phases (R120, R310, R312, R334) -/

/-- A footprint entry breaks R69. -/
def footBad (c : Ctx) (n : Nat) : Bool :=
  let f0 := footWord c n 0
  let f1 := footWord c n 1
  let f2 := footWord c n 2
  decide (bits f0 2 0 ≥ 4) || bits f0 15 5 != 0 || bits f0 31 27 != 0 || bits f0 63 43 != 0
    || (if bitB f0 4 then bits f0 26 16 != 0 || bits f0 42 32 != 0
        else f1 != 0 || f2 != 0 || decide (bits f0 42 32 < bits f0 26 16))

/-- The lowest granule or tile two footprint entries share (R120). -/
def footShared (c : Ctx) (i j : Nat) : Option Nat :=
  let a := footWord c i 0
  let b := footWord c j 0
  if bitB a 4 != bitB b 4 then none
  else if bitB a 4 then
    let m := (footWord c i 1 &&& footWord c j 1) + (footWord c i 2 &&& footWord c j 2) * 2 ^ 64
    if m = 0 then none else some (ctzN 128 m)
  else
    let lo := max (bits a 26 16) (bits b 26 16)
    if lo ≤ min (bits a 42 32) (bits b 42 32) then some lo else none

/-- Conflict(i, j) of R120, with what is shared. -/
def footConflict (c : Ctx) (i j : Nat) : Option Nat :=
  let a := footWord c i 0
  let b := footWord c j 0
  let exempt := (bits a 2 0 == bits b 2 0 && bitB a 3 && bitB b 3)
    || (bits a 2 0 == 0 && bits b 2 0 == 0 && bitB a 4 && bitB b 4 && bitB a 3 != bitB b 3)
  if (bitB a 3 || bitB b 3) && !exempt then footShared c i j else none

/-- The first conflicting pair of selected entries, lowest i and then lowest j (R120). -/
def firstConflict (c : Ctx) (m : Nat) : Option (Nat × Nat × Nat) :=
  let sel := (List.range 64).filter (bitB m)
  (sel.flatMap (fun i => (sel.filter (i < ·)).map (fun j => (i, j)))).findSome?
    (fun p => (footConflict c p.1 p.2).map (fun g => (p.1, p.2, g)))

/-- Reserved bits of a time-slot entry (R71). -/
def slotReserved (x : Nat) : Bool := bits x 15 14 != 0 || bits x 31 27 != 0 || bits x 63 48 != 0

/-- Two valid time-slot entries have the same granule and source, or one has a reserved bit set (R5, R72). -/
def slotsClash (c : Ctx) : Bool :=
  let v := (c.slots.map (·.2.toNat)).filter (fun x => bitB x 8)
  v.any slotReserved || !(v.map (fun x => (bits x 7 0, bits x 26 16))).Nodup

/-- The number of the phase that the next PHASE of the context begins (R17, R120, R121). -/
def nextPhase (s : State) : Nat := phaseNow s + 1

/-- A request is egress or commit-gated (R307). -/
def AuReq.gated (r : AuReq) : Bool := r.op != .load && r.op != .fill && r.op != .touch

/-- The lot that departed has not fully performed (R310); a MIGR of it has when its copy has ended (DEDUCED, log 69). -/
def lotDraining (c : Ctx) : Bool :=
  c.aus.any (fun r => r.gated && (r.place == .held || r.place == .departed || r.place == .queued || r.place == .untaken))

/-- A load, line fill or touch has not landed or faulted (R334). -/
def loadsOut (c : Ctx) : Bool :=
  c.aus.any (fun r => !r.gated && (r.place == .waiting || r.place == .departed || r.place == .queued || r.place == .untaken || r.place == .performed))

/-- The oldest faulted request that the next FENCE or PHASE delivers (R312). -/
def faultWaiting (c : Ctx) : Option Nat :=
  (c.aus.find? (fun r => r.place == .faulted && r.ahead == 0
    && (r.op == .store || r.op == .rstq || r.op == .migr || r.op == .touch))).map (·.seqNo)

/-- Of several faulted requests that a PHASE meets the lowest is reported: the one of its operand and the one that waits for it (R312). -/
def oldestFault {α : Type} (c : Ctx) (r : Res α) : Res α :=
  match r with
  | .error (.fault n) => .error (.fault (min n ((faultWaiting c).getD n)))
  | r => r

/-- An ILLEGAL that needs no operand ranks before the operand traps (R89). -/
def illegalFirst {α : Type} (c : Bool) (e : Stop) (r : Res α) : Res α :=
  match r with
  | .error x => .error (if c then e else x)
  | .ok v => .ok v

/-- The table words that PHASE reads: the selected footprints' and the time slots' (R69, R72, R120). -/
def phasePlaces (m : Word) : List Nat :=
  ((List.range 64).filter (fun n => bitB m.toNat n)).flatMap (fun n => [tabPlace 1 (n * 4), tabPlace 1 (n * 4 + 1), tabPlace 1 (n * 4 + 2)])
    ++ (List.range 64).map (tabPlace 2)

def execPhase (f : FA) (s : State) : Host.Outcome State Fault Refusal :=
  issue s { handlerOk := false } (fun s => do
    let c := s.cur
    let vs ← illegalFirst (slotsClash c) (illegal 0x09) (oldestFault c (srcVals s [(f.a.toNat, f.ka)]))
    let m := vs.headD 0
    parityOk c (phasePlaces m)
    if (List.range 64).any (fun n => bitB m.toNat n && footBad c n) then throw (illegal 0x08)
    if slotsClash c then throw (illegal 0x09)
    match firstConflict c m.toNat with
    | some (i, j, g) => throw (.trap 0x0A (i + j * 2 ^ 8 + g * 2 ^ 16))
    | none => pure ()
    if lotDraining c then throw (.hold 11 0x06)
    if loadsOut c then throw (.hold 12 0x07)
    match faultWaiting c with
    | some n => throw (.fault n)
    | none => pure ()
    return ((popSrcs s [(f.a.toNat, f.ka)]).modCur (fun c => { c with post := c.post ++ [.phase m] }), .seq 1))

/-! ## Waiting (R123, R124) -/

def execWaitq (f : FA0) (s : State) : Host.Outcome State Fault Refusal :=
  issue s { handlerOk := false } (fun s =>
    match headQ s.cur f.a.toNat 0 with
    | .ok _ => .ok (s, .seq 1)
    | .error (.hold _ _) => .error (.hold 3 0x03)
    | .error e => .error e)

/-- The state of ready flag `g` of the current context (R296). -/
def flagOf (c : Ctx) (g : Nat) : RFlag := c.flags.getD g ⟨0, 0, false, false, false⟩

def execWaitf (f : FA) (s : State) : Host.Outcome State Fault Refusal :=
  issue s { handlerOk := false } (fun s => do
    let vs ← srcVals s [(f.a.toNat, f.ka)]
    let a := (vs.headD 0).toNat
    if a ≥ 2048 then throw (illegalOp 0x11 0x03 a)
    let fl := flagOf s.cur a
    if fl.ovr then throw (.trap 0x10 (0x01 + a * 2 ^ 8))
    if !fl.ready then throw (.hold 4 (0x04 + a * 2 ^ 8))
    return (popSrcs s [(f.a.toNat, f.ka)], .seq 1))

/-! ## Requested holds and HALT (R42, R404) -/

/-- Requests a hold on a domain (R42). -/
def requestHold (d : Domain) (kind stamp minLen : Nat) (wb : Nat) : Domain :=
  let joins := match d.mode with | .run => none | .freezing _ => none | _ => some wb
  { d with reqs := d.reqs ++ [⟨kind, stamp, joins, minLen, kind == 9⟩] }

/-- HALT inside a segment or in handler mode takes ILLEGAL (R404). -/
def haltLegal (s : State) : Res Unit :=
  if !s.onSys && (s.cur.seg.active || s.cur.handler) then .error (illegal 0x03) else .ok ()

/-- The COLSTARTs of the phases that `q` names depart to the collective engine of the core's die (R365). -/
def departCols (s : State) (q : Nat → Bool) : State :=
  let c := s.cur
  let go := c.cols.filter (fun x => q x.phase)
  let d := s.curCore / 32
  let e := s.cxe d
  (s.setCxe d { e with waits := e.waits ++ go.map (fun x => ⟨s.curCore, s.slotOf s.curCore, x.block, x.rank, x.trap, none⟩) }).modCur
    (fun c => { c with cols := c.cols.filter (fun x => !q x.phase) })

/-- The lot of the phases that `q` names departs, stamped; where the unit is halted, what comes after the halting request is kept back (R307,
R311, R315). -/
def departLot (c : Ctx) (q : Nat → Bool) (ph : Nat) : Ctx :=
  { c with aus := c.aus.map (fun r =>
      if r.place == .lot && q r.phase then
        { r with place := if c.auHalt.any (fun n => decide (n < r.seqNo)) then .held else .departed, stampPh := ph % 2 ^ 16,
                 stampSsn := c.ssn.toNat % 2 ^ 16 }
      else r) }

/-- COLSTARTs of a phase that departed as the core halted in it, before the phase was cancelled (R339, R404). -/
def sentCols (c : Ctx) (ph : Nat) : Nat := if c.haltCols.1 = ph then c.haltCols.2 else 0

/-- Those of them that the replay has issued again. -/
def againCols (c : Ctx) (ph : Nat) : Nat := if c.haltCols.1 = ph then c.seenCols else 0

/-- HALT stops the core's issue, and the filling lot departs at once (R404); a system core waits for an event (R403). How many COLSTARTs have departed so
is kept for a replay, which does not send them again (R339; DEDUCED, log 99). -/
def execHalt (s : State) : Host.Outcome State Fault Refusal :=
  issue s { pre := haltLegal } (fun s =>
    if s.onSys then .ok ((advance s 1 1).setSys { (advance s 1 1).sys with halted := true }, .settled)
    else
      let ph := phaseNow s
      let gone := againCols s.cur ph + (s.cur.cols.filter (fun x => x.phase == ph)).length
      let t := (departCols s (· == ph)).modCur (fun c => departLot { c with
        halted := some c.now, haltCols := (ph, gone), aus := c.aus.map (fun r => { r with ahead := 0 }) } (· == ph) ph)
      let d := t.curDom
      .ok (t.setCurDom { d with task := d.task.map (fun k => { k with 
        lastHalt := max k.lastHalt s.cur.now, lastHaltWb := if k.lastHalt ≤ s.cur.now then s.wb else k.lastHaltWb }) },
        .settled))

end Sys2Proof.Machine
end

