-- ==== Sys2Proof/Machine/Records.lean ====
section
/-! DEFINITION. Statistics records: names and owners (R180), parts (R181), contributions (R182), Combine (R186), the changes by
cycle (R184, R185), the commit (R187) and the state that a reader sees on a cycle. A change is kept with its stamp until every
agent of the domain has passed its cycle, so a replay reads what an unheld run reads (R184). -/

namespace Sys2Proof.Machine

/-- A record id names a record of a partition of `n` dies (R180). -/
def recNamed (n rid : Nat) : Bool := rid != 0 && decide (rid / 512 < n)

/-- The record is assigned to a slot by the ownership table (R180, R407). -/
def recOwned (p : PartSt) (slot rid : Nat) : Bool :=
  let w := (p.owners.getD rid 0).toNat
  bitB w 2 && bits w 1 0 == slot

/-- The 36 words of a part whose first key is `base` (R181). -/
def recWords (m : NMap Word) (base : Nat) : List Nat := (List.range 36).map (fun w => (m.getD (base + w) 0).toNat)

/-- A part written whole, zero words unlisted. -/
def putWords (m : NMap Word) (base : Nat) (ws : List Nat) : NMap Word :=
  (ws.zipIdx).foldl (fun m p => if p.1 = 0 then m.erase (base + p.2) else m.set (base + p.2) (BitVec.ofNat 64 p.1)) m

def homeKey (rid : Nat) : Nat := rid * 64
def shardKey (die rid : Nat) : Nat := (die * 4096 + rid) * 64

/-! ## Combine (R186) -/

/-- Sum of two 32-bit counters and whether it saturates. -/
def addSat (a b : Nat) : Nat × Bool := if a + b > 0xFFFFFFFF then (0xFFFFFFFF, true) else (a + b, false)

/-- Combine(x, y) on the 36 words of two record values. -/
def combineRec (x y : List Nat) : List Nat :=
  let w (l : List Nat) (i : Nat) : Nat := l.getD i 0
  let lo (v : Nat) : Nat := v % 2 ^ 32
  let hi (v : Nat) : Nat := v >>> 32
  let z := addSat (lo (w x 1)) (lo (w y 1))
  let i := addSat (hi (w x 1)) (hi (w y 1))
  let n := addSat (lo (w x 2)) (lo (w y 2))
  let bins := (List.range 32).map (fun k =>
    (addSat (lo (w x (4 + k))) (lo (w y (4 + k))), addSat (hi (w x (4 + k))) (hi (w y (4 + k)))))
  let ovf := (hi (w x 2) ||| hi (w y 2) ||| (b2n z.2 + 2 * b2n i.2 + 4 * b2n n.2)) % 8
  let bovf := (bins.zipIdx).foldl (fun a p => a ||| (b2n p.1.1.2 * 2 ^ (2 * p.2) + b2n p.1.2.2 * 2 ^ (2 * p.2 + 1)))
    (w x 3 ||| w y 3)
  [max (lo (w x 0)) (lo (w y 0)) + hi (w x 0) * 2 ^ 32, z.1 + i.1 * 2 ^ 32, n.1 + ovf * 2 ^ 32, bovf]
    ++ bins.map (fun b => b.1.1 + b.2.1 * 2 ^ 32)

/-! ## Contributions (R182) -/

/-- floor(log2 |v|) of a finite non-zero value. -/
def valLog2 (m : Nat) (e : Int) : Int := e + (Nat.log2 m : Int)

/-- The contribution of one element value, as a record value (R182). -/
def contribution (v : Val) : List Nat :=
  let one (i x : Nat) : List Nat := (List.replicate 36 0).set i x
  match v with
  | .nan => one 2 1
  | .inf _ => (one 1 (2 ^ 32)).set 0 0x7F800000
  | .zero _ => one 1 1
  | .fin _ m e =>
    let b := (max 0 (min 63 (valLog2 m e + 48))).toNat
    (one (4 + b / 2) (if b % 2 = 0 then 1 else 2 ^ 32)).set 0 (roundTo 0x00 (.fin false m e) 3 false 0).1

/-- The contribution of the elements of one store. -/
def contributions (vs : List Val) : List Nat := vs.foldl (fun r v => combineRec r (contribution v)) (List.replicate 36 0)

/-! ## Changes by cycle (R184, R185, R187) -/

/-- Order of two changes: cycle, then kind, then agent (R185). -/
def RecChange.before (x y : RecChange) : Bool :=
  decide (x.cycle < y.cycle) || (x.cycle == y.cycle && (decide (x.kind < y.kind)
    || (x.kind == y.kind && decide (x.order < y.order))))

/-- A change put in its place. -/
def insertChange (x : RecChange) : List RecChange → List RecChange
  | [] => [x]
  | y :: ys => if x.before y then x :: y :: ys else y :: insertChange x ys

/-- A merge request put in its place: ascending stamp, then agent (R187). -/
def insertMerge (x : Nat × Nat × Nat × Nat) : List (Nat × Nat × Nat × Nat) → List (Nat × Nat × Nat × Nat)
  | [] => [x]
  | y :: ys => if x.1 < y.1 || (x.1 == y.1 && decide (x.2.1 < y.2.1)) then x :: y :: ys else y :: insertMerge x ys

/-- A word written by STSET under the access rules of R181. -/
def setRecWord (old : Nat) (word value : Nat) : Nat :=
  if word = 0 then
    let a := value % 2 ^ 31
    (if a > 0x7F800000 then 0x7F800000 else a) + (old >>> 32) * 2 ^ 32
  else if word = 2 then value % 2 ^ 35
  else value

/-- Records that a slot owns. -/
def ownedRecs (p : PartSt) (slot : Nat) : List Nat := (p.owners.map (·.1)).filter (recOwned p slot)

/-- The commit of a slot on a PHASE cycle `pc`: shards, merges, generation, view, each step for all records (R187). What STSET has installed is in
the home by then, the shards are combined on top of it, and the view takes both; no merge crosses packages (R190). -/
def commitRecs (p : PartSt) (slot pc : Nat) (r : RecSt) : RecSt :=
  let ids := ownedRecs p slot
  let ds := List.range p.size
  let home1 := ids.foldl (fun h id => putWords h (homeKey id)
    (ds.foldl (fun x d => combineRec x (recWords r.shard (shardKey d id))) (recWords h (homeKey id)))) r.home
  let shard1 := ids.foldl (fun m id => ds.foldl (fun m d => putWords m (shardKey d id) (List.replicate 36 0)) m) r.shard
  let mine (x : Nat × Nat × Nat × Nat) : Bool := decide (x.1 ≤ pc) && ids.contains x.2.2.1
  let home2 := (r.merges.filter mine).foldl (fun h x => putWords h (homeKey x.2.2.1)
    (combineRec (recWords h (homeKey x.2.2.1)) (recWords h (homeKey x.2.2.2)))) home1
  let home3 := ids.foldl (fun h id =>
    let ws := recWords h (homeKey id)
    let w0 := ws.headD 0
    putWords h (homeKey id) (ws.set 0 (w0 % 2 ^ 32 + ((w0 >>> 32) + 1) % 2 ^ 32 * 2 ^ 32))) home2
  let view1 := ids.foldl (fun v id => putWords v (homeKey id) (recWords home3 (homeKey id))) r.view
  { r with home := home3, shard := shard1, view := view1, merges := r.merges.filter (fun x => !mine x) }

/-- One change applied (R185). -/
def applyChange (p : PartSt) (r : RecSt) (x : RecChange) : RecSt :=
  match x.kind with
  | 0 => { r with
      home := putWords r.home (homeKey x.rid) (List.replicate 36 0)
      shard := (List.range p.size).foldl (fun m d => putWords m (shardKey d x.rid) (List.replicate 36 0)) r.shard }
  | 1 =>
    let old := (r.home.getD (homeKey x.rid + x.word) 0).toNat
    { r with home := r.home.set (homeKey x.rid + x.word) (BitVec.ofNat 64 (setRecWord old x.word x.value.toNat)) }
  | 2 =>
    let k := shardKey x.die x.rid
    { r with shard := putWords r.shard k (combineRec (recWords r.shard k) x.data) }
  | _ => commitRecs p x.rid x.cycle r

/-- The change concerns a record of the slot. -/
def RecChange.ofSlot (p : PartSt) (slot : Nat) (x : RecChange) : Bool :=
  if x.kind = 3 then x.rid == slot else recOwned p slot x.rid

/-- The records as a reader of a slot sees them on cycle `t`: every change of a cycle c with c + H ≤ t − 1 (R184). -/
def recsAt (p : PartSt) (slot t : Nat) : RecSt :=
  (p.recs.changes.filter (fun x => x.ofSlot p slot && decide (x.cycle + Config.hop < t))).foldl (applyChange p) p.recs

/-- A change stamped (R184). -/
def stampChange (s : State) (p : Nat) (x : RecChange) : State :=
  let q := s.part p
  s.setPart p { q with recs := { q.recs with changes := insertChange x q.recs.changes } }

/-- The changes of a slot whose cycles every agent has passed folded into the parts. `t` is the earliest cycle that an agent of the domain has
still to run. -/
def foldChanges (p : PartSt) (slot t : Nat) : PartSt :=
  let due (x : RecChange) : Bool := x.ofSlot p slot && decide (x.cycle + Config.hop < t)
  { p with recs := { (p.recs.changes.filter due).foldl (applyChange p) p.recs with changes := p.recs.changes.filter (fun x => !due x) } }

/-- The place of the checkpoint of a slot's records for a PHASE cycle. -/
def checkKey (slot pc : Nat) : Nat := pc * 4 + slot

/-- The checkpoint belongs to a slot. -/
def checkSlot (slot : Nat) (x : Nat × RecSt) : Bool := x.1 % 4 == slot

/-- Merges of records that a slot owns (R187). -/
def slotMerges (p : PartSt) (slot : Nat) : List (Nat × Nat × Nat × Nat) := p.recs.merges.filter (fun x => (ownedRecs p slot).contains x.2.2.1)

/-- The records of a slot as a PHASE on cycle `pc` leaves them: the parts as an agent sees them on the next cycle, and the changes and merge requests
up to `pc` that it does not see yet (R184, R188). The commit is added where a cancel finds that it was performed (`restoreRecs`). -/
def keepRecs (p : PartSt) (slot pc : Nat) : PartSt :=
  if (p.recChecks.find (checkKey slot pc)).isSome then p
  else { p with recChecks := p.recChecks.set (checkKey slot pc) { p.recs with
    changes := p.recs.changes.filter (fun x => x.ofSlot p slot && decide (x.cycle ≤ pc))
    merges := (slotMerges p slot).filter (fun x => decide (x.1 ≤ pc)) } }

/-- The records' part of a slot leaves with its context (R381). -/
def dropRecs (p : PartSt) (slot : Nat) : PartSt :=
  { p with
    recs := { p.recs with
      changes := p.recs.changes.filter (fun x => !x.ofSlot p slot)
      merges := p.recs.merges.filter (fun x => !(ownedRecs p slot).contains x.2.2.1) }
    recChecks := p.recChecks.filter (fun x => !checkSlot slot x) }

/-- It comes with an image into a slot (R189, R381). -/
def putRecs (p : PartSt) (slot : Nat) (checks : NMap RecSt) (changes : List RecChange) (merges : List (Nat × Nat × Nat × Nat)) : PartSt :=
  let own (x : RecChange) : RecChange := if x.kind = 3 then { x with rid := slot } else x
  { p with
    recs := { p.recs with
      changes := changes.foldl (fun l x => insertChange (own x) l) p.recs.changes
      merges := merges.foldl (fun l x => insertMerge x l) p.recs.merges }
    recChecks := checks.foldl (fun m x => NMap.set m (checkKey slot x.1) { x.2 with changes := x.2.changes.map own }) p.recChecks }

/-- The commit of a slot on PHASE cycle `pc` as a change of its records (R187). -/
def commitChange (slot pc : Nat) : RecChange := { cycle := pc, order := 0, kind := 3, rid := slot, die := 0, word := 0, value := 0, data := [] }

/-- The records of a slot restored on a cancel of the phase that PHASE cycle `pc` began (R189): the parts go back to what an agent sees on the cycle
after `pc`, and the changes up to `pc`, with the commit where it was performed (`done`), are seen again from their cycles on. So each cycle of the replay
sees what it saw before, the view of the commit before on P + 1 to P + H, and from then on the state after the commit (R188, R189, R395). -/
def restoreRecs (p : PartSt) (slot pc : Nat) (done : Bool) : PartSt :=
  let r := p.recs
  let others := r.changes.filter (fun x => !x.ofSlot p slot)
  match p.recChecks.find (checkKey slot pc) with
  | none => { p with recs := { r with
      changes := r.changes.filter (fun x => !(x.ofSlot p slot && decide (x.cycle > pc)))
      merges := r.merges.filter (fun x => !((ownedRecs p slot).contains x.2.2.1 && decide (x.1 > pc))) } }
  | some old =>
    let ids := ownedRecs p slot
    let back (m o : NMap Word) (k : Nat) : NMap Word := putWords m k (recWords o k)
    { p with recs := {
        home := ids.foldl (fun m id => back m old.home (homeKey id)) r.home
        view := ids.foldl (fun m id => back m old.view (homeKey id)) r.view
        shard := ids.foldl (fun m id => (List.range p.size).foldl (fun m d => back m old.shard (shardKey d id)) m) r.shard
        changes := (old.changes ++ (if done then [commitChange slot pc] else [])).foldl (fun l x => insertChange x l) others
        merges := old.merges.foldl (fun l x => insertMerge x l) (r.merges.filter (fun x => !ids.contains x.2.2.1)) } }

end Sys2Proof.Machine
end

