-- ==== Sys2Proof/Machine/Streams.lean ====
section
/-! DEFINITION. Stream instructions and table access: majors 0x18–0x1A (R125–R130). -/

namespace Sys2Proof.Machine

/-- Bits of EINFO for ILLEGAL class 0x0D (R125, R127). -/
def streamIllegal (reason strm : Nat) : Stop := illegal (0x0D + reason * 2 ^ 8 + strm * 2 ^ 16)

/-- Station of an entry (R61): its scratchpad block, or station 1 for the accumulator. -/
def Layout.station (l : Layout) : Nat := if l.space = 0 then 2 * bits l.base 22 21 else 1

/-- Words available from a start index (R62). -/
def Layout.wordsFrom (l : Layout) (n0 : Nat) : Nat := (l.count - n0 + l.perWord - 1) / l.perWord

/-- A word of the stream's schedule is due on cycle `t` (R126). -/
def Strm.due (st : Strm) (t : Nat) : Bool := decide (st.t1 ≤ t ∧ t - st.t1 + st.adv < st.cnt)

/-- OPEN of an open stream (R125). -/
def openClosed (n : Nat) (s : State) : Res Unit :=
  if (s.cur.strms.find n).isSome then .error (streamIllegal 0x01 n) else .ok ()

/-- Start coordinates inside the extents and a count within the words left (R60). -/
def startOk (l : Layout) (c : List Nat) (cnt : Nat) : Bool :=
  (c.zipIdx).all (fun p => decide (p.1 < l.ext p.2))
    && decide (cnt ≤ l.wordsFrom (l.index (c.getD 0 0) (c.getD 1 0) (c.getD 2 0) (c.getD 3 0)))

/-- REC of a write stream's entry names a record that the slot owns (R191). -/
def openRecOk (s : State) (wr : Bool) (l : Layout) : Bool :=
  let p := s.part s.curPart
  !wr || l.rid == 0 || (recNamed p.size l.rid && recOwned p (s.slotOf s.curCore) l.rid)

/-- OPEN binds a stream to a copy of its layout entry (R60, R61, R125). The checks of R60 that need no coordinate come before the
operand traps (R89). -/
def execOpenS (f : FOpen) (s : State) : Host.Outcome State Fault Refusal :=
  issue s { words := 2, handlerOk := false, pre := openClosed f.s.toNat } (fun s => do
    parityOk s.cur ((List.range 6).map (fun w => tabPlace 0 (f.lte.toNat * 8 + w)))
    let e := layoutEntry s.cur f.lte.toNat
    if !layoutOk e || !openRecOk s f.wr e then throw (illegal 0x04)
    let fs := [0, 1, 2, 3].map (fun i => (f.a.toNat + i, f.ka))
    let vs ← srcVals s fs
    let cs := vs.map BitVec.toNat
    if !startOk e cs f.cnt.toNat then throw (illegal 0x04)
    let n0 := e.index (cs.getD 0 0) (cs.getD 1 0) (cs.getD 2 0) (cs.getD 3 0)
    let t := s.cur.now
    let st : Strm :=
      { entry := e, lte := f.lte.toNat, wr := f.wr, dir := f.dir, lane := f.lane.toNat, station := e.station,
        t1 := t + f.off.toNat, cnt := f.cnt.toNat, remaining := f.cnt.toNat, adv := 0, off := f.off.toNat, sched := t,
        start := n0, cursor := n0, seen := [], seenScale := [] }
    return ((popSrcs s fs).modCur (fun c => { c with strms := c.strms.set f.s.toNat st }), .seq 2))

/-- Work for the end of the cycle (R127). -/
def addPost (s : State) (p : PostAct) : State := s.modCur (fun c => { c with post := c.post ++ [p] })

/-- CLOSE: the stream is closed from the next cycle on; a closed stream stays so (R127). -/
def execClose (f : FS) (s : State) : Host.Outcome State Fault Refusal :=
  issue1 s false (fun s => .ok (addPost s (.close f.s.toNat)))

/-- SADV and SREW of a closed stream are ILLEGAL before the pop (R127). -/
def needOpen (n : Nat) (s : State) : Res Unit :=
  if (s.cur.strms.find n).isSome then .ok () else .error (streamIllegal 0x02 n)

def execSadv (f : FSA) (s : State) : Host.Outcome State Fault Refusal :=
  issue s { handlerOk := false, pre := needOpen f.s.toNat } (fun s => do
    let vs ← srcVals s [(f.a.toNat, f.ka)]
    let n := (vs.headD 0).toNat
    match s.cur.strms.find f.s.toNat with
    | none => throw (streamIllegal 0x02 f.s.toNat)
    | some st =>
      if n > st.remaining - b2n (st.due s.cur.now) then throw (streamIllegal 0x03 f.s.toNat)
      return (addPost (popSrcs s [(f.a.toNat, f.ka)]) (.sadv f.s.toNat n), .seq 1))

def execSrew (f : FS) (s : State) : Host.Outcome State Fault Refusal :=
  issue s { handlerOk := false, pre := needOpen f.s.toNat } (fun s => .ok (addPost s (.srew f.s.toNat), .seq 1))

/-- The status word of a stream (R128). -/
def sstatWord (c : Ctx) (n : Nat) : Word :=
  match c.strms.find n with
  | none => 0
  | some st => BitVec.ofNat 64 (st.remaining % 2 ^ 16 + 2 ^ 16 + b2n st.wr * 2 ^ 17 + b2n st.dir * 2 ^ 18 + st.lane * 2 ^ 19
      + st.lte * 2 ^ 24 + (st.cursor % 2 ^ 32) * 2 ^ 32)

/-- SSTAT pushes the stream's status as it stands after this cycle (R127, R128). -/
def execSstat (f : FSD) (s : State) : Host.Outcome State Fault Refusal :=
  issue1 s false (fun s => .ok (s.modCur (fun c => { c with flight := c.flight ++
    [{ issue := c.now, addr := c.pc, perf := c.now, act := .sstat f.a.toNat f.s.toNat, flags := 0, t3 := 0, poison := none,
       late := false }] })))

/-- What CLOSE, SADV and SREW do at the end of their cycle `t` (R126, R127). -/
def streamPost (c : Ctx) : PostAct → Ctx
  | .close n => { c with strms := c.strms.erase n }
  | .sadv n k =>
    match c.strms.find n with
    | none => c
    | some st =>
      let x := { st with adv := st.adv + k, remaining := st.remaining - k, cursor := st.cursor + k * st.entry.perWord }
      { c with strms := c.strms.set n x }
  | .srew n =>
    match c.strms.find n with
    | none => c
    | some st =>
      let x := { st with t1 := c.now + st.off, adv := 0, remaining := st.cnt, cursor := st.start, sched := c.now,
                         seen := [], seenScale := [] }
      { c with strms := c.strms.set n x }
  | .phase _ => c

/-! ## Tables (R129, R130) -/

/-- A table: its FN code, the bits of the word number, the words of an entry, the bits of an index. -/
structure Table where
  fn : Nat
  wordBits : Nat
  words : Nat
  idxBits : Nat

def layoutTable (fn : Nat) : Table := ⟨fn, 3, 6, 11⟩
def footTable (fn : Nat) : Table := ⟨fn, 2, 3, 8⟩
def slotTable (fn : Nat) : Table := ⟨fn, 0, 1, 6⟩

/-- Number of word `n` of the table, for its parity. -/
def Table.place (t : Table) (n : Nat) : Nat := tabPlace (t.fn / 2) n

/-- The index of a table access, or ILLEGAL class 0x0B (R129). -/
def tableIndex (t : Table) (x : Word) : Res Nat :=
  if x.toNat ≥ 2 ^ t.idxBits || decide (x.toNat % 2 ^ t.wordBits ≥ t.words) then
    .error (illegal (0x0B + t.fn * 2 ^ 8 + (x.toNat % 2 ^ 32) * 2 ^ 32))
  else .ok x.toNat

/-- A bad index ranks before a trap of the other operand (R89). -/
def indexFirst (s : State) (t : Table) (a : Src) : Res Unit :=
  match srcVals s [a] with
  | .ok [x] => do let _ ← tableIndex t x; return ()
  | _ => .ok ()

/-- A table write, all 64 bits, on its cycle (R129). A field of handler mode that names no register ranks before the index (R88). -/
def tableWrite (f : FAB) (t : Table) (put : Ctx → Nat → Word → Ctx) (s : State) : Host.Outcome State Fault Refusal :=
  issue1 s true (fun s => do
    let a := (f.a.toNat, f.ka)
    let b := (f.b.toNat, f.kb)
    lowerClass (indexFirst s t a) (do
      match ← srcVals s [a, b] with
      | [x, y] =>
        let n ← tableIndex t x
        return ((popSrcs s [a, b]).modCur (fun c => tabFresh (put c n y) (t.place n)))
      | _ => return s))

/-- A table read (R129). -/
def tableRead (f : FDA) (t : Table) (get : Ctx → Nat → Word) (s : State) : Host.Outcome State Fault Refusal :=
  issue1 s true (fun s => do
    dstOk s f.d.toNat
    let a := (f.a.toNat, f.ka)
    match ← srcVals s [a] with
    | [x] =>
      let n ← tableIndex t x
      parityOk s.cur [t.place n]
      return result (popSrcs s [a]) 1 f.d.toNat (get s.cur n)
    | _ => return s)

def execLtwr (f : FAB) (s : State) : Host.Outcome State Fault Refusal :=
  tableWrite f (layoutTable 0) (fun c n v => { c with layout := c.layout.set n v }) s
def execLtrd (f : FDA) (s : State) : Host.Outcome State Fault Refusal :=
  tableRead f (layoutTable 1) (fun c n => c.layout.getD n 0) s
def execFpwr (f : FAB) (s : State) : Host.Outcome State Fault Refusal :=
  tableWrite f (footTable 2) (fun c n v => { c with foot := c.foot.set n v }) s
def execFprd (f : FDA) (s : State) : Host.Outcome State Fault Refusal :=
  tableRead f (footTable 3) (fun c n => c.foot.getD n 0) s
def execTswr (f : FAB) (s : State) : Host.Outcome State Fault Refusal :=
  tableWrite f (slotTable 4) (fun c n v => { c with slots := c.slots.set n v }) s
def execTsrd (f : FDA) (s : State) : Host.Outcome State Fault Refusal :=
  tableRead f (slotTable 5) (fun c n => c.slots.getD n 0) s

end Sys2Proof.Machine
end

