-- ==== Sys2Proof/Machine/Vector.lean ====
section
/-! DEFINITION. Vector unit instructions: majors 0x20–0x27 (R132–R153). -/

namespace Sys2Proof.Machine

/-! ## Formats and words -/

/-- Format code of an FMT3 (R132). -/
def fmt3 (f : Nat) : Nat :=
  match f with
  | 0 => 0x00 | 1 => 0x01 | 2 => 0x02 | 3 => 0x0A | 4 => 0x0B | 5 => 0x0C | 6 => 0x03 | _ => 0x04

/-- Element patterns of a lane word in a format (R62, R132). -/
def elemsOf (fmt : Nat) (w : LaneWord) : List Nat := fieldsOf (fmtWidth fmt) (elemsPerWord (fmtWidth fmt)) w.toNat

/-- The lane word of element patterns (R62). -/
def wordOf (fmt : Nat) (es : List Nat) : LaneWord := BitVec.ofNat 1024 (ofFields (fmtWidth fmt) es)

/-- Flags of several elements ORed. -/
def orAll (fs : List Nat) : Nat := fs.foldl (fun a b => a ||| b) 0

/-- Element patterns and the OR of their flags. -/
def packRes (fmt : Nat) (rs : List (Nat × Flags)) : LaneWord × Flags := (wordOf fmt (rs.map (·.1)), orAll (rs.map (·.2)))

/-! ## The generator (R192) -/

def mix64 (z : Nat) : Nat :=
  let z1 := ((z ^^^ (z >>> 30)) * 0xBF58476D1CE4E5B9) % 2 ^ 64
  let z2 := ((z1 ^^^ (z1 >>> 27)) * 0x94D049BB133111EB) % 2 ^ 64
  z2 ^^^ (z2 >>> 31)

/-- The draw r for key K, tensor id and element index (R192). -/
def drawR (key tid n : Nat) : Nat :=
  let c := (tid * 2 ^ 48 + n % 2 ^ 48) % 2 ^ 64
  let z := mix64 ((c + key) % 2 ^ 64)
  (mix64 ((z + rotl64 key 32) % 2 ^ 64)) >>> 32

/-! ## Operands (R133, R134) -/

/-- A vector source: what it holds and, for a stream, the tapped slot. -/
structure VSrc where
  field : Nat
  word : LaneWord
  slot : Option LaneSlot

/-- A field that names a write stream as a source takes ILLEGAL 0x0007 (R65). -/
def srcStreamOk (c : Ctx) (f : Nat) : Bool :=
  decide (f < 16) || ((c.strms.find (f - 16)).elim true (fun st => !st.wr))

/-- A destination that names a read stream takes ILLEGAL 0x0007 (R65). -/
def dstStreamOk (c : Ctx) (f : Nat) : Bool :=
  decide (f < 16) || ((c.strms.find (f - 16)).elim true (fun st => st.wr))

/-- One vector source read at station 3: QUNF, POISON or the traps of a tap (R133, R399). Of several sources' stops QUNF and LANE come first,
in field order (`gather`, log 9). -/
def vread (s : State) (f : Nat) : Res VSrc :=
  if f < 16 then
    match wEntries s.cur f with
    | [] => .error (.trap 0x03 (32 + f))
    | e :: _ => match e.poison with
      | some p => .error (.trap 0x15 (poisonInfo p 0 (vqPlace f)))
      | none => .ok ⟨f, e.word, none⟩
  else do
    let l ← tap s (f - 16) 3 1
    return ⟨f, l.word, some l⟩

/-- The sources popped, each w queue once, and the cursors of the tapped streams moved (R133). -/
def vpop (s : State) (xs : List VSrc) : State :=
  let t := s.modCur (fun c => ((xs.filter (fun x => x.field < 16)).map (·.field)).dedup.foldl
    (fun c n => setW c n (wEntries c n).tail) c)
  t.modCur (fun c => xs.foldl (fun c x => match x.slot with
    | some l => moveCursor c (x.field - 16) l
    | none => c) c)

/-- The effect of a vector result on its perform cycle (R134). -/
def vdst (f : Nat) (v : LaneWord) : ResAct := if f < 16 then .pushW f v else .driveS (f - 16) 3 v []

/-- A vector result on its way (R134, R136). -/
def vresult (s : State) (f d : Nat) (v : LaneWord) (flags t3 : Nat) : State :=
  s.modCur (fun c => { c with flight := c.flight ++
    [{ issue := c.now, addr := c.pc, perf := c.now + f - 1, act := vdst d v, flags := flags, t3 := t3, poison := none,
       late := true }] })

/-- A vector instruction with perform offset `f`, destination `d` and source fields; `op` computes the result word and its
flags from the context and the sources (R133–R138). -/
def vop (s : State) (f d : Nat) (srcs : List Nat) (op : Ctx → List VSrc → LaneWord × Flags) :
    Host.Outcome State Fault Refusal :=
  issue1 s false (fun s => do
    if !(srcs.all (srcStreamOk s.cur) && dstStreamOk s.cur d) then throw (illegal 0x07)
    let xs ← gather (srcs.map (vread s))
    let r := op s.cur xs
    return vresult (vpop s xs) f d r.1 r.2 0)

/-- The words of the sources, absent ones all zero. -/
def srcWord (xs : List VSrc) (i : Nat) : LaneWord := ((xs.map (·.word))[i]?).getD 0

/-- An elementwise operation of one source. -/
def map1 (fmt : Nat) (op : Nat → Nat × Flags) (xs : List VSrc) : LaneWord × Flags :=
  packRes fmt ((elemsOf fmt (srcWord xs 0)).map op)

/-- An elementwise operation of two sources. -/
def map2 (fmt : Nat) (op : Nat → Nat → Nat × Flags) (xs : List VSrc) : LaneWord × Flags :=
  packRes fmt (List.zipWith op (elemsOf fmt (srcWord xs 0)) (elemsOf fmt (srcWord xs 1)))

/-- An elementwise operation of three sources. -/
def map3 (fmt : Nat) (op : Nat → Nat → Nat → Nat × Flags) (xs : List VSrc) : LaneWord × Flags :=
  packRes fmt (List.zipWith (fun p z => op p.1 p.2 z)
    (List.zip (elemsOf fmt (srcWord xs 0)) (elemsOf fmt (srcWord xs 1))) (elemsOf fmt (srcWord xs 2)))

/-- An FV3 instruction. -/
def v3 (g : FV3) (s : State) (f : Nat) (op : Ctx → Nat → Nat → Nat → Nat × Flags) : Host.Outcome State Fault Refusal :=
  vop s f g.vd.toNat [g.va.toNat, g.vb.toNat] (fun c xs => map2 (fmt3 g.fmt.toNat) (op c (fmt3 g.fmt.toNat)) xs)

/-- An FV2 instruction. -/
def v2 (g : FV2) (s : State) (f : Nat) (op : Ctx → Nat → Nat → Nat × Flags) : Host.Outcome State Fault Refusal :=
  vop s f g.vd.toNat [g.va.toNat] (fun c xs => map1 (fmt3 g.fmt.toNat) (op c (fmt3 g.fmt.toNat)) xs)

/-- Perform offset: one for the integer class, another else (R135). -/
def offInt (fmt int other : Nat) : Nat := if intClass fmt then int else other

/-! ## Elementwise arithmetic, major 0x20 (R140) -/

/-- FRound of a value that is an exact result or invalid (R139, R140). -/
def froundOf (c : Ctx) (fmt : Nat) (r : Val × Bool) : Nat × Flags :=
  match r.1 with
  | .nan => (canon fmt, if r.2 then fNV else 0)
  | v => roundTo fmt v (vrmMode c) (vrmSat c) 0

/-- A sum or a difference of two elements. -/
def elemAdd (c : Ctx) (fmt : Nat) (sub : Bool) (a b : Nat) : Nat × Flags :=
  if isIntFmt fmt then ifit fmt (decodeInt fmt a + (if sub then -decodeInt fmt b else decodeInt fmt b)) (vrmSat c)
  else
    let y := decodeVal fmt b
    froundOf c fmt (Val.add (vrmMode c == 2) (decodeVal fmt a) (if sub then y.negate else y))

def elemMul (c : Ctx) (fmt a b : Nat) : Nat × Flags :=
  if isIntFmt fmt then ifit fmt (decodeInt fmt a * decodeInt fmt b) (vrmSat c)
  else froundOf c fmt (Val.mul (decodeVal fmt a) (decodeVal fmt b))

/-- `a × b ± z` with one rounding. -/
def elemFma (c : Ctx) (fmt : Nat) (sub : Bool) (a b z : Nat) : Nat × Flags :=
  if isIntFmt fmt then
    ifit fmt (decodeInt fmt a * decodeInt fmt b + (if sub then -decodeInt fmt z else decodeInt fmt z)) (vrmSat c)
  else
    let w := decodeVal fmt z
    fmaTo fmt (decodeVal fmt a) (decodeVal fmt b) (if sub then w.negate else w) (vrmMode c) (vrmSat c)

/-- The smaller or the larger element (R140). -/
def elemMin (larger : Bool) (fmt a b : Nat) : Nat × Flags :=
  if isIntFmt fmt then
    (if (decide (decodeInt fmt b < decodeInt fmt a)) != larger then b else a, 0)
  else
    let x := decodeVal fmt a
    let y := decodeVal fmt b
    if x.isNan || y.isNan then (canon fmt, 0)
    else if larger then (if valLtZ x y then b else a, 0) else (if valLtZ y x then b else a, 0)

def elemAbs (c : Ctx) (fmt a : Nat) : Nat × Flags :=
  if isIntFmt fmt then ifit fmt (decodeInt fmt a).natAbs (vrmSat c)
  else if (decodeVal fmt a).isNan then (canon fmt, 0) else (a % 2 ^ (fmtWidth fmt - 1), 0)

def elemNeg (c : Ctx) (fmt a : Nat) : Nat × Flags :=
  if isIntFmt fmt then ifit fmt (-decodeInt fmt a) (vrmSat c)
  else if (decodeVal fmt a).isNan then (canon fmt, 0) else (a ^^^ 2 ^ (fmtWidth fmt - 1), 0)

/-- `|a − b|` (R140): integers exact and unsigned, floats rounded. The absolute value is that of the exact difference: equal floats give +0, under RD
too (DEDUCED, log 80). -/
def elemDiff (c : Ctx) (fmt a b : Nat) : Nat × Flags :=
  if isIntFmt fmt then ((decodeInt fmt a - decodeInt fmt b).natAbs % 2 ^ fmtWidth fmt, 0)
  else
    let r := Val.add (vrmMode c == 2) (decodeVal fmt a) (decodeVal fmt b).negate
    froundOf c fmt (r.1.abs, r.2)

/-- Bits [2w−1:w] of the signed product (R140). -/
def elemMulhi (fmt a b : Nat) : Nat × Flags :=
  (ofInt (fmtWidth fmt) (decodeInt fmt a * decodeInt fmt b / ((2 ^ fmtWidth fmt : Nat) : Int)), 0)

def execVadd (f : FV3) (s : State) := v3 f s (offInt f.fmt.toNat 2 3) (fun c m a b => elemAdd c m false a b)
def execVsub (f : FV3) (s : State) := v3 f s (offInt f.fmt.toNat 2 3) (fun c m a b => elemAdd c m true a b)
def execVmul (f : FV3) (s : State) := v3 f s 4 elemMul
/-- VFMA and VFMS take their addend from VD (R140). -/
def vfma (f : FV3) (s : State) (sub : Bool) : Host.Outcome State Fault Refusal :=
  vop s 4 f.vd.toNat [f.va.toNat, f.vb.toNat, f.vd.toNat]
    (fun c xs => map3 (fmt3 f.fmt.toNat) (elemFma c (fmt3 f.fmt.toNat) sub) xs)
def execVfma (f : FV3) (s : State) := vfma f s false
def execVfms (f : FV3) (s : State) := vfma f s true
def execVmin (f : FV3) (s : State) := v3 f s 2 (fun _ m a b => elemMin false m a b)
def execVmax (f : FV3) (s : State) := v3 f s 2 (fun _ m a b => elemMin true m a b)
def execVabs (f : FV2) (s : State) := v2 f s 2 elemAbs
def execVneg (f : FV2) (s : State) := v2 f s 2 elemNeg
def execVadds (f : FV3) (s : State) := v3 f s 2 (fun _ m a b => ifit m (decodeInt m a + decodeInt m b) true)
def execVsubs (f : FV3) (s : State) := v3 f s 2 (fun _ m a b => ifit m (decodeInt m a - decodeInt m b) true)
def execVmulhi (f : FV3) (s : State) := v3 f s 4 (fun _ m a b => elemMulhi m a b)
def execVdiff (f : FV3) (s : State) := v3 f s (offInt f.fmt.toNat 2 3) elemDiff

/-! ## Functions, major 0x21 (R141) -/

/-- A function of one value under FRound. -/
def vfun (f : FV2) (s : State) (off : Nat) (op : Nat → Val → Nat → Bool → Nat × Flags) : Host.Outcome State Fault Refusal :=
  v2 f s off (fun c m a => op m (decodeVal m a) (vrmMode c) (vrmSat c))

/-- VFLOOR and VROUND: an integer value, never NX; the format may have to round a value it cannot hold, which no
integer part of one of its own values is. -/
def elemRint (c : Ctx) (fmt mode a : Nat) : Nat × Flags :=
  match decodeVal fmt a with
  | .nan => (canon fmt, 0)
  | .fin n m e => ((roundTo fmt (roundIntVal mode (.fin n m e)) (vrmMode c) (vrmSat c) 0).1, 0)
  | _ => (a, 0)

/-- VSCALE (R141). -/
def elemScale (c : Ctx) (fmt a b : Nat) : Nat × Flags :=
  match decodeVal fmt a, decodeVal fmt b with
  | .nan, _ => (canon fmt, 0)
  | _, .nan => (canon fmt, 0)
  | .inf _, .inf true => (canon fmt, fNV)
  | .zero _, .inf false => (canon fmt, fNV)
  | x, y => froundOf c fmt (x.scale (floorClamp y), false)

def execVrcp (f : FV2) (s : State) := vfun f s 8 rcpTo
def execVrsq (f : FV2) (s : State) := vfun f s 8 rsqTo
def execVsqrt (f : FV2) (s : State) := vfun f s 8 sqrtTo
def execVexp2 (f : FV2) (s : State) := vfun f s 8 exp2To
def execVlog2 (f : FV2) (s : State) := vfun f s 8 log2To
def execVfloor (f : FV2) (s : State) := v2 f s 3 (fun c m a => elemRint c m 2 a)
def execVround (f : FV2) (s : State) := v2 f s 3 (fun c m a => elemRint c m (vrmMode c) a)
def execVscale (f : FV3) (s : State) := v3 f s 3 elemScale

/-! ## Logic, shifts and counts, major 0x22 (R142) -/

/-- A bitwise operation of two sources. -/
def vbits (f : FV3) (s : State) (op : Nat → Nat → Nat → Nat) : Host.Outcome State Fault Refusal :=
  v3 f s 2 (fun _ m a b => (op (fmtWidth m) a b % 2 ^ fmtWidth m, 0))

def execVand (f : FV3) (s : State) := vbits f s (fun _ a b => a &&& b)
def execVor (f : FV3) (s : State) := vbits f s (fun _ a b => a ||| b)
def execVxor (f : FV3) (s : State) := vbits f s (fun _ a b => a ^^^ b)
def execVandn (f : FV3) (s : State) := vbits f s (fun w a b => a &&& (2 ^ w - 1 - b))
def execVshl (f : FV3) (s : State) := vbits f s (fun w a b => a <<< (b % w))
def execVshr (f : FV3) (s : State) := vbits f s (fun w a b => a >>> (b % w))
def execVsra (f : FV3) (s : State) := vbits f s (fun w a b => ofInt w (toSigned w a / ((2 ^ (b % w) : Nat) : Int)))
def execVpopc (f : FV2) (s : State) := v2 f s 2 (fun _ m a => (popN (fmtWidth m) a, 0))

/-! ## Compare and select, major 0x23 (R143) -/

/-- A compare: the relation on integers, on values, and what a NaN gives. -/
def vcmp (f : FV3) (s : State) (rel : Val → Val → Bool) (nan : Bool × Flags) : Host.Outcome State Fault Refusal :=
  v3 f s 2 (fun _ m a b =>
    let x := decodeVal m a
    let y := decodeVal m b
    let r := if x.isNan || y.isNan then nan else (rel x y, 0)
    (if r.1 then 2 ^ fmtWidth m - 1 else 0, r.2))

def execVceq (f : FV3) (s : State) := vcmp f s (fun x y => x.eqv y) (false, 0)
def execVcne (f : FV3) (s : State) := vcmp f s (fun x y => !x.eqv y) (true, 0)
def execVclt (f : FV3) (s : State) := vcmp f s (fun x y => x.lt y) (false, fNV)
def execVcle (f : FV3) (s : State) := vcmp f s (fun x y => x.lt y || x.eqv y) (false, fNV)
def execVcun (f : FV3) (s : State) := vcmp f s (fun _ _ => false) (true, 0)

/-- VSEL: the mask is Pop(VD), the select bit by bit (R143). -/
def execVsel (f : FV3) (s : State) : Host.Outcome State Fault Refusal :=
  vop s 2 f.vd.toNat [f.va.toNat, f.vb.toNat, f.vd.toNat] (fun _ xs =>
    let m := srcWord xs 2
    ((m &&& srcWord xs 0) ||| (~~~m &&& srcWord xs 1), 0))

/-! ## Reductions, major 0x24 (R144, R145) -/

/-- One level of the tree: neighbours added, each sum rounded to FP32 (R144). -/
def treeLevel (c : Ctx) : List (Val × Flags) → List (Val × Flags)
  | x :: y :: rest =>
    let r := addTo 0x00 x.1 y.1 (vrmMode c) (vrmSat c)
    (decodeVal 0x00 r.1, r.2 ||| x.2 ||| y.2) :: treeLevel c rest
  | xs => xs

/-- The fixed pairwise tree over a group of `2^k` terms (R144). -/
def treeSum (c : Ctx) : Nat → List (Val × Flags) → Val × Flags
  | 0, xs => xs.headD (.zero false, 0)
  | k + 1, xs => treeSum c k (treeLevel c xs)

/-- FP32 pattern of a value that is exactly one. -/
def fp32Pat (v : Val) : Nat := (roundTo 0x00 v 0 false 0).1

/-- The terms of a float reduction: exact, but FP32 products rounded (R144). -/
def floatTerm (c : Ctx) (fmt : Nat) (prod : Bool) (a b : Nat) : Val × Flags :=
  let x := decodeVal fmt a
  if !prod then (x, 0)
  else
    let p := Val.mul x (decodeVal fmt b)
    if fmt = 0x00 then
      let r := froundOf c 0x00 p
      (decodeVal 0x00 r.1, r.2)
    else match p.1 with
      | .nan => (.nan, if p.2 then fNV else 0)
      | v => (v, 0)

/-- The 32-bit result of one group of `2^k` terms (R144). -/
def groupSum (c : Ctx) (fmt : Nat) (prod : Bool) (k : Nat) (g : List (Nat × Nat)) : Nat × Flags :=
  if isIntFmt fmt then
    ifit 0x0A ((g.map (fun p => if prod then decodeInt fmt p.1 * decodeInt fmt p.2 else decodeInt fmt p.1)).sum) (vrmSat c)
  else
    let r := treeSum c k (g.map (fun p => floatTerm c fmt prod p.1 p.2))
    (fp32Pat r.1, r.2)

/-- VSUM, VSUMSQ: all elements into element 0 (R144). -/
def vsumOf (f : FV2) (s : State) (sq : Bool) : Host.Outcome State Fault Refusal :=
  vop s 6 f.vd.toNat [f.va.toNat] (fun c xs =>
    let m := fmt3 f.fmt.toNat
    let es := elemsOf m (srcWord xs 0)
    packRes 0x00 [groupSum c m sq (Nat.log2 (elemsPerWord (fmtWidth m))) (es.map (fun e => (e, e)))])

def execVsum (f : FV2) (s : State) := vsumOf f s false
def execVsumsq (f : FV2) (s : State) := vsumOf f s true

/-- VDOT: 16 groups of E / 16 adjacent elements (R144). -/
def execVdot (f : FV3) (s : State) : Host.Outcome State Fault Refusal :=
  vop s 4 f.vd.toNat [f.va.toNat, f.vb.toNat] (fun c xs =>
    let m := fmt3 f.fmt.toNat
    let n := elemsPerWord (fmtWidth m) / 16
    let ps := List.zip (elemsOf m (srcWord xs 0)) (elemsOf m (srcWord xs 1))
    packRes 0x00 ((chunks n 16 ps).map (groupSum c m true (Nat.log2 n))))

/-- VMAXR, VMINR, VAMAXR: one element of the source format, no flag (R145). -/
def vext (f : FV2) (s : State) (key : Nat → Nat → Nat) (larger : Bool) : Host.Outcome State Fault Refusal :=
  vop s 6 f.vd.toNat [f.va.toNat] (fun _ xs =>
    let m := fmt3 f.fmt.toNat
    let es := (elemsOf m (srcWord xs 0)).map (key m)
    match es with
    | [] => (0, 0)
    | e :: rest => (wordOf m [rest.foldl (fun a b => (elemMin larger m a b).1) e], 0))

def execVmaxr (f : FV2) (s : State) := vext f s (fun _ e => e) true
def execVminr (f : FV2) (s : State) := vext f s (fun _ e => e) false

/-- VAMAXR: the largest magnitude; an integer's magnitude is written unsigned (R145). -/
def execVamaxr (f : FV2) (s : State) : Host.Outcome State Fault Refusal :=
  vop s 6 f.vd.toNat [f.va.toNat] (fun _ xs =>
    let m := fmt3 f.fmt.toNat
    let es := elemsOf m (srcWord xs 0)
    if isIntFmt m then (wordOf m [(es.map (fun e => (decodeInt m e).natAbs)).foldl max 0], 0)
    else if es.any (fun e => (decodeVal m e).isNan) then (wordOf m [canon m], 0)
    else (wordOf m [(es.map (fun e => e % 2 ^ (fmtWidth m - 1))).foldl max 0], 0))

/-! ## VCVT, major 0x25 (R146, R147) -/

/-- Tensor id and index of element `i` of a source, for the generator (R147). -/
def cvtPlace (c : Ctx) (x : VSrc) (i : Nat) : Nat × Nat :=
  match x.slot with
  | some l => (l.entry.tid, tapIndex l + i)
  | none => (0xFFFF, ((c.now - c.release) * 256 + i) % 2 ^ 48)

def execVcvt (f : FVcvt) (s : State) : Host.Outcome State Fault Refusal :=
  vop s 3 f.vd.toNat [f.va.toNat] (fun c xs =>
    let src := fmt3 f.fmt.toNat
    let dst := f.dst.toNat
    match xs with
    | x :: _ =>
      let es := (elemsOf src x.word).take (elemsPerWord (fmtWidth dst))
      packRes dst ((es.zipIdx).map (fun p =>
        let pl := cvtPlace c x p.2
        let r := if vrmCvt c = 4 then drawR (c.qseed.getD 0 0).toNat pl.1 pl.2 else 0
        conv dst src p.1 (vrmCvt c) (vrmSat c) r))
    | [] => (0, 0))

/-! ## Permutes and unpacking, major 0x26 (R148–R151) -/

/-- A permute of one source: element `i` of the result from the elements of the source. -/
def vperm1 (s : State) (d a fmt : Nat) (pick : List Nat → Nat → Nat → Nat) : Host.Outcome State Fault Refusal :=
  vop s 2 d [a] (fun _ xs =>
    let m := fmt3 fmt
    let es := elemsOf m (srcWord xs 0)
    (wordOf m ((List.range es.length).map (pick es es.length)), 0))

/-- A permute of two sources. -/
def vperm2 (f : FV3) (s : State) (pick : List Nat → List Nat → Nat → Nat → Nat) : Host.Outcome State Fault Refusal :=
  vop s 2 f.vd.toNat [f.va.toNat, f.vb.toNat] (fun _ xs =>
    let m := fmt3 f.fmt.toNat
    let es := elemsOf m (srcWord xs 0)
    let fs := elemsOf m (srcWord xs 1)
    (wordOf m ((List.range es.length).map (pick es fs es.length)), 0))

def execVbcast (f : FVn) (s : State) :=
  vperm1 s f.vd.toNat f.va.toNat f.fmt.toNat (fun es _ _ => es.getD f.n.toNat 0)
def execVzip (f : FV3) (s : State) :=
  vperm2 f s (fun es fs _ i => if i % 2 = 0 then es.getD (i / 2) 0 else fs.getD (i / 2) 0)
def execVunzip (f : FV3) (s : State) :=
  vperm2 f s (fun es fs n i => if i < n / 2 then es.getD (2 * i) 0 else fs.getD (2 * (i - n / 2)) 0)
def execVrev (f : FV2) (s : State) :=
  vperm1 s f.vd.toNat f.va.toNat f.fmt.toNat (fun es n i => es.getD (n - 1 - i) 0)
def execVshufl (f : FV3) (s : State) := vperm2 f s (fun es fs n i => es.getD (fs.getD i 0 % n) 0)
def execVrotl (f : FVn) (s : State) :=
  vperm1 s f.vd.toNat f.va.toNat f.fmt.toNat (fun es n i => es.getD ((i + f.n.toNat) % n) 0)

/-- Trit `p` of a T3 byte as an INT8 element, or none for an illegal byte (R149). -/
def tritOf (p b : Nat) : Option Nat :=
  if b ≥ 243 then none
  else
    let q := (256 * b + 242) / 243
    let m := (q * 3 ^ (4 - p)) % 256
    let d := (3 * m) / 256
    some (if d = 0 then 0 else if d = 1 then 1 else 0xFF)

/-- VUNPK3 (R149); with MODE.T3TRAP the record takes effect and T3CODE is taken on the issue cycle. -/
def execVunpk3 (f : FVp) (s : State) : Host.Outcome State Fault Refusal :=
  issue s { handlerOk := false } (fun t => do
    if !(srcStreamOk t.cur f.va.toNat && dstStreamOk t.cur f.vd.toNat) then throw (illegal 0x07)
    let x ← vread t f.va.toNat
    let ts := (fieldsOf 8 128 x.word.toNat).map (tritOf f.p.toNat)
    let nbad := (ts.filter Option.isNone).length
    let v := BitVec.ofNat 1024 (ofFields 8 (ts.map (·.getD 0)))
    if nbad ≠ 0 ∧ bitB t.cur.mode.toNat 1 then
      return (takeStop (s.modCur (fun c => addT3 (orFlags c fT3) nbad)) (.trap 0x19 (ts.findIdx Option.isNone)), .settled)
    return (vresult (vpop t [x]) 2 f.vd.toNat v (if nbad = 0 then 0 else fT3) nbad, .seq 1))

/-- VUNPK4: the chosen half of the nibbles, sign-extended (R151). -/
def execVunpk4 (f : FVh) (s : State) : Host.Outcome State Fault Refusal :=
  vop s 2 f.vd.toNat [f.va.toNat] (fun _ xs =>
    let ns := ((fieldsOf 4 256 (srcWord xs 0).toNat).drop (128 * f.h.toNat)).take 128
    (BitVec.ofNat 1024 (ofFields 8 (ns.map (fun n => ofInt 8 (toSigned 4 n)))), 0))

/-! ## Queue moves and fills, major 0x27 (R152, R153) -/

def execVtoq (f : FVtoq) (s : State) : Host.Outcome State Fault Refusal :=
  issue1 s false (fun s => do
    let x ← vread s f.w.toNat
    let m := fmt3 f.fmt.toNat
    let w := 2 ^ f.wd.toNat
    let k := 8 * f.k3.toNat + f.k.toNat
    let vs := ((elemsOf m x.word).drop (k * w)).take w
    let ws := vs.map (fun v => if isIntFmt m then BitVec.ofInt 64 (decodeInt m v) else BitVec.ofNat 64 v)
    return resultWide (vpop s [x]) 2 (32 + f.q.toNat) ws)

def execVfromq (f : FVfromq) (s : State) : Host.Outcome State Fault Refusal :=
  issue1 s false (fun s => do
    let m := fmt3 f.fmt.toNat
    let w := 2 ^ f.wd.toNat
    let k := 8 * f.k3.toNat + f.k.toNat
    let fs := (List.range w).map (fun i => (32 + f.q.toNat + i, false))
    let vs ← srcVals s fs
    let es := List.replicate (k * w) 0 ++ vs.map (fun v => v.toNat % 2 ^ fmtWidth m)
    return vresult (popSrcs s fs) 2 f.w.toNat (wordOf m es) 0 0)

/-- VIOTA: the element numbers, rounded or fitted (R153). -/
def execViota (f : FViota) (s : State) : Host.Outcome State Fault Refusal :=
  vop s 2 f.vd.toNat [] (fun c _ =>
    let m := fmt3 f.fmt.toNat
    packRes m ((List.range (elemsPerWord (fmtWidth m))).map (fun (i : Nat) =>
      if isIntFmt m then ifit m (i : Int) (vrmSat c) else roundTo m (valOfInt i) (vrmMode c) (vrmSat c) 0)))

def execVzero (f : FVzero) (s : State) : Host.Outcome State Fault Refusal := vop s 2 f.vd.toNat [] (fun _ _ => (0, 0))

end Sys2Proof.Machine
end

