-- ==== Sys2Proof/Machine/Engines.lean ====
section
/-! DEFINITION. What the engines share: elements and scale entries in their storage (R53, R59, R62, R162, R164, R195), held tiles
and the chain of tile writes (R245, R246), dirty bits and shadows (R248, R394), acceptance of commands (R35, R244) and
their step counters (R36). -/

namespace Sys2Proof.Machine

/-! ## Elements -/

/-- `n` bytes from byte `a` of an entry's space on, the scratchpad under the entry's permutation (R53, R56). -/
def entryRead (s : State) (core : Nat) (l : Layout) (a n : Nat) : List Byte :=
  if l.space = 0 then permRead s core l.perm a n else s.mem.readN n (accAddr core a)

/-- Bytes written from byte `a` of an entry's space on (R53, R56). -/
def entryWrite (s : State) (core : Nat) (l : Layout) (a : Nat) (bs : List Byte) : State :=
  if l.space = 0 then permWrite s core l.perm a bs else { s with mem := s.mem.writeN (accAddr core a) bs }

/-- The pattern of element `n` of an entry (R59). -/
def readElem (s : State) (core : Nat) (l : Layout) (n : Nat) : Nat :=
  let a := (l.bitAddr n).toNat
  let w := fmtWidth l.fmt
  bits (ofBytes (entryRead s core l (a / 8) ((a % 8 + w + 7) / 8))) (a % 8 + w - 1) (a % 8)

/-- Element `n` of an entry written (R64). -/
def writeElem (s : State) (core : Nat) (l : Layout) (n v : Nat) : State :=
  let a := (l.bitAddr n).toNat
  let w := fmtWidth l.fmt
  let k := (a % 8 + w + 7) / 8
  entryWrite s core l (a / 8) (bytesOf k (putBits (ofBytes (entryRead s core l (a / 8) k)) (a % 8 + w - 1) (a % 8) v))

/-- The lane word of the elements from `n` on, zero beyond the entry (R62). -/
def loadWord (s : State) (core : Nat) (l : Layout) (n : Nat) : LaneWord :=
  wordOf l.fmt ((List.range l.perWord).map (fun i => if n + i < l.count then readElem s core l (n + i) else 0))

/-- Places of the elements of a word: its granules or tiles, ascending, and the 128-byte rows (R57). -/
def placesOf (ps : List (Nat × Nat)) : List Nat := (ps.map (·.2)).dedup
def rowsOf (ps : List (Nat × Nat)) : List Nat := (ps.map (fun p => p.1 / 128)).dedup

/-- Banks of rows of a space under a permutation (R53, R56). -/
def rowBanks (space perm : Nat) (rows : List Nat) : List Nat :=
  rows.map (fun r => if space = 0 then spBank perm (r * 128) else accBank (r * 128))

/-! ## Scale entries (R59, R162, R164, R195) -/

/-- Numbers of the scale entries of elements `n … n + k − 1`, each once. -/
def scaleNums (l : Layout) (n k : Nat) : List Nat :=
  if l.scaled then (((List.range k).filter (fun i => n + i < l.count)).map (fun i => l.block (n + i))).dedup else []

/-- Byte addresses of scale entries and their granules. -/
def scalePlaces (l : Layout) (ms : List Nat) : List (Nat × Nat) :=
  (ms.flatMap (fun m => (List.range l.scaleBytes).map (fun b => l.scaleAddr m + b))).map (fun a => (a, a / 4096))

def readScale (s : State) (core : Nat) (l : Layout) (m : Nat) : Nat :=
  ofBytes (permRead s core l.perm (l.scaleAddr m) l.scaleBytes)

/-- The scale entry of each element from `n` on. -/
def elemScales (s : State) (core : Nat) (l : Layout) (n k : Nat) : List Nat :=
  if l.scaled then (List.range k).map (fun i => if n + i < l.count then readScale s core l (l.block (n + i)) else 127) else []

/-- The value of an element pattern with its scale entry (R157–R164); a T3 byte has none. The sign of a W4G zero is the product's, q − z counting as a positive zero
(DEDUCED, log 94). -/
def elemValue (fmt pat scale : Nat) : Val :=
  if isMx fmt then
    if scale % 256 = 0xFF then .nan else (decodeVal (elemFmt fmt) pat).scale (((scale % 256 : Nat) : Int) - 127)
  else if fmt = 0x16 then
    (Val.mul (decodeVal 0x01 (scale % 65536)) (valOfInt (decodeInt 0x0E pat - toSigned 8 (bits scale 23 16)))).1
  else decodeVal fmt pat

/-- The tag check of the granules in ascending order (R68): those compared are remembered. -/
def tagCheck (k : CoreSt) (strm : Nat) (tag : Nat) (seen gs : List Nat) : Res Unit :=
  if tag = 0 then .ok ()
  else
    match (gs.filter (fun g => !seen.contains g && (k.tags.getD g 0) != tag)).min? with
    | none => .ok ()
    | some g => .error (.trap 0x05 (g + (k.tags.getD g 0) * 2 ^ 16 + strm * 2 ^ 32))

/-- Bank accesses of scale rows, each distinct row once (R57, R195). Rows come by the place that holds them, under code 0. -/
def useScaleRows (s : State) (rows : List (Nat × Nat)) : Res State :=
  useBanks s (rows.dedup.map (fun r => spBank r.2 (r.1 * 128)))

/-- The checks of a scale read of a tapped word of entry `l` for an engine, and the rows it reads (R195, R247, R252, R399). -/
def scaleCheck (s : State) (strm : Nat) (l : Layout) (n k eng : Nat) : Res (State × List (Nat × Nat)) :=
  match s.cur.strms.find strm with
  | none => .ok (s, [])
  | some st =>
    if !l.scaled then .ok (s, [])
    else do
      let ps := scalePlaces l (scaleNums l n k)
      let gs := placesOf ps
      footCheck s.cur eng false 0 gs
      tagCheck (s.core s.curCore) strm l.tag st.seenScale gs
      match rowPoison (s.core s.curCore) ((rowsOf ps).map (permKey 0 l.perm)) with
      | some p => throw (.trap 0x15 (poisonInfo p 3 (gs.headD 0)))
      | none => pure ()
      let st1 := { st with seenScale := (st.seenScale ++ gs).dedup }
      return (s.modCur (fun c => { c with strms := c.strms.set strm st1 }), (rowsOf ps).map (fun r => (permAddr l.perm (r * 128) / 128, 0)))

/-! ## Tiles -/

/-- A tile's rows `i … i + n − 1` as element patterns, row-major (R53). -/
def readRows (s : State) (core tile i n : Nat) : List Nat :=
  fieldsOf 32 (64 * n) (ofBytes (s.mem.readN (256 * n) (accAddr core (16384 * tile + 256 * i))))

/-- Rows of a tile written from row `i` on. -/
def writeRows (s : State) (core tile i : Nat) (es : List Nat) : State :=
  { s with mem := s.mem.writeN (accAddr core (16384 * tile + 256 * i)) (es.flatMap (bytesOf 4)) }

def readTileElem (s : State) (core tile i j : Nat) : Nat :=
  ofBytes (s.mem.readN 4 (accAddr core (16384 * tile + 256 * i + 4 * j)))

def writeTileElem (s : State) (core tile i j v : Nat) : State :=
  { s with mem := s.mem.writeN (accAddr core (16384 * tile + 256 * i + 4 * j)) (bytesOf 4 v) }

/-- A command writes tiles, and holds the tiles it reads or writes, from issue to its last write (R245, R246). -/
def Cmd.holds (x : Cmd) (tile now : Nat) : Bool :=
  x.station == 1 && x.kind != .accmv && decide (x.issue ≤ now ∧ now ≤ x.last)
    && (x.tile == tile || ((x.kind == .trsm || x.kind == .grot) && x.tile2 == tile))

/-- AMOSLOT 0x03 of an access to a held tile (R246). -/
def heldCheck (c : Ctx) (tiles : List Nat) : Res Unit :=
  match tiles.find? (fun t => c.cmds.any (fun x => x.holds t c.now)) with
  | some t => .error (.trap 0x0F (0x03 + t * 2 ^ 16 + 2 ^ 24))
  | none => .ok ()

/-- A write of cycle `w` comes before the commit of phase `q`, whose PHASE the core has reported (R121, R394). -/
def beforeCommit (s : State) (q w : Nat) : Bool :=
  (s.dom s.curPart (s.slotOf s.curCore)).reports.any (fun r => r.1 == s.curCore && r.2.1 == q + 1 && decide (w < r.2.2 + Config.hop))

/-- A tile whose dirty bit is still of the phase before on the cycle `w` of the command's first write takes FOOTPRINT with EINFO[20] (R394). -/
def dirtyCheck (s : State) (eng : Nat) (tiles : List Nat) (w : Nat) : Res Unit :=
  match (tiles.filter (fun t => (s.core s.curCore).dirty.any (fun x => x.1 / 32 == t && x.2 != phaseNow s && beforeCommit s x.2 w))).min? with
  | some t => .error (.trap 0x09 (footInfo eng true 1 t (2 ^ 20)))
  | none => .ok ()

/-- Key of a tile's dirty bit of a phase. -/
def dirtyKey (tile ph : Nat) : Nat := tile * 32 + ph % 32

/-- Key of a row of the shadow that a phase has of a tile, in the poison table (R397). -/
def shadowKey (ph row : Nat) : Nat := (2 + ph % 32) * 2 ^ 20 + row

/-- The marks of a tile's rows copied from keys to keys. -/
def copyMarks (m : NMap Nat) (tile : Nat) (src dst : Nat → Nat) : NMap Nat :=
  (List.range 128).foldl (fun m i =>
    let r := 128 * tile + i
    match m.find (src r) with
    | some p => m.set (dst r) p
    | none => m.erase (dst r)) m

/-- The first write to a tile in a phase copies it to its shadow and sets its dirty bit (R248); a bit that the phase before has set stays
beside it (R394). -/
def markDirty (s : State) (tile : Nat) : State :=
  let k := s.core s.curCore
  let ph := phaseNow s
  if (k.dirty.find (dirtyKey tile ph)).isSome then s
  else
    let core := s.curCore
    let bs := s.mem.readN 16384 (accAddr core (16384 * tile))
    { s with mem := s.mem.writeN (shadowAddr core ph (16384 * tile)) bs }.setCore core
      { k with dirty := k.dirty.set (dirtyKey tile ph) ph, poison := copyMarks k.poison tile (fun r => 2 ^ 20 + r) (shadowKey ph) }

/-! ## Poison marks -/

/-- A store of a word clears the marks of the rows that it fills whole and gives the word's mark, if any, to the rows that it touches
(R398). -/
def markRows (s : State) (keys : List Nat) (full : List Nat) (poison : Option Nat) : State :=
  s.modCore (fun k => { k with poison := keys.foldl (fun m r =>
    match poison with
    | some p => m.set r ((mergePoison (if full.contains r then none else m.find r) (some p)).getD p)
    | none => if full.contains r then m.erase r else m) k.poison })

/-! ## Commands -/

/-- A new command of a station. -/
def Cmd.fresh (c : Ctx) (station : Nat) (kind : CmdKind) : Cmd :=
  let z : Layout := ⟨0, 0, 0, 0, 0, 0⟩
  { station := station, kind := kind, issue := c.now, addr := c.pc, tile := 0, tile2 := 0, sa := 0, sb := 0, entA := z,
    entB := z, mode := 0, acc := false, ta := false, tb := false, dimM := 0, dimN := 0, dimK := 0, lead := 0, cycles := 0,
    last := c.now, wordsA := [], wordsB := [], scalesA := [], scalesB := [], places := [], prior := [], out := [],
    outFlags := 0, supers := 0, skip := [], wrote := false, rnd := 0, seed := 0, rescale := false, amax := 0, qt := 0, latched := none,
    poison := none }

/-- A command issued to a station that cannot accept it takes ILLEGAL 0x0002 (R35). -/
def busyCheck (station : Nat) (s : State) : Res Unit :=
  if s.cur.freeAt.getD station 0 > s.cur.now then .error (illegal (0x02 + station * 2 ^ 8)) else .ok ()

/-- A command that names a closed stream takes LANE 0x04 (R414). -/
def closedCheck (c : Ctx) (station : Nat) (ss : List Nat) : Res Unit :=
  match (ss.filter (fun n => (c.strms.find n).isNone)).min? with
  | some n => .error (.trap 0x04 (laneInfo 0x04 station 0 false n))
  | none => .ok ()

/-- The command accepted, the station busy for its interval. -/
def accept (s : State) (x : Cmd) (interval : Nat) : State :=
  s.modCur (fun c => { c with cmds := c.cmds ++ [x], freeAt := c.freeAt.set x.station (c.now + interval) })

/-- A command replaced by its next state. -/
def putCmd (c : Ctx) (x : Cmd) : Ctx :=
  { c with cmds := c.cmds.map (fun y => if y.issue == x.issue && y.station == x.station then x else y) }

/-- Steps of a factorisation and their length (R267). -/
def givensSteps (m n : Nat) : Nat := ((List.range (min n (m - 1))).map (fun j => m - 1 - j)).sum
def factSteps (x : Cmd) : Nat × Nat :=
  match x.kind with
  | .chol => (x.dimN, 16)
  | .lup => (min x.dimM x.dimN, 20)
  | .trsm => (x.dimN, 8)
  | .givqr => (givensSteps x.dimM x.dimN, 4)
  | .grot => (givensSteps x.dimM x.dimN, 2)
  | _ => (0, 1)

/-- The step counter as it stands before cycle `now` (R36, R193, R252, R258–R260, R267). -/
def Cmd.step (x : Cmd) (now : Nat) : Nat :=
  match x.kind with
  | .quant => min x.dimM (now - x.issue) + min x.dimN (now - (x.issue + x.dimM + 3))
  | .dequant => min x.dimM (now - x.issue) + min x.dimN (now - (x.issue + x.dimM + 3))
  | .mma => min x.cycles (now - (x.issue + x.lead)) + b2n (decide (now > x.last))
  | .accz => b2n (decide (now > x.issue))
  | .accld => min (2 * x.dimM) (now - x.issue) + b2n (decide (now > x.last))
  | .accadd => min (2 * x.dimM) (now - x.issue) + b2n (decide (now > x.last))
  | .accmv => min x.dimN (now - (x.issue + 2))
  | _ =>
    let sq := factSteps x
    min sq.1 ((now - 1 - x.issue) / sq.2)

/-- The command of a station that is in progress: the latest of those with effects still to come, be it that a later short one has retired before it
(R262, R263; DESIGN CHOICE, log 85). -/
def currentCmd (c : Ctx) (station : Nat) : Option Cmd :=
  (c.cmds.filter (fun x => x.station == station)).foldl (fun b x => match b with
    | none => some x
    | some y => if y.issue < x.issue then some x else some y) none

/-- The step counter of a station: of its current command, or, where none is in progress, of its latest (R262). -/
def stationStep (c : Ctx) (station : Nat) : Nat :=
  match currentCmd c station with
  | some x => x.step c.now
  | none => c.lastStep.getD station 0

/-- A MCBASE of `n` rows issues: the latest command of station 7, a row a cycle from t + 1 on (R233, R262). -/
def baseIssued (c : Ctx) (n : Nat) : Ctx := { c with lastStep := (c.lastStep.set 7 n).set 15 c.now }

/-- The step counter of station 7: the rows that its latest MCBASE has read (R36, R233, R262). -/
def baseStep (c : Ctx) : Nat :=
  match c.lastStep.find 15 with
  | some t => min (c.lastStep.getD 7 0) (c.now - 1 - t)
  | none => 0

/-- A command that has ended leaves its step counter behind (R262). -/
def retire (c : Ctx) (x : Cmd) : Ctx :=
  let d := { c with cmds := c.cmds.filter (fun y => !(y.issue == x.issue && y.station == x.station)) }
  if c.lastStep.getD (x.station + 8) 0 ≤ x.issue then
    { d with lastStep := (c.lastStep.set x.station (x.step (c.now + 1))).set (x.station + 8) x.issue }
  else d

/-- Commands whose last event lies on this cycle or before leave their engines. -/
def retireDone (c : Ctx) : Ctx := (c.cmds.filter (fun x => decide (x.last ≤ c.now))).foldl retire c

end Sys2Proof.Machine
end

