-- ==== Sys2Proof/Machine/Access.lean ====
section
/-! DEFINITION. The access unit of a context: entering a request (R307, R308), the forwarding table (R309), departure, retry and
fatal answers (R306, R311, R312), landing (R308). -/

namespace Sys2Proof.Machine

/-- Number of a context: four to a core (R377). -/
def ctxKey (core slot : Nat) : Nat := core * 4 + slot

/-- A request of the current context that issues now (R307, R315): a load is stamped at issue with the phase in which it issues. -/
def auNew (s : State) (op : AuOp) (va size : Nat) : AuReq :=
  let c := s.cur
  { seqNo := c.auNext, op := op, va := va, size := size, signed := false, b0 := 0, b1 := 0, cas := false, dest := 0, pc := c.pc,
    issue := c.now, phase := phaseNow s, stampPh := phaseNow s % 2 ^ 16, stampSsn := c.ssn.toNat % 2 ^ 16, land := 0, tag := 0,
    place := .lot, value := 0, left := [], poison := none, cause := 0, why := 0, rag := 0, forwarded := false, gap := false, came := 0, ahead := 0 }

/-- A request stands in the lot, or would, had it not departed before the replay issued it again (R339, R404). -/
def AuReq.lotted (r : AuReq) : Bool := r.place == .lot || (r.gated && r.ahead == 2)

/-- Requests in the filling lot, COLSTARTs among them: those of the present phase (R307, R324, R365). -/
def lotCount (s : State) : Nat :=
  (s.cur.aus.filter (fun r => r.lotted && r.phase == phaseNow s)).length + (s.cur.cols.filter (fun x => x.phase == phaseNow s)).length
    + againCols s.cur (phaseNow s)

/-- A full lot takes ILLEGAL class 0x12, reason 0x05 (R326); a paged atomic fills a place of it too. -/
def lotRoom (s : State) (operand : Nat) : Res Unit :=
  if lotCount s ≥ 256 then .error (illegalOp 0x12 0x05 operand) else .ok ()

/-- Result entry reserved by the request that issues now, in its place among the appends of the cycle (R46, R308). -/
def reserveQ (c : Ctx) (d seqNo : Nat) : Ctx :=
  if d = 0 then c
  else { c with flight := c.flight ++ [{ issue := c.now, addr := c.pc, perf := c.now, act := .reserve d seqNo, flags := 0, t3 := 0,
                                         poison := none, late := false }] }

/-! ## Forwarding (R309) -/

/-- A store that has not yet performed at its owner. -/
def AuReq.forwards (r : AuReq) : Bool :=
  r.op == .store && (r.place == .lot || r.place == .held || r.place == .departed || r.place == .queued || r.place == .untaken)

/-- The request covers a byte. -/
def AuReq.covers (r : AuReq) (a : Nat) : Bool := decide (r.va ≤ a ∧ a < r.va + r.size)

/-- The byte that the youngest covering store of lower number than `n` gives. -/
def forwardByte (c : Ctx) (n a : Nat) : Option Nat :=
  ((c.aus.filter (fun r => r.forwards && r.covers a && decide (r.seqNo < n))).getLast?).map
    (fun r => bits r.b0.toNat (8 * (a - r.va) + 7) (8 * (a - r.va)))

/-- The bytes of a load that its own stores give: all, none, or in part. -/
def forwardBytes (c : Ctx) (n va size : Nat) : List (Option Nat) :=
  (List.range size).map (fun i => forwardByte c n (va + i))

/-- The value of bytes, lowest first. -/
def ofByteNats (bs : List Nat) : Nat := ofFields 8 bs

/-- A load, line fill or touch on its issue cycle or when it may go on: forwarded, waiting for the stores that it overlaps or for the request
before it that halts the unit, or departed (R307, R309, R311). -/
def loadDepart (c : Ctx) (r : AuReq) : AuReq :=
  let fs := forwardBytes c r.seqNo r.va r.size
  if r.place == .lot && fs.all Option.isSome then
    { r with place := if r.op == .touch then .landed else .performed, value := ofByteNats (fs.map (·.getD 0)),
             land := r.issue + 23, forwarded := true }
  else if fs.any Option.isSome || c.auHalt.any (· < r.seqNo) then { r with place := .waiting }
  else { r with place := .departed }

/-- A request enters the context's sequence (R307). One that a replay issues, and that departed before the cancel because its core had halted, goes on where
it stands, so that it performs once; a faulted one is sent anew (R339, R404; DEDUCED, log 99). -/
def auEnter (s : State) (r : AuReq) : State :=
  s.modCur (fun c =>
    let mine (x : AuReq) : Bool := x.seqNo == r.seqNo && x.ahead == 1
    if c.aus.any (fun x => mine x && x.place != .faulted) then
      { c with auNext := c.auNext + 1, aus := c.aus.map (fun x => if mine x then { x with ahead := 2 } else x) }
    else
      let d := { c with aus := c.aus.filter (fun x => !mine x) }
      { d with auNext := c.auNext + 1, aus := d.aus ++ [if r.gated then r else loadDepart d r] })

/-- Waiting loads that may go now depart, in sequence order. -/
def releaseLoads (c : Ctx) : Ctx :=
  { c with aus := c.aus.map (fun r => if r.place == .waiting then loadDepart c r else r) }

/-! ## Faults and answers (R306, R311, R312) -/

/-- The request with a number changed. -/
def auMod (c : Ctx) (n : Nat) (f : AuReq → AuReq) : Ctx :=
  { c with aus := c.aus.map (fun r => if r.seqNo == n then f r else r) }

/-- The pending entry of a request replaced wherever it stands. -/
def auEntry (c : Ctx) (n : Nat) (e : QEntry) : Ctx :=
  { c with q := c.q.map (fun p => (p.1, p.2.map (fun x => if x == .pending n then e else x))) }

/-- The halted request, the untaken ones and those kept back are sent, and the waiting loads go (R311). -/
def auRestart (c : Ctx) : Ctx :=
  releaseLoads { c with auHalt := none
                        aus := c.aus.map (fun r => if r.place == .untaken || r.place == .held then { r with place := .departed } else r) }

/-- A fatal answer marks the request faulted; a unit that is not halted at another one goes on with the next, and at one that is the earlier loads that
waited for a faulted store go (R309, R311, R312). While it is halted at another one no trap reaches the core: `headQ` holds what meets the entry. -/
def auFatal (c : Ctx) (n cause why rag : Nat) : Ctx :=
  (if c.auHalt.any (· != n) then releaseLoads else auRestart) (auEntry (auMod c n (fun r => { r with place := .faulted, cause := cause, why := why, rag := rag })) n (.faulted n))

/-- The unit halts at an unmapped request, the lowest where two owners report one; later requests of the context at that owner come back untaken
(R311). -/
def auHaltAt (c : Ctx) (n : Nat) : Ctx :=
  let owner := ((c.aus.find? (fun r => r.seqNo == n)).map (fun r => r.va / 2 ^ 48)).getD 0
  { c with auHalt := some (min n (c.auHalt.getD n))
           aus := c.aus.map (fun r =>
             if r.seqNo == n || (decide (r.seqNo > n) && r.va / 2 ^ 48 == owner
               && r.place == .departed) then { r with place := .untaken } else r) }

/-- The word that a load's bytes make (R320). -/
def loadWordOf (r : AuReq) : Word :=
  if r.signed then BitVec.ofInt 64 (toSigned (8 * r.size) r.value) else BitVec.ofNat 64 r.value

/-- The data of a request lands: its entry becomes valid (R46, R308). -/
def auLand (c : Ctx) (n : Nat) (v : Word) (t : Nat) : Ctx :=
  match c.aus.find? (fun r => r.seqNo == n) with
  | none => c
  | some r => auEntry (auMod c n (fun r => { r with place := .landed, land := t })) n (.val v r.poison)

end Sys2Proof.Machine
end

