-- ==== Sys2Proof/Machine/Paging.lean ====
section
/-! DEFINITION. The owner of a paged address: pages and frames (R303, R304), the checks of a request (R305), race tags (R314–R316),
reads, writes and atomics of paged bytes (R290, R317, R318), and the paged accesses of system cores (R340, R403). -/

namespace Sys2Proof.Machine

/-! ## Addresses (R302–R304) -/

/-- Package, die and offset of a virtual address (R302). -/
def vaPkg (va : Nat) : Nat := bits va 56 51
def vaDie (va : Nat) : Nat := bits va 50 48
def vaOff (va : Nat) : Nat := bits va 47 0

/-- A page: its first page number, whether it is 2 MiB, and its entry's words (R303, R304). -/
structure Page where
  first : Nat
  big : Bool
  w0 : Nat
  w1 : Nat
  deriving DecidableEq, Repr

namespace Page
def frame (p : Page) : Nat := bits p.w0 31 8
def next (p : Page) : Nat := bits p.w1 23 0
def key (p : Page) : Nat := bits p.w0 47 32
/-- Bytes of a page. -/
def size (p : Page) : Nat := if p.big then 2 ^ 21 else 2 ^ 16
end Page

/-- Word `w` of the entry of a page number. -/
def pteWord (d : DieSt) (page w : Nat) : Nat := (d.pte.getD (page * 2 + w) 0).toNat

/-- The page of an offset in the page table; a 2 MiB page has its entry at its first page number (R303, R304). -/
def pageAt (d : DieSt) (off : Nat) : Option Page :=
  let p := bits off 47 16
  let b := p / 32 * 32
  if bitB (pteWord d b 0) 0 && bitB (pteWord d b 0) 1 then some ⟨b, true, pteWord d b 0, pteWord d b 1⟩
  else if bitB (pteWord d p 0) 0 then some ⟨p, bitB (pteWord d p 0) 1, pteWord d p 0, pteWord d p 1⟩
  else none

/-- The page of an offset in the translation buffer. -/
def tlbPage (d : DieSt) (off : Nat) : Option Page :=
  let p := bits off 47 16
  let b := p / 32 * 32
  match d.tlb.find b with
  | some e => if bitB e.1 1 || b = p then some ⟨b, bitB e.1 1, e.1, e.2⟩ else (d.tlb.find p).map (fun e => ⟨p, bitB e.1 1, e.1, e.2⟩)
  | none => (d.tlb.find p).map (fun e => ⟨p, bitB e.1 1, e.1, e.2⟩)

/-- Translation through the buffer, a miss walking the table; `dropped` where the buffer has let the entry go (R304, R305, R406). -/
def translate (d : DieSt) (off : Nat) (dropped : Bool) : Option (Page × DieSt) :=
  match (if dropped then none else tlbPage d off) with
  | some p => some (p, d)
  | none => (pageAt d off).map (fun p => (p, { d with tlb := d.tlb.set p.first (p.w0, p.w1) }))

/-- The page of an offset as its owner sees it: in the buffer, or in the table (R305). -/
def seenPage (d : DieSt) (off : Nat) : Option Page := match tlbPage d off with | some p => some p | none => pageAt d off

/-- The line of a frame that an offset of a page lies in, by frame · 1024 and line (R303, R398). -/
def lineOf (p : Page) (frame off : Nat) : Nat :=
  let k := off - p.first * 65536
  (frame + k / 65536) * 1024 + k % 65536 / 64

/-- Address of an offset of a page in a frame of a die (R303). -/
def physAt (die : Nat) (p : Page) (frame off : Nat) : Nat :=
  let k := off - p.first * 65536
  frameAddr die (frame + k / 65536) (k % 65536)

/-! ## Bytes of pages (R317, R318) -/

/-- The pieces of 64-byte lines that bytes `off … off + n − 1` touch: offset and length. -/
def linesOf (off n : Nat) : List (Nat × Nat) :=
  (List.range (n / 64 + 2)).filterMap (fun i =>
    let lo := max off ((off / 64 + i) * 64)
    let hi := min (off + n) ((off / 64 + i + 1) * 64)
    if lo < hi then some (lo, hi - lo) else none)

/-- Bytes of paged space of a die, zero where nothing is mapped. -/
def pageRead (s : State) (die off n : Nat) : List Byte :=
  (linesOf off n).flatMap (fun l =>
    match seenPage (s.die die) l.1 with
    | some p => s.mem.readN l.2 (physAt die p p.frame l.1)
    | none => List.replicate l.2 0#8)

/-- Bytes written to paged space of a die; a line already copied by a migration is written in both frames (R318). -/
def pageWrite (s : State) (die off : Nat) (bs : List Byte) : State :=
  (linesOf off bs.length).foldl (fun s l =>
    let d := s.die die
    let part := (bs.drop (l.1 - off)).take l.2
    match seenPage d l.1 with
    | none => s
    | some p =>
      let s1 := { s with mem := s.mem.writeN (physAt die p p.frame l.1) part }
      match d.migr.find? (fun m => m.page == p.first) with
      | some m => if m.copied.contains (l.1 / 64) then { s1 with mem := s1.mem.writeN (physAt die p m.newFrame l.1) part } else s1
      | none => s1) s

/-- The lines of frames that hold the line of an offset: the page's, and where a migration has copied it the new one (R318). -/
def heldLines (d : DieSt) (off : Nat) : List Nat :=
  match seenPage d off with
  | none => []
  | some p => lineOf p p.frame off :: (match d.migr.find? (fun m => m.page == p.first) with
    | some m => if m.copied.contains (off / 64) then [lineOf p m.newFrame off] else []
    | none => [])

/-- The mark of paged lines: it stays with the line of the frame, whatever page the frame is mapped to (R398). -/
def linePoison (d : DieSt) (off n : Nat) : Option Nat :=
  ((linesOf off n).filterMap (fun l => (seenPage d l.1).bind (fun p => d.pagePoison.find (lineOf p p.frame l.1)))).min?

/-- A mark put on a line, which takes it where it is written whole and else keeps the lower one; a line written whole without one loses its mark (R398). -/
def setMark (m : NMap Nat) (l : Nat) (whole : Bool) (poison : Option Nat) : NMap Nat :=
  match poison with
  | some p => m.set l ((mergePoison (if whole then none else m.find l) (some p)).getD p)
  | none => if whole then m.erase l else m

/-- A write's mark on its lines (R318, R398). -/
def markLines (s : State) (die off n : Nat) (poison : Option Nat) : State :=
  let d := s.die die
  s.setDie die { d with pagePoison := (linesOf off n).foldl (fun m l =>
    (heldLines d l.1).foldl (fun m x => setMark m x (l.2 == 64) poison) m) d.pagePoison }

/-! ## Race tags (R314–R316) -/

/-- A paged access with its stamp and key (R313, R315). -/
structure PAcc where
  op : AuOp
  agent : Nat
  pbase : Nat
  ph : Nat
  ssn : Nat
  key : Nat
  deriving DecidableEq, Repr

/-- A record is ordered before an access (R315). -/
def tagOrdered (ag pb ph ssn : Nat) (a : PAcc) : Bool :=
  ssn != a.ssn || ag == a.agent || (ag / 1024 == a.agent / 1024 && pb == a.pbase && ph != a.ph)

/-- RACEAG of a record (R313). -/
def raceAgent (ag ph ssn : Nat) : Nat := ag % 2 ^ 16 + ph * 2 ^ 16 + ssn * 2 ^ 32

/-- The tag of a granule checked and updated by an access: WHY and RACEAG of a race, or the new tag (R316). -/
def tagAccess (t : Nat) (a : PAcc) : Except (Nat × Nat) Nat :=
  let wOrd := tagOrdered (bits t 15 0) (bits t 18 16) (bits t 34 19) (bits t 50 35) a
  let rOrd := tagOrdered (bits t 68 53) (bits t 71 69) (bits t 87 72) (bits t 103 88) a
  let wAg := raceAgent (bits t 15 0) (bits t 34 19) (bits t 50 35)
  let rAg := raceAgent (bits t 68 53) (bits t 87 72) (bits t 103 88)
  let atomic := a.op == .atomic
  if a.op == .load || a.op == .fill then
    if bitB t 51 && !wOrd then .error (3, wAg)
    else if !bitB t 104 || rOrd then
      .ok (bits t 52 0 + a.agent % 2 ^ 16 * 2 ^ 53 + a.pbase % 8 * 2 ^ 69 + a.ph % 2 ^ 16 * 2 ^ 72 + a.ssn % 2 ^ 16 * 2 ^ 88 + 2 ^ 104)
    else if bits t 68 53 != a.agent then .ok (putBits t 105 105 1)
    else .ok t
  else
    if bitB t 51 && !wOrd && !(bitB t 52 && atomic) then .error (1, wAg)
    else if !atomic && bitB t 104 && !rOrd && (bitB t 105 || bits t 68 53 != a.agent) then .error (2, rAg)
    else
      let w := a.agent % 2 ^ 16 + a.pbase % 8 * 2 ^ 16 + a.ph % 2 ^ 16 * 2 ^ 19 + a.ssn % 2 ^ 16 * 2 ^ 35 + 2 ^ 51
        + b2n atomic * 2 ^ 52
      .ok (if atomic then putBits t 52 0 w else putBits (putBits t 52 0 w) 104 104 0)

/-! ## The owner's checks (R305) -/

/-- Granule offsets that an access touches. -/
def gransOf (off size : Nat) : List Nat :=
  (List.range (size / 4096 + 2)).filterMap (fun i =>
    let g := off / 4096 + i
    if g * 4096 < off + size then some g else none)

/-- The right that an operation needs (R304, R305). -/
def hasRight (p : Page) (op : AuOp) : Bool :=
  match op with
  | .load | .fill | .touch => bitB p.w0 2
  | .store | .migr => bitB p.w0 3
  | .atomic => bitB p.w0 4 && bitB p.w0 2 && bitB p.w0 3
  | .rstq => true

/-- One granule of an access at its owner: the cause, WHY and RACEAG of its fault, or the die's tables after it. A touch takes no race
check (DESIGN CHOICE, log 86). -/
def judgeGranule (d : DieSt) (a : PAcc) (va g : Nat) (dropped : Bool) : Except (Nat × Nat × Nat) DieSt :=
  match translate d (g * 4096) dropped with
  | none => .error (0x0C, 1, 0)
  | some (p, d1) =>
    if p.key != a.key then .error (0x0D, 1, 0)
    else if !hasRight p a.op then .error (0x0D, 2, 0)
    else if a.op == .migr && va % p.size != 0 then .error (0x0D, 3, 0)
    else if bitB p.w0 5 && a.op != .touch && a.op != .migr then
      match tagAccess (d1.race.getD g 0) a with
      | .error (why, ag) => .error (0x0E, why, ag)
      | .ok t => .ok { d1 with race := d1.race.set g t }
    else .ok d1

/-- An access at its owner: every granule, the first fault deciding; a fault changes no tag (R305). -/
def judge (d : DieSt) (a : PAcc) (va size : Nat) (dropped : Bool) : Except (Nat × Nat × Nat) DieSt :=
  (gransOf (vaOff va) size).foldlM (fun d g => judgeGranule d a (vaOff va) g dropped) d

/-! ## Requests in the channels' queues -/

/-- A request of a context. -/
def auReqOf (s : State) (key n : Nat) : Option AuReq := (s.ctxOf (key / 4) (key % 4)).aus.find? (fun r => r.seqNo == n)

/-- Address and size of a request at a die, as `PagedPart` names it. -/
def queuedReq (s : State) (die key id : Nat) : Option (Nat × Nat) :=
  if key = 0 then ((s.die die).ext.find? (fun q => q.id == id)).map (fun q => (q.va, q.size))
  else (auReqOf s (key - 1) id).map (fun r => (r.va, r.size))

/-- Offset and length of a part of a request. -/
def partSpan (va size part : Nat) : Nat × Nat := (linesOf (vaOff va) size).getD part (vaOff va, 0)

/-- The page holds an offset. -/
def Page.holds (p : Page) (off : Nat) : Bool := decide (p.first * 65536 ≤ off ∧ off < p.first * 65536 + p.size)

/-! ## Paged operations -/

/-- The new word of a paged atomic (R290). -/
def pagedNew (x b0 b1 : Nat) (cas : Bool) : Nat := if cas then (if x = b0 then b1 else x) else (x + b0) % 2 ^ 64

/-! ## System cores (R340, R403) -/

/-- A paged request of the current system core goes to its owner; what it stores, adds or compares is given (R403). -/
def sysAsk (s : State) (op : AuOp) (va size b0 : Nat) (cas : Option Nat) : State :=
  let owner := if vaPkg va = s.pkg.pkg then vaDie va else s.curSys / 2
  let d := s.die owner
  let q : ExtReq :=
    { id := s.free, op := op, va := va, size := size, agent := Config.sysAgent s.curSys, pbase := s.partOfDie (s.curSys / 2),
      ph := Config.sysPhase s.curSys, ssn := 0, key := Config.sysKey s.curSys, value := b0, cas := cas, run := none,
      sys := some s.curSys, queued := false, left := [], poison := none }
  let t := { s with free := s.free + 1 }.setDie owner { d with ext := d.ext ++ [q] }
  t.setSys { t.sys with req := some q.id }

/-- A paged access of the current system core: it goes to its owner, and the core waits for the answer (R403). -/
def sysPaged (s : State) (op : AuOp) (va size b0 : Nat) (cas : Option Nat) (finish : State → Nat → State) : Res (State × Flow) :=
  let x := s.sys
  match x.ans with
  | some (cause, v) =>
    if cause = 0 then .ok (finish (s.setSys { x with req := none, ans := none }) v, .seq 1)
    else .error (.trap cause (va % 2 ^ 57 + v * 2 ^ 60))
  | none =>
    if x.req.isSome then .ok (s, .settled)
    else .ok (sysAsk s op va size b0 cas, .settled)

end Sys2Proof.Machine
end

