-- ==== Sys2Proof/Machine/Atomics.lean ====
section
/-! DEFINITION. Atomics, RSTQ and ready flags: majors 0x1F and part of 0x1E (R286–R301), the cycles of an atomic (R287–R289), and
the undo store (R394). -/

namespace Sys2Proof.Machine

/-! ## Scratchpad atomics (R286–R289) -/

/-- Operand A of an atomic breaks R286 (R301). -/
def atomicBad (a : Nat) : Bool := a % 8 != 0 || bitB a 23 || decide (bits a 27 24 > 4) || a >>> 28 != 0

/-- An operand of an atomic is judged before a trap of another operand (R89, R301). -/
def operandFirst (s : State) (a : Src) (ok : Nat → Bool) (cls reason : Nat) : Res Unit :=
  peekCheck s a (fun x => if ok x.toNat then .ok () else .error (illegalOp cls reason x.toNat))

/-- An atomic enters its reserved cycles (R287). -/
def atomicIssue (s : State) (op : Nat) (a b : Src) (pair : Bool) (d : Nat) : Res (State × Flow) := do
  operandFirst s a (fun x => !atomicBad x) 0x11 0x01
  let bs := if pair then [b, (b.1 + 1, b.2)] else [b]
  let vs ← srcVals s (a :: bs)
  let x := (vs.headD 0).toNat
  return ((popSrcs s (a :: bs)).modCur (fun c => { c with atomics := c.atomics ++
    [{ issue := c.now, addr := c.pc, op := op, a := bits x 22 0, perm := bits x 27 24, b0 := vs.getD 1 0, b1 := vs.getD 2 0,
       d := d, x := none, poison := none }] }), .seq 1)

/-- A scratchpad atomic (R286–R289). -/
def atomic (f : FDAB) (op : Nat) (s : State) : Host.Outcome State Fault Refusal :=
  issue s { handlerOk := false } (fun s =>
    atomicIssue s op (f.a.toNat, f.ka) (f.b.toNat, f.kb) (op == 3) f.d.toNat)

def execAmoadd (f : FDAB) (s : State) := atomic f 0 s
def execAmomax (f : FDAB) (s : State) := atomic f 1 s
def execAmoswp (f : FDAB) (s : State) := atomic f 2 s
def execAmocas (f : FDAB) (s : State) := atomic f 3 s

/-- The new word of an atomic operation (R288). -/
def atomicNew (op : Nat) (x b0 b1 : Word) : Word :=
  match op with
  | 0 => x + b0
  | 1 => if x.slt b0 then b0 else x
  | 2 => b0
  | _ => if x = b0 then b1 else x

/-- An atomic on its cycle t + 1: the reservation and footprint checks, the read, and the old value on its way to D (R287, R289). A mark
of the row goes with the value (R398). -/
def atomicRead (s : State) (x : Atomic) : Res State := do
  let c := s.cur
  let b := spBank x.perm x.a
  match c.atomics.find? (fun y => decide (y.issue < x.issue ∧ c.now ≤ y.issue + 3) && spBank y.perm y.a == b) with
  | some y => throw (.trap 0x0F (0x01 + (b / 16 % 4) * 2 ^ 8 + (b % 16) * 2 ^ 12 + y.addr * 2 ^ 32))
  | none => pure ()
  footCheck c 3 true 0 [x.a / 4096]
  let v : Word := BitVec.ofNat 64 (ofBytes (permRead s s.curCore x.perm x.a 8))
  let p := rowPoison (s.core s.curCore) [permKey 0 x.perm (x.a / 128)]
  return s.modCur (fun c => { c with
    atomics := c.atomics.map (fun y => if y.issue == x.issue then { y with x := some v, poison := p } else y)
    flight := c.flight ++ [{ issue := x.issue, addr := x.addr, perf := x.issue + 2, act := .pushQ x.d [v], flags := 0, t3 := 0,
                             poison := p, late := true }] })

/-! ## The undo store (R394) -/

/-- The first change of a granule in a phase p ≥ 1 copies it; a 65th granule takes FOOTPRINT with EINFO[20]. -/
def undoCopy (s : State) (g : Nat) : Res State :=
  let p := phaseNow s
  let slot := s.slotOf s.curCore
  let k := s.core s.curCore
  let mine := k.undo.filter (fun u => u.slot == slot && u.phase == p)
  if p = 0 || mine.any (fun u => u.gran == g) then .ok s
  else if mine.length ≥ 64 then .error (.trap 0x09 (footInfo 3 true 0 g (2 ^ 20)))
  else .ok (s.setCore s.curCore { k with undo := k.undo ++ [⟨slot, p, g, s.readSp s.curCore (g * 4096) 4096,
      k.poison.filter (fun x => x.1 / 32 == g)⟩] })

/-- An atomic on its cycle t + 3: the write, unless it has been made already; its bank stays reserved to the end of the cycle (R287). -/
def atomicWrite (s : State) (x : Atomic) : Res State :=
  match x.x with
  | none => .ok s
  | some v => do
    let t ← undoCopy s (x.a / 4096)
    return permWrite t s.curCore x.perm x.a (bytesOf 8 (atomicNew x.op v x.b0 x.b1).toNat)

/-- The word of an atomic lies in `n` bytes from `a` on, under a bank code. -/
def Atomic.inBytes (x : Atomic) (perm a n : Nat) : Bool :=
  decide (permAddr perm a < permAddr x.perm x.a + 8 ∧ permAddr x.perm x.a < permAddr perm a + n)

/-- What an atomic in flight is still to write is written before a delivery to its word: on a frozen core the delivery takes no bank access of any
cycle, and it comes after the atomic, between whose read and write no access falls (R39, R287, R337). -/
def settleAtomics (s : State) (perm a n : Nat) : Res State :=
  (s.cur.atomics.filter (fun x => x.x.isSome && x.inBytes perm a n)).foldlM (fun s x => do
    let t ← atomicWrite s x
    return t.modCur (fun c => { c with atomics := c.atomics.map (fun y => if y.issue == x.issue then { y with x := none } else y) })) s

/-- Atomics that have written leave (R287). -/
def retireAtomics (c : Ctx) : Ctx := { c with atomics := c.atomics.filter (fun y => decide (c.now < y.issue + 3)) }

/-! ## Paged atomics (R290) -/

/-- A virtual address with a bit above bit 56, or a misaligned word (R301). -/
def pagedWordOk (a : Nat) : Bool := a >>> 57 == 0 && a % 8 == 0

/-- A paged atomic enters its phase's lot and reserves its entry in D (R290, R307). -/
def pagedAtomic (f : FDAB) (cas : Bool) (s : State) : Host.Outcome State Fault Refusal :=
  issue s { handlerOk := false } (fun s => do
    let a : Src := (f.a.toNat, f.ka)
    operandFirst s a pagedWordOk 0x11 0x04
    let b := f.b.toNat
    let bs : List Src := if cas then [(b, f.kb), (b + 1, f.kb)] else [(b, f.kb)]
    if !s.onSys then lotRoom s (seenOr s a).toNat
    let vs ← srcVals s (a :: bs)
    let va := (vs.headD 0).toNat
    if s.onSys then
      return ← sysPaged s .atomic va 8 (vs.getD 1 0).toNat (if cas then some (vs.getD 2 0).toNat else none)
        (fun t v => writeG t f.d.toNat (BitVec.ofNat 64 v))
    let r := { auNew s .atomic va 8 with b0 := vs.getD 1 0, b1 := vs.getD 2 0, cas := cas, dest := f.d.toNat }
    return ((auEnter (popSrcs s (a :: bs)) r).modCur (fun c => reserveQ c f.d.toNat r.seqNo), .seq 1))

def execPamoadd (f : FDAB) (s : State) := pagedAtomic f false s
def execPamocas (f : FDAB) (s : State) := pagedAtomic f true s

/-! ## RSTQ (R291) -/

/-- Operand A of RSTQ is legal (R291, R301): a remote target lies in a partition of the pod domain. With REMOTE = 1 and the issuing package's own PKG it is not,
since a remote target is in another package (R291; DEDUCED, log 88). -/
def rstqOk (s : State) (a : Nat) : Bool :=
  let rank := bits a 30 23
  let pkg := bits a 42 37
  let task := s.curDom.task
  a % 8 == 0 && decide (bits a 35 32 ≤ 4) && bits a 31 31 == 0 && bits a 47 43 == 0
    && (if bitB a 36 then
          pkg != s.pkg.pkg && (task.map (fun t => t.podn != 0 && Config.podPartition t.task pkg (Config.farPartition pkg (rank / 32)))).getD false
        else pkg == 0 && (task.map (fun t => t.cores.contains (32 * s.curPart + rank))).getD false)

/-- The arrival that a local RSTQ makes at its target (R291). -/
def rstqArrival (s : State) (a : Nat) (v : Word) : Arrival :=
  let target := 32 * s.curPart + bits a 30 23
  let ds := s.curCore / 32
  let dd := target / 32
  { slot := s.slotOf s.curCore, due := s.cur.now + 24 + 8 * (max ds dd - min ds dd), issue := some s.cur.now,
    src := some (s.rankOf s.curCore), srcOrder := s.curCore, addr := bits a 22 0, perm := bits a 35 32,
    data := bytesOf 8 v.toNat, tag := some (bits a 63 48), poison := none, run := none, bar := none, wall := 0, gap := false, came := 0 }

/-- An arrival on its way to a core. -/
def sendArrival (s : State) (core : Nat) (x : Arrival) : State :=
  s.setCore core { s.core core with inbound := (s.core core).inbound ++ [x] }

/-- RSTQ sends B to a scratchpad word: local at once, remote at the commit (R291, R307). The virtual address of a remote one stands
for its target package, die and core. -/
def execRstq (f : FAB) (s : State) : Host.Outcome State Fault Refusal :=
  issue s { handlerOk := false } (fun s => do
    let a : Src := (f.a.toNat, f.ka)
    let b : Src := (f.b.toNat, f.kb)
    operandFirst s a (rstqOk s) 0x11 0x02
    peekCheck s a (fun x => if bitB x.toNat 36 then lotRoom s x.toNat else .ok ())
    let vs ← srcVals s [a, b]
    let x := (vs.headD 0).toNat
    let v := vs.getD 1 0
    let t := popSrcs s [a, b]
    if bitB x 36 then
      let va := bits x 42 37 * 2 ^ 51 + bits x 30 28 * 2 ^ 48 + bits x 27 23 * 2 ^ 23 + bits x 22 0
      return (auEnter t { auNew s .rstq va 8 with b0 := v, b1 := BitVec.ofNat 64 x, tag := bits x 63 48 }, .seq 1)
    else
      return (sendArrival t (32 * s.curPart + bits x 30 23) (rstqArrival s x v), .seq 1))

/-! ## Ready flags (R296–R299) -/

/-- The word of a flag (R296). -/
def flagWord (r : RFlag) : Word :=
  BitVec.ofNat 64 (r.cnt % 2 ^ 24 + (r.target % 2 ^ 24) * 2 ^ 24 + b2n r.armed * 2 ^ 48 + b2n r.ready * 2 ^ 49 + b2n r.ovr * 2 ^ 50)

/-- A flag index (R301). -/
def flagOk (a : Nat) : Bool := decide (a < 2048)

/-- FLAGSET arms a flag on its issue cycle, before the words applied on that cycle (R297). -/
def execFlagset (f : FAB) (s : State) : Host.Outcome State Fault Refusal :=
  issue1 s true (fun s => do
    let a : Src := (f.a.toNat, f.ka)
    let b : Src := (f.b.toNat, f.kb)
    let operands : Res Unit := do
      operandFirst s a flagOk 0x11 0x03
      operandFirst s b (fun x => decide (x < 2 ^ 24)) 0x11 0x03
    lowerClass operands (do
      let vs ← srcVals s [a, b]
      let n := (vs.getD 1 0).toNat
      return (popSrcs s [a, b]).modCur (fun c =>
        { c with flags := c.flags.set (vs.headD 0).toNat ⟨0, n, true, n == 0, false⟩ })))

/-- FLAGRD reads a flag, and takes ARRIVAL on overrun but in handler mode (R298). -/
def execFlagrd (f : FDA) (s : State) : Host.Outcome State Fault Refusal :=
  issue1 s true (fun s => do
    dstOk s f.d.toNat
    let a : Src := (f.a.toNat, f.ka)
    let vs ← srcVals s [a]
    let x := (vs.headD 0).toNat
    if !flagOk x && !s.cur.handler then throw (illegalOp 0x11 0x03 x)
    let g := x % 2048
    let fl := flagOf s.cur g
    if fl.ovr && !s.cur.handler then throw (.trap 0x10 (0x01 + g * 2 ^ 8))
    return result (popSrcs s [a]) 1 f.d.toNat (flagWord fl))

end Sys2Proof.Machine
end

