-- ==== Sys2Proof/Machine/Arrivals.lean ====
section
/-! DEFINITION. The accumulate-on-write port: which slot admits an arrival (R71, R72, R292), the add (R293), and what an applied, a
refused or a discarded word does (R291, R294–R296, R378). -/

namespace Sys2Proof.Machine

/-! ## Slots (R71, R292, R295) -/

/-- SRC, FMT, WORDS of a time-slot entry (R71). -/
def slotSrc (e : Nat) : Nat := bits e 7 0
def slotFmt (e : Nat) : Nat := bits e 13 9
def slotWords (e : Nat) : Nat := bits e 47 32

/-- The valid time-slot entries for a granule in the installed table, ascending. -/
def liveSlots (c : Ctx) (g : Nat) : List (Nat × Nat) :=
  (List.range 64).filterMap (fun n =>
    let e := (c.slotsLive.getD n 0).toNat
    if bitB e 8 && bits e 26 16 == g then some (n, e) else none)

/-- The entries that the present sequence of a granule runs under: those it began with, or the installed ones (R295). -/
def seqSlots (c : Ctx) (g : Nat) : List (Nat × Nat) := (c.slotSeq.find g).getD (liveSlots c g)

/-- Words of a slot applied in the present sequence of its granule. -/
def slotCount (c : Ctx) (g n : Nat) : Nat := c.slotDone.getD (g * 64 + n) 0

/-- The current slot of a granule: the lowest whose words have not all been applied (R292). An entry with VALID = 1 and
WORDS = 0, outside R71's range, is accepted by PHASE and exhausted at once, so that no word is admitted by it (DESIGN CHOICE, log 102). -/
def currentSlot (c : Ctx) (g : Nat) : Option (Nat × Nat) :=
  (seqSlots c g).find? (fun p => decide (slotCount c g p.1 < slotWords p.2))

/-- An untimed unit sent the word (R15). -/
def Arrival.untimed (x : Arrival) : Bool := x.issue.isNone || x.wall != 0

/-- Granule of an arrival. -/
def Arrival.gran (x : Arrival) : Nat := x.addr / 4096

/-- The slot that a word at a slotted granule is for, if one of its source is not exhausted (R292). -/
def admitSlot (c : Ctx) (x : Arrival) : Option (Nat × Nat) :=
  match x.src with
  | none => none
  | some r => (seqSlots c x.gran).find? (fun p => slotSrc p.2 == r && decide (slotCount c x.gran p.1 < slotWords p.2))

/-- One word of a slot consumed; the sequence keeps the entries it began with (R295, R296). -/
def consumeSlot (c : Ctx) (g n : Nat) : Ctx :=
  { c with slotSeq := c.slotSeq.set g (seqSlots c g), slotDone := c.slotDone.set (g * 64 + n) (slotCount c g n + 1) }

/-- Every slot of a granule has applied its words (R295). -/
def seqComplete (c : Ctx) (g : Nat) : Bool := (currentSlot c g).isNone

/-- The commit restarts the complete sequences under the table it installs (R295). The commit comes at the end of its cycle, so a TSWR issued on
P + H itself is in that table (R130; DESIGN CHOICE, log 79). -/
def restartSeqs (c : Ctx) : Ctx :=
  let d := { c with slotsLive := c.slots }
  (c.slotSeq.map (·.1)).foldl (fun d g =>
    if seqComplete c g then
      { d with slotSeq := d.slotSeq.erase g, slotDone := d.slotDone.filter (fun p => p.1 / 64 != g) }
    else d) d

/-! ## Flags (R296) -/

def setOvr (c : Ctx) (g : Nat) : Ctx := { c with flags := c.flags.set g { flagOf c g with ovr := true } }

/-- One word counted toward the flag of its granule. -/
def countWord (c : Ctx) (g : Nat) : Ctx :=
  let f := flagOf c g
  if f.armed then { c with flags := c.flags.set g { f with cnt := f.cnt + 1, ready := f.ready || f.cnt + 1 == f.target } } else c

/-! ## The add (R293) -/

/-- Formats that the port adds in. -/
def addFmt (f : Nat) : Bool := [0x00, 0x01, 0x02, 0x0A, 0x0B, 0x0C].contains f

/-- The elements of two words added in place. -/
def addElem (fmt x y : Nat) : Nat :=
  if isIntFmt fmt then (x + y) % 2 ^ fmtWidth fmt else (addTo fmt (decodeVal fmt x) (decodeVal fmt y) 0 false).1

def addBytes (fmt : Nat) (old new : List Byte) : List Byte :=
  let w := fmtWidth fmt
  let n := 8 * new.length / w
  bytesOf new.length (ofFields w ((List.zip (fieldsOf w n (ofBytes old)) (fieldsOf w n (ofBytes new))).map
    (fun p => addElem fmt p.1 p.2)))

/-! ## Applying a word (R291, R294, R296) -/


/-- The word is lost: its flag shows overrun, its slot word is consumed (R291, R292, R296, R378). -/
def refuseWord (s : State) (x : Arrival) (slot : Option (Nat × Nat)) : State :=
  s.modCur (fun c => setOvr (match slot with | some p => consumeSlot c x.gran p.1 | none => c) x.gran)

/-- A word meets its granule: refused, or applied with its checks; `timed` where it makes its bank access of the cycle (R39, R294). -/
def applyWord (s : State) (x : Arrival) (slot : Option (Nat × Nat)) (timed : Bool) : Res State := do
  let c := s.cur
  let f := flagOf c x.gran
  if !inWindow c 0 x.gran || (f.armed && f.ready) || (slot.any (fun p => !addFmt (slotFmt p.2))) then
    return refuseWord s x slot
  footCheck c 3 true 0 [x.gran]
  let s1 ← if slot.isSome then undoCopy s x.gran else pure s
  let s2 ← if timed then useBanks s1 [spBank x.perm x.addr] else settleAtomics s1 x.perm x.addr x.data.length
  let core := s.curCore
  let data := match slot with
    | some p => addBytes (slotFmt p.2) (permRead s core x.perm x.addr x.data.length) x.data
    | none => x.data
  let key := permKey 0 x.perm (x.addr / 128)
  let s3 := markRows (permWrite s2 core x.perm x.addr data) [key] (if slot.isNone && x.data.length == 128 then [key] else []) x.poison
  let s4 := match x.tag with
    | some t => s3.modCore (fun k => { k with tags := k.tags.set x.gran t })
    | none => s3
  return s4.modCur (fun c => countWord (match slot with | some p => consumeSlot c x.gran p.1 | none => c) x.gran)

/-- A footprint failure discards the word for good (R291); a 65th undo image does not. -/
def losesWord (st : Stop) : Bool :=
  match st with
  | .trap cause einfo => cause == 0x09 && !bitB einfo 20
  | _ => false

/-- The `n`-th word on its way to the current core. -/
def inboundAt (s : State) (n : Nat) : Option Arrival := (s.core s.curCore).inbound[n]?

/-- The word taken off its way, stamped with the cycle for a cancel of the phase; one taken at a frozen core is seen from that cycle on (R39,
R295, R339). -/
def takeInbound (s : State) (n : Nat) (x : Arrival) : State :=
  s.modCore (fun k => { k with
    inbound := k.inbound.eraseIdx n
    applied := k.applied ++ [{ x with due := s.cur.now, gap := s.cur.frozen.isSome || (x.gap && x.due == s.cur.now) }] })

/-- The granule takes reducing writes (R292). -/
def slotted (c : Ctx) (g : Nat) : Bool := !(seqSlots c g).isEmpty

/-- A word taken off its way and lost; where it was for a slot, it consumes that slot's word (R291). -/
def loseInbound (s : State) (n : Nat) (x : Arrival) (slot : Option (Nat × Nat) := none) : State := refuseWord (takeInbound s n x) x slot

/-- A plain arrival meets its granule (R292): the state, and the stop of its core where it takes one. -/
def plainApply (s : State) (n : Nat) (x : Arrival) (timed : Bool) : State × Option Stop :=
  match applyWord (takeInbound s n x) x none timed with
  | .ok t => (t, none)
  | .error st => if losesWord st then (loseInbound s n x, some st) else (s, some st)

/-- A waiting word whose slot is current. -/
def slotOfWord (c : Ctx) (x : Arrival) : Option (Nat × Nat) :=
  match currentSlot c x.gran with
  | some p => if some (slotSrc p.2) = x.src then some p else none
  | none => none

/-- The waiting words hold one of the same slot as `x`. -/
def aheadOf (waiting : List Arrival) (x : Arrival) : Bool :=
  waiting.any (fun y => y.slot == x.slot && y.gran == x.gran && y.src == x.src)

/-- A reducing arrival is judged: no slot takes it, it waits for its slot, or it is applied (R292). At most 64 words wait; where the space is full
a word that need not wait is still taken, and the deliveries of the others' sources are delayed (DEDUCED, log 68). -/
def admitArrival (s : State) (n : Nat) (x : Arrival) : State :=
  let waiting := (s.core s.curCore).waiting
  match admitSlot s.cur x with
  | none => loseInbound s n x
  | some _ =>
    if decide (waiting.length ≥ 64) && ((slotOfWord s.cur x).isNone || aheadOf waiting x) then s
    else (takeInbound s n x).modCore (fun k => { k with waiting := k.waiting ++ [x] })

/-- A waiting word whose slot has been exhausted by others is discarded (R292; log 68). -/
def dropWaiting (s : State) (n : Nat) (x : Arrival) : State :=
  refuseWord (s.modCore (fun k => { k with waiting := k.waiting.eraseIdx n })) x none

/-- The `n`-th waiting word is added, its slot being current (R292–R294). -/
def reduceApply (s : State) (n : Nat) (x : Arrival) (p : Nat × Nat) (timed : Bool) : State × Option Stop :=
  let s1 := s.modCore (fun k => { k with waiting := k.waiting.eraseIdx n })
  match applyWord s1 x (some p) timed with
  | .ok t => (t, none)
  | .error st => if losesWord st then (refuseWord s1 x (some p), some st) else (s, some st)

end Sys2Proof.Machine
end

