-- ==== Sys2Proof/Machine/Quant.lean ====
section
/-! DEFINITION. The quantisation engine and the record instructions: majors 0x30–0x32 (R193–R205). -/

namespace Sys2Proof.Machine

/-! ## Formats and scales (R194, R196, R197) -/

/-- Element format of a destination (R194). -/
def quantElem (fd : Nat) : Nat := elemFmt fd

/-- Lm: the largest value of an element format (R194), and its code. -/
def quantMaxCode (fe : Nat) : Nat :=
  match fpFmt fe with
  | some f => f.pmax
  | none => if fe = 0x09 then 0x0F else (intBounds fe).2.toNat
def quantMax (fe : Nat) : Val := decodeVal fe (quantMaxCode fe)

/-- emax = floor(log2 Lm) (R194). -/
def quantEmax (fe : Nat) : Int :=
  match quantMax fe with
  | .fin _ m e => valLog2 m e
  | _ => 0

/-- The source and destination formats that a mode accepts (R194): modes 0 TENSOR, 1 BLOCK, 2 BLOCK+TENSOR, 3 CAST. -/
def quantDst (mode fd : Nat) : Bool :=
  if mode = 3 then decide (fd ≤ 7) || [0x09, 0x0B, 0x0C, 0x0E].contains fd
  else if mode = 0 then decide (1 ≤ fd ∧ fd ≤ 7) || [0x09, 0x0C, 0x0E].contains fd
  else isMx fd
def dequantSrc (mode fs : Nat) : Bool :=
  if mode = 3 || mode = 0 then decide (fs ≤ 7) || decide (0x09 ≤ fs ∧ fs ≤ 0x0E) || decide (0x10 ≤ fs ∧ fs ≤ 0x16)
  else decide (0x10 ≤ fs ∧ fs ≤ 0x16)

/-- ILLEGAL class 0x0E (R204). -/
def quantIllegal (reason rid operand : Nat) : Stop :=
  illegal (0x0E + reason * 2 ^ 8 + (rid % 4096) * 2 ^ 16 + (operand % 2 ^ 32) * 2 ^ 32)

/-- Reason 0x04: the MX side must run its blocks along dimension 0 and start on a block (R195). -/
def blockSide (st : Strm) : Res Unit :=
  if st.entry.scaled && (st.entry.mxax != 0 || st.start % st.entry.blk != 0) then
    .error (illegal (0x0E + 4 * 2 ^ 8 + st.entry.mxax * 2 ^ 28 + (st.start % 2 ^ 32) * 2 ^ 32))
  else .ok ()

/-- Qt of a view AMAX pattern (R196). -/
def tensorScale (fe amax : Nat) : Nat :=
  if amax = 0 || amax = 0x7F800000 then 0x3F800000
  else (divTo 0x00 (quantMax fe) (decodeVal 0x00 amax) 1 false).1

/-! ## Acceptance (R193–R195, R200, R201, R414) -/

/-- Words of source and destination of a group (R193). -/
def groupWords (es ed : Layout) : Nat × Nat :=
  let g := max es.perWord ed.perWord
  (g / es.perWord, g / ed.perWord)

/-- The two streams of a QZE command, with the checks of R414 and R65. -/
def qzeStreams (s : State) (sa sd : Nat) : Res (Strm × Strm) := do
  closedCheck s.cur 5 [sa, sd]
  match s.cur.strms.find sa, s.cur.strms.find sd with
  | some a, some d => if a.wr || !d.wr then throw (illegal 0x07) else return (a, d)
  | _, _ => throw (.trap 0x04 (laneInfo 0x04 5 0 false sa))

/-- A QUANT issues (R200). -/
def quantIssue (s : State) (mode sd0 sa0 rnd seed : Nat) (rte : Bool) : Host.Outcome State Fault Refusal :=
  let sa := sa0 % 16
  let sd := sd0 % 16
  issue s { handlerOk := false, first := busyCheck 5 } (fun s => do
    let (a, d) ← qzeStreams s sa sd
    let p := s.part s.curPart
    let tensor := mode == 0 || mode == 2
    let rid := a.entry.rid
    if a.entry.fmt > 2 then throw (quantIllegal 0x01 0 a.entry.fmt)
    if !quantDst mode d.entry.fmt then throw (quantIllegal 0x02 0 d.entry.fmt)
    if tensor && !recNamed p.size rid then throw (quantIllegal 0x03 rid rid)
    blockSide d
    if tensor && !recOwned p (s.slotOf s.curCore) rid then throw (quantIllegal 0x06 rid rid)
    let fe := quantElem d.entry.fmt
    let am := if tensor then
        (((recsAt p (s.slotOf s.curCore) s.cur.now).view.getD (homeKey rid) 0).toNat % 2 ^ 32) else 0
    let w := groupWords a.entry d.entry
    let x := { Cmd.fresh s.cur 5 .quant with
      sa := sa, sb := sd, entA := a.entry, entB := d.entry, mode := mode, dimM := w.1, dimN := w.2,
      last := s.cur.now + w.1 + 3 + w.2 - 1, rnd := if rnd = 2 then 4 else rnd,
      seed := (s.cur.qseed.getD seed 0).toNat,
      rescale := tensor && (rte || bitB s.cur.mode.toNat 3), amax := am,
      qt := if tensor then tensorScale fe am else 0x3F800000 }
    return (accept s x (max w.1 w.2), .seq 1))

def execQuantTensor (f : FQr) (s : State) := quantIssue s 0 f.sd.toNat f.sa.toNat f.rnd.toNat f.seed.toNat f.rte
def execQuantBlock (f : FQn) (s : State) := quantIssue s 1 f.sd.toNat f.sa.toNat f.rnd.toNat f.seed.toNat false
def execQuantBlockTensor (f : FQr) (s : State) := quantIssue s 2 f.sd.toNat f.sa.toNat f.rnd.toNat f.seed.toNat f.rte
def execQuantCast (f : FQn) (s : State) := quantIssue s 3 f.sd.toNat f.sa.toNat f.rnd.toNat f.seed.toNat false

/-- A DEQUANT issues (R201). -/
def dequantIssue (s : State) (mode sd0 sa0 : Nat) : Host.Outcome State Fault Refusal :=
  let sa := sa0 % 16
  let sd := sd0 % 16
  issue s { handlerOk := false, first := busyCheck 5 } (fun s => do
    let (a, d) ← qzeStreams s sa sd
    if !dequantSrc mode a.entry.fmt then throw (quantIllegal 0x01 0 a.entry.fmt)
    if d.entry.fmt > 2 then throw (quantIllegal 0x02 0 d.entry.fmt)
    blockSide a
    let w := groupWords a.entry d.entry
    let x := { Cmd.fresh s.cur 5 .dequant with
      sa := sa, sb := sd, entA := a.entry, entB := d.entry, mode := mode, dimM := w.1, dimN := w.2,
      last := s.cur.now + w.1 + 3 + w.2 - 1, qt := s.cur.dqscale.toNat % 2 ^ 32 }
    return (accept s x (max w.1 w.2), .seq 1))

def execDequantTensor (f : FQd) (s : State) := dequantIssue s 0 f.sd.toNat f.sa.toNat
def execDequantBlock (f : FQd) (s : State) := dequantIssue s 1 f.sd.toNat f.sa.toNat
def execDequantBlockTensor (f : FQd) (s : State) := dequantIssue s 2 f.sd.toNat f.sa.toNat
def execDequantCast (f : FQd) (s : State) := dequantIssue s 3 f.sd.toNat f.sa.toNat

/-! ## Results of a group (R197–R199, R201) -/

/-- The scaled input u_i (R198). -/
def quantU (mode qt : Nat) (x : Val) : Val :=
  if mode = 0 then (Val.mul x (decodeVal 0x00 qt)).1
  else if mode = 2 then
    match (Val.mul x (decodeVal 0x00 qt)).1 with
    | .nan => .nan
    | v => decodeVal 0x00 (roundTo 0x00 v 0 false 0).1
  else x

/-- The larger magnitude. -/
def magMax (x y : Val) : Val := if x.abs.lt y.abs then y.abs else x.abs

/-- The E8M0 scale of a block of scaled inputs (R197). -/
def blockScale (fe : Nat) (us : List Val) : Nat :=
  if us.any Val.isNan then 0xFF
  else if us.any Val.isInf then 0xFE
  else
    match us.foldl magMax (.zero false) with
    | .fin _ m e => (max (-127) (min 127 (valLog2 m e - quantEmax fe)) + 127).toNat
    | _ => 0x00

/-- One element of a QUANT group: its input, its scaled value and the scale of its block where there is one. -/
structure QElem where
  x : Val
  v : Val
  scale : Nat
  idx : Nat

/-- Step 3 of R198 applies. -/
def QElem.saturates (e : QElem) (fe : Nat) : Bool :=
  e.scale != 0xFF && !e.x.isNan && (quantMax fe).lt e.v.abs

/-- Code and counts of one element: saturated, NaN input (R198). -/
def QElem.code (e : QElem) (fe mode r : Nat) : Nat × Nat × Nat :=
  if e.scale = 0xFF then (0, 0, b2n e.x.isNan)
  else if e.x.isNan then (canon fe, 0, 1)
  else if e.saturates fe then
    let n := e.x.sign
    (if isIntFmt fe then ofInt (fmtWidth fe) (if n then -(quantMaxCode fe : Int) else (quantMaxCode fe : Int))
     else b2n n * 2 ^ (fmtWidth fe - 1) + quantMaxCode fe, 1, 0)
  else if isIntFmt fe then (ofInt (fmtWidth fe) (toIntRange (-(quantMaxCode fe : Int)) (quantMaxCode fe : Int) e.v mode r).1, 0, 0)
  else ((roundTo fe e.v mode false r).1, 0, 0)

/-- The elements of a QUANT group once every word is tapped (R197, R198). -/
def quantElems (x : Cmd) : List QElem :=
  let fs := x.entA.fmt
  let fe := quantElem x.entB.fmt
  let ins : List (Val × Nat) := (x.wordsA.zip x.places).flatMap (fun p =>
    ((elemsOf fs p.1).zipIdx).map (fun e => (decodeVal fs e.1, p.2 + e.2)))
  let us := ins.map (fun i => (i.1, quantU x.mode x.qt i.1, i.2))
  if x.mode = 1 || x.mode = 2 then
    let n := x.entB.blk
    (chunks n (us.length / n) us).flatMap (fun b =>
      let sc := blockScale fe (b.map (fun u => u.2.1))
      b.map (fun u => ⟨u.1, u.2.1.scale (127 - (sc : Int)), sc, u.2.2⟩))
  else us.map (fun u => ⟨u.1, u.2.1, 0, u.2.2⟩)

/-- The lowest element that triggers RESCALE (R199). -/
def rescaleAt (x : Cmd) (es : List QElem) : Option Nat :=
  let i := es.findIdx (fun e => e.saturates (quantElem x.entB.fmt) && (decodeVal 0x00 x.amax).lt e.x.abs)
  if x.rescale && decide (i < es.length) then some i else none

/-- EINFO of RESCALE (R199). -/
def rescaleInfo (x : Cmd) (es : List QElem) (i : Nat) : Nat :=
  let v := ((es[i]?).map (·.x)).getD (.zero false)
  i + x.addr * 2 ^ 16 + (roundTo 0x00 v 0 false 0).1 * 2 ^ 32

/-- The drives of a command's output words on t + Ws + 3 + k (R193). -/
def qzeDrives (x : Cmd) (codes scales : List Nat) : List Flight :=
  let ed := x.entB.perWord
  let nb := if x.entB.scaled then ed / x.entB.blk else 0
  (List.range x.dimN).map (fun k =>
    { issue := x.issue, addr := x.addr, perf := x.issue + x.dimM + 3 + k,
      act := .driveS x.sb 5 (wordOf x.entB.fmt ((codes.drop (k * ed)).take ed)) ((scales.drop (k * nb)).take nb),
      flags := 0, t3 := 0, poison := none, late := true })

/-- The group is complete on t + Ws: RESCALE, or the drives and counts to come (R199, R200). -/
def quantFinish (x : Cmd) : Except Nat (List Flight) :=
  let es := quantElems x
  match rescaleAt x es with
  | some i => .error (rescaleInfo x es i)
  | none =>
    let fe := quantElem x.entB.fmt
    let rs := es.map (fun e => e.code fe x.rnd (if x.rnd = 4 then drawR x.seed x.entA.tid e.idx else 0))
    let n := x.entB.blk
    let scales := if x.mode = 1 || x.mode = 2 then (chunks n (es.length / n) es).map (fun b => ((b.head?).map (·.scale)).getD 0)
                  else []
    let act := ResAct.qcount ((rs.map (·.2.1)).sum) ((rs.map (·.2.2)).sum)
      (if x.mode = 0 || x.mode = 2 then some x.qt else none)
    let counts : Flight :=
      { issue := x.issue, addr := x.addr, perf := x.issue + x.dimM + 3, act := act, flags := 0, t3 := 0, poison := none,
        late := true }
    .ok (counts :: qzeDrives x (rs.map (·.1)) scales)

/-- The results of a DEQUANT (R201). -/
def dequantFinish (x : Cmd) : List Flight :=
  let fs := x.entA.fmt
  let fd := x.entB.fmt
  let pats := x.wordsA.flatMap (elemsOf fs)
  let vals := (pats.zipIdx).map (fun p => elemValue fs p.1 (x.scalesA.getD p.2 127))
  qzeDrives x (vals.map (fun v =>
    if x.mode = 0 || x.mode = 2 then (divTo fd v (decodeVal 0x00 x.qt) 0 false).1
    else if v.isNan then canon fd else (roundTo fd v 0 false 0).1)) []

/-! ## Record instructions (R203–R205) -/

/-- Partition, slot and agent order of the current core. -/
def recCtx (s : State) : PartSt × Nat := (s.part s.curPart, s.slotOf s.curCore)

/-- Reason 0x05 or 0x06 of a record field (R204): `opd` is the operand that holds it, `a` the A operand. -/
def recCheck (s : State) (rid : Nat) (opd a : Word) : Res Unit :=
  let (p, slot) := recCtx s
  if !recNamed p.size rid then .error (quantIllegal 0x05 rid opd.toNat)
  else if !recOwned p slot rid then .error (quantIllegal 0x06 rid a.toNat)
  else .ok ()

/-- The zero field of an operand (R203). -/
def zeroAbove (n rid : Nat) (x : Word) : Res Unit :=
  if x.toNat ≥ 2 ^ n then .error (quantIllegal 0x05 rid x.toNat) else .ok ()

def execStbind (f : FAB) (s : State) : Host.Outcome State Fault Refusal :=
  issue1 s true (fun s => do
    let a := (f.a.toNat, f.ka)
    let b := (f.b.toNat, f.kb)
    let checks : Res Unit := do
      peekCheck s a (zeroAbove 8 0)
      peekCheck s b (fun y => do
        zeroAbove 12 (y.toNat % 4096) y
        if y != 0 then recCheck s y.toNat y (seenOr s a))
    match ← lowerClass checks (srcVals s [a, b]) with
    | [x, y] =>
      let k := x.toNat * 8 + 1
      parityOk s.cur [tabPlace 0 k]
      return ((popSrcs s [a, b]).modCur (fun c =>
        { c with layout := c.layout.set k (BitVec.ofNat 64 (putBits (c.layout.getD k 0).toNat 27 16 y.toNat)) }))
    | _ => return s)

/-- A change of the issuing context stamped with its cycle (R184, R205). -/
def stampHere (s : State) (kind rid die word : Nat) (value : Word) (data : List Nat) : State :=
  stampChange s s.curPart { cycle := s.cur.now, order := s.curCore, kind := kind, rid := rid, die := die, word := word,
                            value := value, data := data }

def execStclr (f : FA) (s : State) : Host.Outcome State Fault Refusal :=
  issue1 s true (fun s => do
    let a := (f.a.toNat, f.ka)
    match ← srcVals s [a] with
    | [x] =>
      zeroAbove 12 (x.toNat % 4096) x
      recCheck s x.toNat x x
      return stampHere (popSrcs s [a]) 0 x.toNat 0 0 0 []
    | _ => return s)

/-- The checks of an STRD or STSET index (R204). -/
def indexCheck (s : State) (set : Bool) (x : Word) : Res Unit := do
  let n := x.toNat
  zeroAbove 20 (n % 4096) x
  recCheck s (n % 4096) x x
  if bits n 17 12 > 35 || bits n 19 18 = 3 || (set && bits n 19 18 != 0) then throw (quantIllegal 0x07 (n % 4096) n)

def execStrd (f : FDA) (s : State) : Host.Outcome State Fault Refusal :=
  issue1 s true (fun s => do
    dstOk s f.d.toNat
    let a := (f.a.toNat, f.ka)
    match ← srcVals s [a] with
    | [x] =>
      indexCheck s false x
      let (p, slot) := recCtx s
      let r := recsAt p slot s.cur.now
      let rid := x.toNat % 4096
      let w := bits x.toNat 17 12
      let v := match bits x.toNat 19 18 with
        | 0 => r.home.getD (homeKey rid + w) 0
        | 1 => r.shard.getD (shardKey (s.curDieOf - s.curPart) rid + w) 0
        | _ => r.view.getD (homeKey rid + w) 0
      return result (popSrcs s [a]) 1 f.d.toNat v
    | _ => return s)

/-- STMERGE (R187, R204). EINFO's record id of a fault in the operand's zero field, and of a source equal to its destination, is the destination's (DEDUCED,
log 96). -/
def execStmerge (f : FA) (s : State) : Host.Outcome State Fault Refusal :=
  issue1 s true (fun s => do
    let a := (f.a.toNat, f.ka)
    match ← srcVals s [a] with
    | [x] =>
      let d := bits x.toNat 11 0
      let r := bits x.toNat 23 12
      let (p, slot) := recCtx s
      zeroAbove 24 d x
      if !recNamed p.size d then throw (quantIllegal 0x05 d x.toNat)
      if !recNamed p.size r || d == r then throw (quantIllegal 0x05 r x.toNat)
      if !recOwned p slot d then throw (quantIllegal 0x06 d x.toNat)
      if !recOwned p slot r then throw (quantIllegal 0x06 r x.toNat)
      let t := popSrcs s [a]
      let q := t.part t.curPart
      return t.setPart t.curPart { q with recs := { q.recs with merges := insertMerge (s.cur.now, s.curCore, d, r) q.recs.merges } }
    | _ => return s)

def execStgen (f : FDA) (s : State) : Host.Outcome State Fault Refusal :=
  issue1 s true (fun s => do
    dstOk s f.d.toNat
    let a := (f.a.toNat, f.ka)
    match ← srcVals s [a] with
    | [x] =>
      zeroAbove 12 (x.toNat % 4096) x
      recCheck s x.toNat x x
      let (p, slot) := recCtx s
      let v := recWords (recsAt p slot s.cur.now).view (homeKey x.toNat)
      let ovf := bits (v.getD 2 0) 34 32 != 0 || v.getD 3 0 != 0
      return result (popSrcs s [a]) 1 f.d.toNat (BitVec.ofNat 64 ((v.getD 0 0 >>> 32) + b2n ovf * 2 ^ 32))
    | _ => return s)

def execStset (f : FAB) (s : State) : Host.Outcome State Fault Refusal :=
  issue1 s true (fun s => do
    let a := (f.a.toNat, f.ka)
    let b := (f.b.toNat, f.kb)
    match ← lowerClass (peekCheck s a (indexCheck s true)) (srcVals s [a, b]) with
    | [x, y] =>
      return stampHere (popSrcs s [a, b]) 1 (x.toNat % 4096) 0 (bits x.toNat 17 12) y []
    | _ => return s)

end Sys2Proof.Machine
end

