-- ==== Sys2Proof/Machine/Collective.lean ====
section
/-! DEFINITION. The collective engine: the group table (R343), units and abort units (R344, R360), port accesses (R357), writes (R349,
R353, R359), the completion record and the status page (R355, R356, R366), and major 0x35 (R364–R368). -/

namespace Sys2Proof.Machine

/-! ## Groups (R343) -/

/-- Word `w` of a group entry: word 0 holds the valid bit and n, word 1 + q the location of member q (R343, R407). -/
def groupWord (p : PartSt) (g w : Nat) : Nat := (p.groups.getD (g * 1024 + w) 0).toNat
def groupValid (p : PartSt) (g : Nat) : Bool := g != 0 && bitB (groupWord p g 0) 0
def groupSize (p : PartSt) (g : Nat) : Nat := bits (groupWord p g 0) 18 9
/-- Location of a member: core in [4:0], die in [7:5], package in [13:8] (log 30). -/
def memberAt (p : PartSt) (g q : Nat) : Nat := bits (groupWord p g (1 + q)) 13 0
def groupMembers (p : PartSt) (g : Nat) : List Nat := (List.range (groupSize p g)).map (memberAt p g)

/-- Location of a core of this package. -/
def locOf (s : State) (core : Nat) : Nat := s.pkg.pkg * 256 + core

/-- A location lies in this package. -/
def locHere (s : State) (l : Nat) : Bool := l / 256 == s.pkg.pkg

/-! ## Runs -/

/-- The active run of a group on a die's engine (R344). -/
def runOf (s : State) (die g : Nat) : Option Run := (s.cxe die).runs.find? (fun r => r.group == g)

/-- A run in the place of the one of its group. -/
def putRun (s : State) (die : Nat) (r : Run) : State :=
  let e := s.cxe die
  s.setCxe die { e with runs := e.runs.map (fun x => if x.group == r.group then r else x) }

/-- Ranks of a run. -/
def Run.n (r : Run) : Nat := r.members.length
def Run.count (r : Run) : Nat := max 1 r.n

/-- Chunk index of a word with field CK (R347). -/
def Run.chunk (r : Run) (ck : BitVec 5) : Nat :=
  let i : Nat := match r.loopAt with | some (_, _, _, i) => i | none => 0
  (((r.rank : Int) + ck.toInt - (i : Int)) % (r.count : Int)).toNat

/-- A descriptor position (R346). -/
structure Desc where
  kind : Nat
  addr : Nat
  fmt : Nat
  tag : Nat
  cw : Nat
  reps : Nat
  deriving DecidableEq, Repr

def descOf (w : Nat) : Desc :=
  ⟨bits w 31 28, bits w 22 0, bits w 27 23, bits w 47 32, bits w 55 48, bits w 5 0⟩

/-- The descriptor of a slot of a run. -/
def Run.desc (r : Run) (slot : Nat) : Desc := descOf (r.descs.getD slot 0)

/-- Elements of a lane word of a format (R62). -/
def laneElems (fmt : Nat) : Nat := elemsPerWord (fmtWidth fmt)

/-! ## Port accesses (R357) -/

/-- The context that started a run. -/
def runCtx (s : State) (r : Run) : Ctx := s.ctxOf r.core r.slot

/-- The footprint check of a port read: an ENG 3 entry of either direction covers it (R70, R289, R357). -/
def portFoot (c : Ctx) (gs : List Nat) : Res Unit :=
  footCheck c 3 false 0 (gs.filter (fun g => match footCheck c 3 true 0 [g] with | .ok _ => false | .error _ => true))

/-- A port read of granules: the footprint as ENG 3, a write-set entry covering reads too, and, on a cycle that the core runs, the banks that an atomic has reserved, of the rows that hold
the bytes (R289, R357; log 31). A frozen core is read as it stands. -/
def portCheck (s : State) (core slot : Nat) (addr len : Nat) : Res Unit := do
  let c := s.ctxOf core slot
  let gs := (List.range (len / 4096 + 2)).map (fun i => addr / 4096 + i)
  portFoot c (gs.filter (fun g => decide (g * 4096 < addr + len)))
  let rows := if c.frozen.isSome then [] else (List.range ((addr + len - 1) / 128 + 1 - addr / 128)).map (fun i => addr / 128 + i)
  match (rows.map (fun i => spBank 0 (128 * i))).find? (fun b => (bankHolder c b c.now none).isSome) with
  | some b => throw (.trap 0x0F (0x01 + (b / 16 % 4) * 2 ^ 8 + (b % 16) * 2 ^ 12
      + (((bankHolder c b c.now none).map (·.addr)).getD 0) * 2 ^ 32))
  | none => pure ()

/-! ## Narrowing (R350) -/

/-- One element converted to a format, and 1 where it saturates (R350). -/
def narrow (src dst pat : Nat) : Nat × Nat :=
  if isIntFmt dst then
    let x := decodeInt src pat
    let b := intBounds dst
    if x < b.1 then (ofInt (fmtWidth dst) b.1, 1) else if b.2 < x then (ofInt (fmtWidth dst) b.2, 1)
    else (ofInt (fmtWidth dst) x, 0)
  else
    match decodeVal src pat with
    | .nan => (canon dst, 0)
    | .inf n => if dst = 0x03 then (0x7F, 0) else ((roundTo dst (.inf n) 0 false 0).1, 0)
    | v =>
      let r := roundTo dst v 0 false 0
      if r.2 &&& fOF != 0 then (b2n v.sign * 2 ^ (fmtWidth dst - 1) + quantMaxCode dst, 1) else (r.1, 0)

/-- Elements converted, and how many saturate. -/
def narrowAll (src dst : Nat) (ps : List Nat) : List Nat × Nat :=
  let rs := ps.map (narrow src dst)
  (rs.map (·.1), (rs.map (·.2)).sum)

/-! ## Units (R344, R349, R360) -/

/-- A unit from the run to a member, numbered from 0 to each receiver. -/
def sendUnit (s : State) (die : Nat) (r : Run) (q : Nat) (slot : Option Nat) (chunk wfmt : Nat) (data : List Nat)
    (poison : Option Nat) : State × Run :=
  let k := r.sent.getD q 0
  let u : ColUnit := ⟨r.members.getD q 0 % 256, r.group, r.epoch, r.rank, k, slot, chunk, wfmt, data, poison, r.born⟩
  let e := s.cxe die
  (s.setCxe die { e with outbox := e.outbox ++ [(r.members.getD q 0, u)] }, { r with sent := r.sent.set q (k + 1) })

/-- Number of the next unit from a sender that the run has not taken (R344). -/
def Run.nextSeq (r : Run) (q : Nat) : Nat :=
  ((List.range (r.taken.length + 1)).find? (fun k => !r.taken.contains (q, k))).getD 0

/-- The unit that the run's next receiving word takes (R349). -/
def nextUnit (s : State) (die : Nat) (r : Run) : Option ColUnit :=
  (s.cxe die).units.find? (fun u => u.dest == r.core && u.group == r.group && u.epoch == r.epoch && u.sender == r.pred && u.slot.isNone
    && u.seqNo == r.nextSeq r.pred)

/-- A unit removed from the engine's buffer. -/
def dropUnit (s : State) (die : Nat) (u : ColUnit) : State :=
  let e := s.cxe die
  s.setCxe die { e with units := e.units.erase u }

/-! ## Records and aborts (R355, R356, R360, R361) -/

/-- The completion record's 64 bytes (R355), little-endian. -/
def recordBytes (r : Run) : List Byte :=
  bytesOf 8 r.sig ++ bytesOf 4 r.satn ++ bytesOf 1 r.status ++ bytesOf 1 r.group ++ bytesOf 2 r.rank ++ bytesOf 8 r.deny
    ++ bytesOf 4 r.nword ++ List.replicate 36 0#8

/-- The key of a run's barrier record: the run's core, group and epoch. -/
def Run.barKey (r : Run) : Nat := r.epoch * 2 ^ 16 + r.core * 64 + r.group

/-- A write of the engine's port, as a plain arrival at the starting core (R292, R357). -/
def portWrite (s : State) (die : Nat) (r : Run) (addr : Nat) (tag : Option Nat) (bs : List Byte) (poison : Option Nat)
    (bar : Option Nat) : State :=
  sendArrival s r.core
    { slot := r.slot, due := (s.dom (s.partOfDie die) r.slot).tb, issue := none, src := none, srcOrder := 2 ^ 16 + die, addr := addr, perm := 0, data := bs,
      tag := tag, poison := poison, run := some (die, r.group, r.serial), bar := bar, wall := 0, gap := false, came := 0 }

/-- The units of a run that has ended: those that it has not taken are dropped, and after an abort it sends nothing more (R360). -/
def dropUnits (s : State) (die : Nat) (r : Run) : State :=
  let e := s.cxe die
  let mine (u : ColUnit) : Bool := u.group == r.group && u.epoch == r.epoch
  s.setCxe die { e with
    units := e.units.filter (fun u => !(mine u && u.dest == r.core))
    outbox := if r.aborted then e.outbox.filter (fun p => !(mine p.2 && p.2.sender == r.rank)) else e.outbox }

/-- The run has ended: its record is written, its units are dropped, and it is the latest of its group (R356, R360, R366). -/
def endRun (s0 : State) (die : Nat) (r : Run) : State :=
  let s := dropUnits s0 die r
  let e := s.cxe die
  let s1 := s.setCxe die { e with
    runs := e.runs.filter (fun x => x.group != r.group)
    ended := e.ended.set (r.slot * 64 + r.group) { r with active := false } }
  match r.recSlot with
  | none => s1
  | some z =>
    let d := r.desc z
    portWrite s1 die r d.addr (some d.tag) (recordBytes r ++ List.replicate 64 0#8) none (if r.bar && r.status == 0 then some r.barKey else none)

/-- EINFO of COLLABORT (R361). -/
def collabortInfo (r : Run) (origin : Nat) : Nat := r.group + r.status * 2 ^ 8 + origin * 2 ^ 16 + (r.nword % 2 ^ 32) * 2 ^ 32

/-- A run ends by an abort with a STATUS from a rank, its first (R356, R360, R361). Every write of a collective comes before its completion: while paged writes
of the run are still to be answered, it executes and sends nothing more, and its record waits for them (R329; DEDUCED, log 89). -/
def abortHere (s : State) (die : Nat) (r : Run) (status origin : Nat) : State :=
  let r1 := { r with status := status, aborted := true, active := false }
  let s1 := if r.undelivered = 0 then endRun s die r1 else putRun (dropUnits s die r1) die r1
  if r.aborted then s
  else if r.trap then
    let e := s1.cxe die
    s1.setCxe die { e with colaborts := e.colaborts ++ [(ctxKey r.core r.slot, collabortInfo r1 origin)] }
  else s1

/-- Abort units to every member in ascending rank; the run's own end at this engine needs none (R360). -/
def sendAborts (s : State) (die : Nat) (r : Run) (status : Nat) : State :=
  let e := s.cxe die
  s.setCxe die { e with outAborts := e.outAborts
    ++ (r.members.filter (fun l => l != locOf s r.core)).map (fun l => (l, r.group, r.epoch, status, r.rank, r.born)) }

/-- An abort that starts at this engine. -/
def abortRun (s : State) (die : Nat) (r : Run) (status : Nat) : State :=
  if r.aborted then s else abortHere (sendAborts s die r status) die r status r.rank

/-- A stop of the context that started a run (R357). -/
def stopStarter (s : State) (core slot : Nat) (st : Stop) : State :=
  match st with
  | .trap cause einfo => deliverTrap s core slot cause einfo
  | _ => s

/-- A port fault: the starting core's trap, and the abort (R357). -/
def portFault (s : State) (die : Nat) (r : Run) (st : Stop) : State := abortRun (stopStarter s r.core r.slot st) die r 0x05

/-! ## Writes (R349, R353, R359) -/

/-- PHASENO and SSN of the partition that a run writes for (R338). -/
def runStamp (s : State) (r : Run) : Nat × Nat :=
  let c := runCtx s r
  (c.phaseno.toNat % 2 ^ 16, c.ssn.toNat % 2 ^ 16)

/-- Paged agent id (R314). -/
def agentId (s : State) (core slot : Nat) : Nat := slot % 4 + (core % 256) * 4 + s.pkg.pkg * 2 ^ 10

/-- Row of the scratchpad that lane word `i` of chunk `k` of a slot fills: its address / 128 (R346). -/
def Desc.row (d : Desc) (k i : Nat) : Nat := d.addr / 128 + d.cw * k + i

/-- The elements that a chunk of `n` takes from `es`: where the source has fewer, the spec states no value for the rest, and they are free; where it
has more, the first `n` (DESIGN CHOICE, log 41). -/
def chunkElems (s : State) (fmt n : Nat) (es : List Nat) : List Nat :=
  es.take n ++ (List.range (n - es.length)).map (fun i => (Config.freeWord (s.free + i)).toNat % 2 ^ fmtWidth fmt)

/-- A write of chunk `k` of a slot in the slot's format (R349): lane words as plain arrivals, which the run keeps with the chunk's mark, or
the writes to the replicas, stamped with the agent and the key of the context that started the run (R338; DESIGN CHOICE, log 41). -/
def runWrite (s0 : State) (die : Nat) (r : Run) (slot k : Nat) (es0 : List Nat) (poison : Option Nat) : State × Run :=
  let d := r.desc slot
  let e := laneElems d.fmt
  let es := chunkElems s0 d.fmt (e * d.cw) es0
  let s := { s0 with free := s0.free + (e * d.cw - es0.length) }
  let words := (List.range d.cw).map (fun i => bytesOf 128 (wordOf d.fmt ((es.drop (i * e)).take e)).toNat)
  if d.kind = 0 then
    ((words.zipIdx).foldl (fun s w => portWrite s die r (128 * d.row k w.2) (some d.tag) w.1 poison none) s,
      { r with kept := (words.zipIdx).foldl (fun m w => NMap.set m (d.row k w.2) (w.1, poison)) r.kept })
  else
    let st := runStamp s r
    let reqs := (List.range d.reps).map (fun j =>
      let va := r.descs.getD (slot + 1 + j) 0 + 128 * d.cw * k
      (j, va))
    let s1 := reqs.foldl (fun s p =>
      let owner := p.2 / 2 ^ 48 % 8
      let x := s.die owner
      let q : ExtReq :=
        { id := s.free, op := .store, va := p.2, size := 128 * d.cw, agent := agentId s r.core r.slot,
          pbase := s.partOfDie (r.core / 32), ph := st.1, ssn := st.2, key := (runCtx s r).aukey.toNat % 2 ^ 16,
          value := ofBytes words.flatten, cas := none, run := some (die, r.group, p.1, r.serial), sys := none, queued := false, left := [], poison := poison }
      { s with free := s.free + 1 }.setDie owner { x with ext := x.ext ++ [q] }) s
    (s1, { r with undelivered := r.undelivered + d.reps })

/-! ## Own chunks (R349) -/

/-- A row of the starting core's scratchpad as the run reads it, with its mark: as the run itself last wrote it, under whatever slot, or read
through the port (R349, R357, R398). -/
def ownRow (s : State) (r : Run) (row : Nat) : Res (List Byte × Option Nat) :=
  match r.kept.find row with
  | some x => .ok x
  | none => do
    portCheck s r.core r.slot (128 * row) 128
    return (s.readSp r.core (128 * row) 128, rowPoison (s.core r.core) [rowKey 0 (128 * row)])

/-- Chunk `k` of a slot as element patterns of the slot's format, and the lowest mark of its rows. -/
def ownChunk (s : State) (r : Run) (slot k : Nat) : Res (List Nat × Option Nat) := do
  let d := r.desc slot
  let rows ← (List.range d.cw).mapM (fun i => ownRow s r (d.row k i))
  return (rows.flatMap (fun x => elemsOf d.fmt (BitVec.ofNat 1024 (ofBytes x.1))), rows.foldl (fun p x => mergePoison p x.2) none)

/-- The word that a run executes reads its own chunk through the port, and the granule that it reads. -/
def readsOwn (r : Run) : Bool := [1, 3, 4, 5, 9].contains (bits (r.words.getD r.pc 0) 31 27)
def ownPlace (r : Run) : Nat :=
  let w := r.words.getD r.pc 0
  let d := r.desc (if bits w 31 27 = 4 then bits w 10 5 else bits w 26 21)
  (d.addr + 128 * d.cw * r.chunk (BitVec.ofNat 5 (bits w 20 16))) / 4096

/-! ## The status page (R366) -/

/-- The run of a group that the page describes: the active one, or the latest on the core's engine since the launch of the slot's task. -/
def pageRun (s : State) (core g : Nat) : Option Run :=
  match runOf s (core / 32) g with
  | some r => some r
  | none => (s.cxe (core / 32)).ended.find (s.slotOf core * 64 + g)

/-- Word `w` of the page (R366). LEFT counts the pass under way: COUNT in the first pass, 1 in the last (DESIGN CHOICE, log 105). -/
def colPage (s : State) (core g w : Nat) (waiting : Bool) : Nat :=
  let e := s.cxe (core / 32)
  match pageRun s core g with
    | none => 0
    | some r =>
      match w with
      | 4 => e.units.length % 2 ^ 16 + (e.runs.length % 16) * 2 ^ 16
      | 0 => b2n r.active + b2n (r.active && waiting) * 2 + b2n r.aborted * 4 + (r.pc % 1024) * 2 ^ 3 + (r.rank % 512) * 2 ^ 13
          + ((match r.loopAt with | some (_, _, n, _) => n | none => 0) % 256) * 2 ^ 22 + (r.epoch % 2 ^ 16) * 2 ^ 32
          + (if r.active then 0 else (r.status % 256) * 2 ^ 48)
      | 1 => r.sig
      | 2 => r.satn % 2 ^ 32 + (r.nword % 2 ^ 32) * 2 ^ 32
      | 3 => r.deny
      | _ => 0

/-! ## Instructions (R364–R368) -/

/-- ILLEGAL class 0x13 (R368). -/
def colIllegal (reason operand : Nat) : Stop := illegalOp 0x13 reason operand

/-- COLSTART waits in its phase's lot (R365); one that a replay issues again, and that departed at a HALT before the cancel, starts nothing again (R339; log
99). The full lot's ILLEGAL, of the lower class, comes first (R88, R326). -/
def execColstart (f : FP2) (s : State) : Host.Outcome State Fault Refusal :=
  issue s { handlerOk := false } (fun s => do
    let fs : List Src := [(f.a.toNat, false), (f.b.toNat, false)]
    lotRoom s (seenOr s (f.a.toNat, false)).toNat
    operandFirst s (f.a.toNat, false) (fun a => a % 8 == 0 && a >>> 23 == 0) 0x13 0x01
    operandFirst s (f.b.toNat, false) (fun b => b >>> 10 == 0) 0x13 0x02
    let vs ← srcVals s fs
    let a := (vs.headD 0).toNat
    let b := (vs.getD 1 0).toNat
    let ph := phaseNow s
    return ((popSrcs s fs).modCur (fun c =>
      if againCols c ph < sentCols c ph then { c with seenCols := c.seenCols + 1 }
      else { c with cols := c.cols ++ [⟨ph, a, bits b 8 0, bitB b 9⟩] }), .seq 1))

/-- A group of the partition with a valid entry (R368). -/
def groupOk (s : State) (g : Nat) : Bool := groupValid (s.part s.curPart) (g % 64)

/-- A send of the run that its receiver's engine has not buffered (R349). -/
def sendsOut (s : State) (die : Nat) (r : Run) : Bool :=
  (s.cxe die).outbox.any (fun p => p.2.group == r.group && p.2.epoch == r.epoch && p.2.sender == r.rank)

/-- The current word of the active run of a group awaits a unit, a delivery or a flag. -/
def runWaits (s : State) (core g : Nat) : Bool :=
  match runOf s (core / 32) g with
  | none => false
  | some r =>
    let w := r.words.getD r.pc 0
    match bits w 31 27 with
    | 0x02 => (nextUnit s (core / 32) r).isNone
    | 0x03 => (nextUnit s (core / 32) r).isNone
    | 0x05 => (nextUnit s (core / 32) r).isNone
    | 0x06 =>
      if bitB w 10 then
        let d := r.desc (bits w 5 0)
        !(flagOf (runCtx s r) ((d.addr + 128 * d.cw * r.chunk (BitVec.ofNat 5 (bits w 20 16))) / 4096)).ready
      else decide (r.undelivered > 0) || sendsOut s (core / 32) r
    | 0x0A => decide (r.mcDone < r.mcDue) || decide (r.undelivered > 0)
    | _ => false

/-- COLSTAT has the engine write the page of a group as an untimed 64-byte plain arrival, or in handler mode gives one word of it (R366). The page
is as it stands on the issue cycle, and comes 48 wall cycles later at the earliest, hold or no hold (R15, R39; log 32). -/
def execColstat (f : FP2) (s : State) : Host.Outcome State Fault Refusal :=
  issue s {} (fun s => do
    let h := s.cur.handler
    let fs : List Src := if h then [(f.a.toNat, false)] else [(f.a.toNat, false), (f.b.toNat, false)]
    if h then dstOk s f.b.toNat
    operandFirst s (f.a.toNat, false) (fun a => groupOk s a) 0x13 0x03
    operandFirst s (f.a.toNat, false) (fun a => bits a 7 6 == 0 && a >>> 11 == 0 && (h || bits a 10 8 == 0)) 0x13 0x04
    if !h then operandFirst s (f.b.toNat, false) (fun b => b % 64 == 0 && b >>> 23 == 0) 0x13 0x04
    let vs ← srcVals s fs
    let a := (vs.headD 0).toNat
    let b := (vs.getD 1 0).toNat
    let g := a % 64
    let page (w : Nat) : Nat := colPage s s.curCore g w (runWaits s s.curCore g)
    if h then return (result s 1 f.b.toNat (BitVec.ofNat 64 (page (bits a 10 8))), .seq 1)
    else
      return (sendArrival (popSrcs s fs) s.curCore
        { slot := s.slotOf s.curCore, due := s.cur.now, issue := some s.cur.now, src := none,
          srcOrder := 2 ^ 16 + s.curCore / 32, addr := b, perm := 0, data := (List.range 8).flatMap (fun w => bytesOf 8 (page w)),
          tag := none, poison := none, run := none, bar := none, wall := s.wb + 48, gap := false, came := 0 }, .seq 1))

/-- COLABORT departs at once to the die's engine (R367). -/
def execColabort (f : FP1) (s : State) : Host.Outcome State Fault Refusal :=
  issue s {} (fun s => do
    let fs : List Src := [(f.a.toNat, false)]
    let vs ← srcVals s fs
    let a := (vs.headD 0).toNat
    if !groupOk s a then throw (colIllegal 0x03 a)
    if a >>> 6 != 0 then throw (colIllegal 0x05 a)
    let d := s.curCore / 32
    let e := s.cxe d
    return ((popSrcs s fs).setCxe d { e with stops := e.stops ++ [a % 64] }, .seq 1))

end Sys2Proof.Machine
end

