-- ==== Sys2Proof/Machine/CollectiveWords.lean ====
section
/-! DEFINITION. The collective words (R347, R349, R350, R354–R359): each acts for the active run of group `curGroup` on the
engine of die `curDie`. A word that waits leaves the state as it is. -/

namespace Sys2Proof.Machine

/-- What a word comes to: it waits, it is executed, it finds a unit that is not its own, or its port access faults. -/
inductive CxRes where
  | wait
  | done (s : State) (r : Run)
  | mismatch
  | fault (st : Stop)

/-- The run after a word: NWORD counts it, and the next word follows or the loop's next pass begins (R347, R349). -/
def cxNext (r : Run) (wb : Nat) : Run :=
  let r1 := { r with nword := satAdd 32 r.nword 1, lastWb := wb }
  match r.loopAt with
  | some (first, last, left, i) =>
    if r.pc = last then
      if left > 1 then { r1 with pc := first, loopAt := some (first, last, left - 1, i + 1) }
      else { r1 with pc := last + 1, loopAt := none }
    else { r1 with pc := r.pc + 1 }
  | none => { r1 with pc := r.pc + 1 }

/-- A collective word executes for the current run. -/
def cxWord (s : State) (act : State → Run → CxRes) : Host.Outcome State Fault Refusal :=
  match runOf s s.curDie s.curGroup with
  | none => .next s
  | some r =>
    match act s r with
    | .wait => .next s
    | .done t r1 => .next (putRun t s.curDie (cxNext r1 s.wb))
    | .mismatch => .next (abortRun s s.curDie r 0x03)
    | .fault st => .next (portFault s s.curDie r st)

/-- SATN with a Narrow's saturations added, saturating itself (R350). -/
def countSat (r : Run) (n : Nat) : Run := { r with satn := satAdd 32 r.satn n }

/-- Elements, poison and saturations of chunk `k` of a slot narrowed to a format (R349, R350). -/
def ownNarrowed (s : State) (r : Run) (slot k fmt : Nat) : Res (List Nat × Nat × Option Nat) := do
  let o ← ownChunk s r slot k
  let v := narrowAll (r.desc slot).fmt fmt o.1
  return (v.1, v.2, o.2)

/-- The sum of a unit's elements and the own ones, as many as both have, rounded once into the wire format (R349; log 41). -/
def sumUnits (wfmt fmt : Nat) (us os : List Nat) : List Nat :=
  (List.zip us os).map (fun p =>
    if isIntFmt wfmt then ofInt (fmtWidth wfmt) (decodeInt wfmt p.1 + decodeInt fmt p.2)
    else (addTo wfmt (decodeVal wfmt p.1) (decodeVal fmt p.2) 0 false).1)

/-- The unit that a receiving word takes: none yet, not its own, or its elements, however many they are (R349; DESIGN CHOICE,
log 41). -/
def takeUnit (s : State) (r : Run) (k wfmt : Nat) (go : State → Run → ColUnit → CxRes) : CxRes :=
  match nextUnit s s.curDie r with
  | none => .wait
  | some u =>
    if u.chunk != k || u.wfmt != wfmt then .mismatch
    else go (dropUnit s s.curDie u) { r with taken := r.taken ++ [(u.sender, u.seqNo)] } u

/-- A chunk of wire elements written into a slot (R349). -/
def writeNarrowed (s : State) (r : Run) (slot k src : Nat) (es : List Nat) (p : Option Nat) : CxRes :=
  let v := narrowAll src (r.desc slot).fmt es
  let t := runWrite s s.curDie (countSat r v.2) slot k v.1 p
  .done t.1 t.2

def execCxNop (s : State) : Host.Outcome State Fault Refusal := cxWord s (fun s r => .done s r)

def execCxSend (f : FCxData) (s : State) : Host.Outcome State Fault Refusal :=
  cxWord s (fun s r =>
    let k := r.chunk f.ck
    match ownNarrowed s r f.slot.toNat k f.wfmt.toNat with
    | .error st => .fault st
    | .ok (es, n, p) =>
      let t := sendUnit s s.curDie (countSat r n) r.peer none k f.wfmt.toNat es p
      .done t.1 t.2)

def execCxRecv (f : FCxData) (s : State) : Host.Outcome State Fault Refusal :=
  cxWord s (fun s r =>
    let k := r.chunk f.ck
    takeUnit s r k f.wfmt.toNat (fun s r u => writeNarrowed s r f.slot.toNat k f.wfmt.toNat u.data u.poison))

def execCxRrs (f : FCxData) (s : State) : Host.Outcome State Fault Refusal :=
  cxWord s (fun s r =>
    let k := r.chunk f.ck
    takeUnit s r k f.wfmt.toNat (fun s r u =>
      match ownChunk s r f.slot.toNat k with
      | .error st => .fault st
      | .ok o =>
        let t := sendUnit s s.curDie r r.peer none k f.wfmt.toNat
          (sumUnits f.wfmt.toNat (r.desc f.slot.toNat).fmt u.data o.1) (mergePoison u.poison o.2)
        .done t.1 t.2))

def execCxRed (f : FCxData) (s : State) : Host.Outcome State Fault Refusal :=
  cxWord s (fun s r =>
    let k := r.chunk f.ck
    takeUnit s r k f.wfmt.toNat (fun s r u =>
      match ownChunk s r f.slot.toNat k with
      | .error st => .fault st
      | .ok o =>
        writeNarrowed s r f.slot.toNat k f.wfmt.toNat
          (sumUnits f.wfmt.toNat (r.desc f.slot.toNat).fmt u.data o.1) (mergePoison u.poison o.2)))

def execCxCopy (f : FCxCopy) (s : State) : Host.Outcome State Fault Refusal :=
  cxWord s (fun s r =>
    let k := r.chunk f.ck
    match ownChunk s r f.src.toNat k with
    | .error st => .fault st
    | .ok o => writeNarrowed s r f.slot.toNat k (r.desc f.src.toNat).fmt o.1 o.2)

/-- WAIT, MODE 0: every earlier write and send has been delivered; a scratchpad write is with its bank controller at once (R349,
R358). -/
def execCxWaitDelivery (_ : FCxWaitD) (s : State) : Host.Outcome State Fault Refusal :=
  cxWord s (fun s r => if r.undelivered > 0 || sendsOut s s.curDie r then .wait else .done s r)

/-- WAIT, MODE 1: the ready flag of the granule of chunk k's first byte (R349). -/
def execCxWaitFlag (f : FCxWaitF) (s : State) : Host.Outcome State Fault Refusal :=
  cxWord s (fun s r =>
    let d := r.desc f.slot.toNat
    if (flagOf (runCtx s r) ((d.addr + 128 * d.cw * r.chunk f.ck) / 4096)).ready then .done s r else .wait)

def execCxLoop (f : FCxLoop) (s : State) : Host.Outcome State Fault Refusal :=
  cxWord s (fun s r => .done s { r with loopAt := some (r.pc + 1, r.pc + f.body.toNat, f.count.toNat, 0) })

/-- A rank at a distance from the run's own (R347). -/
def Run.rankAt (r : Run) (k : Int) : Nat := (((r.rank : Int) + k) % (r.count : Int)).toNat

def execCxPeer (f : FCxPeer) (s : State) : Host.Outcome State Fault Refusal :=
  cxWord s (fun s r => .done s { r with peer := r.rankAt f.k.toInt, pred := r.rankAt (-f.k.toInt) })

/-- MCAST: to a paged slot a write, to a scratchpad slot a unit to every other member in ascending rank (R349). -/
def execCxMcast (f : FCxMcast) (s : State) : Host.Outcome State Fault Refusal :=
  cxWord s (fun s r =>
    let k := r.chunk f.ck
    match ownNarrowed s r f.slot.toNat k f.wfmt.toNat with
    | .error st => .fault st
    | .ok (es, n, p) =>
      let r1 := countSat r n
      if (r.desc f.dst.toNat).kind = 1 then writeNarrowed s r1 f.dst.toNat k f.wfmt.toNat es p
      else
        let t := ((List.range r.n).filter (fun q => q != r.rank)).foldl (fun (t : State × Run) q =>
          sendUnit t.1 s.curDie t.2 q (some f.dst.toNat) k f.wfmt.toNat es p) (s, r1)
        .done t.1 t.2)

/-- DONE waits until every MCAST unit due has been applied and, since the record follows every write of the run and shows its denials, until the owners have
answered its paged writes; then it writes the record (R329, R349, R356, R359; DEDUCED, log 89). -/
def execCxDone (f : FCxSlot) (s : State) : Host.Outcome State Fault Refusal :=
  match runOf s s.curDie s.curGroup with
  | none => .next s
  | some r =>
    if r.mcDone < r.mcDue || r.undelivered > 0 then .next s
    else
      let r1 := { r with nword := satAdd 32 r.nword 1, lastWb := s.wb, status := 0, recSlot := some f.slot.toNat }
      .next (endRun s s.curDie r1)

end Sys2Proof.Machine
end

