-- ==== Sys2Proof/Machine/EngineOps.lean ====
section
/-! DEFINITION. What memory command engines share with the cores that command them: paths (R208), timing fields (R237), the task of
an engine (R207), MEMTIME (R221, R222), the stop of a table (R223, R235), and the status pages (R236–R238). -/

namespace Sys2Proof.Machine

/-- Engines of a die. -/
def engNo (die e : Nat) : Nat := die * 128 + e

/-- Path latency between engine `e` and core `c` of a die (R208). -/
def pathLat (e c : Nat) : Nat := 6 + 2 * (max (e / 32) (c / 8) - min (e / 32) (c / 8))

/-- A timing word as reset (R237). -/
def timingReset : Nat → Nat
  | 0 => 36 + 36 * 2 ^ 16 + 80 * 2 ^ 32 + 116 * 2 ^ 48
  | 1 => 4 + 6 * 2 ^ 16 + 32 * 2 ^ 32 + 2 * 2 ^ 48
  | 2 => 4 + 36 * 2 ^ 16 + 8 * 2 ^ 32 + 20 * 2 ^ 48
  | 3 => 14 + 8 * 2 ^ 16 + 840 * 2 ^ 32 + 400 * 2 ^ 48
  | 4 => 9360 + 585 * 2 ^ 16 + 52 * 2 ^ 32 + 12 * 2 ^ 48
  | 5 => 8 * 2 ^ 16
  | _ => 0

/-- The fields of a timing word: its reserved bits stay 0 (R5, R237). -/
def timingFields (w v : Nat) : Word := BitVec.ofNat 64 (v % (if w ≤ 4 then 2 ^ 64 else if w = 5 then 2 ^ 20 else 1))

/-- Word `w` of page 1 of an engine (R237). -/
def timingWord (e : EngSt) (w : Nat) : Nat := ((e.timing.find w).map BitVec.toNat).getD (timingReset w)

/-- Field `k` of a timing word. -/
def tim (e : EngSt) (w k : Nat) : Nat := bits (timingWord e w) (16 * k + 15) (16 * k)

namespace EngSt
def tRCD (e : EngSt) := tim e 0 0
def tRP (e : EngSt) := tim e 0 1
def tRAS (e : EngSt) := tim e 0 2
def tRC (e : EngSt) := tim e 0 3
def tRRDS (e : EngSt) := tim e 1 0
def tRRDL (e : EngSt) := tim e 1 1
def tFAW (e : EngSt) := tim e 1 2
def tCCDS (e : EngSt) := tim e 1 3
def tCCDL (e : EngSt) := tim e 2 0
def tWR (e : EngSt) := tim e 2 1
def tWTRS (e : EngSt) := tim e 2 2
def tWTRL (e : EngSt) := tim e 2 3
def tRTW (e : EngSt) := tim e 3 0
def tRTP (e : EngSt) := tim e 3 1
def tRFCab (e : EngSt) := tim e 3 2
def tRFCpb (e : EngSt) := tim e 3 3
def tREFI (e : EngSt) := tim e 4 0
def tREFIpb (e : EngSt) := tim e 4 1
def rlBase (e : EngSt) := tim e 4 2
def wlBase (e : EngSt) := tim e 4 3
def arena (e : EngSt) := tim e 5 0
def maxPost (e : EngSt) : Nat := bits (timingWord e 5) 19 16
/-- OWED of a bank (R224). -/
def owe (e : EngSt) (b : Nat) : Int := e.owed.getD b 0
/-- A cursor by number (R214). -/
def cursor (e : EngSt) : Nat → Cursor
  | 0 => e.cur0 | 1 => e.cur1 | 2 => e.cur2 | _ => e.cur3
def setCursor (e : EngSt) (n : Nat) (x : Cursor) : EngSt :=
  match n with
  | 0 => { e with cur0 := x } | 1 => { e with cur1 := x } | 2 => { e with cur2 := x } | _ => { e with cur3 := x }
/-- The engine runs a table, or is to start one. -/
def busy (e : EngSt) : Bool := e.st != .idle
/-- A bank holds an open row. -/
def isOpen (e : EngSt) (b : Nat) : Bool := (e.rows.find b).isSome
/-- Open banks, ascending. -/
def openBanks (e : EngSt) : List Nat := (List.range 16).filter e.isOpen
end EngSt

/-! ## The task of an engine -/

/-- Die, partition and domain of an engine number. -/
def engDie (n : Nat) : Nat := n / 128
def engPart (s : State) (n : Nat) : Nat := s.partOfDie (engDie n)
def engSlot (s : State) (n : Nat) : Nat := ((s.part (engPart s n)).runSlot).getD 0
def engDom (s : State) (n : Nat) : Domain := s.dom (engPart s n) (engSlot s n)
/-- TB0 of the task of an engine, once it has been formed. -/
def engTb0? (s : State) (n : Nat) : Option Nat := (engDom s n).task.bind (·.tb0)

/-- TB0 of the task of an engine. -/
def engTb0 (s : State) (n : Nat) : Nat := ((engDom s n).task.bind (·.tb0)).getD 0
/-- Cores of the task on the engine's die, ascending. -/
def engCores (s : State) (n : Nat) : List Nat :=
  (((engDom s n).task.map (·.cores)).getD []).filter (fun c => c / 32 == engDie n)

/-- The controller of a MEMTIME (R222): for an arrival error the core that issued it, for a table the core that started it, else the
lowest core of the task on the die. -/
def memController (s : State) (n : Nat) (arrival : Option Nat) : Nat :=
  match arrival with
  | some c => c
  | none =>
    let e := s.engOf n
    if e.st == .started || e.st == .running then 32 * engPart s n + e.ctrl else (engCores s n).headD (32 * engDie n)

/-- EINFO of MEMTIME (R222). -/
def memInfo (n : Nat) (e : EngSt) (reason rule bank deficit : Nat) : Nat :=
  reason + rule * 2 ^ 8 + bank * 2 ^ 16 + (n % 128) * 2 ^ 20 + (e.pc % 1024) * 2 ^ 32 + (min deficit 0xFFFF) * 2 ^ 42

/-- The current engine takes MEMTIME on its cycle and freezes (R221). -/
def memTrap (s : State) (reason rule bank deficit : Nat) (arrival : Option Nat := none) : State :=
  let n := s.curEng
  let c := memController s n arrival
  s.modEng (fun e => { e with
    st := .trapped, prior := e.st, reason := reason, frozen := some ⟨e.now, 5, true, false⟩,
    trapInfo := some (e.now, memInfo n e reason rule bank deficit, c), told := false })

/-- The kind of a MCBASE that its engine has accepted (R233). -/
def mcbaseAccepted : Nat := 5

/-! ## Table words -/

/-- A word of the table, or nothing where it was not loaded (R210). -/
def tableAt (e : EngSt) (i : Nat) : Option Nat := if i < e.loaded then some (e.table.getD i 0) else none

/-- DLY of the word at the engine's PC (R209). -/
def dlyAt (e : EngSt) : Option Nat := (tableAt e e.pc).map (fun w => bits w 31 24)

/-- The cycle on which the word at the PC falls due (R211); `tb0` is TB0 of the task. A word that was not loaded and a DLY of 0 other
than on word 0 fall due as with DLY 1. -/
def wordDue (e : EngSt) (tb0 : Nat) : Nat :=
  match dlyAt e with
  | none => if e.first then tb0 + e.start + 1 else e.lastIssue + e.wait + 1
  | some d => if e.first then tb0 + e.start + d else e.lastIssue + e.wait + (if d = 0 then 1 else d)

/-- The word at the PC has issued on the present cycle; the next is at `pc`, after a wait (R211). -/
def wordDone (e : EngSt) (pc wait : Nat) : EngSt :=
  { e with lastIssue := e.now, wait := wait, first := false, pc := pc, ncmd := min (e.ncmd + 1) 0xFFFFFFFF }

/-- What LOOP does to its level (R212): the level's counter and active bit, and the next PC. -/
def loopWord (left : Nat) (act : Bool) (k target count : Nat) : Nat × Bool × Nat :=
  let l := if act then left else count
  if l > 0 then (l - 1, true, target) else (l, false, k + 1)

/-- A LOOP word at the PC (R212). -/
def loopStep (e : EngSt) (level target count : Nat) : EngSt :=
  if level = 0 then
    let r := loopWord e.left0 e.act0 e.pc target count
    wordDone { e with left0 := r.1, act0 := r.2.1 } r.2.2 0
  else
    let r := loopWord e.left1 e.act1 e.pc target count
    wordDone { e with left1 := r.1, act1 := r.2.1 } r.2.2 0

/-- The selected cursor moved on (R215). -/
def moveCur (e : EngSt) (stp : Nat) : EngSt :=
  let x := e.cursor e.curSel
  e.setCursor e.curSel { x with addr := (x.addr + 64 * stp) % 2 ^ 23 }

/-! ## Announced takes (R215) -/

/-- A take that a word of the table announces: issue cycle, core as partition rank, address. -/
structure Announce where
  issue : Nat
  rank : Nat
  addr : Nat
  deriving DecidableEq, Repr

/-- The engine once the MCBINDs on their way to it that arrive by cycle `c` have set their cursors, the latest of a cursor last (R220, R232). -/
def bindsBy (c : Nat) (e : EngSt) : EngSt :=
  let come (m : McMsg) : Bool := m.fn == 3 && decide (m.due ≤ c)
  let last (k : Nat) : Option McMsg := (e.inbox.filter (fun m => come m && bits m.a 9 8 == k)).foldl (fun b m => match b with
    | none => some m
    | some x => if m.due < x.due || (m.due == x.due && decide (m.core < x.core)) then some x else some m) none
  { (List.range 4).foldl (fun (e : EngSt) k => match last k with
      | some m => e.setCursor k ⟨true, bits m.b 31 24, bits m.b 22 0⟩
      | none => e) e with inbox := e.inbox.filter (fun m => !come m) }

/-- The course of a table as if each word issued, for the words that fall due before a cycle: the takes it announces (R215). Cursors are as the MCBINDs that
arrive in between leave them (R232). -/
def announce (tb0 till : Nat) : Nat → EngSt → List Announce
  | 0, _ => []
  | n + 1, e =>
    match tableAt e e.pc with
    | none => []
    | some w =>
      let c := wordDue e tb0
      if c ≥ till then []
      else
        let f := { bindsBy c e with now := c }
        match bits w 23 20 with
        | 0x2 => announce tb0 till n (wordDone (moveCur f (bits w 10 0)) (f.pc + 1) 0)
        | 0x3 =>
          let x := f.cursor f.curSel
          (if x.valid then [⟨c, x.rank, x.addr⟩] else [])
            ++ announce tb0 till n (wordDone (moveCur f (bits w 10 0)) (f.pc + 1) 0)
        | 0x9 => announce tb0 till n (wordDone { f with curSel := bits w 1 0 } (f.pc + 1) 0)
        | 0xB => announce tb0 till n (loopStep f (bits w 19 19) (bits w 18 9) (bits w 8 0))
        | 0xC => []
        | 0xD => announce tb0 till n (wordDone f (f.pc + 1) (bits w 19 0))
        | _ => announce tb0 till n (wordDone f (f.pc + 1) 0)

/-- A move put on its way to a core. -/
def sendMove (s : State) (core : Nat) (m : Move) : State :=
  s.setCore core { s.core core with moves := (s.core core).moves ++ [m] }

/-- The take of a WR that has not issued, on cycle `due`; `void` where the WR never issues (R215). -/
def takeMove (s : State) (n issue addr due : Nat) (void : Bool) : Move :=
  { slot := engSlot s n, due := due, isWr := true, eng := n, issue := issue, addr := addr, dram := 0, data := [], wsrc := 0,
    early := !void, void := void, tags := [], poison := none }

/-- The announced takes of WRs that do not issue: each has its bank access and its checks, no more, on the cycles that its core has still
to run (R215). `e` is the engine before it stops on cycle `c`; `p` picks the WRs by their issue cycle. -/
def voidTakes (s : State) (n c : Nat) (e : EngSt) (p : Nat → Bool) : State :=
  ((announce (engTb0 s n) (c + Config.hop) Config.hop e).filter (fun x => p x.issue)).foldl (fun s x =>
    let core := 32 * engPart s n + x.rank
    let due := x.issue + e.wlBase - pathLat (n % 128) (core % 32)
    let k := s.core core
    let s1 := s.setCore core { k with moves := k.moves.filter (fun m => !(m.early && m.eng == n && m.issue == x.issue)) }
    if (s.ctxOf core (engSlot s n)).now ≤ due then sendMove s1 core (takeMove s n x.issue x.addr due true) else s1) s

/-! ## Stopping (R223, R235) -/

/-- MCSTOP mode 0 on an engine that is not TRAPPED (R235). -/
def stopTable (e : EngSt) : EngSt := if e.st == .started || e.st == .running then { e with stopping := true } else e

/-- A table is to start as a MCSTART asks, PC, loops and counts anew (DESIGN CHOICE, log 40); `p` is the engine's partition
(R234). -/
def startedBy (p : Nat) (m : McMsg) (e : EngSt) : EngSt :=
  { e with
    st := .started, start := bits m.b 31 0, ctrl := m.core - 32 * p, pc := 0, first := true, wait := 0, ncmd := 0, left0 := 0, left1 := 0
    act0 := false, act1 := false, rdLog := [], stopping := false }

/-- A TRAPPED engine as the failing word found it: word 0 may fail on the very cycle on which the MCSTART of its table arrives, which the replay
then does not bring again (R223, R234). -/
def atTrap (p : Nat) (e : EngSt) : EngSt :=
  match (if e.prior == .idle && e.reason != 0x03 && e.reason != 0x09 then e.inbox.find? (fun m => m.fn == 0 && m.due == e.now) else none) with
  | some m => { startedBy p m e with st := .running, inbox := e.inbox.erase m }
  | none => { e with st := e.prior }

/-- MCSTOP mode 0 on an engine as its failing word found it (R223): its words never issue, OWED is forgiven and the keeper pays it. How many
refreshes that is the spec leaves open: HW goes up by the largest OWED of any bank times tREFI (DESIGN CHOICE, log 103). -/
def stopTrapped (e : EngSt) : EngSt :=
  let most := (List.range 16).foldl (fun a b => max a (e.owe b)) 0
  { e with stopping := e.st == .started || e.st == .running, owed := [], hw := e.hw + most * (e.tREFI : Int),
           inbox := if e.reason = 0x09 then e.inbox.filter (fun m => !(m.due == e.now && (m.fn == 0 || m.fn == 2))) else e.inbox }

/-- MCSTOP mode 1 on such an engine (R223): the failing word counts as issued with no effect. -/
def skipTrapped (e : EngSt) : EngSt := wordDone e (e.pc + 1) 0

/-- Engine `n` is stopped before the word of its cycle (R235): the WRs that it announced do not issue. -/
def stopEngine (s : State) (n : Nat) : State :=
  let e := s.engOf n
  let t := if e.st == .started || e.st == .running then voidTakes s n e.now e (fun _ => true) else s
  t.setEngOf n (stopTable (t.engOf n))

/-- A trapped engine `n` is stopped, or skips its failing word (R223): the WRs that do not issue leave their takes without effect. -/
def resolveEngine (s : State) (n : Nat) (skip : Bool) : State :=
  let e := s.engOf n
  let f := atTrap (engPart s n) e
  let t := if f.st == .started || f.st == .running then voidTakes s n e.now f (fun i => !skip || i == e.now) else s
  t.setEngOf n (if skip then skipTrapped f else stopTrapped f)

/-- Reasons that mode 1 may skip (R223). -/
def skippable (reason : Nat) : Bool := [0x01, 0x02, 0x05, 0x06, 0x07].contains reason

/-! ## Status pages (R236–R238) -/

/-- A cursor as the page shows it. -/
def cursorWord (x : Cursor) : Nat := x.addr % 2 ^ 23 + b2n x.valid * 2 ^ 23 + (x.rank % 256) * 2 ^ 24

def mcStateCode : McState → Nat
  | .idle => 0 | .started => 1 | .running => 2 | .trapped => 3

/-- Banks under refresh on the engine's cycle. -/
def refreshing (e : EngSt) (b : Nat) : Bool :=
  (match e.refAt.find b with | some r => decide (e.now < r + e.tRFCpb) | none => false)
    || (match e.refAll with | some r => decide (e.now < r + e.tRFCab) | none => false)

/-- A set of banks as a mask. -/
def bankMask (p : Nat → Bool) : Nat := ((List.range 16).map (fun b => b2n (p b) * 2 ^ b)).sum

/-- OWED of eight banks as signed bytes (R238). -/
def owedWord (e : EngSt) (b0 : Nat) : Nat := ofFields 8 ((List.range 8).map (fun k => ofInt 8 (e.owe (b0 + k))))

/-- Word `w` of a page (R236–R238); `tb0` is TB0 of the task. -/
def pageWord (e : EngSt) (tb0 page w : Nat) : Nat :=
  match page with
  | 0 =>
    match w with
    | 0 => mcStateCode e.st + b2n (decide (e.loaded > 0)) * 4 + (e.pc % 1024) * 2 ^ 3 + b2n e.act0 * 2 ^ 13 + b2n e.act1 * 2 ^ 14
        + (e.reason % 256) * 2 ^ 16 + (e.ctrl % 256) * 2 ^ 24 + (e.start % 2 ^ 32) * 2 ^ 32
    | 1 => (e.lastIssue - tb0) % 2 ^ 32 + (min e.ncmd 0xFFFFFFFF) * 2 ^ 32
    | 2 => bankMask e.isOpen + bankMask (refreshing e) * 2 ^ 16 + (e.left0 % 512) * 2 ^ 32 + (e.left1 % 512) * 2 ^ 41
    | 3 => cursorWord e.cur0 + cursorWord e.cur1 * 2 ^ 32
    | 4 => cursorWord e.cur2 + cursorWord e.cur3 * 2 ^ 32
    | 5 => e.curSel % 4 + (min e.windows 0xFFFF) * 2 ^ 16 + (min e.paged 0xFFFFFFFF) * 2 ^ 32
    | 6 => min e.holds 0xFFFFFFFF + (e.scrub % 2 ^ 32) * 2 ^ 32
    | _ => 0
  | 1 => timingWord e w
  | _ =>
    match w with
    | 0 => owedWord e 0
    | 1 => owedWord e 8
    | 2 => e.ticks % 2 ^ 32 + (e.standing % 2 ^ 32) * 2 ^ 32
    | 3 => ofInt 64 e.hw
    | _ => 0

end Sys2Proof.Machine
end

