-- ==== Sys2Proof/Machine/Paged.lean ====
section
/-! DEFINITION. Paged loads, stores, migration, AUSTAT and FENCE: majors 0x1C–0x1E and FENCE of 0x3A (R302, R307–R313, R320–R326). -/

namespace Sys2Proof.Machine

/-- A virtual address with a bit of [63:57] set (R302, R326); `opd` is the operand that EINFO shows. -/
def vaCheck (a opd : Nat) : Res Unit := if a >>> 57 != 0 then .error (illegalOp 0x12 0x01 opd) else .ok ()

/-- Alignment of a paged access (R326). -/
def vaAligned (a size opd : Nat) : Res Unit := if a % size != 0 then .error (illegalOp 0x12 0x02 opd) else .ok ()

/-- Keep-or-pop address plus displacement times size (R320, R321). -/
def dispAddr (x : Word) (disp : BitVec 5) (size : Nat) : Nat := (x + BitVec.ofInt 64 (disp.toInt * (size : Int))).toNat

/-! ## LDS and STS (R320, R321) -/

/-- A paged load of a size (R320). -/
def loadIssue (f : FLs) (size : Nat) (signed : Bool) (s : State) : Host.Outcome State Fault Refusal :=
  issue s { handlerOk := false } (fun s => do
    let a : Src := (f.a.toNat, f.ka)
    let vs ← srcVals s [a]
    let va := dispAddr (vs.headD 0) f.disp size
    vaCheck va (vs.headD 0).toNat
    vaAligned va size (vs.headD 0).toNat
    let d := f.d.toNat
    if s.onSys then
      return ← sysPaged s (if d = 0 then .touch else .load) va size 0 none (fun t v =>
        writeG t d (loadWordOf { auNew t .load va size with signed := signed, value := v }))
    let r := { auNew s (if d = 0 then .touch else .load) va size with signed := signed, dest := d }
    return ((auEnter (popSrcs s [a]) r).modCur (fun c => reserveQ c d r.seqNo), .seq 1))

def execLdsD (f : FLs) (s : State) := loadIssue f 8 false s
def execLdsWu (f : FLs) (s : State) := loadIssue f 4 false s
def execLdsWs (f : FLs) (s : State) := loadIssue f 4 true s
def execLdsHu (f : FLs) (s : State) := loadIssue f 2 false s
def execLdsBu (f : FLs) (s : State) := loadIssue f 1 false s

/-- The address of a store and the room in the lot are judged before a trap of an operand (R89, R326). -/
def storeAddrFirst (s : State) (a : Src) (addr : Word → Nat) (size : Nat) : Res Unit := do
  peekCheck s a (fun x => do vaCheck (addr x) x.toNat; vaAligned (addr x) size x.toNat)
  if s.onSys then pure () else lotRoom s (seenOr s a).toNat

/-- A store enters the filling lot (R307, R321, R323). -/
def storeEnter (s : State) (fs : List Src) (va size : Nat) (v : Word) : State :=
  auEnter (popSrcs s fs) { auNew s .store va size with b0 := v }

/-- A paged store of a size: the data is popped from D (R321). -/
def storeIssue (f : FLs) (size : Nat) (s : State) : Host.Outcome State Fault Refusal :=
  issue s { handlerOk := false } (fun s => do
    let a : Src := (f.a.toNat, f.ka)
    let d : Src := (f.d.toNat, false)
    storeAddrFirst s a (fun x => dispAddr x f.disp size) size
    let vs ← srcVals s [a, d]
    if s.onSys then
      return ← sysPaged s .store (dispAddr (vs.headD 0) f.disp size) size (vs.getD 1 0).toNat none (fun t _ => t)
    return (storeEnter s [a, d] (dispAddr (vs.headD 0) f.disp size) size (vs.getD 1 0), .seq 1))

def execStsD (f : FLs) (s : State) := storeIssue f 8 s
def execStsW (f : FLs) (s : State) := storeIssue f 4 s
def execStsH (f : FLs) (s : State) := storeIssue f 2 s
def execStsB (f : FLs) (s : State) := storeIssue f 1 s

/-! ## LDQ and STQ (R322, R323) -/

/-- LAND with the address of the next line fill (R313, R322). -/
def landNext (c : Ctx) : Ctx :=
  { c with land := BitVec.ofNat 64 (putBits c.land.toNat 22 0 ((bits c.land.toNat 22 0 + 128) % 2 ^ 23)) }

/-- LDQ: the word form and the line-fill form, by A[2:0] (R322). A load to q0 is a touch (R308). The line is to be stamped with LAND.TAG as it stands
on the issue (DESIGN CHOICE, log 86). -/
def ldq (f : FDA) (s : State) : Host.Outcome State Fault Refusal :=
  issue s { handlerOk := false } (fun s => do
    let a : Src := (f.a.toNat, f.ka)
    let vs ← srcVals s [a]
    let x := (vs.headD 0).toNat
    vaCheck x x
    let d := f.d.toNat
    let op : AuOp := if d = 0 then .touch else if x % 8 = 0 then .load else .fill
    if x % 8 ≥ 2 then throw (illegalOp 0x12 0x03 x)
    if x % 8 = 1 && bits x 6 3 != 0 then throw (illegalOp 0x12 0x02 x)
    let t := popSrcs s [a]
    if x % 8 = 0 then
      let r := { auNew s op x 8 with dest := d }
      return ((auEnter t r).modCur (fun c => reserveQ c d r.seqNo), .seq 1)
    else
      let land := s.cur.land.toNat
      let r := { auNew s op (x - 1) 128 with dest := d, b1 := BitVec.ofNat 64 (bits land 22 0), tag := bits land 63 48 }
      return ((auEnter t r).modCur (fun c => landNext (reserveQ c d r.seqNo)), .seq 1))

def execLdq (f : FDA) (s : State) := ldq f s
def execLdqLineFill (f : FDA) (s : State) := ldq f s

/-- STQ stores B at A (R323). -/
def execStq (f : FAB) (s : State) : Host.Outcome State Fault Refusal :=
  issue s { handlerOk := false } (fun s => do
    let a : Src := (f.a.toNat, f.ka)
    let b : Src := (f.b.toNat, f.kb)
    storeAddrFirst s a BitVec.toNat 8
    let vs ← srcVals s [a, b]
    return (storeEnter s [a, b] (vs.headD 0).toNat 8 (vs.getD 1 0), .seq 1))

/-! ## MIGR, AUSTAT, FENCE (R318, R324, R325) -/

/-- MIGR enters the filling lot with its deadline (R318). -/
def execMigr (f : FAB) (s : State) : Host.Outcome State Fault Refusal :=
  issue s { handlerOk := false } (fun s => do
    let a : Src := (f.a.toNat, f.ka)
    let b : Src := (f.b.toNat, f.kb)
    peekCheck s a (fun x => do vaCheck x.toNat x.toNat; vaAligned x.toNat (2 ^ 16) x.toNat)
    operandFirst s b (fun y => decide (y < 2 ^ 32)) 0x12 0x04
    lotRoom s (seenOr s a).toNat
    let vs ← srcVals s [a, b]
    return (auEnter (popSrcs s [a, b]) { auNew s .migr (vs.headD 0).toNat 65536 with b0 := vs.getD 1 0 }, .seq 1))

/-- A faulted request awaits its trap point (R312): one with an entry as long as the entry stands faulted. -/
def AuReq.awaits (c : Ctx) (r : AuReq) : Bool :=
  r.place == .faulted && r.ahead == 0 && (r.op == .store || r.op == .rstq || r.op == .migr || r.op == .touch
    || c.q.any (fun p => p.2.contains (.faulted r.seqNo)))

/-- A request has departed and has neither landed nor performed (R324); one that its own stores answer departs nowhere (R309),
and to a replay one that departed at a HALT before the cancel has not departed yet (R339). -/
def AuReq.out (r : AuReq) : Bool :=
  r.ahead != 1 && !(r.gated && r.ahead == 2) && (r.place == .departed || r.place == .queued || r.place == .untaken
    || (r.place == .performed && !r.forwarded && (r.op == .load || r.op == .fill || (r.op == .atomic && r.dest != 0))))

/-- The status word of the access unit (R324). -/
def auStatus (s : State) : Word :=
  let c := s.cur
  let faulted := c.aus.filter (AuReq.awaits c)
  let fseq := match c.auHalt with
    | some n => n
    | none => ((faulted.head?).map (·.seqNo)).getD 0
  BitVec.ofNat 64 ((c.aus.filter AuReq.out).length % 512 + (lotCount s % 512) * 2 ^ 9 + b2n c.auHalt.isSome * 2 ^ 18
    + b2n (!faulted.isEmpty) * 2 ^ 19 + (fseq % 2 ^ 32) * 2 ^ 32)

def execAustat (f : FD) (s : State) : Host.Outcome State Fault Refusal :=
  issue1 s true (fun s => do dstOk s f.d.toNat; return result s 1 f.d.toNat (auStatus s))

/-- FENCE is satisfied (R325): no load is out, and the egress of earlier phases has performed; a COLSTART has as it departs (R365; log 41). -/
def fenceDone (s : State) : Bool :=
  !loadsOut s.cur && !s.cur.cols.any (fun x => decide (x.phase < phaseNow s))
    && !s.cur.aus.any (fun r => r.gated && decide (r.phase < phaseNow s) && (r.place == .lot || r.place == .held || r.out))

/-- FENCE waits for loads and for the egress of earlier phases, then delivers a waiting fault; in handler mode it does nothing (R312,
R325). -/
def execFence (s : State) : Host.Outcome State Fault Refusal :=
  issue1 s true (fun s =>
    if s.onSys || s.cur.handler then .ok s
    else if !fenceDone s then .error (.hold 10 0x05)
    else match faultWaiting s.cur with
      | some n => .error (.fault n)
      | none => .ok s)

end Sys2Proof.Machine
end

