-- ==== Sys2Proof/Machine/Tasks.lean ====
section
/-! DEFINITION. The end of a task: the completion record (R23), the slot freed, the engines left idle; and who the cores of a task
are. -/

namespace Sys2Proof.Machine

/-- Cores of the task of a domain, ascending. -/
def taskCores (d : Domain) : List Nat := (d.task.map (·.cores)).getD []

/-- Dies of a partition. -/
def partDies (s : State) (p : Nat) : List Nat := (List.range (s.part p).size).map (p + ·)

/-- Engines that are agents of a domain: those of every die on which the task has a core (R207), in order. -/
def domEngines (d : Domain) : List Nat :=
  (((taskCores d).map (· / 32)).dedup).flatMap (fun die => (List.range 128).map (engNo die))

/-- A core of the task of a slot, with its context. -/
def domCtxs (s : State) (p slot : Nat) : List (Nat × Ctx) := (taskCores (s.dom p slot)).map (fun c => (c, s.ctxOf c slot))

/-- Every context of a task changed. -/
def mapCtxs (s : State) (p slot : Nat) (f : Nat → Ctx → Ctx) : State :=
  (taskCores (s.dom p slot)).foldl (fun s c => s.setCtx c slot (f c (s.ctxOf c slot))) s

/-- Engines of a task. -/
def domEngs (s : State) (p slot : Nat) : List Nat := domEngines (s.dom p slot)

/-- Every engine of a task changed, in one pass. -/
def mapEngs (s : State) (p slot : Nat) (f : Nat → EngSt → EngSt) : State :=
  let ns := domEngs s p slot
  { s with engs := ns.foldl (fun m n => NMap.set m n (f n (NMap.getD m n EngSt.reset))) s.engs }

/-! ## Snapshots (R402) -/

/-- A core latches its snapshot registers with the present state of a slot, of the frozen context where a handler runs: PC, NIC, the segment count and signature, the step counters
of MXA and QZE, lane occupancy and HOLDINFO (R402); which word holds what is the model's (log 13). -/
def snapCore (s : State) (core slot : Nat) : State :=
  let c := s.ctxOf core slot
  let pc := if c.handler then c.epc.toNat else c.pc
  s.setCore core { s.core core with snap :=
    [(0, pc), (1, c.nic.getD (max c.now (c.base + (if c.guard.isSome then 0 else idlAt s core slot pc)))), (2, c.now - c.seg.start),
     (3, c.seg.sig), (4, stationStep c 1), (5, stationStep c 5), (6, c.lanes.length), (7, c.holdinfo.toNat), (8, baseStep c)] }

/-- The snapshot registers of an engine: PC, state, OPENM and OWED. -/
def snapEng (e : EngSt) : EngSt :=
  { e with snap := [(0, e.pc), (1, mcStateCode e.st), (2, bankMask e.isOpen), (3, owedWord e 0), (4, owedWord e 8)] }

/-- The engines of a domain latch their snapshot registers: of a slot that does not run with the state that it was put away with, its registers being the
channel's (R207, R402). -/
def latchEngs (s : State) (p slot : Nat) : State :=
  if (s.part p).runSlot = some slot then mapEngs s p slot (fun _ e => snapEng e)
  else mapEngs s p slot (fun n e => { e with snap := (snapEng (s.engSaved.getD (n * 4 + slot) e)).snap })

/-- Every agent of a domain latches its snapshot registers. -/
def latchDomain (s : State) (p slot : Nat) : State :=
  latchEngs ((taskCores (s.dom p slot)).foldl (fun s c => snapCore s c slot) s) p slot

/-- A trigger counts in SNSEQ (R402). -/
def countTrigger (s : State) (p : Nat) : State := s.setPart p { s.part p with snseq := (s.part p).snseq + 1 }

/-! ## The end of a task (R23) -/

/-- The engine without the state of a task; what belongs to its channel stays (R207, R226). The cycles of an earlier task's WRs, which may be of the
other slot's TB (R24), say nothing of this one's. -/
def engFresh (e : EngSt) : EngSt :=
  { EngSt.reset with timing := e.timing, scrubRow := e.scrubRow, scrubCfg := e.scrubCfg, corrected := e.corrected,
                     queue := e.queue, poison := e.poison, snap := e.snap, busyTill := e.busyTill,
                     refWall := e.refWall, bankWall := e.bankWall, scrubPace := e.scrubPace }

/-- A context whose task has ended: what it holds stays until the next launch clears it (R22), and nothing of it goes on. -/
def ctxFree (c : Ctx) : Ctx :=
  { c with started := false, handler := false, frozen := none, sysCall := none, flight := [], cmds := [], atomics := [], post := [], cols := [] }

/-- An engine whose task has ended: IDLE, its banks closed and refreshed in the wall time that this takes (R226); its page stays until the
next launch. -/
def engDone (wb : Nat) (e : EngSt) : EngSt :=
  { e with st := .idle, stopping := false, inbox := [], svw := none, frozen := none, trapInfo := none, told := false, keeper := 0,
           saved := [], taken := [], rows := []
           busyTill := max e.busyTill (wb + max e.tRAS (max e.tWR e.tRTP) + e.tRP + e.tRFCab)
           refWall := max e.busyTill (wb + max e.tRAS (max e.tWR e.tRTP) + e.tRP + e.tRFCab) }

/-- The 64 bytes of a completion record (R23). TB0 and the times of a task that has none are free values. -/
def completionBytes (s : State) (t : Task) (status : Nat) (tb0 halt wall : Option Nat) : List Byte × State :=
  let pick (o : Option Nat) (s : State) : Nat × State := match o with | some n => (n, s) | none => let r := fresh s; (r.1.toNat, r.2)
  let a := pick tb0 s
  let b := pick halt a.2
  let c := pick wall b.2
  (bytesOf 8 t.task ++ bytesOf 1 status ++ List.replicate 7 0#8 ++ bytesOf 8 a.1 ++ bytesOf 8 b.1 ++ bytesOf 8 c.1
    ++ bytesOf 8 t.holds ++ List.replicate 16 0#8, c.2)

/-- Bytes of the launch unit, of slot 2 or of the hypervisor written at a virtual address of this package; a line written whole loses its mark (R398). -/
def writeVa (s : State) (va : Nat) (bs : List Byte) : State :=
  if vaPkg va = s.pkg.pkg then markLines (pageWrite s (vaDie va) (vaOff va) bs) (vaDie va) (vaOff va) bs.length none else s

/-- Bytes at a virtual address: of this package's paged space, or of another package's. -/
def vaBytes (s : State) (va n : Nat) : List Byte :=
  if vaPkg va = s.pkg.pkg then pageRead s (vaDie va) (vaOff va) n
  else (List.range n).map (fun i => Config.farByte s.free (va + i))

/-- Every page of a range is mapped and grants a right, by its bit in word 0 of the entry (R304); of another package's nothing is known. -/
def vaGrants (s : State) (va n right : Nat) : Bool :=
  vaPkg va != s.pkg.pkg || (gransOf (vaOff va) n).all (fun g =>
    match pageAt (s.die (vaDie va)) (g * 4096) with | some p => bitB p.w0 right | none => false)

/-- Every page of a source is mapped and may be read. -/
def vaReadable (s : State) (va n : Nat) : Bool := vaGrants s va n 2

/-- A core left by its task. -/
def coreFree (k : CoreSt) (slot : Nat) : CoreSt :=
  let c := k.ctxs.getD slot Ctx.reset
  { k with ctxs := k.ctxs.set slot (ctxFree c)
           checks := k.checks.filter (fun x => x.slot != slot)
           undo := k.undo.filter (fun x => x.slot != slot)
           dirty := k.dirty.filter (fun x => !inWindow c 1 (x.1 / 32))
           moves := k.moves.filter (fun x => x.slot != slot)
           inbound := k.inbound.filter (fun x => x.slot != slot)
           waiting := k.waiting.filter (fun x => x.slot != slot)
           applied := k.applied.filter (fun x => x.slot != slot)
           stamped := k.stamped.filter (fun x => x.slot != slot)
           slotRun := if k.slotRun = some slot then none else k.slotRun }

/-- The task of a slot ends with a STATUS: the record is written where NOTIFY asks for it, and the slot is free (R23). -/
def endTask (s : State) (p slot status : Nat) : State :=
  let d := s.dom p slot
  match d.task with
  | none => s
  | some t =>
    let halted := t.cores.any (fun c => (s.ctxOf c slot).halted.isSome)
    let s1 :=
      if t.notify then
        let r := completionBytes s t status t.tb0 (if halted then t.tb0.map (fun b => t.lastHalt - b) else none)
          (if halted then some (t.lastHaltWb - t.relWb) else none)
        writeVa r.2 t.crec r.1
      else s
    let s2 := t.cores.foldl (fun s c => s.setCore c (coreFree (s.core c) slot)) s1
    let s3 := (domEngines d).foldl (fun s n =>
      if (s.part p).runSlot = some slot then s.setEngOf n (engDone s.wb (s.engOf n))
      else { s with engSaved := s.engSaved.erase (n * 4 + slot) }) s2
    let s4 := s3.setDom p slot { Domain.reset with tb := d.tb, wdf := d.wdf, wdWhich := d.wdWhich }
    s4.setPart p { s4.part p with runSlot := if (s4.part p).runSlot = some slot then none else (s4.part p).runSlot }

end Sys2Proof.Machine
end

