-- ==== Sys2Proof/Machine/CollectiveEvents.lean ====
section
/-! DEFINITION. The events of the collective engine: the start of a run with its block check and signature (R344, R345, R348, R354), units
and abort units that reach an engine (R344, R349, R360), the time-out (R355) and COLLABORT (R361, R367). The event's argument
names the die in `a`. -/

namespace Sys2Proof.Machine

/-! ## The block check (R345, R346, R348) -/

def slotFmtOk (f : Nat) : Bool := decide (f ≤ 4) || decide (0x0A ≤ f ∧ f ≤ 0x0C)
def wireFmtOk (f : Nat) : Bool := decide (f ≤ 2) || decide (0x0A ≤ f ∧ f ≤ 0x0C)

/-- A descriptor keeps R346 for a group of `n` members. -/
def descOk (n w : Nat) : Bool :=
  let d := descOf w
  slotFmtOk d.fmt && bits w 63 56 == 0
    && (if d.kind = 0 then d.addr % 128 == 0 && decide (d.addr + 128 * d.cw * n ≤ 0x800000)
        else d.kind == 1 && d.reps != 0 && bits w 22 6 == 0 && d.tag == 0 && d.cw != 0)

/-- The slots of a block by position, none at a replica's base; `skip` positions hold bases. No table where a descriptor is bad. -/
def blockSlots (n : Nat) : Nat → List Nat → Option (List (Option Desc))
  | 0, [] => some []
  | _ + 1, [] => none
  | 0, w :: ws =>
    if descOk n w then
      let d := descOf w
      (blockSlots n (if d.kind = 1 then d.reps else 0) ws).map (some d :: ·)
    else none
  | k + 1, w :: ws => if w >>> 57 == 0 && w % 128 == 0 then (blockSlots n k ws).map (none :: ·) else none

/-- A slot that a data word may write, one that it may read, a record slot. -/
def Desc.writable (d : Desc) : Bool := d.cw != 0
def Desc.readable (d : Desc) : Bool := d.kind == 0 && d.cw != 0
def Desc.isRecord (d : Desc) : Bool := d.kind == 0 && d.cw == 0

/-- The words of a LOOP's body lie in the table and hold no LOOP and no DONE. -/
def loopOk (words : List Nat) (x count body : Nat) : Bool :=
  count != 0 && body != 0 && decide (x + body < words.length)
    && ((words.drop (x + 1)).take body).all (fun w => bits w 31 27 != 7 && bits w 31 27 != 10)

/-- Word `x` of a table keeps R347 and R348. -/
def cxWordOk (tab : List (Option Desc)) (words : List Nat) (x w : Nat) : Bool :=
  let at' (n : BitVec 6) : Option Desc := (tab[n.toNat]?).getD none
  let rd (n : BitVec 6) : Bool := (at' n).any Desc.readable
  let wr (n : BitVec 6) : Bool := (at' n).any Desc.writable
  let int (n : BitVec 6) : Bool := (at' n).any (fun d => isIntFmt d.fmt)
  let wire (n : BitVec 6) (f : BitVec 5) : Bool := wireFmtOk f.toNat && isIntFmt f.toNat == int n
  match decodeCx w with
  | some (.cxNop) => true
  | some (.cxSend f) => rd f.slot && wire f.slot f.wfmt
  | some (.cxRecv f) => wr f.slot && wire f.slot f.wfmt
  | some (.cxRrs f) => rd f.slot && wire f.slot f.wfmt
  | some (.cxRed f) => rd f.slot && wire f.slot f.wfmt
  | some (.cxCopy f) => rd f.src && wr f.slot && int f.src == int f.slot
  | some (.cxWaitDelivery f) => f.slot == 0
  | some (.cxWaitFlag f) => (at' f.slot).any (fun d => d.kind == 0 && d.cw != 0)
  | some (.cxLoop f) => loopOk words x f.count.toNat f.body.toNat
  | some (.cxPeer _) => true
  | some (.cxMcast f) => rd f.slot && wr f.dst && wire f.slot f.wfmt && int f.slot == int f.dst
  | some (.cxDone f) => (at' f.slot).any Desc.isRecord
  | _ => false

/-- A program block as it stands in the scratchpad (R345). -/
structure Block where
  head : Nat
  zero : Nat
  descs : List Nat
  words : List Nat
  deriving DecidableEq, Repr

def Block.ns (b : Block) : Nat := bits b.head 5 0
def Block.group (b : Block) : Nat := bits b.head 13 8
def Block.bar (b : Block) : Bool := bitB b.head 31

/-- A block of a group of `n` members keeps R345 to R348. -/
def Block.ok (b : Block) (n : Nat) : Bool :=
  b.ns != 0 && b.group != 0 && b.words.length != 0 && b.zero == 0
    && bits b.head 7 6 == 0 && bits b.head 15 14 == 0 && bits b.head 30 26 == 0
    && (match blockSlots n 0 b.descs with
        | none => false
        | some tab => (b.words.zipIdx).all (fun p => cxWordOk tab b.words p.2 p.1))
    && b.words.any (fun w => bits w 31 27 == 10)

/-- A slot number names a record slot: by the slot table, or, where the table cannot be formed, by its own descriptor. -/
def Block.recordAt (b : Block) (n z : Nat) : Bool :=
  match blockSlots n 0 b.descs with
  | some tab => ((tab[z]?).getD none).any Desc.isRecord
  | none => (b.descs[z]?).any (fun w => descOk n w && (descOf w).isRecord)

/-- The record slot of an aborted run: that of the table's last DONE, where it names a record slot (R356). -/
def Block.recSlot (b : Block) (n : Nat) : Option Nat :=
  match (b.words.filter (fun w => bits w 31 27 == 10)).getLast? with
  | some w => if b.recordAt n (bits w 26 21) then some (bits w 26 21) else none
  | none => none

/-! ## The order signature and the multicasts due (R349, R354) -/

/-- The words that a run executes, each with its loop index, up to its first DONE. -/
def flatWords : Nat → List Nat → List (Nat × Nat)
  | 0, _ => []
  | _, [] => []
  | n + 1, w :: ws =>
    match bits w 31 27 with
    | 7 =>
      let b := bits w 7 0
      ((List.range (bits w 15 8)).flatMap (fun i => (ws.take b).map (fun x => (x, i)))) ++ flatWords n (ws.drop b)
    | 10 => [(w, 0)]
    | _ => (w, 0) :: flatWords n ws

/-- The walk of all ranks: PEER's distance, the contributor lists by (rank, slot, chunk), the units on their way by (sender, receiver). -/
structure SigWalk where
  dist : Int
  lists : NMap (List Nat)
  mail : NMap (List (List Nat))
  deriving DecidableEq, Repr

/-- A contributor list, [q] where no word has changed it. -/
def SigWalk.list (w : SigWalk) (q slot k : Nat) : List Nat := w.lists.getD ((q * 64 + slot) * 512 + k) [q]
def SigWalk.setList (w : SigWalk) (q slot k : Nat) (l : List Nat) : SigWalk :=
  { w with lists := NMap.set w.lists ((q * 64 + slot) * 512 + k) l }
def SigWalk.send (w : SigWalk) (q p : Nat) (l : List Nat) : SigWalk :=
  { w with mail := NMap.set w.mail (q * 512 + p) (NMap.getD w.mail (q * 512 + p) [] ++ [l]) }

/-- One word executed by every rank: the table is one, so the ranks go in step (R354). `paged` tells the paged slots. -/
def sigStep (n : Nat) (paged : Nat → Bool) (w : SigWalk) (x : Nat × Nat) : SigWalk :=
  let op := bits x.1 31 27
  let slot := bits x.1 26 21
  let ck := toSigned 5 (bits x.1 20 16)
  let wrap (i : Int) : Nat := (i % (n : Int)).toNat
  let chunk (q : Nat) : Nat := wrap ((q : Int) + ck - (x.2 : Int))
  let peer (q : Nat) : Nat := wrap ((q : Int) + w.dist)
  let key (q : Nat) : Nat := wrap ((q : Int) - w.dist) * 512 + q
  let inc (q : Nat) : List Nat := (NMap.getD w.mail (key q) []).headD []
  let qs := List.range n
  let took : SigWalk := { w with mail := qs.foldl (fun m q => NMap.set m (key q) ((NMap.getD m (key q) []).drop 1)) w.mail }
  match op with
  | 1 => qs.foldl (fun v q => v.send q (peer q) (w.list q slot (chunk q))) w
  | 2 => qs.foldl (fun v q => v.setList q slot (chunk q) (inc q)) took
  | 3 => qs.foldl (fun v q => v.send q (peer q) (inc q ++ [q])) took
  | 5 => qs.foldl (fun v q => v.setList q slot (chunk q) (inc q ++ [q])) took
  | 4 => qs.foldl (fun v q => v.setList q slot (chunk q) (w.list q (bits x.1 10 5) (chunk q))) w
  | 8 => { w with dist := ck }
  | 9 =>
    let d := bits x.1 10 5
    if paged d then w
    else qs.foldl (fun v q => (qs.filter (fun p => p != q)).foldl (fun v p => v.setList p d (chunk q) (w.list q slot (chunk q))) v) w
  | _ => w

/-- The longest list of a chunk, of the lowest rank among equals. -/
def sigList (n : Nat) (w : SigWalk) (z c : Nat) : List Nat :=
  (List.range n).foldl (fun b q => let l := w.list q z c; if b.length < l.length then l else b) []

/-- SIG of a table (R354). -/
def orderSig (group n : Nat) (paged : Nat → Bool) (words : List Nat) : Nat :=
  let z := match words.find? (fun w => bits w 31 27 == 5), words.find? (fun w => bits w 31 27 == 3) with
    | some w, _ => bits w 26 21
    | none, some w => bits w 26 21
    | none, none => 0
  let w := (flatWords words.length words).foldl (sigStep n paged) ⟨1, [], []⟩
  (List.range n).foldl (fun s c => (sigList n w z c).foldl (fun s q => rotl64 s 9 ^^^ q) s) ((group * 2 ^ 32 + n) % 2 ^ 64)

/-- Multicast units that a rank waits for at DONE (R349). -/
def mcastsDue (n : Nat) (paged : Nat → Bool) (words : List Nat) : Nat :=
  (n - 1) * ((flatWords words.length words).filter (fun x => bits x.1 31 27 == 9 && !paged (bits x.1 10 5))).length

/-! ## The start of a run (R344, R348, R355, R357, R360, R363) -/

def spWord (s : State) (core a n : Nat) : Nat := ofBytes (s.readSp core a n)

/-- The block at an address, its header having been read through the port. -/
def readBlock (s : State) (core a : Nat) : Block :=
  let h := spWord s core a 4
  let ns := bits h 5 0
  { head := h, zero := spWord s core (a + 4) 4
    descs := (List.range ns).map (fun i => spWord s core (a + 8 + 8 * i) 8)
    words := (List.range (bits h 25 16)).map (fun i => spWord s core (a + 8 + 8 * ns + 4 * i) 4) }

/-- Bytes of a block. -/
def blockBytes (h : Nat) : Nat := 8 + 8 * bits h 5 0 + 4 * bits h 25 16

/-- The partition of a member: package and lowest die. Where another package's partitions lie is free. -/
def memberPart (s : State) (l : Nat) : Nat × Nat :=
  if locHere s l then (l / 256, s.partOfDie (l % 256 / 32)) else (l / 256, Config.farPartition (l / 256) (l % 256 / 32))

/-- A barrier's group names one core in each partition of the pod domain, with n = PODN + 1 (R363). -/
def barrierOk (s : State) (core slot : Nat) (members : List Nat) : Bool :=
  let p := s.partOfDie (core / 32)
  match (s.dom p slot).task with
  | none => false
  | some t =>
    let parts := members.map (memberPart s)
    members.length == t.podn + 1 && decide parts.Nodup
      && parts.all (fun x => x == (s.pkg.pkg, p) || Config.podPartition t.task x.1 x.2)

/-- The run that a COLSTART makes, before any check. Its SIG is 0, which the record of a run aborted at or before its block check holds (R356; DESIGN
CHOICE, log 105). -/
def newRun (s : State) (w : ColWait) (b : Block) (epoch : Nat) : Run :=
  let members := if b.group = 0 then [] else
    let p := s.part (s.partOfDie (w.core / 32))
    if groupValid p b.group then groupMembers p b.group else []
  let n := members.length
  { serial := s.free, core := w.core, slot := w.slot, group := b.group, rank := w.rank, epoch := epoch, trap := w.trap, bar := b.bar, ns := b.ns,
    descs := b.descs, words := b.words, members := members, active := true, pc := 0, loopAt := none,
    peer := (w.rank + 1) % max 1 n, pred := (w.rank + n - 1) % max 1 n, taken := [], sent := [], mcDone := 0, mcDue := 0, kept := [],
    satn := 0, deny := 0, nword := 0, sig := 0, status := 0, aborted := false, recSlot := none, undelivered := 0, lastWb := s.wb, heard := [], mcFrom := [], born := s.wb }

/-- An abort unit held for a run that starts (R360). -/
def heldAbort (s : State) (die core group epoch : Nat) : Option (Nat × Nat) :=
  ((s.cxe die).aborts.find? (fun x => x.1 == core && x.2.1 == group && x.2.2.1 == epoch)).map (fun x => x.2.2.2)

/-- An abort held for a run has taken effect, and is gone (R360). -/
def dropHeld (s : State) (die core group epoch : Nat) : State :=
  let e := s.cxe die
  s.setCxe die { e with aborts := e.aborts.filter (fun x => !(x.1 == core && x.2.1 == group && x.2.2.1 == epoch)) }

/-- A run whose block has been read starts, or ends by what its check finds. -/
def checkRun (s : State) (die : Nat) (r0 : Run) (b : Block) : State :=
  let n := r0.members.length
  let r := { r0 with recSlot := b.recSlot n }
  match heldAbort s die r.core r.group r.epoch with
  | some (status, origin) => abortHere (dropHeld s die r.core r.group r.epoch) die r status origin
  | none =>
    if r.group != 0 && r.members[r.rank]? != some (locOf s r.core) then abortRun s die r 0x03
    else if !b.ok n then abortRun s die r 0x04
    else if r.bar && !barrierOk s r.core r.slot r.members then abortRun s die r 0x04
    else
      let paged (z : Nat) : Bool := (descOf (b.descs.getD z 0)).kind == 1
      let e := s.cxe die
      s.setCxe die { e with runs := e.runs ++ [{ r with sig := orderSig r.group n paged b.words, mcDue := mcastsDue n paged b.words }] }

/-- The port's read of a COLSTART's block, of its header or whole: its checks, and an uncorrectable error that has struck it (R355, R357, R397). -/
def portRead (s : State) (w : ColWait) (header : Bool) (len : Nat) : Res Unit := do
  portCheck s w.core w.slot w.block len
  match w.bad with
  | some (h, tag) => if h == header then .error (.trap 0x15 (poisonInfo tag 0 (w.block / 4096))) else .ok ()
  | none => .ok ()

/-- A COLSTART's run begins: the block is read through the port and checked. -/
def startRun (s : State) (die : Nat) (w : ColWait) : State :=
  let h := spWord s w.core w.block 4
  let g := bits h 13 8
  let e := s.cxe die
  let k := w.core * 64 + g
  let ep := (e.epochs.getD k 0 + 1) % 2 ^ 16
  let s1 := { s with free := s.free + 1 }.setCxe die { e with epochs := e.epochs.set k ep }
  let b := readBlock s w.core w.block
  match portRead s w false (blockBytes h) with
  | .ok _ => checkRun s1 die (newRun s w b ep) b
  | .error st =>
    match heldAbort s1 die w.core g ep with
    | some (status, origin) => abortHere (dropHeld s1 die w.core g ep) die (newRun s w b ep) status origin
    | none => portFault s1 die (newRun s w b ep) st

/-- The first COLSTART that may start, by arrival: its header cannot be read, or its group is idle here. -/
def nextStart (s : State) (die : Nat) : Option ColWait :=
  (s.cxe die).waits.find? (fun w =>
    match portRead s w true 8 with
    | .error _ => true
    | .ok _ => (runOf s die (bits (spWord s w.core w.block 4) 13 8)).isNone)

/-- COLLECTIVE_RUN_START on die `a` (R344). A header that cannot be read ends the start with its core's trap alone (R356). -/
def execCollectiveRunStart (s : State) : Host.Outcome State Fault Refusal :=
  let die := s.ev.a
  if (s.cxe die).runs.length ≥ 8 then .next s
  else
    match nextStart s die with
    | none => .next s
    | some w =>
      let e := s.cxe die
      let s1 := s.setCxe die { e with waits := e.waits.erase w }
      match portRead s w true 8 with
      | .error st => .next (stopStarter s1 w.core w.slot st)
      | .ok _ => .next (startRun s1 die w)

/-! ## Units (R344, R349, R353, R360) -/

/-- The active run that a unit is for. -/
def unitRun (s : State) (die : Nat) (u : ColUnit) : Option Run :=
  (runOf s die u.group).filter (fun r => r.core == u.dest && r.epoch == u.epoch && !r.aborted)

/-- The run that a label names has ended at a member: it has started there and is not active (R360). -/
def labelEnded (s : State) (die core group epoch : Nat) : Bool :=
  let ep := (s.cxe die).epochs.getD (core * 64 + group) 0
  decide ((ep + 2 ^ 16 - epoch % 2 ^ 16) % 2 ^ 16 < 2 ^ 15) && (NMap.find (s.cxe die).epochs (core * 64 + group)).isSome
    && !((runOf s die group).any (fun r => r.core == core && r.epoch == epoch && !r.aborted))

/-- A unit was sent by a run that began before this engine's group entry was last written: it belongs to a run that has ended (R343, R362;
DEDUCED, log 73). -/
def oldInstall (s : State) (die group born : Nat) : Bool :=
  match (s.cxe die).installs.find group with
  | some w => decide (born ≤ w)
  | none => false

/-- Progress of a run from the member of rank `q` (R355). -/
def touchRun (s : State) (die : Nat) (r : Run) (q : Nat) : State := putRun s die { r with heard := NMap.set r.heard q s.wb }

/-- A unit at its receiver's engine: buffered, held back where 64 are, or discarded where its run has ended. `none` is held back. -/
def bufferUnit (s : State) (u : ColUnit) : Option State :=
  let die := u.dest / 32
  if labelEnded s die u.dest u.group u.epoch || oldInstall s die u.group u.born then some s
  else
    let e := s.cxe die
    if e.units.length ≥ 64 then none
    else
      let s1 := s.setCxe die { e with units := e.units ++ [u] }
      some (match unitRun s1 die u with | some r => touchRun s1 die r u.sender | none => s1)

/-- A unit of another package: core, group, epoch, sender, number, slot + 1 (0 for none), chunk, format, tag + 1 (0 for none), elements. -/
def foreignUnit (wb : Nat) (data : List Nat) : Option ColUnit :=
  match data with
  | dest :: g :: ep :: q :: k :: z :: c :: w :: p :: es =>
    some ⟨dest % 256, g % 64, ep % 2 ^ 16, q % 512, k, if z = 0 then none else some (z - 1), c, w, es, if p = 0 then none else some (p - 1), wb⟩
  | _ => none

/-- The run that sent a unit. -/
def sendRun (s : State) (die : Nat) (u : ColUnit) : Option Run :=
  (runOf s die u.group).filter (fun r => r.rank == u.sender && r.epoch == u.epoch && !r.aborted)

/-- COLLECTIVE_UNIT_ARRIVAL: the `b`-th unit that die `a` has sent reaches its receiver's engine, or one of another package does (`d` = 1)
(R344, R349). -/
def execCollectiveUnitArrival (s : State) : Host.Outcome State Fault Refusal :=
  if s.ev.d = 1 then
    match foreignUnit s.wb s.ev.data with
    | some u => .next ((bufferUnit s u).getD s)
    | none => .next s
  else
    let e := s.cxe s.ev.a
    match e.outbox[s.ev.b]? with
    | none => .next s
    | some (loc, u) =>
      let s1 := s.setCxe s.ev.a { e with outbox := e.outbox.eraseIdx s.ev.b }
      let got (s : State) : State := match sendRun s s.ev.a u with
        | some r => touchRun s s.ev.a r (r.members.idxOf loc)
        | none => s
      if locHere s loc then .next (((bufferUnit s1 u).map got).getD s) else .next (got s1)

/-- Every unit of the same sender with a lower number has arrived, and no multicast unit among them waits (R351). -/
def unitFirst (s : State) (die : Nat) (r : Run) (u : ColUnit) : Bool :=
  let mine (v : ColUnit) : Bool := v.dest == u.dest && v.group == u.group && v.epoch == u.epoch && v.sender == u.sender
  (List.range u.seqNo).all (fun k =>
    r.taken.contains (u.sender, k) || (s.cxe die).units.any (fun v => mine v && v.seqNo == k && v.slot.isNone))

/-- MCAST_UNIT_ARRIVAL: the `b`-th unit buffered on die `a` is a multicast unit, and its run's engine writes its chunk (R349). A unit that
fits no slot of the receiver's table is a mismatch (R355). -/
def execMcastUnitArrival (s : State) : Host.Outcome State Fault Refusal :=
  let die := s.ev.a
  match (s.cxe die).units[s.ev.b]? with
  | none => .next s
  | some u =>
    match u.slot, unitRun s die u with
    | some z, some r =>
      let d := r.desc z
      if !unitFirst s die r u then .next s
      else if z ≥ r.ns || d.kind != 0 || d.cw = 0 || u.chunk ≥ r.n || isIntFmt u.wfmt != isIntFmt d.fmt then .next (abortRun s die r 0x03)
      else
        let v := narrowAll u.wfmt d.fmt u.data
        let r1 := { countSat r v.2 with mcDone := r.mcDone + 1, taken := r.taken ++ [(u.sender, u.seqNo)], mcFrom := NMap.set r.mcFrom u.sender (NMap.getD r.mcFrom u.sender 0 + 1) }
        let t := runWrite (dropUnit s die u) die r1 z u.chunk v.1 u.poison
        .next (putRun t.1 die t.2)
    | _, _ => .next s

/-! ## Aborts (R355, R360, R361, R367) -/

/-- An abort unit at a member's engine: its run ends, it is held for a run that has not started, or it is ignored (R360). -/
def abortArrives (s : State) (core group epoch status origin : Nat) : State :=
  let die := core / 32
  match (runOf s die group).filter (fun r => r.core == core && r.epoch == epoch) with
  | some r => abortHere s die r status origin
  | none =>
    if labelEnded s die core group epoch || (heldAbort s die core group epoch).isSome then s
    else
      let e := s.cxe die
      s.setCxe die { e with aborts := e.aborts ++ [(core, group, epoch, status, origin)] }

/-- ABORT_UNIT_ARRIVAL: the `b`-th abort unit that die `a` has sent, or one of another package (`d` = 1): core, group, epoch, STATUS,
origin (R360). -/
def execAbortUnitArrival (s : State) : Host.Outcome State Fault Refusal :=
  if s.ev.d = 1 then
    match s.ev.data with
    | [core, g, ep, st, o] => .next (abortArrives s (core % 256) (g % 64) (ep % 2 ^ 16) (st % 256) (o % 512))
    | _ => .next s
  else
    let e := s.cxe s.ev.a
    match e.outAborts[s.ev.b]? with
    | none => .next s
    | some (loc, g, ep, st, o, born) =>
      let s1 := s.setCxe s.ev.a { e with outAborts := e.outAborts.eraseIdx s.ev.b }
      if locHere s loc && !oldInstall s1 (loc % 256 / 32) g born then .next (abortArrives s1 (loc % 256) g ep st o) else .next s1

/-- COLTO in wall cycles (R407). -/
def coltoOf (p : PartSt) : Nat := max 1 p.colto.toNat * 1024

/-- The ranks that the current word of a run waits for: those that are to take its sends (WAIT MODE 0), those whose multicast units are still due (DONE), the
sender of the next unit (R355). -/
def waitsForMember (s : State) (die : Nat) (r : Run) : List Nat :=
  match bits (r.words.getD r.pc 0) 31 27 with
  | 6 => if bitB (r.words.getD r.pc 0) 10 then [] else
    ((s.cxe die).outbox.filter (fun p => p.2.group == r.group && p.2.epoch == r.epoch && p.2.sender == r.rank)).map (fun p => r.members.idxOf p.1)
  | 10 => (List.range r.n).filter (fun q => q != r.rank && decide (NMap.getD r.mcFrom q 0 < r.mcDue / (r.n - 1)))
  | _ => if runWaits s r.core r.group then [r.pred] else []

/-- COLTO has passed without progress from the member of rank `q` since the run's own latest, as it began to wait (R355; DEDUCED, log 101). -/
def memberSilent (s : State) (die : Nat) (r : Run) (q : Nat) : Bool :=
  decide (max r.lastWb (NMap.getD r.heard q 0) + coltoOf (s.part (s.partOfDie die)) ≤ s.wb)

/-- COLLECTIVE_TIMEOUT: the run of group `b` on die `a` has waited COLTO for a member (R355). -/
def execCollectiveTimeout (s : State) : Host.Outcome State Fault Refusal :=
  match runOf s s.ev.a s.ev.b with
  | none => .next s
  | some r =>
    if (waitsForMember s s.ev.a r).any (memberSilent s s.ev.a r) then
      .next (abortRun s s.ev.a r 0x02)
    else .next s

/-- COLABORT_ARRIVAL: a COLABORT reaches die `a`'s engine (R367). -/
def execColabortArrival (s : State) : Host.Outcome State Fault Refusal :=
  let e := s.cxe s.ev.a
  match e.stops with
  | [] => .next s
  | g :: rest =>
    let s1 := s.setCxe s.ev.a { e with stops := rest }
    match runOf s1 s.ev.a g with
    | some r => .next (abortRun s1 s.ev.a r 0x01)
    | none => .next s1

/-- COLLABORT: the `b`-th delivery that waits on die `a`. Its stamp is kept, and a replay of the phase takes it on that cycle again (R339,
R361). -/
def execCollabort (s : State) : Host.Outcome State Fault Refusal :=
  let e := s.cxe s.ev.a
  match e.colaborts[s.ev.b]? with
  | none => .next s
  | some (key, info) =>
    if canTake s (key / 4) (key % 4) then
      .next (deliverTrap (s.setCxe s.ev.a { e with colaborts := e.colaborts.eraseIdx s.ev.b }) (key / 4) (key % 4) 0x16 info)
    else .next s

end Sys2Proof.Machine
end

