-- ==== Sys2Proof/Machine/Matrix.lean ====
section
/-! DEFINITION. The matrix array: MMA, the accumulator operations and the element access instructions, majors 0x28, 0x29 and part of
0x2B (R243–R264). -/

namespace Sys2Proof.Machine

/-- ILLEGAL class 0x10 (R264). -/
def mxIllegal (reason tile operand : Nat) : Stop :=
  illegal (0x10 + reason * 2 ^ 8 + tile * 2 ^ 16 + (operand % 2 ^ 32) * 2 ^ 32)

/-- Dimensions of MXDIM (R243). -/
def dimN (c : Ctx) : Nat := bits c.mxdim.toNat 5 0 + 1
def dimM (c : Ctx) : Nat := bits c.mxdim.toNat 13 8 + 1
def dimK (c : Ctx) : Nat := bits c.mxdim.toNat 31 16 + 1

/-! ## Modes and formats (R249–R251) -/

/-- Width class of a format in mode flt: 16, 8, 6 or 4 bits, else 0 (R249). -/
def fltClass (f : Nat) : Nat :=
  if [0x01, 0x02].contains f then 16
  else if [0x03, 0x04, 0x10, 0x11].contains f then 8
  else if [0x05, 0x06, 0x12, 0x13].contains f then 6
  else if [0x07, 0x14].contains f then 4
  else 0

/-- A format accepted for operand A (`b` false) or B of a mode (R249). -/
def mmaFmtOk (mode : Nat) (b : Bool) (f : Nat) : Bool :=
  match mode with
  | 0 => fltClass f != 0
  | 1 => if b then f == 0x16 else f == 0x01
  | 2 => [0x09, 0x15].contains f
  | 3 => if b then [0x0C, 0x0D].contains f else f == 0x0C
  | 4 => [0x0C, 0x0D].contains f
  | _ => f == 0x00

/-- A 6-bit operand comes on a stream pair (R250). -/
def isPair (f : Nat) : Bool := fmtWidth f == 6

/-- W: elements the array takes from one operand word (R249, R250). -/
def opWidth (f : Nat) : Nat := if isPair f then 256 else elemsPerWord (fmtWidth f)

/-- Array cycles NC (R249). -/
def arrayCycles (mode fa k : Nat) : Nat :=
  match mode with
  | 0 => let c := fltClass fa
    if c = 16 then k else if c = 8 then k / 2 else k / 4
  | 1 => k
  | 2 => k / 4
  | 3 => k / 2
  | 4 => k / 2
  | _ => 4 * k

/-- Words of an operand (R251). -/
def opWords (f k : Nat) : Nat := 64 * k / opWidth f

/-- The K quantum of an operand (R251). -/
def opQuantum (f : Nat) (t : Bool) : Nat := if t then opWidth f else if f = 0x00 then 1 else opWidth f / 64

/-- Tap spacing and panel lead of an operand (R252). -/
def opSpacing (nc f k : Nat) : Nat := nc / opWords f k
def opLead (nc f k : Nat) (t : Bool) : Nat := if t then 64 * opSpacing nc f k else 0

/-- The streams that an operand names: the stream, and its neighbour for a pair on an even stream (R250). -/
def opStreams (c : Ctx) (n : Nat) : List Nat :=
  match c.strms.find n with
  | some st => if isPair st.entry.fmt && n % 2 == 0 then [n, n + 1] else [n]
  | none => [n]

/-- Reason 0x04 of an operand (R250). -/
def pairOk (c : Ctx) (n : Nat) (e : Layout) : Bool :=
  !isPair e.fmt || (n % 2 == 0 && (c.strms.find (n + 1)).any (fun st => st.entry.fmt == e.fmt && st.entry.blk == e.blk))

/-- The first class 0x10 reason that applies to an MMA, with the format of the offending entry (R249–R251, R264). -/
def mmaFault (c : Ctx) (mode k sa sb : Nat) (ea eb : Layout) (ta tb : Bool) : Option (Nat × Nat) :=
  if !mmaFmtOk mode false ea.fmt || ea.space == 1 then some (1, ea.fmt)
  else if !mmaFmtOk mode true eb.fmt || eb.space == 1 || (mode == 0 && fltClass ea.fmt != fltClass eb.fmt) then some (1, eb.fmt)
  else if isMx ea.fmt && isMx eb.fmt && ea.blk != eb.blk then some (2, eb.fmt)
  else if k % opQuantum ea.fmt ta != 0 || (isMx ea.fmt && k % ea.blk != 0) then some (3, ea.fmt)
  else if k % opQuantum eb.fmt tb != 0 || (isMx eb.fmt && k % eb.blk != 0) then some (3, eb.fmt)
  else if !pairOk c sa ea then some (4, ea.fmt)
  else if !pairOk c sb eb then some (4, eb.fmt)
  else none

/-! ## Tile writes and their chain (R245) -/

/-- Rows of `es` (row-major, from row 0) laid over a tile's rows `0 … 63`, from row `lo` on. -/
def overRows (lo : Nat) (es tile : List Nat) : List Nat := (tile.take (64 * lo)) ++ (es.drop (64 * lo)) ++ tile.drop (max (64 * lo) es.length)

/-- The result of a command laid over a tile: rows from row `lo` on, single elements left out. -/
def layOver (lo : Nat) (skip es tile : List Nat) : List Nat :=
  let old := tile.toArray
  (skip.foldl (fun (a : Array Nat) p => a.setIfInBounds p (old.getD p 0)) (overRows lo es tile).toArray).toList

/-! ## MMA arithmetic (R160, R172, R173, R253–R255) -/

/-- Position of the element (index, k) of an operand among the elements delivered in word order (R251). -/
def opPos (f : Nat) (t : Bool) (index k : Nat) : Nat :=
  let w := opWidth f
  if t then ((k / w) * 64 + index) * w + k % w
  else if f = 0x00 then (2 * k + index / 32) * 32 + index % 32
  else (k / (w / 64)) * w + (k % (w / 64)) * 64 + index

/-- The L6 product of two codes (R160). -/
def l6Mul (a b : Nat) : Val :=
  let x := decodeVal 0x09 a
  let y := decodeVal 0x09 b
  if x.isNan || y.isNan then .nan
  else if x.isZero || y.isZero then .zero false
  else
    let p := toSigned 5 a + toSigned 5 b
    .fin (bitB a 5 != bitB b 5) (l6T (p % 4).toNat) (p / 4 - 16)

/-- Scale factor of a product of two elements (R253): none where a scale is NaN. -/
def pairScale (xa xb : Nat) : Option Int :=
  if xa % 256 = 0xFF || xb % 256 = 0xFF then none
  else some (((xa % 256 : Nat) : Int) - 127 + ((xb % 256 : Nat) : Int) - 127)

/-- One product of a group: its value, whether it is invalid without a NaN operand, and whether an operand is NaN. -/
def groupProduct (l6 : Bool) (fa fb a b xa xb : Nat) : Val × Bool × Bool :=
  match pairScale xa xb with
  | none => (.nan, false, true)
  | some k =>
    let x := decodeVal (elemFmt fa) a
    let y := decodeVal (elemFmt fb) b
    let p := if l6 then (l6Mul a b, false) else Val.mul x y
    (p.1.scale k, p.2, x.isNan || y.isNan)

/-- Exact sum of a group with its NV condition (R172, R255): a NaN operand anywhere in the group keeps NV quiet (DEDUCED, log 60).
A zero sum is −0 only where every product is −0 (DESIGN CHOICE, log 60). -/
def groupTotal (ps : List (Val × Bool × Bool)) : Val × Bool :=
  let nanOp := ps.any (fun p => p.2.2)
  let inv := ps.any (fun p => p.2.1)
  let pos := ps.any (fun p => p.1 == .inf false)
  let neg := ps.any (fun p => p.1 == .inf true)
  if nanOp || inv || (pos && neg) then (.nan, (inv || (pos && neg)) && !nanOp)
  else ((ps.map (·.1)).foldl (fun a v => (Val.add false a v).1) (match ps with | [] => .zero false | p :: _ => match p.1 with
    | .zero n => .zero n
    | _ => .zero true), false)

/-- `acc + S` rounded to FP32, with NV and OF (R172, R255). -/
def accAdd (acc : Nat) (sum : Val × Bool) : Nat × Nat :=
  let x := decodeVal 0x00 acc
  let nv := if sum.2 then fNV else 0
  if sum.1.isNan || x.isNan then (canon 0x00, nv)
  else
    let r := addTo 0x00 x sum.1 0 false
    (r.1, nv ||| (r.2 &&& (fNV ||| fOF)))

/-- `acc + a × b` rounded to FP32, with NV and OF; an infinity times a zero gives NV whatever `acc` holds (R172, R255). -/
def accFma (acc : Nat) (a b : Val) : Nat × Nat :=
  if (Val.mul a b).2 then (canon 0x00, fNV)
  else
    let r := fmaTo 0x00 a b (decodeVal 0x00 acc) 0 false
    (r.1, r.2 &&& (fNV ||| fOF))

/-- The W4 prologue: a BF16 operand and OF (R254). -/
def w4Operand (pat scale : Nat) : Nat × Nat :=
  match elemValue 0x16 pat scale with
  | .nan => (canon 0x01, 0)
  | v => let r := roundTo 0x01 v 0 false 0
    (r.1, r.2 &&& fOF)

/-- The INT32 product term of modes t3 and i8 (R253). -/
def intTerm (t3 : Bool) (fa fb a b : Nat) : Int :=
  let x := decodeInt fa a
  let y := decodeInt fb b
  if t3 then (if x > 0 then y else if x < 0 then -y else 0) else x * y

/-- Elements of an operand in the order delivered. -/
def opElems (f : Nat) (ws : List LaneWord) : Array Nat := (ws.flatMap (elemsOf f)).toArray

/-- The tile that an MMA writes, row-major, and its flags (R253–R255). -/
def mmaResult (x : Cmd) : List Nat × Nat :=
  let fa := x.entA.fmt
  let fb := x.entB.fmt
  let ea := opElems fa x.wordsA
  let sa := x.scalesA.toArray
  let w4 := x.mode == 1
  let eb0 := opElems fb x.wordsB
  let sb := x.scalesB.toArray
  let pro := if w4 then (eb0.toList.zipIdx).map (fun p => w4Operand p.1 (sb.getD p.2 0)) else []
  let eb := if w4 then (pro.map (·.1)).toArray else eb0
  let proFlags := orAll (pro.map (·.2))
  let a (i k : Nat) : Nat × Nat := let p := opPos fa x.ta i k
    (ea.getD p 0, if isMx fa then sa.getD p 127 else 127)
  let b (j k : Nat) : Nat × Nat := let p := opPos fb x.tb j k
    (eb.getD p 0, if isMx fb then sb.getD p 127 else 127)
  let prior := x.prior.toArray
  let isInt := x.mode == 3 || x.mode == 4
  let perK := x.mode == 1 || x.mode == 5 || (x.mode == 0 && fltClass fa == 16)
  let blk := if isMx fa then x.entA.blk else if isMx fb then x.entB.blk else if fltClass fa = 8 then 2 else 4
  let elem (i j : Nat) : Nat × Nat :=
    let acc0 := if x.acc then prior.getD (i * 64 + j) 0 else 0
    if isInt then
      (ofInt 32 ((acc0 : Int) + ((List.range x.dimK).map (fun k =>
        intTerm (x.mode == 3) fa fb (a i k).1 (b j k).1)).sum), 0)
    else if perK then
      (List.range x.dimK).foldl (fun r k =>
        let q := accFma r.1 (decodeVal fa (a i k).1) (decodeVal (if w4 then 0x01 else fb) (b j k).1)
        (q.1, r.2 ||| q.2)) (acc0, 0)
    else
      (List.range (x.dimK / blk)).foldl (fun r g =>
        let ps := (List.range blk).map (fun d =>
          let u := a i (g * blk + d)
          let v := b j (g * blk + d)
          groupProduct (x.mode == 2) fa fb u.1 v.1 u.2 v.2)
        let q := accAdd r.1 (groupTotal ps)
        (q.1, r.2 ||| q.2)) (acc0, 0)
  let es := (List.range 4096).map (fun p => elem (p / 64) (p % 64))
  (es.map (·.1), if isInt then 0 else orAll (es.map (·.2)) ||| proFlags)

/-! ## ACCLD and ACCADD results (R259) -/

/-- The elements of rows 0 … m − 1 that ACCLD or ACCADD writes, and its flags. -/
def accRows (x : Cmd) : List Nat × Nat :=
  let es := x.wordsA.flatMap (fun w => fieldsOf 32 32 w.toNat)
  if x.kind = .accld then (es, 0)
  else
    let rs := (List.zip es x.prior).map (fun p =>
      if x.entA.fmt = 0x0A then ((p.1 + p.2) % 2 ^ 32, 0)
      else
        let r := addTo 0x00 (decodeVal 0x00 p.2) (decodeVal 0x00 p.1) 0 false
        (r.1, r.2 &&& (fNV ||| fOF)))
    (rs.map (·.1), orAll (rs.map (·.2)))

/-! ## The chain of prior values (R245) -/

/-- The tile that a command writes (R266). -/
def Cmd.target (x : Cmd) : Nat := if x.kind == .trsm || x.kind == .grot then x.tile2 else x.tile

/-- What a command has still to write to a tile: rows from row 0, or single elements; nothing where it has written. -/
def pendingOver (x : Cmd) (tile : Nat) (es : List Nat) : List Nat :=
  if x.wrote then es
  else
    match x.kind with
    | .mma => if x.tile = tile then layOver x.supers x.skip (mmaResult x).1 es else es
    | .accld => if x.tile = tile then layOver x.supers x.skip (accRows x).1 es else es
    | .accadd => if x.tile = tile then layOver x.supers x.skip (accRows x).1 es else es
    | .accmv => es
    | .accz => es
    | .quant => es
    | .dequant => es
    | _ =>
      if x.target = tile then ((x.out.filter (fun p => decide (64 * x.supers ≤ p.1))).foldl (fun (a : Array Nat) p => a.setIfInBounds p.1 p.2) es.toArray).toList else es

/-- The commands of station 1 issued before a cycle. -/
def earlierCmds (c : Ctx) (issue : Nat) : List Cmd := c.cmds.filter (fun x => x.station == 1 && decide (x.issue < issue))

/-- A tile as a tile-writing command issued on `issue` obtains it: after the writes of every earlier MXA command (R245, R268). -/
def chainTile (s : State) (issue tile : Nat) : List Nat :=
  (earlierCmds s.cur issue).foldl (fun es x => pendingOver x tile es) (readRows s s.curCore tile 0 64)

/-- The 128-byte rows of a tile that the pending writes of earlier commands fill. -/
def pendingRows (c : Ctx) (issue tile : Nat) : List Nat :=
  ((earlierCmds c issue).filter (fun x => !x.wrote && x.tile == tile)).flatMap (fun x =>
    let n := match x.kind with
      | .mma => 64
      | .accld => x.dimM
      | .accadd => x.dimM
      | _ => 0
    (List.range (2 * n)).filter (fun r => decide (2 * x.supers ≤ r)))

/-- Poison of the rows of a tile that an MXA command reads (R399): of those that no pending write fills before. -/
def tilePoison (s : State) (tile : Nat) (rows : List Nat) : Res Unit :=
  match rowPoison (s.core s.curCore) (rows.map (fun r => rowKey 1 (16384 * tile + 128 * r))) with
  | some p => .error (.trap 0x15 (poisonInfo p 2 tile))
  | none => .ok ()

/-- The same for rows read as the chain gives them. -/
def chainPoison (s : State) (issue tile : Nat) (rows : List Nat) : Res Unit :=
  let filled := pendingRows s.cur issue tile
  tilePoison s tile (rows.filter (fun r => !filled.contains r))

/-- A later command's write of rows 0 … n − 1 of a tile comes after the pending writes of earlier commands to them (R245). -/
def supersede (c : Ctx) (issue tile n : Nat) : Ctx :=
  { c with cmds := c.cmds.map (fun x =>
      if x.station == 1 && decide (x.issue < issue) && x.target == tile && !x.wrote then { x with supers := max x.supers n } else x) }

/-- Elements that a factorisation has written come after the pending writes of earlier commands to its tile (R245, R268). -/
def skipElems (c : Ctx) (issue tile : Nat) (ps : List Nat) : Ctx :=
  { c with cmds := c.cmds.map (fun x =>
      if x.station == 1 && decide (x.issue < issue) && x.target == tile && !x.wrote then { x with skip := (x.skip ++ ps).dedup } else x) }

/-! ## Issue -/

/-- The checks of a command's tile accesses: footprint of those that it reads and writes, and the phase of the dirty bits that it meets on the cycle
`w` of its first write (R247, R394). -/
def tileChecks (s : State) (reads writes : List Nat) (w : Nat) : Res Unit := do
  footCheck s.cur 0 false 1 reads
  footCheck s.cur 0 true 1 writes
  dirtyCheck s 0 writes w

/-- An MMA issues (R249–R256). -/
def mmaIssue (f : FMma) (mode : Nat) (s : State) : Host.Outcome State Fault Refusal :=
  let sa := f.sa.toNat % 16
  let sb := f.sb.toNat % 16
  issue s { handlerOk := false, first := busyCheck 1 } (fun s => do
    let c := s.cur
    closedCheck c 1 (opStreams c sa ++ opStreams c sb)
    match c.strms.find sa, c.strms.find sb with
    | some a, some b =>
      if (opStreams c sa ++ opStreams c sb).any (fun n => (c.strms.find n).any (·.wr)) then throw (illegal 0x07)
      let k := dimK c
      let tile := f.t.toNat
      match mmaFault c mode k sa sb a.entry b.entry f.ta f.tb with
      | some (r, o) => throw (mxIllegal r tile o)
      | none => pure ()
      let nc := arrayCycles mode a.entry.fmt k
      let d := max (opLead nc a.entry.fmt k f.ta) (opLead nc b.entry.fmt k f.tb)
      tileChecks s (if f.acc then [tile] else []) [tile] (c.now + d + nc + 3)
      if f.acc then chainPoison s c.now tile (List.range 128)
      let x := { Cmd.fresh c 1 .mma with
        tile := tile, sa := sa, sb := sb, entA := a.entry, entB := b.entry, mode := mode, acc := f.acc, ta := f.ta, tb := f.tb,
        dimK := k, lead := d, cycles := nc, last := c.now + d + nc + 3, prior := if f.acc then chainTile s c.now tile else [] }
      return (accept s x (d + nc), .seq 1)
    | _, _ => throw (.trap 0x04 (laneInfo 0x04 1 0 false sa)))

def execMmaFlt (f : FMma) (s : State) := mmaIssue f 0 s
def execMmaW4 (f : FMma) (s : State) := mmaIssue f 1 s
def execMmaL6 (f : FMma) (s : State) := mmaIssue f 2 s
def execMmaT3 (f : FMma) (s : State) := mmaIssue f 3 s
def execMmaI8 (f : FMma) (s : State) := mmaIssue f 4 s
def execMmaF32 (f : FMma) (s : State) := mmaIssue f 5 s

/-- ACCZ writes its tile on its issue cycle (R258). -/
def execAccz (f : FT) (s : State) : Host.Outcome State Fault Refusal :=
  issue s { handlerOk := false, first := busyCheck 1 } (fun s => do
    let tile := f.t.toNat
    tileChecks s [] [tile] s.cur.now
    let t := writeRows (markDirty s tile) s.curCore tile 0 (List.replicate 4096 0)
    let keys := (List.range 128).map (fun r => rowKey 1 (16384 * tile + 128 * r))
    let u := (markRows t keys keys none).modCur (fun c => supersede c c.now tile 64)
    let x := { Cmd.fresh s.cur 1 .accz with tile := tile, wrote := true }
    return (accept u x 1, .seq 1))

/-- ACCLD and ACCADD issue (R259). -/
def accIssue (f : FTS) (kind : CmdKind) (s : State) : Host.Outcome State Fault Refusal :=
  let sa := f.s.toNat % 16
  issue s { handlerOk := false, first := busyCheck 1 } (fun s => do
    let c := s.cur
    let tile := f.t.toNat
    closedCheck c 1 [sa]
    match c.strms.find sa with
    | none => throw (.trap 0x04 (laneInfo 0x04 1 0 false sa))
    | some a =>
      if a.wr then throw (illegal 0x07)
      if !(a.entry.fmt == 0x00 || a.entry.fmt == 0x0A) || a.entry.space != 0 then throw (mxIllegal 0x05 tile a.entry.fmt)
      let m := dimM c
      tileChecks s (if kind = .accadd then [tile] else []) [tile] (c.now + 2 * m)
      if kind = .accadd then chainPoison s c.now tile (List.range (2 * m))
      let x := { Cmd.fresh c 1 kind with
        tile := tile, sa := sa, entA := a.entry, dimM := m, last := c.now + 2 * m,
        prior := if kind = .accadd then (chainTile s c.now tile).take (64 * m) else [] }
      return (accept s x (2 * m), .seq 1))

def execAccld (f : FTS) (s : State) := accIssue f .accld s
def execAccadd (f : FTS) (s : State) := accIssue f .accadd s

/-- Destination formats of ACCMV (R260). -/
def accmvDst (f : Nat) : Bool := [0x00, 0x01, 0x02, 0x03, 0x04, 0x0A, 0x0B, 0x0C].contains f

/-- Linear index at which the stream's schedule places element `p` of an ACCMV issued on `t` (R260). -/
def accmvIndex (st : Strm) (t p : Nat) : Nat :=
  let ed := st.entry.perWord
  let d := if st.dir then (1 + 8 - st.station) % 8 else (st.station + 8 - 1) % 8
  let q : Int := ((t + 2 + p / ed + d : Nat) : Int) - (st.t1 : Int) + (st.adv : Int)
  (((st.start : Int) + (ed : Int) * q + ((p % ed : Nat) : Int)) % ((2 ^ 48 : Nat) : Int)).toNat

/-- ACCMV reads its tile on issue and drives the converted rows from t + 2 on (R260). -/
def execAccmv (f : FAmv) (s : State) : Host.Outcome State Fault Refusal :=
  let sd := f.s.toNat % 16
  issue s { handlerOk := false, first := busyCheck 1 } (fun s => do
    let c := s.cur
    let tile := f.t.toNat
    closedCheck c 1 [sd]
    match c.strms.find sd with
    | none => throw (.trap 0x04 (laneInfo 0x04 1 0 false sd))
    | some st =>
      if !st.wr then throw (illegal 0x07)
      let dst := st.entry.fmt
      if !accmvDst dst || st.entry.space != 0 then throw (mxIllegal 0x06 tile dst)
      footCheck c 0 false 1 [tile]
      let m := dimM c
      tilePoison s tile (List.range (2 * m))
      let ed := st.entry.perWord
      let wd := (64 * m + ed - 1) / ed
      let src := if isIntFmt dst then 0x0A else 0x00
      let mode := f.rnd.toNat
      let ys := ((readRows s s.curCore tile 0 m).zipIdx).map (fun p =>
        let r := if mode = 4 then drawR (c.qseed.getD 0 0).toNat st.entry.tid (accmvIndex st c.now p.2) else 0
        conv dst src p.1 mode (vrmSat c) r)
      let words := chunks ed wd ys
      let fl := (words.zipIdx).map (fun p =>
        ({ issue := c.now, addr := c.pc, perf := c.now + 2 + p.2,
           act := .driveS sd 1 (wordOf dst (p.1.map (·.1))) [], flags := orAll (p.1.map (·.2)), t3 := 0, poison := none,
           late := true } : Flight))
      let x := { Cmd.fresh c 1 .accmv with tile := tile, sa := sd, entA := st.entry, dimM := m, dimN := wd, last := c.now + 1 + wd }
      return ((accept s x wd).modCur (fun c => { c with flight := c.flight ++ fl }), .seq 1))

/-! ## Element access, step counters, abort: major 0x2B (R261–R263) -/

/-- Tile, row and column of an index (R261). -/
def accIndex (x : Word) : Nat × Nat × Nat := (bits x.toNat 6 0, bits x.toNat 12 7, bits x.toNat 18 13)

/-- An index with a non-zero bit above [18:0] (R261). -/
def accIndexOk (x : Word) : Res Unit := if x.toNat ≥ 2 ^ 19 then .error (mxIllegal 0x07 0 x.toNat) else .ok ()

/-- The traps of an element access (R246, R261, R378, R394). In handler mode a held tile is no fault (R282), and the access, which acts at once, takes the
bank of no cycle; the footprint, the window and the dirty bit are checked there too. -/
def accAccess (s : State) (wr : Bool) (x : Word) : Res State := do
  let (tile, i, j) := accIndex x
  if !s.cur.handler then heldCheck s.cur [tile]
  footCheck s.cur 0 wr 1 [tile]
  if wr then dirtyCheck s 0 [tile] s.cur.now
  if s.cur.handler then pure s else useBanks s [64 + (2 * i + j / 32) % 16]

def execAccrd (f : FDA) (s : State) : Host.Outcome State Fault Refusal :=
  issue1 s true (fun s => do
    dstOk s f.d.toNat
    let a := (f.a.toNat, f.ka)
    match ← srcVals s [a] with
    | [x] =>
      accIndexOk x
      let (tile, i, j) := accIndex x
      let t ← accAccess s false x
      match rowPoison (s.core s.curCore) [rowKey 1 (16384 * tile + 256 * i + 4 * j)] with
      | some p => throw (.trap 0x15 (poisonInfo p 2 tile))
      | none => pure ()
      return result (popSrcs t [a]) 2 f.d.toNat (BitVec.ofNat 64 (readTileElem s s.curCore tile i j))
    | _ => return s)

def execAccwr (f : FAB) (s : State) : Host.Outcome State Fault Refusal :=
  issue1 s true (fun s => do
    let a := (f.a.toNat, f.ka)
    let b := (f.b.toNat, f.kb)
    match ← lowerClass (peekCheck s a accIndexOk) (srcVals s [a, b]) with
    | [x, y] =>
      let (tile, i, j) := accIndex x
      let t ← accAccess s true x
      return writeTileElem (markDirty (popSrcs t [a, b]) tile) s.curCore tile i j (y.toNat % 2 ^ 32)
    | _ => return s)

def execEstep (f : FDA) (s : State) : Host.Outcome State Fault Refusal :=
  issue1 s true (fun s => do
    dstOk s f.d.toNat
    let a := (f.a.toNat, f.ka)
    match ← srcVals s [a] with
    | [x] =>
      if !([1, 3, 5, 7].contains x.toNat) then throw (mxIllegal 0x07 0 x.toNat)
      let v := if x.toNat = 3 then 0 else if x.toNat = 7 then baseStep s.cur else stationStep s.cur x.toNat
      return result (popSrcs s [a]) 1 f.d.toNat (BitVec.ofNat 64 v)
    | _ => return s)

/-- What EABORT does to the frozen context (R263). -/
def abortCmd (c : Ctx) (station : Nat) : Ctx :=
  match currentCmd c station with
  | none => c
  | some x =>
    { c with
      cmds := c.cmds.filter (fun y => !(y.issue == x.issue && y.station == station))
      flight := c.flight.filter (fun r => r.issue != x.issue)
      lastStep := (c.lastStep.set station (x.step c.now)).set (station + 8) x.issue
      freeAt := c.freeAt.set station c.now }

/-- EABORT and RESUME are legal in handler mode only (R263, R281). -/
def handlerOnly (s : State) : Res Unit := if inHandler s then .ok () else .error (illegal 0x03)

def execEabort (f : FA) (s : State) : Host.Outcome State Fault Refusal :=
  issue s { pre := handlerOnly } (fun s => do
    match ← srcVals s [(f.a.toNat, f.ka)] with
    | [x] =>
      if !([1, 5].contains x.toNat) then throw (mxIllegal 0x07 0 x.toNat)
      return (s.modCur (fun c => abortCmd c x.toNat), .seq 1)
    | _ => return (s, .seq 1))

end Sys2Proof.Machine
end

