-- ==== Sys2Proof/Machine/Factor.lean ====
section
/-! DEFINITION. Factorisations and solves in the matrix array: major 0x2A, PIVRD, GFRD, RESUME and the steps (R265–R283). -/

namespace Sys2Proof.Machine

/-! ## Issue (R265–R267) -/

/-- A factorisation issues: it keeps n and m and holds its tiles; its steps read what earlier commands have still to write
(R245, R268). -/
def factIssue (s : State) (kind : CmdKind) (tile tile2 fl : Nat) : Host.Outcome State Fault Refusal :=
  let two := kind == .trsm || kind == .grot
  issue s { handlerOk := false, first := busyCheck 1 } (fun s => do
    let c := s.cur
    if two && tile == tile2 then throw (mxIllegal 0x08 tile tile2)
    let x0 := { Cmd.fresh c 1 kind with tile := tile, tile2 := tile2, mode := fl, dimM := dimM c, dimN := dimN c }
    let (st, q) := factSteps x0
    let x := { x0 with cycles := q, last := c.now + q * st }
    let init (s : State) : State :=
      if kind == .lup then s.modCur (fun c => { c with piv := [], maxa := 0, maxu := 0, growth := 0 }) else s
    if st = 0 then return (accept (init s) x 1, .seq 1)
    tileChecks s (if two then [tile, tile2] else [tile]) [x.target] (c.now + q)
    return (accept (init s) x (q * st), .seq 1))

def execChol (f : FT) (s : State) := factIssue s .chol f.t.toNat f.t.toNat 0
def execLup (f : FT) (s : State) := factIssue s .lup f.t.toNat f.t.toNat 0
def execGivqr (f : FT) (s : State) := factIssue s .givqr f.t.toNat f.t.toNat 0
def execGrot (f : FTU) (s : State) := factIssue s .grot f.t.toNat f.u.toNat 0
def execTrsm (f : FTrsm) (s : State) := factIssue s .trsm f.t.toNat f.u.toNat f.fl.toNat

/-! ## The pivot state (R274, R275) -/

/-- Entry `i` of the pivot vector, identity where LUP has not set it (R274). -/
def pivOf (c : Ctx) (i : Nat) : Nat := c.piv.getD i i

/-- The whole pivot vector (R274). -/
def pivVector (c : Ctx) : Nat := ofFields 6 ((List.range 64).map (pivOf c))

/-- A read of the pivot state (R275). -/
def pivRead (f : FDA) (s : State) (lim : Nat) (get : Ctx → Nat → Nat) : Host.Outcome State Fault Refusal :=
  issue1 s true (fun s => do
    dstOk s f.d.toNat
    let a := (f.a.toNat, f.ka)
    match ← srcVals s [a] with
    | [x] =>
      if x.toNat ≥ lim then throw (mxIllegal 0x07 0 x.toNat)
      return result (popSrcs s [a]) 1 f.d.toNat (BitVec.ofNat 64 (get s.cur x.toNat))
    | _ => return s)

def execPivrd (f : FDA) (s : State) := pivRead f s 64 pivOf
def execGfrd (f : FDA) (s : State) := pivRead f s 3 (fun c i =>
  match i with
  | 0 => c.growth.toNat
  | 1 => c.maxa
  | _ => c.maxu)

/-- RESUME clears the latched breakdown of station 1 (R281). -/
def execResume (f : FA) (s : State) : Host.Outcome State Fault Refusal :=
  issue s { pre := handlerOnly } (fun s => do
    match ← srcVals s [(f.a.toNat, f.ka)] with
    | [x] =>
      if x.toNat != 1 then throw (mxIllegal 0x07 0 x.toNat)
      return (s.modCur (fun c => { c with cmds := c.cmds.map (fun y => { y with latched := none }) }), .seq 1)
    | _ => return (s, .seq 1))

/-! ## FP32 steps (R269): every operation rounds to nearest even, on patterns -/

def f32 (p : Nat) : Val := decodeVal 0x00 p

/-- The flags that a step raises: NV and OF; DZ only in TRSM (R269). -/
def stepFlags (fl : Nat) : Nat := fl &&& (fNV ||| fOF)

/-- `a − l × u`. -/
def subMul (a l u : Nat) : Nat × Nat := let r := fmaTo 0x00 (f32 l).negate (f32 u) (f32 a) 0 false
  (r.1, stepFlags r.2)

/-- `a / b`. -/
def divStep (a b : Nat) : Nat × Nat := let r := divTo 0x00 (f32 a) (f32 b) 0 false
  (r.1, stepFlags r.2)

/-- `c × x + s × y`, or `c × x − s × y`: one rounding of the exact two-product sum (R277). -/
def rotate (c x s y : Nat) (sub : Bool) : Nat × Nat :=
  if (f32 c).isNan || (f32 x).isNan || (f32 s).isNan || (f32 y).isNan then (canon 0x00, 0)
  else
    let p := Val.mul (f32 c) (f32 x)
    let q := Val.mul (f32 s) (f32 y)
    if p.2 || q.2 then (canon 0x00, fNV)
    else let r := addTo 0x00 p.1 (if sub then q.1.negate else q.1) 0 false
      (r.1, stepFlags r.2)

/-- A tile as a step reads it. -/
abbrev Tile := Array Nat
def Tile.el (t : Tile) (i j : Nat) : Nat := Array.getD t (i * 64 + j) 0

/-- What a step writes: positions (row · 64 + column) and patterns, with its flags. -/
structure StepOut where
  out : List (Nat × Nat)
  flags : Nat
  extra : List Nat

/-- Results at positions, with their flags. -/
def stepOf (rs : List (Nat × (Nat × Nat))) : StepOut := ⟨rs.map (fun r => (r.1, r.2.1)), orAll (rs.map (fun r => r.2.2)), []⟩

/-! ## CHOL (R270) -/

/-- d ≤ 0 or NaN. -/
def notPositive (p : Nat) : Bool :=
  match f32 p with
  | .nan => true
  | .zero _ => true
  | .inf n => n
  | .fin n _ _ => n

/-- Step j of CHOL: the failing value, or what it writes. -/
def cholStep (n j : Nat) (t : Tile) : Except Nat StepOut :=
  let d := t.el j j
  if notPositive d then .error d
  else
    let r := sqrtTo 0x00 (f32 d) 0 false
    let ljj := r.1
    let l : Nat → Nat × Nat := fun i => divStep (t.el i j) ljj
    let col := ((List.range n).filter (j < ·)).map (fun i => (i * 64 + j, l i))
    let trail := ((List.range n).filter (j < ·)).flatMap (fun k => ((List.range n).filter (k ≤ ·)).map (fun i =>
      (i * 64 + k, subMul (t.el i k) (l i).1 (l k).1)))
    .ok (stepOf ((j * 64 + j, (ljj, stepFlags r.2)) :: col ++ trail))

/-! ## LUP (R271–R273) -/

/-- Candidate `y` ranks above `x` as a pivot: a NaN above every number, else the larger magnitude (R272). -/
def pivotAbove (x y : Nat) : Bool :=
  let a := f32 x
  let b := f32 y
  if a.isNan then false else if b.isNan then true else a.abs.lt b.abs

/-- The pivot row among rows `j … m − 1` (R272). -/
def pivotRow (m j : Nat) (t : Tile) : Nat :=
  ((List.range m).filter (j < ·)).foldl (fun p i => if pivotAbove (t.el p j) (t.el i j) then i else p) j

/-- The largest magnitude of patterns, NaN where one is (R271). Canon(0x00) is R271's pattern for MAXA and GROWTH; MAXU takes the same one (DESIGN
CHOICE, log 104). -/
def magMaxPat (ps : List Nat) : Nat :=
  let x := (ps.map (fun p => p % 2 ^ 31)).foldl max 0
  if x > 0x7F800000 then canon 0x00 else x

/-- Step j of LUP (R271). `extra` holds p, MAXA, MAXU and GROWTH. -/
def lupStep (m n j maxa maxu : Nat) (t : Tile) : Except Nat StepOut :=
  let p := pivotRow m j t
  if (f32 (t.el p j)).isZero then .error (t.el j j)
  else
    let cols := List.range n
    let a (i k : Nat) : Nat := if i = j then t.el p k else if i = p then t.el j k else t.el i k
    let ma := if j = 0 then magMaxPat ((List.range m).flatMap (fun i => cols.map (fun k => t.el i k))) else maxa
    let piv := a j j
    let l : Nat → Nat × Nat := fun i => divStep (a i j) piv
    let below := (List.range m).filter (j < ·)
    let rows := (List.range m).flatMap (fun i => cols.map (fun k =>
      (i * 64 + k, if j < i ∧ k = j then l i
                   else if j < i ∧ j < k then subMul (a i k) (l i).1 (a j k)
                   else (a i k, 0))))
    let mu := magMaxPat (maxu :: (cols.filter (j ≤ ·)).map (fun k => a j k))
    let g := divStep mu ma
    let o := stepOf rows
    let fl := orAll (below.map (fun i => (l i).2))
    .ok { o with flags := o.flags ||| fl ||| g.2, extra := [p, ma, mu, g.1] }

/-! ## TRSM (R276) -/

/-- Step s of TRSM on T and B. `trap` is MODE.SOLVETRAP. -/
def trsmStep (m n fl s : Nat) (trap : Bool) (t u : Tile) : Except Nat StepOut :=
  let side := bitB fl 0
  let uplo := bitB fl 1
  let trans := bitB fl 2
  let unit := bitB fl 3
  let lower := !(side != (uplo != trans))
  let j := if lower then s else n - 1 - s
  let mm (i k : Nat) : Nat := if trans == side then t.el i k else t.el k i
  let pos (i c : Nat) : Nat := if side then c * 64 + i else i * 64 + c
  let y (i c : Nat) : Nat := if side then u.el c i else u.el i c
  let d := mm j j
  if !unit && trap && (f32 d).isZero then .error d
  else
    let left := if lower then (List.range n).filter (j < ·) else List.range j
    let rs := (List.range m).flatMap (fun c =>
      let q := if unit then (y j c, 0) else
        let r := divTo 0x00 (f32 (y j c)) (f32 d) 0 false
        (r.1, r.2 &&& (fNV ||| fOF ||| fDZ))
      (pos j c, q) :: left.map (fun i => (pos i c, subMul (y i c) (mm i j) q.1)))
    .ok (stepOf rs)

/-! ## GIVQR and GROT (R277–R279) -/

/-- The rotations in order: (column j, row i) (R277). -/
def rotations (m n : Nat) : List (Nat × Nat) :=
  (List.range (min n (m - 1))).flatMap (fun j => (List.range (m - 1 - j)).map (fun d => (j, m - 1 - d)))

/-- `√(p / q)` of positive dyadics, rounded to FP32 with a sign; the flag says whether the root is cut. -/
def sqrtRatio (neg : Bool) (p q : Nat × Int) : Nat × Nat :=
  let e := p.2 - q.2
  let (m, e1) := if e % 2 = 0 then (p.1, e) else (p.1 * 2, e - 1)
  let k := Nat.log2 q.1 + 100
  let x := m * 2 ^ (2 * k) / q.1
  let r := isqrt x
  let exact := r * r * q.1 == m * 2 ^ (2 * k)
  let z := roundToS 0x00 (.fin neg r (e1 / 2 - (k : Int))) 0 false (!exact) 0
  (z.1, stepFlags z.2)

/-- Encode(a, b): ρ and h with their flags (R278). -/
def encodeRot (a b : Nat) : (Nat × Nat) × Nat :=
  match f32 a, f32 b with
  | .nan, _ => ((canon 0x00, canon 0x00), 0)
  | _, .nan => ((canon 0x00, canon 0x00), 0)
  | .inf _, _ => ((canon 0x00, canon 0x00), fNV)
  | _, .inf _ => ((canon 0x00, canon 0x00), fNV)
  | _, .zero _ => ((0, a), 0)
  | .zero _, _ => ((0x3F800000, b), 0)
  | .fin na ma ea, .fin nb mb eb =>
    let sq := dyAdd (((ma * ma : Nat) : Int), 2 * ea) (((mb * mb : Nat) : Int), 2 * eb)
    let g2 : Nat × Int := (sq.1.toNat, sq.2)
    let h := sqrtRatio na g2 (1, 0)
    if magCmp mb eb ma ea == .gt then
      -- |ρ| = 2|g| / |a| = √(4g² / a²)
      let r := sqrtRatio (na != nb) (g2.1, g2.2 + 2) (ma * ma, 2 * ea)
      ((r.1, h.1), r.2 ||| h.2)
    else
      -- |ρ| = |b| / (2|g|) = √(b² / (4g²))
      let r := sqrtRatio (na != nb) (mb * mb, 2 * eb) (g2.1, g2.2 + 2)
      ((r.1, h.1), r.2 ||| h.2)

/-- √(1 − v²) rounded, of an exact value v. -/
def cosOf (v : Val) : Nat × Nat :=
  let sq := (Val.mul v v).1
  let r := sqrtTo 0x00 (Val.add false (.fin false 1 0) sq.negate).1 0 false
  (r.1, stepFlags r.2)

/-- Decode(ρ): c and s with their flags (R278). -/
def decodeRot (rho : Nat) : (Nat × Nat) × Nat :=
  let v := f32 rho
  let one : Val := .fin false 1 0
  let sgn := b2n v.sign * 2 ^ 31
  if v.isNan then ((canon 0x00, canon 0x00), 0)
  else if v.abs.eqv one then ((0, sgn + 0x3F800000), 0)
  else if v.abs.lt one then
    let c := cosOf (v.scale 1)
    ((c.1, (roundTo 0x00 (v.scale 1) 0 false 0).1), c.2)
  else
    let c := divTo 0x00 (.fin false 1 1) v.abs 0 false
    let s := cosOf (f32 c.1)
    ((c.1, if (f32 s.1).isNan then s.1 else sgn + s.1), stepFlags c.2 ||| s.2)

/-- One rotation applied to rows i − 1 and i of a tile, columns given (R277). -/
def applyRot (c s : Nat) (t : Tile) (i : Nat) (cols : List Nat) : StepOut :=
  stepOf (cols.flatMap (fun k =>
    let x := t.el (i - 1) k
    let y := t.el i k
    [((i - 1) * 64 + k, rotate c x s y false), (i * 64 + k, rotate c y s x true)]))

/-- One step of GIVQR (R277). -/
def givqrStep (m n s : Nat) (t : Tile) : StepOut :=
  let (j, i) := (rotations m n).getD s (0, 1)
  let e := encodeRot (t.el (i - 1) j) (t.el i j)
  let d := decodeRot e.1.1
  let o := applyRot d.1.1 d.1.2 t i ((List.range n).filter (j < ·))
  { o with out := ((i - 1) * 64 + j, e.1.2) :: (i * 64 + j, e.1.1) :: o.out, flags := o.flags ||| e.2 ||| d.2 }

/-- One step of GROT (R279). -/
def grotStep (m n s : Nat) (t u : Tile) : StepOut :=
  let (j, i) := (rotations m n).getD s (0, 1)
  let d := decodeRot (t.el i j)
  let o := applyRot d.1.1 d.1.2 u i (List.range 64)
  { o with flags := o.flags ||| d.2 }

/-! ## The steps of a command (R267, R268, R280) -/

/-- What step `k` of a command computes from the tiles: the failing value with its J, or what it writes. -/
def factCompute (x : Cmd) (c : Ctx) (trap : Bool) (k : Nat) (t u : Tile) : Except (Nat × Nat) StepOut :=
  let j (r : Except Nat StepOut) (n : Nat) : Except (Nat × Nat) StepOut := r.mapError (fun v => (n, v))
  match x.kind with
  | .chol => j (cholStep x.dimN k t) k
  | .lup => j (lupStep x.dimM x.dimN k c.maxa c.maxu t) k
  | .trsm =>
    let lower := !(bitB x.mode 0 != (bitB x.mode 1 != bitB x.mode 2))
    j (trsmStep x.dimM x.dimN x.mode k trap t u) (if lower then k else x.dimN - 1 - k)
  | .givqr => .ok (givqrStep x.dimM x.dimN k t)
  | .grot => .ok (grotStep x.dimM x.dimN k t u)
  | _ => .ok ⟨[], 0, []⟩

/-- OP code and cause of a breakdown (R265, R280). -/
def factOp (x : Cmd) : Nat × Nat :=
  match x.kind with
  | .chol => (0, 0x11)
  | .lup => (1, 0x12)
  | .trsm => (4, 0x13)
  | .givqr => (2, 0)
  | .grot => (3, 0)
  | _ => (0, 0)

/-- EINFO of a breakdown (R280). -/
def breakInfo (x : Cmd) (j val : Nat) : Nat :=
  j + x.tile * 2 ^ 8 + (if x.kind == .trsm then x.tile2 else 0) * 2 ^ 16 + (factOp x).1 * 2 ^ 24 + val * 2 ^ 32

/-- The 128-byte rows of a tile that hold columns `lo … hi` of row `i`. -/
def halves (i lo hi : Nat) : List Nat :=
  if hi < lo then [] else (if lo < 32 then [2 * i] else []) ++ (if 32 ≤ hi then [2 * i + 1] else [])

/-- The rows that hold the declared triangle of an `n`×`n` tile, without its diagonal where `unit` (R276). -/
def triRows (upper unit : Bool) (n : Nat) : List Nat :=
  (List.range n).flatMap (fun i =>
    if upper then halves i (if unit then i + 1 else i) (n - 1)
    else if unit && i == 0 then [] else halves i 0 (if unit then i - 1 else i))

/-- The rows of AT and of AU that step `k` of a command reads (R266, R268, R271, R276). -/
def factRows (x : Cmd) (k : Nat) : List Nat × List Nat :=
  let m := x.dimM
  let n := x.dimN
  let from' (a b : Nat) : List Nat := (List.range b).filter (a ≤ ·)
  match x.kind with
  | .chol => ((from' k n).flatMap (fun i => halves i k i), [])
  | .lup => ((List.range m).flatMap (fun i => halves i 0 (n - 1)), [])
  | .trsm =>
    let side := bitB x.mode 0
    let trans := bitB x.mode 2
    let unit := bitB x.mode 3
    let lower := !(side != (bitB x.mode 1 != trans))
    let j := if lower then k else n - 1 - k
    let idx := (if lower then from' (j + 1) n else List.range j)
    (triRows (bitB x.mode 1) unit n,
     if side then (List.range m).flatMap (fun c => (j :: idx).flatMap (fun i => halves c i i))
     else (j :: idx).flatMap (fun i => halves i 0 (m - 1)))
  | .givqr =>
    let r := (rotations m n).getD k (0, 1)
    (halves (r.2 - 1) r.1 (n - 1) ++ halves r.2 r.1 (n - 1), [])
  | .grot =>
    let r := (rotations m n).getD k (0, 1)
    (halves r.2 r.1 r.1, halves (r.2 - 1) 0 63 ++ halves r.2 0 63)
  | _ => ([], [])

/-- The first cycle of a step: the latched or a new breakdown, or what the step will write (R268, R280). -/
def factRead (s : State) (x : Cmd) (trap : Bool) (k : Nat) : State :=
  match x.latched with
  | some (cause, info) => takeStop s (.trap cause info)
  | none =>
    let t := (chainTile s x.issue x.tile).toArray
    let u := (chainTile s x.issue x.tile2).toArray
    let rows := factRows x k
    let a := chainPoison s x.issue x.tile rows.1.dedup
    let b := chainPoison s x.issue x.tile2 rows.2.dedup
    match lowestTag a b, b with
    | .error e, _ => takeStop s e
    | .ok _, .error e => takeStop s e
    | .ok _, .ok _ =>
      match factCompute x s.cur trap k t u with
      | .error (j, v) =>
        let cause := (factOp x).2
        let info := breakInfo x j v
        (takeStop s (.trap cause info)).modCur (fun c => putCmd c { x with latched := some (cause, info) })
      | .ok o => s.modCur (fun c => putCmd c { x with out := o.out, outFlags := o.flags, places := o.extra })

/-- The last cycle of a step: its writes, its flags and, for LUP, the pivot state, unless a later LUP has set it anew on its issue (R268, R269,
R271). -/
def factWrite (s : State) (x : Cmd) (k : Nat) : State :=
  let out := if x.wrote then [] else x.out.filter (fun p => decide (64 * x.supers ≤ p.1))
  let t := out.foldl (fun s p => writeTileElem s s.curCore x.target (p.1 / 64) (p.1 % 64) p.2) (markDirty s x.target)
  t.modCur (fun c =>
    let d := skipElems (orFlags (putCmd c { x with out := [], outFlags := 0, places := [] }) x.outFlags) x.issue x.target (out.map (·.1))
    match x.places with
    | [p, ma, mu, g] => if d.cmds.any (fun y => y.kind == .lup && decide (x.issue < y.issue)) then d else { d with piv := d.piv.set k p, maxa := ma, maxu := mu, growth := BitVec.ofNat 64 g }
    | _ => d)

end Sys2Proof.Machine
end

