-- ==== Sys2Proof/Machine/Context.lean ====
section
/-! DEFINITION. Control registers, traps by instruction, items of a context and context switches: majors 0x38, 0x39 and 0x3A, FN
0 to 4 (R369–R391), and the system CSRs (R403). -/

namespace Sys2Proof.Machine

/-! ## Control registers -/

/-- CTXSLOT of a slot of a core (R377). -/
def ctxslotWord (s : State) (core slot : Nat) : Nat :=
  let p := s.partOfDie (core / 32)
  let q := s.part p
  let d := s.dom p slot
  (match (s.core core).slotRun with | some n => n % 4 | none => 3)
    + b2n ((taskCores q.dom0).contains core) * 4 + b2n ((taskCores q.dom1).contains core) * 8 + (q.str % 4) * 2 ^ 4
    + (q.strSlot % 2) * 2 ^ 6 + b2n q.serr * 2 ^ 7 + b2n d.wdf * 2 ^ 8 + b2n d.osh * 2 ^ 9

/-- A CSR of a slot of a core (R18, R43, R174–R178, R202, R243, R274, R313, R369–R378). -/
def csrRead (s : State) (core slot n : Nat) : Word :=
  let c := s.ctxOf core slot
  if 0x60 ≤ n ∧ n ≤ 0x67 then c.qseed.getD (n - 0x60) 0
  else if 0x81 ≤ n ∧ n ≤ 0x86 then BitVec.ofNat 64 (bits (pivVector c) (64 * (n - 0x81) + 63) (64 * (n - 0x81)))
  else
    match n with
    | 0x00 => c.cause | 0x01 => c.epc | 0x02 => c.etb | 0x03 => c.einfo | 0x04 => c.tvec
    | 0x08 => c.mode | 0x09 => c.hfault
    | 0x30 => c.tb0 | 0x31 => c.dmr | 0x32 => c.phaseno | 0x33 => c.ssn
    | 0x34 => BitVec.ofNat 64 (ctxslotWord s core slot) | 0x35 => c.holdinfo | 0x36 => c.ctxwin
    | 0x40 => c.frm | 0x41 => c.vrm | 0x42 => c.vflags | 0x43 => c.t3cnt
    | 0x68 => c.satcnt | 0x69 => c.nancnt | 0x6A => c.qtscale | 0x6B => c.dqscale
    | 0x80 => c.mxdim | 0x87 => c.growth
    | 0xA0 => c.slip | 0xA1 => c.migst | 0xA2 => c.land | 0xA3 => c.faultpc | 0xA4 => c.raceag | 0xA5 => c.aukey
    | _ => 0

/-- A CSR written: only its RW fields change (R5, R390). -/
def csrWrite (c : Ctx) (n : Nat) (v : Word) : Ctx :=
  let low (w : Nat) : Word := BitVec.ofNat 64 (v.toNat % 2 ^ w)
  if 0x60 ≤ n ∧ n ≤ 0x67 then { c with qseed := c.qseed.set (n - 0x60) v }
  else
    match n with
    | 0x00 => { c with cause := low 8 }
    | 0x01 => { c with epc := low 16 }
    | 0x04 => { c with tvec := low 16 }
    | 0x08 => { c with mode := low 4 }
    | 0x40 => { c with frm := low 3 }
    | 0x41 => { c with vrm := low 4 }
    | 0x42 => { c with vflags := low 6 }
    | 0x43 => { c with t3cnt := low 32 }
    | 0x68 => { c with satcnt := low 32 }
    | 0x69 => { c with nancnt := low 32 }
    | 0x6A => { c with qtscale := low 32 }
    | 0x6B => { c with dqscale := low 32 }
    | 0x80 => { c with mxdim := BitVec.ofNat 64 (bits v.toNat 5 0 + bits v.toNat 13 8 * 2 ^ 8 + bits v.toNat 31 16 * 2 ^ 16) }
    | 0xA0 => { c with slip := v }
    | 0xA2 => { c with land := BitVec.ofNat 64 (bits v.toNat 22 7 * 2 ^ 7 + bits v.toNat 63 48 * 2 ^ 48) }
    | _ => c

/-- The word that SNSEL selects (R402, R403): of a core by partition rank, or of an engine of a die. -/
def snapshotWord (s : State) (p sel : Nat) : Word :=
  let w := Config.snapPlace (bits sel 19 12)
  if bitB sel 8 then BitVec.ofNat 64 ((s.engOf (engNo (bits sel 11 9) (bits sel 7 0))).snap.getD w 0)
  else BitVec.ofNat 64 ((s.core (32 * p + bits sel 7 0)).snap.getD w 0)

/-- A CSR of the current system core (R403), with the FRM and VFLAGS of its scalar floating-point group (R107, R108; DESIGN CHOICE, log 71). A
system core reads the TB of any slot of its partition (R24): no rule says by which number, and the model gives it 0x030 for slot 0 and 0x031 for slot 1
(DESIGN CHOICE, log 71). For the race tags (R314), which need an address too, it adds no such number. -/
def sysCsrRead (s : State) (n : Nat) : Word :=
  let x := s.sys
  let p := s.partOfDie (s.curSys / 2)
  let q := s.part p
  match n with
  | 0x100 => BitVec.ofNat 64 x.sevt | 0x101 => BitVec.ofNat 64 x.seven
  | 0x102 => BitVec.ofNat 64 x.svec | 0x103 => BitVec.ofNat 64 x.sepc
  | 0x110 => s.pkg.therm | 0x111 => s.pkg.pwr
  | 0x120 => BitVec.ofNat 64 x.errsel
  | 0x121 => q.errs.getD (x.errsel * 4) 0 | 0x122 => q.errs.getD (x.errsel * 4 + 1) 0
  | 0x123 => q.errs.getD (x.errsel * 4 + 2) 0 | 0x124 => q.errs.getD (x.errsel * 4 + 3) 0
  | 0x30 => BitVec.ofNat 64 (s.dom p 0).tb | 0x31 => BitVec.ofNat 64 (s.dom p 1).tb
  | 0x40 => x.frm | 0x42 => x.vflags
  | 0x128 => BitVec.ofNat 64 x.snsel | 0x129 => snapshotWord s p x.snsel
  | 0x12A => BitVec.ofNat 64 (q.snseq % 2 ^ 32)
  | _ => 0

/-- A CSR of the current system core written; SEVT bits are cleared by ones (R403). -/
def sysCsrWrite (x : SysSt) (n v : Nat) : SysSt :=
  match n with
  | 0x40 => { x with frm := BitVec.ofNat 64 (v % 2 ^ 3) }
  | 0x42 => { x with vflags := BitVec.ofNat 64 (v % 2 ^ 6) }
  | 0x100 => { x with sevt := x.sevt &&& (2 ^ 10 - 1 - v % 2 ^ 10) }
  | 0x101 => { x with seven := v % 2 ^ 10 }
  | 0x102 => { x with svec := v % 2 ^ 16 }
  | 0x103 => { x with sepc := v % 2 ^ 16 }
  | 0x120 => { x with errsel := v % 2 ^ 9 }
  | 0x128 => { x with snsel := v % 2 ^ 20 }
  | _ => x

/-- The domain of the current core stands on its F. -/
def onF (s : State) : Bool := match s.curDom.mode with | .frozen _ => true | .catchUp _ _ => true | _ => false

/-- CSRRD reads the CSR as it stood at the end of the cycle before; in handler mode HOLDINFO waits for F (R43, R390). -/
def execCsrrd (f : FCsrR) (s : State) : Host.Outcome State Fault Refusal :=
  issue s {} (fun s => do
    dstOk s f.d.toNat
    let n := f.csr.toNat
    if s.onSys then return (result s 1 f.d.toNat (sysCsrRead s n), .seq 1)
    else if s.cur.handler && n == 0x35 && !onF s then return (s, .settled)
    else return (result s 1 f.d.toNat (csrRead s s.curCore (s.slotOf s.curCore) n), .seq 1))

/-- CSRWR writes on its issue cycle, before that cycle's flags and counts (R178, R390). -/
def execCsrwr (f : FCsrW) (s : State) : Host.Outcome State Fault Refusal :=
  issue s {} (fun s => do
    let vs ← srcVals s [(f.a.toNat, false)]
    let v := vs.headD 0
    let t := popSrcs s [(f.a.toNat, false)]
    return (if s.onSys then t.setSys (sysCsrWrite t.sys f.csr.toNat v.toNat) else t.modCur (fun c => csrWrite c f.csr.toNat v),
      .seq 1))

/-! ## TRAP and TRET (R375, R376, R386, R387, R403) -/

/-- TRAP takes SYSCALL on the next cycle; in handler mode it hands the context over; a system core takes it at once (R375, R386,
log 11). -/
def execTrap (f : FA) (s : State) : Host.Outcome State Fault Refusal :=
  issue s {} (fun s => do
    let vs ← srcVals s [(f.a.toNat, f.ka)]
    let v := vs.headD 0
    if s.onSys then
      let t := sysTrap s 0x18 v.toNat
      return (t.setSys { t.sys with sepc := (s.sys.pc + 1) % 65536 }, .settled)
    else if s.cur.handler then return (doubleFault s 0x18 v.toNat, .settled)
    else return ((popSrcs s [(f.a.toNat, f.ka)]).modCur (fun c => { c with sysCall := some (c.now + 1, v) }), .seq 1))

/-- TRET: from handler mode back to the frozen cycle, from a system core's event handler to SEPC (R376, R387, R403). -/
def execTret (s : State) : Host.Outcome State Fault Refusal :=
  issue s { pre := fun s => if s.onSys || s.cur.handler then .ok () else .error (illegal 0x03) } (fun s =>
    if s.onSys then .ok (s.setSys { s.sys with pc := s.sys.sepc % 65536, inEvent := false, guard := none }, .settled)
    else .ok (leaveHandler s, .settled))

/-! ## Items of a context (R388) -/

/-- ILLEGAL class 0x14 (R391). -/
def ctxIllegal (reason idx : Nat) : Stop := illegalOp 0x14 reason idx

/-- An ITEM in its class's range (R388). An undefined CSR number is out of class 7's range (DESIGN CHOICE, log 106). -/
def itemOk (cls item : Nat) : Bool :=
  match cls with
  | 0 => decide (item < 2 ^ 8) | 1 => decide (item < 2 ^ 6) | 2 => decide (item < 2 ^ 9) | 3 => decide (item < 2 ^ 4)
  | 4 => decide (item < 2 ^ 7 ∧ item / 16 ≤ 2) | 5 => decide (item < 2 ^ 3) | 6 => decide (item ≤ 4)
  | 7 => decide (item < 2 ^ 11) && csrDefined false item | 8 => decide (item < 2) | _ => false

/-- Core and slot that an index names, or reason 0x02 (R388, R391). From a system core a RANK beyond the partition, or SLOT 2 or 3, takes it too (DESIGN
CHOICE, log 106). -/
def ctxTarget (s : State) (idx : Nat) : Res (Nat × Nat) :=
  let rank := bits idx 27 20
  let slot := bits idx 29 28
  if idx >>> 30 != 0 || !itemOk (bits idx 19 16) (bits idx 15 0) then .error (ctxIllegal 0x02 idx)
  else if s.onSys then
    let p := s.partOfDie (s.curSys / 2)
    if slot ≥ 2 || decide (rank ≥ 32 * (s.part p).size) || (s.part p).runSlot == some slot then .error (ctxIllegal 0x02 idx)
    else .ok (32 * p + rank, slot)
  else if rank != 0 || slot != 0 then .error (ctxIllegal 0x02 idx)
  else .ok (s.curCore, s.slotOf s.curCore)

/-- A mask of the entries of a queue. -/
def entryMask (es : List QEntry) (p : QEntry → Bool) : Nat := ((es.zipIdx).map (fun e => b2n (p e.1) * 2 ^ e.2)).sum

/-- A loop record: 0 is the outermost (log 14). -/
def loopAtIdx (c : Ctx) (n : Nat) : Option LoopRec := c.loops.reverse[n]?

/-- A difference of two cycles as a 64-bit word. -/
def sub64 (a b : Nat) : Nat := ofInt 64 ((a : Int) - (b : Int))

/-- An item of a context; none where it does not exist, and a free value where the spec gives the item none (R388). -/
def ctxItem (s : State) (core slot idx : Nat) : Option (Word × State) :=
  let c := s.ctxOf core slot
  let item := bits idx 15 0
  let tb0 := c.release
  let word (n : Nat) : Option (Word × State) := some (BitVec.ofNat 64 n, s)
  match bits idx 19 16 with
  | 0 =>
    match (qEntries c (bits item 5 0))[bits item 7 6]? with
    | none => none
    | some (.val v _) => some (v, s)
    | some _ => some (fresh s)
  | 1 =>
    let es := qEntries c item
    word (es.length + entryMask es (fun e => match e with | .pending _ => true | _ => false) * 2 ^ 4
      + entryMask es (fun e => match e with | .faulted _ => true | _ => false) * 2 ^ 8)
  | 2 =>
    match (wEntries c (bits item 3 0))[bits item 4 4]? with
    | none => none
    | some e => word (bits e.word.toNat (64 * bits item 8 5 + 63) (64 * bits item 8 5))
  | 3 => word (wEntries c item).length
  | 4 =>
    match c.strms.find (bits item 3 0), bits item 6 4 with
    | _, 0 => some (sstatWord c (bits item 3 0), s)
    | none, _ => some (fresh s)
    | some st, 1 => word (sub64 st.t1 tb0)
    | some st, _ => word (st.cnt % 2 ^ 16 + (st.adv % 2 ^ 16) * 2 ^ 16 + (st.off % 2 ^ 12) * 2 ^ 32)
  | 5 =>
    match loopAtIdx c (bits item 1 0), bits item 2 2 with
    | some l, 0 => word (l.first + l.last * 2 ^ 16 + 2 ^ 32)
    | some l, _ => word l.left
    | none, 0 => let r := fresh s; some (BitVec.ofNat 64 (r.1.toNat % 2 ^ 32), r.2)
    | none, _ => some (fresh s)
  | 6 =>
    match item with
    | 0 => word (sub64 c.seg.start tb0)
    | 1 => word c.seg.cnt
    | 2 => word c.seg.expSig
    | 3 => word c.seg.sig
    | _ => word (b2n c.seg.active + b2n c.seg.opn * 2)
  | 7 => some (csrRead s core slot item, s)
  | _ =>
    if item = 0 then word (sub64 (c.nic.getD (max c.now (c.base + idlAt s core slot c.pc))) tb0)
    else
      let before (t : Nat) : Bool := match (s.dom (s.partOfDie (core / 32)) slot).mode with
        | .frozen f => decide (t < f) | .catchUp f _ => decide (t < f) | _ => true
      word (match c.frozen with
        | some f => if f.kind != 0 && before f.cycle then sub64 f.cycle tb0 else 2 ^ 64 - 1
        | none => 2 ^ 64 - 1)

/-- CTXRD (R388). -/
def execCtxrd (f : FDA) (s : State) : Host.Outcome State Fault Refusal :=
  issue s { pre := fun s => if s.onSys || s.cur.handler then .ok () else .error (illegal 0x03) } (fun s => do
    dstOk s f.d.toNat
    let vs ← srcVals s [(f.a.toNat, f.ka)]
    let idx := (vs.headD 0).toNat
    let t ← ctxTarget s idx
    match ctxItem s t.1 t.2 idx with
    | none => throw (ctxIllegal 0x02 idx)
    | some (v, s1) => return (result s1 1 f.d.toNat v, .seq 1))

/-- Two ranges, first to last, have a place in common. -/
def rangesMeet (a0 a1 b0 b1 : Nat) : Bool := decide (max a0 b0 ≤ min a1 b1)

/-- Two windows overlap (R378). -/
def windowsMeet (a b : Nat) : Bool :=
  rangesMeet (bits a 10 0) (bits a 26 16) (bits b 10 0) (bits b 26 16)
    || rangesMeet (bits a 38 32) (bits a 46 40) (bits b 38 32) (bits b 46 40)

/-- The fields of CTXWIN (R378). -/
def winFields (v : Nat) : Nat := bits v 10 0 + bits v 26 16 * 2 ^ 16 + bits v 38 32 * 2 ^ 32 + bits v 46 40 * 2 ^ 40

/-- A CSR written by CTXWR; a system core writes CTXWIN and AUKEY too (R313, R378, R388). -/
def ctxCsrWrite (s : State) (core slot n idx : Nat) (v : Word) : Res State :=
  let c := s.ctxOf core slot
  if s.onSys && n == 0x36 then
    let w := winFields v.toNat
    if windowsMeet w (s.ctxOf core (1 - slot)).ctxwin.toNat then
      .error (ctxIllegal 0x03 idx)
    else .ok (s.setCtx core slot { c with ctxwin := BitVec.ofNat 64 w })
  else if s.onSys && n == 0xA5 then .ok (s.setCtx core slot { c with aukey := BitVec.ofNat 64 (v.toNat % 2 ^ 16) })
  else .ok (s.setCtx core slot (csrWrite c n v))

/-- An item of a context written (R388), or reason 0x03. -/
def ctxPut (s : State) (core slot idx : Nat) (v : Word) : Res State :=
  let c := s.ctxOf core slot
  let item := bits idx 15 0
  let bad : Res State := .error (ctxIllegal 0x03 idx)
  match bits idx 19 16 with
  | 0 =>
    let q := bits item 5 0
    let p := bits item 7 6
    let es := qEntries c q
    if p > es.length then bad
    else if q = 0 then .ok s
    else if p = es.length then .ok (s.setCtx core slot (setQ c q (es ++ [.val v none])))
    else .ok (s.setCtx core slot (setQ c q (es.set p (.val v none))))
  | 1 =>
    let es := qEntries c item
    if v.toNat % 8 > es.length then bad else .ok (s.setCtx core slot (setQ c item (es.take (v.toNat % 8))))
  | 2 =>
    let n := bits item 3 0
    let k := bits item 8 5
    match (wEntries c n)[bits item 4 4]? with
    | none => bad
    | some e =>
      let w := BitVec.ofNat 1024 (putBits e.word.toNat (64 * k + 63) (64 * k) v.toNat)
      .ok (s.setCtx core slot (setW c n ((wEntries c n).set (bits item 4 4) { e with word := w })))
  | 7 => ctxCsrWrite s core slot item idx v
  | _ => bad

/-- CTXWR (R388). -/
def execCtxwr (f : FAB) (s : State) : Host.Outcome State Fault Refusal :=
  issue s { pre := fun s => if s.onSys || s.cur.handler then .ok () else .error (illegal 0x03) } (fun s => do
    let vs ← srcVals s [(f.a.toNat, f.ka), (f.b.toNat, f.kb)]
    let idx := (vs.headD 0).toNat
    let t ← ctxTarget s idx
    return (← ctxPut s t.1 t.2 idx (vs.getD 1 0), .seq 1))

/-! ## SNAP (R402) -/

/-- SNAP requests a hold of KIND 9 stamped with its cycle; in handler mode every agent of the domain latches the state in which it stands,
at once; a system core triggers the running domain of its partition (R402). -/
def execSnap (s : State) : Host.Outcome State Fault Refusal :=
  issue1 s true (fun s =>
    let p := if s.onSys then s.partOfDie (s.curSys / 2) else s.curPart
    let t := countTrigger s p
    if s.onSys then
      match (t.part p).runSlot with
      | none => .ok t
      | some sl => .ok (t.setDom p sl (requestHold (t.dom p sl) 9 (t.dom p sl).tb 64 t.wb))
    else if s.cur.handler then .ok (latchDomain t p (s.slotOf s.curCore))
    else .ok (t.setCurDom (requestHold t.curDom 9 s.cur.now 64 t.wb)))

/-! ## CTXSW (R379, R381, R389) -/

/-- A slot of a partition holds a task whose core stands in handler mode. -/
def inHandlerMode (s : State) (p slot : Nat) : Bool := (taskCores (s.dom p slot)).any (fun c => (s.ctxOf c slot).handler)

/-- A pre-emption hold: it ends with its switch (R42, R379). -/
def switchHold (d : Domain) (wb : Nat) : Domain :=
  { d with reqs := d.reqs ++ [⟨8, d.tb, (match d.mode with | .run => none | .freezing _ => none | _ => some wb), 0, true⟩] }

/-- SWITCH to a resident slot (R379, R380). -/
def ctxSwitch (s : State) (p slot : Nat) : State :=
  let q := s.part p
  if q.runSlot = some slot && q.switchTo.isEmpty then s
  else
    let s1 := s.setPart p { q with switchTo := q.switchTo ++ [slot] }
    match q.runSlot with
    | none => s1
    | some r => s1.setDom p r (switchHold (s1.dom p r) s1.wb)

/-- RELEASE of a core: a stopped handler returns as by TRET. By what operation a poison escalation's freeze ends the spec leaves open
(R395, R389): RELEASE ends it (DESIGN CHOICE, log 107). -/
def releaseStopped (c : Ctx) : Ctx :=
  let c1 := { c with hfault := BitVec.ofNat 64 (putBits c.hfault.toNat 8 8 0) }
  if bitB c.hfault.toNat 8 && c.handler then
    { c1 with handler := false, pc := c.epc.toNat % 65536, hloops := [], savedGuard := none,
              guard := match c.savedGuard with
                | some (a, g) => if a = c.epc.toNat % 65536 then some g else none
                | none => none
              frozen := c.frozen.map (fun f => { f with clear := true }) }
  else if !c.handler then { c1 with frozen := c.frozen.map (fun f => if f.trap then { f with clear := true } else f) }
  else c

/-- RELEASE of a slot's domain: a stopped handler returns, a watchdog freeze and a HOLD end (R375, R384, R389). It clears HOLDW and LIVEW
whatever it releases (DESIGN CHOICE, log 107). -/
def ctxRelease (s : State) (p slot : Nat) : State :=
  let d := s.dom p slot
  let s1 := mapCtxs s p slot (fun _ c => releaseStopped c)
  s1.setDom p slot { s1.dom p slot with
    wdf := false, wdWhich := 0, osh := false, holdw := 0, livew := 0
    reqs := d.reqs.map (fun r => if r.kind = 13 || r.kind = 8 then { r with released := true } else r) }

/-- The slot is being saved or restored (R381); a SWITCH to it is refused (DEDUCED, log 82). -/
def streaming (q : PartSt) (slot : Nat) : Bool := q.str != 0 && q.strSlot == slot

/-- CTXSW of an operand: a refused operation does nothing (R389). -/
def ctxswOp (s : State) (a : Nat) : State :=
  let p := s.partOfDie (s.curSys / 2)
  let slot := a % 4
  let q := s.part p
  let d := s.dom p slot
  if a >>> 5 != 0 || slot ≥ 2 then s
  else match bits a 4 2 with
    | 0 => if streaming q slot then s else ctxSwitch s p slot
    | 1 =>
      if q.str = 0 && d.task.isSome && q.runSlot != some slot && !inHandlerMode s p slot && !q.switchTo.contains slot then
        s.setPart p { q with str := 1, strSlot := slot }
      else s
    | 2 => if q.str = 0 && d.task.isNone then s.setPart p { q with str := 2, strSlot := slot, serr := false } else s
    | 3 => ctxRelease s p slot
    | 4 => endTask s p slot (if d.wdf then 0x07 else 0x06)
    | 5 =>
      if q.runSlot = some slot && d.task.isSome then s.setDom p slot { requestHold d 8 d.tb 0 s.wb with osh := true } else s
    | _ => s

/-- CTXSW on a system core; on a compute core ILLEGAL class 0x14, reason 0x01, before any pop (R389, R391). The word is one for all
operations, which the operand names. -/
def ctxsw (f : FA) (s : State) : Host.Outcome State Fault Refusal :=
  issue s {} (fun s =>
    if s.onSys then .ok (ctxswOp s (readG s f.a.toNat).toNat, .seq 1)
    else if s.cur.handler && decide (f.a.toNat ≥ 16) then .error (illegal 0x05)
    else .error (ctxIllegal 0x01 (match srcVals s [(f.a.toNat, false)] with | .ok vs => (vs.headD 0).toNat | .error _ => 0)))

def execCtxswSwitch (f : FA) (s : State) := ctxsw f s
def execCtxswSave (f : FA) (s : State) := ctxsw f s
def execCtxswRestore (f : FA) (s : State) := ctxsw f s
def execCtxswRelease (f : FA) (s : State) := ctxsw f s
def execCtxswEnd (f : FA) (s : State) := ctxsw f s
def execCtxswHold (f : FA) (s : State) := ctxsw f s

end Sys2Proof.Machine
end

