-- ==== Sys2Proof/Machine/EngineInstr.lean ====
section
/-! DEFINITION. The engine instructions of a core: major 0x34 (R231–R236, R239). -/

namespace Sys2Proof.Machine

/-- ILLEGAL class 0x0F (R239): reason, operand A, offending operand. -/
def mcIllegal (reason a operand : Nat) : Stop :=
  illegal (0x0F + reason * 2 ^ 8 + (a % 128) * 2 ^ 16 + (operand % 2 ^ 32) * 2 ^ 32)

/-- Operand A shows a must-be-zero bit before a trap of B (R89, R239). -/
def engineAFirst (s : State) (f : Src) (zero : Nat → Bool) : Res Unit :=
  peekCheck s f (fun x => if zero x.toNat then .ok () else .error (mcIllegal 0x01 x.toNat x.toNat))

/-- Operand A of MCBASE, MCSTART and MCSTOP, and of MCBIND with its cursor. -/
def engOnly (a : Nat) : Bool := a >>> 7 == 0
def engCursor (a : Nat) : Bool := !bitB a 7 && a >>> 10 == 0

/-- Rows of MCBASE (R233). -/
def mcbaseRows (b : Nat) : Nat := bits b 27 23 + 1

/-- MCBIND, MCBASE and MCSTART take ILLEGAL in handler mode (R231). -/
def engineSend (f : FP2) (fn : Nat) (zero : Nat → Bool) (chk : State → Nat → Nat → Res Unit) (s : State) :
    Host.Outcome State Fault Refusal :=
  issue s { handlerOk := false } (fun s => do
    engineAFirst s (f.a.toNat, false) zero
    peekCheck s (f.b.toNat, false) (fun y => chk s (seenOr s (f.a.toNat, false)).toNat y.toNat)
    let vs ← srcVals s [(f.a.toNat, false), (f.b.toNat, false)]
    let a := (vs.headD 0).toNat
    let b := (vs.getD 1 0).toNat
    let t := popSrcs s [(f.a.toNat, false), (f.b.toNat, false)]
    let n := engNo (s.curCore / 32) (a % 128)
    let e := t.engOf n
    let u := t.setEngOf n { e with inbox := e.inbox ++ [⟨s.cur.now + 24, s.curCore, fn, a, b, []⟩] }
    return (if fn = 2 then u.modCur (fun c => baseIssued c (mcbaseRows b)) else u, .seq 1))

/-- A core of the task on the issuing core's die, by partition rank. -/
def rankHere (s : State) (r : Nat) : Bool :=
  let c := 32 * s.curPart + r
  c / 32 == s.curCore / 32 && (s.curDom.task.map (fun t => t.cores.contains c)).getD false

/-- The checks of MCBIND (R232, R239). -/
def mcbindChk (s : State) (a b : Nat) : Res Unit :=
  if bitB b 23 || b >>> 32 != 0 then .error (mcIllegal 0x01 a b)
  else if !rankHere s (bits b 31 24) || b % 64 != 0 then .error (mcIllegal 0x02 a b)
  else .ok ()

/-- The checks of MCBASE (R233, R239). -/
def mcbaseChk (_ : State) (a b : Nat) : Res Unit :=
  if b >>> 28 != 0 then .error (mcIllegal 0x01 a b)
  else if b % 128 != 0 || decide (bits b 22 0 + 128 * mcbaseRows b > 0x800000) then .error (mcIllegal 0x03 a b)
  else .ok ()

/-- The checks of MCSTART (R234, R239). -/
def mcstartChk (s : State) (a b : Nat) : Res Unit :=
  if b >>> 32 != 0 then .error (mcIllegal 0x01 a b)
  else if s.cur.release + b < s.cur.now + 24 then .error (mcIllegal 0x04 a b)
  else .ok ()

def execMcbind (f : FP2) (s : State) := engineSend f 3 engCursor mcbindChk s
def execMcbase (f : FP2) (s : State) := engineSend f 2 engOnly mcbaseChk s
def execMcstart (f : FP2) (s : State) := engineSend f 0 engOnly mcstartChk s

/-- What the operands of MCSTOP show before a trap of one of them: a must-be-zero bit of A or B, or a mode that the form does not have (R88, R89,
R235, R239). -/
def stopFirst (s : State) (fa fb : Src) : Res Unit := do
  engineAFirst s fa engOnly
  peekCheck s fb (fun y =>
    if y.toNat >>> 2 != 0 then .error (mcIllegal 0x01 (seenOr s fa).toNat y.toNat)
    else if y.toNat ≥ 2 || (!s.cur.handler && y.toNat == 1) then .error (mcIllegal 0x05 (seenOr s fa).toNat y.toNat)
    else .ok ())

/-- MCSTOP: timed, it is sent; in handler mode it acts on the frozen engine, once that has come to its freeze (R223, R231, R235, log 40). -/
def mcstop (f : FP2) (s : State) : Host.Outcome State Fault Refusal :=
  issue s {} (fun s => do
    let fs : List Src := [(f.a.toNat, false), (f.b.toNat, false)]
    let vs ← lowerClass (stopFirst s (f.a.toNat, false) (f.b.toNat, false)) (srcVals s fs)
    let a := (vs.headD 0).toNat
    let b := (vs.getD 1 0).toNat
    let n := engNo (s.curCore / 32) a
    let e := s.engOf n
    if !s.cur.handler then
      return ((popSrcs s fs).setEngOf n { e with inbox := e.inbox ++ [⟨s.cur.now + 24, s.curCore, 1, a, b, []⟩] }, .seq 1)
    else if e.frozen.isNone then return (s, .settled)
    else
      if b = 1 && (e.st != .trapped || !skippable e.reason) then throw (mcIllegal 0x05 a b)
      return (if e.st != .trapped then stopEngine s n else resolveEngine s n (b == 1), .seq 1))

def execMcstopStop (f : FP2) (s : State) := mcstop f s
def execMcstopSkip (f : FP2) (s : State) := mcstop f s

/-- What the operands of MCSTAT show before a trap of one of them: a must-be-zero bit of A or of the timed form's B, then PAGE 3, a WORD, or an
address that is not aligned (R88, R89, R239). `a` stands for A in EINFO where A cannot be read. -/
def statFirst (s : State) (fa fb : Src) : Res Unit := do
  let h := s.cur.handler
  let a := (seenOr s fa).toNat
  peekCheck s fa (fun x => if bits x.toNat 9 7 != 0 || x.toNat >>> 15 != 0 then .error (mcIllegal 0x01 a a) else .ok ())
  if !h then peekCheck s fb (fun y => if y.toNat >>> 23 != 0 then .error (mcIllegal 0x01 a y.toNat) else .ok ())
  peekCheck s fa (fun x => if bits x.toNat 11 10 = 3 || (!h && bits x.toNat 14 12 != 0) then .error (mcIllegal 0x06 a a) else .ok ())
  if !h then peekCheck s fb (fun y => if y.toNat % 64 != 0 then .error (mcIllegal 0x06 a y.toNat) else .ok ())

/-- MCSTAT: timed, the request is sent; in handler mode hB receives a word of the page as the engine stands frozen (R236). -/
def execMcstat (f : FP2) (s : State) : Host.Outcome State Fault Refusal :=
  issue s {} (fun s => do
    let h := s.cur.handler
    let fs : List Src := if h then [(f.a.toNat, false)] else [(f.a.toNat, false), (f.b.toNat, false)]
    if h then dstOk s f.b.toNat
    statFirst s (f.a.toNat, false) (f.b.toNat, false)
    let vs ← srcVals s fs
    let a := (vs.headD 0).toNat
    let b := (vs.getD 1 0).toNat
    let page := bits a 11 10
    let w := bits a 14 12
    let n := engNo (s.curCore / 32) (a % 128)
    let e := s.engOf n
    if !h then
      return ((popSrcs s fs).setEngOf n { e with inbox := e.inbox ++ [⟨s.cur.now + 24, s.curCore, 4, a, b, []⟩] }, .seq 1)
    else if e.frozen.isNone then return (s, .settled)
    else return (result s 1 f.b.toNat (BitVec.ofNat 64 (pageWord e (engTb0 s n) page w)), .seq 1))

end Sys2Proof.Machine
end

