-- ==== Sys2Proof/Machine/EngineWords.lean ====
section
/-! DEFINITION. The words of a memory command table (R209–R219, R224, R227): the checks of R220 in their rank, and the effect of each
command on banks, cursors, refresh counts and data. -/

namespace Sys2Proof.Machine

/-! ## Timing rules (R218) -/

/-- A rule that a command must meet: index, bank, requirement. -/
abbrev Need := Nat × Nat × Nat

/-- Group of a bank (R206). -/
def group (b : Nat) : Nat := b / 4

/-- The latest cycle of a log whose bank meets a condition. -/
def lastOf (l : List (Nat × Nat)) (p : Nat → Bool) : Option Nat := (l.find? (fun x => p x.2)).map (·.1)

/-- A requirement counted from an earlier command; met where there is none. -/
def need (rule bank : Nat) (last : Option Nat) (t : Nat) : List Need :=
  match last with
  | some c => [(rule, bank, c + t)]
  | none => []

/-- A log with a new entry: the four newest are kept, and behind them the newest of each bank. -/
def logAdd (c b : Nat) (l : List (Nat × Nat)) : List (Nat × Nat) :=
  (c, b) :: (l.take 3 ++ (l.drop 3).filter (fun x => x.2 != b))

/-- Rules 3, 15 and 16 of a bank that must be idle. -/
def needIdle (e : EngSt) (b : Nat) : List Need :=
  need 3 b (e.preAt.find b) e.tRP ++ need 15 b (e.refAt.find b) e.tRFCpb

/-- Rules 5, 6 and 7 of a command that opens or refreshes a bank. -/
def needRow (e : EngSt) (b : Nat) : List Need :=
  need 5 b (lastOf e.rowLog (fun x => group x != group b)) e.tRRDS
    ++ need 6 b (lastOf e.rowLog (fun x => group x == group b && x != b)) e.tRRDL
    ++ need 7 b ((e.rowLog[3]?).map (·.1)) e.tFAW

def needAct (e : EngSt) (b : Nat) : List Need :=
  needIdle e b ++ need 4 b (e.actAt.find b) e.tRC ++ needRow e b ++ need 16 b e.refAll e.tRFCab

def needRefpb (e : EngSt) (b : Nat) : List Need := needIdle e b ++ needRow e b ++ need 16 b e.refAll e.tRFCab

def needRefab (e : EngSt) : List Need := (List.range 16).flatMap (needIdle e) ++ need 16 0 e.refAll e.tRFCab

/-- Rules 1, 8 and 9 of a column command. -/
def needCol (e : EngSt) (b : Nat) : List Need :=
  let both := e.rdCol ++ e.wrCol
  let newest (p : Nat → Bool) : Option Nat := ((both.filter (fun x => p x.2)).map (·.1)).max?
  need 1 b (e.actAt.find b) e.tRCD ++ need 8 b (newest (fun x => group x != group b)) e.tCCDS
    ++ need 9 b (newest (fun x => group x == group b)) e.tCCDL

def needRd (e : EngSt) (b : Nat) : List Need :=
  needCol e b ++ need 10 b (lastOf e.wrCol (fun x => group x != group b)) e.tWTRS
    ++ need 11 b (lastOf e.wrCol (fun x => group x == group b)) e.tWTRL

def needWr (e : EngSt) (b : Nat) : List Need := needCol e b ++ need 12 b (lastOf e.rdCol (fun _ => true)) e.tRTW

/-- Rules 2, 13 and 14 of closing an open bank. -/
def needPre (e : EngSt) (b : Nat) : List Need :=
  need 2 b (e.actAt.find b) e.tRAS ++ need 13 b (lastOf e.wrCol (· == b)) e.tWR ++ need 14 b (lastOf e.rdCol (· == b)) e.tRTP

def needPrea (e : EngSt) : List Need := e.openBanks.flatMap (needPre e)

/-- The lowest failing rule on a cycle, with its lowest bank and its largest deficit (R218). -/
def failing (c : Nat) (ns : List Need) : Option (Nat × Nat × Nat) :=
  let bad := ns.filter (fun n => decide (c < n.2.2))
  match (bad.map (·.1)).min? with
  | none => none
  | some r =>
    let mine := bad.filter (fun n => n.1 == r)
    some (r, ((mine.map (fun n => n.2.1)).min?).getD 0, ((mine.map (fun n => n.2.2 - c)).max?).getD 0)

/-! ## The checks of a word (R220) -/

/-- What a word needs: its bank, whether its operands break their limits, whether its row lies outside the arena, the reason and bank
of a wrong state, whether it goes through the cursor, its rules, and the bank whose refresh goes too far. -/
structure WordRule where
  bank : Nat := 0
  tableErr : Bool := false
  arenaErr : Bool := false
  wrongState : Option (Nat × Nat) := none
  cursor : Bool := false
  rules : List Need := []
  bound : Option Nat := none

/-- A window is open on the engine's cycle (R227). -/
def windowOpen (e : EngSt) : Bool := match e.svw with | some (_, _, till) => decide (e.now < till) | none => false

/-- The first failing check of a word: reason, rule, bank, deficit (R220). -/
def wordFault (e : EngSt) (r : WordRule) : Option (Nat × Nat × Nat × Nat) :=
  if r.tableErr || (dlyAt e == some 0 && !e.first) then some (0x05, 0, r.bank, 0)
  else if r.arenaErr then some (0x06, 0, r.bank, 0)
  else if windowOpen e then some (0x07, 0, r.bank, 0)
  else match r.wrongState with
    | some (reason, b) => some (reason, 0, b, 0)
    | none =>
      if r.cursor && !(e.cursor e.curSel).valid then some (0x0A, 0, r.bank, 0)
      else match failing e.now r.rules with
        | some (rule, b, d) => some (0x01, rule, b, d)
        | none => r.bound.map (fun b => (0x04, 0, b, 0))

/-- A table word issues on the engine's cycle: MEMTIME, or its effect (R220, R221). -/
def mcWord (s : State) (r : WordRule) (act : State → State) : Host.Outcome State Fault Refusal :=
  match wordFault s.eng r with
  | some (reason, rule, b, d) => .next (memTrap s reason rule b d)
  | none => .next (act s)

/-- The word is done and the next follows (R211). -/
def nextTableWord (s : State) : State := s.modEng (fun e => wordDone e (e.pc + 1) 0)

/-! ## Columns (R215) -/

/-- Number of a column of a channel: bank, row, column. -/
def colKey (bank row col : Nat) : Nat := bank * 2 ^ 20 + row * 2 ^ 4 + col

/-- Address of a column in the storage of engine `n`. -/
def colAddr (n key : Nat) : Nat := dramAddr n (key / 2 ^ 20) (key / 2 ^ 4 % 2 ^ 16) (64 * (key % 16))

/-- A WR's data reaches its column, unless a later WR's has (R215). -/
def writeColumn (s : State) (n key issue : Nat) (data : List Byte) (poison : Option Nat) : State :=
  let e := s.engOf n
  if issue + 1 > e.wrLast.getD key 0 then
    { s with mem := s.mem.writeN (colAddr n key) data }.setEngOf n
      { e with
        wrLast := NMap.set (List.filter (fun (p : Nat × Nat) => decide (p.2 + 256 > issue)) e.wrLast) key (issue + 1)
        poison := match poison with | some p => e.poison.set key p | none => e.poison.erase key }
  else s

/-- RD and WR advance the cursor, note the column command, and close the bank under AP (R215, R217, R219). -/
def colDone (e : EngSt) (f : FMcCol) (wr : Bool) : EngSt :=
  let b := f.bank.toNat
  let e1 := moveCur e f.stp.toNat
  let e2 := if wr then { e1 with wrCol := logAdd e.now b e.wrCol } else { e1 with rdCol := logAdd e.now b e.rdCol }
  if f.ap then
    { e2 with rows := e2.rows.erase b
              preAt := e2.preAt.set b (max (e.now + (if wr then e.tWR else e.tRTP)) (e.actAt.getD b 0 + e.tRAS)) }
  else e2

/-- The rules of a column command. -/
def colRule (e : EngSt) (f : FMcCol) (wr : Bool) : WordRule :=
  let b := f.bank.toNat
  { bank := b, wrongState := if e.isOpen b then none else some (0x02, b), cursor := true,
    rules := if wr then needWr e b else needRd e b }

/-- Core, address and path of the selected cursor. -/
def cursorCore (s : State) : Nat × Nat × Nat :=
  let e := s.eng
  let x := e.cursor e.curSel
  let core := 32 * engPart s s.curEng + x.rank
  (core, x.addr, pathLat (s.curEng % 128) (core % 32))

def execMcRd (f : FMcCol) (s : State) : Host.Outcome State Fault Refusal :=
  mcWord s (colRule s.eng f false) (fun s =>
    let n := s.curEng
    let e := s.eng
    let (core, addr, path) := cursorCore s
    let key := colKey f.bank.toNat (e.rows.getD f.bank.toNat 0) f.col.toNat
    let land := e.now + e.rlBase + path - 1
    let m : Move := { slot := engSlot s n, due := land, isWr := false, eng := n, issue := e.now, addr := addr, dram := key,
                      data := s.mem.readN 64 (colAddr n key), wsrc := e.wrLast.getD key 0, early := false, void := false, tags := [],
                      poison := e.poison.find key }
    nextTableWord ((sendMove s core m).modEng (fun e =>
      { colDone e f false with rdLog := e.rdLog ++ [(addr / 4096, core, land)] })))

/-- A WR issues whose take has not been announced: its core makes the take on the cycle of R215, or, where the core has passed that cycle, since the handler of
its engine has changed what was announced, as the core stands (DEDUCED, log 40). -/
def sendTake (s : State) (core : Nat) (m : Move) : State :=
  if (s.ctxOf core m.slot).now ≤ m.due then sendMove s core m
  else writeColumn s m.eng m.dram m.issue (s.readSp core m.addr 64) (rowPoison (s.core core) [rowKey 0 m.addr])

def execMcWr (f : FMcCol) (s : State) : Host.Outcome State Fault Refusal :=
  mcWord s (colRule s.eng f true) (fun s =>
    let n := s.curEng
    let e := s.eng
    let (core, addr, path) := cursorCore s
    let key := colKey f.bank.toNat (e.rows.getD f.bank.toNat 0) f.col.toNat
    let t := match e.taken.find? (fun x => x.1 == e.now && x.2.1 == core && x.2.2.1 == addr) with
      | some x => writeColumn s n key e.now x.2.2.2.1 x.2.2.2.2
      | none => sendTake s core { slot := engSlot s n, due := e.now + e.wlBase - path, isWr := true, eng := n, issue := e.now,
                                  addr := addr, dram := key, data := [], wsrc := 0, early := false, void := false, tags := [], poison := none }
    nextTableWord (t.modEng (fun e => { colDone e f true with taken := e.taken.filter (fun x => x.1 != e.now) })))

/-! ## Banks (R217) -/

def execMcAct (f : FMcAct) (s : State) : Host.Outcome State Fault Refusal :=
  let e := s.eng
  let b := f.bank.toNat
  mcWord s { bank := b, arenaErr := decide (f.row.toNat ≥ e.arena), wrongState := if e.isOpen b then some (0x02, b) else none,
             rules := needAct e b } (fun s =>
    nextTableWord (s.modEng (fun e => { e with
      rows := e.rows.set b f.row.toNat, actAt := e.actAt.set b e.now, rowLog := logAdd e.now b e.rowLog })))

/-- A bank closed on the engine's cycle. -/
def closeBank (e : EngSt) (b : Nat) : EngSt :=
  if e.isOpen b then { e with rows := e.rows.erase b, preAt := e.preAt.set b e.now } else e

def execMcPre (f : FMcBank) (s : State) : Host.Outcome State Fault Refusal :=
  let e := s.eng
  let b := f.bank.toNat
  mcWord s { bank := b, rules := if e.isOpen b then needPre e b else [] } (fun s =>
    nextTableWord (s.modEng (fun e => closeBank e b)))

/-- Every open bank closed. -/
def closeAll (e : EngSt) : EngSt := e.openBanks.foldl closeBank e

def execMcPrea (s : State) : Host.Outcome State Fault Refusal :=
  mcWord s { rules := needPrea s.eng } (fun s => nextTableWord (s.modEng closeAll))

/-! ## Refresh (R224) -/

/-- A refresh of a bank would take OWED below −MAXPOST. -/
def tooFar (e : EngSt) (b : Nat) : Bool := decide (e.owe b - 1 < -(e.maxPost : Int))

/-- REFPB of a bank, on wall cycle `wb`. -/
def refreshBank (wb : Nat) (e : EngSt) (b : Nat) : EngSt :=
  { e with refAt := e.refAt.set b e.now, bankWall := e.bankWall.set b wb, rowLog := logAdd e.now b e.rowLog, owed := e.owed.set b (e.owe b - 1) }

def execMcRefpb (f : FMcBank) (s : State) : Host.Outcome State Fault Refusal :=
  let e := s.eng
  let b := f.bank.toNat
  mcWord s { bank := b, wrongState := if e.isOpen b then some (0x02, b) else none, rules := needRefpb e b,
             bound := if tooFar e b then some b else none } (fun s =>
    nextTableWord (s.modEng (fun e => refreshBank s.wb e b)))

def execMcRefab (s : State) : Host.Outcome State Fault Refusal :=
  let e := s.eng
  mcWord s { wrongState := (e.openBanks.head?).map (fun b => (0x02, b)), rules := needRefab e,
             bound := (List.range 16).find? (tooFar e) } (fun s =>
    nextTableWord (s.modEng (fun e => { e with
      refAll := some e.now, bankWall := (List.range 16).foldl (fun m b => NMap.set m b s.wb) e.bankWall
      owed := (List.range 16).foldl (fun m b => NMap.set m b (e.owe b - 1)) e.owed })))

/-! ## TAG, BIND, SVW, LOOP, END, DLY -/

/-- The stamps of a TAG at a core: each granule's on the write cycle of the last RD that wrote it, or on the TAG's own if that is
later (R67, R216). -/
def tagMoves (e : EngSt) (n slot tag core : Nat) : List Move :=
  let mine := e.rdLog.filter (fun x => x.2.1 == core)
  let gs := (mine.map (·.1)).dedup
  let lands (g : Nat) : Nat := (((mine.filter (fun x => x.1 == g)).map (fun x => x.2.2)).foldl max e.now)
  ((gs.map lands).dedup).map (fun t =>
    { slot := slot, due := t, isWr := false, eng := n, issue := e.now, addr := 0, dram := 0, data := [], wsrc := 0, early := false,
      void := false, poison := none, tags := (gs.filter (fun g => lands g == t)).map (fun g => (g, tag)) })

/-- A stamp goes to its core; one whose cycle the core has run already, its engine being behind, is made at once (R40, R216). -/
def sendStamp (s : State) (core : Nat) (m : Move) : State :=
  if (s.ctxOf core m.slot).now ≤ m.due then sendMove s core m
  else
    let k := s.core core
    s.setCore core { k with tags := m.tags.foldl (fun t p => NMap.set t p.1 p.2) k.tags }

/-- TAG stamps the granules of the RDs since the previous TAG (R216). -/
def execMcTag (f : FMcTag) (s : State) : Host.Outcome State Fault Refusal :=
  mcWord s {} (fun s =>
    let e := s.eng
    let n := s.curEng
    let t := ((e.rdLog.map (fun x => x.2.1)).dedup).foldl (fun s core =>
      (tagMoves e n (engSlot s n) f.tag.toNat core).foldl (fun s m => sendStamp s core m) s) s
    nextTableWord (t.modEng (fun e => { e with rdLog := [] })))

def execMcBind (f : FMcBind) (s : State) : Host.Outcome State Fault Refusal :=
  mcWord s {} (fun s => nextTableWord (s.modEng (fun e => { e with curSel := f.cursor.toNat })))

/-- Banks of masked groups. -/
def maskedBanks (mask : Nat) : List Nat := (List.range 16).filter (fun b => bitB mask (group b))

/-! ## The commands of a service window (R227, R228) -/

/-- The engine as its window sees the banks, and the window's view put back. -/
def svcView (e : EngSt) : EngSt :=
  { e with rows := e.svc.rows, actAt := e.svc.actAt, preAt := e.svc.preAt, rowLog := e.svc.rowLog, rdCol := e.svc.rdCol, wrCol := e.svc.wrCol
           refAll := e.svc.refAll }
def svcPut (e v : EngSt) : EngSt :=
  { e with svc := ⟨e.svc.start, v.rows, v.actAt, v.preAt, v.rowLog, v.rdCol, v.wrCol, v.refAll⟩ }

/-- The first cycle from `c` on that meets some requirements. -/
def firstMet (c : Nat) (ns : List Need) : Nat := ns.foldl (fun m n => max m n.2.2) c

/-- A bank closed, where it is open, as early as R218 permits from `c` on. -/
def svcShut (c : Nat) (v : EngSt) (b : Nat) : EngSt :=
  if v.isOpen b then { v with rows := v.rows.erase b, preAt := v.preAt.set b (firstMet c (needPre v b)) } else v

/-- A row opened, where it is not open, as early as R217 and R218 permit since the window began. -/
def svcOpen (v : EngSt) (b row : Nat) : EngSt :=
  if v.rows.find b = some row then v
  else
    let w := svcShut v.svc.start v b
    let a := firstMet v.svc.start (needAct w b)
    { w with rows := w.rows.set b row, actAt := w.actAt.set b a, rowLog := logAdd a b w.rowLog }

/-- A column command of an open bank as early as R218 permits from the present cycle on. -/
def svcCol (b : Nat) (v : EngSt) (wr : Bool) : EngSt :=
  let t := firstMet v.now (if wr then needWr v b else needRd v b)
  if wr then { v with wrCol := logAdd t b v.wrCol } else { v with rdCol := logAdd t b v.rdCol }

/-- What R218 asks of the next commands to a bank. -/
def needNext (e : EngSt) (b : Nat) : List Need := needAct e b ++ needRd e b ++ needWr e b

/-- The four next ACTs or REFPBs from cycle `till` on, each as early as R218 lets it follow the one before, come late enough behind the commands of `v` (R218,
rule 7). -/
def svcFaw (v : EngSt) (till : Nat) : Bool :=
  (List.range 4).all (fun k => (v.rowLog[3 - k]?).all (fun x => decide (x.1 + v.tFAW ≤ till + k * min v.tRRDS v.tRRDL)))

/-- The window's commands to its banks, `v`, leave time to close them, so that every command of the table from cycle `till` on meets R218 with respect to
them; what the table's own commands, in `e`, ask is the table's to meet (R228). -/
def svcEnds (e v : EngSt) (mask till : Nat) : Bool :=
  let w := (maskedBanks mask).foldl (svcShut v.now) v
  (List.range 16).all (fun b => (failing till ((needNext w b).filter (fun n => !(needNext e b).contains n))).isNone)
    && (w.rowLog == e.rowLog || svcFaw w till)

/-- Columns of a row read and written in the window of an engine: the engine with these commands, or nothing where the bank lies outside the masked
groups or they do not fit. `now` asks for the first column on the present cycle (R217, R218, R227, R228). -/
def svcServe (e : EngSt) (b row : Nat) (cols : List Bool) (now : Bool) : Option EngSt :=
  match e.svw with
  | none => none
  | some (_, mask, till) =>
    let v := svcOpen (svcView e) b row
    let due := if cols.headD false then needWr v b else needRd v b
    let w := cols.foldl (svcCol b) v
    if bitB mask (group b) && decide (e.now < till) && (!now || (failing e.now due).isNone) && svcEnds e w mask till then some (svcPut e w) else none

/-- SVW opens a window over its own cycle and the L − 1 after it (R227). -/
def execMcSvw (f : FMcSvw) (s : State) : Host.Outcome State Fault Refusal :=
  let e := s.eng
  let m := f.mask.toNat
  mcWord s { tableErr := m == 0 || decide (f.len.toNat < 128),
             wrongState := ((maskedBanks m).find? e.isOpen).map (fun b => (0x07, b)) } (fun s =>
    nextTableWord (s.modEng (fun e => { e with
      svw := some (f.cls.toNat, m, e.now + f.len.toNat), svc := ⟨e.now, e.rows, e.actAt, e.preAt, e.rowLog, e.rdCol, e.wrCol, e.refAll⟩
      windows := min (e.windows + 1) 0xFFFF })))

def execMcLoop (f : FMcLoop) (s : State) : Host.Outcome State Fault Refusal :=
  mcWord s { tableErr := f.count.toNat == 0 || decide (f.target.toNat ≥ s.eng.pc) } (fun s =>
    s.modEng (fun e => loopStep e f.level.toNat f.target.toNat f.count.toNat))

/-- END completes the table where every bank is closed (R213). -/
def execMcEnd (s : State) : Host.Outcome State Fault Refusal :=
  mcWord s { wrongState := (s.eng.openBanks.head?).map (fun b => (0x08, b)) } (fun s =>
    s.modEng (fun e => { wordDone e 0 0 with
      st := .idle, left0 := 0, left1 := 0, act0 := false, act1 := false }))

def execMcDly (f : FMcDly) (s : State) : Host.Outcome State Fault Refusal :=
  mcWord s {} (fun s => s.modEng (fun e => wordDone e (e.pc + 1) f.e.toNat))

end Sys2Proof.Machine
end

