-- ==== Sys2Proof/Machine/CoreEvents.lean ====
section
/-! DEFINITION. The events of a core's cycle: stream drives and stores (R63–R68), operand taps (R193, R252, R259, R287, R233), results
(R33), factorisation steps (R268), arrivals (R292, R293), landings (R308, R322) and data moves (R215, R236). The event's argument names
the core in `a` or the issue cycle, the stream or the engine as each says; an event whose conditions do not hold changes
nothing. -/

namespace Sys2Proof.Machine

/-- An event's effect, or the stop that it takes on the current core. -/
def evRes (s : State) (r : Res State) : Host.Outcome State Fault Refusal :=
  match r with
  | .ok t => .next t
  | .error st => .next (takeStop s st)

/-! ## Stream drives (R55, R63, R68, R246, R398) -/

/-- The read stream `n` drives its word of the present cycle. -/
def streamDrive (s : State) (n : Nat) (st : Strm) : Res State := do
  let c := s.cur
  let l := st.entry
  let k := st.start + l.perWord * (c.now - st.t1 + st.adv)
  let ps := elemPlaces l k l.perWord
  let gs := placesOf ps
  if l.space = 0 then tagCheck (s.core s.curCore) n l.tag st.seen gs else heldCheck c gs
  let rows := rowsOf ps
  let t ← useBanks s (rowBanks l.space l.perm rows)
  let p := rowPoison (s.core s.curCore) (rows.map (permKey l.space l.perm))
  let d ← drive t.cur n st.station st.lane st.dir (loadWord s s.curCore l k) [] p k
  let st1 := { st with remaining := st.remaining - 1, seen := (st.seen ++ gs).dedup }
  return t.setCur { d with strms := d.strms.set n st1 }

/-- STREAM_DRIVE of stream `a` (R63). -/
def execStreamDrive (s : State) : Host.Outcome State Fault Refusal :=
  match s.cur.strms.find s.ev.a with
  | none => .next s
  | some st => if st.wr || !st.due s.cur.now then .next s else evRes s (streamDrive s s.ev.a st)

/-! ## Stream stores (R64, R66, R70, R183, R394) -/

/-- The engine at a station (R54, R69). -/
def engAt (station : Nat) : Nat := match station with | 1 => 0 | 3 => 1 | 5 => 2 | _ => 3

/-- The elements of a stored word with their linear indexes, an address's last one kept (R64, R183). -/
def storedElems (l : Layout) (k : Nat) (es : List Nat) : List (Nat × Nat) :=
  let xs := ((es.zipIdx).map (fun e => (k + e.2, e.1))).filter (fun e => decide (e.1 < l.count))
  let addr (n : Nat) : Nat := (l.bitAddr n).toNat
  ((xs.reverse).foldl (fun (a : List (Nat × (Nat × Nat))) e =>
    if a.any (fun y => y.1 == addr e.1) then a else (addr e.1, e) :: a) []).map (·.2)

/-- Rows that elements fill whole. -/
def fullRows (l : Layout) (xs : List (Nat × Nat)) : List Nat :=
  let w := fmtWidth l.fmt
  let rs := xs.map (fun e => (l.bitAddr e.1).toNat / 1024)
  (rs.dedup).filter (fun r => rs.count r * w == 1024 && 1024 % w == 0)

/-- Scale entries written with a word (R195): number and value. -/
def storedScales (l : Layout) (k : Nat) (scales : List Nat) : List (Nat × Nat) := List.zip (scaleNums l k l.perWord) scales

/-- The contribution of a store of a bound tensor (R182, R183). -/
def storeContribution (s : State) (l : Layout) (xs scales : List (Nat × Nat)) : State :=
  if l.rid = 0 || l.fmt = 0x0F then s
  else
    let scaleOf (n : Nat) : Nat :=
      if l.scaled then
        match scales.find? (fun p => p.1 == l.block n) with
        | some p => p.2
        | none => readScale s s.curCore l (l.block n)
      else 127
    stampHere s 2 l.rid (s.curDieOf - s.curPart) 0 0 (contributions (xs.map (fun e => elemValue l.fmt e.2 (scaleOf e.1))))

/-- The write stream `n` stores its word of the present cycle. A row that holds elements and scale entries of the word is one bank access (R57, R195; DEDUCED,
log 95). -/
def streamStore (s : State) (n : Nat) (st : Strm) : Res State := do
  let c := s.cur
  let l := st.entry
  let k := st.start + l.perWord * (c.now - st.t1 + st.adv)
  match laneBefore c st.lane st.dir st.station c.now with
  | none => throw (.trap 0x04 (laneInfo 0x02 st.station st.lane st.dir n))
  | some x =>
    if x.strm != n then throw (.trap 0x04 (laneInfo 0x03 st.station st.lane st.dir n))
    if x.parity != lanePar x.word then
      -- R397: a lane word whose check fails is consumed at once
      throw (.trap 0x15 (poisonInfo (3 * 2 ^ 9) 1 ((placesOf (elemPlaces l k l.perWord)).headD 0)))
    let eng := engAt x.station
    let xs := storedElems l k ((elemsOf l.fmt x.word).take (min l.perWord x.elems))
    let ps := elemPlaces l k (min l.perWord x.elems)
    let sc := storedScales l k x.scales
    let sps := scalePlaces l (sc.map (·.1))
    footCheck c eng true l.space (placesOf ps)
    footCheck c eng true 0 (placesOf sps)
    if l.space = 1 then
      heldCheck c (placesOf ps)
      dirtyCheck s eng (placesOf ps) c.now
    let t ← useBanks s (rowBanks l.space l.perm (rowsOf ps) ++ rowBanks 0 l.perm ((rowsOf sps).filter (fun r =>
      l.space != 0 || !(rowsOf ps).contains r)))
    let t1 := if l.space = 1 then (placesOf ps).foldl markDirty t else t
    let t2 := xs.foldl (fun s e => writeElem s s.curCore l e.1 e.2) t1
    let t3 := sc.foldl (fun (s : State) e => permWrite s s.curCore l.perm (l.scaleAddr e.1) (bytesOf l.scaleBytes e.2)) t2
    let key (r : Nat) : Nat := permKey l.space l.perm r
    let t4 := markRows t3 ((rowsOf ps).map key ++ (rowsOf sps).map (permKey 0 l.perm)) ((fullRows l xs).map key) x.poison
    let t5 := storeContribution t4 l xs sc
    let st1 := { st with remaining := st.remaining - 1, cursor := k + l.perWord }
    return t5.modCur (fun c => { c with strms := c.strms.set n st1 })

/-- STREAM_STORE of stream `a` (R64). -/
def execStreamStore (s : State) : Host.Outcome State Fault Refusal :=
  match s.cur.strms.find s.ev.a with
  | none => .next s
  | some st => if !st.wr || !st.due s.cur.now then .next s else evRes s (streamStore s s.ev.a st)

/-! ## Operand taps (R193, R233, R252, R259, R287) -/

/-- One tapped word of a command and the scale entries of its elements, with the rows of those entries (R195, R252). -/
def tapWord (s : State) (strm station eng : Nat) : Res (State × LaneWord × List Nat × Nat × List (Nat × Nat)) := do
  let x ← tapSlot s strm station eng
  match s.cur.strms.find strm with
  | none =>
    let l ← tapPoison x
    return (s, l.word, [], 0, [])
  | some _ =>
    let n := tapIndex x.1
    let e := x.1.entry
    let scales := scaleCheck s strm e n e.perWord eng
    let l ← lowestTag (tapPoison x) scales
    let r ← scales
    return (r.1.modCur (fun c => moveCursor c strm l), l.word, elemScales s s.curCore e n e.perWord, n, r.2)

/-- Several streams tapped in order. -/
def tapWords (s : State) (station eng : Nat) : List Nat → Res (State × List LaneWord × List Nat × List Nat × List (Nat × Nat))
  | [] => .ok (s, [], [], [], [])
  | n :: ns => do
    let a ← lowestTag (tapWord s n station eng) (tapWords s station eng ns)
    let b ← tapWords a.1 station eng ns
    return (b.1, a.2.1 :: b.2.1, a.2.2.1 ++ b.2.2.1, a.2.2.2.1 :: b.2.2.2.1, a.2.2.2.2 ++ b.2.2.2.2)

/-- An MMA operand has a word due: cycles since issue, its lead and spacing, its words (R252). -/
def opDue (x : Cmd) (now l sp words : Nat) : Bool :=
  let d := x.lead - l
  decide (x.issue + d ≤ now) && (now - (x.issue + d)) % sp == 0 && decide ((now - (x.issue + d)) / sp < words)

/-- The streams of the operands of an MMA that are tapped on a cycle (R250, R252). -/
def mmaTaps (c : Ctx) (x : Cmd) : List Nat × List Nat :=
  let go (e : Layout) (t : Bool) (n : Nat) : List Nat :=
    if opDue x c.now (opLead x.cycles e.fmt x.dimK t) (opSpacing x.cycles e.fmt x.dimK) (opWords e.fmt x.dimK) then
      (if isPair e.fmt then [n, n + 1] else [n]) else []
  (go x.entA x.ta x.sa, go x.entB x.tb x.sb)

/-- A command's taps and scale reads of the present cycle. -/
def cmdTap (s : State) (x : Cmd) : Res State :=
  let c := s.cur
  match x.kind with
  | .mma => do
    let ns := mmaTaps c x
    let a ← lowestTag (tapWords s 1 0 ns.1) (tapWords s 1 0 ns.2)
    let b ← tapWords a.1 1 0 ns.2
    let t ← useScaleRows b.1 (a.2.2.2.2 ++ b.2.2.2.2)
    return t.modCur (fun c => putCmd c { x with
      wordsA := x.wordsA ++ a.2.1, scalesA := x.scalesA ++ a.2.2.1, wordsB := x.wordsB ++ b.2.1, scalesB := x.scalesB ++ b.2.2.1 })
  | .quant =>
    if c.now < x.issue + x.dimM then do
      let l ← tap s x.sa 5 2
      return s.modCur (fun c => putCmd (moveCursor c x.sa l) { x with wordsA := x.wordsA ++ [l.word], places := x.places ++ [tapIndex l] })
    else .ok s
  | .dequant =>
    if c.now < x.issue + x.dimM then do
      let a ← tapWords s 5 2 [x.sa]
      let t ← useScaleRows a.1 a.2.2.2.2
      return t.modCur (fun c => putCmd c { x with wordsA := x.wordsA ++ a.2.1, scalesA := x.scalesA ++ a.2.2.1 })
    else .ok s
  | .accld | .accadd =>
    if c.now < x.issue + 2 * x.dimM then do
      let l ← tap s x.sa 1 0
      return s.modCur (fun c => putCmd (moveCursor c x.sa l) { x with wordsA := x.wordsA ++ [l.word] })
    else .ok s
  | _ => .ok s

/-- A row of a table that MCBASE reads: bank access and PRT read (R233). -/
def mcbaseRow (s : State) (n i : Nat) (m : McMsg) : Res State := do
  let k := s.cur.now - (m.due - 24) - 1
  let a := bits m.b 22 0 + 128 * k
  footCheck s.cur 3 false 0 [a / 4096]
  let t ← useBanks s [spBank 0 a]
  let ws := (chunks 4 32 (s.readSp s.curCore a 128)).map ofBytes
  let e := t.engOf n
  return t.setEngOf n { e with inbox := e.inbox.modify i (fun m => { m with words := m.words ++ ws }) }

/-- OPERAND_TAP of the instruction issued on cycle `a`: of a command (`b` = 0), an atomic (1), or a MCBASE of engine `d` (2). -/
def execOperandTap (s : State) : Host.Outcome State Fault Refusal :=
  let c := s.cur
  match s.ev.b with
  | 0 =>
    match c.cmds.find? (fun x => x.issue == s.ev.a) with
    | some x => evRes s (cmdTap s x)
    | none => .next s
  | 1 =>
    match c.atomics.find? (fun x => x.issue == s.ev.a && x.issue + 1 == c.now) with
    | some x => evRes s (atomicRead s x)
    | none => .next s
  | _ =>
    match (s.engOf s.ev.d).inbox.zipIdx.find? (fun m => (m.1.fn == 2 || m.1.fn == mcbaseAccepted) && m.1.core == s.curCore && m.1.due == s.ev.a + 24) with
    | some (m, i) => if s.ev.a + 1 ≤ c.now && c.now ≤ s.ev.a + mcbaseRows m.b then evRes s (mcbaseRow s s.ev.d i m) else .next s
    | none => .next s

/-! ## Results (R33, R64, R134, R200) -/

/-- A result that names a write stream drives its word; closed, or with nothing remaining, it takes LANE 0x04 (R55, R64). A closed stream has no
lane: EINFO then holds lane 0 and direction cw (log 67). Remaining is judged as the events of the cycle have left it: where the stream's last store is of the same
cycle and ranks before, the result traps (DEDUCED, log 92). -/
def driveResult (c : Ctx) (n station : Nat) (v : LaneWord) (scales : List Nat) (poison : Option Nat) (elems : Nat := 256) : Res Ctx :=
  match c.strms.find n with
  | none => .error (.trap 0x04 (laneInfo 0x04 station 0 false n))
  | some st =>
    if st.remaining = 0 then .error (.trap 0x04 (laneInfo 0x04 station st.lane st.dir n))
    else drive c n station st.lane st.dir v scales poison 0 elems

/-- Elements of a driven result that are stored: those of ACCMV within its rows, all of another's (R260). -/
def resultElems (c : Ctx) (x : Flight) : Nat :=
  match c.cmds.find? (fun y => y.issue == x.issue && y.kind == .accmv) with
  | some y => min 256 (64 * y.dimM - y.entA.perWord * (x.perf - x.issue - 2))
  | none => 256

/-- The effect of one result. -/
def performFlight (c : Ctx) (x : Flight) : Res Ctx := do
  let d ← match x.act with
    | .pushQ first vs => pushQs c first vs x.poison x.late x.addr
    | .pushW n v => pushW c n v x.poison x.addr
    | .driveS n st v scales => driveResult c n st v scales x.poison (resultElems c x)
    | .qcount sat nan qt =>
      let c1 := addQuantCounts c sat nan
      pure (match qt with | some q => { c1 with qtscale := BitVec.ofNat 64 q } | none => c1)
    | .sstat q n => appendQ c q (.val (sstatWord c n) none) false x.addr
    | .reserve q n => appendQ c q (.pending n) false x.addr
  return addT3 (orFlags d x.flags) x.t3

/-- The results of an instruction that perform on the present cycle. -/
def performFlights (s : State) (issue : Nat) : Res State := do
  let c := s.cur
  let mine (x : Flight) : Bool := x.issue == issue && x.perf == c.now
  let d ← (c.flight.filter mine).foldlM performFlight c
  return s.setCur { d with flight := d.flight.filter (fun x => !mine x) }

/-- Rows of a tile written by a command: the shadow, the rows and elements that no later command has written, their marks, the flags (R245, R248,
R255, R259). -/
def writeTile (s : State) (x : Cmd) (r : List Nat × Nat) : State :=
  let t := if x.wrote then s else
    let es := layOver x.supers x.skip r.1 (readRows s s.curCore x.tile 0 64)
    let t := writeRows (markDirty s x.tile) s.curCore x.tile x.supers ((es.take r.1.length).drop (64 * x.supers))
    let keys := ((List.range (r.1.length / 32)).filter (fun i => decide (2 * x.supers ≤ i))).map
      (fun i => rowKey 1 (16384 * x.tile + 128 * i))
    markRows t keys keys none
  t.modCur (fun c => supersede (orFlags (putCmd c { x with wrote := true }) r.2) x.issue x.tile (r.1.length / 64))

/-- What a command comes to on the present cycle: the group of a QUANT or DEQUANT is complete, or a tile is written. -/
def cmdFinish (s : State) (x : Cmd) : Res State :=
  let c := s.cur
  match x.kind with
  | .quant =>
    if c.now = x.issue + x.dimM then
      match quantFinish x with
      | .error info => .error (.trap 0x14 info)
      | .ok fs => .ok (s.modCur (fun c => { c with flight := c.flight ++ fs }))
    else .ok s
  | .dequant =>
    if c.now = x.issue + x.dimM then .ok (s.modCur (fun c => { c with flight := c.flight ++ dequantFinish x })) else .ok s
  | .mma => if c.now = x.last then .ok (writeTile s x (mmaResult x)) else .ok s
  | .accld | .accadd => if c.now = x.last then .ok (writeTile s x (accRows x)) else .ok s
  | _ => .ok s

/-- RESULT_PERFORM of the instruction issued on cycle `a` (R33): its results and its command (`b` = 0), or an atomic's write (1). A
RESCALE that has been taken is not taken again by its command (R199). -/
def execResultPerform (s : State) : Host.Outcome State Fault Refusal :=
  match s.ev.b with
  | 0 =>
    let r : Res State := do
      let t ← performFlights s s.ev.a
      (t.cur.cmds.filter (fun x => x.issue == s.ev.a)).foldlM cmdFinish t
    match r with
    | .ok t => .next t
    | .error (.trap 0x14 info) =>
      .next ((takeStop s (.trap 0x14 info)).modCur (fun c => { c with cmds := c.cmds.map (fun x =>
        if x.issue == s.ev.a then { x with rescale := false } else x) }))
    | .error st => .next (takeStop s st)
  | _ =>
    match s.cur.atomics.find? (fun x => x.issue == s.ev.a && x.issue + 3 == s.cur.now) with
    | some x => evRes s (atomicWrite s x)
    | none => .next s

/-! ## Factorisation steps (R268) -/

/-- FACT_STEP of the command issued on cycle `a`: the first or the last cycle of one of its steps. `c` is MODE as it stood at the end of
the cycle before (R370). -/
def execFactStep (s : State) : Host.Outcome State Fault Refusal :=
  let c := s.cur
  match c.cmds.find? (fun x => x.issue == s.ev.a && x.station == 1) with
  | none => .next s
  | some x =>
    let (st, q) := factSteps x
    if c.now ≤ x.issue || x.last < c.now || st = 0 then .next s
    else
      let d := c.now - x.issue
      if (d - 1) % q = 0 then .next (factRead s x (bitB s.ev.c 2) ((d - 1) / q))
      else if d % q = 0 then .next (factWrite s x (d / q - 1))
      else .next s

/-! ## Segments (R29, R31) -/

/-- SEGCNT_LATE: no SEGEND by I_seg + C (R29). -/
def execSegcntLate (s : State) : Host.Outcome State Fault Refusal :=
  let g := s.cur.seg
  if g.active && decide (s.cur.now > g.start + g.cnt) then
    .next (takeStop s (.trap 0x06 ((s.cur.now - g.start) % 2 ^ 32 + 2 ^ 32)))
  else .next s

/-! ## Arrivals (R291–R296, R363) -/

/-- The record of a barrier is in the scratchpad (R363). One that a replay applies again, after the commit that counted it, is not counted
twice. -/
def noteBarrier (s : State) (x : Arrival) : State :=
  match x.bar with
  | none => s
  | some k =>
    let p := s.partOfDie (s.curCore / 32)
    let d := s.dom p x.slot
    if d.barrier.contains k || d.barDone.any (fun y => y.2 == k) then s
    else s.setDom p x.slot { d with barrier := d.barrier ++ [k] }

/-- A word of a collective run whose access faults aborts the run (R357). -/
def lostOfRun (s : State) (x : Arrival) : State :=
  match x.run with
  | none => s
  | some (die, g, n) => match (runOf s die g).filter (fun r => r.serial == n) with | some r => abortRun s die r 0x05 | none => s

/-- The run of a word whose access takes FOOTPRINT or AMOSLOT aborts (R355, R357). -/
def spoilRun (s : State) (x : Arrival) (st : Stop) : State :=
  match st with
  | .trap cause _ => if cause = 0x09 || cause = 0x0F then lostOfRun s x else s
  | _ => s

/-- A word's application: its state, or the stop of its core. On a core that is frozen (`d` = 2) a word that would stop the core stays
until the core runs. -/
def arrivalDone (s : State) (x : Arrival) (r : State × Option Stop) : Host.Outcome State Fault Refusal :=
  match r.2 with
  | none => .next (noteBarrier r.1 x)
  | some st =>
    if s.ev.d = 2 then .next s
    else .next (takeStop (spoilRun r.1 x st) st)

/-- PLAIN_ARRIVAL_APPLY of the `c`-th word on its way to core `a`: with its bank access (`d` = 1), or on a frozen core (2) (R39, R292). -/
def execPlainArrivalApply (s0 : State) : Host.Outcome State Fault Refusal :=
  let s := { s0 with curCore := s0.ev.a }
  match inboundAt s s.ev.c with
  | none => .next s
  | some x => if slotted s.cur x.gran then .next s else arrivalDone s x (plainApply s s.ev.c x (s.ev.d == 1))

/-- REDUCING_WRITE_APPLY at core `a`: the `c`-th word on its way meets its slotted granule (`d` = 0), or the `c`-th waiting word is added,
with its bank access (1) or on a frozen core (2), or is discarded, its slot being exhausted (R292, R293). -/
def execReducingWriteApply (s0 : State) : Host.Outcome State Fault Refusal :=
  let s := { s0 with curCore := s0.ev.a }
  if s.ev.d = 0 then
    match inboundAt s s.ev.c with
    | none => .next s
    | some x => if slotted s.cur x.gran then .next (admitArrival s s.ev.c x) else .next s
  else
    match (s.core s.curCore).waiting[s.ev.c]? with
    | none => .next s
    | some x =>
      match slotOfWord s.cur x with
      | none => .next (if (admitSlot s.cur x).isNone then dropWaiting s s.ev.c x else s)
      | some p => arrivalDone s x (reduceApply s s.ev.c x p (s.ev.d == 1))

/-! ## Landings (R308, R309, R319, R322) -/

/-- The data of a performed request has come back: it lands on its context's present cycle, and never before t + 23 (R308). -/
def landComes (s : State) (key n : Nat) (fill : Bool) : State :=
  let c := s.ctxOf (key / 4) (key % 4)
  s.setCtx (key / 4) (key % 4) (auMod c n (fun r =>
    if r.place == .performed && r.land == 0 && (r.op == .fill) == fill && (r.op == .load || r.op == .fill || r.op == .atomic)
    then { r with land := max c.now (r.issue + 23) } else r))

/-- A line fill's write on its landing (R322): a bank access where the core runs, an ENG 3 write, the tag that LAND held as the fill issued; outside
the window it is lost and its flag shows overrun (R378). -/
def landLine (s : State) (r : AuReq) (timed : Bool) : Res State := do
  let a := bits r.b1.toNat 22 7 * 128
  let g := a / 4096
  if !inWindow s.cur 0 g then return s.modCur (fun c => setOvr c g)
  footCheck s.cur 3 true 0 [g]
  let t ← if timed then useBanks s [spBank 0 a] else settleAtomics s 0 a 128
  let t1 := markRows (t.writeSp t.curCore a (bytesOf 128 r.value)) [rowKey 0 a] [rowKey 0 a] r.poison
  return t1.modCore (fun k => { k with tags := k.tags.set g r.tag })

/-- The landing of a request of the current context. -/
def landNow (s : State) (r : AuReq) (timed : Bool) : Res State := do
  let c := s.cur
  if r.op == .fill then
    let t ← landLine s r timed
    return t.modCur (fun c => auLand { c with aus := c.aus.map (fun x => if x.seqNo == r.seqNo then { x with poison := none } else x) }
      r.seqNo (BitVec.ofNat 64 (bits r.b1.toNat 22 7 * 128)) c.now)
  else return s.setCur (auLand c r.seqNo (loadWordOf r) c.now)

/-- A landing noted as one at a frozen core (R39, R319). -/
def noteGap (c : Ctx) (n : Nat) : Ctx := auMod c n (fun r => { r with gap := c.frozen.isSome || (r.gap && r.land == c.now) })

/-- A landing event: the data of request `b` of context `a` comes back (`d` = 0), or it lands on the context's cycle (1), or on a frozen
core (2). -/
def landEvent (s0 : State) (fill : Bool) : Host.Outcome State Fault Refusal :=
  if s0.ev.d = 0 then .next (landComes s0 s0.ev.a s0.ev.b fill)
  else
    let s := { s0 with curCore := s0.ev.a / 4 }
    match s.cur.aus.find? (fun r => r.seqNo == s.ev.b && r.place == .performed && r.ahead != 1 && r.land != 0 && (r.op == .fill) == fill) with
    | none => .next s
    | some r =>
      match landNow (s.modCur (fun c => noteGap c r.seqNo)) r (s.ev.d == 1) with
      | .ok t => .next t
      | .error st => if s.ev.d = 2 then .next s else .next (takeStop s st)

def execLoadLanding (s : State) : Host.Outcome State Fault Refusal := landEvent s false
def execLineFillLanding (s : State) : Host.Outcome State Fault Refusal := landEvent s true

/-! ## Data moves of memory command engines (R215, R216, R236) -/

/-- The `n`-th move at the current core, due now for the running slot. -/
def moveAt (s : State) (n : Nat) (wr : Bool) : Option Move :=
  match (s.core s.curCore).moves[n]? with
  | some m => if m.isWr == wr && m.due == s.cur.now && m.slot == s.slotOf s.curCore then some m else none
  | none => none

def dropMove (s : State) (n : Nat) : State := s.modCore (fun k => { k with moves := k.moves.eraseIdx n })

/-- A RD's 64 bytes reach the scratchpad: a bank access and a PRT write (R215). -/
def rdLand (s : State) (n : Nat) (m : Move) : Res State := do
  if !m.tags.isEmpty then
    return (dropMove s n).modCore (fun k => { k with tags := m.tags.foldl (fun t p => NMap.set t p.1 p.2) k.tags })
  else
    footCheck s.cur 3 true 0 [m.addr / 4096]
    let t ← useBanks s [spBank 0 m.addr]
    return markRows ((dropMove t n).writeSp s.curCore m.addr m.data) [rowKey 0 m.addr] [] m.poison

/-- MC_RD_DATA of the `c`-th move at the current core (R215, R216). -/
def execMcRdData (s : State) : Host.Outcome State Fault Refusal :=
  match moveAt s s.ev.c false with
  | some m => evRes s (rdLand s s.ev.c m)
  | none => .next s

/-- RDs of the same column that issued after a WR and before its take carry its data (R215). -/
def forwardTake (s : State) (m : Move) (data : List Byte) (poison : Option Nat) : State :=
  let fix (x : Move) : Move :=
    if !x.isWr && x.eng == m.eng && x.dram == m.dram && x.tags.isEmpty && decide (x.issue > m.issue ∧ x.wsrc < m.issue + 1) then
      { x with data := data, wsrc := m.issue + 1, poison := poison } else x
  { s with cores := s.cores.map (fun p => (p.1, { p.2 with moves := p.2.moves.map fix })) }

/-- A WR's 64 bytes are taken: a bank access and a PRT read; they reach the column, or wait at the engine for a WR that has not issued
(R215). -/
def wrTake (s : State) (n : Nat) (m : Move) : Res State := do
  footCheck s.cur 3 false 0 [m.addr / 4096]
  let t ← useBanks s [spBank 0 m.addr]
  let data := s.readSp s.curCore m.addr 64
  let p := rowPoison (s.core s.curCore) [rowKey 0 m.addr]
  let t1 := dropMove t n
  if m.void then return t1
  else if m.early then
    let e := t1.engOf m.eng
    return t1.setEngOf m.eng { e with taken := e.taken ++ [(m.issue, s.curCore, m.addr, data, p)] }
  else return forwardTake (writeColumn t1 m.eng m.dram m.issue data p) m data p

/-- MC_WR_TAKE of the `c`-th move at the current core (R215). -/
def execMcWrTake (s : State) : Host.Outcome State Fault Refusal :=
  match moveAt s s.ev.c true with
  | some m => evRes s (wrTake s s.ev.c m)
  | none => .next s

/-- The status page reaches the issuer's scratchpad: a bank access and a PRT write, tags unchanged (R236). -/
def pageLand (s : State) (n i : Nat) (m : McMsg) : Res State := do
  let a := bits m.b 22 0
  footCheck s.cur 3 true 0 [a / 4096]
  let t ← useBanks s [spBank 0 a]
  let e := t.engOf n
  let t1 := t.setEngOf n { e with inbox := e.inbox.eraseIdx i }
  return markRows (t1.writeSp s.curCore a (m.words.flatMap (bytesOf 8))) [rowKey 0 a] [] none

/-- MCSTAT_PAGE_WRITE of the `c`-th message of engine `a` (R236). -/
def execMcstatPageWrite (s : State) : Host.Outcome State Fault Refusal :=
  match (s.engOf s.ev.a).inbox[s.ev.c]? with
  | some m => if m.fn == 4 && m.core == s.curCore && m.due + 23 == s.cur.now then evRes s (pageLand s s.ev.a s.ev.c m) else .next s
  | none => .next s

end Sys2Proof.Machine
end

