-- ==== Sys2Proof/Machine/DomainEvents.lean ====
section
/-! DEFINITION. The events of a timed domain: freezes (R37–R43), requested holds (R42), resumption (R40), the commit of a phase (R121, R187,
R248, R295, R299, R363), its cancel (R392–R395), the watchdog (R384), and context switches, saves and restores (R379–R381). The event's
argument names the partition in `a` and the slot in `b`. -/

namespace Sys2Proof.Machine

/-! ## Agents -/

/-- An agent frozen on its own cause: cycle, die, agent index, KIND (R14, R43). -/
structure Origin where
  cycle : Nat
  die : Nat
  idx : Nat
  kind : Nat
  deriving DecidableEq, Repr

/-- Agent order with the cycle first (R43). -/
def Origin.before (x y : Origin) : Bool :=
  decide (x.cycle < y.cycle) || (x.cycle == y.cycle && (decide (x.die < y.die) || (x.die == y.die && decide (x.idx < y.idx))))

/-- The own-cause freeze of an agent. -/
def originOf (fr : Option Freeze) (die idx : Nat) : List Origin :=
  match fr with
  | some f => if f.kind != 0 then [⟨f.cycle, die, idx, f.kind⟩] else []
  | none => []

/-- The own-cause freezes of a domain's agents (R37). -/
def origins (s : State) (p slot : Nat) : List Origin :=
  ((domCtxs s p slot).flatMap (fun x => originOf x.2.frozen (x.1 / 32) (x.1 % 32)))
    ++ ((domEngs s p slot).flatMap (fun n => originOf (s.engOf n).frozen (engDie n) (64 + n % 128)))

/-- The first of a list of origins. -/
def firstOrigin (os : List Origin) : Option Origin :=
  os.foldl (fun b x => match b with | none => some x | some y => if x.before y then some x else some y) none

/-- The earliest cycle that an agent of a domain has still to run (R184). -/
def earliestCycle (s : State) (p slot : Nat) : Nat :=
  let d := s.dom p slot
  let ts := ((domCtxs s p slot).map (fun x => x.2.now)) ++ ((domEngs s p slot).map (fun n => (s.engOf n).now))
  ts.foldl min d.tb

/-! ## Freezing (R38, R42, R43, R222) -/

/-- HOLDINFO of a freeze on `f` (R43). Where TB0 is not formed yet it counts as 0 (DESIGN CHOICE, log 84). -/
def holdinfoWord (d : Domain) (os : List Origin) (f : Nat) : Word :=
  let frel := ofInt 32 ((f : Int) - ((((d.task.bind (·.tb0)).getD 0) : Nat) : Int))
  match firstOrigin os with
  | some o => BitVec.ofNat 64 (frel + o.idx * 2 ^ 32 + o.die * 2 ^ 41 + o.kind * 2 ^ 44 + min os.length 255 * 2 ^ 48)
  | none =>
    let rs := d.reqs.filter (fun r => r.since.isNone)
    let c := ((rs.map (·.stamp)).min?).getD 0
    let k := (((rs.filter (fun r => r.stamp == c)).map (·.kind)).min?).getD 0
    BitVec.ofNat 64 (frel + k * 2 ^ 44)

/-- The MEMTIMEs of a domain's engines that no controller has met yet: engine, cycle, EINFO, controller (R221). -/
def memtimes (s : State) (p slot : Nat) : List (Nat × Nat × Nat × Nat) :=
  (domEngs s p slot).filterMap (fun n =>
    let e := s.engOf n
    match e.trapInfo with
    | some (t, info, c) => if e.st == .trapped && !e.told then some (n, t, info, c) else none
    | none => none)

/-- The MEMTIME that a controller records: of the lowest engine among those with the earliest cycle (R222). -/
def memtimeFor (ms : List (Nat × Nat × Nat × Nat)) (core : Nat) : Option (Nat × Nat) :=
  (ms.filter (fun m => m.2.2.2 == core)).foldl (fun b m => match b with
    | none => some (m.2.1, m.2.2.1)
    | some x => if m.2.1 < x.1 then some (m.2.1, m.2.2.1) else some x) none

/-- A controller takes MEMTIME as the domain freezes, unless its own handler runs (R222). ETB is the engine's cycle. -/
def giveMemtime (s : State) (core t info : Nat) : State :=
  let s1 := { s with curCore := core }
  let c := s1.cur
  if c.handler then s
  else
    let s2 := takeTrap s1 0x0B info
    { s2.modCur (fun x => { x with etb := BitVec.ofNat 64 t }) with curCore := s.curCore }

/-- The MEMTIMEs given to their controllers (R222). -/
def giveMemtimes (s : State) (p slot : Nat) : State :=
  let ms := memtimes s p slot
  let t := ((ms.map (fun m => m.2.2.2)).dedup).foldl (fun s c =>
    match memtimeFor ms c with | some (t, info) => giveMemtime s c t info | none => s) s
  if ms.isEmpty then t
  else mapEngs t p slot (fun n e => if ms.any (fun m => m.1 == n) then { e with told := true } else e)

/-- The domain freezes on F (R38): every agent that runs freezes, HOLDINFO is written, the requests count from here, controllers take
their MEMTIMEs. -/
def freezeOn (s : State) (p slot f : Nat) : State :=
  let d := s.dom p slot
  let hi := holdinfoWord d (origins s p slot) f
  let stop : Option Freeze → Option Freeze := fun x => match x with | some y => some y | none => some ⟨f, 0, false, true⟩
  let s1 := mapCtxs s p slot (fun _ c => { c with frozen := stop c.frozen, holdinfo := hi })
  let s2 := mapEngs s1 p slot (fun _ e => { e with frozen := stop e.frozen })
  let s3 := s2.setDom p slot { d with
    mode := .frozen f
    reqs := d.reqs.map (fun r => { r with since := some (r.since.getD s.wb) })
    task := d.task.map (fun t => { t with holds := t.holds + 1 }) }
  let s4 := giveMemtimes s3 p slot
  if d.reqs.any (fun r => r.kind == 9 || r.kind == 13) then latchDomain s4 p slot else s4

/-- DOMAIN_FREEZE: TB has reached F (R38). -/
def execDomainFreeze (s : State) : Host.Outcome State Fault Refusal :=
  let d := s.dom s.ev.a s.ev.b
  match d.mode with
  | .freezing f => if d.tb = f then .next (freezeOn s s.ev.a s.ev.b f) else .next s
  | _ => .next s

/-- Minimum length of a requested hold (R42, R402). -/
def holdMin (kind : Nat) : Nat := if kind = 6 || kind = 7 then 48 else if kind = 9 then 64 else 0

/-- HOLD_REQUEST of KIND `c`: stamped with the domain's TB (R42). -/
def execHoldRequest (s : State) : Host.Outcome State Fault Refusal :=
  let d := s.dom s.ev.a s.ev.b
  if (s.part s.ev.a).runSlot = some s.ev.b && d.task.isSome && [6, 7, 8, 9, 13].contains s.ev.c then
    .next (s.setDom s.ev.a s.ev.b (requestHold d s.ev.c d.tb (holdMin s.ev.c) s.wb))
  else .next s

/-- HOLD_RELEASE: the power manager releases its holds of KIND `c`; they end when their length has passed (R42). -/
def execHoldRelease (s : State) : Host.Outcome State Fault Refusal :=
  let d := s.dom s.ev.a s.ev.b
  if s.ev.c = 6 || s.ev.c = 7 then
    .next (s.setDom s.ev.a s.ev.b { d with reqs := d.reqs.map (fun r => if r.kind = s.ev.c then { r with released := true } else r) })
  else .next s

/-! ## Resumption (R40, R230) -/

/-- Every request has been released and has lasted its length (R42). -/
def reqsDone (d : Domain) (wb : Nat) : Bool :=
  d.reqs.all (fun r => r.released && (match r.since with | some w => decide (w + r.minLen ≤ wb) | none => false))

/-- Every own cause of a domain has cleared. -/
def causesDone (s : State) (p slot : Nat) : Bool :=
  let ok (f : Option Freeze) : Bool := match f with | some x => x.clear | none => true
  (domCtxs s p slot).all (fun x => ok x.2.frozen) && (domEngs s p slot).all (fun n => ok (s.engOf n).frozen)

/-- Every keeper of a domain has reopened its rows, with no refresh owed (R230). -/
def keepersDone (s : State) (p slot : Nat) : Bool :=
  (domEngs s p slot).all (fun n => (s.engOf n).keeper == 2 && decide ((s.engOf n).hw ≤ 0))

/-- An agent has not come to its freeze yet, in a catch-up that another cause has cut (R41). -/
def stillRuns (s : State) (p slot : Nat) : Bool :=
  (domCtxs s p slot).any (fun x => x.2.frozen.isNone) || (domEngs s p slot).any (fun n => (s.engOf n).frozen.isNone)

/-- Nothing holds the frozen domain any more but its keepers. -/
def holdOver (s : State) (p slot : Nat) : Bool :=
  let d := s.dom p slot
  causesDone s p slot && reqsDone d s.wb && d.cancel.isNone && (s.part p).switchTo.isEmpty && (s.part p).runSlot == some slot
    && !stillRuns s p slot

/-- DOMAIN_RESUME: W is the present wall cycle (R40). -/
def execDomainResume (s : State) : Host.Outcome State Fault Refusal :=
  let d := s.dom s.ev.a s.ev.b
  match d.mode with
  | .frozen f =>
    if holdOver s s.ev.a s.ev.b && keepersDone s s.ev.a s.ev.b then
      .next (s.setDom s.ev.a s.ev.b { d with mode := .catchUp f s.wb })
    else .next s
  | _ => .next s

/-! ## The commit of a phase (R121, R187, R248, R295, R299, R310, R318, R363) -/

/-- The report of a core that comes to its commit on cycle `now`: phase and PHASE cycle. -/
def reportDue (d : Domain) (core now phaseno : Nat) : Option (Nat × Nat) :=
  (d.reports.find? (fun r => r.1 == core && decide (r.2.1 > phaseno) && r.2.2 + Config.hop == now)).map (·.2)

/-- A core has issued its PHASE of a phase on a cycle. -/
def reported (d : Domain) (core ph cy : Nat) : Bool :=
  (d.reports ++ d.mismatch).any (fun r => r.1 == core && r.2.1 == ph && r.2.2 == cy)

/-- Every core of the task issued the PHASE on the same cycle. -/
def phaseAgrees (d : Domain) (ph cy : Nat) : Bool :=
  d.commits.any (fun x => x.1 == ph && x.2.1 == cy) || (taskCores d).all (fun c => reported d c ph cy)

/-- A MIGR completion applied to SLIP and MIGST (R313, R318): its cycle, deadline as a TB value, and status. -/
def applyMigr (c : Ctx) (m : Nat × Nat × Nat × Nat) : Ctx :=
  let late := m.1 - m.2.1
  let slip := c.slip.toNat
  let st := c.migst.toNat
  let slip1 := if m.1 > m.2.1 then min (bits slip 31 0 + 1) 0xFFFFFFFF + min (bits slip 63 32 + late) 0xFFFFFFFF * 2 ^ 32 else slip
  { c with slip := BitVec.ofNat 64 slip1
           migst := BitVec.ofNat 64 (m.2.2.1 % 4 + min (bits st 47 16 + 1) 0xFFFFFFFF * 2 ^ 16) }

/-- The completions that a commit on cycle `now`, of PHASE cycle `cy`, applies. They stay, marked with that cycle, for a replay: until a commit whose
PHASE comes after it, from which on every checkpoint that a cancel may go back to has them applied (R319). -/
def applyMigrs (c : Ctx) (now cy : Nat) : Ctx :=
  let due (m : Nat × Nat × Nat × Nat) : Bool := m.2.2.2 == 0 && decide (m.1 < now)
  let d := (c.migrs.filter due).foldl applyMigr c
  { d with migrs := (d.migrs.filter (fun m => m.2.2.2 == 0 || decide (cy < m.2.2.2))).map (fun m =>
      if due m then (m.1, m.2.1, m.2.2.1, now) else m) }

/-- Flags at a commit (R299). -/
def commitFlags (c : Ctx) : Ctx :=
  { c with flags := c.flags.map (fun p => (p.1, { p.2 with armed := p.2.armed && !p.2.ready, ovr := false })) }

/-- Every departed egress of every core of a task has performed (R310, R363). -/
def egressDone (s : State) (p slot : Nat) : Bool := (domCtxs s p slot).all (fun x => !lotDraining x.2)

/-- The domain's part of a commit, made by the first core that comes to it: records, SSN, what a later cancel cannot reach. SSN advances
once where the barrier records of two groups have come before it (R363; DESIGN CHOICE, log 105). -/
def commitDomain (s : State) (p slot ph cy : Nat) : State :=
  let d := s.dom p slot
  if d.commits.any (fun x => x.1 == ph && x.2.1 == cy) then s
  else
    let adv := !d.barrier.isEmpty && egressDone s p slot
    let s1 := stampChange (s.setPart p { s.part p with recChecks := (s.part p).recChecks.filter (fun x => !(checkSlot slot x && decide (x.1 / 4 < cy))) }) p
      (commitChange slot cy)
    s1.setDom p slot { s1.dom p slot with
      commits := (d.commits.filter (fun x => decide (x.2.1 + 4 * Config.hop > cy))) ++ [(ph, cy, adv)]
      barrier := if adv then [] else d.barrier
      barDone := d.barDone.filter (fun x => decide (x.1 + 1 ≥ ph)) ++ (if adv then d.barrier.map (fun k => (ph, k)) else [])
      cancelled := d.cancelled.filter (fun x => decide (x.2 ≥ ph))
      engChecks := d.engChecks.filter (fun x => decide (x.1 ≥ cy)) }

/-- The commit of phase `ph − 1` at the current core (R121). -/
def commitCore (s : State) (p slot ph cy : Nat) : State :=
  let d := s.dom p slot
  let adv := d.commits.any (fun x => x.1 == ph && x.2.1 == cy && x.2.2)
  let now := s.cur.now
  let s1 := s.modCur (fun c => applyMigrs { c with
    phaseno := BitVec.ofNat 64 (ph % 2 ^ 32)
    ssn := if adv then BitVec.ofNat 64 ((c.ssn.toNat + 1) % 2 ^ 32) else c.ssn } now cy)
  let s2 := departCols (s1.modCur (fun c => commitFlags (restartSeqs (departLot c (fun x => decide (x < ph)) ph)))) (fun x => decide (x < ph))
  let s3 := s2.modCore (fun k =>
    let checks := k.checks.filter (fun x => x.slot != slot || decide (x.phase ≥ ph))
    { k with
      checks := checks
      dirty := k.dirty.filter (fun x => !(inWindow s2.cur 1 (x.1 / 32) && x.2 + 1 == ph))
      undo := k.undo.filter (fun u => !(u.slot == slot && u.phase + 1 == ph))
      applied := k.applied.filter (fun x => x.slot != slot || decide (x.due > cy))
      stamped := k.stamped.filter (fun x => x.slot != slot || !x.taken || decide (x.cycle > cy)) })
  s3.setDom p slot { s3.dom p slot with
    reports := (s3.dom p slot).reports.filter (fun r => r.1 != s.curCore || decide (r.2.2 + Config.hop > cy)) }

/-- PHASE_COMMIT at the current core, on P + H (R121). -/
def execPhaseCommit (s : State) : Host.Outcome State Fault Refusal :=
  let p := s.curPart
  let slot := s.slotOf s.curCore
  let d := s.dom p slot
  match reportDue d s.curCore s.cur.now s.cur.phaseno.toNat with
  | none => .next s
  | some (ph, cy) => if phaseAgrees d ph cy then .next (commitCore (commitDomain s p slot ph cy) p slot ph cy) else .next s

/-- PHASE_MISMATCH at the current core, on P′ + H: ILLEGAL class 0x0C, once (R121). -/
def execPhaseMismatch (s : State) : Host.Outcome State Fault Refusal :=
  let p := s.curPart
  let slot := s.slotOf s.curCore
  let d := s.dom p slot
  match reportDue d s.curCore s.cur.now s.cur.phaseno.toNat with
  | none => .next s
  | some (ph, cy) =>
    if phaseAgrees d ph cy then .next s
    else
      let odd := ((taskCores d).find? (fun c => !reported d c ph cy)).getD 0
      let s1 := s.setDom p slot { d with
        reports := d.reports.filter (fun r => !(r.1 == s.curCore && r.2.1 == ph && r.2.2 == cy))
        mismatch := d.mismatch ++ [(s.curCore, ph, cy)] }
      .next (takeStop s1 (.trap 0x01 (0x0C + 2 ^ 8 + (odd % 32) * 2 ^ 16 + (odd / 32 % 8) * 2 ^ 25)))

/-! ## The cancel of a phase (R392–R395, R189, R295, R319, R339) -/

/-- The checkpoint that a cancel goes back to: of the phase that contains `t` (R392). -/
def cancelCheck (s : State) (p slot t : Nat) : Option (Nat × Nat) :=
  ((taskCores (s.dom p slot)).flatMap (fun c => ((s.core c).checks.filter (fun x => x.slot == slot && decide (x.cycle < t))).map
    (fun x => (x.phase, x.cycle)))).foldl (fun b x => match b with
      | none => some x
      | some y => if x.2 > y.2 then some x else some y) none

/-- The request sequence after a cancel (R319): requests issued before the checkpoint keep what has become of them since, and land again
on their cycles, and a fault that has been delivered since awaits its trap point in the replay. Of later ones those stay that `sent` names: what has
departed because the core halted performs once, and the replay takes it up (R339, R404; DEDUCED, log 99). -/
def cancelAus (old new : List AuReq) (next pc : Nat) (sent : AuReq → Bool) : List AuReq :=
  let cur (r : AuReq) : AuReq := (new.find? (fun x => x.seqNo == r.seqNo)).getD r
  let again (x : AuReq) : AuReq :=
    if x.place == .landed && x.land > pc && (x.op == .load || x.op == .fill || x.op == .atomic) then { x with place := .performed } else x
  (old.filter (fun r => decide (r.seqNo < next))).map (fun r =>
    let x := cur r
    if x.place == .delivered && r.place != .delivered then { x with place := .faulted } else again x)
  ++ (new.filter (fun x => decide (next ≤ x.seqNo) && sent x)).map (fun x => { again x with ahead := 1 })

/-- A request of a cancelled phase has departed because its core halted, in the run that is cancelled or in one before it, and has not faulted (R404). -/
def sentAtHalt (c : Ctx) (r : AuReq) : Bool :=
  (c.halted.isSome || r.ahead != 0) && (r.place == .departed || r.place == .queued || r.place == .performed || r.place == .landed)

/-- The paged entries and the unit of a restored context: an entry whose request has faulted since is faulted, and the unit goes on where
the request that halted it is gone (R312, R319). -/
def cancelUnit (c : Ctx) : Ctx :=
  let d := (c.aus.filter (fun r => r.place == .faulted)).foldl (fun c r => auEntry c r.seqNo (.faulted r.seqNo)) c
  if d.auHalt.isNone then auRestart d else d

/-- A word is the local one of that source and issue cycle: a core issues at most one on a cycle. -/
def sameWord (x y : Arrival) : Bool := x.issue.isSome && x.issue == y.issue && x.srcOrder == y.srcOrder

/-- The words on their way to a core at the end of P_c: what it has taken since, on the cycles of the stamps, then what had not come. A local
word counts by its issue cycle, since cores execute P_c at different wall times in a catch-up (R295, R339). -/
def cancelWords (pc : Nat) (old live applied : List Arrival) : List Arrival :=
  let mine (y : Arrival) : Bool := match y.issue with | none => true | some i => decide (i ≤ pc)
  let again := applied.filter (fun y => mine y && decide (y.due > pc))
  let rest := old.filter (fun y => y.issue.isSome && mine y)
  let late := live.filter (fun y => mine y && !rest.any (sameWord y))
  again ++ (rest ++ late).filter (fun y => !again.any (sameWord y))

/-- A core's context and scratchpad state at the end of P_c (R393). -/
def cancelCore (s : State) (slot ph pc core : Nat) : State :=
  let k := s.core core
  match k.checks.find? (fun x => x.slot == slot && x.phase == ph) with
  | none => s
  | some x =>
    let live := s.ctxOf core slot
    let keep (m : Nat × Nat × Nat × Nat) : Nat × Nat × Nat × Nat := (m.1, m.2.1, m.2.2.1, if x.ctx.migrs.contains m then m.2.2.2 else 0)
    let c := cancelUnit { x.ctx with
      now := pc + 1, frozen := some ⟨pc + 1, 0, false, true⟩, holdinfo := live.holdinfo, hfault := live.hfault
      ctxwin := live.ctxwin
      aus := cancelAus x.ctx.aus live.aus x.ctx.auNext pc (sentAtHalt live), auHalt := live.auHalt.filter (fun n => decide (n < x.ctx.auNext))
      haltCols := live.haltCols
      migrs := live.migrs.map keep
      cols := x.ctx.cols.filter (fun y => live.cols.contains y) }
    let images := k.undo.reverse.filter (fun u => u.slot == slot && decide (u.phase ≥ ph))
    let undone := images.foldl (fun m u => Memory.writeN m (spAddr core (u.gran * 4096)) u.data) s.mem
    let changed := k.dirty.filter (fun y => inWindow live 1 (y.1 / 32) && decide (y.2 ≥ ph))
    let tiles := changed.filter (fun y => !changed.any (fun z => z.1 / 32 == y.1 / 32 && decide (z.2 < y.2)))
    let mem := tiles.foldl (fun m y => Memory.writeN m (accAddr core (16384 * (y.1 / 32)))
      (Memory.readN m 16384 (shadowAddr core y.2 (16384 * (y.1 / 32))))) undone
    let marks := images.foldl (fun (m : NMap Nat) u =>
      u.marks.foldl (fun m x => NMap.set m x.1 x.2) (List.filter (fun (x : Nat × Nat) => x.1 / 32 != u.gran) m)) k.poison
    let marks1 := tiles.foldl (fun m y => copyMarks m (y.1 / 32) (shadowKey y.2) (fun r => 2 ^ 20 + r)) marks
    let mine (y : Arrival) : Bool := y.slot == slot
    { s with mem := mem }.setCore core { k with
      ctxs := k.ctxs.set slot c
      checks := k.checks.filter (fun y => y.slot != slot || decide (y.phase ≤ ph))
      undo := k.undo.filter (fun u => !(u.slot == slot && decide (u.phase ≥ ph)))
      dirty := k.dirty.filter (fun y => !changed.contains y)
      poison := marks1
      waiting := x.waiting ++ k.waiting.filter (fun y => !mine y)
      inbound := cancelWords pc x.inbound (k.inbound.filter mine) (k.applied.filter mine) ++ k.inbound.filter (fun y => !mine y)
      applied := k.applied.filter (fun y => !mine y || decide (y.due ≤ pc))
      stamped := k.stamped.map (fun (y : Stamped) => if y.slot == slot && decide (y.cycle > pc) then { y with taken := false } else y)
      moves := x.moves ++ k.moves.filter (fun (m : Move) => m.slot != slot)
      banks := [], bankCycle := 0 }

/-- An engine's table state at the end of P_c; the keeper, its wall-time account and what belongs to the channel go on (R393). -/
def cancelEng (old live : EngSt) (pc : Nat) : EngSt :=
  { old with
    now := pc + 1, frozen := some ⟨pc + 1, 0, false, true⟩, trapInfo := none
    hw := live.hw, keeper := if live.keeper = 0 || live.keeper = 5 then live.keeper else 1, busyTill := live.busyTill, saved := old.rows
    refWall := live.refWall, bankWall := live.bankWall, scrubPace := live.scrubPace, timing := live.timing
    scrubRow := live.scrubRow, scrubCfg := live.scrubCfg, corrected := live.corrected, queue := live.queue, poison := live.poison
    snap := live.snap, holds := live.holds, paged := live.paged, scrub := live.scrub }

/-- The loads of a cancelled phase that wait at a channel are discarded: the replay issues them again under the same numbers (R319, R339). What a halted core
has sent stays. -/
def cancelQueues (s : State) (slot ph : Nat) (cores : List Nat) : State :=
  let gone (x : PagedPart) : Bool := cores.any (fun c => x.key == ctxKey c slot + 1
    && !(auReqOf s (ctxKey c slot) x.id).any (sentAtHalt (s.ctxOf c slot))
    && ((s.core c).checks.find? (fun y => y.slot == slot && y.phase == ph)).any (fun y => decide (y.ctx.auNext ≤ x.id)))
  { s with engs := s.engs.map (fun y => (y.1, { y.2 with queue := y.2.queue.filter (fun x => !gone x) })) }

/-- The cancel of the phase that contains cycle `t` (R393). -/
def cancelPhase (s : State) (p slot f t cause : Nat) : State :=
  match cancelCheck s p slot t with
  | none => s
  | some (ph, pc) =>
    let q := foldChanges (s.part p) slot f
    let s1 := cancelQueues (s.setPart p (restoreRecs q slot pc (decide (pc + Config.hop < f)))) slot ph (taskCores (s.dom p slot))
    let s2 := (taskCores (s.dom p slot)).foldl (fun s c => cancelCore s slot ph pc c) s1
    let old := ((s.dom p slot).engChecks.find? (fun x => x.1 == pc)).map (·.2)
    let s3 := mapEngs s2 p slot (fun n e => match old with
      | some m => (match m.find n with | some o => cancelEng o e pc | none => e)
      | none => e)
    let d := s3.dom p slot
    let begun := (taskCores d).map (fun c => (c, ph, pc))
    s3.setDom p slot { d with
      tb := pc + 1, mode := .frozen (pc + 1), cancel := none
      cancelled := (cause, ph) :: d.cancelled.filter (fun x => decide (x.2 ≤ ph))
      reports := (d.reports.filter (fun r => decide (r.2.2 ≤ pc) && !begun.contains r)) ++ begun
      mismatch := d.mismatch.filter (fun r => decide (r.2.2 ≤ pc))
      commits := d.commits.filter (fun x => decide (x.2.1 ≤ pc))
      engChecks := d.engChecks.filter (fun x => decide (x.1 ≤ pc)) }

/-- PHASE_CANCEL, once every agent has frozen (R393). -/
def execPhaseCancel (s : State) : Host.Outcome State Fault Refusal :=
  let d := s.dom s.ev.a s.ev.b
  match d.mode, d.cancel with
  | .frozen f, some (t, cause) =>
    if stillRuns s s.ev.a s.ev.b then .next s else .next (cancelPhase s s.ev.a s.ev.b f t cause)
  | _, _ => .next s

/-- RECORD_CHANGE_APPLY: the changes whose cycles every agent has passed (R184, R185). -/
def execRecordChangeApply (s : State) : Host.Outcome State Fault Refusal :=
  .next (s.setPart s.ev.a (foldChanges (s.part s.ev.a) s.ev.b (earliestCycle s s.ev.a s.ev.b)))

/-! ## The watchdog (R26, R384) -/

/-- L in wall cycles (R20, R384, R407). -/
def wdogLimit (s : State) (p slot : Nat) : Nat :=
  let w := (((s.dom p slot).task).map (·.wdog)).getD 0
  let n := if w = 0 then (s.part p).wddef.toNat else w
  max n 1 * 1024

/-- A handler runs. -/
def handlerRuns (c : Ctx) : Bool := c.handler && !bitB c.hfault.toNat 8

/-- A handler that runs is stopped by the watchdog (R375, R384). The spec gives WATCHDOG no EINFO: HFAULT.INFO is 0 (DESIGN CHOICE, log 107). -/
def wdogStop (c : Ctx) : Ctx :=
  if handlerRuns c then { c with hfault := BitVec.ofNat 64 (0x17 + 2 ^ 8 + (c.pc % 65536) * 2 ^ 16) } else c

/-- WATCHDOG_EXPIRY (R384), once until a RELEASE; the domain keeps which counter fired, for which the spec names no register (log 83). -/
def execWatchdogExpiry (s : State) : Host.Outcome State Fault Refusal :=
  let p := s.ev.a
  let slot := s.ev.b
  let d := s.dom p slot
  let l := wdogLimit s p slot
  if d.task.isNone || (d.wdf && d.wdWhich != 0) || !(decide (l ≤ d.holdw) || decide (l ≤ d.livew)) then .next s
  else
    let s1 := countTrigger (sysEventOn s p 3) p
    let s2 := if (domCtxs s p slot).any (fun x => handlerRuns x.2) then sysEventOn s1 p 4 else s1
    let s3 := mapCtxs s2 p slot (fun _ c => wdogStop c)
    let d3 := s3.dom p slot
    .next (s3.setDom p slot { requestHold d3 13 d3.tb 0 s.wb with
      wdf := true, wdWhich := b2n (decide (l ≤ d.holdw)) + 2 * b2n (decide (l ≤ d.livew)) })

/-! ## Context switches (R379, R380) -/

/-- An engine's table state replaced; what belongs to its channel stays (R207). -/
def swapEng (inn live : EngSt) : EngSt :=
  { inn with
    timing := live.timing, scrubRow := live.scrubRow, scrubCfg := live.scrubCfg, corrected := live.corrected, queue := live.queue
    poison := live.poison, snap := live.snap, hw := live.hw, busyTill := live.busyTill
    refWall := live.refWall, bankWall := live.bankWall, scrubPace := live.scrubPace, keeper := if inn.keeper = 0 then 0 else 1, saved := inn.rows }

/-- The engines of an outgoing slot, where one runs, are put away and those of an incoming one brought in (R207). -/
def swapEngs (s : State) (p : Nat) (out : Option Nat) (inn : Nat) : State :=
  let outs : List Nat := (out.map (domEngs s p)).getD []
  let ns := (outs ++ domEngs s p inn).dedup
  ns.foldl (fun s n =>
    let live := s.engOf n
    let s1 := match out with
      | some o => if outs.contains n then { s with engSaved := s.engSaved.set (n * 4 + o) live } else s
      | none => s
    let next := match s1.engSaved.find (n * 4 + inn) with
      | some e => swapEng e live
      | none => swapEng { engFresh live with now := (s.dom p inn).tb } live
    { s1.setEngOf n next with engSaved := s1.engSaved.erase (n * 4 + inn) }) s

/-- The running slot of a partition and of its cores changed. A core's slot meets the banks of no cycle of another's (R57). -/
def runOn (s : State) (p slot : Nat) : State :=
  let cores := (List.range (32 * (s.part p).size)).map (32 * p + ·)
  let on (c : Nat) : Bool := (taskCores (s.dom p slot)).contains c
  let s1 := cores.foldl (fun s c =>
    if on c || (s.core c).slotRun.isSome then s.setCore c { s.core c with slotRun := if on c then some slot else none, banks := [], bankCycle := 0 } else s) s
  s1.setPart p { s1.part p with runSlot := if (s.dom p slot).task.isSome then some slot else none }

/-- A switch to a slot: a core whose slot is empty, as no task there names it, runs nothing until the next switch (R379). -/
def switchOn (s : State) (p slot : Nat) : State :=
  let t := runOn s p slot
  t.setPart p { t.part p with
    parked := ((List.range (32 * (s.part p).size)).map (32 * p + ·)).filter (fun c => !(taskCores (s.dom p slot)).contains c) }

/-- A thermal or power hold in force goes over to the incoming domain (R380). -/
def carryHolds (d : Domain) (reqs : List HoldReq) (wb : Nat) : Domain :=
  reqs.foldl (fun d r => { requestHold d r.kind d.tb r.minLen wb with
    reqs := (requestHold d r.kind d.tb r.minLen wb).reqs.map (fun x => if x.kind = r.kind then { x with released := r.released } else x) }) d

/-- The thermal and power holds of the outgoing domain go over to the incoming one, where it has a task (R380). -/
def moveHolds (s : State) (p out inn : Nat) : State :=
  let d := s.dom p out
  let e := s.dom p inn
  let power (r : HoldReq) : Bool := r.kind == 6 || r.kind == 7
  if e.task.isSome && d.reqs.any power then
    (s.setDom p out { d with reqs := d.reqs.filter (fun r => !power r) }).setDom p inn (carryHolds e (d.reqs.filter power) s.wb)
  else s

/-- The switch of a partition to the last slot asked for (R379, R380). -/
def switchSlots (s : State) (p : Nat) : State :=
  let q := s.part p
  match q.switchTo.getLast? with
  | none => s
  | some inn =>
    let s0 := s.setPart p { q with switchTo := [] }
    match q.runSlot with
    | none => moveHolds (switchOn (swapEngs s0 p none inn) p inn) p (1 - inn) inn
    | some out =>
      let d := s0.dom p out
      if out = inn then s0.setDom p out { d with reqs := d.reqs.filter (fun r => !(r.kind == 8 && r.released)) }
      else
        let s1 := s0.setDom p out { d with reqs := d.reqs.filter (fun r => !(r.kind == 8 && r.released)) }
        moveHolds (switchOn (swapEngs s1 p (some out) inn) p inn) p out inn

/-- The keepers of a domain have closed its rows (R229, R379). -/
def rowsClosed (s : State) (p slot : Nat) : Bool :=
  (domEngs s p slot).all (fun n => let e := s.engOf n; e.keeper != 0 && e.keeper != 5 && decide (e.busyTill ≤ s.wb))

/-- CONTEXT_SWITCH of partition `a`: the running domain is frozen, and no core of it is in handler mode (R379). -/
def execContextSwitch (s : State) : Host.Outcome State Fault Refusal :=
  let p := s.ev.a
  let q := s.part p
  match q.runSlot with
  | none => .next (switchSlots s p)
  | some out =>
    let d := s.dom p out
    let ready := d.task.isNone || (match d.mode with
      | .frozen _ => !inHandlerMode s p out && !stillRuns s p out && d.cancel.isNone && rowsClosed s p out
      | _ => false)
    if ready then .next (switchSlots s p) else .next s

/-! ## Saves and restores (R381) -/

/-- First granule and granules, first tile and tiles of a window (R378). -/
def winSpan (c : Ctx) : (Nat × Nat) × (Nat × Nat) :=
  let w := c.ctxwin.toNat
  ((bits w 10 0, bits w 26 16 + 1 - bits w 10 0), (bits w 38 32, bits w 46 40 + 1 - bits w 38 32))

/-- The save area of a slot of a core, by its partition rank (R381, R407). -/
def saveArea (q : PartSt) (slot rank : Nat) : Nat := (q.saves.getD (slot * 256 + rank) 0).toNat

/-- The bytes of a core's register image in its save area: opaque, by the image's number and the core's rank (R381). -/
def imageBytes (no rank : Nat) : List Byte := (List.range Config.imageLen).map (Config.imageByte no rank)

/-- Where the window's granules and its tiles lie in a save area, behind the image (R381; DESIGN CHOICE, log 47). -/
def areaSp (va : Nat) : Nat := va + Config.imageLen
def areaAcc (va : Nat) (w : (Nat × Nat) × (Nat × Nat)) : Nat := areaSp va + 4096 * w.1.2

/-- Bytes of a save area. -/
def areaSize (w : (Nat × Nat) × (Nat × Nat)) : Nat := Config.imageLen + 4096 * w.1.2 + 16384 * w.2.2

/-- A row of a window, by its key in the poison table. -/
def rowInWindow (c : Ctx) (key : Nat) : Bool :=
  if key / 2 ^ 20 = 0 then inWindow c 0 (key % 2 ^ 20 / 32) else inWindow c 1 (key % 2 ^ 20 / 128)

/-- A granule, a tile and a row's key of a window `old` in the window `new` (R381). -/
def movedGran (old new : Ctx) (g : Nat) : Nat := g + (winSpan new).1.1 - (winSpan old).1.1
def movedTile (old new : Ctx) (t : Nat) : Nat := t + (winSpan new).2.1 - (winSpan old).2.1
def movedRow (old new : Ctx) (key : Nat) : Nat :=
  if key / 2 ^ 20 = 0 then key + 32 * (winSpan new).1.1 - 32 * (winSpan old).1.1
  else key + 128 * (winSpan new).2.1 - 128 * (winSpan old).2.1

/-- The bytes of a slot's instruction memory, by their place in it. -/
def codeOf (m : Memory) (core slot : Nat) : List (Nat × Byte) :=
  (m.filter (fun x => decide (imemAddr core slot 0 ≤ x.1 ∧ x.1 < imemAddr core slot 0 + 2 ^ 18))).map (fun x => (x.1 - imemAddr core slot 0, x.2))

/-- A slot's instruction memory taken from such bytes; what was there before is gone. -/
def putCode (m : Memory) (core slot : Nat) (code : List (Nat × Byte)) : Memory :=
  let clear := (codeOf m core slot).foldl (fun m x => Memory.writeN m (imemAddr core slot 0 + x.1) [memDefault]) m
  code.foldl (fun m x => Memory.writeN m (imemAddr core slot 0 + x.1 % 2 ^ 18) [x.2]) clear

/-- A context that has moved to a save area leaves no request behind. -/
def ctxSaved (c : Ctx) : Ctx := { c with aus := [], auHalt := none }

/-- A core as its save area keeps it. -/
def savedCore (s : State) (p slot core : Nat) : SavedCore :=
  let c := s.ctxOf core slot
  let w := winSpan c
  { core := core - 32 * p, ctx := c, checks := (s.core core).checks.filter (fun x => x.slot == slot)
    shadows := ((s.core core).dirty.filter (fun x => inWindow c 1 (x.1 / 32))).map (fun x =>
      (x.1, s.mem.readN 16384 (shadowAddr core x.2 (16384 * (x.1 / 32)))))
    dirty := (s.core core).dirty.filter (fun x => inWindow c 1 (x.1 / 32))
    undo := (s.core core).undo.filter (fun x => x.slot == slot)
    moves := (s.core core).moves.filter (fun x => x.slot == slot)
    inbound := (s.core core).inbound.filter (fun x => x.slot == slot)
    waiting := (s.core core).waiting.filter (fun x => x.slot == slot)
    applied := (s.core core).applied.filter (fun x => x.slot == slot)
    stamped := (s.core core).stamped.filter (fun x => x.slot == slot)
    poison := (s.core core).poison.filter (fun x => rowInWindow c x.1)
    tags := (s.core core).tags.filter (fun x => decide (w.1.1 ≤ x.1 ∧ x.1 < w.1.1 + w.1.2))
    code := codeOf s.mem core slot }

/-- A slot's context, or a collective run of it, still has traffic of its own under way, which the save waits for (R381; log 47). -/
def saveBusy (s : State) (p slot : Nat) : Bool :=
  (domCtxs s p slot).any (fun x => x.2.aus.any (fun r => r.place == .departed || r.place == .queued))
    || (List.range (s.part p).size).any (fun d => (s.cxe (p + d)).runs.any (fun r => r.slot == slot && (r.active || r.undelivered != 0))
      || (s.cxe (p + d)).waits.any (fun w => w.slot == slot))

/-- A core's image, window granules and window tiles written to its save area (R381). -/
def writeArea (s : State) (p slot no core : Nat) : State :=
  let w := winSpan (s.ctxOf core slot)
  writeVa s (saveArea (s.part p) slot (core - 32 * p))
    (imageBytes no (core - 32 * p) ++ s.readSp core (4096 * w.1.1) (4096 * w.1.2) ++ s.mem.readN (16384 * w.2.2) (accAddr core (16384 * w.2.1)))

/-- Every core's save area can be written: its traffic goes through the page table, and an unmapped page waits for the space manager (R306, R381). -/
def areasReady (s : State) (p slot : Nat) (cores : List Nat) : Bool :=
  cores.all (fun c => vaGrants s (saveArea (s.part p) slot (c - 32 * p)) (areaSize (winSpan (s.ctxOf c slot))) 3)

/-- SAVE_COMPLETE of partition `a` (R381): image, granules and tiles stand in the save areas, and the slot is free. It comes no sooner than the slot's own
traffic is done and the areas are mapped (log 47). -/
def execSaveComplete (s : State) : Host.Outcome State Fault Refusal :=
  let p := s.ev.a
  let q := s.part p
  let slot := q.strSlot
  let d := s.dom p slot
  if q.str != 1 then .next s
  else if d.task.isNone then .next (s.setPart p { q with str := 0 })
  else if saveBusy s p slot || !areasReady s p slot (taskCores d) then .next s
  else
    let cores := taskCores d
    let img : Image :=
      { no := s.free, dom := d, cores := cores.map (savedCore s p slot)
        engs := (domEngines d).map (fun n => (n - 128 * p, s.engSaved.getD (n * 4 + slot) EngSt.reset))
        recChecks := (q.recChecks.filter (checkSlot slot)).map (fun x => (x.1 / 4, x.2)), changes := q.recs.changes.filter (fun x => x.ofSlot q slot)
        merges := slotMerges q slot }
    let s0 := cores.foldl (fun s c => writeArea s p slot img.no c) { s with free := s.free + 1 }
    let s1 := cores.foldl (fun s c => (s.setCore c (coreFree (s.core c) slot)).setCtx c slot (ctxSaved (ctxFree (s.ctxOf c slot)))) s0
    let s2 := { s1 with engSaved := (domEngines d).foldl (fun m n => NMap.erase m (n * 4 + slot)) s1.engSaved }
    let s3 := s2.setDom p slot { Domain.reset with tb := d.tb }
    .next (s3.setPart p { dropRecs (s3.part p) slot with str := 0, images := img :: (s3.part p).images })

/-- A core taken from its save area into a slot and its window: what a window that has moved held goes to the same place in the new one (R381). -/
def restoreCore (s : State) (p slot : Nat) (x : SavedCore) : State :=
  let core := 32 * p + x.core
  let k := s.core core
  let win := (s.ctxOf core slot).ctxwin
  let c := { x.ctx with ctxwin := win }
  let w := winSpan c
  let old := winSpan x.ctx
  let va := saveArea (s.part p) slot x.core
  let s1 := s.writeSp core (4096 * w.1.1) (vaBytes s (areaSp va) (4096 * min w.1.2 old.1.2))
  let m0 : Memory := s1.mem.writeN (accAddr core (16384 * w.2.1)) (vaBytes s (areaAcc va old) (16384 * min w.2.2 old.2.2))
  let tile (t : Nat) : Nat := movedTile x.ctx c t
  let m1 : Memory := (x.shadows.filter (fun y => inWindow c 1 (tile (y.1 / 32)))).foldl (fun m y =>
    Memory.writeN m (shadowAddr core (y.1 % 32) (16384 * tile (y.1 / 32))) y.2) m0
  let s2 : State := { s1 with mem := putCode m1 core slot x.code }
  let own (y : Arrival) : Arrival := { y with slot := slot }
  let clear : NMap Nat := List.filter (fun (t : Nat × Nat) => !inWindow c 0 t.1) k.tags
  let tags := x.tags.foldl (fun m t => if inWindow c 0 (movedGran x.ctx c t.1) then NMap.set m (movedGran x.ctx c t.1) t.2 else m) clear
  let undo (y : Undo) : Undo := { y with
    slot := slot, gran := movedGran x.ctx c y.gran, marks := y.marks.map (fun m => (movedRow x.ctx c m.1, m.2)) }
  s2.setCore core { k with
    ctxs := k.ctxs.set slot c, tags := tags
    dirty := x.dirty.foldl (fun m y => if inWindow c 1 (tile (y.1 / 32)) then NMap.set m (tile (y.1 / 32) * 32 + y.1 % 32) y.2 else m)
      (k.dirty.filter (fun y => !inWindow c 1 (y.1 / 32)))
    undo := k.undo.filter (fun y => y.slot != slot) ++ x.undo.map undo
    moves := k.moves.filter (fun y => y.slot != slot) ++ x.moves.map (fun y => { y with slot := slot })
    inbound := k.inbound.filter (fun y => y.slot != slot) ++ x.inbound.map own
    waiting := k.waiting.filter (fun y => y.slot != slot) ++ x.waiting.map own
    applied := k.applied.filter (fun y => y.slot != slot) ++ x.applied.map own
    stamped := k.stamped.filter (fun y => y.slot != slot) ++ x.stamped.map (fun y => { y with slot := slot })
    poison := x.poison.foldl (fun m y => if rowInWindow c (movedRow x.ctx c y.1) then NMap.set m (movedRow x.ctx c y.1) y.2 else m)
      (k.poison.filter (fun y => !rowInWindow c y.1))
    checks := k.checks.filter (fun y => y.slot != slot) ++ x.checks.map (fun y => { y with
      slot := slot, inbound := y.inbound.map own, waiting := y.waiting.map own, moves := y.moves.map (fun m => { m with slot := slot }) }) }

/-- The save areas of a slot hold an image: each of its cores' areas can be read and begins with that core's bytes, wherever they were saved to first (R381). -/
def areasHold (s : State) (p slot : Nat) (i : Image) : Bool :=
  i.cores.all (fun x =>
    let va := saveArea (s.part p) slot x.core
    vaGrants s va (areaSize (winSpan x.ctx)) 2 && vaBytes s va Config.imageLen == imageBytes i.no x.core)

/-- RESTORE_COMPLETE of partition `a` (R381): the image that the slot's save areas hold moves into the slot, and with it the granules and tiles behind it, which
run when they are switched to (R379); where they hold none, or its check fails (`c` = 1), SERR is set and the slot stays free. -/
def execRestoreComplete (s : State) : Host.Outcome State Fault Refusal :=
  let p := s.ev.a
  let q := s.part p
  let slot := q.strSlot
  if q.str != 2 then .next s
  else
    match (if s.ev.c = 1 then none else q.images.find? (areasHold s p slot)) with
    | none => .next (s.setPart p { q with str := 0, serr := true })
    | some img =>
      let s1 := img.cores.foldl (fun s x => restoreCore s p slot x) s
      let s2 := { s1 with engSaved := img.engs.foldl (fun (m : NMap EngSt) (x : Nat × EngSt) => NMap.set m ((x.1 + 128 * p) * 4 + slot) x.2) s1.engSaved }
      let d := img.dom
      let s3 := s2.setDom p slot d
      let r := putRecs (s3.part p) slot img.recChecks img.changes img.merges
      .next (s3.setPart p { r with str := 0, serr := false, runSlot := if r.runSlot = some slot then none else r.runSlot })

end Sys2Proof.Machine
end

