-- ==== Sys2Proof/Machine/PagedEvents.lean ====
section
/-! DEFINITION. The events of paged memory: a request at its owner (R305, R306), its performance in a service window (R317), the space
manager's answers (R306, R311), and migrations (R318). The event's argument names a context by its key (R377) in `a` and its
request in `b`; where `d` is 1, die `a` and the request `b` that comes from no context's sequence. -/

namespace Sys2Proof.Machine

/-! ## Requests -/

/-- A context's access unit changed. -/
def modAu (s : State) (key : Nat) (f : Ctx → Ctx) : State := s.setCtx (key / 4) (key % 4) (f (s.ctxOf (key / 4) (key % 4)))

/-- A request's place changed. -/
def placeAu (s : State) (key n : Nat) (p : AuPlace) : State := modAu s key (fun c => auMod c n (fun r => { r with place := p }))

/-- Package and die of an owner. -/
def ownerOf (va : Nat) : Nat := va / 2 ^ 48

/-- A MIGR, as `PagedPart` names it, waits at its owner for the copy in progress: its own has not begun (R318). -/
def migrWaits (d : DieSt) (key id : Nat) : Bool := d.migrWait.contains (key, id)

/-- An earlier request of the same context, by its key, to the same owner has departed and has not performed; a MIGR is performed as its copy begins
(R306, R307, R333; log 69). -/
def behindPerform (s : State) (key : Nat) (r : AuReq) : Bool :=
  (s.ctxOf (key / 4) (key % 4)).aus.any (fun x => decide (x.seqNo < r.seqNo) && ownerOf x.va == ownerOf r.va
    && (x.place == .departed || x.place == .untaken
      || (x.place == .queued && (x.op != .migr || migrWaits (s.die (vaDie x.va)) (key + 1) x.seqNo))))

/-- An earlier request of the same context to the same owner has departed and has not reached it (R306, R307). -/
def behindOther (c : Ctx) (r : AuReq) : Bool :=
  c.aus.any (fun x => decide (x.seqNo < r.seqNo) && ownerOf x.va == ownerOf r.va && (x.place == .departed || x.place == .untaken))

/-- An egress request of the partition that departed in a phase at least two before a load's has not performed: the load of that phase comes after it (R310, R329,
R336; DEDUCED, log 100). -/
def behindLot (s : State) (key : Nat) (r : AuReq) : Bool :=
  !r.gated && (domCtxs s (s.partOfDie (key / 4 / 32)) (key % 4)).any (fun x => x.2.aus.any (fun y => y.gated && decide (y.phase + 2 ≤ r.phase)
    && (y.place == .held || y.place == .departed || y.place == .queued || y.place == .untaken)))

/-- The access of a request as its owner sees it (R313–R315); its key is AUKEY as it stands on the arrival (DEDUCED, log 90). -/
def accOf (s : State) (key : Nat) (r : AuReq) : PAcc :=
  let c := s.ctxOf (key / 4) (key % 4)
  ⟨r.op, agentId s (key / 4) (key % 4), s.partOfDie (key / 4 / 32), r.stampPh, r.stampSsn, c.aukey.toNat % 2 ^ 16⟩

/-- The access of a request from outside the contexts. -/
def extAcc (q : ExtReq) : PAcc := ⟨q.op, q.agent, q.pbase, q.ph, q.ssn, q.key⟩

/-- The engine whose channel holds an offset of a page in a frame of a die: line L of frame F lies on engine (F + L) mod 128 (R303). -/
def engOfLine (die : Nat) (p : Page) (frame off : Nat) : Nat :=
  let k := off - p.first * 65536
  engNo die ((frame + k / 65536 + k % 65536 / 64) % 128)

/-- The engine whose channel holds an address of a die, by the entry that translates it (R303, R305). -/
def engAtVa (d : DieSt) (die off : Nat) : Nat :=
  match seenPage d off with
  | some p => engOfLine die p p.frame off
  | none => engNo die 0

/-- Where a line of a frame lies in its channel: bank, row and column, the row among those of paged memory (R206, R303; log 70). -/
def linePlace (e : EngSt) (frame line : Nat) : Nat × Nat × Nat :=
  let k := Config.lineKey (frame * 1024 + line)
  (k / 2 ^ 20 % 16, e.arena + k / 16 % 2 ^ 16 % (2 ^ 16 - e.arena), k % 16)

/-- Where the line of an offset of a page lies, as a frame of the page holds it. -/
def offPlace (e : EngSt) (p : Page) (frame off : Nat) : Nat × Nat × Nat :=
  let k := off - p.first * 65536
  linePlace e (frame + k / 65536) (k % 65536 / 64)

/-- A part takes its place among the arrivals of a channel. -/
def putPart (x : PagedPart) : List PagedPart → List PagedPart
  | [] => [x]
  | y :: ys => if x.order < y.order then x :: y :: ys else y :: putPart x ys

/-- A part joins the queue of an engine. -/
def queuePart (s : State) (n : Nat) (x : PagedPart) : State :=
  let e := s.engOf n
  s.setEngOf n { e with queue := putPart x e.queue }

/-- Parts of an access. -/
def partsOf (va size : Nat) : List Nat := List.range (linesOf (vaOff va) size).length

/-- A request joins the queues of its channels, each of its 64-byte lines that of its own (R303, R305, R317). -/
def joinQueue (s : State) (die key id va size : Nat) : State :=
  let d := s.die die
  let s1 := s.setDie die { d with arrivals := d.arrivals + 1 }
  (partsOf va size).foldl (fun s i => queuePart s (engAtVa d die (partSpan va size i).1) ⟨d.arrivals, key, id, i⟩) s1

/-- A class of service window is open on an engine (R227). -/
def windowClass (e : EngSt) (cls : Nat) : Bool := match e.svw with | some (c, _, till) => c == cls && decide (e.now < till) | none => false

/-- Groups of the window that is open on an engine (R227). -/
def windowMask (e : EngSt) : Nat := match e.svw with | some (_, m, _) => m | none => 15

/-- Paged requests are served on an engine: in a class-0 window, or in a scrub window while more than DEMTH of them wait (R227, R317,
R401). -/
def servesPaged (e : EngSt) : Bool :=
  e.frozen.isNone && (windowClass e 0
    || (windowClass e 1 && decide (e.queue.length > bits ((e.scrubCfg.getD (BitVec.ofNat 64 (64 + 16 * 2 ^ 16))).toNat) 31 16)))

/-- A miss of the translation buffer walks the table in a window of the owner's; on which channel the table lies is not stated, so any
of them serves (R305; log 70). -/
def mustWait (s : State) (die va size : Nat) (dropped : Bool) : Bool :=
  (dropped || (gransOf (vaOff va) size).any (fun g => (tlbPage (s.die die) (g * 4096)).isNone))
    && !(List.range 128).any (fun e => servesPaged (s.engOf (engNo die e)))

/-- Space manager events of a partition that owns a die: XLAT (1) and PERM reports (2) (R306, R359, R403). -/
def tellOwner (s : State) (die bit : Nat) : State := sysEventOn s (s.partOfDie die) bit

/-- A fault of a context's request (R306, R311, R312). -/
def faultAu (s : State) (key : Nat) (r : AuReq) (cause why rag : Nat) : State :=
  if cause = 0x0C then
    let s1 := modAu s key (fun c => auHaltAt c r.seqNo)
    if vaPkg r.va = s.pkg.pkg then tellOwner s1 (vaDie r.va) 1 else s1
  else modAu s key (fun c => auFatal c r.seqNo cause why rag)

/-- Fields of a page's entry, by its first page number, changed in the table and in the buffer's copy, each of which keeps its own other
fields (R304, R318, R406). -/
def modEntry (d : DieSt) (page : Nat) (f0 f1 : Nat → Nat) : DieSt :=
  { d with
    pte := (d.pte.set (page * 2) (BitVec.ofNat 64 (f0 (pteWord d page 0)))).set (page * 2 + 1) (BitVec.ofNat 64 (f1 (pteWord d page 1)))
    tlb := match d.tlb.find page with
      | some e => d.tlb.set page (f0 e.1, f1 e.2)
      | none => d.tlb }

/-- A request from outside the contexts taken off its owner's list. -/
def dropExt (s : State) (die n : Nat) : State :=
  let d := s.die die
  s.setDie die { d with ext := d.ext.filter (fun q => q.id != n) }

/-- A MIGR has completed with a status (R318): a context's waits for its stamp, another package is answered. -/
def migrDone (s : State) (die key id status : Nat) : State :=
  if key = 0 then dropExt s die id
  else modAu s (key - 1) (fun c => auMod c id (fun x => { x with place := .performed, value := status }))

/-- A MIGR at its owner: no target, a copy begun, or the wait for the copy of its page in progress (R318). -/
def startMigr (s : State) (die key id va : Nat) : State :=
  let d := s.die die
  match seenPage d (vaOff va) with
  | none => if key = 0 then dropExt s die id else match auReqOf s (key - 1) id with | some r => faultAu s (key - 1) r 0x0C 1 0 | none => s
  | some p =>
    if bits p.w0 7 6 = 1 then s.setDie die { d with migrWait := d.migrWait ++ [(key, id)] }
    else if !bitB p.w1 24 then migrDone s die key id 1
    else
      s.setDie die { modEntry d p.first (putBits · 7 6 1) (fun w => w) with migr := d.migr ++
        [{ page := p.first, big := p.big, oldFrame := p.frame, newFrame := p.next, taken := [], copied := [], key := key, id := id }] }

/-- The owner accepts a context's request. -/
def acceptAu (s : State) (key : Nat) (r : AuReq) : State :=
  let t := modAu s key (fun c => auMod c r.seqNo (fun x => { x with place := .queued, left := partsOf r.va r.size, value := 0 }))
  if r.op = .migr then startMigr t (vaDie r.va) (key + 1) r.seqNo r.va
  else joinQueue t (vaDie r.va) (key + 1) r.seqNo r.va r.size

/-- PAGED_REQUEST_ARRIVAL of a context's request (R305). `c` is 1 where the buffer has dropped the entry; where
another package owns the page, `data` gives the cause (0 for none), WHY and RACEAG of the answer, of which bits [63:48] are reserved (R313). A remote RSTQ names no page: it performs on its arrival, and
no rule gives it a fault (DEDUCED, log 91). -/
def arriveAu (s : State) (key n : Nat) : State :=
  match auReqOf s key n with
  | none => s
  | some r =>
    let c := s.ctxOf (key / 4) (key % 4)
    if r.place != .departed || behindOther c r || behindLot s key r || ((r.op == .migr || r.op == .rstq) && behindPerform s key r) then s
    else if r.op == .rstq then placeAu s key n .performed
    else if vaPkg r.va != s.pkg.pkg then
      let cause := s.ev.data.getD 0 0
      if cause = 0x0C || cause = 0x0D || cause = 0x0E then faultAu s key r cause (s.ev.data.getD 1 0 % 16) (s.ev.data.getD 2 0 % 2 ^ 48)
      else placeAu s key n .queued
    else
      let die := vaDie r.va
      if mustWait s die r.va r.size (s.ev.c == 1) then s
      else match judge (s.die die) (accOf s key r) r.va r.size (s.ev.c == 1) with
      | .error (cause, why, rag) => faultAu s key r cause why rag
      | .ok d => acceptAu (s.setDie die d) key r

/-- A system core is given the answer of its request (R403). -/
def answerSys (s : State) (x cause v : Nat) : State :=
  let c := s.syss.getD x SysSt.reset
  { s with syss := s.syss.set x { c with ans := some (cause, v) } }

/-- A replica's owner denies a run's write, or has accepted it: it is delivered (R349, R358, R359). An answer to a run that has ended is
nobody's. -/
def answerRun (s : State) (x : Nat × Nat × Nat × Nat) (denied : Bool) : State :=
  match runOf s x.1 x.2.1 with
  | none => s
  | some r =>
    if r.serial != x.2.2.2 then s
    else putRun s x.1 { r with
      undelivered := r.undelivered - 1
      deny := if denied then r.deny ||| 2 ^ (x.2.2.1 % 64) else r.deny }

/-- A request from outside the contexts fails for good; a run's write is denied by RACE as by PERM (R359; DESIGN CHOICE, log 41). -/
def failExt (s : State) (die : Nat) (q : ExtReq) (cause why : Nat) : State :=
  let s1 := dropExt s die q.id
  match q.run, q.sys with
  | some x, _ => if vaPkg q.va = s.pkg.pkg then tellOwner (answerRun s1 x true) die 2 else answerRun s1 x true
  | none, some n => answerSys s1 n cause why
  | none, none => s1

/-- The runs of a request from outside the contexts that order it: none, or the runs of one group on one engine, since those of different groups
have no order (R344). -/
def ExtReq.line (q : ExtReq) : Option (Nat × Nat) := q.run.map (fun x => (x.1, x.2.1))

/-- An earlier request of the same source waits at this owner (R306, R344, R359); `all` counts those that it has accepted too, a MIGR until its copy begins. -/
def extBehind (d : DieSt) (q : ExtReq) (all : Bool) : Bool :=
  d.ext.any (fun x => (all && (x.op != .migr || migrWaits d 0 x.id) || !x.queued) && decide (x.id < q.id) && x.agent == q.agent && x.line == q.line)

/-- The owner accepts a request from outside the contexts; a run's write is delivered (R349). -/
def acceptExt (s : State) (die : Nat) (q : ExtReq) : State :=
  let d := s.die die
  let s1 := s.setDie die { d with ext := d.ext.map (fun x => if x.id == q.id then { x with queued := true, left := partsOf q.va q.size } else x) }
  match q.run with
  | some x => answerRun s1 x false
  | none => s1

/-- PAGED_REQUEST_ARRIVAL of a request that comes from no context's sequence: of a system core, of a run, or from another package. The write of a
run waits for no walk: it is accepted though the owner's engines stand in a hold (R358; log 70). -/
def arriveExt (s : State) (die n : Nat) : State :=
  let d := s.die die
  match d.ext.find? (fun q => q.id == n) with
  | none => s
  | some q =>
    if q.queued || extBehind d q (q.op == .migr) then s
    else if vaPkg q.va != s.pkg.pkg then
      let cause := s.ev.data.getD 0 0
      if cause = 0 then acceptExt s die q
      else failExt s die q cause (s.ev.data.getD 1 0)
    else
      if q.run.isNone && mustWait s die q.va q.size (s.ev.c == 1) then s
      else match judge d (extAcc q) q.va q.size (s.ev.c == 1) with
      | .error (cause, why, _) => if cause = 0x0C then tellOwner s die 1 else failExt s die q cause why
      | .ok d1 =>
        let t := acceptExt (s.setDie die d1) die q
        if q.op == .migr then startMigr t die 0 n q.va else joinQueue t die 0 n q.va q.size

/-- The mark that comes with data of another package (R398). -/
def farMark (c : Nat) : Option Nat := if c = 0 then none else some ((c - 1) % 2 ^ 12)

/-- A request of another package comes to this package's owner: operation, address, size, agent, partition base, stamps, key, operands
(R305, R314); `c` gives its data's mark. -/
def foreignReq (s : State) : State :=
  match s.ev.data with
  | [op, va, size, agent, pbase, ph, ssn, key, v, cas] =>
    let die := vaDie va
    let d := s.die die
    let o : AuOp := match op with | 0 => .load | 1 => .fill | 2 => .store | 3 => .atomic | 4 => .touch | _ => .migr
    let q : ExtReq :=
      { id := s.free, op := o, va := va, size := size, agent := agent, pbase := pbase, ph := ph, ssn := ssn, key := key, value := v,
        cas := if cas = 0 then none else some (cas - 1), run := none, sys := none, queued := false, left := [], poison := farMark s.ev.c }
    { s with free := s.free + 1 }.setDie die { d with ext := d.ext ++ [q] }
  | _ => s

/-- A remote RSTQ of another package reaches a core of a pod task (R291, R327, R332): core, slot, address, bank code, value, tag, package and source
core. It never matches a slot (R292). -/
def foreignWord (s : State) : State :=
  match s.ev.data with
  | [core, slot, addr, perm, v, tag, pkg, src] =>
    let d := s.dom (s.partOfDie (core / 32)) slot
    if (d.task.map (fun t => t.podn != 0 && t.cores.contains core)).getD false && pkg != s.pkg.pkg && addr % 8 == 0 && decide (perm ≤ 4) then
      sendArrival s core { slot := slot, due := d.tb, issue := none, src := none, srcOrder := 2 ^ 17 + pkg % 64 * 256 + src % 256, addr := addr % 2 ^ 23,
                           perm := perm, data := bytesOf 8 v, tag := some (tag % 2 ^ 16), poison := farMark s.ev.c, run := none, bar := none, wall := 0, gap := false, came := 0 }
    else s
  | _ => s

/-- PAGED_REQUEST_ARRIVAL (R305): of a context's request (`d` = 0), of another of this package (1), a request of another package (2), or its
remote RSTQ (3). -/
def execPagedRequestArrival (s : State) : Host.Outcome State Fault Refusal :=
  match s.ev.d with
  | 0 => .next (arriveAu s s.ev.a s.ev.b)
  | 1 => .next (arriveExt s s.ev.a s.ev.b)
  | 2 => .next (foreignReq s)
  | _ => .next (foreignWord s)

/-! ## Performance (R290, R317, R318) -/

/-- A request delivers nothing once it has performed: a touch (R308), or a paged atomic of phase 0 that departed as its core halted (R290). -/
def AuReq.silent (r : AuReq) : Bool := r.op == .touch || (r.op == .atomic && r.phase == 0 && r.stampPh == 0)

/-- A line of a context's request performs: a load takes its bytes, a store writes them, an atomic does both, and with the last line the
request has performed (R290, R309, R317). A request that was struck on its way marks what it stores and what it returns (R397, R398). -/
def performAu (s : State) (key : Nat) (r : AuReq) (part : Nat) : State :=
  let die := vaDie r.va
  let (off, len) := partSpan r.va r.size part
  let at' := off - vaOff r.va
  let old := ofBytes (pageRead s die off len)
  let p := linePoison (s.die die) off len
  let done (s : State) (v : Nat) (poison : Option Nat) : State :=
    modAu s key (fun c => releaseLoads (auMod c r.seqNo (fun x =>
      let left := x.left.erase part
      { x with left := left, value := x.value + v * 2 ^ (8 * at'), poison := mergePoison x.poison poison
               place := if left.isEmpty then (if x.silent then .landed else .performed) else x.place })))
  match r.op with
  | .store => done (markLines (pageWrite s die off (bytesOf len (r.b0.toNat / 2 ^ (8 * at')))) die off len r.poison) 0 none
  | .atomic => done (markLines (pageWrite s die off (bytesOf 8 (pagedNew old r.b0.toNat r.b1.toNat r.cas))) die off len r.poison) old p
  | .touch => done s 0 none
  | _ => done s old p

/-- The turn of a waiting line has come: its request still wants it, and no earlier request of its source to this owner has still to perform
(R306, R307, R333, R359). -/
def partTurn (s : State) (n : Nat) (x : PagedPart) : Bool :=
  if x.key = 0 then
    let d := s.die (engDie n)
    (d.ext.find? (fun q => q.id == x.id)).any (fun q => q.left.contains x.part && !extBehind d q true)
  else (auReqOf s (x.key - 1) x.id).any (fun r =>
    r.place == .queued && r.left.contains x.part && !behindPerform s (x.key - 1) r)

/-- The column commands that an access needs: a load reads, a store writes, an atomic does both (R217). -/
def AuOp.cols : AuOp → List Bool
  | .store => [true]
  | .atomic => [false, true]
  | _ => [false]

/-- Operation, offset and length of a waiting line. -/
def partOp (s : State) (die : Nat) (x : PagedPart) : Option (AuOp × Nat × Nat) :=
  let op := if x.key = 0 then ((s.die die).ext.find? (fun q => q.id == x.id)).map (·.op) else (auReqOf s (x.key - 1) x.id).map (·.op)
  match op, queuedReq s die x.key x.id with
  | some o, some r => some (o, partSpan r.1 r.2 x.part)
  | _, _ => none

/-- Two waiting lines have a byte in common, and one of them writes it (R335). -/
def partsMeet (s : State) (die : Nat) (x y : PagedPart) : Bool :=
  match partOp s die x, partOp s die y with
  | some (o, a, n), some (o', b, m) => decide (a < b + m ∧ b < a + n) && (o.cols.contains true || o'.cols.contains true)
  | _, _ => false

/-- A waiting line's request comes before another's in their source's sequence at this owner (R306, R333, R344). -/
def sameSource (d : DieSt) (x y : PagedPart) : Bool :=
  if x.key = 0 then
    match d.ext.find? (fun q => q.id == x.id), d.ext.find? (fun q => q.id == y.id) with
    | some p, some q => y.key == 0 && decide (p.id < q.id) && p.agent == q.agent && p.line == q.line
    | _, _ => false
  else x.key == y.key && decide (x.id < y.id)

/-- The waiting line `y` is to perform after `x`: by its source's sequence, or by the order in which two that meet have arrived (R306, R333, R335). -/
def partAfter (s : State) (die : Nat) (y x : PagedPart) : Bool :=
  sameSource (s.die die) x y || (decide (x.order < y.order) && partsMeet s die x y)

/-- The waiting lines of a die. -/
def dieParts (s : State) (die : Nat) : List PagedPart := (List.range 128).flatMap (fun e => (s.engOf (engNo die e)).queue)

/-- The waiting lines after which those of `xs` are to perform, through at most `n` others. -/
def partsBefore (s : State) (die : Nat) (all : List PagedPart) : Nat → List PagedPart → List PagedPart
  | 0, xs => xs
  | n + 1, xs => partsBefore s die all n (xs ++ all.filter (fun x => !xs.contains x && xs.any (fun y => partAfter s die y x)))

/-- A line that arrived earlier and has a byte in common with `y`, one of them writing it, has still to perform: `y` waits for it, so that the accesses to a
location follow their arrival (R317, R335, R337). Where the line that arrived earlier is itself to wait for `y`, through the sequence of its source, that
sequence is kept (DEDUCED, log 69). -/
def partKept (s : State) (n : Nat) (y : PagedPart) : Bool :=
  let die := engDie n
  (s.engOf n).queue.any (fun x => decide (x.order < y.order) && partsMeet s die x y
    && !(partsBefore s die (dieParts s die) (dieParts s die).length [x]).contains y)

/-- What an engine's window must do for a waiting line: bank, row and column commands (R227, R303). -/
def partCols (s : State) (n : Nat) (x : PagedPart) : Option (Nat × Nat × List Bool) :=
  let d := s.die (engDie n)
  (partOp s (engDie n) x).bind (fun r => (seenPage d r.2.1).map (fun p =>
    let a := offPlace (s.engOf n) p p.frame r.2.1
    (a.1, a.2.1, r.1.cols)))

/-- A waiting line's bank lies in the groups of the window (R227). -/
def partMasked (s : State) (n : Nat) (x : PagedPart) : Bool := (partCols s n x).any (fun a => bitB (windowMask (s.engOf n)) (group a.1))

/-- The engine once its window has issued the commands of a waiting line, the first column on this cycle (R217, R218, R227). -/
def partServe (s : State) (n : Nat) (x : PagedPart) : Option EngSt :=
  (partCols s n x).bind (fun a => svcServe (s.engOf n) a.1 a.2.1 a.2.2 true)

/-- A line of a request from outside the contexts performs, and with the last its source is answered. A request that was struck on its way, or came marked,
marks what it writes (R397, R398). -/
def performExt (s : State) (die : Nat) (q : ExtReq) (part : Nat) : State :=
  let (off, len) := partSpan q.va q.size part
  let old := ofBytes (pageRead s die off len)
  let at' := off - vaOff q.va
  let got := match q.op with
    | .load => q.value + old * 2 ^ (8 * at')
    | .store => q.value
    | _ => old
  let s1 := match q.op with
    | .store => markLines (pageWrite s die off (bytesOf len (q.value / 2 ^ (8 * at')))) die off len q.poison
    | .atomic => markLines (pageWrite s die off (bytesOf 8 (pagedNew old q.value (q.cas.getD 0) q.cas.isSome))) die off len q.poison
    | _ => s
  let left := q.left.erase part
  if left.isEmpty then
    match q.sys with
    | some n => answerSys (dropExt s1 die q.id) n 0 got
    | none => dropExt s1 die q.id
  else
    let d := s1.die die
    s1.setDie die { d with ext := d.ext.map (fun x => if x.id == q.id then
      { x with left := left, value := if x.op = .load then got else x.value } else x) }

/-- A far owner has performed a context's request, in its turn; `data` holds a load's or an atomic's bytes, `c` their mark plus one, 0 where there is
none (R398). -/
def performFar (s : State) (key n : Nat) : State :=
  match auReqOf s key n with
  | none => s
  | some r =>
    if r.place != .queued || vaPkg r.va == s.pkg.pkg || behindPerform s key r then s
    else
      modAu s key (fun c => releaseLoads (auMod c n (fun x =>
        { x with place := if x.silent then .landed else .performed, poison := mergePoison x.poison (farMark s.ev.c), value := ofByteNats ((s.ev.data.map (· % 256)).take r.size) })))

/-- A far owner has performed another request. -/
def performFarExt (s : State) (die n : Nat) : State :=
  match (s.die die).ext.find? (fun q => q.id == n) with
  | none => s
  | some q =>
    if !q.queued || vaPkg q.va == s.pkg.pkg then s
    else
      let s1 := dropExt s die n
      match q.sys with
      | some m => answerSys s1 m 0 (ofByteNats ((s.ev.data.map (· % 256)).take q.size))
      | none => s1

/-- A command of the window of engine `n` at a place of a line in a frame, where the engine holds that place (R218, R227, R303). -/
def copyServe (e : EngSt) (n : Nat) (page : Page) (frame off : Nat) (wr : Bool) : Option EngSt :=
  if engOfLine (engDie n) page frame off = n then
    let a := offPlace e page frame off
    svcServe e a.1 a.2.1 [wr] false
  else none

/-- The WR of a store to the new place of its line, where a migration has copied it, in a window of that place's channel; where none serves it, the line
counts as read again, and is copied anew (R206, R227, R318; DEDUCED, log 69). -/
def secondWrite (s : State) (die off : Nat) : State :=
  let d := s.die die
  match seenPage d off with
  | none => s
  | some p =>
    match d.migr.find? (fun m => m.page == p.first && m.copied.contains (off / 64)) with
    | none => s
    | some m =>
      let n := engOfLine die p m.newFrame off
      match (if servesPaged (s.engOf n) then copyServe (s.engOf n) n p m.newFrame off true else none) with
      | some e => s.setEngOf n e
      | none => s.setDie die { d with migr := d.migr.map (fun (x : Migr) =>
          if x.page = m.page then { x with copied := x.copied.erase (off / 64) } else x) }

/-- The second write of a waiting line that writes. -/
def alsoNew (s : State) (die : Nat) (x : PagedPart) : State :=
  match partOp s die x with
  | some (op, off, _) => if op.cols.contains true then secondWrite s die off else s
  | none => s

/-- The oldest line in the queue of engine `n` whose turn has come and whose bank the window serves performs, once R218 lets its column command issue
(R227, R317). One that has still to wait for an earlier request of its own source lets those behind it go that do not meet it (DEDUCED, log 69). -/
def performHead (s : State) (n : Nat) : State :=
  match (if servesPaged (s.engOf n) then (s.engOf n).queue.find? (fun x => partTurn s n x && partMasked s n x && !partKept s n x) else none) with
  | none => s
  | some x => match partServe s n x with
    | none => s
    | some e =>
    let s1 := alsoNew (s.setEngOf n { e with queue := e.queue.erase x, paged := min (e.paged + 1) 0xFFFFFFFF }) (engDie n) x
    if x.key = 0 then
      match (s1.die (engDie n)).ext.find? (fun q => q.id == x.id) with
      | some q => performExt s1 (engDie n) q x.part
      | none => s1
    else
      match auReqOf s1 (x.key - 1) x.id with
      | some r => performAu s1 (x.key - 1) r x.part
      | none => s1

/-- PAGED_REQUEST_PERFORM at engine `a` (`d` = 0), or at another package's owner, of a context's request (1) or of another (2) (R317). -/
def execPagedRequestPerform (s : State) : Host.Outcome State Fault Refusal :=
  match s.ev.d with
  | 0 => .next (performHead s s.ev.a)
  | 1 => .next (performFar s s.ev.a s.ev.b)
  | _ => .next (performFarExt s s.ev.a s.ev.b)

/-! ## Answers of the space manager (R306, R311) -/

/-- The answer to a context's halted request: retry (`c` = 0) or fatal (1). -/
def answerAu (s : State) (key : Nat) (fatal : Bool) : State :=
  match (s.ctxOf (key / 4) (key % 4)).auHalt with
  | none => s
  | some n =>
    modAu s key (fun c => if fatal then auFatal c n 0x0C 1 0 else auRestart c)

/-- SPACE_MANAGER_ANSWER: retry (`c` = 0) or fatal (1), to context `a` (`d` = 0) or to request `b` at die `a` (1) (R306, R311, R359). -/
def execSpaceManagerAnswer (s : State) : Host.Outcome State Fault Refusal :=
  match s.ev.d with
  | 0 => .next (answerAu s s.ev.a (s.ev.c == 1))
  | _ =>
    match (s.die s.ev.a).ext.find? (fun q => q.id == s.ev.b) with
    | some q => if s.ev.c = 1 && !q.queued then .next (failExt s s.ev.a q 0x0C 1) else .next s
    | none => .next s

/-! ## Migration (R318) -/

/-- MIGR_COMPLETION of request `b` of context `a`: stamped with the context's TB (R318). A completion of a faulted MIGR has status 2
(R313). -/
def execMigrCompletion (s : State) : Host.Outcome State Fault Refusal :=
  match auReqOf s s.ev.a s.ev.b with
  | none => .next s
  | some r =>
    let c := s.ctxOf (s.ev.a / 4) (s.ev.a % 4)
    let stamp (st : Nat) : List (Nat × Nat × Nat × Nat) := c.migrs ++ [(c.now, c.release + bits r.b0.toNat 31 0, st, 0)]
    if r.op != .migr || r.ahead == 1 then .next s
    else if r.place == .performed then
      .next (modAu s s.ev.a (fun c => auMod { c with migrs := stamp r.value } r.seqNo (fun x => { x with place := .landed })))
    else if (r.place == .faulted || r.place == .delivered) && r.value = 0 then
      .next (modAu s s.ev.a (fun c => auMod { c with migrs := stamp 2 } r.seqNo (fun x => { x with value := 2 })))
    else .next s

/-- Lines of a migrating page. -/
def migrLines (m : Migr) : List Nat := (List.range ((if m.big then 2 ^ 21 else 2 ^ 16) / 64)).map (fun i => m.page * 1024 + i)

/-- The work of the window of engine `n` for a line, with the lines read so far and those written here: the RD of its old place, and, once it has been
read, the WR of its new one, each in a window of the channel that holds the place (R206, R227, R303, R318). -/
def copyStep (n : Nat) (page : Page) (m : Migr) (r : EngSt × List Nat × List Nat) (l : Nat) : EngSt × List Nat × List Nat :=
  let r1 := match (if r.2.1.contains l then none else copyServe r.1 n page m.oldFrame (l * 64) false) with
    | some e => (e, r.2.1 ++ [l], r.2.2)
    | none => r
  match (if r1.2.1.contains l then copyServe r1.1 n page m.newFrame (l * 64) true else none) with
  | some e => (e, r1.2.1, r1.2.2 ++ [l])
  | none => r1

/-- MIGRATION_LINE_COPY at die `a`: of the lines in `data` of page `c`, those whose old place engine `b` holds are read, and those read whose new place it
holds are copied, as far as its class-2 window has room (R227, R303, R318). A line read holds what later stores put into its old place, and its mark goes
with its copy (R398; DEDUCED, log 69). -/
def execMigrationLineCopy (s : State) : Host.Outcome State Fault Refusal :=
  let d := s.die s.ev.a
  match d.migr.find? (fun m => m.page == s.ev.c) with
  | none => .next s
  | some m =>
    let e := s.engOf s.ev.b
    if engDie s.ev.b != s.ev.a || !windowClass e 2 || e.frozen.isSome then .next s
    else
      let all := migrLines m
      let page : Page := ⟨m.page, m.big, 0, 0⟩
      let here (l : Nat) : Bool := engOfLine s.ev.a page m.oldFrame (l * 64) == s.ev.b || engOfLine s.ev.a page m.newFrame (l * 64) == s.ev.b
      let asked := ((s.ev.data.map (fun i => m.page * 1024 + i)).filter (fun l => all.contains l && !m.copied.contains l && here l)).dedup
      let (e1, read, ls) := asked.foldl (copyStep s.ev.b page m) (e, m.taken, [])
      let mem := ls.foldl (fun mem l => Memory.writeN mem (physAt s.ev.a page m.newFrame (l * 64))
        (Memory.readN mem 64 (physAt s.ev.a page m.oldFrame (l * 64)))) s.mem
      let marks := ls.foldl (fun q l => setMark q (lineOf page m.newFrame (l * 64)) true (d.pagePoison.find (lineOf page m.oldFrame (l * 64)))) d.pagePoison
      .next (({ s with mem := mem }.setEngOf s.ev.b e1).setDie s.ev.a { d with
        migr := d.migr.map (fun (x : Migr) => if x.page = m.page then { x with taken := read, copied := x.copied ++ ls } else x), pagePoison := marks })

/-- The lines of a page that wait move, in arrival order, to the channels that hold it now (R303, R317, R318). -/
def requeue (s : State) (die : Nat) (p : Page) : State :=
  let off (x : PagedPart) : Option Nat := (queuedReq s die x.key x.id).map (fun r => (partSpan r.1 r.2 x.part).1)
  let mine (x : PagedPart) : Bool := (off x).any p.holds
  let ns := (List.range 128).map (engNo die)
  let xs := ns.flatMap (fun n => (s.engOf n).queue.filter mine)
  let s1 := ns.foldl (fun s n => if (s.engOf n).queue.any mine then s.setEngOf n { s.engOf n with queue := (s.engOf n).queue.filter (fun x => !mine x) } else s) s
  xs.foldl (fun s x => queuePart s (engOfLine die p p.frame ((off x).getD 0)) x) s1

/-- MIGRATION_COPY_END of page `c` at die `a`: FRAME, NXV and MST change together, and the MIGRs of the page that wait start (R318). -/
def execMigrationCopyEnd (s : State) : Host.Outcome State Fault Refusal :=
  let d := s.die s.ev.a
  match d.migr.find? (fun m => m.page == s.ev.c) with
  | none => .next s
  | some m =>
    if !(migrLines m).all (fun l => m.copied.contains l) then .next s
    else
      let d1 := modEntry d m.page (fun w => putBits (putBits w 31 8 m.newFrame) 7 6 0) (putBits · 24 24 0)
      let page : Page := ⟨m.page, m.big, pteWord d1 m.page 0, pteWord d1 m.page 1⟩
      let inPage (x : Nat × Nat) : Bool := (queuedReq s s.ev.a x.1 x.2).any (fun r => page.holds (vaOff r.1))
      let s1 := s.setDie s.ev.a { d1 with
        migr := d.migr.filter (fun x => x.page != m.page), migrWait := d.migrWait.filter (fun x => !inPage x) }
      let s2 := migrDone (requeue s1 s.ev.a page) s.ev.a m.key m.id 0
      .next ((d.migrWait.filter inPage).foldl (fun s x => match queuedReq s s.ev.a x.1 x.2 with
        | some r => startMigr s s.ev.a x.1 x.2 r.1
        | none => s) s2)

end Sys2Proof.Machine
end

