-- ==== Sys2Proof/Machine/EngineEvents.lean ====
section
/-! DEFINITION. The events of a memory command engine: arrivals of instructions (R220, R231–R236), the start of a table (R234), refresh
ticks and standing refresh (R224, R225), the end of a window (R228), the hold keeper (R229, R230) and scrubbing (R400, R401). The
engine is the current one, or `a`. -/

namespace Sys2Proof.Machine

/-! ## Arrivals (R220, R232–R235) -/

/-- The `c`-th message at the current engine, due now. -/
def msgAt (s : State) (fn : Nat) : Option McMsg :=
  match s.eng.inbox[s.ev.c]? with
  | some m => if m.fn == fn && m.due == s.eng.now then some m else none
  | none => none

/-- A message taken. -/
def dropMsg (s : State) : State := s.modEng (fun e => { e with inbox := e.inbox.eraseIdx s.ev.c })

/-- MCBIND_ARRIVAL (R232). -/
def execMcbindArrival (s : State) : Host.Outcome State Fault Refusal :=
  match msgAt s 3 with
  | none => .next s
  | some m => .next ((dropMsg s).modEng (fun e => e.setCursor (bits m.a 9 8) ⟨true, bits m.b 31 24, bits m.b 22 0⟩))

/-- The cycle from which an accepted table is held (R233). Where its core stands frozen before the last row's read, the engine holds the table on the next cycle
that it executes once the row has come (DEDUCED, log 97). -/
def mcbaseHeld (m : McMsg) : Nat := m.due + bits m.b 27 23

/-- MCBASE_ARRIVAL (R233): accepted on its arrival, or MEMTIME 0x09; the table memory is replaced when its last row has come. -/
def execMcbaseArrival (s : State) : Host.Outcome State Fault Refusal :=
  match msgAt s 2, s.eng.inbox[s.ev.c]? with
  | some m, _ =>
    if s.eng.busy then .next (memTrap s 0x09 0 0 0 (some m.core))
    else .next (s.modEng (fun e => { e with inbox := e.inbox.modify s.ev.c (fun m => { m with fn := mcbaseAccepted }) }))
  | none, some m =>
    if m.fn == mcbaseAccepted && decide (mcbaseHeld m ≤ s.eng.now) && m.words.length == 32 * (bits m.b 27 23 + 1) then
      .next ((dropMsg s).modEng (fun e => { e with
        table := (m.words.zipIdx).map (fun w => (w.2, w.1)), loaded := m.words.length, badWords := [] }))
    else .next s
  | none, none => .next s

/-- MCSTART_ARRIVAL (R234). -/
def execMcstartArrival (s : State) : Host.Outcome State Fault Refusal :=
  match msgAt s 0 with
  | none => .next s
  | some m =>
    if s.eng.busy then .next (memTrap s 0x09 0 0 0 (some m.core))
    else
      .next ((dropMsg s).modEng (startedBy (engPart s s.curEng) m))

/-- The table of a stopped engine ends once PREA may issue (R235), its PC and loops cleared as END clears them (DESIGN CHOICE, log 40). A service
window that is open then stays open to its end, and PREA issues in it (DESIGN CHOICE, log 103). -/
def stopNow (s : State) : State :=
  let e := s.eng
  if e.stopping && (failing e.now (needPrea e)).isNone then
    s.modEng (fun e => { closeAll e with st := .idle, stopping := false, pc := 0, left0 := 0, left1 := 0, act0 := false, act1 := false })
  else s

/-- MCSTOP_ARRIVAL (R235): the engine stops before its next word and issues PREA on the first cycle that permits it. Without a message, the
wait of a stopped engine for that cycle. -/
def execMcstopArrival (s : State) : Host.Outcome State Fault Refusal :=
  match msgAt s 1 with
  | none => .next (stopNow s)
  | some _ => .next (stopEngine (dropMsg s) s.curEng)

/-! ## The start of a table (R234) -/

def execTableStart (s : State) : Host.Outcome State Fault Refusal :=
  let e := s.eng
  if e.st == .started && !e.stopping && e.now == engTb0 s s.curEng + e.start then
    if e.loaded = 0 then .next (memTrap s 0x09 0 0 0) else .next (s.modEng (fun e => { e with st := .running }))
  else .next s

/-! ## Refresh (R224, R225) -/

/-- A cycle is TB0 + k·n for some k ≥ 1; k. There is none before TB0 is formed. -/
def tickOf (tb0 : Option Nat) (n now : Nat) : Option Nat :=
  match tb0 with
  | none => none
  | some t => if n != 0 && decide (t < now) && (now - t) % n == 0 then some ((now - t) / n) else none

/-- REFRESH_TICK (R224). -/
def execRefreshTick (s : State) : Host.Outcome State Fault Refusal :=
  let e := s.eng
  match tickOf (engTb0? s s.curEng) e.tREFI e.now with
  | none => .next s
  | some _ =>
    match (List.range 16).find? (fun b => decide (e.owe b + 1 > (e.maxPost : Int))) with
    | some b => .next (memTrap s 0x03 0 b 0)
    | none => .next (s.modEng (fun e => { e with
        owed := (List.range 16).foldl (fun m b => NMap.set m b (e.owe b + 1)) e.owed, ticks := e.ticks + 1 }))

/-- STANDING_REFRESH (R225). -/
def execStandingRefresh (s : State) : Host.Outcome State Fault Refusal :=
  let e := s.eng
  match tickOf (engTb0? s s.curEng) e.tREFIpb e.now with
  | none => .next s
  | some k =>
    let b := k % 16
    if (e.st == .idle || e.st == .started) && !e.isOpen b && (failing e.now (needRefpb e b)).isNone && !tooFar e b then
      .next (s.modEng (fun e => { refreshBank s.wb e b with standing := e.standing + 1 }))
    else .next s

/-! ## Windows (R228) -/

/-- SVW_END: the window is over, and its groups' banks are closed (R228). -/
def execSvwEnd (s : State) : Host.Outcome State Fault Refusal :=
  match s.eng.svw with
  | none => .next s
  | some (_, _, till) => if till ≤ s.eng.now then .next (s.modEng (fun e => { e with svw := none })) else .next s

/-! ## Errors and scrubbing (R400, R401) -/

/-- SBASE and DEMTH of a channel (R401, R407). -/
def scrubWord (e : EngSt) : Nat := (e.scrubCfg.getD (BitVec.ofNat 64 (64 + 16 * 2 ^ 16))).toNat

/-- Rows that a channel scrubs in 2^20 wall cycles: SBASE · m_T · m_E (R401). -/
def scrubTarget (wb : Nat) (e : EngSt) (stack : Nat) : Nat :=
  let t := Config.stackTemp wb stack
  let mT := if t < 85 then 1 else if t ≤ 95 then 2 else 4
  let errs := (e.corrected.filter (fun w => decide (wb < w + 2 ^ 30))).length
  bits (scrubWord e) 15 0 * mT * (1 + min 7 (errs / 4))

/-- Rows scrubbed in the present period of 2^20 wall cycles; the periods are the model's (DESIGN CHOICE, log 83). -/
def scrubbed (wb : Nat) (e : EngSt) : Nat := if e.scrubPace.1 = wb / 2 ^ 20 then e.scrubPace.2 else 0

/-- The target rate leaves room for a step (R401). -/
def scrubRoom (s : State) (n : Nat) : Bool := decide (scrubbed s.wb (s.engOf n) < scrubTarget s.wb (s.engOf n) (n / 64))

/-- The row that a channel scrubs next, in a bank of the groups of a mask (R227, R401). -/
def nextRow (e : EngSt) (mask : Nat) : Nat :=
  let bank := e.scrubRow / 2 ^ 16 % 16
  match ((List.range 16).map (fun k => (bank + k) % 16)).find? (fun b => bitB mask (group b)) with
  | some b => if b = bank then e.scrubRow % 2 ^ 20 else b * 2 ^ 16
  | none => e.scrubRow % 2 ^ 20

/-- Corrected errors of a channel, those of the last 2^30 wall cycles and `k` more (R401). -/
def noteCorrected (wb : Nat) (e : EngSt) (k : Nat) : EngSt :=
  { e with corrected := e.corrected.filter (fun w => decide (wb < w + 2 ^ 30)) ++ List.replicate k wb }

/-- The lines of the frames of its die, by frame · 1024 and line, that a column of engine `n` holds (R303, R405). -/
def columnLines (s : State) (n key : Nat) : List Nat :=
  let die := engDie n
  let p := s.partOfDie die
  let q := s.part p
  ((List.range (1024 * q.frames.getD (die - p) 0)).map (fun i => 1024 * q.frame0.getD (die - p) 0 + i)).filter (fun l =>
    let a := linePlace (s.engOf n) (l / 1024) (l % 1024)
    engNo die ((l / 1024 + l % 1024) % 128) == n && colKey a.1 a.2.1 a.2.2 == key)

/-- A column of engine `n` gets a mark, and so does the line of a frame that lies in it (R398, R401). -/
def markColumn (s : State) (n key tag : Nat) : State :=
  let e := s.engOf n
  let d := s.die (engDie n)
  (s.setEngOf n { e with poison := e.poison.set key tag }).setDie (engDie n) { d with
    pagePoison := (columnLines s n key).foldl (fun m l => NMap.set m l tag) d.pagePoison }

/-- One row of a channel scrubbed, in a bank of the groups of a mask: the columns of `good` were corrected and written back, those of
`bad` get the poison pattern, each with an error record of its place (R398, R400, R401). -/
def scrubRow (s : State) (n mask : Nat) (good bad : List Nat) : State :=
  let e := s.engOf n
  let at0 := nextRow e mask
  let p := engPart s n
  let key (col : Nat) : Nat := colKey (at0 / 2 ^ 16) (at0 % 2 ^ 16) col
  let gs := (good.filter (· < 16)).dedup
  let s1 := s.setEngOf n { noteCorrected s.wb e gs.length with
    scrubRow := (at0 + 1) % 2 ^ 20, scrubPace := (s.wb / 2 ^ 20, scrubbed s.wb e + 1) }
  let s2 := gs.foldl (fun s col => (addError s p 0 (key col + n * 2 ^ 24) false).2) s1
  ((bad.filter (· < 16)).dedup).foldl (fun s col =>
    let r := addError s p 0 (key col + n * 2 ^ 24) true
    markColumn r.2 n (key col) r.1) s2

/-- Columns of an event's list that a scrub corrects, and those that it finds uncorrectable: column · 2 + 1 for the latter. -/
def goodCols (xs : List Nat) : List Nat := (xs.filter (fun x => x % 2 == 0)).map (· / 2)
def badCols (xs : List Nat) : List Nat := (xs.filter (fun x => x % 2 == 1)).map (· / 2)

/-- How many columns an event's list has written back. -/
def colsBack (xs : List Nat) : Nat := ((xs.filter (· < 32)).map (· / 2)).dedup.length

/-- The engine once its window has issued a scrub step's 16 RDs and the WRs of the columns in error, or nothing where they do not fit (R218, R227,
R401). -/
def scrubServe (e : EngSt) (errs : List Nat) : Option EngSt :=
  let at0 := nextRow e (windowMask e)
  svcServe e (at0 / 2 ^ 16) (at0 % 2 ^ 16) (List.replicate 16 false ++ List.replicate (colsBack errs) true) false

/-- SCRUB_STEP at engine `a`, in a scrub window that is not left to paged requests and has room for a step (R227, R401); `data` names the columns
in error. -/
def execScrubStep (s : State) : Host.Outcome State Fault Refusal :=
  let e := s.engOf s.ev.a
  if windowClass e 1 && e.frozen.isNone && decide (e.queue.length ≤ bits (scrubWord e) 31 16) && scrubRoom s s.ev.a then
    match scrubServe e s.ev.data with
    | some f => .next (scrubRow (s.setEngOf s.ev.a f) s.ev.a (windowMask e) (goodCols s.ev.data) (badCols s.ev.data))
    | none => .next s
  else .next s

/-! ## The hold keeper (R226, R227, R229, R230) -/

/-- Cycles from now to the latest of some requirements. -/
def untilMet (e : EngSt) (ns : List Need) : Nat := (ns.map (fun n => n.2.2 - e.now)).foldl max 0

/-- Wall cycles until the banks of a frozen engine, as `e` sees them, are closed and idle, the open ones closed on the first cycle that R218 permits (R229). -/
def closeView (e : EngSt) : Nat :=
  max ((e.openBanks.map (fun b => untilMet e (needPre e b) + e.tRP)).foldl max 0)
    (untilMet e (((List.range 16).filter (fun b => !e.isOpen b)).flatMap (needIdle e) ++ need 16 0 e.refAll e.tRFCab))

/-- Wall cycles until a frozen engine's banks are closed and idle: those of the table, and of a window that the freeze has cut, whose commands in flight
complete and whose rows are closed too (R228, R229). -/
def closeTime (e : EngSt) : Nat := max (closeView e) (if windowOpen e then closeView (svcView e) else 0)

/-- A keeper begins: it records the table's open banks and closes every bank; a window that goes on after the release finds its rows closed (R228). A freeze
counts once in HOLDS (R229, R236). -/
def keeperEnter (wb : Nat) (e : EngSt) : EngSt :=
  { e with keeper := 1, saved := e.rows, busyTill := max e.busyTill (wb + closeTime e), svc := { e.svc with rows := e.rows }
           holds := if e.keeper = 0 then min (e.holds + 1) 0xFFFFFFFF else e.holds }

/-- A frozen engine's keeper has still to begin, or to begin again. -/
def keeperNew (e : EngSt) : Bool := e.frozen.isSome && (e.keeper == 0 || e.keeper == 5)

/-- KEEPER_ENTRY of the engines in `data`: the open banks are recorded and closed (R229). -/
def execKeeperEntry (s : State) : Host.Outcome State Fault Refusal :=
  .next { s with engs := s.ev.data.foldl (fun m n =>
    let e := NMap.getD m n EngSt.reset
    if keeperNew e then NMap.set m n (keeperEnter s.wb e) else m) s.engs }

/-- A keeper owes a REFAB and may issue it on wall cycle `wb` (R226, R229). -/
def refabDue (wb : Nat) (e : EngSt) : Bool := e.frozen.isSome && e.keeper == 1 && decide (0 < e.hw) && decide (e.busyTill ≤ wb)

/-- −MAXPOST·tREFI, which no REFAB of the keeper takes HW below (R226). -/
def hwLeast (e : EngSt) : Int := -((e.maxPost * e.tREFI : Nat) : Int)

/-- The engine as its window sees the banks, once it has closed those it opened (R218, R228). -/
def closedView (e : EngSt) : EngSt := (List.range 16).foldl (svcShut e.now) (svcView e)

/-- The cycle on which a class-3 window over every bank may issue its next REFAB, where it has room for one that lowers HW (R226, R227). -/
def windowRefabAt (e : EngSt) : Option Nat :=
  let c := firstMet e.now (needRefab (closedView e))
  match e.svw with
  | some (_, _, till) =>
    if e.frozen.isNone && windowClass e 3 && windowMask e % 16 == 15 && decide (c + e.tRFCab ≤ till)
      && decide (hwLeast e ≤ e.hw - (e.tREFI : Int)) then some c else none
  | none => none

/-- A class-3 window issues a REFAB on the engine's cycle. -/
def windowRefab (wb : Nat) (e : EngSt) : Bool := windowRefabAt e == some e.now && decide (e.busyTill ≤ wb)

/-- One REFAB of a keeper (R226, R229). -/
def keeperRefab (wb : Nat) (e : EngSt) : EngSt :=
  { e with hw := max (e.hw - (e.tREFI : Int)) (hwLeast e), busyTill := wb + e.tRFCab, refWall := wb + e.tRFCab }

/-- A REFAB of a window, which the window's later commands follow (R218, R227). -/
def windowPut (e : EngSt) : EngSt := svcPut e { closedView e with refAll := some e.now }

/-- The engines of slots that stand frozen and do not run, where the running slot's task does not have them: between their freeze and their resume their
channels' HW counts too, and their keepers work (R226, R379). -/
def restEngs (s : State) (p : Nat) : List Nat :=
  let mine : List Nat := match (s.part p).runSlot with | some r => domEngs s p r | none => []
  let held (k : Nat) : List Nat := if (s.part p).runSlot = some k then [] else match (s.dom p k).mode with
    | .frozen _ | .catchUp _ _ => domEngs s p k
    | _ => []
  ((held 0 ++ held 1).dedup).filter (fun n => !mine.contains n)

/-- The keeper of such an engine owes a REFAB and may issue it. -/
def restRefab (s : State) (n : Nat) : Bool :=
  let e := s.engOf n
  decide (0 < e.hw ∧ e.busyTill ≤ s.wb) && (restEngs s (engPart s n)).contains n

/-- KEEPER_REFAB of the engines in `data`: HW falls by tREFI, never below −MAXPOST·tREFI (R226, R227, R229). -/
def execKeeperRefab (s : State) : Host.Outcome State Fault Refusal :=
  .next { s with engs := s.ev.data.foldl (fun m n =>
    let e := NMap.getD m n EngSt.reset
    if refabDue s.wb e || restRefab s n then NMap.set m n (keeperRefab s.wb e)
    else if windowRefab s.wb e then NMap.set m n (keeperRefab s.wb (windowPut e)) else m) s.engs }

/-- The keeper scrubs: in a hold while a cause or request of its domain remains, or in a class-3 window with no REFAB left to issue (R227,
R229). -/
def keeperScrubs (s : State) (n : Nat) : Bool :=
  let e := s.engOf n
  (decide (e.busyTill ≤ s.wb) && e.frozen.isSome && e.keeper == 1 && decide (e.hw ≤ 0) && !holdOver s (engPart s n) (engSlot s n))
    || (e.frozen.isNone && windowClass e 3 && (windowRefabAt e).isNone)

/-- Wall cycles that a keeper's scrub step of `k` columns to write back takes in a hold: an ACT, 16 RDs and the WRs of one bank, its PRE, and the wait after
which every command may follow (R218, R229, R230; DEDUCED, log 43). -/
def scrubTime (e : EngSt) (k : Nat) : Nat :=
  let rd := e.tRCD + 15 * e.tCCDL
  let wr := rd + max e.tRTW e.tCCDL + (k - 1) * e.tCCDL
  let pre := max e.tRAS (if k = 0 then rd + e.tRTP else max (rd + e.tRTP) (wr + e.tWR))
  max (max (pre + e.tRP) e.tRC) (max e.tFAW (max e.tRRDS e.tRRDL))

/-- KEEPER_SCRUB_STEP at engine `a`; `data` names the columns in error. SCRUB counts the row (R229, R236, R401). In a hold the step takes its wall time, and
the keeper decides anew when it has ended. -/
def execKeeperScrubStep (s : State) : Host.Outcome State Fault Refusal :=
  let e := s.engOf s.ev.a
  if keeperScrubs s s.ev.a && scrubRoom s s.ev.a then
    match (if e.frozen.isSome then some { e with busyTill := s.wb + scrubTime e (colsBack s.ev.data) } else scrubServe e s.ev.data) with
    | some f =>
      .next (scrubRow (s.setEngOf s.ev.a { f with scrub := f.scrub + 1 }) s.ev.a (if e.frozen.isSome then 15 else windowMask e)
        (goodCols s.ev.data) (badCols s.ev.data))
    | none => .next s
  else .next s

/-- Wall cycles from the first ACT of a keeper's reopening to the end: its rows one after another, each open for tRC (R218, R230;
DEDUCED, log 81). -/
def reopenTime (e : EngSt) : Nat := (e.saved.length - 1) * max (max e.tRRDS e.tRRDL) ((e.tFAW + 3) / 4) + e.tRC

/-- A keeper's step toward the release (R230): no row to reopen, the rows reactivated, or open long enough. -/
def reopenStep (wb : Nat) (e : EngSt) : EngSt :=
  if e.keeper = 1 && decide (e.hw ≤ 0) && decide (e.busyTill ≤ wb) then
    if e.saved.isEmpty then { e with keeper := 2 } else { e with keeper := 3, busyTill := wb + reopenTime e }
  else if e.keeper = 3 && decide (e.busyTill ≤ wb) then { e with keeper := 2 }
  else e

/-- KEEPER_REOPEN of the engines in `data`, after the last clear (R229, R230): the recorded rows are reactivated, and the keeper is done
when each has been open for tRC wall cycles. -/
def execKeeperReopen (s : State) : Host.Outcome State Fault Refusal :=
  .next { s with engs := s.ev.data.foldl (fun m n =>
    let e := NMap.getD m n EngSt.reset
    if e.frozen.isSome && holdOver s (engPart s n) (engSlot s n) then NMap.set m n (reopenStep s.wb e) else m) s.engs }

end Sys2Proof.Machine
end

