-- ==== Sys2Proof/Machine/Float.lean ====
section
/-! DEFINITION. Scalar FP32 instructions: major 0x1B (R107, R108). -/

namespace Sys2Proof.Machine

/-- The FP32 value in bits [31:0] of a source (R107). -/
def fp32Of (x : Word) : Val := decodeVal 0x00 (x.toNat % 2 ^ 32)

/-- An FP32 result zero-extended, with its flags. -/
def fp32Res (r : Nat × Flags) : Word × Nat := (BitVec.ofNat 64 (r.1 % 2 ^ 32), r.2)

/-- A two-source FP32 instruction under FRM (R107). -/
def float2 (g : FDAB) (s : State) (f : Nat) (op : Val → Val → Nat → Nat × Flags) : Host.Outcome State Fault Refusal :=
  op2 s g.d.toNat g.a.toNat g.b.toNat g.ka g.kb f (fun x y => fp32Res (op (fp32Of x) (fp32Of y) (frmMode s)))

def execFadd (f : FDAB) (s : State) := float2 f s 4 (fun x y m => addTo 0x00 x y m false)
def execFsub (f : FDAB) (s : State) := float2 f s 4 (fun x y m => addTo 0x00 x y.negate m false)
def execFmul (f : FDAB) (s : State) := float2 f s 4 (fun x y m => mulTo 0x00 x y m false)
def execFdiv (f : FDAB) (s : State) := float2 f s 12 (fun x y m => divTo 0x00 x y m false)
def execFsqrt (f : FDA) (s : State) :=
  op1 s f.d.toNat f.a.toNat f.ka 12 (fun x => fp32Res (sqrtTo 0x00 (fp32Of x) (frmMode s) false))

/-- FCMPLT: 1 where x < y; a NaN gives 0 with NV (R107, R108). -/
def execFcmplt (f : FDAB) (s : State) := float2 f s 2 (fun x y _ =>
  (b2n (x.lt y), if x.isNan || y.isNan then fNV else 0))

/-- FCVTI: a signed 64-bit integer (R107, R108). -/
def execFcvti (f : FDA) (s : State) :=
  op1 s f.d.toNat f.a.toNat f.ka 3 (fun x =>
    let r := toIntRange (-(2 ^ 63 : Nat)) ((2 ^ 63 : Nat) - 1) (fp32Of x) (frmMode s) 0
    (BitVec.ofInt 64 r.1, r.2))

/-- ICVTF reads all 64 bits of A as a signed integer (R107). -/
def execIcvtf (f : FDA) (s : State) :=
  op1 s f.d.toNat f.a.toNat f.ka 3 (fun x => fp32Res (roundTo 0x00 (valOfInt x.toInt) (frmMode s) false 0))

end Sys2Proof.Machine
end

