-- ==== Sys2Proof/Machine/LaunchEvents.lean ====
section
/-! DEFINITION. The launch unit and the ends of a task: packet writes and doorbells (R19, R382, R383), the launch (R20–R22, R226), the
SLATH barrier (R24–R26), a core's end and the task's (R23, R404). The event's argument names the partition in `a`. -/

namespace Sys2Proof.Machine

/-! ## Packets (R19, R20, R382) -/

/-- A little-endian field of a packet's bytes. -/
def pktField (bs : List Nat) (off n : Nat) : Nat := ofFields 8 ((bs.drop off).take n)

/-- A peer package's packet is accepted (R382). -/
def peerAllowed (q : PartSt) (pkg prio : Nat) : Bool :=
  let w := (q.perms.getD pkg 0).toNat
  bitB w 0 && decide (prio ≤ bits w 2 1)

/-- LAUNCH_PACKET_WRITE of the 128 bytes in `data`; `b` is 1 where a peer package, `c`, writes (R19, R382). A packet that finds no free
slot, or is refused, is dropped; its writer's completion error leaves nothing here. -/
def execLaunchPacketWrite (s : State) : Host.Outcome State Fault Refusal :=
  let p := s.ev.a
  let q := s.part p
  let bs := (s.ev.data.map (· % 256)).take 128
  let prio := pktField bs 1 1 % 4
  if bs.length < 128 || (s.parts.find p).isNone || (s.ev.b = 1 && !peerAllowed q s.ev.c prio) || q.queue.length ≥ 16 then .next s
  else
    .next (s.setPart p { q with
      queue := q.queue ++ [(prio, q.arrivals, bs)], arrivals := q.arrivals + 1, notifies := q.notifies + 1 })

/-- A rescan: the launch unit knows of every packet (R383). -/
def rescan (q : PartSt) : PartSt := { q with scanned := q.arrivals }

/-- DOORBELL_NOTIFY (R383): at a mapped doorbell it is served as its wall cycle ends, unless an unmap takes effect on it. -/
def execDoorbellNotify (s : State) : Host.Outcome State Fault Refusal :=
  let q := s.part s.ev.a
  if q.notifies = 0 then .next s
  else
    let q1 := { q with notifies := q.notifies - 1 }
    .next (s.setPart s.ev.a (if q.mapped then { q1 with rung := true } else { q1 with pnb := true }))

/-- The notifies of the wall cycle: served, or, where an unmap has taken effect on it, PNB is set (R383). -/
def settleBell (q : PartSt) : PartSt :=
  let d := { q with rung := false }
  if !q.rung then d else if q.unmapped then { d with pnb := true } else rescan d

/-- PNB read: where it is set, it is cleared and the slots are rescanned (R383). -/
def readPnb (q0 : PartSt) : PartSt :=
  let q := settleBell q0
  let d := { q with unmapped := false }
  if q.pnb then rescan { d with pnb := false } else d

/-- DOORBELL_UNMAP and DOORBELL_MAP (R383). An unmap completes with its wall cycle: PNB, which a notify of that cycle sets too, is read on the next
(`doorbellTick`). -/
def execDoorbellUnmap (s : State) : Host.Outcome State Fault Refusal :=
  if (s.parts.find s.ev.a).isNone then .next s else .next (s.setPart s.ev.a { s.part s.ev.a with mapped := false, unmapped := true })
def execDoorbellMap (s : State) : Host.Outcome State Fault Refusal :=
  if (s.parts.find s.ev.a).isNone then .next s else .next (s.setPart s.ev.a (readPnb { s.part s.ev.a with mapped := true }))

/-- The end of a wall cycle at a doorbell: its notifies, and the re-examination of a queue whose unmap has completed (R383). -/
def doorbellTick (s : State) (p : Nat) : State :=
  let q := s.part p
  if q.unmapped then s.setPart p (readPnb q) else if q.rung then s.setPart p (settleBell q) else s

/-! ## The launch (R20–R22) -/

/-- The head packet: the first of the highest level of those that the launch unit knows (R19). -/
def headPacket (q : PartSt) : Option (Nat × Nat × List Nat) :=
  let known := q.queue.filter (fun x => decide (x.2.1 < q.scanned))
  known.foldl (fun b x => match b with
    | none => some x
    | some y => if y.1 < x.1 || (y.1 == x.1 && decide (x.2.1 < y.2.1)) then some x else some y) none

/-- Cores that CMASK names, by their place in the partition (R20). -/
def cmaskRanks (bs : List Nat) : List Nat :=
  let m := pktField bs 8 32
  (List.range 256).filter (bitB m)

/-- The first check of a packet that fails (R22, R23). -/
def packetStatus (q : PartSt) (bs : List Nat) : Option Nat :=
  if pktField bs 0 1 != 1 then some 0x01
  else if pktField bs 1 1 >>> 2 != 0 || pktField bs 2 2 >>> 2 != 0 || pktField bs 72 4 >>> 4 != 0 || pktField bs 76 4 >>> 18 != 0 then
    some 0x02
  else if (cmaskRanks bs).isEmpty || (cmaskRanks bs).any (fun r => decide (r ≥ 32 * q.size)) then some 0x03
  else none

/-- A section of the image directory: core rank, kind, destination, bytes, source, tag (R20). -/
structure Section where
  rank : Nat
  kind : Nat
  dest : Nat
  len : Nat
  src : Nat
  tag : Nat
  deriving DecidableEq, Repr

/-- The section that a 32-byte record gives, or none where it ends the directory (R20; log 19). -/
def dirSection (f : DirFmt) (r : List Nat) : Option Section :=
  let at_ (x : Nat × Nat) : Nat := pktField r x.1 x.2
  let k := f.kinds.idxOf (at_ f.kind)
  if k < f.kinds.length then some ⟨at_ f.rank, k, at_ f.dest, at_ f.len, at_ f.src, at_ f.tag⟩ else none

/-- The sections of the directory at a virtual address, in order; none where a record cannot be read, a fault of the load (R20, R23). `n` bounds their
number by the space they lie in. -/
def dirSections (s : State) : Nat → Nat → Option (List Section)
  | 0, _ => none
  | n + 1, va =>
    if !vaReadable s va 32 then none
    else match dirSection s.pkg.dirFmt ((vaBytes s va 32).map BitVec.toNat) with
      | none => some []
      | some x => (dirSections s n (va + 32)).map (x :: ·)

/-- The sections of a packet's image directory, at IMG (R20). -/
def imageSections (s : State) (bs : List Nat) : Option (List Section) :=
  let img := pktField bs 40 8
  dirSections s ((2 ^ 48 - vaOff img) / 32 + 1) img

/-- Words of a table from bytes. -/
def tableWords (n : Nat) (bs : List Byte) : List Word := (chunks 8 n bs).map (fun b => BitVec.ofNat 64 (ofBytes b))

/-- A section loaded into a core's target slot (R22). -/
def loadSection (s : State) (p slot : Nat) (x : Section) : State :=
  let core := 32 * p + x.rank
  let bs := vaBytes s x.src x.len
  let c := s.ctxOf core slot
  let put (m : NMap Word) (per stride : Nat) : NMap Word :=
    ((tableWords (x.len / 8) bs).zipIdx).foldl (fun m w => NMap.set m ((x.dest + w.2 / per) * stride + w.2 % per) w.1) m
  let sound (tab per stride : Nat) : Ctx :=
    { c with badTab := c.badTab.filter (fun p => !decide (tabPlace tab (x.dest * stride) ≤ p ∧ p < tabPlace tab ((x.dest + x.len / (8 * per)) * stride))) }
  match x.kind with
  | 0 => { s with mem := s.mem.writeN (imemAddr core slot x.dest) bs }
  | 1 => s.setCtx core slot { sound 0 6 8 with layout := put c.layout 6 8 }
  | 2 => s.setCtx core slot { sound 1 3 4 with foot := put c.foot 3 4 }
  | 3 => s.setCtx core slot { sound 2 1 1 with slots := put c.slots 1 1 }
  | _ =>
    let t := s.writeSp core x.dest bs
    let k := t.core core
    t.setCore core { k with
      tags := ((gransOf x.dest x.len)).foldl (fun m g => NMap.set m g x.tag) k.tags
      poison := k.poison.filter (fun y => !decide (x.dest / 128 ≤ y.1 ∧ y.1 < (x.dest + x.len) / 128)) }

/-- DMR of a core (R18). -/
def dmrWord (s : State) (p core podix podn : Nat) : Word :=
  let d := core / 32
  BitVec.ofNat 64 (core % 32 + d % 8 * 2 ^ 5 + (d - p) % 8 * 2 ^ 8 + sizeCodeOf (s.part p).size * 2 ^ 11 + p % 8 * 2 ^ 13
    + s.pkg.pkg % 64 * 2 ^ 16 + (core - 32 * p) % 256 * 2 ^ 24 + podix % 2 ^ 9 * 2 ^ 32 + podn % 2 ^ 9 * 2 ^ 41)
where
  /-- PSIZE (R18). -/
  sizeCodeOf (n : Nat) : Nat := if n = 1 then 0 else if n = 2 then 1 else if n = 4 then 2 else 3

/-- A context at step 3 of R22: reset, its tables loaded, what the operating system set kept; `tb` is its first cycle, the one after the
value that TB is loaded with (R24). -/
def launchCtx (c : Ctx) (tb mode : Nat) (dmr : Word) : Ctx :=
  { Ctx.reset with
    now := tb, base := tb, started := true, layout := c.layout, foot := c.foot, slots := c.slots, slotsLive := c.slots, badTab := c.badTab
    ctxwin := c.ctxwin, aukey := c.aukey, mode := BitVec.ofNat 64 (mode % 16), dmr := dmr }

/-- A CSR that the initial-register block may write (R21). -/
def irbCsr (n : Nat) : Bool := n == 0x04 || decide (0x40 ≤ n ∧ n ≤ 0x43) || decide (0x60 ≤ n ∧ n ≤ 0x6B)

/-- One record of the initial-register block applied to the contexts by rank, or nothing where it is in error (R21). A push to q0 is discarded and
never counts as a fifth one (DESIGN CHOICE, log 75). -/
def irbRecord (args : List Nat) (m : NMap Ctx) (r : List Nat) : Option (NMap Ctx) :=
  let kind := pktField r 0 1
  let rank := pktField r 1 1
  let num := pktField r 2 2
  let v := pktField r 8 8
  if pktField r 4 4 != 0 then none
  else
    match m.find rank with
    | none => none
    | some c =>
      let push (x : Nat) : Option (NMap Ctx) :=
        if num ≥ 64 then none
        else if num = 0 then some m
        else if (qEntries c num).length ≥ 4 then none
        else some (m.set rank (setQ c num (qEntries c num ++ [.val (BitVec.ofNat 64 x) none])))
      match kind with
      | 0 => push v
      | 1 => push (args.getD (v % 6) 0)
      | 2 => if irbCsr num then some (m.set rank (csrWrite c num (BitVec.ofNat 64 v))) else none
      | _ => none

/-- The records of a block in order, to the end record (R21); `n` bounds their number by the space they lie in. A record that cannot be read
is a fault of the load, status 0x04; one in error is 0x05 (R23). -/
def irbRun (s : State) (args : List Nat) : Nat → Nat → NMap Ctx → Except Nat (NMap Ctx)
  | 0, _, _ => .error 0x04
  | n + 1, va, m =>
    if !vaReadable s va 16 then .error 0x04
    else
      let r := (vaBytes s va 16).map BitVec.toNat
      if pktField r 0 1 = 0xFF then .ok m
      else match irbRecord args m r with
        | some m1 => irbRun s args n (va + 16) m1
        | none => .error 0x05

/-- The task of a packet (R20). -/
def packetTask (p wb : Nat) (bs : List Nat) : Task :=
  { notify := bitB (pktField bs 2 2) 0, wdog := pktField bs 4 4, cores := (cmaskRanks bs).map (32 * p + ·), crec := pktField bs 56 8,
    task := pktField bs 64 8, args := (List.range 6).map (fun i => pktField bs (80 + 8 * i) 8), podn := bits (pktField bs 76 4) 17 9,
    status := 0, arrived := [], tb0 := none, slathWb := wb, slathFired := false, relWb := wb,
    lastHalt := 0, lastHaltWb := 0, holds := 0 }

/-- A launch that ends without starting a core (R23). -/
def launchFails (s : State) (t : Task) (status : Nat) : State :=
  if t.notify then
    let r := completionBytes s t status none none none
    writeVa r.2 t.crec r.1
  else s

/-- No other task of the partition runs, and the latest SWITCH has left none of the task's cores with an empty slot: the launched slot is the one that runs at
once (R377, R379; DESIGN CHOICE, log 63). -/
def launchIdle (s : State) (p slot : Nat) (cores : List Nat) : Bool :=
  (match (s.part p).runSlot with | none => true | some r => (s.dom p r).task.isNone || r == slot)
    && cores.all (fun c => !(s.part p).parked.contains c)

/-- Engines of the dies on which a packet names a core. -/
def packetEngines (p : Nat) (bs : List Nat) : List Nat :=
  (((cmaskRanks bs).map (fun r => p + r / 32)).dedup).flatMap (fun die => (List.range 128).map (engNo die))

/-- An engine's banks are closed and idle, and each was refreshed within the last tREFI wall cycles (R226). -/
def engReady (wb : Nat) (e : EngSt) : Bool := decide (e.busyTill ≤ wb ∧ wb ≤ e.refWall + e.tREFI)

/-- Every bank is closed and idle on the engine's cycle, as `e` has them. -/
def banksIdle (e : EngSt) : Bool :=
  e.rows.isEmpty && (failing e.now ((List.range 16).flatMap (needIdle e) ++ need 16 0 e.refAll e.tRFCab)).isNone

/-- The same of an engine that a table runs on: its banks as the table has them and as an open service window has them, or closed by the keeper of a
hold, each refreshed by a table word or by the keeper (R226, R228, R229). -/
def engCalm (wb : Nat) (e : EngSt) : Bool :=
  let kept := e.frozen.isSome && e.keeper == 1
  (kept || banksIdle e && (!windowOpen e || banksIdle (svcView e)))
    && decide (e.busyTill ≤ wb) && (List.range 16).all (fun b => decide (wb ≤ max (e.bankWall.getD b 0) e.refWall + e.tREFI))

/-- The task that runs in the partition, another than the one to be launched, has engine `n`. -/
def heldEngine (s : State) (p slot n : Nat) : Bool :=
  match (s.part p).runSlot with
  | some r => r != slot && (s.dom p r).task.isSome && (domEngs s p r).contains n
  | none => false

/-- The launch need not wait for the engines of the task's dies (R226). -/
def launchReady (s : State) (p slot : Nat) (bs : List Nat) : Bool :=
  (packetEngines p bs).all (fun n => if heldEngine s p slot n then engCalm s.wb (s.engOf n) else engReady s.wb (s.engOf n))

/-- The launch unit waits; engines that no task has and that have gone too long without a refresh are refreshed (R226; DEDUCED, log 64). -/
def launchPrepare (s : State) (p slot : Nat) (bs : List Nat) : State :=
  { s with engs := ((packetEngines p bs).filter (fun n => !heldEngine s p slot n)).foldl (fun m n =>
      let e := NMap.getD m n EngSt.reset
      if engReady s.wb e || decide (s.wb < e.busyTill) then m
      else NMap.set m n { e with busyTill := s.wb + e.tRFCab, refWall := s.wb + e.tRFCab }) s.engs }

/-- What an earlier task of the slot has left in channels' queues and in the collective engines' pages is not the new task's (R366). -/
def dropStale (s : State) (p slot : Nat) (cores : List Nat) : State :=
  let keys := cores.map (fun c => ctxKey c slot + 1)
  { s with
    engs := s.engs.map (fun x => (x.1, { x.2 with queue := x.2.queue.filter (fun y => !keys.contains y.key) }))
    cxes := s.cxes.map (fun x => (x.1, { x.2 with ended := x.2.ended.filter (fun y => !(y.2.slot == slot && s.partOfDie x.1 == p)) })) }

/-- The steps of R22 for an accepted packet; an image or a block that cannot be loaded ends the launch. Where no live task runs in the partition
the launched slot runs at once; else it waits for a switch (DESIGN CHOICE, log 63). Every engine's HW is 0, of one too that the running task has (R226). A word 0 is
SLATH where it is R118's word with IDL 0; another IDL counts as a word 0 that is not SLATH (DEDUCED, log 93). -/
def launchTask (s : State) (p slot : Nat) (bs : List Nat) (secs : List Section) (fault : Bool) : State :=
  let d := s.dom p slot
  let t := packetTask p s.wb bs
  let pod := pktField bs 76 4
  if fault || secs.any (fun x => !vaReadable s x.src x.len) then launchFails s t 0x04
  else
    let s1 := secs.foldl (fun s x => if t.cores.contains (32 * p + x.rank) then loadSection s p slot x else s) s
    let ctxs : NMap Ctx := t.cores.map (fun c =>
      (c - 32 * p, launchCtx (s1.ctxOf c slot) (d.tb + 1) (pktField bs 72 4) (dmrWord s p c (bits pod 8 0) (bits pod 17 9))))
    let irb := pktField bs 48 8
    match (if irb = 0 then .ok ctxs else irbRun s1 t.args ((2 ^ 48 - vaOff irb) / 16 + 1) irb ctxs) with
    | .error st => launchFails s1 t st
    | .ok cs =>
      let first : Nat → Bool := fun c => s1.fetchWord c slot 0 == slathCode
      let s2 := cs.foldl (fun (s : State) (x : Nat × Ctx) => s.setCtx (32 * p + x.1) slot x.2) s1
      let s3 := s2.setDom p slot { Domain.reset with
        tb := d.tb, task := some { t with arrived := t.cores.filter (fun c => !first c) } }
      let s4 := dropStale s3 p slot t.cores
      if launchIdle s p slot t.cores then mapEngs (runOn s4 p slot) p slot (fun _ e => { engFresh e with now := d.tb + 1 })
      else
        let q := s4.part p
        let s5 := s4.setPart p { q with runSlot := if q.runSlot = some slot then none else q.runSlot }
        let ns := domEngs s5 p slot
        { s5 with
          engSaved := ns.foldl (fun m n => NMap.erase m (n * 4 + slot)) s5.engSaved
          engs := ns.foldl (fun m n =>
            let e := NMap.getD m n EngSt.reset
            NMap.set m n (if heldEngine s5 p slot n then { e with hw := 0 } else engFresh e)) s5.engs }
where
  /-- The word of SLATH (R118). -/
  slathCode : Nat := 0x0B800001

/-- The slot of a packet is free (R19, R381). -/
def slotFree (q : PartSt) (d : Domain) (slot : Nat) : Bool := d.task.isNone && !(q.str == 2 && q.strSlot == slot)

/-- A section lies in its storage: instructions by word, tables by entry, scratchpad by byte (R20). -/
def Section.fits (x : Section) : Bool :=
  match x.kind with
  | 0 => decide (4 * x.dest + x.len ≤ 2 ^ 18)
  | 1 => decide (48 * x.dest + x.len ≤ 48 * 256)
  | 2 => decide (24 * x.dest + x.len ≤ 24 * 64)
  | 3 => decide (8 * x.dest + x.len ≤ 8 * 64)
  | _ => decide (x.dest + x.len ≤ 2 ^ 23)

/-- LAUNCH: the head packet is taken, checked and launched by the directory at its IMG; `b` is 1 where the image load meets a permission fault that the
tables here do not show (R19–R23, R382; log 19). A section outside its storage names an address that does not exist. -/
def execLaunch (s : State) : Host.Outcome State Fault Refusal :=
  let p := s.ev.a
  let q := s.part p
  match headPacket q with
  | none => .next s
  | some x =>
    let bs := x.2.2
    let slot := bits (pktField bs 2 2) 1 1
    if !slotFree q (s.dom p slot) slot then
      if q.headTold.contains x.2.1 then .next s
      else .next (sysEventOn (s.setPart p { q with headTold := x.2.1 :: q.headTold }) p 0)
    else if (packetStatus q bs).isNone && !launchReady s p slot bs then .next (launchPrepare s p slot bs)
    else
      let s1 := s.setPart p { q with
        queue := q.queue.filter (fun y => y.2.1 != x.2.1), headTold := q.headTold.filter (fun n => n != x.2.1) }
      match packetStatus q bs with
      | some st => .next (launchFails s1 (packetTask p s.wb bs) st)
      | none =>
        match imageSections s bs with
        | none => .next (launchFails s1 (packetTask p s.wb bs) 0x04)
        | some secs => if secs.all Section.fits then .next (launchTask s1 p slot bs secs (s.ev.b == 1)) else .fault .noSuchAddress

/-! ## The SLATH barrier (R24–R26) -/

/-- The least multiple of 16 that is not less than a number. -/
def roundUp16 (n : Nat) : Nat := (n + 15) / 16 * 16

/-- A core completes SLATH on TB0; one whose word 0 is not SLATH is to take SLATHMIS there (R25, R26). -/
def slathCtx (tb0 : Nat) (c : Ctx) : Ctx :=
  if c.slathPend then
    { c with slathPend := false, slathed := true, tb0 := BitVec.ofNat 64 tb0, release := tb0, pc := 1, base := tb0 + 1, nic := none }
  else { c with slathPend := true, slathed := true, release := tb0, base := tb0, nic := none }

/-- The agents of a domain execute the cycle TB: it is not held on it (R38, R40). -/
def executesTb (d : Domain) : Bool :=
  match d.mode with
  | .run | .freezing _ => true
  | .frozen _ | .catchUp _ _ => false

/-- SLATH_BARRIER_COMPLETE of slot `b`: when every core has arrived TB0 is formed, and on TB0, which a hold on that cycle puts off, every member completes (R25, R38). How long the
last arrival takes to the timebase unit is free. -/
def execSlathBarrierComplete (s : State) : Host.Outcome State Fault Refusal :=
  let p := s.ev.a
  let slot := s.ev.b
  let d := s.dom p slot
  match d.task with
  | none => .next s
  | some t =>
    match t.tb0 with
    | none =>
      if t.cores.all (fun c => t.arrived.contains c) then
        let last := d.tb + Config.slathTransit s.free
        .next ({ s with free := s.free + 1 }.setDom p slot { d with
          task := some { t with tb0 := some (roundUp16 (last + 48)) } })
      else .next s
    | some tb0 =>
      if d.tb = tb0 && executesTb d && t.cores.any (fun c => !(s.ctxOf c slot).slathed) then
        let s1 := mapCtxs s p slot (fun _ c => slathCtx tb0 c)
        .next (s1.setDom p slot { d with livew := 0, task := some { t with relWb := s.wb } })
      else .next s

/-- SLATH_WATCHDOG of slot `b` (R26): the watchdog has fired on the slot's domain, by neither of its counters, so WDF is set, and an END gives STATUS 0x07
(R23, R377). The barrier's WDOG counts wall cycles from the task's launch, and is judged while its slot runs (DESIGN
CHOICE, log 76). -/
def execSlathWatchdog (s : State) : Host.Outcome State Fault Refusal :=
  let d := s.dom s.ev.a s.ev.b
  match d.task with
  | none => .next s
  | some t =>
    if t.tb0.isSome || t.slathFired || decide (s.wb < t.slathWb + wdogLimit s s.ev.a s.ev.b) then .next s
    else .next (sysEventOn (s.setDom s.ev.a s.ev.b { d with wdf := true, wdWhich := 0, task := some { t with slathFired := true } }) s.ev.a 3)

/-! ## Ends (R23, R404) -/

/-- The schedule of a stream has ended by a cycle (R126). -/
def Strm.ended (st : Strm) (t : Nat) : Bool := decide (st.t1 + (st.cnt - st.adv) ≤ t)

/-- Nothing that a halted core started goes on (R404). -/
def coreIdle (c : Ctx) : Bool :=
  c.cmds.isEmpty && c.flight.isEmpty && c.atomics.isEmpty && c.cols.isEmpty && c.strms.all (fun x => x.2.ended c.now)
    && !loadsOut c && !c.aus.any (fun r => r.gated && (r.place == .lot || r.place == .held || r.out))

/-- CORE_PART_END at the current core (R404). -/
def execCorePartEnd (s : State) : Host.Outcome State Fault Refusal :=
  let c := s.cur
  if c.halted.isSome && !c.partEnded && c.frozen.isNone && coreIdle c then .next (s.modCur (fun c => { c with partEnded := true }))
  else .next s

/-- TASK_COMPLETION of slot `b`: every core has ended its part (R23). -/
def execTaskCompletion (s : State) : Host.Outcome State Fault Refusal :=
  let d := s.dom s.ev.a s.ev.b
  if d.task.isSome && (domCtxs s s.ev.a s.ev.b).all (fun x => x.2.partEnded) then .next (endTask s s.ev.a s.ev.b 0) else .next s

end Sys2Proof.Machine
end

