-- ==== Sys2Proof/Machine/Sha.lean ====
section
/-! DEFINITION. SHA-384 (R411). The spec names the digest and does not define it: the algorithm is that of FIPS 180-4 (PRESUMED, log 74). -/

namespace Sys2Proof.Machine

/-! ## Constants: the first 64 bits of the fractions of roots of primes -/

/-- The primes below 410, of which there are 80: 2 and what no smaller number from 2 to 20 divides. -/
def shaPrimes : List Nat := (List.range 410).filter (fun n => decide (2 ≤ n) && (List.range 21).all (fun d => d < 2 || d ≥ n || n % d != 0))

/-- The greatest number whose power is at most `v`, from one that is below it, bit by bit from bit `n` − 1 down. -/
def rootBits (power v : Nat) : Nat → Nat → Nat
  | 0, r => r
  | n + 1, r => rootBits power v n (if (r + 2 ^ n) ^ power ≤ v then r + 2 ^ n else r)

/-- The first 64 bits of the fraction of a root of a number below 512. -/
def rootFraction (power p : Nat) : BitVec 64 := BitVec.ofNat 64 (rootBits power (p * 2 ^ (64 * power)) 70 0)

/-- The 80 round constants: cube roots of the first 80 primes. -/
def shaK : List (BitVec 64) := shaPrimes.map (rootFraction 3)

/-- The eight words that the hash starts from: square roots of the ninth to the sixteenth prime. -/
def shaStart : List (BitVec 64) := ((shaPrimes.drop 8).take 8).map (rootFraction 2)

/-! ## The functions of the rounds -/

/-- Exclusive or of three rotations to the right. -/
def shaRot (a b c : Nat) (x : BitVec 64) : BitVec 64 := x.rotateRight a ^^^ x.rotateRight b ^^^ x.rotateRight c

/-- Word `t` of the schedule, from the words before it, newest first. -/
def shaNext (ws : List (BitVec 64)) : BitVec 64 :=
  let x := ws.getD 14 0
  let y := ws.getD 1 0
  (x.rotateRight 1 ^^^ x.rotateRight 8 ^^^ (x >>> 7)) + (y.rotateRight 19 ^^^ y.rotateRight 61 ^^^ (y >>> 6))
    + ws.getD 15 0 + ws.getD 6 0

/-- The schedule extended by `n` words, newest first. -/
def shaExtend : Nat → List (BitVec 64) → List (BitVec 64)
  | 0, ws => ws
  | n + 1, ws => shaExtend n (shaNext ws :: ws)

/-- The 80 words of a block of 16. -/
def shaSchedule (block : List (BitVec 64)) : List (BitVec 64) := (shaExtend 64 block.reverse).reverse

/-- One round on the working words with a round constant and a word of the schedule. -/
def shaRound (h : List (BitVec 64)) (k : BitVec 64 × BitVec 64) : List (BitVec 64) :=
  match h with
  | [a, b, c, d, e, f, g, x] =>
    let t1 := x + shaRot 14 18 41 e + ((e &&& f) ^^^ (~~~e &&& g)) + k.1 + k.2
    let t2 := shaRot 28 34 39 a + ((a &&& b) ^^^ (a &&& c) ^^^ (b &&& c))
    [t1 + t2, a, b, c, d + t1, e, f, g]
  | _ => h

/-- A block of 16 words taken into the hash. -/
def shaBlock (h block : List (BitVec 64)) : List (BitVec 64) :=
  List.zipWith (· + ·) h ((List.zip shaK (shaSchedule block)).foldl shaRound h)

/-! ## The digest -/

/-- A number as `n` bytes, the highest first. -/
def bigBytes (n v : Nat) : List Byte := (bytesOf n v).reverse

/-- Bytes as a number, the first the highest. -/
def ofBigBytes (bs : List Byte) : Nat := ofBytes bs.reverse

/-- A message with its padding: a one bit, zeros, and its length in bits, to a multiple of 128 bytes. -/
def shaPad (msg : List Byte) : List Byte :=
  msg ++ [0x80#8] ++ List.replicate ((239 - msg.length % 128) % 128) 0#8 ++ bigBytes 16 (8 * msg.length)

/-- SHA-384 of a message: 48 bytes. -/
def sha384 (msg : List Byte) : List Byte :=
  let m := shaPad msg
  let h := (chunks 128 (m.length / 128) m).foldl (fun h b =>
    shaBlock h ((chunks 8 16 b).map (fun w => BitVec.ofNat 64 (ofBigBytes w)))) shaStart
  (h.flatMap (fun w => bigBytes 8 w.toNat)).take 48

end Sys2Proof.Machine
end

