-- ==== Sys2Proof/Machine/PackageEvents.lean ====
section
/-! DEFINITION. The events of the package: events of system cores (R403), boot and recovery (R405, R411), links (R409) and power (R412). -/

namespace Sys2Proof.Machine

/-! ## System cores (R403) -/

/-- A system core is between two instructions, with nothing that its next one still waits for. -/
def sysBetween (x : SysSt) : Bool := x.guard.isNone && x.req.isNone && x.ans.isNone

/-- An enabled event of a system core waits. -/
def sysEventDue (x : SysSt) : Bool := x.sevt &&& x.seven != 0

/-- SYSTEM_EVENT at system core `a`: SEPC takes the next address and the core goes on at SVEC (R403). -/
def execSystemEvent (s : State) : Host.Outcome State Fault Refusal :=
  let x := s.syss.getD s.ev.a SysSt.reset
  if x.running && !x.inEvent && sysEventDue x && sysBetween x then
    .next { s with syss := s.syss.set s.ev.a { x with sepc := x.pc, pc := x.svec, inEvent := true, halted := false } }
  else .next s

/-! ## Boot (R16, R405, R407, R411) -/

/-- A list of items of `k` numbers, their count first, and what follows it. -/
def takeSeg (k : Nat) (xs : List Nat) : List (List Nat) × List Nat :=
  match xs with
  | [] => ([], [])
  | n :: ys => (chunks k n (ys.take (k * n)), ys.drop (k * n))

/-- MR ← SHA-384(MR ∥ digest) (R411). -/
def extendMr (g : PkgSt) (x : List Nat) : PkgSt :=
  let m := x.getD 0 0 % 8
  { g with mr := g.mr.set m (ofBigBytes (sha384 (bigBytes 48 (g.mr.getD m 0) ++ bigBytes 48 (x.getD 1 0)))) }

/-- A partition of 1, 2, 4 or 8 dies at a base that is a multiple of its size (R16). -/
def partShape (base size : Nat) : Bool := [1, 2, 4, 8].contains size && base % size == 0 && decide (base + size ≤ 8)

/-- The hypervisor makes a partition on dies that no other has, and starts its system cores. -/
def addPart (s : State) (x : List Nat) : State :=
  let base := x.getD 0 0
  let size := x.getD 1 0
  let free := s.parts.all (fun p => decide (p.1 + p.2.size ≤ base ∨ base + size ≤ p.1))
  if partShape base size && free then
    let s1 := s.setPart base (PartSt.boot size)
    { s1 with syss := (List.range (2 * size)).foldl (fun m k =>
        NMap.set m (2 * base + k) { SysSt.reset with running := true }) s1.syss }
  else s

/-- The paged frames of a die, first and count, fixed at boot (R405, R408). -/
def addFrames (s : State) (x : List Nat) : State :=
  let die := x.getD 0 0
  let p := s.partOfDie die
  let q := s.part p
  if (s.parts.find p).isSome then
    s.setPart p { q with frame0 := q.frame0.set (die - p) (x.getD 1 0), frames := q.frames.set (die - p) (x.getD 2 0) }
  else s

/-- A timing word of an engine (R237) and a word of a system image (R403, R405). -/
def addTiming (s : State) (x : List Nat) : State :=
  let e := s.engOf (x.getD 0 0)
  s.setEngOf (x.getD 0 0) { e with timing := e.timing.set (x.getD 1 0 % 8) (timingFields (x.getD 1 0 % 8) (x.getD 2 0)) }
def addSysWord (s : State) (x : List Nat) : State :=
  { s with mem := s.mem.writeN (sysAddr (x.getD 0 0) (x.getD 1 0)) (bytesOf 4 (x.getD 2 0)) }

/-- The stages measure what they start, and where every check has passed the hypervisor runs: it trains DRAM, writes the timing pages,
brings up system cores and links and fixes the partitions and their frames (R405, R411). `xs` gives the digests, timing words, system words,
partitions and frames. -/
def bootRun (s : State) (xs : List Nat) (failed : Bool) : State :=
  let ms := takeSeg 2 xs
  let s1 := { s with pkg := ms.1.foldl extendMr s.pkg }
  if failed then { s1 with pkg := { s1.pkg with boot := .recovery } }
  else
    let ts := takeSeg 3 ms.2
    let ws := takeSeg 3 ts.2
    let ps := takeSeg 2 ws.2
    let fs := takeSeg 3 ps.2
    let s2 := { s1 with pkg := { s1.pkg with
      boot := .running, links := (List.range 18).map (fun n => (n, (⟨true, 16, 0⟩ : LinkSt))) } }
    fs.1.foldl addFrames (ps.1.foldl addPart (ws.1.foldl addSysWord (ts.1.foldl addTiming s2)))

/-- BOOT: D0.S0 runs the boot ROM; `c` is 1 where a signature check fails, `d` is the package's id in the pod (R411). -/
def execBoot (s : State) : Host.Outcome State Fault Refusal :=
  if s.pkg.boot = .off && !s.pkg.powerCut then
    .next (bootRun { s with pkg := { s.pkg with pkg := s.ev.d % 64 } } s.ev.data (s.ev.c == 1))
  else .next s

/-- RECOVERY_IMAGE: a signed image from the mailbox is checked and booted, or refused (`c` = 1) (R411). -/
def execRecoveryImage (s : State) : Host.Outcome State Fault Refusal :=
  if s.pkg.boot = .recovery && !s.pkg.powerCut then .next (bootRun s s.ev.data (s.ev.c == 1)) else .next s

/-! ## Links (R409) -/

def linkOf (s : State) (n : Nat) : LinkSt := s.pkg.links.getD n ⟨false, 16, 0⟩
def setLink (s : State) (n : Nat) (l : LinkSt) : State := { s with pkg := { s.pkg with links := s.pkg.links.set n l } }

/-- LINK_FLIT_RETRY on link `a`: a failed flit is sent again; `d` is 1 where that retry passes its check (R409). -/
def execLinkFlitRetry (s : State) : Host.Outcome State Fault Refusal :=
  let l := linkOf s s.ev.a
  if l.up && decide (l.retries < 8) then .next (setLink s s.ev.a { l with retries := if s.ev.d = 1 then 0 else l.retries + 1 })
  else .next s

/-- SEVT of the system cores of every partition (R403). -/
def tellAll (s : State) (bit : Nat) : State := s.parts.foldl (fun t p => sysEventOn t p.1 bit) s

/-- The run of a group whose units a link has lost ends with STATUS 0x02, or, where an abort has ended it and its record still waits, with that one's.
The answers of its paged writes are not awaited (R355, R409; log 51). -/
def lostRun (s : State) (die g : Nat) : State :=
  match runOf s die g with
  | none => s
  | some r =>
    let r1 := { r with undelivered := 0 }
    if r.aborted then endRun s die r1 else abortRun s die r1 0x02

/-- LINK_DOWN of link `a`, a flit having failed 8 retries: SEVT bit 7, and the runs whose units are lost, given as pairs of a die and a
group, end (R409; log 51). -/
def execLinkDown (s : State) : Host.Outcome State Fault Refusal :=
  let l := linkOf s s.ev.a
  if l.up && l.retries == 8 then
    let s1 := tellAll (setLink s s.ev.a { l with up := false }) 7
    .next ((chunks 2 (s.ev.data.length / 2) s.ev.data).foldl (fun t x => lostRun t (x.getD 0 0) (x.getD 1 0)) s1)
  else .next s

/-- LINK_LANE_LOSS on link `a`: 8 lanes at half rate (R409). -/
def execLinkLaneLoss (s : State) : Host.Outcome State Fault Refusal :=
  let l := linkOf s s.ev.a
  if l.up then .next (setLink s s.ev.a { l with lanes := 8 }) else .next s

/-! ## Power (R412) -/

/-- Junction temperature of die `d` in THERM. -/
def thermOf (t : Word) (d : Nat) : Nat := bits t.toNat (8 * d + 7) (8 * d)

/-- Some die meets a condition. -/
def anyDie (t : Word) (f : Nat → Bool) : Bool := (List.range 8).any (fun d => f (thermOf t d))

/-- The power manager's hold of a KIND on every running domain (R42). -/
def holdAll (s : State) (kind : Nat) : State :=
  s.parts.foldl (fun t p =>
    match (t.part p.1).runSlot with
    | none => t
    | some r => if (t.dom p.1 r).task.isSome then t.setDom p.1 r (requestHold (t.dom p.1 r) kind (t.dom p.1 r).tb (holdMin kind) t.wb) else t) s

/-- What a sample leads to (R412). -/
def powerAct (s : State) (t w : Word) : State :=
  let hot := anyDie t (fun x => decide (x > s.pkg.thold))
  let high := decide (w.toNat % 2 ^ 32 > s.pkg.plim)
  let cool := !anyDie t (fun x => decide (x + 3 > s.pkg.thold)) && decide (100 * (w.toNat % 2 ^ 32) ≤ 95 * s.pkg.plim)
  let trip := anyDie t (fun x => decide (x ≥ 115))
  let duty := if hot || high then s.pkg.duty - 1 else if cool then min 16 (s.pkg.duty + 1) else s.pkg.duty
  let s1 := { s with pkg := { s.pkg with therm := t, pwr := w, duty := duty } }
  let s2 := if hot || trip then holdAll s1 6 else s1
  let s3 := if high then holdAll s2 7 else s2
  if trip then tellAll s3 6 else s3

/-- POWER_SAMPLE, every 65,536 wall cycles (R412). At 125 °C all state is lost. -/
def execPowerSample (s : State) : Host.Outcome State Fault Refusal :=
  if s.wb % 65536 != 0 || s.pkg.boot != .running then .next s
  else
    let t := Config.therm s.wb
    let w := Config.power s.wb
    if anyDie t (fun x => decide (x ≥ 125)) then
      .next { State.reset with wb := s.wb, free := s.free, pkg := { State.reset.pkg with powerCut := true } }
    else .next (powerAct s t w)

end Sys2Proof.Machine
end

