-- ==== Sys2Proof/Machine/Scalar.lean ====
section
/-! DEFINITION. Integer arithmetic, compare, bit operations, immediates and constants: majors 0x01–0x0F (R97–R104). -/

namespace Sys2Proof.Machine

/-- 0 or 1 as a word. -/
def boolWord (b : Bool) : Word := if b then 1 else 0

/-- The count `n = y[5:0]` (R101). -/
def cntOf (y : Word) : Nat := y.toNat % 64

/-- DIV with its edge cases (R101, R102). -/
def divS (x y : Word) : Word := if y = 0 then -1 else BitVec.ofInt 64 (Int.tdiv x.toInt y.toInt)
/-- DIVU (R102). -/
def divU (x y : Word) : Word := if y = 0 then -1 else BitVec.ofNat 64 (x.toNat / y.toNat)
/-- REM (R102). -/
def remS (x y : Word) : Word := if y = 0 then x else BitVec.ofInt 64 (x.toInt - y.toInt * Int.tdiv x.toInt y.toInt)
/-- REMU (R102). -/
def remU (x y : Word) : Word := if y = 0 then x else BitVec.ofNat 64 (x.toNat % y.toNat)

/-- SEXT: bits above `n` replaced by bit `n` (R101). -/
def sextAt (x : Word) (n : Nat) : Word := BitVec.ofInt 64 (toSigned (n + 1) x.toNat)
/-- ZEXT: bits above `n` cleared (R101). -/
def zextAt (x : Word) (n : Nat) : Word := BitVec.ofNat 64 (x.toNat % 2 ^ (n + 1))

/-- Reversal of the eight bytes (R101). -/
def bswap64 (x : Word) : Word := BitVec.ofNat 64 (ofBytes (bytesOf 8 x.toNat).reverse)

/-- IMM10 sign-extended (R103). -/
def immS (m : BitVec 10) : Word := BitVec.ofInt 64 m.toInt

/-- A two-source integer instruction (R97, R101). -/
def int2 (g : FDAB) (s : State) (f : Nat) (op : Word → Word → Word) : Host.Outcome State Fault Refusal :=
  op2 s g.d.toNat g.a.toNat g.b.toNat g.ka g.kb f (fun x y => (op x y, 0))

/-- A one-source integer instruction (R97, R101). -/
def int1 (g : FDA) (s : State) (f : Nat) (op : Word → Word) : Host.Outcome State Fault Refusal :=
  op1 s g.d.toNat g.a.toNat g.ka f (fun x => (op x, 0))

def execAdd (f : FDAB) (s : State) := int2 f s 1 (fun x y => x + y)
def execSub (f : FDAB) (s : State) := int2 f s 1 (fun x y => x - y)
def execAnd (f : FDAB) (s : State) := int2 f s 1 (fun x y => x &&& y)
def execOr (f : FDAB) (s : State) := int2 f s 1 (fun x y => x ||| y)
def execXor (f : FDAB) (s : State) := int2 f s 1 (fun x y => x ^^^ y)
def execShl (f : FDAB) (s : State) := int2 f s 1 (fun x y => x <<< cntOf y)
def execShr (f : FDAB) (s : State) := int2 f s 1 (fun x y => x >>> cntOf y)
def execSra (f : FDAB) (s : State) := int2 f s 1 (fun x y => x.sshiftRight (cntOf y))
def execMul (f : FDAB) (s : State) := int2 f s 3 (fun x y => x * y)
def execMulhs (f : FDAB) (s : State) := int2 f s 3 (fun x y => BitVec.ofInt 64 (x.toInt * y.toInt / (2 ^ 64 : Nat)))
def execMulhu (f : FDAB) (s : State) := int2 f s 3 (fun x y => BitVec.ofNat 64 (x.toNat * y.toNat / 2 ^ 64))
def execMin (f : FDAB) (s : State) := int2 f s 1 (fun x y => if x.slt y then x else y)
def execMax (f : FDAB) (s : State) := int2 f s 1 (fun x y => if x.slt y then y else x)
def execMinu (f : FDAB) (s : State) := int2 f s 1 (fun x y => if x.ult y then x else y)
def execMaxu (f : FDAB) (s : State) := int2 f s 1 (fun x y => if x.ult y then y else x)
def execAndn (f : FDAB) (s : State) := int2 f s 1 (fun x y => x &&& ~~~y)
def execSeq (f : FDAB) (s : State) := int2 f s 1 (fun x y => boolWord (x == y))
def execSne (f : FDAB) (s : State) := int2 f s 1 (fun x y => boolWord (x != y))
def execSlt (f : FDAB) (s : State) := int2 f s 1 (fun x y => boolWord (x.slt y))
def execSltu (f : FDAB) (s : State) := int2 f s 1 (fun x y => boolWord (x.ult y))
def execSge (f : FDAB) (s : State) := int2 f s 1 (fun x y => boolWord (!x.slt y))
def execSgeu (f : FDAB) (s : State) := int2 f s 1 (fun x y => boolWord (!x.ult y))
def execBext (f : FDAB) (s : State) := int2 f s 1 (fun x y => BitVec.ofNat 64 (bitAt x.toNat (cntOf y)))
def execBflip (f : FDAB) (s : State) := int2 f s 1 (fun x y => x ^^^ (1 <<< cntOf y))
def execDiv (f : FDAB) (s : State) := int2 f s 20 divS
def execDivu (f : FDAB) (s : State) := int2 f s 20 divU
def execRem (f : FDAB) (s : State) := int2 f s 20 remS
def execRemu (f : FDAB) (s : State) := int2 f s 20 remU
def execClz (f : FDA) (s : State) := int1 f s 1 (fun x => BitVec.ofNat 64 (clz64 x.toNat))
def execCtz (f : FDA) (s : State) := int1 f s 1 (fun x => BitVec.ofNat 64 (ctzN 64 x.toNat))
def execPopc (f : FDA) (s : State) := int1 f s 1 (fun x => BitVec.ofNat 64 (popN 64 x.toNat))
def execBrev (f : FDA) (s : State) := int1 f s 1 (fun x => BitVec.ofNat 64 (revN 64 x.toNat))
def execBswap (f : FDA) (s : State) := int1 f s 1 bswap64
def execSext (f : FDAB) (s : State) := int2 f s 1 (fun x y => sextAt x (cntOf y))
def execZext (f : FDAB) (s : State) := int2 f s 1 (fun x y => zextAt x (cntOf y))

/-- An immediate form: the format-R operation of the same name with `y` replaced (R103). -/
def intImm (f : FImm) (s : State) (op : Word → Word → Word) : Host.Outcome State Fault Refusal :=
  op1 s f.d.toNat f.a.toNat f.ka 1 (fun x => (op x (immS f.imm), 0))

/-- A shift by an immediate count (R103). -/
def shImm (f : FShI) (s : State) (op : Word → Nat → Word) : Host.Outcome State Fault Refusal :=
  op1 s f.d.toNat f.a.toNat f.ka 1 (fun x => (op x f.cnt.toNat, 0))

def execAddi (f : FImm) (s : State) := intImm f s (fun x y => x + y)
def execAndi (f : FImm) (s : State) := intImm f s (fun x y => x &&& y)
def execOri (f : FImm) (s : State) := intImm f s (fun x y => x ||| y)
def execXori (f : FImm) (s : State) := intImm f s (fun x y => x ^^^ y)
def execShli (f : FShI) (s : State) := shImm f s (fun x n => x <<< n)
def execShri (f : FShI) (s : State) := shImm f s (fun x n => x >>> n)
def execSrai (f : FShI) (s : State) := shImm f s (fun x n => x.sshiftRight n)
def execSlti (f : FImm) (s : State) := intImm f s (fun x y => boolWord (x.slt y))

/-- LI pushes IMM17 sign-extended (R104). -/
def execLi (f : FU) (s : State) : Host.Outcome State Fault Refusal :=
  issue1 s true (fun s => do dstOk s f.d.toNat; return result s 1 f.d.toNat (BitVec.ofInt 64 f.imm.toInt))

/-- LCAT pops D and pushes `(x << 17) OR IMM17`; with q0 it has no effect (R104). -/
def execLcat (f : FU) (s : State) : Host.Outcome State Fault Refusal :=
  op1 s f.d.toNat f.d.toNat false 1 (fun x => ((x <<< 17) ||| BitVec.ofNat 64 f.imm.toNat, 0))

end Sys2Proof.Machine
end

