-- ==== Sys2Proof/Machine/System.lean ====
section
/-! DEFINITION. The system instructions: major 0x3B (R405–R408, R411). -/

namespace Sys2Proof.Machine

/-- On a compute core the major is ILLEGAL, REASON 0x07 (R88, R406). -/
def sysOnly (s : State) : Res Unit :=
  if s.onSys then .ok () else .error (.trap 0x01 (0x01 + 7 * 2 ^ 8 + s.fetchWord s.curCore (s.slotOf s.curCore) s.cur.pc * 2 ^ 32))

/-- ILLEGAL class 0x15 (R407). -/
def sysIllegal (reason a : Nat) : Stop := illegalOp 0x15 reason a

/-- Partition of the current system core. -/
def sysPart (s : State) : Nat := s.partOfDie (s.curSys / 2)

/-! ## The translation buffer (R406) -/

/-- A die of this package in the system core's partition, from a virtual address. -/
def ownDie (s : State) (va : Nat) : Bool :=
  let p := sysPart s
  va >>> 57 == 0 && vaPkg va == s.pkg.pkg && decide (p ≤ vaDie va ∧ vaDie va < p + (s.part p).size)

/-- A request at a die is for a page. -/
def reqInPage (s : State) (die : Nat) (p : Page) (key id : Nat) : Bool :=
  match queuedReq s die key id with
  | some r => p.holds (vaOff r.1)
  | none => false

/-- A request that used a page's entry has not performed: one in a channel's queue, a MIGR that copies the page or waits to (R318, R406). -/
def pageInUse (s : State) (die : Nat) (p : Page) : Bool :=
  (List.range 128).any (fun e => (s.engOf (engNo die e)).queue.any (fun x => reqInPage s die p x.key x.id))
    || (s.die die).migr.any (fun m => m.page == p.first) || (s.die die).migrWait.any (fun x => reqInPage s die p x.1 x.2)

/-- An instruction of two operands and a result of a system core: its answer, or the state in which it waits for one. -/
def sysWait (f : FDAB) (s : State) (body : State → Nat → Nat → Res (Option (Word × State) × State)) : Host.Outcome State Fault Refusal :=
  issue s { pre := sysOnly } (fun s => do
    match ← body s (readG s f.a.toNat).toNat (readG s f.b.toNat).toNat with
    | (some (v, t), _) => return (writeG t f.d.toNat v, .seq 1)
    | (none, t) => return (t, .settled))

/-- One that changes nothing while it waits. -/
def sysOp (f : FDAB) (s : State) (body : State → Nat → Nat → Res (Option (Word × State))) : Host.Outcome State Fault Refusal :=
  sysWait f s (fun s a b => do return (← body s a b, s))

/-- The checks of a page's address and of an operand B that is zero. -/
def pageArg (s : State) (low : Bool) (a b : Nat) : Res Unit :=
  if (low && a % 65536 != 0) || b != 0 then .error (sysIllegal 0x01 a)
  else if !ownDie s a then .error (sysIllegal 0x02 a)
  else .ok ()

/-- MTLBINV drops the page's entry, once every request that used it has performed (R406). -/
def execMtlbinv (f : FDAB) (s : State) : Host.Outcome State Fault Refusal :=
  sysOp f s (fun s a b => do
    pageArg s true a b
    let n := vaDie a
    let d := s.die n
    match tlbPage d (vaOff a) with
    | none => return some (0, s)
    | some p =>
      if pageInUse s n p then return none
      return some (1, s.setDie n { d with tlb := d.tlb.erase p.first }))

/-- MTLBWR loads the page's entry (R406). -/
def execMtlbwr (f : FDAB) (s : State) : Host.Outcome State Fault Refusal :=
  sysOp f s (fun s a b => do
    pageArg s false a b
    let n := vaDie a
    let d := s.die n
    match pageAt d (vaOff a) with
    | none => return some (0, s)
    | some p => return some (1, s.setDie n { d with tlb := d.tlb.set p.first (p.w0, p.w1) }))

/-! ## The partition's tables (R407) -/

/-- A partition die named by a selector, or reason 0x02. -/
def selDie (s : State) (a idx : Nat) : Res Nat :=
  let p := sysPart s
  if idx ≥ (s.part p).size then .error (sysIllegal 0x02 a) else .ok (p + idx)

/-- A page-table word written: V going from 0 to 1 resets the page's race tags (R304, R314, R406). -/
def putPte (d : DieSt) (page w v : Nat) : DieSt :=
  let old := pteWord d page w
  let new :=
    if w = 0 then bits v 5 0 + bits old 7 6 * 2 ^ 6 + bits v 47 8 * 2 ^ 8 else bits v 24 0
  let d1 := { d with pte := d.pte.set (page * 2 + w) (BitVec.ofNat 64 new) }
  if w = 0 && !bitB old 0 && bitB new 0 then
    let n := if bitB new 1 then 512 else 16
    { d1 with race := d1.race.filter (fun x => !decide (page * 16 ≤ x.1 ∧ x.1 < page * 16 + n)) }
  else d1

/-- Every active run of a group on the partition's engines aborts, the group's epochs start again, and what the engines hold of its earlier runs,
or still receive, is not for a later one (R343, R362). -/
def regroup (s : State) (p g : Nat) : State :=
  (partDies s p).foldl (fun s die =>
    let s1 := match runOf s die g with | some r => abortRun s die r 0x06 | none => s
    let e := s1.cxe die
    s1.setCxe die { e with
      epochs := e.epochs.filter (fun x => x.1 % 64 != g)
      units := e.units.filter (fun u => u.group != g)
      aborts := e.aborts.filter (fun x => x.2.1 != g)
      installs := e.installs.set g s.wb }) s

/-- Bits of an index that its table names (R407). -/
def lptBits (table : Nat) : Nat :=
  match table with | 0 => 36 | 1 => 13 | 2 => 16 | 3 => 12 | 4 => 6 | 5 => 9 | 6 => 10 | _ => 1

/-- The running task has a core on a die. -/
def taskOn (s : State) (p die : Nat) : Bool :=
  match (s.part p).runSlot with
  | none => false
  | some r => (taskCores (s.dom p r)).any (fun c => c / 32 == die)

/-- A table word written: the old word and the state (R407). -/
def lptWrite (s : State) (a v : Nat) : Res (Word × State) := do
  let p := sysPart s
  let q := s.part p
  let table := bits a 63 60
  let sel := bits a 59 0
  if table ≥ 8 || sel >>> lptBits table != 0 then throw (sysIllegal 0x01 a)
  match table with
  | 0 =>
    let n ← selDie s a (bits sel 35 33)
    let d := s.die n
    let page := bits sel 31 0
    let w := bits sel 32 32
    if bits (pteWord d page 0) 7 6 == 1 then throw (sysIllegal 0x03 a)
    return (d.pte.getD (page * 2 + w) 0, s.setDie n (putPte d page w v))
  | 1 =>
    let n ← selDie s a (bits sel 9 7)
    if taskOn s p n then throw (sysIllegal 0x03 a)
    let k := engNo n (bits sel 6 0)
    let e := s.engOf k
    let w := bits sel 12 10
    return (BitVec.ofNat 64 (timingWord e w), s.setEngOf k { e with timing := e.timing.set w (timingFields w v) })
  | 2 =>
    let g := bits sel 5 0
    let w := bits sel 15 6
    let s1 := s.setPart p { q with groups := q.groups.set (g * 1024 + w) (BitVec.ofNat 64 v) }
    return (q.groups.getD (g * 1024 + w) 0, regroup s1 p g)
  | 3 =>
    if sel / 512 ≥ q.size then throw (sysIllegal 0x02 a)
    return (q.owners.getD sel 0, s.setPart p { q with owners := q.owners.set sel (BitVec.ofNat 64 (v % 8)) })
  | 4 => return (q.perms.getD sel 0, s.setPart p { q with perms := q.perms.set sel (BitVec.ofNat 64 (v % 8)) })
  | 5 =>
    if bits sel 7 0 ≥ 32 * q.size then throw (sysIllegal 0x02 a)
    return (q.saves.getD sel 0, s.setPart p { q with saves := q.saves.set sel (BitVec.ofNat 64 v) })
  | 6 =>
    let n ← selDie s a (bits sel 9 7)
    let k := engNo n (bits sel 6 0)
    let e := s.engOf k
    return ((e.scrubCfg).getD (BitVec.ofNat 64 (64 + 16 * 2 ^ 16)),
      s.setEngOf k { e with scrubCfg := some (BitVec.ofNat 64 (v % 2 ^ 32)) })
  | _ =>
    if sel = 0 then return (q.wddef, s.setPart p { q with wddef := BitVec.ofNat 64 (v % 2 ^ 32) })
    else return (q.colto, s.setPart p { q with colto := BitVec.ofNat 64 (v % 2 ^ 32) })

def execLptwr (f : FDAB) (s : State) : Host.Outcome State Fault Refusal :=
  sysOp f s (fun s a v => do return some (← lptWrite s a v))

/-! ## The hypervisor (R408, R411) -/

/-- Size code of a partition, as DMR.PSIZE (R18). -/
def sizeCode (n : Nat) : Nat := if n = 1 then 0 else if n = 2 then 1 else if n = 4 then 2 else 3

/-- The quote over a nonce: SHA-384 of the nonce, the package's identity, MR0–MR7 and the partition layout, and its signature, r and s of 48
bytes each (R411). The signature, and how identity and layout are written as bytes, are free. -/
def quoteBytes (s : State) (nonce : Nat) : List Byte :=
  let d := sha384 (bytesOf 64 nonce ++ Config.identity ++ (List.range 8).flatMap (fun m => bigBytes 48 (s.pkg.mr.getD m 0))
    ++ Config.layoutBytes (s.parts.map (fun p => (p.1, p.2.size))))
  let r := Config.signature s.free d
  d ++ bigBytes 48 (r.1 % 2 ^ 384) ++ bigBytes 48 (r.2 % 2 ^ 384)

/-- ATTEST reads the nonce at the start of its area and then writes the quote behind it, as paged accesses of the system core to the area's
owner, in whatever package; a fault of either answers 1 (R408, R411; log 74). No answer yet where it waits. -/
def attest (s : State) (va : Nat) : Option (Word × State) × State :=
  let x := s.sys
  let go (s : State) (op : AuOp) (va size v : Nat) : State := sysAsk (s.setSys { s.sys with ans := none }) op va size v none
  match x.ans, x.nonce with
  | none, _ =>
    if x.req.isSome then (none, s)
    else if va >>> 57 != 0 then (some (1, s), s)
    else (none, go s .load va 64 0)
  | some (cause, v), none =>
    if cause != 0 then (some (1, s.setSys { x with req := none, ans := none }), s)
    else
      let t := go (s.setSys { x with nonce := some v }) .store (va + 64) 144 (ofBytes (quoteBytes s v))
      (none, { t with free := t.free + 1 })
  | some (cause, _), some _ => (some (BitVec.ofNat 64 (b2n (cause != 0)), s.setSys { x with req := none, ans := none, nonce := none }), s)

/-- HVCALL of a call number (R408); the word is one for all calls, which operand A names. -/
def hvcall (f : FDAB) (s : State) : Host.Outcome State Fault Refusal :=
  sysWait f s (fun s a b =>
    let p := sysPart s
    let q := s.part p
    let now (v : Word) : Option (Word × State) × State := (some (v, s), s)
    .ok (match a with
      | 0 => now Config.hvVersion
      | 1 => now (BitVec.ofNat 64 (p % 8 + sizeCode q.size * 2 ^ 3 + (s.pkg.pkg % 64) * 2 ^ 5))
      | 2 => if b < q.size then now (BitVec.ofNat 64 (q.frame0.getD b 0 % 2 ^ 32 + (q.frames.getD b 0 % 2 ^ 32) * 2 ^ 32)) else (some (fresh s), s)
      | 3 => attest s b
      | _ => now 0xFFFFFFFFFFFFFFFF))

def execHvcallVersion (f : FDAB) (s : State) := hvcall f s
def execHvcallPartinfo (f : FDAB) (s : State) := hvcall f s
def execHvcallFrames (f : FDAB) (s : State) := hvcall f s
def execHvcallAttest (f : FDAB) (s : State) := hvcall f s

end Sys2Proof.Machine
end

