-- ==== Sys2Proof/Machine/Dispatch.lean ====
section
/-! DEFINITION. One arm for each instruction and each event: a direct call of its meaning. -/

namespace Sys2Proof.Machine

open Sys2Proof

/-- What an instruction or an event does to the state. -/
def exec (i : Instr) (s : State) : Host.Outcome State Fault Refusal :=
  match i with
  | .launchPacketWrite => Sys2Proof.Machine.execLaunchPacketWrite s
  | .launch => Sys2Proof.Machine.execLaunch s
  | .taskCompletion => Sys2Proof.Machine.execTaskCompletion s
  | .corePartEnd => Sys2Proof.Machine.execCorePartEnd s
  | .slathBarrierComplete => Sys2Proof.Machine.execSlathBarrierComplete s
  | .slathWatchdog => Sys2Proof.Machine.execSlathWatchdog s
  | .domainFreeze => Sys2Proof.Machine.execDomainFreeze s
  | .holdRequest => Sys2Proof.Machine.execHoldRequest s
  | .holdRelease => Sys2Proof.Machine.execHoldRelease s
  | .domainResume => Sys2Proof.Machine.execDomainResume s
  | .phaseCommit => Sys2Proof.Machine.execPhaseCommit s
  | .phaseMismatch => Sys2Proof.Machine.execPhaseMismatch s
  | .phaseCancel => Sys2Proof.Machine.execPhaseCancel s
  | .segcntLate => Sys2Proof.Machine.execSegcntLate s
  | .watchdogExpiry => Sys2Proof.Machine.execWatchdogExpiry s
  | .resultPerform => Sys2Proof.Machine.execResultPerform s
  | .streamDrive => Sys2Proof.Machine.execStreamDrive s
  | .streamStore => Sys2Proof.Machine.execStreamStore s
  | .factStep => Sys2Proof.Machine.execFactStep s
  | .recordChangeApply => Sys2Proof.Machine.execRecordChangeApply s
  | .plainArrivalApply => Sys2Proof.Machine.execPlainArrivalApply s
  | .reducingWriteApply => Sys2Proof.Machine.execReducingWriteApply s
  | .loadLanding => Sys2Proof.Machine.execLoadLanding s
  | .lineFillLanding => Sys2Proof.Machine.execLineFillLanding s
  | .pagedRequestArrival => Sys2Proof.Machine.execPagedRequestArrival s
  | .pagedRequestPerform => Sys2Proof.Machine.execPagedRequestPerform s
  | .spaceManagerAnswer => Sys2Proof.Machine.execSpaceManagerAnswer s
  | .migrCompletion => Sys2Proof.Machine.execMigrCompletion s
  | .migrationCopyEnd => Sys2Proof.Machine.execMigrationCopyEnd s
  | .mcbindArrival => Sys2Proof.Machine.execMcbindArrival s
  | .mcbaseArrival => Sys2Proof.Machine.execMcbaseArrival s
  | .mcstartArrival => Sys2Proof.Machine.execMcstartArrival s
  | .mcstopArrival => Sys2Proof.Machine.execMcstopArrival s
  | .mcstatPageWrite => Sys2Proof.Machine.execMcstatPageWrite s
  | .tableStart => Sys2Proof.Machine.execTableStart s
  | .refreshTick => Sys2Proof.Machine.execRefreshTick s
  | .standingRefresh => Sys2Proof.Machine.execStandingRefresh s
  | .mcRdData => Sys2Proof.Machine.execMcRdData s
  | .mcWrTake => Sys2Proof.Machine.execMcWrTake s
  | .svwEnd => Sys2Proof.Machine.execSvwEnd s
  | .keeperEntry => Sys2Proof.Machine.execKeeperEntry s
  | .keeperRefab => Sys2Proof.Machine.execKeeperRefab s
  | .keeperScrubStep => Sys2Proof.Machine.execKeeperScrubStep s
  | .keeperReopen => Sys2Proof.Machine.execKeeperReopen s
  | .scrubStep => Sys2Proof.Machine.execScrubStep s
  | .collectiveRunStart => Sys2Proof.Machine.execCollectiveRunStart s
  | .collectiveUnitArrival => Sys2Proof.Machine.execCollectiveUnitArrival s
  | .mcastUnitArrival => Sys2Proof.Machine.execMcastUnitArrival s
  | .abortUnitArrival => Sys2Proof.Machine.execAbortUnitArrival s
  | .collectiveTimeout => Sys2Proof.Machine.execCollectiveTimeout s
  | .collabort => Sys2Proof.Machine.execCollabort s
  | .contextSwitch => Sys2Proof.Machine.execContextSwitch s
  | .saveComplete => Sys2Proof.Machine.execSaveComplete s
  | .restoreComplete => Sys2Proof.Machine.execRestoreComplete s
  | .doorbellNotify => Sys2Proof.Machine.execDoorbellNotify s
  | .doorbellUnmap => Sys2Proof.Machine.execDoorbellUnmap s
  | .doorbellMap => Sys2Proof.Machine.execDoorbellMap s
  | .systemEvent => Sys2Proof.Machine.execSystemEvent s
  | .powerSample => Sys2Proof.Machine.execPowerSample s
  | .boot => Sys2Proof.Machine.execBoot s
  | .recoveryImage => Sys2Proof.Machine.execRecoveryImage s
  | .linkFlitRetry => Sys2Proof.Machine.execLinkFlitRetry s
  | .linkDown => Sys2Proof.Machine.execLinkDown s
  | .linkLaneLoss => Sys2Proof.Machine.execLinkLaneLoss s
  | .add f => Sys2Proof.Machine.execAdd f s
  | .sub f => Sys2Proof.Machine.execSub f s
  | .and f => Sys2Proof.Machine.execAnd f s
  | .or f => Sys2Proof.Machine.execOr f s
  | .xor f => Sys2Proof.Machine.execXor f s
  | .shl f => Sys2Proof.Machine.execShl f s
  | .shr f => Sys2Proof.Machine.execShr f s
  | .sra f => Sys2Proof.Machine.execSra f s
  | .mul f => Sys2Proof.Machine.execMul f s
  | .mulhs f => Sys2Proof.Machine.execMulhs f s
  | .mulhu f => Sys2Proof.Machine.execMulhu f s
  | .min f => Sys2Proof.Machine.execMin f s
  | .max f => Sys2Proof.Machine.execMax f s
  | .minu f => Sys2Proof.Machine.execMinu f s
  | .maxu f => Sys2Proof.Machine.execMaxu f s
  | .andn f => Sys2Proof.Machine.execAndn f s
  | .seq f => Sys2Proof.Machine.execSeq f s
  | .sne f => Sys2Proof.Machine.execSne f s
  | .slt f => Sys2Proof.Machine.execSlt f s
  | .sltu f => Sys2Proof.Machine.execSltu f s
  | .sge f => Sys2Proof.Machine.execSge f s
  | .sgeu f => Sys2Proof.Machine.execSgeu f s
  | .bext f => Sys2Proof.Machine.execBext f s
  | .bflip f => Sys2Proof.Machine.execBflip f s
  | .div f => Sys2Proof.Machine.execDiv f s
  | .divu f => Sys2Proof.Machine.execDivu f s
  | .rem f => Sys2Proof.Machine.execRem f s
  | .remu f => Sys2Proof.Machine.execRemu f s
  | .clz f => Sys2Proof.Machine.execClz f s
  | .ctz f => Sys2Proof.Machine.execCtz f s
  | .popc f => Sys2Proof.Machine.execPopc f s
  | .brev f => Sys2Proof.Machine.execBrev f s
  | .bswap f => Sys2Proof.Machine.execBswap f s
  | .sext f => Sys2Proof.Machine.execSext f s
  | .zext f => Sys2Proof.Machine.execZext f s
  | .addi f => Sys2Proof.Machine.execAddi f s
  | .andi f => Sys2Proof.Machine.execAndi f s
  | .ori f => Sys2Proof.Machine.execOri f s
  | .xori f => Sys2Proof.Machine.execXori f s
  | .shli f => Sys2Proof.Machine.execShli f s
  | .shri f => Sys2Proof.Machine.execShri f s
  | .srai f => Sys2Proof.Machine.execSrai f s
  | .slti f => Sys2Proof.Machine.execSlti f s
  | .li f => Sys2Proof.Machine.execLi f s
  | .lcat f => Sys2Proof.Machine.execLcat f s
  | .idle f => Sys2Proof.Machine.execIdle f s
  | .mov f => Sys2Proof.Machine.execMov f s
  | .drop f => Sys2Proof.Machine.execDrop f s
  | .qcnt f => Sys2Proof.Machine.execQcnt f s
  | .qclr f => Sys2Proof.Machine.execQclr f s
  | .brc f => Sys2Proof.Machine.execBrc f s
  | .br f => Sys2Proof.Machine.execBr f s
  | .grd f => Sys2Proof.Machine.execGrd f s
  | .loop f => Sys2Proof.Machine.execLoop f s
  | .call f => Sys2Proof.Machine.execCall f s
  | .jr f => Sys2Proof.Machine.execJr f s
  | .jrl f => Sys2Proof.Machine.execJrl f s
  | .seg f => Sys2Proof.Machine.execSeg f s
  | .segend => Sys2Proof.Machine.execSegend s
  | .slath => Sys2Proof.Machine.execSlath s
  | .tbrd f => Sys2Proof.Machine.execTbrd f s
  | .wbrd f => Sys2Proof.Machine.execWbrd f s
  | .phase f => Sys2Proof.Machine.execPhase f s
  | .waitq f => Sys2Proof.Machine.execWaitq f s
  | .waitf f => Sys2Proof.Machine.execWaitf f s
  | .openS f => Sys2Proof.Machine.execOpenS f s
  | .close f => Sys2Proof.Machine.execClose f s
  | .sadv f => Sys2Proof.Machine.execSadv f s
  | .srew f => Sys2Proof.Machine.execSrew f s
  | .sstat f => Sys2Proof.Machine.execSstat f s
  | .ltwr f => Sys2Proof.Machine.execLtwr f s
  | .ltrd f => Sys2Proof.Machine.execLtrd f s
  | .fpwr f => Sys2Proof.Machine.execFpwr f s
  | .fprd f => Sys2Proof.Machine.execFprd f s
  | .tswr f => Sys2Proof.Machine.execTswr f s
  | .tsrd f => Sys2Proof.Machine.execTsrd f s
  | .fadd f => Sys2Proof.Machine.execFadd f s
  | .fsub f => Sys2Proof.Machine.execFsub f s
  | .fmul f => Sys2Proof.Machine.execFmul f s
  | .fdiv f => Sys2Proof.Machine.execFdiv f s
  | .fsqrt f => Sys2Proof.Machine.execFsqrt f s
  | .fcmplt f => Sys2Proof.Machine.execFcmplt f s
  | .fcvti f => Sys2Proof.Machine.execFcvti f s
  | .icvtf f => Sys2Proof.Machine.execIcvtf f s
  | .ldsD f => Sys2Proof.Machine.execLdsD f s
  | .ldsWu f => Sys2Proof.Machine.execLdsWu f s
  | .ldsWs f => Sys2Proof.Machine.execLdsWs f s
  | .ldsHu f => Sys2Proof.Machine.execLdsHu f s
  | .ldsBu f => Sys2Proof.Machine.execLdsBu f s
  | .stsD f => Sys2Proof.Machine.execStsD f s
  | .stsW f => Sys2Proof.Machine.execStsW f s
  | .stsH f => Sys2Proof.Machine.execStsH f s
  | .stsB f => Sys2Proof.Machine.execStsB f s
  | .ldq f => Sys2Proof.Machine.execLdq f s
  | .ldqLineFill f => Sys2Proof.Machine.execLdqLineFill f s
  | .stq f => Sys2Proof.Machine.execStq f s
  | .rstq f => Sys2Proof.Machine.execRstq f s
  | .migr f => Sys2Proof.Machine.execMigr f s
  | .austat f => Sys2Proof.Machine.execAustat f s
  | .amoadd f => Sys2Proof.Machine.execAmoadd f s
  | .amomax f => Sys2Proof.Machine.execAmomax f s
  | .amoswp f => Sys2Proof.Machine.execAmoswp f s
  | .amocas f => Sys2Proof.Machine.execAmocas f s
  | .pamoadd f => Sys2Proof.Machine.execPamoadd f s
  | .pamocas f => Sys2Proof.Machine.execPamocas f s
  | .flagrd f => Sys2Proof.Machine.execFlagrd f s
  | .flagset f => Sys2Proof.Machine.execFlagset f s
  | .vadd f => Sys2Proof.Machine.execVadd f s
  | .vsub f => Sys2Proof.Machine.execVsub f s
  | .vmul f => Sys2Proof.Machine.execVmul f s
  | .vfma f => Sys2Proof.Machine.execVfma f s
  | .vfms f => Sys2Proof.Machine.execVfms f s
  | .vmin f => Sys2Proof.Machine.execVmin f s
  | .vmax f => Sys2Proof.Machine.execVmax f s
  | .vabs f => Sys2Proof.Machine.execVabs f s
  | .vneg f => Sys2Proof.Machine.execVneg f s
  | .vadds f => Sys2Proof.Machine.execVadds f s
  | .vsubs f => Sys2Proof.Machine.execVsubs f s
  | .vmulhi f => Sys2Proof.Machine.execVmulhi f s
  | .vdiff f => Sys2Proof.Machine.execVdiff f s
  | .vrcp f => Sys2Proof.Machine.execVrcp f s
  | .vrsq f => Sys2Proof.Machine.execVrsq f s
  | .vsqrt f => Sys2Proof.Machine.execVsqrt f s
  | .vexp2 f => Sys2Proof.Machine.execVexp2 f s
  | .vlog2 f => Sys2Proof.Machine.execVlog2 f s
  | .vfloor f => Sys2Proof.Machine.execVfloor f s
  | .vround f => Sys2Proof.Machine.execVround f s
  | .vscale f => Sys2Proof.Machine.execVscale f s
  | .vand f => Sys2Proof.Machine.execVand f s
  | .vor f => Sys2Proof.Machine.execVor f s
  | .vxor f => Sys2Proof.Machine.execVxor f s
  | .vandn f => Sys2Proof.Machine.execVandn f s
  | .vshl f => Sys2Proof.Machine.execVshl f s
  | .vshr f => Sys2Proof.Machine.execVshr f s
  | .vsra f => Sys2Proof.Machine.execVsra f s
  | .vpopc f => Sys2Proof.Machine.execVpopc f s
  | .vceq f => Sys2Proof.Machine.execVceq f s
  | .vcne f => Sys2Proof.Machine.execVcne f s
  | .vclt f => Sys2Proof.Machine.execVclt f s
  | .vcle f => Sys2Proof.Machine.execVcle f s
  | .vcun f => Sys2Proof.Machine.execVcun f s
  | .vsel f => Sys2Proof.Machine.execVsel f s
  | .vsum f => Sys2Proof.Machine.execVsum f s
  | .vmaxr f => Sys2Proof.Machine.execVmaxr f s
  | .vminr f => Sys2Proof.Machine.execVminr f s
  | .vamaxr f => Sys2Proof.Machine.execVamaxr f s
  | .vsumsq f => Sys2Proof.Machine.execVsumsq f s
  | .vdot f => Sys2Proof.Machine.execVdot f s
  | .vcvt f => Sys2Proof.Machine.execVcvt f s
  | .vbcast f => Sys2Proof.Machine.execVbcast f s
  | .vzip f => Sys2Proof.Machine.execVzip f s
  | .vunzip f => Sys2Proof.Machine.execVunzip f s
  | .vrev f => Sys2Proof.Machine.execVrev f s
  | .vshufl f => Sys2Proof.Machine.execVshufl f s
  | .vrotl f => Sys2Proof.Machine.execVrotl f s
  | .vunpk3 f => Sys2Proof.Machine.execVunpk3 f s
  | .vunpk4 f => Sys2Proof.Machine.execVunpk4 f s
  | .vtoq f => Sys2Proof.Machine.execVtoq f s
  | .vfromq f => Sys2Proof.Machine.execVfromq f s
  | .viota f => Sys2Proof.Machine.execViota f s
  | .vzero f => Sys2Proof.Machine.execVzero f s
  | .mmaFlt f => Sys2Proof.Machine.execMmaFlt f s
  | .mmaW4 f => Sys2Proof.Machine.execMmaW4 f s
  | .mmaL6 f => Sys2Proof.Machine.execMmaL6 f s
  | .mmaT3 f => Sys2Proof.Machine.execMmaT3 f s
  | .mmaI8 f => Sys2Proof.Machine.execMmaI8 f s
  | .mmaF32 f => Sys2Proof.Machine.execMmaF32 f s
  | .accz f => Sys2Proof.Machine.execAccz f s
  | .accmv f => Sys2Proof.Machine.execAccmv f s
  | .accld f => Sys2Proof.Machine.execAccld f s
  | .accadd f => Sys2Proof.Machine.execAccadd f s
  | .chol f => Sys2Proof.Machine.execChol f s
  | .lup f => Sys2Proof.Machine.execLup f s
  | .givqr f => Sys2Proof.Machine.execGivqr f s
  | .grot f => Sys2Proof.Machine.execGrot f s
  | .trsm f => Sys2Proof.Machine.execTrsm f s
  | .accrd f => Sys2Proof.Machine.execAccrd f s
  | .accwr f => Sys2Proof.Machine.execAccwr f s
  | .pivrd f => Sys2Proof.Machine.execPivrd f s
  | .gfrd f => Sys2Proof.Machine.execGfrd f s
  | .estep f => Sys2Proof.Machine.execEstep f s
  | .resume f => Sys2Proof.Machine.execResume f s
  | .eabort f => Sys2Proof.Machine.execEabort f s
  | .quantTensor f => Sys2Proof.Machine.execQuantTensor f s
  | .quantBlock f => Sys2Proof.Machine.execQuantBlock f s
  | .quantBlockTensor f => Sys2Proof.Machine.execQuantBlockTensor f s
  | .quantCast f => Sys2Proof.Machine.execQuantCast f s
  | .dequantTensor f => Sys2Proof.Machine.execDequantTensor f s
  | .dequantBlock f => Sys2Proof.Machine.execDequantBlock f s
  | .dequantBlockTensor f => Sys2Proof.Machine.execDequantBlockTensor f s
  | .dequantCast f => Sys2Proof.Machine.execDequantCast f s
  | .stbind f => Sys2Proof.Machine.execStbind f s
  | .stclr f => Sys2Proof.Machine.execStclr f s
  | .strd f => Sys2Proof.Machine.execStrd f s
  | .stmerge f => Sys2Proof.Machine.execStmerge f s
  | .stgen f => Sys2Proof.Machine.execStgen f s
  | .stset f => Sys2Proof.Machine.execStset f s
  | .mcstart f => Sys2Proof.Machine.execMcstart f s
  | .mcstopStop f => Sys2Proof.Machine.execMcstopStop f s
  | .mcstopSkip f => Sys2Proof.Machine.execMcstopSkip f s
  | .mcbase f => Sys2Proof.Machine.execMcbase f s
  | .mcbind f => Sys2Proof.Machine.execMcbind f s
  | .mcstat f => Sys2Proof.Machine.execMcstat f s
  | .colstart f => Sys2Proof.Machine.execColstart f s
  | .colstat f => Sys2Proof.Machine.execColstat f s
  | .colabort f => Sys2Proof.Machine.execColabort f s
  | .csrrd f => Sys2Proof.Machine.execCsrrd f s
  | .csrwr f => Sys2Proof.Machine.execCsrwr f s
  | .trap f => Sys2Proof.Machine.execTrap f s
  | .tret => Sys2Proof.Machine.execTret s
  | .ctxrd f => Sys2Proof.Machine.execCtxrd f s
  | .ctxwr f => Sys2Proof.Machine.execCtxwr f s
  | .ctxswSwitch f => Sys2Proof.Machine.execCtxswSwitch f s
  | .ctxswSave f => Sys2Proof.Machine.execCtxswSave f s
  | .ctxswRestore f => Sys2Proof.Machine.execCtxswRestore f s
  | .ctxswRelease f => Sys2Proof.Machine.execCtxswRelease f s
  | .ctxswEnd f => Sys2Proof.Machine.execCtxswEnd f s
  | .ctxswHold f => Sys2Proof.Machine.execCtxswHold f s
  | .snap => Sys2Proof.Machine.execSnap s
  | .fence => Sys2Proof.Machine.execFence s
  | .halt => Sys2Proof.Machine.execHalt s
  | .mtlbinv f => Sys2Proof.Machine.execMtlbinv f s
  | .mtlbwr f => Sys2Proof.Machine.execMtlbwr f s
  | .lptwr f => Sys2Proof.Machine.execLptwr f s
  | .hvcallVersion f => Sys2Proof.Machine.execHvcallVersion f s
  | .hvcallPartinfo f => Sys2Proof.Machine.execHvcallPartinfo f s
  | .hvcallFrames f => Sys2Proof.Machine.execHvcallFrames f s
  | .hvcallAttest f => Sys2Proof.Machine.execHvcallAttest f s
  | .mcAct f => Sys2Proof.Machine.execMcAct f s
  | .mcRd f => Sys2Proof.Machine.execMcRd f s
  | .mcWr f => Sys2Proof.Machine.execMcWr f s
  | .mcPre f => Sys2Proof.Machine.execMcPre f s
  | .mcPrea => Sys2Proof.Machine.execMcPrea s
  | .mcRefpb f => Sys2Proof.Machine.execMcRefpb f s
  | .mcRefab => Sys2Proof.Machine.execMcRefab s
  | .mcTag f => Sys2Proof.Machine.execMcTag f s
  | .mcBind f => Sys2Proof.Machine.execMcBind f s
  | .mcSvw f => Sys2Proof.Machine.execMcSvw f s
  | .mcLoop f => Sys2Proof.Machine.execMcLoop f s
  | .mcEnd => Sys2Proof.Machine.execMcEnd s
  | .mcDly f => Sys2Proof.Machine.execMcDly f s
  | .cxNop => Sys2Proof.Machine.execCxNop s
  | .cxSend f => Sys2Proof.Machine.execCxSend f s
  | .cxRecv f => Sys2Proof.Machine.execCxRecv f s
  | .cxRrs f => Sys2Proof.Machine.execCxRrs f s
  | .cxCopy f => Sys2Proof.Machine.execCxCopy f s
  | .cxRed f => Sys2Proof.Machine.execCxRed f s
  | .cxWaitDelivery f => Sys2Proof.Machine.execCxWaitDelivery f s
  | .cxWaitFlag f => Sys2Proof.Machine.execCxWaitFlag f s
  | .cxLoop f => Sys2Proof.Machine.execCxLoop f s
  | .cxPeer f => Sys2Proof.Machine.execCxPeer f s
  | .cxMcast f => Sys2Proof.Machine.execCxMcast f s
  | .cxDone f => Sys2Proof.Machine.execCxDone f s
  | .operandTap => Sys2Proof.Machine.execOperandTap s
  | .colabortArrival => Sys2Proof.Machine.execColabortArrival s
  | .migrationLineCopy => Sys2Proof.Machine.execMigrationLineCopy s

end Sys2Proof.Machine
end

