-- ==== Sys2Proof/Machine/Cycle.lean ====
section
/-! DEFINITION. What each agent does in one of its cycles, and what the clock does between wall cycles: the order of a core's cycle (R37,
R89), of an engine's (R220), the domain's freezes, catch-up and releases (R38–R45), and the agents that run next. -/

namespace Sys2Proof.Machine

/-- An event with its argument. -/
def evt (i : Instr) (a : EvArg) (s : State) : State :=
  match exec i { s with ev := a } with
  | .next t => t
  | .fault _ => s
  | .refused _ => s

/-- An event argument of four numbers. -/
def arg (a : Nat) (b : Nat := 0) (c : Nat := 0) (d : Nat := 0) (data : List Nat := []) : EvArg := ⟨a, b, c, d, data⟩

/-! ## Fetching and issuing -/

/-- The words at the pc of the current core's context. -/
def fetchWords (s : State) : List Nat :=
  (List.range 4).map (fun k => s.fetchWord s.curCore (s.slotOf s.curCore) (s.cur.pc + k))

/-- The words at the pc of the current system core. -/
def fetchSysWords (s : State) : List Nat := (List.range 4).map (fun k => s.fetchSys s.curSys (s.sys.pc + k))

/-- EINFO of an illegal encoding (R88). -/
def encodingInfo (reason word raw : Nat) : Nat := 0x01 + reason * 2 ^ 8 + word * 2 ^ 16 + (raw % 2 ^ 32) * 2 ^ 32

/-- What a check answers. -/
def stopOf (r : Res Unit) : Option Stop := match r with | .ok _ => none | .error st => some st

/-- SEGLATE of a SEG, or SEGCNT of a SEGEND, whose encoding is illegal: it ranks before the ILLEGAL of the word (R28, R29, R89). -/
def segStop (s : State) : Option Stop :=
  match firstWord ((fetchWords s).headD 0) ((fetchWords s).drop 1) with
  | .row _ _ (.seg f) => if (stopOf (segLegal s)).isNone then stopOf (segOnTime f s) else none
  | .row _ _ .segend => if (stopOf (segendLegal s)).isNone then stopOf (segendOnTime s) else none
  | _ => none

/-- The instruction at the pc of the current core is decoded and executed (R87); where a word of it fails its
parity, POISON is taken in its place (R397; log 66). -/
def runWord (s : State) : Host.Outcome State Fault Refusal :=
  if s.cur.badWord then .next ((takeStop s (.trap 0x15 (poisonInfo (6 * 2 ^ 9) 0 0))).modCur (fun c => { c with badWord := false }))
  else match decode false (fetchWords s) with
  | .ok i _ => exec i s
  | .illegal reason word raw => .next (takeStop s ((segStop s).getD (.trap 0x01 (encodingInfo reason word raw))))

/-- The word at the pc is due on the context's present cycle (R27, R376). -/
def wordReady (s : State) : Bool := s.cur.halted.isNone && decide (issueCycle s ≤ s.cur.now)

/-- A core whose word 0 is not SLATH stands before it on TB0 (R26); a SLATH with IDL other than 0 is not (DEDUCED, log 93). -/
def slathMissed (c : Ctx) : Bool := c.slathPend && c.slathed && c.pc == 0

/-- Before TB0 a core issues nothing but the SLATH at its word 0 (R25, R26); a word 0 that is SLATH with IDL other than 0 counts as none (DEDUCED, log 93). -/
def beforeTb0 (s : State) : Bool :=
  !s.cur.slathed && (s.cur.slathPend || s.fetchWord s.curCore (s.slotOf s.curCore) 0 != launchTask.slathCode)

/-- What the current core's sequencer does on the present cycle. -/
def issueNow (s : State) : Host.Outcome State Fault Refusal :=
  if s.cur.halted.isSome || beforeTb0 s then .next s
  else if slathMissed s.cur then .next (takeStop s (.trap 0x1A 0))
  else if !wordReady s then .next s
  else if s.cur.slathed && s.cur.slathPend then runWord (s.modCur (fun c => { c with slathPend := false }))
  else runWord s

/-! ## A core's cycle (R33, R37, R89) -/

/-- A cycle under way: the state so far, and what it would come to by each trap, with the trap's rank. -/
structure Pass where
  st : State
  stops : List (Nat × State)

/-- The stop that the current context has taken. -/
def stopTaken (c : Ctx) : Stop :=
  match c.frozen with
  | some f => if f.trap then .trap c.cause.toNat c.einfo.toNat else .hold f.kind 0
  | none => .trap c.cause.toNat c.einfo.toNat

/-- Whether a state's current context stands at POISON, and its tag (R399). -/
def poisonTaken (s : State) : Option Nat :=
  match stopTaken s.cur with
  | .trap cause einfo => if cause = 0x15 then some (bits einfo 11 0) else none
  | _ => none

/-- A stop that an event of the command issued on a cycle has taken in `t`, taken before any work of the cycle, in `s0` (R37); what the
command keeps of it stays (R199, R280). -/
def stopBefore (s0 : State) (issue : Nat) (t : State) : State :=
  (takeStop s0 (stopTaken t.cur)).modCur (fun c => { c with cmds := c.cmds.map (fun x =>
    if x.issue = issue then
      match t.cur.cmds.find? (fun y => y.issue == x.issue && y.station == x.station) with
      | some y => { x with latched := y.latched, rescale := y.rescale }
      | none => x
    else x) })

/-- An event of the cycle: it goes through, or its trap is noted with what it comes to. -/
def Pass.run (p : Pass) (rank : Nat) (i : Instr) (a : EvArg) (final : State → State) : Pass :=
  let t := evt i a p.st
  if t.cur.frozen.isSome then { p with stops := p.stops ++ [(rank, final t)] } else { p with st := t }

/-- POISON with the lowest tag among what the stops of the cycle consumed (R399). -/
def withTag (l : List (Nat × State)) (t : State) : State :=
  match poisonTaken t, (l.filterMap (fun x => poisonTaken x.2)).min? with
  | some p, some q => if q < p then t.modCur (fun c => { c with einfo := BitVec.ofNat 64 (putBits c.einfo.toNat 11 0 q) }) else t
  | _, _ => t

/-- The outcome of the highest-ranked trap, the first of its rank (R89). -/
def bestStop (l : List (Nat × State)) : Option State :=
  (l.foldl (fun (b : Option (Nat × State)) x => match b with
    | none => some x
    | some y => if x.1 < y.1 then some x else some y) none).map (fun x => withTag l x.2)

/-- An event of a core's cycle with the issue cycle and the place that rank it. -/
structure CoreEv where
  issue : Nat
  ord : Nat
  instr : Instr
  arg : EvArg

def CoreEv.before (x y : CoreEv) : Bool := decide (x.issue < y.issue) || (x.issue == y.issue && decide (x.ord ≤ y.ord))

def insertEv (x : CoreEv) : List CoreEv → List CoreEv
  | [] => [x]
  | y :: ys => if y.before x then y :: insertEv x ys else x :: y :: ys

def sortEvs (l : List CoreEv) : List CoreEv := l.foldl (fun a x => insertEv x a) []

/-- Drives and stores that fall due on the context's cycle (R126). -/
def streamEvs (c : Ctx) : List CoreEv :=
  (c.strms.filter (fun p => p.2.due c.now)).map (fun p =>
    ⟨p.2.sched, 3, if p.2.wr then .streamStore else .streamDrive, arg p.1⟩)

/-- Events of the commands in the engines; `mode` is MODE at the end of the cycle before. -/
def cmdEvs (c : Ctx) (mode : Nat) : List CoreEv :=
  c.cmds.flatMap (fun x =>
    let tap : CoreEv := ⟨x.issue, 0, .operandTap, arg x.issue⟩
    let fin : CoreEv := ⟨x.issue, 2, .resultPerform, arg x.issue⟩
    match x.kind with
    | .mma => [tap] ++ (if c.now = x.last then [fin] else [])
    | .accld => [tap] ++ (if c.now = x.last then [fin] else [])
    | .accadd => [tap] ++ (if c.now = x.last then [fin] else [])
    | .quant => if c.now < x.issue + x.dimM then [tap] else if c.now = x.issue + x.dimM then [fin] else []
    | .dequant => if c.now < x.issue + x.dimM then [tap] else if c.now = x.issue + x.dimM then [fin] else []
    | .accmv => []
    | .accz => []
    | _ => [⟨x.issue, 1, .factStep, arg x.issue 0 mode⟩])

/-- Results that perform on the cycle (R33), those of commands that end on it aside. -/
def flightEvs (c : Ctx) (done : List CoreEv) : List CoreEv :=
  let ns := ((c.flight.filter (fun x => x.perf == c.now)).map (·.issue)).dedup
  (ns.filter (fun n => !done.any (fun e => e.issue == n && e.ord == 2))).map (fun n => ⟨n, 2, .resultPerform, arg n⟩)

/-- Reads and writes of scratchpad atomics (R287). -/
def atomicEvs (c : Ctx) : List CoreEv :=
  c.atomics.flatMap (fun x =>
    (if x.issue + 1 = c.now then [⟨x.issue, 0, .operandTap, arg x.issue 1⟩] else [])
      ++ (if x.issue + 3 = c.now then [⟨x.issue, 2, .resultPerform, arg x.issue 1⟩] else []))

/-- Engines of the current core's die that have messages. -/
def busyInboxes (s : State) : List (Nat × EngSt) :=
  s.engs.filter (fun p => engDie p.1 == s.curDieOf && !p.2.inbox.isEmpty)

/-- Rows that MCBASEs of the current core read on the cycle (R233). -/
def baseEvs (s : State) : List CoreEv :=
  (busyInboxes s).flatMap (fun p => (p.2.inbox.zipIdx).filterMap (fun m =>
    if (m.1.fn == 2 || m.1.fn == mcbaseAccepted) && m.1.core == s.curCore then
      some ⟨m.1.due - Config.hop, 0, .operandTap, arg (m.1.due - Config.hop) 2 m.2 p.1⟩
    else none))

/-- A PHASE of the current core that the other cores did not issue on its cycle (R121). -/
def mismatchEvs (s : State) : List CoreEv :=
  match reportDue s.curDom s.curCore s.cur.now s.cur.phaseno.toNat with
  | none => []
  | some (ph, cy) => if phaseAgrees s.curDom ph cy then [] else [⟨cy, 4, .phaseMismatch, arg 0⟩]

/-- Status pages that reach the current core on the cycle, 47 cycles after their MCSTATs (R236). -/
def pageEvs (s : State) : List CoreEv :=
  (busyInboxes s).flatMap (fun p => (p.2.inbox.zipIdx).filterMap (fun m =>
    if m.1.fn == 4 && m.1.core == s.curCore && m.1.due + 23 == s.cur.now then some ⟨m.1.due - Config.hop, 3, .mcstatPageWrite, arg p.1 0 m.2⟩ else none))

/-- Events of the cycle that instructions of this core issued, in ascending issue cycle (R89). -/
def ownEvs (s : State) (mode : Nat) : List CoreEv :=
  let cs := cmdEvs s.cur mode
  sortEvs (cs ++ flightEvs s.cur cs ++ atomicEvs s.cur ++ baseEvs s ++ pageEvs s ++ streamEvs s.cur ++ mismatchEvs s)

/-- What a trap of an own event comes to. -/
def ownFinal (s0 : State) (e : CoreEv) (t : State) : State :=
  match e.instr with
  | .phaseMismatch => evt e.instr e.arg s0
  | _ => stopBefore s0 e.issue t

def runOwn (s0 : State) (p : Pass) (e : CoreEv) : Pass := p.run 4 e.instr e.arg (ownFinal s0 e)

/-- The index of a data move due now, of WRs or of RDs and TAGs, after the first `k` that stay. -/
def moveIdx (s : State) (wr : Bool) (k : Nat) : Option Nat :=
  let due := (((s.core s.curCore).moves.zipIdx).filter (fun m =>
    m.1.isWr == wr && m.1.due == s.cur.now && m.1.slot == s.slotOf s.curCore)).map (·.2)
  due[k]?

/-- The data moves due now, one after another; one that traps stays (R215, R216). -/
def runMoves (s0 : State) (wr : Bool) : Nat → Nat → Pass → Pass
  | 0, _, p => p
  | n + 1, k, p =>
    match moveIdx p.st wr k with
    | none => p
    | some i =>
      let q := p.run 3 (if wr then .mcWrTake else .mcRdData) (arg 0 0 i) (stopBefore s0 0)
      runMoves s0 wr n (if q.stops.length > p.stops.length then k + 1 else k) q

/-- Landings of the cycle (R308). -/
def landEvs (s : State) : List (Instr × EvArg) :=
  let c := s.cur
  let key := ctxKey s.curCore (s.slotOf s.curCore)
  (c.aus.filter (fun r => r.place == .performed && r.land != 0 && decide (r.land ≤ c.now)
      && (r.op == .load || r.op == .fill || r.op == .atomic))).map
    (fun r => (if r.op = .fill then .lineFillLanding else .loadLanding, arg key r.seqNo 0 1))

/-- The place of the first word equal to `x`. -/
def wordIdx (l : List Arrival) (x : Arrival) : Option Nat := ((l.zipIdx).find? (fun p => p.1 == x)).map (·.2)

/-- Words in rising order of a key, those of one key as they stand. -/
def putWord (key : Arrival → Nat) (x : Arrival) : List Arrival → List Arrival
  | [] => [x]
  | y :: ys => if key y ≤ key x then y :: putWord key x ys else x :: y :: ys

def orderWords (key : Arrival → Nat) (l : List Arrival) : List Arrival := l.foldl (fun l x => putWord key x l) []

/-- Words for the current context that have come, in agent order of their sources (R332). -/
def comeWords (s : State) : List Arrival :=
  orderWords (·.srcOrder) ((s.core s.curCore).inbound.filter (fun x =>
    x.slot == s.slotOf s.curCore && decide (x.due ≤ s.cur.now ∧ x.wall ≤ s.wb)))

/-- What a word that stops its core comes to: one lost to a footprint is lost though the cycle does not take place, and so are its flag's and its slot's part of
it (R291). -/
def arrivalFinal (s0 : State) (x : Arrival) (t : State) : State :=
  let slot := if slotted s0.cur x.gran then admitSlot s0.cur x else none
  if losesWord (stopTaken t.cur) then
    match wordIdx (s0.core s0.curCore).inbound x, wordIdx (s0.core s0.curCore).waiting x with
    | some n, _ => takeStop (lostOfRun (loseInbound s0 n x slot) x) (stopTaken t.cur)
    | none, some n => takeStop (refuseWord (s0.modCore (fun k => { k with waiting := k.waiting.eraseIdx n })) x slot) (stopTaken t.cur)
    | none, none => stopBefore s0 0 t
  else stopBefore (spoilRun s0 x (stopTaken t.cur)) 0 t

/-- The granule of a word, or, where it has no cycle of its own, its bank too, has been given a word in this cycle (R292). -/
def wordTaken (used : List Nat) (x : Arrival) : Bool :=
  used.contains x.gran || (x.untimed && used.contains (4096 + spBank x.perm x.addr))

/-- The granule and the bank of a word noted. -/
def noteWord (used : List Nat) (x : Arrival) : List Nat := x.gran :: (4096 + spBank x.perm x.addr) :: used

/-- The words that have come, each met by its granule; at most one is applied to a granule in a cycle (R292). A word that reaches the
core untimed is stamped on a cycle on which no word before it takes its bank. Behind a word that is delayed, those of its source, `late`, wait
too (R291, R332). -/
def runWords (s0 : State) : List Arrival → List Nat → List Nat → Pass → Pass × List Nat
  | [], used, _, p => (p, used)
  | x :: xs, used, late, p =>
    match wordIdx (p.st.core p.st.curCore).inbound x with
    | none => runWords s0 xs used late p
    | some n =>
      if late.contains x.srcOrder then runWords s0 xs used late p
      else if slotted p.st.cur x.gran then
        let q := p.run 2 .reducingWriteApply (arg p.st.curCore 0 n 0) (arrivalFinal s0 x)
        let stays := (q.st.core q.st.curCore).inbound == (p.st.core p.st.curCore).inbound
        runWords s0 xs used (if stays then x.srcOrder :: late else late) q
      else if wordTaken used x then runWords s0 xs used (x.srcOrder :: late) p
      else runWords s0 xs (noteWord used x) late (p.run 2 .plainArrivalApply (arg p.st.curCore 0 n 1) (arrivalFinal s0 x))

/-- A waiting word has its turn: its slot is current, or exhausted (R292). -/
def wordTurn (c : Ctx) (x : Arrival) : Bool := (slotOfWord c x).isSome || (admitSlot c x).isNone

/-- The waiting words whose slot is current, one to a granule, in arrival order (R292). -/
def runWaiting (s0 : State) : List Arrival → List Nat → Pass → Pass
  | [], _, p => p
  | x :: xs, used, p =>
    match wordIdx (p.st.core p.st.curCore).waiting x with
    | none => runWaiting s0 xs used p
    | some n =>
      if x.slot != p.st.slotOf p.st.curCore || !wordTurn p.st.cur x || (used.contains x.gran && (slotOfWord p.st.cur x).isSome) then
        runWaiting s0 xs used p
      else runWaiting s0 xs (if (slotOfWord p.st.cur x).isSome then x.gran :: used else used) (p.run 2 .reducingWriteApply (arg p.st.curCore 0 n 1) (arrivalFinal s0 x))

/-- The deliveries of a cycle: landings, arrivals, and then the moves of memory command engines at the core (R89). -/
def runDeliveries (s0 : State) (p : Pass) : Pass :=
  let p1 := runMoves s0 false (p.st.core p.st.curCore).moves.length 0 p
  let p2 := (landEvs p1.st).foldl (fun p e => p.run 2 e.1 e.2 (stopBefore s0 0)) p1
  let w := runWords s0 (comeWords p2.st) [] [] p2
  runWaiting s0 (w.1.st.core w.1.st.curCore).waiting w.2 w.1

/-! ## Deliveries that take no cycle (R39) -/

/-- Landings that take no bank access of any cycle. -/
def landUntimed (q : AuReq → Bool) (s : State) : State :=
  let key := ctxKey s.curCore (s.slotOf s.curCore)
  let rs := s.cur.aus.filter (fun r => r.place == .performed && r.land != 0 && q r && (r.op == .load || r.op == .fill || r.op == .atomic))
  rs.foldl (fun s r => evt (if r.op = .fill then .lineFillLanding else .loadLanding) (arg key r.seqNo 0 2) s) s

/-- Words of the order in which they came to a frozen core, those of one wall cycle by their stamps and the agent order of their sources (R39, R332). -/
def cameKey (x : Arrival) : Nat := (x.came * 2 ^ 64 + x.due) * 2 ^ 20 + x.srcOrder

/-- Words that take no bank access of any cycle, in arrival order, reducing writes in slot order (R39): each that has come and is not refused;
`late` holds the sources, and the granules of waiting words, that a word which stays holds up. -/
def wordsUntimed (came : State → Arrival → Bool) : Nat → List Nat → State → State
  | 0, _, s => s
  | n + 1, late, s =>
    let core := s.curCore
    let slot := s.slotOf core
    let k := s.core core
    match k.waiting.zipIdx.find? (fun p => p.1.slot == slot && wordTurn s.cur p.1 && !late.contains (2 ^ 20 + p.1.gran)) with
    | some p =>
      let u := evt .reducingWriteApply (arg core 0 p.2 2) s
      wordsUntimed came n (if u.core core == k then (2 ^ 20 + p.1.gran) :: late else late) u
    | none =>
      match (orderWords cameKey (k.inbound.filter (came s))).find? (fun x => !late.contains x.srcOrder) with
      | none => s
      | some x =>
        match wordIdx k.inbound x with
        | none => s
        | some i =>
          let u := if slotted s.cur x.gran then evt .reducingWriteApply (arg core 0 i 0) s else evt .plainArrivalApply (arg core 0 i 2) s
          wordsUntimed came n (if u.core core == k then x.srcOrder :: late else late) u

/-- A number put into a rising list that holds no number twice. -/
def putNum (n : Nat) : List Nat → List Nat
  | [] => [n]
  | m :: ms => if n < m then n :: m :: ms else if n = m then m :: ms else m :: putNum n ms

/-- Landings and words of the current core taken in the order in which they came: those of each wall cycle by themselves, landings before words
(R39; log 98). `w0` is a wall cycle that is looked at in any case, for the words that wait for their slot. -/
def takeCame (w0 : Nat) (lands : AuReq → Bool) (words : State → Arrival → Bool) (s : State) : State :=
  let ns := (s.cur.aus.filter lands).map (·.came) ++ ((s.core s.curCore).inbound.filter (words s)).map (·.came)
  (ns.foldl (fun l n => putNum n l) [w0]).foldl (fun s w =>
    let s1 := landUntimed (fun r => decide (r.came ≤ w) && lands r) s
    let k := s1.core s1.curCore
    wordsUntimed (fun s x => decide (x.came ≤ w) && words s x) (2 * (k.inbound.length + k.waiting.length)) [] s1) s

/-- What the current core took while it stood frozen on its present cycle, and a cancel has put back on its way, is taken again before that
cycle's work (R39, R295, R319, R339). -/
def gapAgain (s : State) : State :=
  let mine (t : Nat) (y : Arrival) : Bool := y.gap && decide (y.due ≤ t) && y.slot == s.slotOf s.curCore
  let k := s.core s.curCore
  let landed := s.cur.aus.any (fun r => r.gap && r.place == .performed && decide (r.land ≤ s.cur.now))
  if !landed && !k.inbound.any (mine s.cur.now) then s
  else takeCame 0 (fun r => r.gap && r.place == .performed && decide (r.land ≤ s.cur.now)) (fun s => mine s.cur.now) s

/-- PHASE at the end of its cycle: the selection, the checkpoint and the report (R120, R393). -/
def phasePost (s : State) (m : Word) : State :=
  let ph := nextPhase s
  let slot := s.slotOf s.curCore
  let s1 := s.modCur (fun c => retireDone (retireAtomics { c with footSel := some m, footSet := c.foot, post := [] }))
  let k := s1.core s1.curCore
  let mine (x : Arrival) : Bool := x.slot == slot
  let chk : Check := ⟨slot, ph, s1.cur.now, s1.cur, k.inbound.filter mine, k.waiting.filter mine, k.moves.filter (fun (x : Move) => x.slot == slot)⟩
  let s2 := s1.modCore (fun k => { k with checks := k.checks ++ [chk] })
  s2.setCurDom { s2.curDom with reports := s2.curDom.reports ++ [(s2.curCore, ph, s2.cur.now)] }

/-- What the instruction of the cycle has left for its end. -/
def doPost (s : State) (p : PostAct) : State :=
  match p with
  | .phase m => phasePost s m
  | _ => s.modCur (fun c => streamPost c p)

/-- The end of a cycle: the commit of a phase (R121), CLOSE, SADV, SREW and PHASE, the commands that have ended, the core's part (R404),
and the next cycle. -/
def endCycle (s : State) : State :=
  let s1 := evt .phaseCommit .none s
  let s2 := s1.cur.post.foldl doPost s1
  let s3 := s2.modCur (fun c => retireDone (retireAtomics { c with post := [] }))
  let s4 := if s3.cur.halted.isSome then evt .corePartEnd .none s3 else s3
  s4.modCur (fun c => { c with now := c.now + 1, lanes := c.lanes.filter (fun l => decide (c.now + 1 < l.cycle + 8)) })

/-- A segment's count has passed without its SEGEND (R29). -/
def segLate (c : Ctx) : Bool := c.seg.active && decide (c.now > c.seg.start + c.seg.cnt)

/-- A TRAP's SYSCALL falls due (R386). -/
def sysCallDue (c : Ctx) : Option Word := match c.sysCall with | some (t, v) => if t = c.now then some v else none | none => none

/-- SYSCALL of the TRAP issued on the cycle before (R386). -/
def runSysCall (s0 : State) (p : Pass) : Pass :=
  match sysCallDue s0.cur with
  | none => p
  | some v => { p with stops := p.stops ++ [(4, takeStop (s0.modCur (fun c => { c with sysCall := none })) (.trap 0x18 v.toNat))] }

/-- Rank of the trap that the word of the cycle takes (R89). -/
def wordRank (c : Ctx) : Nat := if (stopTaken c) matches .trap 0x06 _ | .trap 0x08 _ then 1 else 5

/-- The word's stop, taken before any work of the cycle. -/
def wordFinal (s0 t : State) : State :=
  match issueNow s0 with
  | .next u => if u.cur.frozen.isSome then u else stopBefore s0 0 t
  | .fault _ => stopBefore s0 0 t
  | .refused _ => stopBefore s0 0 t

/-- The events of a cycle after its word. SYSCALL ranks with the issue cycle of its TRAP, the cycle before, and so ahead of what the cycle's own
word comes to (R89, R386). -/
def afterWord (s0 : State) (p : Pass) : State :=
  let evs := ownEvs p.st s0.cur.mode.toNat
  let old (e : CoreEv) : Bool := decide (e.issue < s0.cur.now)
  let p1 := runSysCall s0 ((evs.filter old).foldl (runOwn s0) p)
  let p2 := runDeliveries s0 ((evs.filter (fun e => !old e)).foldl (runOwn s0) p1)
  match bestStop p2.stops with
  | some t => t
  | none => endCycle p2.st

/-- The extension word of an OPEN enters the running signature on the cycle after its first word (R27, R30, R117). -/
def enterSig (s : State) : State :=
  match s.cur.sigNext with
  | none => s
  | some w => s.modCur (fun c => { c with sigNext := none, seg := { c.seg with sig := crcWord c.seg.sig w } })

/-- The trap that was delivered to the current core for its present cycle, as the first of its untimed deliveries (R89, R357, R361). -/
def stampedStop (s0 : State) : List (Nat × State) :=
  match stampedDue s0 with
  | none => []
  | some x => [(2, takeStop (s0.modCore (fun k => { k with
      stamped := k.stamped.erase x ++ (if x.cause = 0x15 then [] else [{ x with cycle := s0.cur.now, taken := true }]) })) (.trap x.cause x.einfo))]

/-- One cycle of the current core. What it took while it stood frozen on that cycle, and takes again in a replay, comes before its work (R39, R295,
R319); a trap or a held cause leaves nothing of that work (R37). -/
def coreRun (s : State) : Host.Outcome State Fault Refusal :=
  let s0 := gapAgain s
  if segLate s0.cur then .next (evt .segcntLate .none s0)
  else
    let p := runMoves s0 true (s0.core s0.curCore).moves.length 0 ⟨enterSig s0, stampedStop s0⟩
    match issueNow p.st with
    | .next t =>
      if t.cur.frozen.isSome then
        .next (afterWord s0 { p with stops := p.stops ++ [(wordRank t.cur, wordFinal s0 t)] })
      else .next (afterWord s0 { p with st := t })
    | .fault r => .fault r
    | .refused r => .refused r

/-- Core `n` in a wall cycle: handler code runs one instruction (R374); a stopped handler and a frozen core do nothing. -/
def coreCycle (s0 : State) (n : Nat) : Host.Outcome State Fault Refusal :=
  let s := { s0 with curCore := n, onSys := false }
  if (s.core n).slotRun.isNone then .next s
  else if s.cur.handler then (if bitB s.cur.hfault.toNat 8 then .next s else runWord s)
  else if s.cur.frozen.isSome then .next s
  else coreRun s

/-! ## An engine's cycle (R220) -/

/-- The first message of a kind due now, of the lowest core. -/
def nextMsg (e : EngSt) (fns : List Nat) : Option (Nat × McMsg) :=
  ((e.inbox.zipIdx).filter (fun m => fns.contains m.1.fn && m.1.due == e.now)).foldl (fun (b : Option (Nat × McMsg)) m =>
    match b with
    | none => some (m.2, m.1)
    | some x => if m.1.core < x.2.core then some (m.2, m.1) else some x) none

/-- The event of an arriving instruction. -/
def msgEvent (fn : Nat) : Instr :=
  match fn with
  | 0 => .mcstartArrival
  | 1 => .mcstopArrival
  | 2 => .mcbaseArrival
  | _ => .mcbindArrival

/-- The instructions that arrive on the cycle, in agent order of their issuers, to the first that takes MEMTIME (R220). -/
def runMsgs : Nat → State → State
  | 0, s => s
  | n + 1, s =>
    if s.eng.frozen.isSome then s
    else
      match nextMsg s.eng [0, 1, 2, 3] with
      | none => s
      | some (i, m) => runMsgs n (evt (msgEvent m.fn) (arg 0 0 i) s)

/-- The status pages that are read on the cycle (R236). -/
def takePages (s : State) : State :=
  let tb0 := engTb0 s s.curEng
  s.modEng (fun e => { e with inbox := e.inbox.map (fun m =>
    if m.fn = 4 && m.due = e.now && m.words.isEmpty then { m with words := (List.range 8).map (pageWord e tb0 (bits m.a 11 10)) } else m) })

/-- Accepted tables whose last row has come (R233). -/
def holdTables : Nat → State → State
  | 0, s => s
  | n + 1, s =>
    let t := match (s.eng.inbox.zipIdx).find? (fun m => m.2 == n && m.1.fn == mcbaseAccepted) with
      | some _ => evt .mcbaseArrival (arg 0 0 n) s
      | none => s
    holdTables n t

/-- An event of the cycle, unless the engine has frozen. -/
def engEv (s : State) (i : Instr) (a : EvArg) : State := if s.eng.frozen.isSome then s else evt i a s

/-- A class-3 window's REFAB (R227). -/
def windowKeeper (s : State) : State :=
  if windowRefab s.wb s.eng then evt .keeperRefab (arg 0 0 0 0 [s.curEng]) s else s

/-- The bank that a table word in error names (R209, R222). -/
def bankField (w : Nat) : Nat := if [1, 2, 3, 4, 6].contains (bits w 23 20) then bits w 19 16 else 0

/-- The word that is due, or a standing refresh (R211, R225). -/
def engWord (s : State) : Host.Outcome State Fault Refusal :=
  let e := s.eng
  if e.frozen.isSome then .next s
  else if e.st == .running && !e.stopping then
    if wordDue e (engTb0 s s.curEng) != e.now then .next s
    else match (if e.badWords.contains e.pc then none else (tableAt e e.pc).bind decodeMc) with
      | some i => exec i s
      | none => .next (memTrap s 0x05 0 (((tableAt e e.pc).map bankField).getD 0) 0)
  else .next (evt .standingRefresh .none s)

/-- The takes that a frozen engine has announced, made by cores that still run (R215). -/
def announceTakes (s : State) : State :=
  let e := s.eng
  let n := s.curEng
  let w := e.wlBase
  let f := atTrap (engPart s n) e
  if e.st == .trapped && (f.st == .started || f.st == .running) && !f.stopping then
    (announce (engTb0 s n) (e.now + Config.hop) Config.hop f).foldl (fun s x =>
      let core := 32 * engPart s n + x.rank
      let due := x.issue + w - pathLat (n % 128) (core % 32)
      if due < e.now + Config.hop then sendMove s core (takeMove s n x.issue x.addr due false)
      else s) s
  else s

/-- The record of a table word whose check failed as it was read (R397, R400). -/
def tableRecord (s : State) (e : EngSt) : State :=
  if e.reason == 0x05 && e.badWords.contains e.pc then (addError s (engPart s s.curEng) 6 (2 ^ 60 + s.curEng * 1024 + e.pc % 1024) true).2 else s

/-- An engine that has taken MEMTIME stands as before the cycle (R37, R221). -/
def engTrapped (s0 t : State) : State :=
  let e := t.eng
  announceTakes ((tableRecord s0 e).modEng (fun o => { o with
    st := .trapped, prior := o.st, reason := e.reason, frozen := e.frozen, trapInfo := e.trapInfo, told := false }))

/-- The end of an engine's cycle. -/
def engEnd (s : State) : State :=
  s.modEng (fun e => { e with now := e.now + 1, taken := e.taken.filter (fun x => decide (e.now ≤ x.1)) })

/-- Engine `n` in a wall cycle. -/
def engCycle (s : State) (n : Nat) : Host.Outcome State Fault Refusal :=
  let s0 := takePages { s with curEng := n, onSys := false }
  if s0.eng.frozen.isSome then .next { s with curEng := n, onSys := false }
  else
    let s1 := holdTables s0.eng.inbox.length (runMsgs s0.eng.inbox.length s0)
    let none' := arg 0 0 (s1.eng.inbox.length)
    let s2 := windowKeeper (engEv (engEv (engEv (engEv s1 .mcstopArrival none') .svwEnd .none) .tableStart .none) .refreshTick .none)
    match engWord s2 with
    | .next t => .next (if t.eng.frozen.isSome then engTrapped s0 t else engEnd t)
    | .fault r => .fault r
    | .refused r => .refused r

/-! ## System cores and collective runs -/

/-- System core `n` in a wall cycle (R403). -/
def sysCycle (s0 : State) (n : Nat) : Host.Outcome State Fault Refusal :=
  let s := { s0 with curSys := n, onSys := true }
  let x := s.sys
  if !x.running then .next s
  else if sysEventDue x && !x.inEvent && sysBetween x then .next (evt .systemEvent (arg n) s)
  else if x.halted then .next (if sysEventDue x then s.setSys { x with halted := false } else s)
  else
    match decode true (fetchSysWords s) with
    | .ok i _ => exec i s
    | .illegal reason word raw => .next (sysTrap s 0x01 (encodingInfo reason word raw))

/-- The run of a group on a die's engine in a wall cycle: its current word (R344, R349); one that has been aborted ends once its paged writes have been
answered (R329, R356). -/
def cxeCycle (s0 : State) (die g : Nat) : Host.Outcome State Fault Refusal :=
  let s := { s0 with curDie := die, curGroup := g, onSys := false }
  match runOf s die g with
  | none => .next s
  | some r =>
    if r.aborted then .next (if r.undelivered = 0 then endRun s die r else s)
    else match decodeCx (r.words.getD r.pc 0) with
    | some i => exec i s
    | none => .next (abortRun s die r 0x04)

/-- An agent in a wall cycle. -/
def agentCycle (s : State) : Agent → Host.Outcome State Fault Refusal
  | .core n => coreCycle s n
  | .eng n => engCycle s n
  | .sys n => sysCycle s n
  | .cxe d g => cxeCycle s d g

/-! ## What comes to frozen cores (R39) -/

/-- The own cause of a frozen core is an entry, a landing or an egress that it waits for (R37). -/
def waitsLanding (f : Freeze) : Bool := !f.trap && [2, 3, 10, 12].contains f.kind

/-- A landing has come to the frozen current core: it is due, or the core waits for one and it is on its way. -/
def landingCame (s : State) (r : AuReq) : Bool :=
  r.place == .performed && r.land != 0 && (decide (r.land ≤ s.cur.now) || (s.cur.frozen.map waitsLanding).getD false)

/-- The own cause of a frozen core is a ready flag that it waits for (R37, R124). -/
def waitsWord (c : Ctx) : Bool :=
  match c.frozen with
  | none => false
  | some f => if f.trap then c.cause.toNat == 0x10 && bits c.einfo.toNat 7 0 == 4 else f.kind == 4

/-- A word has come to a frozen core: an untimed one by its coming, a timed one by the cycle that the core is still to execute, since one for a
later cycle is kept for that cycle of the replay (R39, R40, R291); where the core waits for a flag, a timed one by a cycle that its domain
executes before `t`, since the flag decides the hold (R39; log 68). -/
def wordCame (s : State) (t : Nat) (x : Arrival) : Bool :=
  x.slot == s.slotOf s.curCore && decide (x.wall ≤ s.wb)
    && (if x.untimed then decide (x.due ≤ t) else decide (x.due < if waitsWord s.cur then t else s.cur.now))

/-- The cycle before which local words have come to the frozen cores of a domain: F, or one past the latest that its agents have executed. -/
def cameBy (d : Domain) : Nat :=
  match d.mode with
  | .frozen f => f
  | .catchUp f _ => f
  | _ => d.tb + 1

/-- What has come to the frozen current core is marked with the wall cycle of its coming, in a handler too (R39). -/
def markCame (t : Nat) (s : State) : State :=
  let s1 := s.modCur (fun c => { c with
    aus := c.aus.map (fun r => if r.came = 0 && landingCame s r then { r with came := s.wb + 1 } else r) })
  s1.modCore (fun k => { k with
    inbound := k.inbound.map (fun x => if x.came = 0 && wordCame s t x then { x with came := s.wb + 1 } else x) })

/-- What comes to a frozen core: it is taken outside its handler, in the order in which it came (R39); `t` is `cameBy`. -/
def frozenCore (t : Nat) (s0 : State) (n : Nat) : State :=
  let s := { s0 with curCore := n, onSys := false }
  if s.cur.frozen.isSome then
    let s1 := markCame t s
    if s.cur.handler then s1 else takeCame (s.wb + 1) (landingCame s1) (fun s => wordCame s t) s1
  else s

/-! ## Causes that clear (R37, R39, R376) -/

/-- A held word of the current core no longer holds. -/
def heldOver (s : State) : Bool :=
  let s1 := s.modCur (fun c => { c with frozen := none })
  match issueNow s1 with
  | .next t => (match t.cur.frozen with | some f => f.trap | none => true)
  | .fault _ => false
  | .refused _ => false

/-- The held causes of a domain's cores judged again. -/
def clearHeld (s : State) (p slot : Nat) : State :=
  (taskCores (s.dom p slot)).foldl (fun s n =>
    let s1 := { s with curCore := n, onSys := false }
    match s1.cur.frozen with
    | some f =>
      if f.kind != 0 && !f.trap && !f.clear && heldOver s1 then s1.modCur (fun c => { c with frozen := some { f with clear := true } })
      else s1
    | none => s1) s

/-- The MEMTIMEs whose controllers have left their handlers (R222, R223). -/
def clearEngines (s : State) (p slot : Nat) : State :=
  let out (c : Nat) : Bool := !(s.ctxOf c slot).handler
  { s with engs := (domEngs s p slot).foldl (fun m n =>
    match NMap.find m n with
    | some e =>
      (match e.frozen, e.trapInfo with
        | some f, some (_, _, c) => if f.trap && !f.clear && e.told && out c then NMap.set m n { e with frozen := some { f with clear := true } } else m
        | _, _ => m)
    | none => m) s.engs }

/-! ## The domain between two wall cycles (R38–R42) -/

/-- F of the causes and requests that stand (R38, R42). -/
def freezeCycle (s : State) (p slot : Nat) : Option Nat :=
  let os := (origins s p slot).map (fun o => o.cycle + Config.hop)
  let rs := ((s.dom p slot).reqs.filter (fun r => r.since.isNone)).map (fun r => r.stamp + Config.hop)
  (os ++ rs).min?

def setMode (s : State) (p slot : Nat) (m : DomMode) : State := s.setDom p slot { s.dom p slot with mode := m }

/-- TB goes on by a cycle, and on F the domain freezes (R38). -/
def advanceDomain (s : State) (p slot : Nat) : State :=
  let d := s.dom p slot
  let f := match d.mode, freezeCycle s p slot with
    | .freezing g, some f => some (min g f)
    | .freezing g, none => some g
    | _, x => x
  let s1 := s.setDom p slot { d with tb := d.tb + 1, mode := match f with | some f => .freezing f | none => .run }
  evt .domainFreeze (arg p slot) s1

/-- An agent that a cut catch-up left running comes to F (R41). -/
def lateFreeze (f : Nat) (now : Nat) (x : Option Freeze) : Option Freeze :=
  match x with
  | some y => some y
  | none => if now = f then some ⟨f, 0, false, true⟩ else none

/-- A keeper that has reopened its rows, or is about to, begins again where another cause or request holds the domain, or HW has come above 0
(R230). -/
def keeperAgain (idle : Bool) (e : EngSt) : EngSt :=
  if e.frozen.isSome && (e.keeper == 2 || e.keeper == 3) && decide (!idle ∨ 0 < e.hw) then { e with keeper := 5 } else e

/-- The keepers' steps that are due (R229, R230); `idle` says that nothing but the keepers holds the domain. -/
def keepers (s : State) (p slot : Nat) (idle : Bool) : State :=
  let ns := domEngs s p slot
  let sel (s : State) (q : EngSt → Bool) : List Nat := ns.filter (fun n => q (s.engOf n))
  let go (s : State) (i : Instr) (l : List Nat) : State := if l.isEmpty then s else evt i (arg p slot 0 0 l) s
  let s0 := mapEngs s p slot (fun _ e => keeperAgain idle e)
  let s1 := go s0 .keeperEntry (sel s0 keeperNew)
  let s2 := go s1 .keeperRefab (sel s1 (refabDue s.wb))
  if idle then go s2 .keeperReopen (sel s2 (fun e => e.keeper != 2)) else s2

/-- The wall cycle from which an agent frozen on `t` goes on (R40). -/
def resumesAt (f w t : Nat) : Nat := w + Config.hop - (f - t)

/-- An agent released by its catch-up, or by the end of it. -/
def releaseCtx (f w wb : Nat) (c : Ctx) : Ctx :=
  match c.frozen with
  | some x => if x.clear && decide (resumesAt f w x.cycle ≤ wb) then { c with frozen := none } else c
  | none => c

def releaseEng (f w wb : Nat) (e : EngSt) : EngSt :=
  match e.frozen with
  | some x =>
    if x.clear && decide (resumesAt f w x.cycle ≤ wb) then
      { e with frozen := none, st := if e.st == .trapped then e.prior else e.st, trapInfo := none, keeper := 0 }
    else e
  | none => e

/-- Takes that were announced and not made are dropped as their engine goes on: it issues its WRs anew (R215). -/
def dropEarly (s : State) (p slot : Nat) : State :=
  (taskCores (s.dom p slot)).foldl (fun s n =>
    let k := s.core n
    if k.moves.any (fun m => m.early && (s.engOf m.eng).frozen.isNone) then
      s.setCore n { k with moves := k.moves.filter (fun m => !(m.early && (s.engOf m.eng).frozen.isNone)) }
    else s) s

/-- A cause or a request that a catch-up has met, a switch among them (R41, R379). -/
def catchCut (s : State) (p slot : Nat) : Bool :=
  !(causesDone s p slot && reqsDone (s.dom p slot) s.wb && (s.part p).switchTo.isEmpty)

/-- A catch-up that a new cause or request cuts, judged before the cause may clear: the domain is frozen again, and the engines that have not
gone on are held again (R41, R229). -/
def cutCatch (s : State) (p slot : Nat) : State :=
  match (s.dom p slot).mode with
  | .catchUp f _ =>
    if catchCut s p slot then
      setMode (mapEngs s p slot (fun _ e => if e.frozen.isSome && e.keeper != 0 then { e with keeper := 5 } else e)) p slot (.frozen f)
    else s
  | _ => s

/-- A domain that catches up: agents go on, and on W + H the whole domain (R40). -/
def catchStep (s : State) (p slot f w : Nat) : State :=
    let s1 := mapEngs (mapCtxs s p slot (fun _ c => releaseCtx f w s.wb c)) p slot (fun _ e => releaseEng f w s.wb e)
    let s2 := dropEarly s1 p slot
    if s.wb < w + Config.hop then s2
    else
      s2.setDom p slot
        { s2.dom p slot with mode := .run, reqs := [], holdw := 0 }

/-- A frozen domain: late agents freeze, a cancel is made, the keepers work, and the domain may resume (R39–R41, R393). -/
def frozenStep (s : State) (p slot f : Nat) : State :=
  let s1 := mapEngs (mapCtxs s p slot (fun _ c => { c with frozen := lateFreeze f c.now c.frozen })) p slot
    (fun _ e => { e with frozen := lateFreeze f e.now e.frozen })
  let s2 := evt .phaseCancel (arg p slot) (if stillRuns s1 p slot then s1 else giveMemtimes s1 p slot)
  let s3 := keepers s2 p slot (holdOver s2 p slot)
  let s4 := evt .domainResume (arg p slot) s3
  match (s4.dom p slot).mode with
  | .catchUp f w => catchStep s4 p slot f w
  | _ => s4

/-- The whole domain ran in the wall cycle that has ended: TB0 has come, and no agent stood frozen, or froze on its own cause (R384). -/
def wholeRuns (s : State) (p slot : Nat) : Bool :=
  let d := s.dom p slot
  (taskCores d).all (fun n => (s.ctxOf n slot).frozen.isNone) && (domEngs s p slot).all (fun n => (s.engOf n).frozen.isNone)
    && ((d.task.bind (·.tb0)).map (fun t => decide (t ≤ d.tb))).getD false

/-- The wall-clock counts of a domain: HOLDW and LIVEW (R384), and HW of frozen engines (R226). -/
def countWall (s : State) (p slot : Nat) : State :=
  let d := s.dom p slot
  let d1 := match d.mode with
    | .frozen _ => { d with holdw := d.holdw + 1 }
    | .catchUp _ _ => { d with holdw := d.holdw + 1 }
    | .run => if wholeRuns s p slot then { d with livew := d.livew + 1 } else d
    | .freezing _ => if wholeRuns s p slot then { d with livew := d.livew + 1 } else d
  mapEngs (s.setDom p slot d1) p slot (fun _ e => if e.frozen.isSome then { e with hw := e.hw + 1 } else e)

/-- A trigger that has joined the hold of the wall cycle before latches the frozen state (R42, R402). -/
def joinedLatch (s : State) (p slot : Nat) : State :=
  match (s.dom p slot).mode with
  | .frozen _ =>
    if (s.dom p slot).reqs.any (fun r => (r.kind == 9 || r.kind == 13) && decide (r.since = some (s.wb - 1))) then latchDomain s p slot else s
  | _ => s

/-- The cycle that a domain's running agents execute in this wall cycle (R40). -/
def domCycle (s : State) (p slot : Nat) : Nat :=
  let d := s.dom p slot
  match d.mode with
  | .catchUp f w => f - (w + Config.hop - s.wb)
  | _ => d.tb

/-- Idle engines keep step with the domain. -/
def engIdle (e : EngSt) : Bool := e.st == .idle && e.inbox.isEmpty && !e.stopping && e.svw.isNone && e.frozen.isNone

/-- An engine has nothing to do before a cycle. -/
def engQuiet (e : EngSt) (t : Nat) : Bool :=
  e.st == .idle && !e.stopping && e.svw.isNone && e.frozen.isNone && e.inbox.all (fun m => decide (t ≤ m.due))

def syncIdle (s : State) (p slot : Nat) : State :=
  let t := domCycle s p slot
  mapEngs s p slot (fun _ e => if engQuiet e t && decide (e.now < t) then { e with now := t } else e)

/-- The engines' checkpoints for the PHASEs of a domain, gathered as each engine comes to the end of P (R393). -/
def engCheckpoints (s : State) (p slot : Nat) : State :=
  let d := s.dom p slot
  let ns := domEngs s p slot
  let cys := (d.reports.map (fun r => r.2.2)).dedup
  let grab (t : Nat) (m : NMap EngSt) : NMap EngSt := ns.foldl (fun m n =>
    if (m.find n).isSome then m
    else match (s.engs :: s.engHist).findSome? (fun h => (NMap.find h n).filter (fun e => e.now == t + 1 && e.frozen.isNone)) with
      | some e => NMap.set m n e
      | none => m) m
  if cys.isEmpty then s
  else
    let old (t : Nat) : NMap EngSt := ((d.engChecks.find? (fun x => x.1 == t)).map (·.2)).getD []
    s.setDom p slot { d with engChecks := (d.engChecks.filter (fun x => !cys.contains x.1)) ++ cys.map (fun t =>
      (t, if (old t).length < ns.length then grab t (old t) else old t)) }

/-- The checkpoints of a domain's records for its PHASEs, each kept as the last agent has come to the end of P (R188, R189). -/
def recCheckpoints (s : State) (p slot : Nat) : State :=
  let cys := ((s.dom p slot).reports.map (fun r => r.2.2)).dedup
  if cys.isEmpty then s
  else
    let t := earliestCycle s p slot
    s.setPart p ((cys.filter (fun cy => decide (cy < t))).foldl (fun q cy => keepRecs q slot cy) (s.part p))

/-- The ends of a slot's wall cycle: SLATH, the watchdogs, the task, the records (R23, R25, R26, R184, R384). -/
def slotEvents (s : State) (p slot : Nat) : State :=
  let s1 := evt .slathBarrierComplete (arg p slot) s
  let s2 := evt .slathWatchdog (arg p slot) s1
  let s3 := evt .watchdogExpiry (arg p slot) s2
  let s4 := recCheckpoints s3 p slot
  let s5 := if (s4.part p).recs.changes.isEmpty then s4 else evt .recordChangeApply (arg p slot) s4
  evt .taskCompletion (arg p slot) s5

/-- The running domain of a partition between two wall cycles. -/
def domTick (s : State) (p slot : Nat) : State :=
  if (s.dom p slot).task.isNone then s
  else
    let s0 := cutCatch (countWall s p slot) p slot
    let s1 := (taskCores (s0.dom p slot)).foldl (frozenCore (cameBy (s0.dom p slot))) s0
    let s2 := joinedLatch (clearEngines (clearHeld s1 p slot) p slot) p slot
    let s3 := match (s2.dom p slot).mode with
      | .run => keepers (advanceDomain s2 p slot) p slot false
      | .freezing _ => keepers (advanceDomain s2 p slot) p slot false
      | .frozen f => frozenStep s2 p slot f
      | .catchUp f w => catchStep s2 p slot f w
    slotEvents (engCheckpoints (syncIdle s3 p slot) p slot) p slot

/-- The domain of a slot that does not run: its freeze goes on, its watchdog counts it, and a trigger latches it (R384, R402). -/
def restTick (s : State) (p slot : Nat) : State :=
  let d := s.dom p slot
  if d.task.isNone then s
  else match d.mode with
    | .frozen _ | .catchUp _ _ => evt .watchdogExpiry (arg p slot) (joinedLatch (s.setDom p slot { d with holdw := d.holdw + 1 }) p slot)
    | .run | .freezing _ => s

/-- The channels of frozen domains that do not run: HW counts, and their keepers refresh (R226, R379). -/
def restKeepers (s : State) (p : Nat) : State :=
  let ns := restEngs s p
  let s1 := { s with engs := ns.foldl (fun m n => let e := NMap.getD m n EngSt.reset; NMap.set m n { e with hw := e.hw + 1 }) s.engs }
  if ns.isEmpty then s else evt .keeperRefab (arg p 0 0 0 (ns.filter (restRefab s1))) s1

/-- A partition between two wall cycles: its doorbell, a switch that is ready, its running domain, and the other one. -/
def partTick (s0 : State) (p : Nat) : State :=
  let s := doorbellTick s0 p
  let s1 := if (s.part p).switchTo.isEmpty then s else evt .contextSwitch (arg p) s
  let rest := restKeepers (([0, 1].filter (fun k => (s1.part p).runSlot != some k)).foldl (fun s k => restTick s p k) s1) p
  match (s1.part p).runSlot with
  | none => rest
  | some slot => domTick rest p slot

/-! ## The next wall cycle -/

/-- An engine has something to do on its cycle. -/
def engActive (s : State) (n : Nat) (e : EngSt) : Bool :=
  e.frozen.isNone && (!engIdle e || (tickOf (engTb0? s n) e.tREFI e.now).isSome || (tickOf (engTb0? s n) e.tREFIpb e.now).isSome)

/-- The engines, cores, system cores and runs that act in a wall cycle, in this order. -/
def agentsOf (s : State) : List Agent :=
  let doms := s.parts.filterMap (fun p => p.2.runSlot.map (fun r => (p.1, r)))
  let live := doms.filter (fun x => (s.dom x.1 x.2).task.isSome)
  (live.flatMap (fun x => ((domEngs s x.1 x.2).filter (fun n => engActive s n (s.engOf n))).map Agent.eng))
    ++ (live.flatMap (fun x => (taskCores (s.dom x.1 x.2)).map Agent.core))
    ++ ((s.syss.filter (fun x => x.2.running && !Config.sysWaits s.wb x.1)).map (fun x => Agent.sys x.1))
    ++ (s.cxes.flatMap (fun x => (x.2.runs.filter (fun r => !Config.cxeWaits s.wb (x.1 * 64 + r.group))).map (fun r => Agent.cxe x.1 r.group)))

/-! ## Errors of the storages and hops (R397) -/

/-- The mark of an error detected at a location of a die, with its record (R398, R400). -/
def errMark (s : State) (die cls loc : Nat) : Nat × State :=
  let r := addError s (s.partOfDie die) cls loc true
  (cls * 2 ^ 9 + r.1, r.2)

/-- The running context of a core changed. -/
def modRun (s : State) (core : Nat) (f : Ctx → Ctx) : State := s.setCtx core (s.slotOf core) (f (s.ctxOf core (s.slotOf core)))

/-- An error strikes: the item is marked, its bit is flipped, or the correction is recorded. An entry of a queue takes its record as it is
read (`detectError`). -/
def applyUpset (s : State) : Upset → State
  | .row core key =>
    let m := errMark s (core / 32) (if key < 2 ^ 20 then 1 else 2) (core * 2 ^ 32 + key)
    let k := m.2.core core
    m.2.setCore core { k with poison := k.poison.set key (match k.poison.find key with | some t => min t m.1 | none => m.1) }
  | .lane core n bit =>
    modRun s core (fun c => { c with lanes := c.lanes.modify n (fun l => { l with word := l.word ^^^ BitVec.ofNat 1024 (2 ^ (bit % 1024)) }) })
  | .entry core q n =>
    if q ≥ 64 then modRun s core (fun c => { c with w := c.w.map (fun p => if p.1 = q - 64 then (p.1, p.2.modify n (fun e =>
      { e with poison := mergePoison (some (6 * 2 ^ 9)) e.poison })) else p) })
    else modRun s core (fun c => { c with q := c.q.map (fun p => if p.1 = q then (p.1, p.2.modify n (fun e => match e with
      | .val v t => .val v (mergePoison (some (6 * 2 ^ 9)) t)
      | e => e)) else p) })
  | .code core => modRun s core (fun c => { c with badWord := true })
  | .table core place => modRun s core (fun c => { c with badTab := (place :: c.badTab).dedup })
  | .command eng n => s.setEngOf eng { s.engOf eng with badWords := (n :: (s.engOf eng).badWords).dedup }
  | .column eng key =>
    let m := errMark s (engDie eng) 0 (eng * 2 ^ 24 + key)
    markColumn m.2 eng key m.1
  | .fabric core n =>
    let m := errMark s (core / 32) 4 (core * 2 ^ 24 + (((s.core core).moves[n]?).map (·.addr)).getD 0)
    m.2.setCore core { m.2.core core with moves := (m.2.core core).moves.modify n (fun x => { x with poison := mergePoison x.poison (some m.1) }) }
  | .word core n =>
    let m := errMark s (core / 32) 4 (core * 2 ^ 24 + 2 ^ 23 + (((s.core core).inbound[n]?).map (·.addr)).getD 0)
    m.2.setCore core { m.2.core core with inbound := (m.2.core core).inbound.modify n (fun x => { x with poison := mergePoison x.poison (some m.1) }) }
  | .unit die n =>
    let e := s.cxe die
    let m := errMark s die 4 (2 ^ 40 + die * 2 ^ 16 + ((e.outbox[n]?).map (·.1)).getD 0)
    m.2.setCxe die { m.2.cxe die with outbox := e.outbox.modify n (fun x => (x.1, { x.2 with poison := mergePoison x.2.poison (some m.1) })) }
  | .request core n =>
    let c := s.ctxOf core (s.slotOf core)
    match c.aus[n]? with
    | some r =>
      if [AuPlace.departed, .untaken, .queued, .performed].contains r.place && !r.forwarded then
        let m := errMark s (core / 32) 4 (2 ^ 60 + r.va)
        modRun m.2 core (fun c => auMod c r.seqNo (fun x => { x with poison := mergePoison x.poison (some m.1) }))
      else s
    | none => s
  | .ext die n =>
    match ((s.die die).ext)[n]? with
    | some q =>
      let m := errMark s die 4 (2 ^ 60 + q.va)
      let d := m.2.die die
      m.2.setDie die { d with ext := d.ext.modify n (fun x => { x with poison := mergePoison x.poison (some m.1) }) }
    | none => s
  | .line die n =>
    let m := errMark s die 5 (die * 2 ^ 48 + n)
    let d := m.2.die die
    m.2.setDie die { d with pagePoison := d.pagePoison.set n m.1 }
  | .port die g =>
    match runOf s die g with
    | some r => if readsOwn r && !r.aborted then
        let m := errMark s die 1 (r.core * 2 ^ 32 + 32 * ownPlace r)
        portFault m.2 die r (.trap 0x15 (poisonInfo m.1 0 (ownPlace r)))
      else s
    | none => s
  | .block die n header =>
    let e := s.cxe die
    match e.waits[n]? with
    | some w =>
      let m := errMark s die 1 (w.core * 2 ^ 32 + 32 * (w.block / 4096))
      m.2.setCxe die { m.2.cxe die with waits := e.waits.modify n (fun x => { x with bad := some (header, m.1) }) }
    | none => s
  | .corrected die cls loc =>
    let t := (addError s (s.partOfDie die) cls loc false).2
    if cls = 0 then t.setEngOf (loc / 2 ^ 24) (noteCorrected t.wb (t.engOf (loc / 2 ^ 24)) 1) else t

/-- The wall clock goes on: the power manager's sample, every partition, the agents that run, and what the outside world does (R15). -/
def tick (s : State) : State :=
  let s1 := { s with wb := s.wb + 1, engHist := (s.engs :: s.engHist).take 25, onSys := false }
  let s2 := if s1.wb % 65536 = 0 then evt .powerSample .none s1 else s1
  let s3 := (Config.upsets s2.wb).foldl applyUpset ((s2.parts.map (·.1)).foldl partTick s2)
  { s3 with todo := agentsOf s3, agenda := Config.outside s3.wb }

end Sys2Proof.Machine
end

