-- ==== Sys2Proof/Machine/Step.lean ====
section
/-! DEFINITION. One step of the package: the next event that the outside world or an untimed unit brings, else the next agent's part of
the wall cycle, else the wall clock. `withFetchWord` sets up the agent that runs a given instruction. -/

namespace Sys2Proof.Machine

/-- One step. -/
def step (s : State) : Host.Outcome State Fault Refusal :=
  match s.agenda with
  | (i, a) :: rest => exec i { s with agenda := rest, ev := a }
  | [] =>
    match s.todo with
    | a :: rest => agentCycle { s with todo := rest } a
    | [] => .next (tick s)

/-- Which agent's decoder takes the words of an instruction. -/
inductive Fetcher where
  | core | sys | eng | cxe
  deriving DecidableEq, Repr

/-- The agent that runs a word: a system core for major 0x3B and CTXSW, else a compute core where its decoder takes the words, else the
engine or the collective unit whose decoder does. -/
def fetcherOf (ws : List Nat) : Fetcher :=
  let w := ws.headD 0
  match decode false ws with
  | .ok _ _ => if bits w 28 23 = 0x3A && bits w 2 0 = 4 then .sys else .core
  | .illegal _ _ _ =>
    match decode true ws with
    | .ok _ _ => .sys
    | .illegal _ _ _ =>
      if (decodeMc w).isSome && !knownRow ws then .eng else .cxe

/-- A task of core 0 of die 0 on slot 0. -/
def loneTask : Task :=
  { notify := false, wdog := 0, cores := [0], crec := 0, task := 0, args := [], podn := 0, status := 0, arrived := [0], tb0 := some 0,
    slathWb := 0, slathFired := false, relWb := 0, lastHalt := 0, lastHaltWb := 0, holds := 0 }

/-- The package with a partition of die 0 and that task, its core past SLATH at address 0. -/
def loneState (s : State) : State :=
  let p := (s.part 0)
  let p1 := { p with size := 1, dom0 := { Domain.reset with task := some loneTask, tb := s.cur.now }, runSlot := some 0 }
  let c := { (s.ctxOf 0 0) with
    pc := 0, base := (s.ctxOf 0 0).now, nic := some (s.ctxOf 0 0).now, started := true, slathed := true, slathPend := false, halted := none, guard := none,
    handler := false, frozen := none, tb0 := 0, release := 0 }
  let t := { s.setPart 0 p1 with agenda := [], curCore := 0, onSys := false }
  (t.setCore 0 { t.core 0 with slotRun := some 0 }).setCtx 0 0 c

/-- The words of an instruction as 32-bit numbers, the first lowest, four in all. -/
def wordsOf (w : Nat) : List Nat := fieldsOf 32 4 w

/-- The state in which the next step runs the instruction of `nbits` bits `w`: the words are placed at the address that the agent which
has such an instruction fetches from, and that agent's turn comes next (log 7). -/
def State.withFetchWord (s : State) (nbits w : Nat) : State :=
  let ws := wordsOf (w % 2 ^ nbits)
  let bs := ws.flatMap (bytesOf 4)
  match fetcherOf ws with
  | .core =>
    let t := loneState s
    { t with mem := t.mem.writeN (imemAddr 0 0 0) bs, todo := [.core 0] }
  | .sys =>
    let t := loneState s
    { t with mem := t.mem.writeN (sysAddr 0 0) bs, syss := t.syss.set 0 { SysSt.reset with running := true }, todo := [.sys 0] }
  | .eng =>
    let t := loneState s
    let e := { EngSt.reset with st := .running, table := [(0, ws.headD 0)], loaded := 1, first := true, now := bits (ws.headD 0) 31 24 }
    { t with engs := t.engs.set 0 e, todo := [.eng 0] }
  | .cxe =>
    let t := loneState s
    let r : Run :=
      { serial := 0, core := 0, slot := 0, group := 1, rank := 0, epoch := 1, trap := false, bar := false, ns := 1, descs := [0], words := [ws.headD 0],
        members := [0], active := true, pc := 0, loopAt := none, peer := 0, pred := 0, taken := [], sent := [], mcDone := 0, mcDue := 0,
        kept := [], satn := 0, deny := 0, nword := 0, sig := 0, status := 0, aborted := false, recSlot := none, undelivered := 0, lastWb := 0, heard := [], mcFrom := [],
        born := 0 }
    { t with cxes := t.cxes.set 0 { CxeSt.reset with runs := [r] }, todo := [.cxe 0 1] }

end Sys2Proof.Machine
end

