-- ==== Sys2Proof/Safety.lean ====
section
/-! DEFINITION. What a safe run of the package is, and the words that claims are stated in. -/

namespace Sys2Proof.Machine

/-- The registers that the spec hard-wires hold nothing of their own in a context: q0 no entry (R49) and h0 no value (R51). -/
def Ctx.hardWired (c : Ctx) : Bool := (c.q.find 0).isNone && (c.h.find 0).isNone

/-- The state invariant: the memory keeps its canonical form. -/
def State.Inv (s : State) : Prop := s.mem.wf = true

/-- A step that goes on. -/
def StepGoes (s : State) : Prop := ∃ t, step s = .next t

/-- A run of `n` steps that neither faults nor refuses, every state of it in the invariant. -/
def SafeRun : Nat → State → Prop
  | 0, s => s.Inv
  | n + 1, s => s.Inv ∧ ∃ t, step s = .next t ∧ SafeRun n t

end Sys2Proof.Machine

namespace Sys2Proof.Claims
open Sys2Proof Sys2Proof.Machine

/-! ## Who executes, and what an instruction needs -/

/-- A compute core executes, in queue mode (R46, R97). -/
def QueueMode (s : State) : Prop := s.onSys = false ∧ s.cur.handler = false
/-- A compute core executes handler code (R51, R100). -/
def HandlerMode (s : State) : Prop := s.onSys = false ∧ s.cur.handler = true
/-- A system core executes (R403). -/
def SystemMode (s : State) : Prop := s.onSys = true

/-- No false guard stands before the word (R50, R110). -/
def Unguarded (s : State) : Prop := guardOf s ≠ some false

/-- An instruction of `n` words at the pc meets R114: none of its words but the last ends the innermost loop body, and neither does
the last where the instruction `ends`. -/
def LoopRule (s : State) (n : Nat) (ends : Bool) : Prop :=
  ∀ l ls, loopsOf s = l :: ls →
    (∀ k, k < n - 1 → (pcOf s + k) % 65536 ≠ l.last) ∧ (ends = true → (pcOf s + n - 1) % 65536 ≠ l.last)

/-- The value that a source field reads: a register of a system core, a handler register, or the head of a queue, q0 reading 0 (R46,
R49, R51, R403). -/
def srcValue (s : State) (q : Nat) : Word :=
  if s.onSys then readG s q
  else if s.cur.handler then readH s.cur q
  else if q = 0 then 0
  else match qEntries s.cur q with
    | .val v _ :: _ => v
    | _ => 0

/-- A source field can be read: any register of a system core, h0–h15 in handler mode, q0, or a queue whose head is valid and not
poisoned (R46, R49, R51, R399). -/
def SrcReady (s : State) (q : Nat) : Prop :=
  s.onSys = true ∨ (HandlerMode s ∧ q < 16)
    ∨ (QueueMode s ∧ (q = 0 ∨ ∃ v es, qEntries s.cur q = .val v none :: es))

/-- Every source field of a list can be read. -/
def SrcsReady (s : State) (fs : List Src) : Prop := ∀ f ∈ fs, SrcReady s f.1

/-- The values of a list of source fields. -/
def srcValues (s : State) (fs : List Src) : List Word := fs.map (fun f => srcValue s f.1)

/-- A destination field can be named: in handler mode it is h0–h15 (R51). -/
def DstReady (s : State) (d : Nat) : Prop := HandlerMode s → d < 16

/-- The words that issue have entered the signature of a timed segment (R30, R117); a system core has none. -/
def signed (s : State) (n : Nat) : State := if s.onSys then s else signWords s n

/-- No trap stops the current core. -/
def Running (s : State) : Prop := QueueMode s ∧ s.cur.frozen = none

/-! ## What an instruction does: the common form -/

/-- The first and the second value of a list. -/
def arg1 (vs : List Word) : Word := vs.headD 0
def arg2 (vs : List Word) : Word := vs.getD 1 0

/-- What an instruction does on operands that can be read: its sources, its words, whether it may not end a loop body (R114), whether its
words enter the signature, who may run it, the conditions under which it has its effect, its effect and how the
sequencer goes on. The effect is given from the state `t` at issue and the same state `u` with the sources popped. -/
structure Doing where
  srcs : List Src := []
  words : Nat := 1
  ends : Bool := false
  signs : Bool := true
  may : State → Prop := fun _ => True
  ok : State → List Word → Prop := fun _ _ => True
  eff : State → State → List Word → State := fun _ u _ => u
  flow : State → List Word → Flow := fun _ _ => .seq 1

/-- The state at issue. -/
def atIssue (s : State) (x : Doing) : State := if x.signs then signed s x.words else s

/-- The instruction completes as described: exec answers the next state, which is given whole. -/
def Completes (i : Instr) (s : State) (x : Doing) : Prop :=
  x.may s → Unguarded s → LoopRule s x.words x.ends → SrcsReady s x.srcs → x.ok (atIssue s x) (srcValues s x.srcs) →
  exec i s = .next (flowOn (x.eff (atIssue s x) (popSrcs (atIssue s x) x.srcs) (srcValues s x.srcs)) x.words
    (x.flow (atIssue s x) (srcValues s x.srcs)))

/-- Where an instruction is done, the machine is not changed but in the current context. -/
def inCur (f : Ctx → Ctx) : State → State → List Word → State := fun _ u _ => u.setCur (f u.cur)

/-- A result on its way (R33, R97). -/
def onWay (t : State) (f : Nat) (act : ResAct) (flags : Nat) : Flight :=
  ⟨t.cur.now, t.cur.pc, t.cur.now + f - 1, act, flags, 0, none, decide (f > 1)⟩

end Sys2Proof.Claims
end

