-- ==== Sys2Proof/Certificates/Slice0/Obligations.lean ====
section
/-! DEFINITION. The statements about the machine, each a numbered rule of the spec or a consequence of several, and the words that they
are stated in. -/

namespace Sys2Proof.Claims
open Sys2Proof Sys2Proof.Machine

/-! ## Scalar instructions (R97–R104, R107, R108) -/

/-- What a scalar instruction does: its destination, its sources, its perform offset, and its result and flags from the values. -/
structure Scalar where
  d : Nat
  srcs : List Src
  off : Nat
  val : List Word → Word × Nat

/-- Two sources. -/
def alu2 (f : FDAB) (off : Nat) (op : Word → Word → Word) : Option Scalar :=
  some ⟨f.d.toNat, [(f.a.toNat, f.ka), (f.b.toNat, f.kb)], off, fun vs => (op (arg1 vs) (arg2 vs), 0)⟩
/-- One source. -/
def alu1 (f : FDA) (off : Nat) (op : Word → Word) : Option Scalar :=
  some ⟨f.d.toNat, [(f.a.toNat, f.ka)], off, fun vs => (op (arg1 vs), 0)⟩
/-- One source and a signed immediate (R103). -/
def aluImm (f : FImm) (op : Word → Word → Word) : Option Scalar :=
  some ⟨f.d.toNat, [(f.a.toNat, f.ka)], 1, fun vs => (op (arg1 vs) (BitVec.ofInt 64 f.imm.toInt), 0)⟩
/-- One source and a count (R103). -/
def aluCnt (f : FShI) (op : Word → Nat → Word) : Option Scalar :=
  some ⟨f.d.toNat, [(f.a.toNat, f.ka)], 1, fun vs => (op (arg1 vs) f.cnt.toNat, 0)⟩
/-- An FP32 operation on the low halves of two sources under a rounding mode (R107). -/
def fp2 (m : Nat) (f : FDAB) (off : Nat) (op : Val → Val → Nat → Nat × Flags) : Option Scalar :=
  some ⟨f.d.toNat, [(f.a.toNat, f.ka), (f.b.toNat, f.kb)], off,
    fun vs => fp32Res (op (fp32Of (arg1 vs)) (fp32Of (arg2 vs)) m)⟩
/-- 1 where a relation holds, else 0. -/
def flagWord01 (b : Bool) : Word := if b then 1 else 0

/-- The scalar instructions, one by one; `m` is the rounding mode of FRM and `t` the cycle of TBRD. -/
def scalarOf (m t : Nat) : Instr → Option Scalar
  | .add f => alu2 f 1 (· + ·)
  | .sub f => alu2 f 1 (· - ·)
  | .and f => alu2 f 1 (· &&& ·)
  | .or f => alu2 f 1 (· ||| ·)
  | .xor f => alu2 f 1 (· ^^^ ·)
  | .shl f => alu2 f 1 (fun x y => x <<< (y.toNat % 64))
  | .shr f => alu2 f 1 (fun x y => x >>> (y.toNat % 64))
  | .sra f => alu2 f 1 (fun x y => x.sshiftRight (y.toNat % 64))
  | .mul f => alu2 f 3 (· * ·)
  | .mulhs f => alu2 f 3 (fun x y => BitVec.ofInt 64 (x.toInt * y.toInt / 2 ^ 64))
  | .mulhu f => alu2 f 3 (fun x y => BitVec.ofNat 64 (x.toNat * y.toNat / 2 ^ 64))
  | .min f => alu2 f 1 (fun x y => if x.toInt < y.toInt then x else y)
  | .max f => alu2 f 1 (fun x y => if x.toInt < y.toInt then y else x)
  | .minu f => alu2 f 1 (fun x y => if x.toNat < y.toNat then x else y)
  | .maxu f => alu2 f 1 (fun x y => if x.toNat < y.toNat then y else x)
  | .andn f => alu2 f 1 (fun x y => x &&& ~~~y)
  | .seq f => alu2 f 1 (fun x y => flagWord01 (decide (x = y)))
  | .sne f => alu2 f 1 (fun x y => flagWord01 (decide (x ≠ y)))
  | .slt f => alu2 f 1 (fun x y => flagWord01 (decide (x.toInt < y.toInt)))
  | .sltu f => alu2 f 1 (fun x y => flagWord01 (decide (x.toNat < y.toNat)))
  | .sge f => alu2 f 1 (fun x y => flagWord01 (decide (y.toInt ≤ x.toInt)))
  | .sgeu f => alu2 f 1 (fun x y => flagWord01 (decide (y.toNat ≤ x.toNat)))
  | .bext f => alu2 f 1 (fun x y => flagWord01 (x.getLsbD (y.toNat % 64)))
  | .bflip f => alu2 f 1 (fun x y => x ^^^ (1 <<< (y.toNat % 64)))
  | .div f => alu2 f 20 (fun x y => if y = 0 then -1 else BitVec.ofInt 64 (x.toInt.tdiv y.toInt))
  | .divu f => alu2 f 20 (fun x y => if y = 0 then -1 else BitVec.ofNat 64 (x.toNat / y.toNat))
  | .rem f => alu2 f 20 (fun x y => if y = 0 then x else BitVec.ofInt 64 (x.toInt - y.toInt * x.toInt.tdiv y.toInt))
  | .remu f => alu2 f 20 (fun x y => if y = 0 then x else BitVec.ofNat 64 (x.toNat % y.toNat))
  | .clz f => alu1 f 1 (fun x => BitVec.ofNat 64 (if x = 0 then 64 else 63 - x.toNat.log2))
  | .ctz f => alu1 f 1 (fun x => BitVec.ofNat 64 (ctzN 64 x.toNat))
  | .popc f => alu1 f 1 (fun x => BitVec.ofNat 64 (popN 64 x.toNat))
  | .brev f => alu1 f 1 (fun x => BitVec.ofNat 64 (revN 64 x.toNat))
  | .bswap f => alu1 f 1 (fun x => BitVec.ofNat 64 (ofBytes (bytesOf 8 x.toNat).reverse))
  | .sext f => alu2 f 1 (fun x y => BitVec.ofInt 64 (toSigned (y.toNat % 64 + 1) x.toNat))
  | .zext f => alu2 f 1 (fun x y => BitVec.ofNat 64 (x.toNat % 2 ^ (y.toNat % 64 + 1)))
  | .addi f => aluImm f (· + ·)
  | .andi f => aluImm f (· &&& ·)
  | .ori f => aluImm f (· ||| ·)
  | .xori f => aluImm f (· ^^^ ·)
  | .slti f => aluImm f (fun x y => flagWord01 (decide (x.toInt < y.toInt)))
  | .shli f => aluCnt f (· <<< ·)
  | .shri f => aluCnt f (· >>> ·)
  | .srai f => aluCnt f (fun x n => x.sshiftRight n)
  | .li f => some ⟨f.d.toNat, [], 1, fun _ => (BitVec.ofInt 64 f.imm.toInt, 0)⟩
  | .lcat f => some ⟨f.d.toNat, [(f.d.toNat, false)], 1, fun vs => ((arg1 vs <<< 17) ||| BitVec.ofNat 64 f.imm.toNat, 0)⟩
  | .fadd f => fp2 m f 4 (fun x y m => addTo 0x00 x y m false)
  | .fsub f => fp2 m f 4 (fun x y m => addTo 0x00 x y.negate m false)
  | .fmul f => fp2 m f 4 (fun x y m => mulTo 0x00 x y m false)
  | .fdiv f => fp2 m f 12 (fun x y m => divTo 0x00 x y m false)
  | .fcmplt f => fp2 m f 2 (fun x y _ => (b2n (x.lt y), if x.isNan || y.isNan then fNV else 0))
  | .fsqrt f => some ⟨f.d.toNat, [(f.a.toNat, f.ka)], 12, fun vs => fp32Res (sqrtTo 0x00 (fp32Of (arg1 vs)) m false)⟩
  | .fcvti f => some ⟨f.d.toNat, [(f.a.toNat, f.ka)], 3, fun vs =>
      let r := toIntRange (-(2 ^ 63)) (2 ^ 63 - 1) (fp32Of (arg1 vs)) m 0
      (BitVec.ofInt 64 r.1, r.2)⟩
  | .icvtf f => some ⟨f.d.toNat, [(f.a.toNat, f.ka)], 3, fun vs => fp32Res (roundTo 0x00 (valOfInt (arg1 vs).toInt) m false 0)⟩
  | .tbrd f => some ⟨f.d.toNat, [], 1, fun _ => (BitVec.ofNat 64 t, 0)⟩
  | _ => none

/-- The scalar instructions that round by a mode (R107). -/
def isFloat : Instr → Bool
  | .fadd _ | .fsub _ | .fmul _ | .fdiv _ | .fcmplt _ | .fsqrt _ | .fcvti _ | .icvtf _ => true
  | _ => false

/-- A scalar instruction completes: it pops what it does not keep, puts its result on its way to D and runs on. -/
def CompletesAs (i : Instr) (s : State) (x : Scalar) : Prop :=
  Unguarded s → SrcsReady s x.srcs → DstReady s x.d →
    let r := x.val (srcValues s x.srcs)
    exec i s = .next (advance (result (popSrcs (signed s 1) x.srcs) x.off x.d r.1 r.2) 1 1)

end Sys2Proof.Claims

open Sys2Proof Sys2Proof.Machine Sys2Proof.Claims

/-- R97, R101–R104: every integer scalar instruction, and TBRD of a compute core, on operands that can be read, pops what it does not
keep, puts its result on its way to D with its perform offset and runs on; a system core and handler code write D at once. The whole
next state is given. -/
def Obligations.ScalarResults : Prop :=
  ∀ (i : Instr) (s : State) (x : Scalar), scalarOf 0 s.cur.now i = some x → isFloat i = false →
    (∀ f, i = .tbrd f → s.onSys = false) → CompletesAs i s x

/-- R97: a scalar instruction of a compute core in queue mode leaves memory, every other context, every special register, the flags and
every queue but the sources that it pops as they are; only the sequencing of its own context, those queues and the results on
their way change. -/
def Obligations.ScalarFrame : Prop :=
  ∀ (i : Instr) (s t : State) (x : Scalar), scalarOf (frmMode s) s.cur.now i = some x → QueueMode s →
    Unguarded s → SrcsReady s x.srcs → exec i s = .next t →
    t = s.setCur t.cur ∧ t.mem = s.mem
      ∧ t.cur = { s.cur with pc := t.cur.pc, base := t.cur.base, nic := t.cur.nic, guard := t.cur.guard, loops := t.cur.loops,
                             seg := t.cur.seg, sigNext := t.cur.sigNext, q := t.cur.q, flight := t.cur.flight }
      ∧ ∀ q, (∀ f ∈ x.srcs, f.1 = q → f.2 = true) → qEntries t.cur q = qEntries s.cur q

/-! ## Operand forms, guards and loops -/

/-- R46, R77, R97, R100: the sources of an instruction are popped together: a queue that some field names without its keep bit loses its
head, once, and every other queue stays; handler code and system cores pop nothing. -/
def Obligations.SourcesPopOnce : Prop :=
  (∀ (s : State) (fs : List Src), QueueMode s → ∀ q, q ≠ 0 →
    ((∃ f ∈ fs, f.1 = q ∧ f.2 = false) → qEntries (popSrcs s fs).cur q = (qEntries s.cur q).tail)
      ∧ ((∀ f ∈ fs, f.1 = q → f.2 = true) → qEntries (popSrcs s fs).cur q = qEntries s.cur q))
  ∧ (∀ (s : State) (fs : List Src), QueueMode s →
      popSrcs s fs = s ∨ popSrcs s fs = s.setCur { s.cur with q := (popSrcs s fs).cur.q })
  ∧ (∀ (s : State) (fs : List Src), HandlerMode s ∨ SystemMode s → popSrcs s fs = s)

/-- R46, R49, R51, R97, R100, R403: a result of perform offset f goes on its way to a queue, to be pushed on t + f − 1, with its
flags; handler code writes h0–h15 at once and ORs the flags into VFLAGS, a system core writes its register at once and ORs the
flags into its own VFLAGS (log 71); h0 and g0 discard what is written and read 0. -/
def Obligations.ResultDestinations : Prop :=
  (∀ (s : State) (f d : Nat) (v : Word) (fl : Nat), QueueMode s →
    result s f d v fl = s.setCur { s.cur with flight := s.cur.flight ++
      [⟨s.cur.now, s.cur.pc, s.cur.now + f - 1, .pushQ d [v], fl, 0, none, decide (f > 1)⟩] })
  ∧ (∀ (s : State) (f d : Nat) (v : Word) (fl : Nat), HandlerMode s →
      (∀ r, readH (result s f d v fl).cur r = if r = d ∧ d ≠ 0 then v else readH s.cur r)
        ∧ result s f d v fl = s.setCur { s.cur with h := (result s f d v fl).cur.h,
                                                    vflags := s.cur.vflags ||| BitVec.ofNat 64 (fl % 64) })
  ∧ (∀ (s : State) (f d : Nat) (v : Word) (fl : Nat), SystemMode s →
      (∀ r, readG (result s f d v fl) r = if r = d ∧ d ≠ 0 then v else readG s r)
        ∧ (d ≠ 0 ∨ fl ≠ 0 → result s f d v fl = s.setSys
            { s.sys with g := (result s f d v fl).sys.g, vflags := s.sys.vflags ||| BitVec.ofNat 64 (fl % 64) })
        ∧ (d = 0 → fl = 0 → result s f d v fl = s))

/-- R27, R112: after an instruction of n words that occupies c cycles, the word after it is due from c cycles later on; where its last
word ends the innermost loop body, that loop's next trip begins or the loop is left. -/
def Obligations.SequencerAdvances : Prop :=
  ∀ (s : State) (n c : Nat), QueueMode s →
    ((∀ l ls, s.cur.loops = l :: ls → (s.cur.pc + n - 1) % 65536 ≠ l.last) →
      advance s n c = s.setCur { s.cur with pc := (s.cur.pc + n) % 65536, base := s.cur.now + c, nic := none, guard := none })
    ∧ (∀ l ls, s.cur.loops = l :: ls → (s.cur.pc + n - 1) % 65536 = l.last → l.left > 1 →
      advance s n c = s.setCur { s.cur with pc := l.first % 65536, base := s.cur.now + c, nic := none, guard := none,
                                            loops := { l with left := l.left - 1 } :: ls })
    ∧ (∀ l ls, s.cur.loops = l :: ls → (s.cur.pc + n - 1) % 65536 = l.last → l.left ≤ 1 →
      advance s n c = s.setCur { s.cur with pc := (l.last + 1) % 65536, base := s.cur.now + c, nic := none, guard := none,
                                            loops := ls })

namespace Sys2Proof.Claims
open Sys2Proof Sys2Proof.Machine

/-- A word of the sequencer, not of an engine's table or a collective block, and not an event. -/
def isSequencer (i : Instr) : Bool := !(encodeBody i).isEmpty && !isMcWord i && !isCxWord i

/-- Cycles that an instruction occupies under a false guard (R110). -/
def falseCyclesOf : Instr → Nat
  | .idle f => f.imm.toNat + 1
  | _ => 1

end Sys2Proof.Claims

/-- R50, R110: under a false guard every instruction of the sequencer does nothing but occupy its words and cycles; its words enter the
signature. -/
def Obligations.FalseGuardSkips : Prop :=
  ∀ (i : Instr) (s : State), isSequencer i = true → guardOf s = some false →
    exec i s = .next (advance (signed s (wordCount i)) (wordCount i) (falseCyclesOf i))

/-- R48, R99: a scalar instruction whose first empty source queue, in the order of its fields, is q takes QUNF with EINFO = q, pops nothing and pushes
nothing. That the empty source is reported though the head of an earlier field is pending, faulted or poisoned, and that of two empty ones the earlier
field's is, is the model's choice (logs 9, 16): R48 ranks QUNF before the freeze within one wide operand only. -/
def Obligations.EmptySourceTraps : Prop :=
  ∀ (i : Instr) (s : State) (x : Scalar) (l r : List Src) (f : Src), scalarOf (frmMode s) s.cur.now i = some x →
    QueueMode s → Unguarded s → x.srcs = l ++ f :: r → (∀ g ∈ l, g.1 = 0 ∨ qEntries s.cur g.1 ≠ []) → f.1 ≠ 0 → qEntries s.cur f.1 = [] →
    exec i s = .next (takeTrap s 0x03 f.1)

/-! ## Traps -/

/-- R371, R374: a trap of a core outside handler mode writes CAUSE, EPC, ETB and EINFO, saves the issue cycle of the word due, freezes
the core on its cycle and enters handler mode at TVEC; nothing else changes. That a guard waiting for its word is kept with it is the
model's choice (log 17), as is that EPC and NIC of a trap on the cycle of an extension word name the instruction after it (log 87). -/
def Obligations.TrapEntry : Prop :=
  ∀ (s : State) (cause einfo : Nat), s.cur.handler = false →
    takeTrap s cause einfo = s.setCur { s.cur with
      cause := BitVec.ofNat 64 cause
      epc := BitVec.ofNat 64 (if cause = 0x01 ∧ s.cur.guard.isSome then (s.cur.pc + 65535) % 65536 else s.cur.pc % 65536)
      etb := BitVec.ofNat 64 s.cur.now
      einfo := BitVec.ofNat 64 einfo
      nic := some (nicOf s)
      handler := true
      hloops := []
      savedGuard := if cause = 0x01 then none else s.cur.guard.map (fun g => (s.cur.pc % 65536, g))
      guard := none
      pc := s.cur.tvec.toNat % 65536
      frozen := some ⟨s.cur.now, if cause = 0x0B then 5 else 1, true, false⟩ }

/-- R375, R386: a trap condition in handler mode stops the handler before the word: HFAULT takes its code, its valid bit, the address of the
word and the low half of the EINFO, CAUSE, EPC, ETB and EINFO stay, and every system core of the partition has its event bit 4 set. TRAP in
handler mode hands the context over in the same way, with code 0x18 and the low half of its operand. -/
def Obligations.DoubleFault : Prop :=
  (∀ (s : State) (cause einfo : Nat), s.cur.handler = true →
    let t := takeTrap s cause einfo
    t.cur = { s.cur with hfault := BitVec.ofNat 64 (cause + 2 ^ 8 + s.cur.pc * 2 ^ 16 + (einfo % 2 ^ 32) * 2 ^ 32) }
      ∧ t.mem = s.mem ∧ t.parts = s.parts
      ∧ ∀ k, k < 2 * (s.part s.curPart).size →
          ((t.syss.getD (2 * s.curPart + k) SysSt.reset).sevt).testBit 4 = true)
  ∧ (∀ (f : FA) (s : State), HandlerMode s → Unguarded s → f.a.toNat < 16 →
      exec (.trap f) s = .next (takeTrap s 0x18 (readH s.cur f.a.toNat).toNat))

namespace Sys2Proof.Claims
open Sys2Proof Sys2Proof.Machine

/-- What R100 makes illegal in handler mode. -/
def notInHandler : Instr → Bool
  | .drop _ | .qcnt _ | .qclr _ | .waitq _ | .waitf _ | .phase _ | .slath | .seg _ | .segend | .openS _ | .close _ | .sadv _
  | .srew _ | .sstat _ => true
  | .mov f => f.wd.toNat != 0
  | _ => false

/-- What R100 makes legal in handler mode only, of a compute core. -/
def onlyInHandler : Instr → Bool
  | .wbrd _ | .tret | .resume _ | .eabort _ | .ctxrd _ | .ctxwr _ => true
  | _ => false

end Sys2Proof.Claims

/-- R100, R32: the instructions that handler mode forbids take ILLEGAL with EINFO = 0x0003 there, which is a double fault, and those
that only handler mode allows take ILLEGAL with EINFO = 0x0003 outside it on a compute core. -/
def Obligations.HandlerModeRules : Prop :=
  (∀ (i : Instr) (s : State), notInHandler i = true → HandlerMode s → Unguarded s → exec i s = .next (takeTrap s 0x01 0x0003))
  ∧ (∀ (i : Instr) (s : State), onlyInHandler i = true → QueueMode s → Unguarded s → exec i s = .next (takeTrap s 0x01 0x0003))

namespace Sys2Proof.Claims
open Sys2Proof Sys2Proof.Machine

/-- The register fields of MOV, the table and flag instructions, transfers and loops, guards and branches, CSRs, context items, TRAP and WBRD. -/
def handlerFields : Instr → List Nat
  | .mov f => [f.d.toNat, f.a.toNat]
  | .ltwr f | .fpwr f | .tswr f | .flagset f | .ctxwr f => [f.a.toNat, f.b.toNat]
  | .ltrd f | .fprd f | .tsrd f | .flagrd f | .ctxrd f => [f.d.toNat, f.a.toNat]
  | .jr f | .jrl f | .trap f => [f.a.toNat]
  | .loop f => [f.a.toNat]
  | .grd f => [f.gq.toNat]
  | .brc f => [f.gq.toNat]
  | .csrrd f => [f.d.toNat]
  | .csrwr f => [f.a.toNat]
  | .wbrd f => [f.d.toNat]
  | _ => []

end Sys2Proof.Claims

/-- R51: in handler mode a source or destination field of 16 to 63 takes ILLEGAL with EINFO = 0x0005, of a scalar instruction, and of MOV of one register,
the table and flag instructions, JR, JRL, LOOP, GRD, BRC, CSRRD, CSRWR, CTXRD, CTXWR, TRAP and WBRD. -/
def Obligations.HandlerRegisterLimit : Prop :=
  (∀ (i : Instr) (s : State) (x : Scalar), scalarOf (frmMode s) s.cur.now i = some x → HandlerMode s → Unguarded s →
    ((∃ f ∈ x.srcs, f.1 ≥ 16) ∨ x.d ≥ 16) → exec i s = .next (takeTrap s 0x01 0x0005))
  ∧ (∀ (i : Instr) (s : State) (r : Nat), r ∈ handlerFields i → 16 ≤ r → (∀ f, i = .mov f → f.wd = 0) → HandlerMode s → Unguarded s →
    exec i s = .next (takeTrap s 0x01 0x0005))

/-- R376: TRET in handler mode ends it: the word at EPC is next, and the cause clears, so that the core goes on once its domain does; that
the guard that was kept for that word returns, where EPC still names it, is the model's choice (log 17); on a system core TRET returns to SEPC. -/
def Obligations.TrapReturn : Prop :=
  (∀ (s : State), HandlerMode s → Unguarded s →
    exec .tret s = .next (signWords s 1 |>.setCur { (signWords s 1).cur with
      handler := false, pc := s.cur.epc.toNat % 65536, hloops := [], savedGuard := none
      guard := (s.cur.savedGuard.bind (fun g => if g.1 = s.cur.epc.toNat % 65536 then some g.2 else none))
      frozen := s.cur.frozen.map (fun f => { f with clear := true }) }))
  ∧ (∀ (s : State), SystemMode s → Unguarded s →
      exec .tret s = .next (s.setSys { s.sys with pc := s.sys.sepc % 65536, inEvent := false, guard := none }))

namespace Sys2Proof.Claims
open Sys2Proof Sys2Proof.Machine

/-! ## Queue operations -/

/-- Queues q to q + w − 1 of a width code (R48, R82). -/
def span (q wd : Nat) : List Nat := (List.range (2 ^ wd)).map (q + ·)

/-- MOV, DROP, QCNT and QCLR (R105). -/
def queueActs : Instr → Option Doing
  | .mov f => some {
      srcs := (span f.a.toNat f.wd.toNat).map (·, f.ka)
      may := fun s => QueueMode s ∨ (HandlerMode s ∧ f.wd = 0)
      ok := fun t _ => DstReady t f.d.toNat
      eff := fun t u vs =>
        if t.cur.handler then result u 1 f.d.toNat (arg1 vs)
        else u.setCur { u.cur with flight := u.cur.flight ++ [onWay t 1 (.pushQ f.d.toNat vs) 0] } }
  | .drop f => some { srcs := (span f.a.toNat f.wd.toNat).map (·, false), may := QueueMode }
  | .qcnt f => some {
      may := QueueMode
      eff := fun t u _ => u.setCur { u.cur with flight := u.cur.flight ++ [onWay t 1 (.pushQ f.d.toNat
        ((span f.a.toNat f.wd.toNat).map (fun q => BitVec.ofNat 64 (if q = 0 then 0 else (qEntries t.cur q).length)))) 0] } }
  | .qclr f => some {
      may := QueueMode
      eff := inCur (fun c => (span f.a.toNat f.wd.toNat).foldl (fun c q => setQ c q []) c) }
  | _ => none

/-! ## Transfers of control -/

/-- The bit that a guard or a branch tests holds, or does not where it is negated (R50, R109). -/
def tests (s : State) (q b : Nat) (neg : Bool) : Bool := (srcValue s q).getLsbD b != neg

/-- An address from an integer. -/
def wrap16 (z : Int) : Nat := (z % 65536).toNat

/-- The link of a call: into q63, h15 or g63. -/
def callLink (u : State) (pc : Nat) : State :=
  let v := BitVec.ofNat 64 ((pc + 1) % 65536)
  if u.onSys then writeG u 63 v
  else if u.cur.handler then u.setCur (writeH u.cur 15 v)
  else u.setCur { u.cur with flight := u.cur.flight ++ [onWay u 1 (.pushQ 63 [v]) 0] }

/-- BRC, BR, CALL, JR, JRL, LOOP, GRD and IDLE (R50, R85, R109–R112, R115). -/
def controlActs : Instr → Option Doing
  | .brc f => some {
      ends := true
      may := fun s => SystemMode s ∨ HandlerMode s ∨ (QueueMode s ∧ s.cur.seg.active = true ∧ s.cur.seg.opn = true)
      ok := fun t _ => SrcReady t f.gq.toNat
      flow := fun t _ =>
        if tests t f.gq.toNat f.gb.toNat f.gn then .jump (wrap16 ((pcOf t : Int) + f.off.toInt)) false else .seq 1 }
  | .br f => some { ends := true, flow := fun t _ => .jump (wrap16 ((pcOf t : Int) + f.off.toInt)) false }
  | .call f => some { ends := true, eff := fun t u _ => callLink u (pcOf t), flow := fun _ _ => .jump f.target.toNat true }
  | .jr f => some {
      srcs := [(f.a.toNat, f.ka)], ends := true, flow := fun _ vs => .jump ((arg1 vs).toNat % 65536) false }
  | .jrl f => some {
      srcs := [(f.a.toNat, f.ka)], ends := true, eff := fun t u _ => callLink u (pcOf t)
      flow := fun _ vs => .jump ((arg1 vs).toNat % 65536) true }
  | .loop f => some {
      srcs := [(f.a.toNat, f.ka)], ends := true
      ok := fun t _ => (loopsOf t).length < 4
      eff := fun t u vs =>
        if arg1 vs = 0 then goto u (pcOf t + 1 + f.body.toNat) 1
        else goto (setLoops u (⟨(pcOf t + 1) % 65536, (pcOf t + f.body.toNat) % 65536, (arg1 vs).toNat⟩ :: loopsOf t)) (pcOf t + 1) 1
      flow := fun _ _ => .settled }
  | .grd f => some {
      ok := fun t _ => SrcReady t f.gq.toNat ∧ LoopRule t 2 (guardedEnds (nextWord t))
      eff := fun t u _ =>
        let g := some (tests t f.gq.toNat f.gb.toNat f.gn)
        let v := goto u (pcOf t + 1) 1
        if t.onSys then v.setSys { v.sys with guard := g } else v.setCur { v.cur with guard := g }
      flow := fun _ _ => .settled }
  | .idle f => some { flow := fun _ _ => .seq (f.imm.toNat + 1) }
  | _ => none

/-- ILLEGAL class 0x0A with a reason and the end of a loop body, of a compute core or of a system core, which goes to its event handler (R114, R403). -/
def loopIllegal (s : State) (reason last : Nat) : Host.Outcome State Fault Refusal :=
  let info := 0x0A + reason * 2 ^ 8 + last * 2 ^ 16
  .next (if s.onSys then sysTrap s 0x01 info else takeTrap s 0x01 info)

/-! ## Segments, phases, waits -/

/-- SEG, SEGEND, SLATH and WBRD (R25, R28–R31, R116–R119). -/
def segmentActs : Instr → Option Doing
  | .seg f => some {
      words := 4, ends := true, signs := false
      may := fun s => QueueMode s ∧ s.cur.seg.active = false
      ok := fun t _ => f.opn = true ∨ t.cur.now = t.cur.release + f.off.toNat
      eff := inCur (fun c => { c with seg := ⟨true, f.opn, c.now, f.cnt.toNat, f.sig.toNat, 0xFFFFFFFF⟩ })
      flow := fun _ _ => .seq 4 }
  | .segend => some {
      ends := true, signs := false
      may := fun s => QueueMode s ∧ s.cur.seg.active = true
      ok := fun t _ => t.cur.seg.opn = true
        ∨ (t.cur.now = t.cur.seg.start + t.cur.seg.cnt ∧ t.cur.seg.sig ^^^ 0xFFFFFFFF = t.cur.seg.expSig)
      eff := fun _ u _ =>
        let v := u.setCur { u.cur with seg := { u.cur.seg with active := false } }
        v.setCurDom { v.curDom with livew := 0 } }
  | .slath => some {
      signs := false
      may := fun s => QueueMode s ∧ s.cur.slathed = false
      eff := fun _ u _ =>
        let v := u.setCur { u.cur with slathPend := true }
        v.setCurDom { v.curDom with task := v.curDom.task.map (fun k =>
          if k.arrived.contains u.curCore then k else { k with arrived := k.arrived ++ [u.curCore] }) }
      flow := fun _ _ => .settled }
  | .wbrd f => some {
      may := fun s => SystemMode s ∨ HandlerMode s
      ok := fun t _ => DstReady t f.d.toNat
      eff := fun t u _ => result u 1 f.d.toNat (BitVec.ofNat 64 t.wb) }
  | _ => none

/-- No fault of the context waits to be delivered at a FENCE or a PHASE (R312). -/
def NoFault (s : State) : Prop := faultWaiting s.cur = none

/-- None of the table words `ps` has lost its parity (R397). -/
def Intact (c : Ctx) (ps : List Nat) : Prop := ∀ p ∈ ps, p ∉ c.badTab

/-- The checks of PHASE on mask `m` hold: its table words intact, entries and time slots in order, no conflict, the lot of the phase
before performed, the loads landed (R69, R72, R120, R310, R312, R334, R397). -/
def PhaseReady (s : State) (m : Word) : Prop :=
  Intact s.cur (phasePlaces m) ∧ (∀ n, n < 64 → m.getLsbD n = true → footBad s.cur n = false) ∧ slotsClash s.cur = false ∧ firstConflict s.cur m.toNat = none
    ∧ lotDraining s.cur = false ∧ loadsOut s.cur = false ∧ NoFault s

/-- PHASE, WAITQ, WAITF and FENCE (R120, R123, R124, R325). -/
def waitActs : Instr → Option Doing
  | .phase f => some {
      srcs := [(f.a.toNat, f.ka)], may := QueueMode
      ok := fun t vs => PhaseReady t (arg1 vs)
      eff := fun _ u vs => u.setCur { u.cur with post := u.cur.post ++ [.phase (arg1 vs)] } }
  | .waitq f => some { may := QueueMode, ok := fun t _ => SrcReady t f.a.toNat }
  | .waitf f => some {
      srcs := [(f.a.toNat, f.ka)], may := QueueMode
      ok := fun t vs => (arg1 vs).toNat < 2048 ∧ (flagOf t.cur (arg1 vs).toNat).ovr = false
        ∧ (flagOf t.cur (arg1 vs).toNat).ready = true }
  | .fence => some { ok := fun t _ => QueueMode t → fenceDone t = true ∧ NoFault t }
  | _ => none

/-! ## Streams and tables -/

/-- The table words of layout entry `n` (R58). -/
def entryPlaces (n : Nat) : List Nat := (List.range 6).map (fun w => tabPlace 0 (n * 8 + w))

/-- OPEN, CLOSE, SADV, SREW and SSTAT (R60, R61, R125–R128). -/
def streamActs : Instr → Option Doing
  | .openS f => some {
      srcs := [0, 1, 2, 3].map (fun k => (f.a.toNat + k, f.ka)), words := 2
      may := QueueMode
      ok := fun t vs =>
        let e := layoutEntry t.cur f.lte.toNat
        Intact t.cur (entryPlaces f.lte.toNat) ∧ t.cur.strms.find f.s.toNat = none ∧ layoutOk e = true ∧ openRecOk t f.wr e = true
          ∧ startOk e (vs.map BitVec.toNat) f.cnt.toNat = true
      eff := fun t u vs =>
        let e := layoutEntry t.cur f.lte.toNat
        let c (k : Nat) : Nat := (vs.getD k 0).toNat
        let n0 := e.index (c 0) (c 1) (c 2) (c 3)
        let st : Strm :=
          { entry := e, lte := f.lte.toNat, wr := f.wr, dir := f.dir, lane := f.lane.toNat, station := e.station,
            t1 := t.cur.now + f.off.toNat, cnt := f.cnt.toNat, remaining := f.cnt.toNat, adv := 0, off := f.off.toNat,
            sched := t.cur.now, start := n0, cursor := n0, seen := [], seenScale := [] }
        u.setCur { u.cur with strms := u.cur.strms.set f.s.toNat st }
      flow := fun _ _ => .seq 2 }
  | .close f => some { may := QueueMode, eff := inCur (fun c => { c with post := c.post ++ [.close f.s.toNat] }) }
  | .sadv f => some {
      srcs := [(f.a.toNat, f.ka)], may := QueueMode
      ok := fun t vs => ∃ st, t.cur.strms.find f.s.toNat = some st ∧ (arg1 vs).toNat + b2n (st.due t.cur.now) ≤ st.remaining
      eff := fun _ u vs => u.setCur { u.cur with post := u.cur.post ++ [.sadv f.s.toNat (arg1 vs).toNat] } }
  | .srew f => some {
      may := QueueMode
      ok := fun t _ => t.cur.strms.find f.s.toNat ≠ none
      eff := inCur (fun c => { c with post := c.post ++ [.srew f.s.toNat] }) }
  | .sstat f => some {
      may := QueueMode
      eff := fun t u _ => u.setCur { u.cur with flight := u.cur.flight ++ [onWay t 1 (.sstat f.a.toNat f.s.toNat) 0] } }
  | _ => none

/-- A word number of a table whose entries have `words` words in 2 ^ `wb` places, `n` places in all (R129). -/
def inTable (wb words n : Nat) (x : Word) : Prop := x.toNat < n ∧ x.toNat % 2 ^ wb < words

/-- LTWR, LTRD, FPWR, FPRD, TSWR and TSRD (R129). -/
def tableActs : Instr → Option Doing
  | .ltwr f => some {
      srcs := [(f.a.toNat, f.ka), (f.b.toNat, f.kb)]
      ok := fun _ vs => inTable 3 6 2048 (arg1 vs)
      eff := fun _ u vs => u.setCur { u.cur with layout := u.cur.layout.set (arg1 vs).toNat (arg2 vs),
                                                  badTab := u.cur.badTab.filter (· != tabPlace 0 (arg1 vs).toNat) } }
  | .fpwr f => some {
      srcs := [(f.a.toNat, f.ka), (f.b.toNat, f.kb)]
      ok := fun _ vs => inTable 2 3 256 (arg1 vs)
      eff := fun _ u vs => u.setCur { u.cur with foot := u.cur.foot.set (arg1 vs).toNat (arg2 vs),
                                                  badTab := u.cur.badTab.filter (· != tabPlace 1 (arg1 vs).toNat) } }
  | .tswr f => some {
      srcs := [(f.a.toNat, f.ka), (f.b.toNat, f.kb)]
      ok := fun _ vs => inTable 0 1 64 (arg1 vs)
      eff := fun _ u vs => u.setCur { u.cur with slots := u.cur.slots.set (arg1 vs).toNat (arg2 vs),
                                                  badTab := u.cur.badTab.filter (· != tabPlace 2 (arg1 vs).toNat) } }
  | .ltrd f => some {
      srcs := [(f.a.toNat, f.ka)]
      ok := fun t vs => DstReady t f.d.toNat ∧ inTable 3 6 2048 (arg1 vs) ∧ Intact t.cur [tabPlace 0 (arg1 vs).toNat]
      eff := fun t u vs => result u 1 f.d.toNat (t.cur.layout.getD (arg1 vs).toNat 0) }
  | .fprd f => some {
      srcs := [(f.a.toNat, f.ka)]
      ok := fun t vs => DstReady t f.d.toNat ∧ inTable 2 3 256 (arg1 vs) ∧ Intact t.cur [tabPlace 1 (arg1 vs).toNat]
      eff := fun t u vs => result u 1 f.d.toNat (t.cur.foot.getD (arg1 vs).toNat 0) }
  | .tsrd f => some {
      srcs := [(f.a.toNat, f.ka)]
      ok := fun t vs => DstReady t f.d.toNat ∧ inTable 0 1 64 (arg1 vs) ∧ Intact t.cur [tabPlace 2 (arg1 vs).toNat]
      eff := fun t u vs => result u 1 f.d.toNat (t.cur.slots.getD (arg1 vs).toNat 0) }
  | _ => none

/-- The source, FN code and table of the index of a table instruction (R129). -/
def tableIndexOf : Instr → Option (Src × Nat × Nat × Nat × Nat)
  | .ltwr f => some ((f.a.toNat, f.ka), 0, 3, 6, 2048)
  | .ltrd f => some ((f.a.toNat, f.ka), 1, 3, 6, 2048)
  | .fpwr f => some ((f.a.toNat, f.ka), 2, 2, 3, 256)
  | .fprd f => some ((f.a.toNat, f.ka), 3, 2, 3, 256)
  | .tswr f => some ((f.a.toNat, f.ka), 4, 0, 1, 64)
  | .tsrd f => some ((f.a.toNat, f.ka), 5, 0, 1, 64)
  | _ => none

/-- The field of the value of a table write. -/
def tableValue : Instr → Option Nat
  | .ltwr f | .fpwr f | .tswr f => some f.b.toNat
  | _ => none

/-- The destination of a table read. -/
def tableDest : Instr → Option Nat
  | .ltrd f | .fprd f | .tsrd f => some f.d.toNat
  | _ => none

/-- The word of a ready flag (R296, R298). -/
def flagImage (r : RFlag) : Word :=
  BitVec.ofNat 64 (r.cnt % 2 ^ 24 + (r.target % 2 ^ 24) * 2 ^ 24 + (if r.armed then 2 ^ 48 else 0) + (if r.ready then 2 ^ 49 else 0)
    + (if r.ovr then 2 ^ 50 else 0))

/-- FLAGSET and FLAGRD (R297, R298). -/
def flagActs : Instr → Option Doing
  | .flagset f => some {
      srcs := [(f.a.toNat, f.ka), (f.b.toNat, f.kb)]
      ok := fun _ vs => (arg1 vs).toNat < 2048 ∧ (arg2 vs).toNat < 2 ^ 24
      eff := fun _ u vs => u.setCur { u.cur with
        flags := u.cur.flags.set (arg1 vs).toNat ⟨0, (arg2 vs).toNat, true, decide (arg2 vs = 0), false⟩ } }
  | .flagrd f => some {
      srcs := [(f.a.toNat, f.ka)]
      ok := fun t vs => DstReady t f.d.toNat ∧ (t.cur.handler = false → (arg1 vs).toNat < 2048)
        ∧ ((flagOf t.cur ((arg1 vs).toNat % 2048)).ovr = true → t.cur.handler = true)
      eff := fun t u vs => result u 1 f.d.toNat (flagImage (flagOf t.cur ((arg1 vs).toNat % 2048))) }
  | _ => none

end Sys2Proof.Claims

/-- R105: MOV, DROP, QCNT and QCLR of a compute core do what their entries say, for every width. -/
def Obligations.QueueOperations : Prop := ∀ i s x, queueActs i = some x → Completes i s x

/-- R50, R109–R113, R115: branches, guards, calls, loops and IDLE on operands that can be read; a transfer from a word of the innermost
loop's body to a word outside it leaves that loop, any other, and every call, keeps the loops, and the target issues on the next cycle. R114: LOOP with
four loops active takes ILLEGAL class 0x0A with reason 0x01; BRC, BR, CALL, JR, JRL, LOOP, SEG, SEGEND, and a GRD with a guarded CALL, JR or JRL, that end
where the innermost body ends take reason 0x02, and OPEN, SEG and a GRD with its word that run past that end take reason 0x03, both with the end
in EINFO, before any pop. That a system core's call links into its register 63
is the model's choice (log 12), as is what its ILLEGAL does (log 11). -/
def Obligations.ControlTransfers : Prop :=
  (∀ i s x, controlActs i = some x → Completes i s x)
  ∧ ∀ (s : State) (target : Nat) (call : Bool),
      (∀ l ls, loopsOf s = l :: ls → call = false → l.holds (pcOf s) = true → l.holds (target % 65536) = false →
        transfer s target call = goto (setLoops s ls) target 1)
      ∧ ((loopsOf s = [] ∨ call = true ∨ ∃ l ls, loopsOf s = l :: ls ∧ (l.holds (pcOf s) = false ∨ l.holds (target % 65536) = true)) →
        transfer s target call = goto s target 1)
      ∧ (QueueMode s → goto s target 1 = s.setCur { s.cur with pc := target % 65536, base := s.cur.now + 1, nic := none, guard := none })
      ∧ (∀ (f : FLoop), Unguarded s → (HandlerMode s → f.a.toNat < 16) → 4 ≤ (loopsOf s).length → exec (.loop f) s = loopIllegal s 1 0)
      ∧ (∀ l ls, Unguarded s → loopsOf s = l :: ls →
        let ends (n : Nat) : Prop := (pcOf s + n) % 65536 = l.last
        let low (r : Nat) : Prop := HandlerMode s → r < 16
        (ends 0 →
          (∀ f, exec (.br f) s = loopIllegal s 2 l.last) ∧ (∀ f, exec (.call f) s = loopIllegal s 2 l.last)
            ∧ (∀ f : FA, low f.a.toNat → exec (.jr f) s = loopIllegal s 2 l.last ∧ exec (.jrl f) s = loopIllegal s 2 l.last)
            ∧ (∀ f : FLoop, low f.a.toNat → (loopsOf s).length < 4 → exec (.loop f) s = loopIllegal s 2 l.last)
            ∧ (∀ f : FBrc, low f.gq.toNat → (QueueMode s → s.cur.seg.active = true ∧ s.cur.seg.opn = true) →
                exec (.brc f) s = loopIllegal s 2 l.last)
            ∧ (QueueMode s → s.cur.seg.active = true → (s.cur.seg.opn = true ∨ s.cur.now = s.cur.seg.start + s.cur.seg.cnt) →
                exec .segend s = loopIllegal s 2 l.last))
          ∧ (∀ f : FSeg, QueueMode s → s.cur.seg.active = false → (f.opn = true ∨ s.cur.now ≤ s.cur.release + f.off.toNat) →
            (ends 3 → exec (.seg f) s = loopIllegal s 2 l.last) ∧ (ends 0 ∨ ends 1 ∨ ends 2 → exec (.seg f) s = loopIllegal s 3 l.last))
          ∧ (∀ f : FGrd, low f.gq.toNat →
            (ends 1 → guardedEnds (nextWord s) = true → exec (.grd f) s = loopIllegal s 2 l.last)
              ∧ (ends 0 → exec (.grd f) s = loopIllegal s 3 l.last))
          ∧ (∀ f : FOpen, QueueMode s → ends 0 → Intact s.cur (entryPlaces f.lte.toNat) →
            let e := layoutEntry s.cur f.lte.toNat
            let srcs : List Src := [0, 1, 2, 3].map (fun k => (f.a.toNat + k, f.ka))
            layoutOk e = true → openRecOk s f.wr e = true →
            (SrcsReady s srcs → startOk e ((srcValues s srcs).map BitVec.toNat) f.cnt.toNat = true) →
            exec (.openS f) s = loopIllegal s 3 l.last))


/-- R25, R28–R31, R116, R117, R119: SEG on its stamp opens the segment, SEGEND on its cycle and signature closes it, SLATH arrives at the
barrier, WBRD reads the wall cycle. A timed SEG after its stamp takes SEGLATE with its lateness and one before it waits; a timed SEGEND
off its cycle takes SEGCNT with the cycles counted, and on its cycle with a wrong signature SEGSIG, both signatures in EINFO; SEG inside a
segment, SEGEND outside one and both in handler mode take ILLEGAL. A word that issues in a timed segment enters the running signature
by one CRC-32C step; the second word of an instruction enters it on the next cycle, on which it issues. -/
def Obligations.SegmentRules : Prop :=
  (∀ i s x, segmentActs i = some x → Completes i s x)
  ∧ (∀ (f : FSeg) (s : State), QueueMode s → Unguarded s → s.cur.seg.active = false → LoopRule s 4 true → f.opn = false →
    let stamp := s.cur.release + f.off.toNat
    (stamp < s.cur.now → exec (.seg f) s = .next (takeStop s (.trap 0x08 ((s.cur.now - stamp) % 2 ^ 32))))
      ∧ (s.cur.now < stamp → exec (.seg f) s = .next s))
  ∧ (∀ (s : State), QueueMode s → Unguarded s → s.cur.seg.active = true → LoopRule s 1 true → s.cur.seg.opn = false →
    let g := s.cur.seg
    let sig := g.sig ^^^ 0xFFFFFFFF
    (s.cur.now ≠ g.start + g.cnt → exec .segend s = .next (takeStop s (.trap 0x06 ((s.cur.now - g.start) % 2 ^ 32))))
      ∧ (s.cur.now = g.start + g.cnt → sig ≠ g.expSig → exec .segend s = .next (takeStop s (.trap 0x07 (sig + g.expSig * 2 ^ 32)))))
  ∧ (∀ (f : FSeg) (s : State), s.onSys = false → Unguarded s →
    (s.cur.seg.active = true ∨ s.cur.handler = true → exec (.seg f) s = .next (takeTrap s 0x01 0x0003))
      ∧ (s.cur.seg.active = false ∨ s.cur.handler = true → exec .segend s = .next (takeTrap s 0x01 0x0003)))
  ∧ (∀ (s : State) (n : Nat), QueueMode s → signed s n =
      if s.cur.seg.active = true ∧ s.cur.seg.opn = false then
        let word (k : Nat) := s.fetchWord s.curCore (s.slotOf s.curCore) (s.cur.pc + k)
        s.setCur { s.cur with seg := { s.cur.seg with sig := crcWord s.cur.seg.sig (word 0) }
                              sigNext := if n = 2 then some (word 1) else none }
      else s)
  ∧ (∀ (s : State) (w : Nat), s.cur.sigNext = some w →
      enterSig s = s.setCur { s.cur with sigNext := none, seg := { s.cur.seg with sig := crcWord s.cur.seg.sig w } })

/-- R37, R120, R123, R124, R325: PHASE, WAITQ, WAITF and FENCE pass where what they wait for has come. WAITQ of a pending head, WAITF
of a flag that is not ready and FENCE before its condition freeze the core on their cycle under MODE.LATE = 0, with KIND 3, 4 and
10, and take ARRIVAL under MODE.LATE = 1; WAITQ of an empty queue takes QUNF, WAITF of an operand of more than 11 bits ILLEGAL class
0x11, reason 0x03, and of a flag with overrun ARRIVAL; nothing is popped. PHASE, with its operand and its table words readable, takes ILLEGAL class 0x08 for a
selected entry that breaks R69, class 0x09 for time slots that clash, FOOTOVL for the first conflicting pair with the lowest granule or
tile shared, freezes with KIND 11 while the lot of the last commit has not performed and with KIND 12 while loads are out, and pops nothing. That each
of these comes before the next, FOOTOVL before the waits and KIND 11 before KIND 12, and so ARRIVAL 0x06 before 0x07, is the model's choice (log 16). -/
def Obligations.Waits : Prop :=
  (∀ i s x, waitActs i = some x → Completes i s x)
  ∧ ∀ (s : State), QueueMode s → Unguarded s →
    let held (i : Instr) (kind late : Nat) : Prop :=
      exec i s = .next (if s.cur.mode.getLsbD 0 then takeTrap s 0x10 late
        else s.setCur { s.cur with frozen := some ⟨s.cur.now, kind, false, false⟩ })
    (∀ (f : FA0) n es, f.a.toNat ≠ 0 → qEntries s.cur f.a.toNat = .pending n :: es → held (.waitq f) 3 0x03)
      ∧ (∀ (f : FA0), f.a.toNat ≠ 0 → qEntries s.cur f.a.toNat = [] → exec (.waitq f) s = .next (takeTrap s 0x03 f.a.toNat))
      ∧ (∀ (f : FA), SrcReady s f.a.toNat →
          let a := (srcValue s f.a.toNat).toNat
          (2048 ≤ a → exec (.waitf f) s = .next (takeTrap s 0x01 (0x0311 + (a % 2 ^ 32) * 2 ^ 32)))
            ∧ (a < 2048 → (flagOf s.cur a).ovr = true → exec (.waitf f) s = .next (takeTrap s 0x10 (0x01 + a * 2 ^ 8)))
            ∧ (a < 2048 → (flagOf s.cur a).ovr = false → (flagOf s.cur a).ready = false → held (.waitf f) 4 (0x04 + a * 2 ^ 8)))
      ∧ (fenceDone s = false → held .fence 10 0x05)
      ∧ (∀ (f : FA), SrcReady s f.a.toNat →
          let m := srcValue s f.a.toNat
          let broken := ∃ n, n < 64 ∧ m.getLsbD n = true ∧ footBad s.cur n = true
          Intact s.cur (phasePlaces m) →
          (broken → exec (.phase f) s = .next (takeTrap s 0x01 0x0008))
            ∧ (¬ broken → slotsClash s.cur = true → exec (.phase f) s = .next (takeTrap s 0x01 0x0009))
            ∧ (¬ broken → slotsClash s.cur = false →
                (∀ i j g, firstConflict s.cur m.toNat = some (i, j, g) →
                  exec (.phase f) s = .next (takeTrap s 0x0A (i + j * 2 ^ 8 + g * 2 ^ 16)))
                  ∧ (firstConflict s.cur m.toNat = none →
                      (lotDraining s.cur = true → held (.phase f) 11 0x06)
                        ∧ (lotDraining s.cur = false → loadsOut s.cur = true → held (.phase f) 12 0x07))))

/-- R60, R61, R125–R128: OPEN binds its stream to a copy of the entry with the schedule of its second word; CLOSE, SADV and SREW are
taken and act at the end of their cycle as their entries say; SSTAT pushes the status. An OPEN may end a loop body, as R114 does not
name it. OPEN of an open stream, SADV and SREW of a closed
one and SADV past the end take ILLEGAL class 0x0D with the stream, before any pop; an entry that OPEN may not bind has the lower class
0x04, open stream or not (R88). That such an entry, and an open stream, are reported though the coordinate queues cannot be read is the model's reading of
R89 (log 16). The words of the entry have their parity (R397). -/
def Obligations.StreamInstructions : Prop :=
  (∀ i s x, streamActs i = some x → Completes i s x)
  ∧ (∀ (c : Ctx) (n k : Nat) (st : Strm), c.strms.find n = some st →
      (streamPost c (.close n)).strms.find n = none
        ∧ (streamPost c (.sadv n k)).strms.find n = some { st with
            adv := st.adv + k, remaining := st.remaining - k, cursor := st.cursor + k * st.entry.perWord }
        ∧ (streamPost c (.srew n)).strms.find n = some { st with
            t1 := c.now + st.off, adv := 0, remaining := st.cnt, cursor := st.start, sched := c.now, seen := [], seenScale := [] }
        ∧ ∀ m, m ≠ n → ∀ p ∈ [PostAct.close n, .sadv n k, .srew n], (streamPost c p).strms.find m = c.strms.find m)
  ∧ ∀ (s : State), QueueMode s → Unguarded s →
      (∀ (f : FOpen) (st : Strm), s.cur.strms.find f.s.toNat = some st → LoopRule s 2 false → Intact s.cur (entryPlaces f.lte.toNat) →
        let e := layoutEntry s.cur f.lte.toNat
        let srcs : List Src := [0, 1, 2, 3].map (fun k => (f.a.toNat + k, f.ka))
        layoutOk e = true → openRecOk s f.wr e = true →
        (SrcsReady s srcs → startOk e ((srcValues s srcs).map BitVec.toNat) f.cnt.toNat = true) →
        exec (.openS f) s = .next (takeTrap s 0x01 (0x010D + f.s.toNat * 2 ^ 16)))
      ∧ (∀ (f : FOpen), Intact s.cur (entryPlaces f.lte.toNat) →
        (layoutOk (layoutEntry s.cur f.lte.toNat) = false ∨ openRecOk s f.wr (layoutEntry s.cur f.lte.toNat) = false) →
        exec (.openS f) s = .next (takeTrap s 0x01 0x0004))
      ∧ (∀ (f : FSA), s.cur.strms.find f.s.toNat = none → exec (.sadv f) s = .next (takeTrap s 0x01 (0x020D + f.s.toNat * 2 ^ 16)))
      ∧ (∀ (f : FS), s.cur.strms.find f.s.toNat = none → exec (.srew f) s = .next (takeTrap s 0x01 (0x020D + f.s.toNat * 2 ^ 16)))
      ∧ (∀ (f : FSA) (st : Strm), s.cur.strms.find f.s.toNat = some st → SrcReady s f.a.toNat →
        st.remaining - b2n (st.due s.cur.now) < (srcValue s f.a.toNat).toNat →
        exec (.sadv f) s = .next (takeTrap s 0x01 (0x030D + f.s.toNat * 2 ^ 16)))


/-- R129, R297, R298: the table instructions write and read one 64-bit word of their own table, and an index that names none takes
ILLEGAL class 0x0B with FN and the index; FLAGSET arms a flag, ready at once where the target is 0; FLAGRD reads it, in handler
mode the flag A[10:0], with no check and no trap. A word that LTRD, FPRD or TSRD reads has its parity (R397). That a word which is written has
its parity again is the model's choice (log 48), and so is that the index is judged though the value of a table write cannot be read (log 16, from
R89). -/
def Obligations.TablesAndFlags : Prop :=
  (∀ i s x, (tableActs i = some x ∨ flagActs i = some x) → Completes i s x)
  ∧ (∀ (s : State) (i : Instr) (a : Src) (fn wb words n : Nat), tableIndexOf i = some (a, fn, wb, words, n) → s.onSys = false → Unguarded s →
      SrcReady s a.1 → (∀ d, tableDest i = some d → DstReady s d) → (∀ b, tableValue i = some b → s.cur.handler = true → b < 16) →
      ¬ inTable wb words n (srcValue s a.1) →
      exec i s = .next (takeTrap s 0x01 (0x0B + fn * 2 ^ 8 + ((srcValue s a.1).toNat % 2 ^ 32) * 2 ^ 32)))

namespace Sys2Proof.Claims
open Sys2Proof Sys2Proof.Machine

/-! ## CSRs, traps by instruction, contexts -/

/-- The writable bits of a CSR of a compute core; 0 for one that no CSRWR changes (R5, R43, R174–R178, R202, R243, R313, R369–R378). -/
def csrMask (n : Nat) : Word :=
  if 0x60 ≤ n ∧ n ≤ 0x67 then 0xFFFFFFFFFFFFFFFF
  else match n with
    | 0x00 => 0xFF | 0x01 => 0xFFFF | 0x04 => 0xFFFF | 0x08 => 0xF
    | 0x40 => 0x7 | 0x41 => 0xF | 0x42 => 0x3F | 0x43 => 0xFFFFFFFF
    | 0x68 => 0xFFFFFFFF | 0x69 => 0xFFFFFFFF | 0x6A => 0xFFFFFFFF | 0x6B => 0xFFFFFFFF
    | 0x80 => 0xFFFF3F3F | 0xA0 => 0xFFFFFFFFFFFFFFFF | 0xA2 => 0xFFFF0000007FFF80
    | _ => 0

/-- CSRRD, CSRWR, TRAP, SNAP and HALT (R386, R390, R402–R404). -/
def csrActs : Instr → Option Doing
  | .csrrd f => some {
      ok := fun t _ => DstReady t f.d.toNat ∧ (HandlerMode t → f.csr = 0x35 → onF t = true)
      eff := fun t u _ => result u 1 f.d.toNat
        (if t.onSys then sysCsrRead t f.csr.toNat else csrRead t t.curCore (t.slotOf t.curCore) f.csr.toNat) }
  | .csrwr f => some {
      srcs := [(f.a.toNat, false)]
      eff := fun t u vs => if t.onSys then u.setSys (sysCsrWrite u.sys f.csr.toNat (arg1 vs).toNat)
        else u.setCur (csrWrite u.cur f.csr.toNat (arg1 vs)) }
  | .trap f => some {
      srcs := [(f.a.toNat, f.ka)], may := QueueMode
      eff := fun _ u vs => u.setCur { u.cur with sysCall := some (u.cur.now + 1, arg1 vs) } }
  | .snap => some {
      eff := fun t u _ =>
        let p := if t.onSys then t.partOfDie (t.curSys / 2) else t.curPart
        let v := u.setPart p { u.part p with snseq := (u.part p).snseq + 1 }
        if t.onSys then match (v.part p).runSlot with
          | none => v
          | some sl => v.setDom p sl (requestHold (v.dom p sl) 9 (v.dom p sl).tb 64 v.wb)
        else if t.cur.handler then latchDomain v p (t.slotOf t.curCore)
        else v.setCurDom (requestHold v.curDom 9 t.cur.now 64 v.wb) }
  | .halt => some {
      may := fun s => QueueMode s ∧ s.cur.seg.active = false
      eff := fun t u _ =>
        let p := phaseNow t
        let v := departCols u (· == p)
        let again := if t.cur.haltCols.1 = p then t.cur.seenCols else 0
        let w := v.setCur { v.cur with
          halted := some v.cur.now
          haltCols := (p, again + (t.cur.cols.filter (fun x => x.phase == p)).length)
          aus := v.cur.aus.map (fun r => if r.place == .lot && r.phase == p then
            { r with place := if v.cur.auHalt.any (fun n => decide (n < r.seqNo)) then .held else .departed, stampPh := p % 2 ^ 16,
                     stampSsn := v.cur.ssn.toNat % 2 ^ 16, ahead := 0 } else { r with ahead := 0 }) }
        w.setCurDom { w.curDom with task := w.curDom.task.map (fun k =>
          { k with lastHalt := max k.lastHalt t.cur.now
                   lastHaltWb := if k.lastHalt ≤ t.cur.now then t.wb else k.lastHaltWb }) }
      flow := fun _ _ => .settled }
  | _ => none

/-- CTXRD and CTXWR of an item that exists (R388). -/
def itemActs : Instr → Option Doing
  | .ctxrd f => some {
      srcs := [(f.a.toNat, f.ka)], may := fun s => SystemMode s ∨ HandlerMode s
      ok := fun t vs => DstReady t f.d.toNat ∧ ∃ k v w, ctxTarget t (arg1 vs).toNat = .ok k ∧ ctxItem t k.1 k.2 (arg1 vs).toNat = some (v, w)
      eff := fun t _ vs =>
        match ctxTarget t (arg1 vs).toNat with
        | .ok k => match ctxItem t k.1 k.2 (arg1 vs).toNat with
          | some r => result r.2 1 f.d.toNat r.1
          | none => t
        | .error _ => t }
  | .ctxwr f => some {
      srcs := [(f.a.toNat, f.ka), (f.b.toNat, f.kb)], may := fun s => SystemMode s ∨ HandlerMode s
      ok := fun t vs => ∃ k w, ctxTarget t (arg1 vs).toNat = .ok k ∧ ctxPut t k.1 k.2 (arg1 vs).toNat (arg2 vs) = .ok w
      eff := fun t _ vs =>
        match ctxTarget t (arg1 vs).toNat with
        | .ok k => match ctxPut t k.1 k.2 (arg1 vs).toNat (arg2 vs) with
          | .ok w => w
          | .error _ => t
        | .error _ => t }
  | _ => none

/-! ## Paged memory -/

/-- A request of the access unit as it enters the context's sequence (R307, R315). -/
def newRequest (t : State) (op : AuOp) (va size : Nat) : AuReq :=
  { seqNo := t.cur.auNext, op := op, va := va, size := size, signed := false, b0 := 0, b1 := 0, cas := false, dest := 0,
    pc := t.cur.pc, issue := t.cur.now, phase := phaseNow t, stampPh := phaseNow t % 2 ^ 16, stampSsn := t.cur.ssn.toNat % 2 ^ 16,
    land := 0, tag := 0, place := .lot, value := 0, left := [], poison := none, cause := 0, why := 0, rag := 0,
    forwarded := false, gap := false, came := 0, ahead := 0 }

/-- The context with a request entered and, where it has a destination, its entry on its way into that queue (R46, R307, R308). In a replay a request of
that number that departed as the core halted, before the cancel, stands in its place, unless it has faulted (R339, R404). -/
def enterRequest (c : Ctx) (r : AuReq) : Ctx :=
  let sent (x : AuReq) : Bool := x.seqNo == r.seqNo && x.ahead == 1
  let others := c.aus.filter (fun x => !sent x)
  { c with
    auNext := c.auNext + 1
    aus := if c.aus.any (fun x => sent x && x.place != .faulted) then c.aus.map (fun x => if sent x then { x with ahead := 2 } else x)
      else others ++ [if r.gated then r else loadDepart { c with aus := others } r]
    flight := if r.dest = 0 then c.flight
      else c.flight ++ [⟨c.now, c.pc, c.now, .reserve r.dest r.seqNo, 0, 0, none, false⟩] }

/-- The address of LDS and STS: A plus the displacement times the size (R320, R321). -/
def pagedAddr (x : Word) (disp : BitVec 5) (size : Nat) : Nat := (x + BitVec.ofInt 64 (disp.toInt * (size : Int))).toNat

/-- A virtual address that names a place, aligned (R302, R326). -/
def vaOk (va size : Nat) : Prop := va < 2 ^ 57 ∧ va % size = 0

/-- A paged load of a size (R308, R320). -/
def loadAct (f : FLs) (size : Nat) (sign : Bool) : Doing :=
  { srcs := [(f.a.toNat, f.ka)], may := QueueMode
    ok := fun _ vs => vaOk (pagedAddr (arg1 vs) f.disp size) size
    eff := fun t u vs => u.setCur (enterRequest u.cur
      { newRequest t (if f.d = 0 then .touch else .load) (pagedAddr (arg1 vs) f.disp size) size with signed := sign, dest := f.d.toNat }) }

/-- A paged store of a size: the data is popped from D (R321). -/
def storeAct (f : FLs) (size : Nat) : Doing :=
  { srcs := [(f.a.toNat, f.ka), (f.d.toNat, false)], may := QueueMode
    ok := fun t vs => vaOk (pagedAddr (arg1 vs) f.disp size) size ∧ lotCount t < 256
    eff := fun t u vs => u.setCur (enterRequest u.cur
      { newRequest t .store (pagedAddr (arg1 vs) f.disp size) size with b0 := arg2 vs }) }

/-- LDQ: the word form where A[2:0] is 0, the line-fill form where it is 1 and A[6:3] is 0 (R322). -/
def ldqAct (f : FDA) : Doing :=
  { srcs := [(f.a.toNat, f.ka)], may := QueueMode
    ok := fun _ vs => (arg1 vs).toNat < 2 ^ 57 ∧ ((arg1 vs).toNat % 8 = 0 ∨ (arg1 vs).toNat % 128 = 1)
    eff := fun t u vs =>
      let x := (arg1 vs).toNat
      let op (o : AuOp) : AuOp := if f.d = 0 then .touch else o
      if x % 8 = 0 then u.setCur (enterRequest u.cur { newRequest t (op .load) x 8 with dest := f.d.toNat })
      else
        let l := t.cur.land.toNat
        let c := enterRequest u.cur { newRequest t (op .fill) (x - 1) 128 with
          dest := f.d.toNat, b1 := BitVec.ofNat 64 (l % 2 ^ 23), tag := l / 2 ^ 48 }
        u.setCur { c with land := BitVec.ofNat 64 (l / 2 ^ 23 * 2 ^ 23 + (l % 2 ^ 23 + 128) % 2 ^ 23) } }

/-- A paged atomic (R290). -/
def pagedAtomicAct (f : FDAB) (cas : Bool) : Doing :=
  { srcs := (f.a.toNat, f.ka) :: (f.b.toNat, f.kb) :: (if cas then [(f.b.toNat + 1, f.kb)] else []), may := QueueMode
    ok := fun t vs => vaOk (arg1 vs).toNat 8 ∧ lotCount t < 256
    eff := fun t u vs => u.setCur (enterRequest u.cur
      { newRequest t .atomic (arg1 vs).toNat 8 with b0 := vs.getD 1 0, b1 := vs.getD 2 0, cas := cas, dest := f.d.toNat }) }

/-- The paged instructions of a compute core (R290, R291, R318, R320–R324). -/
def pagedActs : Instr → Option Doing
  | .ldsD f => some (loadAct f 8 false)
  | .ldsWu f => some (loadAct f 4 false)
  | .ldsWs f => some (loadAct f 4 true)
  | .ldsHu f => some (loadAct f 2 false)
  | .ldsBu f => some (loadAct f 1 false)
  | .stsD f => some (storeAct f 8)
  | .stsW f => some (storeAct f 4)
  | .stsH f => some (storeAct f 2)
  | .stsB f => some (storeAct f 1)
  | .ldq f => some (ldqAct f)
  | .ldqLineFill f => some (ldqAct f)
  | .stq f => some {
      srcs := [(f.a.toNat, f.ka), (f.b.toNat, f.kb)], may := QueueMode
      ok := fun t vs => vaOk (arg1 vs).toNat 8 ∧ lotCount t < 256
      eff := fun t u vs => u.setCur (enterRequest u.cur { newRequest t .store (arg1 vs).toNat 8 with b0 := arg2 vs }) }
  | .migr f => some {
      srcs := [(f.a.toNat, f.ka), (f.b.toNat, f.kb)], may := QueueMode
      ok := fun t vs => vaOk (arg1 vs).toNat 65536 ∧ (arg2 vs).toNat < 2 ^ 32 ∧ lotCount t < 256
      eff := fun t u vs => u.setCur (enterRequest u.cur { newRequest t .migr (arg1 vs).toNat 65536 with b0 := arg2 vs }) }
  | .pamoadd f => some (pagedAtomicAct f false)
  | .pamocas f => some (pagedAtomicAct f true)
  | .austat f => some {
      ok := fun t _ => DstReady t f.d.toNat
      eff := fun t u _ => result u 1 f.d.toNat (auStatus t) }
  | _ => none

/-- RSTQ to a core of the task, at once, and to a core of another package, with its phase's lot (R291, R307). -/
def rstqActs : Instr → Option Doing
  | .rstq f => some {
      srcs := [(f.a.toNat, f.ka), (f.b.toNat, f.kb)], may := QueueMode
      ok := fun t vs => rstqOk t (arg1 vs).toNat = true ∧ ((arg1 vs).getLsbD 36 = true → lotCount t < 256)
      eff := fun t u vs =>
        let x := (arg1 vs).toNat
        if (arg1 vs).getLsbD 36 then u.setCur (enterRequest u.cur
          { newRequest t .rstq (bits x 42 37 * 2 ^ 51 + bits x 30 28 * 2 ^ 48 + bits x 27 23 * 2 ^ 23 + bits x 22 0) 8 with
            b0 := arg2 vs, b1 := arg1 vs, tag := bits x 63 48 })
        else
          let core := 32 * t.curPart + bits x 30 23
          let far := if t.curCore / 32 ≤ core / 32 then core / 32 - t.curCore / 32 else t.curCore / 32 - core / 32
          u.setCore core { u.core core with inbound := (u.core core).inbound ++
            [{ slot := t.slotOf t.curCore, due := t.cur.now + 24 + 8 * far, issue := some t.cur.now, src := some (t.rankOf t.curCore),
               srcOrder := t.curCore, addr := bits x 22 0, perm := bits x 35 32, data := bytesOf 8 (arg2 vs).toNat,
               tag := some (bits x 63 48), poison := none, run := none, bar := none, wall := 0, gap := false, came := 0 }] } }
  | _ => none

/-! ## Scratchpad atomics -/

/-- A scratchpad atomic enters its reserved cycles (R286, R287). -/
def atomicAct (f : FDAB) (op : Nat) : Doing :=
  { srcs := (f.a.toNat, f.ka) :: (f.b.toNat, f.kb) :: (if op = 3 then [(f.b.toNat + 1, f.kb)] else []), may := QueueMode
    ok := fun _ vs => atomicBad (arg1 vs).toNat = false
    eff := fun t u vs => u.setCur { u.cur with atomics := u.cur.atomics ++
      [⟨t.cur.now, t.cur.pc, op, bits (arg1 vs).toNat 22 0, bits (arg1 vs).toNat 27 24, vs.getD 1 0, vs.getD 2 0, f.d.toNat, none, none⟩] } }

def atomicActs : Instr → Option Doing
  | .amoadd f => some (atomicAct f 0)
  | .amomax f => some (atomicAct f 1)
  | .amoswp f => some (atomicAct f 2)
  | .amocas f => some (atomicAct f 3)
  | _ => none

/-! ## Statistics records -/

/-- The core's slot owns record `rid` of its partition (R180). -/
def OwnsRec (t : State) (rid : Nat) : Prop :=
  rid ≠ 0 ∧ rid / 512 < (t.part t.curPart).size ∧ recOwned (t.part t.curPart) (t.slotOf t.curCore) rid = true

/-- STRD's and STSET's index names a word of an owned record (R203, R204). -/
def recIndexOk (t : State) (x : Nat) : Prop := x < 2 ^ 20 ∧ OwnsRec t (x % 4096) ∧ bits x 17 12 ≤ 35

/-- A change of the issuing core stamped with its cycle (R184, R205). -/
def stamped (t u : State) (kind rid word : Nat) (v : Word) : State :=
  let p := u.part t.curPart
  u.setPart t.curPart { p with recs := { p.recs with
    changes := insertChange ⟨t.cur.now, t.curCore, kind, rid, 0, word, v, []⟩ p.recs.changes } }

/-- STBIND, STCLR, STRD, STMERGE, STGEN and STSET (R184, R203–R205). -/
def recordActs : Instr → Option Doing
  | .stbind f => some {
      srcs := [(f.a.toNat, f.ka), (f.b.toNat, f.kb)]
      may := fun s => s.onSys = false
      ok := fun t vs => (arg1 vs).toNat < 256 ∧ (arg2 vs).toNat < 4096 ∧ tabPlace 0 ((arg1 vs).toNat * 8 + 1) ∉ t.cur.badTab ∧ (arg2 vs ≠ 0 → OwnsRec t (arg2 vs).toNat)
      eff := fun _ u vs =>
        let k := (arg1 vs).toNat * 8 + 1
        let w : Word := BitVec.ofNat 64 (putBits (u.cur.layout.getD k 0).toNat 27 16 (arg2 vs).toNat)
        u.setCur { u.cur with layout := u.cur.layout.set k w } }
  | .stclr f => some {
      srcs := [(f.a.toNat, f.ka)], may := fun s => s.onSys = false
      ok := fun t vs => (arg1 vs).toNat < 4096 ∧ OwnsRec t (arg1 vs).toNat
      eff := fun t u vs => stamped t u 0 (arg1 vs).toNat 0 0 }
  | .stset f => some {
      srcs := [(f.a.toNat, f.ka), (f.b.toNat, f.kb)], may := fun s => s.onSys = false
      ok := fun t vs => recIndexOk t (arg1 vs).toNat ∧ bits (arg1 vs).toNat 19 18 = 0
      eff := fun t u vs => stamped t u 1 ((arg1 vs).toNat % 4096) (bits (arg1 vs).toNat 17 12) (arg2 vs) }
  | .stmerge f => some {
      srcs := [(f.a.toNat, f.ka)], may := fun s => s.onSys = false
      ok := fun t vs => (arg1 vs).toNat < 2 ^ 24 ∧ OwnsRec t (bits (arg1 vs).toNat 11 0) ∧ OwnsRec t (bits (arg1 vs).toNat 23 12)
        ∧ bits (arg1 vs).toNat 11 0 ≠ bits (arg1 vs).toNat 23 12
      eff := fun t u vs =>
        let p := u.part t.curPart
        u.setPart t.curPart { p with recs := { p.recs with
          merges := insertMerge (t.cur.now, t.curCore, bits (arg1 vs).toNat 11 0, bits (arg1 vs).toNat 23 12) p.recs.merges } } }
  | .strd f => some {
      srcs := [(f.a.toNat, f.ka)], may := fun s => s.onSys = false
      ok := fun t vs => DstReady t f.d.toNat ∧ recIndexOk t (arg1 vs).toNat ∧ bits (arg1 vs).toNat 19 18 ≠ 3
      eff := fun t u vs =>
        let x := (arg1 vs).toNat
        let r := recsAt (t.part t.curPart) (t.slotOf t.curCore) t.cur.now
        result u 1 f.d.toNat (match bits x 19 18 with
          | 0 => r.home.getD (homeKey (x % 4096) + bits x 17 12) 0
          | 1 => r.shard.getD (shardKey (t.curCore / 32 - t.curPart) (x % 4096) + bits x 17 12) 0
          | _ => r.view.getD (homeKey (x % 4096) + bits x 17 12) 0) }
  | .stgen f => some {
      srcs := [(f.a.toNat, f.ka)], may := fun s => s.onSys = false
      ok := fun t vs => DstReady t f.d.toNat ∧ (arg1 vs).toNat < 4096 ∧ OwnsRec t (arg1 vs).toNat
      eff := fun t u vs =>
        let v := recWords (recsAt (t.part t.curPart) (t.slotOf t.curCore) t.cur.now).view (homeKey (arg1 vs).toNat)
        result u 1 f.d.toNat (BitVec.ofNat 64 ((v.getD 0 0 >>> 32)
          + (if bits (v.getD 2 0) 34 32 ≠ 0 ∨ v.getD 3 0 ≠ 0 then 2 ^ 32 else 0))) }
  | _ => none

end Sys2Proof.Claims

/-- R178, R386, R390, R402–R404: CSRRD, CSRWR, TRAP, SNAP and HALT. HALT on a system core ends with the core waiting for an event behind it. The words of a
snapshot, the wall cycle of the last HALT and what a replay is not to send again are the model's choice (logs 13, 22, 99), as is that TRAP on a system core goes to SVEC with its operand as the
detail and the address after it in SEPC (log 11). -/
def Obligations.ControlRegisters : Prop :=
  (∀ i s x, csrActs i = some x → Completes i s x)
  ∧ ∀ (s : State), SystemMode s → Unguarded s →
      exec .halt s = .next ((advance s 1 1).setSys { (advance s 1 1).sys with halted := true })
        ∧ ∀ (f : FA), exec (.trap f) s = .next (s.setSys { s.sys with
            cause := 0x18, einfo := readG s f.a.toNat, sepc := (s.sys.pc + 1) % 65536, pc := s.sys.svec, inEvent := true, guard := none
            req := none, ans := none, nonce := none })

/-- R5, R390, R403 and the register tables: a CSRWR of a register of a compute core changes its writable bits and no other register; a
read-only or reserved one does not change. On a system core SEVT bits are cleared by ones, the other writable CSRs take their bits, and
ERRREC, THERM, PWR, SNDATA and SNSEQ stay; that a system core has an FRM and a VFLAGS of its own is the model's choice, as are the numbers
0x030 and 0x031 by which it reads, and does not write, the TB of the two slots of its partition (R24; log 71). -/
def Obligations.CsrReadsBack : Prop :=
  (∀ (s : State) (n m : Nat) (v : Word), n < 2048 → m < 2048 → csrDefined false n = true →
    let t := s.setCur (csrWrite s.cur n v)
    csrRead t s.curCore (s.slotOf s.curCore) m
      = if m = n ∧ csrMask n ≠ 0 then v &&& csrMask n else csrRead s s.curCore (s.slotOf s.curCore) m)
  ∧ (∀ (s : State) (v : Word), s.sys.sevt < 2 ^ 10 →
    let t (n : Nat) := s.setSys (sysCsrWrite s.sys n v.toNat)
    sysCsrRead (t 0x100) 0x100 = sysCsrRead s 0x100 &&& ~~~v
      ∧ sysCsrRead (t 0x101) 0x101 = v &&& 0x3FF ∧ sysCsrRead (t 0x102) 0x102 = v &&& 0xFFFF
      ∧ sysCsrRead (t 0x103) 0x103 = v &&& 0xFFFF ∧ sysCsrRead (t 0x120) 0x120 = v &&& 0x1FF
      ∧ sysCsrRead (t 0x128) 0x128 = v &&& 0xFFFFF
      ∧ sysCsrRead (t 0x40) 0x40 = v &&& 0x7 ∧ sysCsrRead (t 0x42) 0x42 = v &&& 0x3F
      ∧ (∀ n ∈ [0x30, 0x31, 0x110, 0x111, 0x121, 0x122, 0x123, 0x124, 0x129, 0x12A], t n = s)
      ∧ ∀ slot, slot < 2 → sysCsrRead s (0x30 + slot) = BitVec.ofNat 64 (s.dom (s.partOfDie (s.curSys / 2)) slot).tb)


/-- R388, R391: CTXRD and CTXWR of an item of the class and range of the index; an entry of a queue is read at its position, a written entry
reads back, a position at or beyond the count is none, and CSRs are items. Which loop record is number 0 is the model's choice (log 14). -/
def Obligations.ContextItems : Prop :=
  (∀ i s x, itemActs i = some x → Completes i s x)
  ∧ (∀ (s : State) (core slot q p : Nat) (v : Word), q < 64 → p < 4 →
    let c := s.ctxOf core slot
    (∀ w k, (qEntries c q)[p]? = some (.val w k) → ctxItem s core slot (q + p * 64) = some (w, s))
      ∧ ((qEntries c q).length ≤ p → ctxItem s core slot (q + p * 64) = none)
      ∧ (q ≠ 0 → p ≤ (qEntries c q).length → ∃ t, ctxPut s core slot (q + p * 64) v = .ok t
          ∧ ctxItem t core slot (q + p * 64) = some (v, t))
      ∧ (q ≠ 0 → (qEntries c q).length < p → ctxPut s core slot (q + p * 64) v = .error (ctxIllegal 0x03 (q + p * 64)))
      ∧ (∀ n, n < 2048 → ctxItem s core slot (7 * 2 ^ 16 + n) = some (csrRead s core slot n, s)))


/-- R286, R287, R290, R291, R302, R307, R308, R318, R320–R324: every paged instruction of a compute core enters its request in the context's
sequence, a load with its result entry on its way, the others in the lot of their phase; AUSTAT reads the access unit; RSTQ sends its
word to a core of the task at once, and to another package with its phase's lot; a scratchpad atomic pops its operands and reserves its
cycles. What they leave open of stamps and places is the model's choice (log 34), as is that what
departed at a HALT before a cancel is not sent again (log 99), as are that a line fill's tag is LAND.TAG of its issue (log 86), that a
local RSTQ arrives on the least cycle that R291 allows (log 33) and that REMOTE with the issuing package's own number names no target (log 88). -/
def Obligations.MemoryInstructions : Prop :=
  ∀ i s x, (pagedActs i = some x ∨ rstqActs i = some x ∨ atomicActs i = some x) → Completes i s x

/-- R309, R311: a load all of whose bytes own earlier stores that have not performed give, of them the youngest that covers the byte,
performs by them and lands 23 cycles after its issue, and a touch of such bytes is done at once; one that they give in part waits; any
other departs at once, but after a request that halts the unit. Which store gives a byte is stated too: the last of the context's
sequence before the load that covers it. That a touch is forwarded as a load is, and is then done, is the model's choice (log 34). -/
def Obligations.LoadForwarding : Prop :=
  (∀ (c : Ctx) (n a : Nat),
    let gives (w : AuReq) : Prop := w.op = .store ∧ w.place ∈ [AuPlace.lot, .held, .departed, .queued, .untaken] ∧ w.va ≤ a
      ∧ a < w.va + w.size ∧ w.seqNo < n
    (∀ l w r, c.aus = l ++ w :: r → gives w → (∀ x ∈ r, ¬ gives x) →
        forwardByte c n a = some (w.b0.toNat / 2 ^ (8 * (a - w.va)) % 256))
      ∧ ((∀ x ∈ c.aus, ¬ gives x) → forwardByte c n a = none))
  ∧ ∀ (c : Ctx) (r : AuReq), r.place = .lot →
    let fs := (List.range r.size).map (fun k => forwardByte c r.seqNo (r.va + k))
    ((∀ x ∈ fs, x.isSome = true) → r.op ≠ .touch → (loadDepart c r).place = .performed ∧ (loadDepart c r).land = r.issue + 23
        ∧ (loadDepart c r).value = ofByteNats (fs.map (·.getD 0)))
      ∧ ((∀ x ∈ fs, x.isSome = true) → r.op = .touch → (loadDepart c r).place = .landed)
      ∧ ((∃ x ∈ fs, x.isSome = true) → (∃ x ∈ fs, x = none) → loadDepart c r = { r with place := .waiting })
      ∧ (fs ≠ [] → (∀ x ∈ fs, x = none) → loadDepart c r = { r with place := if c.auHalt.any (· < r.seqNo) then .waiting else .departed })

namespace Sys2Proof.Claims
open Sys2Proof Sys2Proof.Machine

/-- A store or a MIGR: the source field of its address, the address and its size (R318, R321, R323). -/
def egressOf : Instr → Option (Src × (Word → Nat) × Nat)
  | .stsD f => some ((f.a.toNat, f.ka), fun x => pagedAddr x f.disp 8, 8)
  | .stsW f => some ((f.a.toNat, f.ka), fun x => pagedAddr x f.disp 4, 4)
  | .stsH f => some ((f.a.toNat, f.ka), fun x => pagedAddr x f.disp 2, 2)
  | .stsB f => some ((f.a.toNat, f.ka), fun x => pagedAddr x f.disp 1, 1)
  | .stq f => some ((f.a.toNat, f.ka), BitVec.toNat, 8)
  | .migr f => some ((f.a.toNat, f.ka), BitVec.toNat, 65536)
  | _ => none

/-- A paged atomic (R290). -/
def pagedAtomicOf : Instr → Option FDAB
  | .pamoadd f | .pamocas f => some f
  | _ => none

/-- ILLEGAL of class `c` with a reason and an operand (R301, R326). -/
def illegalWith (s : State) (c reason : Nat) (x : Word) : Host.Outcome State Fault Refusal :=
  .next (takeTrap s 0x01 (c + reason * 2 ^ 8 + (x.toNat % 2 ^ 32) * 2 ^ 32))

end Sys2Proof.Claims

/-- R301, R302, R326: an address with a bit of [63:57] set takes ILLEGAL class 0x12 with reason 0x01, a misaligned one, of a load, a
store, a line fill or a MIGR, with reason 0x02, LDQ's forms 2–7 with reason 0x03, a MIGR deadline of more than 32 bits with reason 0x04,
and a store, a MIGR, a paged atomic or an RSTQ to another package into a full lot with reason 0x05, a store, a MIGR or a paged atomic also
where its address cannot be read yet; a paged atomic whose address has a bit of [63:57] or [2:0] set takes class 0x11 with reason 0x04.
That the address is judged before any other operand is needed is the model's choice (log 16), as are the full-lot trap of a paged atomic, which R307
does not name among the egress, and that EINFO then shows operand A (log 34); of an operand that cannot be read EINFO shows a word that nothing fixes
(log 62). -/
def Obligations.PagedIllegal : Prop :=
  (∀ (i : Instr) (f : FLs) (size : Nat) (s : State),
    (i, size) ∈ [(Instr.ldsD f, 8), (.ldsWu f, 4), (.ldsWs f, 4), (.ldsHu f, 2), (.ldsBu f, 1), (.stsD f, 8), (.stsW f, 4), (.stsH f, 2),
      (.stsB f, 1)] →
    QueueMode s → Unguarded s → SrcReady s f.a.toNat →
    let x := srcValue s f.a.toNat
    (pagedAddr x f.disp size ≥ 2 ^ 57 → exec i s = .next (takeTrap s 0x01 (0x0112 + (x.toNat % 2 ^ 32) * 2 ^ 32)))
      ∧ (pagedAddr x f.disp size < 2 ^ 57 → pagedAddr x f.disp size % size ≠ 0 →
          exec i s = .next (takeTrap s 0x01 (0x0212 + (x.toNat % 2 ^ 32) * 2 ^ 32))))
  ∧ (∀ (i : Instr) (s : State) (a : Src) (va : Word → Nat) (size : Nat), egressOf i = some (a, va, size) → QueueMode s → Unguarded s →
    let x := srcValue s a.1
    (SrcReady s a.1 → va x ≥ 2 ^ 57 → exec i s = illegalWith s 0x12 0x01 x)
      ∧ (SrcReady s a.1 → va x < 2 ^ 57 → va x % size ≠ 0 → exec i s = illegalWith s 0x12 0x02 x)
      ∧ (lotCount s ≥ 256 → (∀ f, i = .migr f → (srcValue s f.b.toNat).toNat < 2 ^ 32) →
          (SrcReady s a.1 → vaOk (va x) size → exec i s = illegalWith s 0x12 0x05 x)
            ∧ (¬ SrcReady s a.1 → ∃ w, exec i s = illegalWith s 0x12 0x05 w)))
  ∧ (∀ (f : FAB) (s : State), QueueMode s → Unguarded s → SrcReady s f.a.toNat → SrcReady s f.b.toNat →
      vaOk (srcValue s f.a.toNat).toNat 65536 → (srcValue s f.b.toNat).toNat ≥ 2 ^ 32 →
      exec (.migr f) s = illegalWith s 0x12 0x04 (srcValue s f.b.toNat))
  ∧ (∀ (i : Instr) (f : FDA) (s : State), i = .ldq f ∨ i = .ldqLineFill f → QueueMode s → Unguarded s → SrcReady s f.a.toNat →
    let x := srcValue s f.a.toNat
    (x.toNat ≥ 2 ^ 57 → exec i s = illegalWith s 0x12 0x01 x)
      ∧ (x.toNat < 2 ^ 57 → x.toNat % 8 = 1 → bits x.toNat 6 3 ≠ 0 → exec i s = illegalWith s 0x12 0x02 x)
      ∧ (x.toNat < 2 ^ 57 → x.toNat % 8 ≥ 2 → exec i s = illegalWith s 0x12 0x03 x))
  ∧ (∀ (i : Instr) (f : FDAB) (s : State), pagedAtomicOf i = some f → QueueMode s → Unguarded s →
    let x := srcValue s f.a.toNat
    (SrcReady s f.a.toNat → ¬ vaOk x.toNat 8 → exec i s = illegalWith s 0x11 0x04 x)
      ∧ (lotCount s ≥ 256 → (SrcReady s f.a.toNat → vaOk x.toNat 8 → exec i s = illegalWith s 0x12 0x05 x)
          ∧ (¬ SrcReady s f.a.toNat → ∃ w, exec i s = illegalWith s 0x12 0x05 w)))
  ∧ (∀ (f : FAB) (s : State), QueueMode s → Unguarded s → SrcReady s f.a.toNat → lotCount s ≥ 256 →
      let x := srcValue s f.a.toNat
      rstqOk s x.toNat = true → x.getLsbD 36 = true → exec (.rstq f) s = illegalWith s 0x12 0x05 x)


/-- R288: what an atomic writes on its cycle t + 3 from the word that it read: the sum, the larger as signed, the operand, or the second
operand where the word equals the first; the eight bytes at its address, in the bank that its permutation code names (R56), change and
no other. -/
def Obligations.AtomicWritesBack : Prop :=
  ∀ (s t : State) (x : Atomic) (v : Word), x.x = some v → x.op < 4 → x.a % 8 = 0 → atomicWrite s x = .ok t →
    let w := match x.op with
      | 0 => v + x.b0
      | 1 => if v.toInt < x.b0.toInt then x.b0 else v
      | 2 => x.b0
      | _ => if v = x.b0 then x.b1 else v
    t.mem = s.mem.writeN (spAddr s.curCore (permAddr x.perm x.a)) (bytesOf 8 w.toNat)

/-- R184, R186, R203–R205: the record instructions; Combine of two record values takes the larger amax and adds the counters, saturating. -/
def Obligations.RecordInstructions : Prop :=
  (∀ i s x, recordActs i = some x → Completes i s x)
  ∧ (∀ (x y : List Nat), x.length = 36 → y.length = 36 → (∀ v ∈ x, v < 2 ^ 64) → (∀ v ∈ y, v < 2 ^ 64) →
    let z := combineRec x y
    z.length = 36 ∧ z.getD 0 0 % 2 ^ 32 = max (x.getD 0 0 % 2 ^ 32) (y.getD 0 0 % 2 ^ 32)
      ∧ (∀ k, k = 1 ∨ (4 ≤ k ∧ k < 36) → z.getD k 0 % 2 ^ 32 = min (x.getD k 0 % 2 ^ 32 + y.getD k 0 % 2 ^ 32) (2 ^ 32 - 1)
          ∧ z.getD k 0 / 2 ^ 32 = min (x.getD k 0 / 2 ^ 32 + y.getD k 0 / 2 ^ 32) (2 ^ 32 - 1))
      ∧ z.getD 2 0 % 2 ^ 32 = min (x.getD 2 0 % 2 ^ 32 + y.getD 2 0 % 2 ^ 32) (2 ^ 32 - 1))
/-- R57, R70, R122, R287, R378: granules or tiles pass the footprint check where each lies in the window and, but in phase 0, in a selected
entry of the engine and direction; else FOOTPRINT names the lowest that fails, EINFO bit 19 where the window fails. A core touches a
bank once a cycle: banks that no atomic holds and that are not touched yet are taken; a bank touched already takes AMOSLOT 0x02. -/
def Obligations.AccessChecks : Prop :=
  (∀ (c : Ctx) (eng : Nat) (wr : Bool) (space : Nat) (gs : List Nat),
    let covered (g : Nat) : Prop := c.footSel = none
      ∨ ∃ (m : Word) (n : Nat), c.footSel = some m ∧ n < 64 ∧ m.getLsbD n = true ∧ footCovers c n eng wr space g = true
    let passes (g : Nat) : Prop := inWindow c space g = true ∧ covered g
    ((∀ g ∈ gs, passes g) → footCheck c eng wr space gs = .ok ())
      ∧ ∀ g ∈ gs, ¬ passes g → (∀ k ∈ gs, k < g → passes k) → footCheck c eng wr space gs = .error
          (.trap 0x09 (eng + b2n wr * 8 + space * 16 + g * 2 ^ 8 + (if inWindow c space g then 0 else 2 ^ 19))))
  ∧ (∀ (s : State) (bs : List Nat), (∀ b ∈ bs, bankHolder s.cur b s.cur.now none = none) →
    let k := s.core s.curCore
    let used := if k.bankCycle = s.cur.now then k.banks else []
    (bs.Nodup → (∀ b ∈ bs, b ∉ used) →
      useBanks s bs = .ok (s.setCore s.curCore { k with banks := used ++ bs, bankCycle := s.cur.now }))
    ∧ (∀ b, bs = [b] → b ∈ used → useBanks s bs = .error (.trap 0x0F (bankInfo b))))

namespace Sys2Proof.Claims
open Sys2Proof Sys2Proof.Machine

/-! ## The vector unit -/

/-- A vector instruction on sources that can be read: its perform offset, destination and sources, and its result word with its flags
(R133–R138). -/
def vecAct (off d : Nat) (srcs : List Nat) (op : Ctx → List VSrc → LaneWord × Flags) : Doing :=
  { may := QueueMode
    ok := fun t _ => (∀ f ∈ srcs, srcStreamOk t.cur f = true) ∧ dstStreamOk t.cur d = true ∧ ∃ xs, gather (srcs.map (vread t)) = .ok xs
    eff := fun t _ _ => match gather (srcs.map (vread t)) with
      | .ok xs =>
        let u := vpop t xs
        u.setCur { u.cur with flight := u.cur.flight ++
          [⟨t.cur.now, t.cur.pc, t.cur.now + off - 1, vdst d (op t.cur xs).1, (op t.cur xs).2, 0, none, true⟩] }
      | .error _ => t }

/-- An elementwise instruction of two sources and one of one source. -/
def elem2 (f : FV3) (off : Nat) (op : Ctx → Nat → Nat → Nat → Nat × Flags) : Option Doing :=
  some (vecAct off f.vd.toNat [f.va.toNat, f.vb.toNat] (fun c xs => map2 (fmt3 f.fmt.toNat) (op c (fmt3 f.fmt.toNat)) xs))
def elem1 (f : FV2) (off : Nat) (op : Ctx → Nat → Nat → Nat × Flags) : Option Doing :=
  some (vecAct off f.vd.toNat [f.va.toNat] (fun c xs => map1 (fmt3 f.fmt.toNat) (op c (fmt3 f.fmt.toNat)) xs))

/-- A bitwise operation of two elements of `w` bits. -/
def elemBits (f : FV3) (op : Nat → Nat → Nat → Nat) : Option Doing :=
  elem2 f 2 (fun _ m a b => (op (fmtWidth m) a b % 2 ^ fmtWidth m, 0))

/-- A compare of two elements: all ones where it holds; `nan` is what a NaN operand gives (R143). -/
def elemCmp (f : FV3) (rel : Val → Val → Bool) (nan : Bool) (fl : Flags) : Option Doing :=
  elem2 f 2 (fun _ m a b =>
    let x := decodeVal m a
    let y := decodeVal m b
    if x.isNan || y.isNan then (if nan then 2 ^ fmtWidth m - 1 else 0, fl) else (if rel x y then 2 ^ fmtWidth m - 1 else 0, 0))

/-- The elementwise instructions of majors 0x20–0x23 (R135, R140–R143). -/
def elementActs : Instr → Option Doing
  | .vadd f => elem2 f (if intClass f.fmt.toNat then 2 else 3) (fun c m a b => elemAdd c m false a b)
  | .vsub f => elem2 f (if intClass f.fmt.toNat then 2 else 3) (fun c m a b => elemAdd c m true a b)
  | .vdiff f => elem2 f (if intClass f.fmt.toNat then 2 else 3) elemDiff
  | .vmul f => elem2 f 4 elemMul
  | .vfma f => some (vecAct 4 f.vd.toNat [f.va.toNat, f.vb.toNat, f.vd.toNat]
      (fun c xs => map3 (fmt3 f.fmt.toNat) (elemFma c (fmt3 f.fmt.toNat) false) xs))
  | .vfms f => some (vecAct 4 f.vd.toNat [f.va.toNat, f.vb.toNat, f.vd.toNat]
      (fun c xs => map3 (fmt3 f.fmt.toNat) (elemFma c (fmt3 f.fmt.toNat) true) xs))
  | .vmin f => elem2 f 2 (fun _ m a b => elemMin false m a b)
  | .vmax f => elem2 f 2 (fun _ m a b => elemMin true m a b)
  | .vabs f => elem1 f 2 elemAbs
  | .vneg f => elem1 f 2 elemNeg
  | .vadds f => elem2 f 2 (fun _ m a b => ifit m (decodeInt m a + decodeInt m b) true)
  | .vsubs f => elem2 f 2 (fun _ m a b => ifit m (decodeInt m a - decodeInt m b) true)
  | .vmulhi f => elem2 f 4 (fun _ m a b => elemMulhi m a b)
  | .vrcp f => elem1 f 8 (fun c m a => rcpTo m (decodeVal m a) (vrmMode c) (vrmSat c))
  | .vrsq f => elem1 f 8 (fun c m a => rsqTo m (decodeVal m a) (vrmMode c) (vrmSat c))
  | .vsqrt f => elem1 f 8 (fun c m a => sqrtTo m (decodeVal m a) (vrmMode c) (vrmSat c))
  | .vexp2 f => elem1 f 8 (fun c m a => exp2To m (decodeVal m a) (vrmMode c) (vrmSat c))
  | .vlog2 f => elem1 f 8 (fun c m a => log2To m (decodeVal m a) (vrmMode c) (vrmSat c))
  | .vfloor f => elem1 f 3 (fun c m a => elemRint c m 2 a)
  | .vround f => elem1 f 3 (fun c m a => elemRint c m (vrmMode c) a)
  | .vscale f => elem2 f 3 elemScale
  | .vand f => elemBits f (fun _ a b => a &&& b)
  | .vor f => elemBits f (fun _ a b => a ||| b)
  | .vxor f => elemBits f (fun _ a b => a ^^^ b)
  | .vandn f => elemBits f (fun w a b => a &&& (2 ^ w - 1 - b))
  | .vshl f => elemBits f (fun w a b => a * 2 ^ (b % w))
  | .vshr f => elemBits f (fun w a b => a / 2 ^ (b % w))
  | .vsra f => elemBits f (fun w a b => ofInt w (toSigned w a / ((2 ^ (b % w) : Nat) : Int)))
  | .vpopc f => elem1 f 2 (fun _ m a => (popN (fmtWidth m) a, 0))
  | .vceq f => elemCmp f (fun x y => x.eqv y) false 0
  | .vcne f => elemCmp f (fun x y => !x.eqv y) true 0
  | .vclt f => elemCmp f (fun x y => x.lt y) false fNV
  | .vcle f => elemCmp f (fun x y => x.lt y || x.eqv y) false fNV
  | .vcun f => elemCmp f (fun _ _ => false) true 0
  | .vsel f => some (vecAct 2 f.vd.toNat [f.va.toNat, f.vb.toNat, f.vd.toNat] (fun _ xs =>
      ((srcWord xs 2 &&& srcWord xs 0) ||| (~~~srcWord xs 2 &&& srcWord xs 1), 0)))
  | _ => none

/-- A permute: element i of the result, from the elements of the sources (R148, R150). -/
def permute (d : Nat) (srcs : List Nat) (fmt : Nat) (pick : List Nat → List Nat → Nat → Nat → Nat) : Option Doing :=
  some (vecAct 2 d srcs (fun _ xs =>
    let es := elemsOf (fmt3 fmt) (srcWord xs 0)
    let fs := elemsOf (fmt3 fmt) (srcWord xs 1)
    (wordOf (fmt3 fmt) ((List.range es.length).map (pick es fs es.length)), 0)))

/-- The largest or smallest of the elements under an order (R145). -/
def extreme (f : FV2) (larger : Bool) : Option Doing :=
  some (vecAct 6 f.vd.toNat [f.va.toNat] (fun _ xs =>
    match elemsOf (fmt3 f.fmt.toNat) (srcWord xs 0) with
    | [] => (0, 0)
    | e :: rest => (wordOf (fmt3 f.fmt.toNat) [rest.foldl (fun a b => (elemMin larger (fmt3 f.fmt.toNat) a b).1) e], 0)))

/-- Reductions, conversion, permutes, unpacking and fills: majors 0x24–0x27 (R144–R153). -/
def wordActs : Instr → Option Doing
  | .vsum f => some (vecAct 6 f.vd.toNat [f.va.toNat] (fun c xs =>
      let m := fmt3 f.fmt.toNat
      packRes 0x00 [groupSum c m false (Nat.log2 (elemsPerWord (fmtWidth m))) ((elemsOf m (srcWord xs 0)).map (fun e => (e, e)))]))
  | .vsumsq f => some (vecAct 6 f.vd.toNat [f.va.toNat] (fun c xs =>
      let m := fmt3 f.fmt.toNat
      packRes 0x00 [groupSum c m true (Nat.log2 (elemsPerWord (fmtWidth m))) ((elemsOf m (srcWord xs 0)).map (fun e => (e, e)))]))
  | .vdot f => some (vecAct 4 f.vd.toNat [f.va.toNat, f.vb.toNat] (fun c xs =>
      let m := fmt3 f.fmt.toNat
      let n := elemsPerWord (fmtWidth m) / 16
      packRes 0x00 ((chunks n 16 (List.zip (elemsOf m (srcWord xs 0)) (elemsOf m (srcWord xs 1)))).map (groupSum c m true (Nat.log2 n)))))
  | .vmaxr f => extreme f true
  | .vminr f => extreme f false
  | .vamaxr f => some (vecAct 6 f.vd.toNat [f.va.toNat] (fun _ xs =>
      let m := fmt3 f.fmt.toNat
      let es := elemsOf m (srcWord xs 0)
      if isIntFmt m then (wordOf m [(es.map (fun e => (decodeInt m e).natAbs)).foldl max 0], 0)
      else if es.any (fun e => (decodeVal m e).isNan) then (wordOf m [canon m], 0)
      else (wordOf m [(es.map (fun e => e % 2 ^ (fmtWidth m - 1))).foldl max 0], 0)))
  | .vcvt f => some (vecAct 3 f.vd.toNat [f.va.toNat] (fun c xs =>
      match xs with
      | x :: _ =>
        let es := (elemsOf (fmt3 f.fmt.toNat) x.word).take (elemsPerWord (fmtWidth f.dst.toNat))
        packRes f.dst.toNat ((es.zipIdx).map (fun p =>
          conv f.dst.toNat (fmt3 f.fmt.toNat) p.1 (vrmCvt c) (vrmSat c)
            (if vrmCvt c = 4 then drawR (c.qseed.getD 0 0).toNat (cvtPlace c x p.2).1 (cvtPlace c x p.2).2 else 0)))
      | [] => (0, 0)))
  | .vbcast f => permute f.vd.toNat [f.va.toNat] f.fmt.toNat (fun es _ _ _ => es.getD f.n.toNat 0)
  | .vzip f => permute f.vd.toNat [f.va.toNat, f.vb.toNat] f.fmt.toNat
      (fun es fs _ i => if i % 2 = 0 then es.getD (i / 2) 0 else fs.getD (i / 2) 0)
  | .vunzip f => permute f.vd.toNat [f.va.toNat, f.vb.toNat] f.fmt.toNat
      (fun es fs n i => if i < n / 2 then es.getD (2 * i) 0 else fs.getD (2 * (i - n / 2)) 0)
  | .vrev f => permute f.vd.toNat [f.va.toNat] f.fmt.toNat (fun es _ n i => es.getD (n - 1 - i) 0)
  | .vshufl f => permute f.vd.toNat [f.va.toNat, f.vb.toNat] f.fmt.toNat (fun es fs n i => es.getD (fs.getD i 0 % n) 0)
  | .vrotl f => permute f.vd.toNat [f.va.toNat] f.fmt.toNat (fun es _ n i => es.getD ((i + f.n.toNat) % n) 0)
  | .vunpk4 f => some (vecAct 2 f.vd.toNat [f.va.toNat] (fun _ xs =>
      let ns := ((fieldsOf 4 256 (srcWord xs 0).toNat).drop (128 * f.h.toNat)).take 128
      (BitVec.ofNat 1024 (ofFields 8 (ns.map (fun n => ofInt 8 (toSigned 4 n)))), 0)))
  | .vunpk3 f =>
      let trits (x : VSrc) : List (Option Nat) := (fieldsOf 8 128 x.word.toNat).map (tritOf f.p.toNat)
      some {
        may := QueueMode
        ok := fun t _ => srcStreamOk t.cur f.va.toNat = true ∧ dstStreamOk t.cur f.vd.toNat = true
          ∧ ∃ x, vread t f.va.toNat = .ok x ∧ (t.cur.mode.getLsbD 1 = true → none ∉ trits x)
        eff := fun t _ _ => match vread t f.va.toNat with
          | .ok x =>
            let u := vpop t [x]
            let n := ((trits x).filter Option.isNone).length
            u.setCur { u.cur with flight := u.cur.flight ++
              [⟨t.cur.now, t.cur.pc, t.cur.now + 1, vdst f.vd.toNat (BitVec.ofNat 1024 (ofFields 8 ((trits x).map (·.getD 0)))),
                if n = 0 then 0 else fT3, n, none, true⟩] }
          | .error _ => t }
  | .viota f => some (vecAct 2 f.vd.toNat [] (fun c _ =>
      let m := fmt3 f.fmt.toNat
      packRes m ((List.range (elemsPerWord (fmtWidth m))).map (fun (i : Nat) =>
        if isIntFmt m then ifit m (i : Int) (vrmSat c) else roundTo m (valOfInt i) (vrmMode c) (vrmSat c) 0))))
  | .vzero f => some (vecAct 2 f.vd.toNat [] (fun _ _ => (0, 0)))
  | .vtoq f => some {
      may := QueueMode
      ok := fun t _ => ∃ x, vread t f.w.toNat = .ok x
      eff := fun t _ _ => match vread t f.w.toNat with
        | .ok x =>
          let m := fmt3 f.fmt.toNat
          let k := 8 * f.k3.toNat + f.k.toNat
          let u := vpop t [x]
          u.setCur { u.cur with flight := u.cur.flight ++ [onWay t 2 (.pushQ (32 + f.q.toNat)
            ((((elemsOf m x.word).drop (k * 2 ^ f.wd.toNat)).take (2 ^ f.wd.toNat)).map (fun v =>
              if isIntFmt m then BitVec.ofInt 64 (decodeInt m v) else BitVec.ofNat 64 v))) 0] }
        | .error _ => t }
  | .vfromq f => some {
      srcs := (List.range (2 ^ f.wd.toNat)).map (fun i => (32 + f.q.toNat + i, false))
      may := QueueMode
      eff := fun t u vs =>
        let m := fmt3 f.fmt.toNat
        let k := 8 * f.k3.toNat + f.k.toNat
        u.setCur { u.cur with flight := u.cur.flight ++ [⟨t.cur.now, t.cur.pc, t.cur.now + 1,
          vdst f.w.toNat (wordOf m (List.replicate (k * 2 ^ f.wd.toNat) 0 ++ vs.map (fun v => v.toNat % 2 ^ fmtWidth m))),
          0, 0, none, true⟩] } }
  | _ => none

/-! ## The matrix array -/

/-- Station `n` accepts a command (R35). -/
def StationFree (s : State) (n : Nat) : Prop := s.cur.freeAt.getD n 0 ≤ s.cur.now

/-- A command that its station accepts, busy for `n` cycles (R35). -/
def acceptCmd (u : State) (x : Cmd) (n : Nat) : State :=
  u.setCur { u.cur with cmds := u.cur.cmds ++ [x], freeAt := u.cur.freeAt.set x.station (u.cur.now + n) }

/-- The streams are open and read. -/
def ReadStreams (t : State) (ss : List Nat) : Prop := ∀ n ∈ ss, ∃ st, t.cur.strms.find n = some st ∧ st.wr = false

/-- The checks of a tile: footprint and window for reading and for writing, and its dirty phase where its first write comes on cycle `w`
(R247, R378, R394). -/
def TilesOk (t : State) (reads writes : List Nat) (w : Nat) : Prop := tileChecks t reads writes w = .ok ()

/-- MMA of a mode (R249–R256). -/
def mmaAct (f : FMma) (mode : Nat) : Doing :=
  let sa := f.sa.toNat % 16
  let sb := f.sb.toNat % 16
  { may := fun s => QueueMode s ∧ StationFree s 1
    ok := fun t _ => ReadStreams t (opStreams t.cur sa ++ opStreams t.cur sb)
      ∧ (∀ a b, t.cur.strms.find sa = some a → t.cur.strms.find sb = some b →
          let k := dimK t.cur
          let nc := arrayCycles mode a.entry.fmt k
          mmaFault t.cur mode k sa sb a.entry b.entry f.ta f.tb = none
            ∧ TilesOk t (if f.acc then [f.t.toNat] else []) [f.t.toNat]
                (t.cur.now + max (opLead nc a.entry.fmt k f.ta) (opLead nc b.entry.fmt k f.tb) + nc + 3))
      ∧ (f.acc = true → chainPoison t t.cur.now f.t.toNat (List.range 128) = .ok ())
    eff := fun t u _ => match t.cur.strms.find sa, t.cur.strms.find sb with
      | some a, some b =>
        let k := dimK t.cur
        let nc := arrayCycles mode a.entry.fmt k
        let d := max (opLead nc a.entry.fmt k f.ta) (opLead nc b.entry.fmt k f.tb)
        acceptCmd u { Cmd.fresh t.cur 1 .mma with
          tile := f.t.toNat, sa := sa, sb := sb, entA := a.entry, entB := b.entry, mode := mode, acc := f.acc, ta := f.ta, tb := f.tb
          dimK := k, lead := d, cycles := nc, last := t.cur.now + d + nc + 3
          prior := if f.acc then chainTile t t.cur.now f.t.toNat else [] } (d + nc)
      | _, _ => t }

/-- ACCLD and ACCADD (R259). -/
def accAct (f : FTS) (kind : CmdKind) : Doing :=
  let sa := f.s.toNat % 16
  let old := kind == .accadd
  { may := fun s => QueueMode s ∧ StationFree s 1
    ok := fun t _ => (∃ a, t.cur.strms.find sa = some a ∧ a.wr = false ∧ (a.entry.fmt = 0x00 ∨ a.entry.fmt = 0x0A) ∧ a.entry.space = 0)
      ∧ TilesOk t (if old then [f.t.toNat] else []) [f.t.toNat] (t.cur.now + 2 * dimM t.cur)
      ∧ (old = true → chainPoison t t.cur.now f.t.toNat (List.range (2 * dimM t.cur)) = .ok ())
    eff := fun t u _ => match t.cur.strms.find sa with
      | some a => acceptCmd u { Cmd.fresh t.cur 1 kind with
          tile := f.t.toNat, sa := sa, entA := a.entry, dimM := dimM t.cur, last := t.cur.now + 2 * dimM t.cur
          prior := if old then (chainTile t t.cur.now f.t.toNat).take (64 * dimM t.cur) else [] } (2 * dimM t.cur)
      | none => t }

/-- The matrix array's commands: MMA, ACCZ, ACCLD, ACCADD and ACCMV (R249–R260). -/
def matrixActs : Instr → Option Doing
  | .mmaFlt f => some (mmaAct f 0)
  | .mmaW4 f => some (mmaAct f 1)
  | .mmaL6 f => some (mmaAct f 2)
  | .mmaT3 f => some (mmaAct f 3)
  | .mmaI8 f => some (mmaAct f 4)
  | .mmaF32 f => some (mmaAct f 5)
  | .accld f => some (accAct f .accld)
  | .accadd f => some (accAct f .accadd)
  | .accz f => some {
      may := fun s => QueueMode s ∧ StationFree s 1
      ok := fun t _ => TilesOk t [] [f.t.toNat] t.cur.now
      eff := fun t u _ =>
        let v := writeRows (markDirty u f.t.toNat) u.curCore f.t.toNat 0 (List.replicate 4096 0)
        let keys := (List.range 128).map (fun r => rowKey 1 (16384 * f.t.toNat + 128 * r))
        let w := markRows v keys keys none
        acceptCmd (w.setCur (supersede w.cur w.cur.now f.t.toNat 64))
          { Cmd.fresh t.cur 1 .accz with tile := f.t.toNat, wrote := true } 1 }
  | .accmv f =>
      let sd := f.s.toNat % 16
      some {
        may := fun s => QueueMode s ∧ StationFree s 1
        ok := fun t _ => (∃ st, t.cur.strms.find sd = some st ∧ st.wr = true ∧ accmvDst st.entry.fmt = true ∧ st.entry.space = 0)
          ∧ footCheck t.cur 0 false 1 [f.t.toNat] = .ok () ∧ tilePoison t f.t.toNat (List.range (2 * dimM t.cur)) = .ok ()
        eff := fun t u _ => match t.cur.strms.find sd with
          | some st =>
            let dst := st.entry.fmt
            let m := dimM t.cur
            let ed := st.entry.perWord
            let wd := (64 * m + ed - 1) / ed
            let ys := ((readRows t t.curCore f.t.toNat 0 m).zipIdx).map (fun p =>
              conv dst (if isIntFmt dst then 0x0A else 0x00) p.1 f.rnd.toNat (vrmSat t.cur)
                (if f.rnd.toNat = 4 then drawR (t.cur.qseed.getD 0 0).toNat st.entry.tid (accmvIndex st t.cur.now p.2) else 0))
            let v := acceptCmd u { Cmd.fresh t.cur 1 .accmv with
              tile := f.t.toNat, sa := sd, entA := st.entry, dimM := m, dimN := wd, last := t.cur.now + 1 + wd } wd
            v.setCur { v.cur with flight := v.cur.flight ++ ((chunks ed wd ys).zipIdx).map (fun p =>
              ⟨t.cur.now, t.cur.pc, t.cur.now + 2 + p.2, .driveS sd 1 (wordOf dst (p.1.map (·.1))) [], orAll (p.1.map (·.2)), 0, none,
                true⟩) }
          | none => t }
  | _ => none

/-- Steps and step length of a factorisation of m rows and n columns (R267). -/
def factLength (kind : CmdKind) (m n : Nat) : Nat × Nat :=
  match kind with
  | .chol => (n, 16)
  | .lup => (min m n, 20)
  | .trsm => (n, 8)
  | .givqr => (givensSteps m n, 4)
  | .grot => (givensSteps m n, 2)
  | _ => (0, 1)

/-- A factorisation or solve on a tile, or on two different ones (R245, R265–R267). -/
def factAct (kind : CmdKind) (tile tile2 fl : Nat) : Doing :=
  let two := kind == .trsm || kind == .grot
  { may := fun s => QueueMode s ∧ StationFree s 1
    ok := fun t _ => (two = true → tile ≠ tile2)
      ∧ ((factLength kind (dimM t.cur) (dimN t.cur)).1 ≠ 0 → TilesOk t (if two then [tile, tile2] else [tile])
          [if two then tile2 else tile] (t.cur.now + (factLength kind (dimM t.cur) (dimN t.cur)).2))
    eff := fun t u _ =>
      let l := factLength kind (dimM t.cur) (dimN t.cur)
      let x := { Cmd.fresh t.cur 1 kind with
        tile := tile, tile2 := tile2, mode := fl, dimM := dimM t.cur, dimN := dimN t.cur, cycles := l.2, last := t.cur.now + l.2 * l.1 }
      let v := if kind == .lup then u.setCur { u.cur with piv := [], maxa := 0, maxu := 0, growth := 0 } else u
      acceptCmd v x (if l.1 = 0 then 1 else l.2 * l.1) }

def factorActs : Instr → Option Doing
  | .chol f => some (factAct .chol f.t.toNat f.t.toNat 0)
  | .lup f => some (factAct .lup f.t.toNat f.t.toNat 0)
  | .givqr f => some (factAct .givqr f.t.toNat f.t.toNat 0)
  | .grot f => some (factAct .grot f.t.toNat f.u.toNat 0)
  | .trsm f => some (factAct .trsm f.t.toNat f.u.toNat f.fl.toNat)
  | _ => none

/-- Tile, row and column of an index (R261). -/
def idxTile (x : Word) : Nat := x.toNat % 128
def idxRow (x : Word) : Nat := x.toNat / 128 % 64
def idxCol (x : Word) : Nat := x.toNat / 8192 % 64

/-- An element access may be made: its footprint and window cover it and, outside handler mode, its tile is not held and its bank is free (R246, R261,
R282, R378). -/
def Reaches (t : State) (wr : Bool) (x : Word) : Prop := ∃ w, accAccess t wr x = .ok w

/-- The state with the bank of an element access in use. -/
def reached (t : State) (wr : Bool) (x : Word) : State :=
  match accAccess t wr x with
  | .ok w => w
  | .error _ => t

/-- Element access, step counters, the pivot state, RESUME and EABORT (R261–R263, R275, R281). -/
def elementAccessActs : Instr → Option Doing
  | .accrd f => some {
      srcs := [(f.a.toNat, f.ka)]
      may := fun s => s.onSys = false
      ok := fun t vs => DstReady t f.d.toNat ∧ (arg1 vs).toNat < 2 ^ 19 ∧ Reaches t false (arg1 vs)
        ∧ rowPoison (t.core t.curCore) [rowKey 1 (16384 * idxTile (arg1 vs) + 256 * idxRow (arg1 vs) + 4 * idxCol (arg1 vs))] = none
      eff := fun t _ vs => result (popSrcs (reached t false (arg1 vs)) [(f.a.toNat, f.ka)]) 2 f.d.toNat
        (BitVec.ofNat 64 (readTileElem t t.curCore (idxTile (arg1 vs)) (idxRow (arg1 vs)) (idxCol (arg1 vs)))) }
  | .accwr f => some {
      srcs := [(f.a.toNat, f.ka), (f.b.toNat, f.kb)]
      may := fun s => s.onSys = false
      ok := fun t vs => (arg1 vs).toNat < 2 ^ 19 ∧ Reaches t true (arg1 vs)
      eff := fun t _ vs =>
        let u := popSrcs (reached t true (arg1 vs)) [(f.a.toNat, f.ka), (f.b.toNat, f.kb)]
        writeTileElem (markDirty u (idxTile (arg1 vs))) t.curCore (idxTile (arg1 vs)) (idxRow (arg1 vs)) (idxCol (arg1 vs))
          ((arg2 vs).toNat % 2 ^ 32) }
  | .estep f => some {
      srcs := [(f.a.toNat, f.ka)]
      ok := fun t vs => DstReady t f.d.toNat ∧ (arg1 vs).toNat ∈ [1, 3, 5, 7]
      eff := fun t u vs => result u 1 f.d.toNat
        (BitVec.ofNat 64 (match (arg1 vs).toNat with
          | 3 => 0
          | 7 => match t.cur.lastStep.find 15 with
            | some i => min (t.cur.lastStep.getD 7 0) (t.cur.now - 1 - i)
            | none => 0
          | n => stationStep t.cur n)) }
  | .pivrd f => some {
      srcs := [(f.a.toNat, f.ka)]
      ok := fun t vs => DstReady t f.d.toNat ∧ (arg1 vs).toNat < 64
      eff := fun t u vs => result u 1 f.d.toNat (BitVec.ofNat 64 (t.cur.piv.getD (arg1 vs).toNat (arg1 vs).toNat)) }
  | .gfrd f => some {
      srcs := [(f.a.toNat, f.ka)]
      ok := fun t vs => DstReady t f.d.toNat ∧ (arg1 vs).toNat < 3
      eff := fun t u vs => result u 1 f.d.toNat (BitVec.ofNat 64
        (if (arg1 vs).toNat = 0 then t.cur.growth.toNat else if (arg1 vs).toNat = 1 then t.cur.maxa else t.cur.maxu)) }
  | .resume f => some {
      srcs := [(f.a.toNat, f.ka)], may := HandlerMode
      ok := fun _ vs => (arg1 vs).toNat = 1
      eff := fun t _ _ => t.setCur { t.cur with cmds := t.cur.cmds.map (fun y => { y with latched := none }) } }
  | .eabort f => some {
      srcs := [(f.a.toNat, f.ka)], may := HandlerMode
      ok := fun _ vs => (arg1 vs).toNat = 1 ∨ (arg1 vs).toNat = 5
      eff := fun t _ vs => match currentCmd t.cur (arg1 vs).toNat with
        | none => t
        | some x => t.setCur { t.cur with
            cmds := t.cur.cmds.filter (fun y => !(y.issue == x.issue && y.station == (arg1 vs).toNat))
            flight := t.cur.flight.filter (fun r => r.issue != x.issue)
            lastStep := (t.cur.lastStep.set (arg1 vs).toNat (x.step t.cur.now)).set ((arg1 vs).toNat + 8) x.issue
            freeAt := t.cur.freeAt.set (arg1 vs).toNat t.cur.now } }
  | _ => none

/-! ## The quantisation engine -/

/-- The source and destination streams of a command of station 5 are open, one read and one write. -/
def QuantStreams (t : State) (sa sd : Nat) (a d : Strm) : Prop :=
  t.cur.strms.find sa = some a ∧ t.cur.strms.find sd = some d ∧ a.wr = false ∧ d.wr = true

/-- QUANT of a mode (R193–R200). -/
def quantAct (mode sd0 sa0 rnd seed : Nat) (rte : Bool) : Doing :=
  let sa := sa0 % 16
  let sd := sd0 % 16
  let tensor := mode == 0 || mode == 2
  { may := fun s => QueueMode s ∧ StationFree s 5
    ok := fun t _ => ∃ a d, QuantStreams t sa sd a d ∧ a.entry.fmt ≤ 2 ∧ quantDst mode d.entry.fmt = true ∧ blockSide d = .ok ()
      ∧ (tensor = true → OwnsRec t a.entry.rid)
    eff := fun t u _ => match t.cur.strms.find sa, t.cur.strms.find sd with
      | some a, some d =>
        let am := if tensor then
          ((recsAt (t.part t.curPart) (t.slotOf t.curCore) t.cur.now).view.getD (homeKey a.entry.rid) 0).toNat % 2 ^ 32 else 0
        let w := groupWords a.entry d.entry
        acceptCmd u { Cmd.fresh t.cur 5 .quant with
          sa := sa, sb := sd, entA := a.entry, entB := d.entry, mode := mode, dimM := w.1, dimN := w.2
          last := t.cur.now + w.1 + 3 + w.2 - 1, rnd := if rnd = 2 then 4 else rnd, seed := (t.cur.qseed.getD seed 0).toNat
          rescale := tensor && (rte || t.cur.mode.getLsbD 3), amax := am
          qt := if tensor then tensorScale (quantElem d.entry.fmt) am else 0x3F800000 } (max w.1 w.2)
      | _, _ => t }

/-- DEQUANT of a mode (R201). -/
def dequantAct (mode sd0 sa0 : Nat) : Doing :=
  let sa := sa0 % 16
  let sd := sd0 % 16
  { may := fun s => QueueMode s ∧ StationFree s 5
    ok := fun t _ => ∃ a d, QuantStreams t sa sd a d ∧ dequantSrc mode a.entry.fmt = true ∧ d.entry.fmt ≤ 2 ∧ blockSide a = .ok ()
    eff := fun t u _ => match t.cur.strms.find sa, t.cur.strms.find sd with
      | some a, some d =>
        let w := groupWords a.entry d.entry
        acceptCmd u { Cmd.fresh t.cur 5 .dequant with
          sa := sa, sb := sd, entA := a.entry, entB := d.entry, mode := mode, dimM := w.1, dimN := w.2
          last := t.cur.now + w.1 + 3 + w.2 - 1, qt := t.cur.dqscale.toNat % 2 ^ 32 } (max w.1 w.2)
      | _, _ => t }

def quantActs : Instr → Option Doing
  | .quantTensor f => some (quantAct 0 f.sd.toNat f.sa.toNat f.rnd.toNat f.seed.toNat f.rte)
  | .quantBlock f => some (quantAct 1 f.sd.toNat f.sa.toNat f.rnd.toNat f.seed.toNat false)
  | .quantBlockTensor f => some (quantAct 2 f.sd.toNat f.sa.toNat f.rnd.toNat f.seed.toNat f.rte)
  | .quantCast f => some (quantAct 3 f.sd.toNat f.sa.toNat f.rnd.toNat f.seed.toNat false)
  | .dequantTensor f => some (dequantAct 0 f.sd.toNat f.sa.toNat)
  | .dequantBlock f => some (dequantAct 1 f.sd.toNat f.sa.toNat)
  | .dequantBlockTensor f => some (dequantAct 2 f.sd.toNat f.sa.toNat)
  | .dequantCast f => some (dequantAct 3 f.sd.toNat f.sa.toNat)
  | _ => none

end Sys2Proof.Claims

/-- R133–R143: the elementwise vector instructions: their sources popped or tapped together, the operation on every element, its flags
with the result, and the perform offset of the class. That VDIFF of equal floating-point operands is the difference zero of the subtraction is
the model's choice (log 80). -/
def Obligations.VectorElementwise : Prop := ∀ i s x, elementActs i = some x → Completes i s x

/-- R144–R153: reductions, conversion, permutes, unpacking, queue moves and fills. -/
def Obligations.VectorWords : Prop := ∀ i s x, wordActs i = some x → Completes i s x

/-- R52, R133: a vector source that names a w queue with a valid head gives its word, an empty one takes QUNF with its number + 32, and
each w queue among the sources is popped once. -/
def Obligations.VectorQueueSources : Prop :=
  ∀ (s : State) (f : Nat), f < 16 →
    (∀ w es, wEntries s.cur f = ⟨w, none⟩ :: es → vread s f = .ok ⟨f, w, none⟩)
      ∧ (wEntries s.cur f = [] → vread s f = .error (.trap 0x03 (32 + f)))
      ∧ ∀ xs : List VSrc, (∀ x ∈ xs, x.field < 16 ∧ x.slot = none) →
          wEntries (vpop s xs).cur f = if f ∈ xs.map (·.field) then (wEntries s.cur f).tail else wEntries s.cur f

/-- R138, R140, R175: integer elements of w bits: VADD, VSUB and VMUL give the low w bits of the exact result with VRM.SAT = 0, and the
nearest of the two bounds with VRM.SAT = 1; no floating-point flag is raised where the exact result fits. -/
def Obligations.VectorIntegers : Prop :=
  ∀ (c : Ctx) (m a b : Nat), m ∈ [0x0A, 0x0B, 0x0C] → a < 2 ^ fmtWidth m → b < 2 ^ fmtWidth m →
    let x := decodeInt m a
    let y := decodeInt m b
    let w := fmtWidth m
    let fits (z : Int) : Prop := -(2 ^ (w - 1) : Int) ≤ z ∧ z < 2 ^ (w - 1)
    let out (z : Int) (r : Nat × Flags) : Prop :=
      (fits z → r = (ofInt w z, 0)) ∧ (¬ fits z → vrmSat c = false → r.1 = ofInt w z)
        ∧ (vrmSat c = true → z ≥ 2 ^ (w - 1) → r.1 = 2 ^ (w - 1) - 1) ∧ (vrmSat c = true → z < -(2 ^ (w - 1) : Int) → r.1 = 2 ^ (w - 1))
    out (x + y) (elemAdd c m false a b) ∧ out (x - y) (elemAdd c m true a b) ∧ out (x * y) (elemMul c m a b)

/-- R249–R260, R265–R267: the commands of the matrix array that it accepts, the factorisations and solves among them, with the cycles and steps
that they take. What they leave open of chains of tile writes is the model's choice (logs 33, 65). -/
def Obligations.MatrixCommands : Prop :=
  ∀ i s x, (matrixActs i = some x ∨ factorActs i = some x) → Completes i s x


/-- R35: a command issued while its station is busy takes ILLEGAL with EINFO = 0x0002 and the station, before any other check. -/
def Obligations.BusyStation : Prop :=
  ∀ (i : Instr) (s : State) (x : Doing),
    (matrixActs i = some x → s.cur.freeAt.getD 1 0 > s.cur.now → QueueMode s → Unguarded s →
      exec i s = .next (takeTrap s 0x01 (0x0002 + 1 * 2 ^ 8)))
    ∧ (factorActs i = some x → s.cur.freeAt.getD 1 0 > s.cur.now → QueueMode s → Unguarded s →
      exec i s = .next (takeTrap s 0x01 (0x0002 + 1 * 2 ^ 8)))
    ∧ (quantActs i = some x → s.cur.freeAt.getD 5 0 > s.cur.now → QueueMode s → Unguarded s →
      exec i s = .next (takeTrap s 0x01 (0x0002 + 5 * 2 ^ 8)))

/-- R36, R233, R261–R263, R275, R281: element access in handler mode, ESTEP (of station 7 the rows that the latest MCBASE has read), PIVRD, GFRD, RESUME and EABORT. Which
command EABORT ends where a later short one has retired is the model's choice (log 85). -/
def Obligations.ElementAccess : Prop := ∀ i s x, elementAccessActs i = some x → Completes i s x

/-- R193–R201: the commands of the quantisation engine that it accepts. -/
def Obligations.QuantCommands : Prop := ∀ i s x, quantActs i = some x → Completes i s x

namespace Sys2Proof.Claims
open Sys2Proof Sys2Proof.Machine

/-! ## Instructions to the memory command engines and the collective engine -/

/-- Engine `n` of the issuing core's die. -/
def engineOf (t : State) (n : Nat) : Nat := t.curCore / 32 * 128 + n % 128

/-- A message to an engine, which reaches it 24 cycles after its issue (R231). -/
def sendMsg (u : State) (n : Nat) (m : McMsg) : State :=
  u.setEngOf n { u.engOf n with inbox := (u.engOf n).inbox ++ [m] }

/-- A timed message of an engine instruction of two operands (R231–R236). -/
def engineAct (f : FP2) (fn : Nat) (ok : State → Nat → Nat → Prop) : Doing :=
  { srcs := [(f.a.toNat, false), (f.b.toNat, false)], may := QueueMode
    ok := fun t vs => ok t (arg1 vs).toNat (arg2 vs).toNat
    eff := fun t u vs => sendMsg u (engineOf t (arg1 vs).toNat)
      ⟨t.cur.now + 24, t.curCore, fn, (arg1 vs).toNat, (arg2 vs).toNat, []⟩ }

/-- MCSTART, MCBASE, MCBIND, MCSTOP and MCSTAT outside handler mode (R231–R236, R239). -/
def engineActs : Instr → Option Doing
  | .mcstart f => some (engineAct f 0 (fun t a b => a < 128 ∧ b < 2 ^ 32 ∧ t.cur.now + 24 ≤ t.cur.release + b))
  | .mcbase f =>
      let x := engineAct f 2 (fun _ a b => a < 128 ∧ b < 2 ^ 28 ∧ b % 128 = 0 ∧ bits b 22 0 + 128 * (bits b 27 23 + 1) ≤ 2 ^ 23)
      some { x with
        eff := fun t u vs =>
          let v := x.eff t u vs
          v.setCur { v.cur with lastStep := (v.cur.lastStep.set 7 (bits (arg2 vs).toNat 27 23 + 1)).set 15 v.cur.now } }
  | .mcbind f => some (engineAct f 3 (fun t a b => a < 2 ^ 10 ∧ a / 128 % 2 = 0 ∧ b < 2 ^ 32 ∧ b / 2 ^ 23 % 2 = 0 ∧ b % 64 = 0
      ∧ rankHere t (bits b 31 24) = true))
  | .mcstopStop f => some (engineAct f 1 (fun _ a b => a < 128 ∧ b = 0))
  | .mcstopSkip f => some (engineAct f 1 (fun _ a b => a < 128 ∧ b = 0))
  | .mcstat f => some (engineAct f 4 (fun _ a b => a < 2 ^ 12 ∧ bits a 9 7 = 0 ∧ bits a 11 10 < 3 ∧ b < 2 ^ 23 ∧ b % 64 = 0))
  | _ => none

/-- MCSTOP and MCSTAT in handler mode, on an engine that stands frozen (R223, R235, R236). -/
def frozenEngineActs : Instr → Option Doing
  | .mcstopStop f => some {
      srcs := [(f.a.toNat, false), (f.b.toNat, false)]
      may := HandlerMode
      ok := fun t vs => (arg1 vs).toNat < 128 ∧ (arg2 vs).toNat = 0 ∧ (t.engOf (engineOf t (arg1 vs).toNat)).frozen ≠ none
      eff := fun t _ vs =>
        let n := engineOf t (arg1 vs).toNat
        if (t.engOf n).st = .trapped then resolveEngine t n false else stopEngine t n }
  | .mcstopSkip f => some {
      srcs := [(f.a.toNat, false), (f.b.toNat, false)]
      may := HandlerMode
      ok := fun t vs => (arg1 vs).toNat < 128 ∧ (arg2 vs).toNat = 1 ∧ (t.engOf (engineOf t (arg1 vs).toNat)).frozen ≠ none
        ∧ (t.engOf (engineOf t (arg1 vs).toNat)).st = .trapped ∧ skippable (t.engOf (engineOf t (arg1 vs).toNat)).reason = true
      eff := fun t _ vs => resolveEngine t (engineOf t (arg1 vs).toNat) true }
  | .mcstat f => some {
      srcs := [(f.a.toNat, false)]
      may := HandlerMode
      ok := fun t vs => DstReady t f.b.toNat ∧ (arg1 vs).toNat < 2 ^ 15 ∧ bits (arg1 vs).toNat 9 7 = 0 ∧ bits (arg1 vs).toNat 11 10 < 3
        ∧ (t.engOf (engineOf t (arg1 vs).toNat)).frozen ≠ none
      eff := fun t _ vs =>
        let n := engineOf t (arg1 vs).toNat
        result t 1 f.b.toNat (BitVec.ofNat 64 (pageWord (t.engOf n) (engTb0 t n) (bits (arg1 vs).toNat 11 10) (bits (arg1 vs).toNat 14 12))) }
  | _ => none

/-- COLSTART, COLSTAT and COLABORT (R364–R368). -/
def collectiveActs : Instr → Option Doing
  | .colstart f => some {
      srcs := [(f.a.toNat, false), (f.b.toNat, false)], may := QueueMode
      ok := fun t vs => (arg1 vs).toNat < 2 ^ 23 ∧ (arg1 vs).toNat % 8 = 0 ∧ (arg2 vs).toNat < 2 ^ 10 ∧ lotCount t < 256
      eff := fun t u vs =>
        -- one that departed as the core halted, before the cancel, is not sent again (R339, R404)
        if t.cur.haltCols.1 = phaseNow t ∧ t.cur.seenCols < t.cur.haltCols.2 then u.setCur { u.cur with seenCols := u.cur.seenCols + 1 }
        else u.setCur { u.cur with cols := u.cur.cols ++
          [⟨phaseNow t, (arg1 vs).toNat, (arg2 vs).toNat % 512, (arg2 vs).getLsbD 9⟩] } }
  | .colstat f => some {
      srcs := [(f.a.toNat, false), (f.b.toNat, false)], may := QueueMode
      ok := fun t vs => groupOk t (arg1 vs).toNat = true ∧ (arg1 vs).toNat < 64 ∧ (arg2 vs).toNat < 2 ^ 23 ∧ (arg2 vs).toNat % 64 = 0
      eff := fun t u vs =>
        let g := (arg1 vs).toNat
        u.setCore t.curCore { u.core t.curCore with inbound := (u.core t.curCore).inbound ++
          [{ slot := t.slotOf t.curCore, due := t.cur.now, issue := some t.cur.now, src := none, srcOrder := 2 ^ 16 + t.curCore / 32
             addr := (arg2 vs).toNat, perm := 0
             data := (List.range 8).flatMap (fun w => bytesOf 8 (colPage t t.curCore g w (runWaits t t.curCore g)))
             tag := none, poison := none, run := none, bar := none, wall := t.wb + 48, gap := false, came := 0 }] } }
  | .colabort f => some {
      srcs := [(f.a.toNat, false)]
      may := fun s => s.onSys = false
      ok := fun t vs => groupOk t (arg1 vs).toNat = true ∧ (arg1 vs).toNat < 64
      eff := fun t u vs =>
        let e := u.cxe (t.curCore / 32)
        u.setCxe (t.curCore / 32) { e with stops := e.stops ++ [(arg1 vs).toNat] } }
  | _ => none

/-! ## System cores -/

/-- COLSTAT in handler mode: hB receives one word of the page (R366). -/
def frozenCollectiveActs : Instr → Option Doing
  | .colstat f => some {
      srcs := [(f.a.toNat, false)], may := HandlerMode
      ok := fun t vs => DstReady t f.b.toNat ∧ groupOk t (arg1 vs).toNat = true ∧ (arg1 vs).toNat < 2 ^ 11 ∧ bits (arg1 vs).toNat 7 6 = 0
      eff := fun t _ vs =>
        let g := (arg1 vs).toNat % 64
        result t 1 f.b.toNat (BitVec.ofNat 64 (colPage t t.curCore g (bits (arg1 vs).toNat 10 8) (runWaits t t.curCore g))) }
  | _ => none

/-- An instruction of a system core that reads its operands and writes its result at once (R403, R406–R408). -/
def systemAct (f : FDAB) (ok : State → Nat → Nat → Prop) (eff : State → Nat → Nat → Word × State) : Doing :=
  { may := SystemMode
    ok := fun t _ => ok t (readG t f.a.toNat).toNat (readG t f.b.toNat).toNat
    eff := fun t _ _ =>
      let r := eff t (readG t f.a.toNat).toNat (readG t f.b.toNat).toNat
      writeG r.2 f.d.toNat r.1 }

/-- MOV, DROP, QCNT and QCLR of a system core, whose fields name plain registers (R403; the model's choice, log 12): MOV moves w of them, all read before any
is written, DROP and QCLR change none, and a count is a value that nothing fixes, 0 of g0. -/
def plainActs : Instr → Option Doing
  | .mov f => some {
      srcs := (span f.a.toNat f.wd.toNat).map (·, f.ka), may := SystemMode
      eff := fun _ u vs => writeGs u f.d.toNat vs }
  | .drop f => some { srcs := (span f.a.toNat f.wd.toNat).map (·, false), may := SystemMode }
  | .qcnt f => some {
      may := SystemMode
      eff := fun t u _ => writeGs { u with free := u.free + 2 ^ f.wd.toNat } f.d.toNat
        ((List.range (2 ^ f.wd.toNat)).map (fun i => if f.a.toNat + i = 0 then 0 else Config.freeWord (t.free + i))) }
  | .qclr _ => some { may := SystemMode }
  | _ => none

/-- What ATTEST of an area does (R408, R411, log 74): its answer, where it has one, and the state in which it goes on or waits. It reads the
nonce, then writes the quote of it behind the nonce, and answers 0; 1 where the address names no place or an access faults. -/
def attestAnswer (t : State) (va : Nat) : Option (Word × State) × State :=
  let u := { t.sys with req := none, ans := none }
  match t.sys.ans, t.sys.nonce with
  | none, _ =>
    if t.sys.req ≠ none then (none, t)
    else if va ≥ 2 ^ 57 then (some (1, t), t)
    else (none, sysAsk t .load va 64 0 none)
  | some (0, v), none =>
    let w := sysAsk (t.setSys { t.sys with ans := none, nonce := some v }) .store (va + 64) 144 (ofBytes (quoteBytes t v)) none
    (none, { w with free := w.free + 1 })
  | some (0, _), some _ => (some (0, t.setSys { u with nonce := none }), t)
  | some _, _ => (some (1, t.setSys { u with nonce := none }), t)

/-- What a hypervisor call answers, or how it waits (R408). -/
def hvAnswer (t : State) (a b : Nat) : Option (Word × State) × State :=
  let p := sysPart t
  let now (v : Word) : Option (Word × State) × State := (some (v, t), t)
  match a with
  | 0 => now Config.hvVersion
  | 1 => now (BitVec.ofNat 64 (p % 8 + sizeCode (t.part p).size * 2 ^ 3 + (t.pkg.pkg % 64) * 2 ^ 5))
  | 2 => if b < (t.part p).size then
      now (BitVec.ofNat 64 ((t.part p).frame0.getD b 0 % 2 ^ 32 + ((t.part p).frames.getD b 0 % 2 ^ 32) * 2 ^ 32))
    else (some (Config.freeWord t.free, { t with free := t.free + 1 }), t)
  | 3 => attestAnswer t b
  | _ => now 0xFFFFFFFFFFFFFFFF

/-- A hypervisor call: it writes its answer and ends, or waits at its word. -/
def hvAct (f : FDAB) : Doing :=
  let go (t : State) := hvAnswer t (readG t f.a.toNat).toNat (readG t f.b.toNat).toNat
  { may := SystemMode
    eff := fun t _ _ => match go t with
      | (some r, _) => writeG r.2 f.d.toNat r.1
      | (none, u) => u
    flow := fun t _ => if (go t).1.isSome then .seq 1 else .settled }

/-- The reason for which an index of LPTWR is illegal: a reserved table or a bit that its table does not name, a selector outside the partition, an entry
whose page is on its way or a die on which a task runs (R407). -/
def lptReason (t : State) (a : Nat) : Option Nat :=
  let p := t.partOfDie (t.curSys / 2)
  let size := (t.part p).size
  let table := a / 2 ^ 60
  let sel := a % 2 ^ 60
  if 8 ≤ table ∨ 2 ^ [36, 13, 16, 12, 6, 9, 10, 1].getD table 0 ≤ sel then some 1
  else if (table = 0 ∧ size ≤ sel / 2 ^ 33) ∨ (table = 1 ∧ size ≤ sel / 2 ^ 7 % 8) ∨ (table = 3 ∧ size ≤ sel / 512)
      ∨ (table = 5 ∧ 32 * size ≤ sel % 2 ^ 8) ∨ (table = 6 ∧ size ≤ sel / 2 ^ 7) then some 2
  else if (table = 0 ∧ bits (pteWord (t.die (p + sel / 2 ^ 33)) (sel % 2 ^ 32) 0) 7 6 = 1)
      ∨ (table = 1 ∧ taskOn t p (p + sel / 2 ^ 7 % 8) = true) then some 3
  else none

/-- Word `w` of a page table entry written: MST and the reserved bits are not, and an entry that becomes valid has no race tags (R304, R314). -/
def entryWritten (d : DieSt) (page w v : Nat) : DieSt :=
  let old := pteWord d page w
  let new := if w = 0 then v % 2 ^ 6 + (old / 2 ^ 6 % 4) * 2 ^ 6 + (v / 2 ^ 8 % 2 ^ 40) * 2 ^ 8 else v % 2 ^ 25
  let e := { d with pte := d.pte.set (page * 2 + w) (BitVec.ofNat 64 new) }
  if w = 0 ∧ old % 2 = 0 ∧ new % 2 = 1 then
    { e with race := d.race.filter (fun x => !decide (page * 16 ≤ x.1 ∧ x.1 < page * 16 + (if new / 2 % 2 = 1 then 512 else 16))) }
  else e

/-- What LPTWR of a legal index answers, the word before, and writes (R20, R180, R237, R304, R343, R355, R381, R382, R401, R407). -/
def lptWritten (t : State) (a v : Nat) : Word × State :=
  let p := t.partOfDie (t.curSys / 2)
  let q := t.part p
  let sel := a % 2 ^ 60
  let eng := 128 * (p + sel / 2 ^ 7 % 8) + sel % 2 ^ 7
  let e := t.engOf eng
  match a / 2 ^ 60 with
  | 0 =>
    let n := p + sel / 2 ^ 33
    let place := sel % 2 ^ 32 * 2 + sel / 2 ^ 32 % 2
    ((t.die n).pte.getD place 0, t.setDie n (entryWritten (t.die n) (sel % 2 ^ 32) (sel / 2 ^ 32 % 2) v))
  | 1 =>
    let w := sel / 2 ^ 10
    (BitVec.ofNat 64 (timingWord e w),
      t.setEngOf eng { e with timing := e.timing.set w (BitVec.ofNat 64 (v % (if w ≤ 4 then 2 ^ 64 else if w = 5 then 2 ^ 20 else 1))) })
  | 2 =>
    let place := sel % 2 ^ 6 * 1024 + sel / 2 ^ 6
    (q.groups.getD place 0, regroup (t.setPart p { q with groups := q.groups.set place (BitVec.ofNat 64 v) }) p (sel % 2 ^ 6))
  | 3 => (q.owners.getD sel 0, t.setPart p { q with owners := q.owners.set sel (BitVec.ofNat 64 (v % 8)) })
  | 4 => (q.perms.getD sel 0, t.setPart p { q with perms := q.perms.set sel (BitVec.ofNat 64 (v % 8)) })
  | 5 => (q.saves.getD sel 0, t.setPart p { q with saves := q.saves.set sel (BitVec.ofNat 64 v) })
  | 6 => (e.scrubCfg.getD (BitVec.ofNat 64 (64 + 16 * 2 ^ 16)),
      t.setEngOf eng { e with scrubCfg := some (BitVec.ofNat 64 (v % 2 ^ 32)) })
  | _ => if sel = 0 then (q.wddef, t.setPart p { q with wddef := BitVec.ofNat 64 (v % 2 ^ 32) })
    else (q.colto, t.setPart p { q with colto := BitVec.ofNat 64 (v % 2 ^ 32) })

/-- MTLBINV, MTLBWR, LPTWR and HVCALL (R406–R408). -/
def systemActs : Instr → Option Doing
  | .mtlbinv f => some (systemAct f
      (fun t a b => a % 65536 = 0 ∧ b = 0 ∧ ownDie t a = true
        ∧ ∀ p, tlbPage (t.die (vaDie a)) (vaOff a) = some p → pageInUse t (vaDie a) p = false)
      (fun t a _ => match tlbPage (t.die (vaDie a)) (vaOff a) with
        | none => (0, t)
        | some p => (1, t.setDie (vaDie a) { t.die (vaDie a) with tlb := (t.die (vaDie a)).tlb.erase p.first })))
  | .mtlbwr f => some (systemAct f
      (fun t a b => b = 0 ∧ ownDie t a = true)
      (fun t a _ => match pageAt (t.die (vaDie a)) (vaOff a) with
        | none => (0, t)
        | some p => (1, t.setDie (vaDie a) { t.die (vaDie a) with tlb := (t.die (vaDie a)).tlb.set p.first (p.w0, p.w1) })))
  | .lptwr f => some (systemAct f (fun t a _ => lptReason t a = none) lptWritten)
  | .hvcallVersion f | .hvcallPartinfo f | .hvcallFrames f | .hvcallAttest f => some (hvAct f)
  | _ => none

/-- What CTXSW does with an operand (R379, R381, R389). -/
def switchOp (t : State) (a : Nat) : State :=
  let p := t.partOfDie (t.curSys / 2)
  let slot := a % 4
  let q := t.part p
  let d := t.dom p slot
  if a ≥ 32 ∨ slot ≥ 2 then t
  else if a / 4 = 0 then (if q.str ≠ 0 ∧ q.strSlot = slot then t else ctxSwitch t p slot)
  else if a / 4 = 1 then
    (if q.str = 0 ∧ d.task ≠ none ∧ q.runSlot ≠ some slot ∧ inHandlerMode t p slot = false ∧ slot ∉ q.switchTo then
      t.setPart p { q with str := 1, strSlot := slot } else t)
  else if a / 4 = 2 then (if q.str = 0 ∧ d.task = none then t.setPart p { q with str := 2, strSlot := slot, serr := false } else t)
  else if a / 4 = 3 then ctxRelease t p slot
  else if a / 4 = 4 then endTask t p slot (if d.wdf then 0x07 else 0x06)
  else if a / 4 = 5 then
    (if q.runSlot = some slot ∧ d.task ≠ none then t.setDom p slot { requestHold d 8 d.tb 0 t.wb with osh := true } else t)
  else t

/-- CTXSW on a system core: one word, whose operand names the operation (R389). -/
def switchActs : Instr → Option Doing
  | .ctxswSwitch f | .ctxswSave f | .ctxswRestore f | .ctxswRelease f | .ctxswEnd f | .ctxswHold f => some {
      may := SystemMode
      eff := fun t _ _ => switchOp t (readG t f.a.toNat).toNat }
  | _ => none

/-- The instructions of major 0x3B. -/
def isSystemMajor : Instr → Bool
  | .mtlbinv _ | .mtlbwr _ | .lptwr _ | .hvcallVersion _ | .hvcallPartinfo _ | .hvcallFrames _ | .hvcallAttest _ => true
  | _ => false

/-- A paged load, store or atomic of a system core: operation, address, bytes, data and compare value (R290, R320, R321, R403). -/
def systemPaged (t : State) : Instr → Option (AuOp × Nat × Nat × Nat × Option Nat)
  | .ldsD f => some (if f.d = 0 then .touch else .load, pagedAddr (readG t f.a.toNat) f.disp 8, 8, 0, none)
  | .ldsWu f => some (if f.d = 0 then .touch else .load, pagedAddr (readG t f.a.toNat) f.disp 4, 4, 0, none)
  | .ldsWs f => some (if f.d = 0 then .touch else .load, pagedAddr (readG t f.a.toNat) f.disp 4, 4, 0, none)
  | .ldsHu f => some (if f.d = 0 then .touch else .load, pagedAddr (readG t f.a.toNat) f.disp 2, 2, 0, none)
  | .ldsBu f => some (if f.d = 0 then .touch else .load, pagedAddr (readG t f.a.toNat) f.disp 1, 1, 0, none)
  | .stsD f => some (.store, pagedAddr (readG t f.a.toNat) f.disp 8, 8, (readG t f.d.toNat).toNat, none)
  | .stsW f => some (.store, pagedAddr (readG t f.a.toNat) f.disp 4, 4, (readG t f.d.toNat).toNat, none)
  | .stsH f => some (.store, pagedAddr (readG t f.a.toNat) f.disp 2, 2, (readG t f.d.toNat).toNat, none)
  | .stsB f => some (.store, pagedAddr (readG t f.a.toNat) f.disp 1, 1, (readG t f.d.toNat).toNat, none)
  | .pamoadd f => some (.atomic, (readG t f.a.toNat).toNat, 8, (readG t f.b.toNat).toNat, none)
  | .pamocas f => some (.atomic, (readG t f.a.toNat).toNat, 8, (readG t f.b.toNat).toNat, some (readG t (f.b.toNat + 1)).toNat)
  | _ => none

/-- The register that a paged access of a system core writes with the answer, and the word that the answer's bytes make. -/
def systemLoads : Instr → Option (Nat × (Nat → Word))
  | .ldsD f => some (f.d.toNat, fun v => BitVec.ofNat 64 v)
  | .ldsWu f => some (f.d.toNat, fun v => BitVec.ofNat 64 v)
  | .ldsWs f => some (f.d.toNat, fun v => BitVec.ofInt 64 (toSigned 32 v))
  | .ldsHu f => some (f.d.toNat, fun v => BitVec.ofNat 64 v)
  | .ldsBu f => some (f.d.toNat, fun v => BitVec.ofNat 64 v)
  | .pamoadd f => some (f.d.toNat, fun v => BitVec.ofNat 64 v)
  | .pamocas f => some (f.d.toNat, fun v => BitVec.ofNat 64 v)
  | _ => none

end Sys2Proof.Claims

/-- R138, R205, R244, R265, R291, R319: the commands of the vector unit, the matrix array and the quantisation engine, LDS, STS, LDQ, STQ, MIGR
and RSTQ do nothing in handler mode but take ILLEGAL with EINFO = 0x0003, where their station is not busy. -/
def Obligations.EnginesNotInHandler : Prop :=
  ∀ (i : Instr) (s : State) (x : Doing), HandlerMode s → Unguarded s →
    (elementActs i = some x ∨ wordActs i = some x ∨ rstqActs i = some x
      ∨ (pagedActs i = some x ∧ ∀ f g, i ≠ .austat f ∧ i ≠ .pamoadd g ∧ i ≠ .pamocas g)
      ∨ ((matrixActs i = some x ∨ factorActs i = some x) ∧ s.cur.freeAt.getD 1 0 ≤ s.cur.now)
      ∨ (quantActs i = some x ∧ s.cur.freeAt.getD 5 0 ≤ s.cur.now)) →
    exec i s = .next (takeTrap s 0x01 0x0003)

/-- R223, R231–R236, R239: the engine instructions outside handler mode send their message, which arrives 24 cycles after the issue; in handler
mode MCSTOP and MCSTAT act on the frozen engine and the others are ILLEGAL. A MCBASE is the command that ESTEP of station 7 counts (R36). When a handler's
MCSTOP and MCSTAT act is the model's reading (log 40). -/
def Obligations.EngineInstructions : Prop :=
  (∀ i s x, engineActs i = some x → Completes i s x)
  ∧ (∀ i s x, frozenEngineActs i = some x → Completes i s x)
    ∧ ∀ (f : FP2) (s : State), HandlerMode s → Unguarded s →
        exec (.mcbind f) s = .next (takeTrap s 0x01 0x0003) ∧ exec (.mcbase f) s = .next (takeTrap s 0x01 0x0003)
          ∧ exec (.mcstart f) s = .next (takeTrap s 0x01 0x0003)


/-- R364–R368: COLSTART waits in its phase's lot, COLSTAT sends the page of its group, untimed, 48 wall cycles later at the earliest or, in handler
mode, reads one word of it, COLABORT departs at once. The order of the start's checks, the time of the page and that a
replay does not start again what departed at a HALT are the model's choice (logs 32, 41, 99). -/
def Obligations.CollectiveInstructions : Prop :=
  ∀ i s x, (collectiveActs i = some x ∨ frozenCollectiveActs i = some x) → Completes i s x

/-- R88, R406–R408: the system instructions on a system core; on a compute core they take ILLEGAL with REASON 0x07 and the word. LPTWR answers the word
before and writes the word of each table of R407; an index that R407 does not allow is ILLEGAL class 0x15 with its reason, which a system core takes by log
11. How ATTEST
makes its accesses and what it answers where one fails are the model's choice (log 74), as are the value of HVCALL VERSION, a constant that
nothing fixes, and the free word that HVCALL FRAMES answers for a die outside the partition (log 3). MOV, DROP, QCNT and QCLR are legal there (R403), and what
they do to plain registers is the model's choice (log 12). -/
def Obligations.SystemInstructions : Prop :=
  (∀ i s x, (systemActs i = some x ∨ plainActs i = some x) → Completes i s x)
  ∧ (∀ (i : Instr) (s : State), isSystemMajor i = true → s.onSys = false → Unguarded s →
    exec i s = .next (takeTrap s 0x01 (0x0701 + s.fetchWord s.curCore (s.slotOf s.curCore) s.cur.pc * 2 ^ 32)))
  ∧ (∀ (f : FDAB) (s : State) (r : Nat), SystemMode s → Unguarded s →
    let a := (readG s f.a.toNat).toNat
    lptReason s a = some r → exec (.lptwr f) s = .next (sysTrap s 0x01 (0x15 + r * 2 ^ 8 + a % 2 ^ 32 * 2 ^ 32)))

/-- R379, R381, R389, R391: CTXSW on a system core, each operation by its operand, on the compute cores of the system core's partition; a
refused one does nothing; on a compute core it takes ILLEGAL class 0x14, reason 0x01, with its operand, before any pop. What they leave
open of a refusal, of the image and of when a slot runs is the model's choice (logs 21, 47, 63, 82). -/
def Obligations.ContextSwitches : Prop :=
  (∀ i s x, switchActs i = some x → Completes i s x)
  ∧ (∀ (f : FA) (s : State), QueueMode s → Unguarded s → SrcReady s f.a.toNat →
      ∀ i ∈ [Instr.ctxswSwitch f, .ctxswSave f, .ctxswRestore f, .ctxswRelease f, .ctxswEnd f, .ctxswHold f],
        exec i s = .next (takeTrap s 0x01 (0x0114 + ((srcValue s f.a.toNat).toNat % 2 ^ 32) * 2 ^ 32)))

/-- R403: a paged access of a system core goes to its owner and the core waits; the answer, when it has come, ends the instruction, writes
the register of a load or an atomic, and clears the wait; the next instruction issues only then. The agent, the key, the phase and the
SSN of 0 that the request carries, and the owner's die of an address of another package, are the model's choice (log 27). -/
def Obligations.SystemPagedAccess : Prop :=
  ∀ (i : Instr) (s : State) (op : AuOp) (va size b0 : Nat) (cas : Option Nat), SystemMode s → Unguarded s →
    systemPaged s i = some (op, va, size, b0, cas) → va < 2 ^ 57 → va % size = 0 →
    (∀ v, s.sys.ans = some (0, v) →
      let t := s.setSys { s.sys with req := none, ans := none }
      exec i s = .next (advance (match systemLoads i with | some (d, w) => writeG t d (w v) | none => t) 1 1))
    ∧ (s.sys.ans = none → s.sys.req ≠ none → exec i s = .next s)
    ∧ (s.sys.ans = none → s.sys.req = none →
        let owner := if vaPkg va = s.pkg.pkg then vaDie va else s.curSys / 2
        let q : ExtReq :=
          { id := s.free, op := op, va := va, size := size, agent := Config.sysAgent s.curSys, pbase := s.partOfDie (s.curSys / 2)
            ph := Config.sysPhase s.curSys, ssn := 0, key := Config.sysKey s.curSys, value := b0, cas := cas, run := none
            sys := some s.curSys, queued := false, left := [], poison := none }
        let t := { s with free := s.free + 1 }.setDie owner { s.die owner with ext := (s.die owner).ext ++ [q] }
        exec i s = .next (t.setSys { s.sys with req := some s.free }))

namespace Sys2Proof.Claims
open Sys2Proof Sys2Proof.Machine

/-! ## Words of the memory command tables -/

/-- The current engine with its word issued and word `pc` next (R211). -/
def wordIssued (e : EngSt) (pc wait : Nat) : EngSt :=
  { e with lastIssue := e.now, wait := wait, first := false, pc := pc, ncmd := min (e.ncmd + 1) 0xFFFFFFFF }

/-- The current engine changed and the next word in order due. -/
def onEngine (s : State) (f : EngSt → EngSt) : State := s.setEng (wordIssued (f s.eng) ((f s.eng).pc + 1) 0)

/-- The rules of a column command: its bank open, its cursor bound, the timing of reads or of writes (R218–R220). -/
def columnRule (e : EngSt) (b : Nat) (wr : Bool) : WordRule :=
  { bank := b, wrongState := if e.isOpen b then none else some (0x02, b), cursor := true, rules := if wr then needWr e b else needRd e b }

/-- The last write cycle of a granule among landings (core, granule and cycle) at a core, not before `c` (R216). -/
def lastLanding (c core g : Nat) (log : List (Nat × Nat × Nat)) : Nat :=
  ((log.filter (fun x => x.2.1 == core && x.1 == g)).map (fun x => x.2.2)).foldl max c

/-- The stamps of a TAG at a core, one message for each cycle on which some granule gets its stamp: the cycle of the last RD that wrote it,
or the TAG's own where that is later (R67, R216). -/
def stampsAt (e : EngSt) (n slot tag core : Nat) : List Move :=
  let gs := ((e.rdLog.filter (fun x => x.2.1 == core)).map (·.1)).dedup
  ((gs.map (fun g => lastLanding e.now core g e.rdLog)).dedup).map (fun t =>
    { slot := slot, due := t, isWr := false, eng := n, issue := e.now, addr := 0, dram := 0, data := [], wsrc := 0, early := false
      void := false, poison := none, tags := (gs.filter (fun g => lastLanding e.now core g e.rdLog == t)).map (fun g => (g, tag)) })

/-- What a table word needs and what it does (R209–R219, R224, R227). -/
def tableWord (s : State) : Instr → Option (WordRule × State)
  | .mcAct f =>
      let b := f.bank.toNat
      some ({ bank := b, arenaErr := decide (s.eng.arena ≤ f.row.toNat), wrongState := if s.eng.isOpen b then some (0x02, b) else none
              rules := needAct s.eng b },
        onEngine s (fun e => { e with
          rows := e.rows.set b f.row.toNat, actAt := e.actAt.set b e.now, rowLog := logAdd e.now b e.rowLog }))
  | .mcPre f =>
      let b := f.bank.toNat
      some ({ bank := b, rules := if s.eng.isOpen b then needPre s.eng b else [] },
        onEngine s (fun e => if e.isOpen b then { e with rows := e.rows.erase b, preAt := e.preAt.set b e.now } else e))
  | .mcPrea => some ({ rules := needPrea s.eng }, onEngine s closeAll)
  | .mcRefpb f =>
      let b := f.bank.toNat
      some ({ bank := b, wrongState := if s.eng.isOpen b then some (0x02, b) else none, rules := needRefpb s.eng b
              bound := if s.eng.owe b - 1 < -(s.eng.maxPost : Int) then some b else none },
        onEngine s (fun e => { e with
          refAt := e.refAt.set b e.now, bankWall := e.bankWall.set b s.wb, rowLog := logAdd e.now b e.rowLog
          owed := e.owed.set b (e.owe b - 1) }))
  | .mcRefab =>
      some ({ wrongState := (s.eng.openBanks.head?).map (fun b => (0x02, b)), rules := needRefab s.eng
              bound := (List.range 16).find? (tooFar s.eng) },
        onEngine s (fun e => { e with
          refAll := some e.now, bankWall := (List.range 16).foldl (fun m b => NMap.set m b s.wb) e.bankWall
          owed := (List.range 16).foldl (fun m b => NMap.set m b (e.owe b - 1)) e.owed }))
  | .mcRd f =>
      let e := s.eng
      let c := cursorCore s
      let key := colKey f.bank.toNat (e.rows.getD f.bank.toNat 0) f.col.toNat
      let land := e.now + e.rlBase + c.2.2 - 1
      let m : Move :=
        { slot := engSlot s s.curEng, due := land, isWr := false, eng := s.curEng, issue := e.now, addr := c.2.1,
          dram := key, data := s.mem.readN 64 (colAddr s.curEng key), wsrc := e.wrLast.getD key 0, early := false, void := false, tags := [],
          poison := e.poison.find key }
      let t := sendMove s c.1 m
      some (columnRule e f.bank.toNat false,
        onEngine t (fun e => { colDone e f false with rdLog := e.rdLog ++ [(c.2.1 / 4096, c.1, land)] }))
  | .mcWr f =>
      let e := s.eng
      let c := cursorCore s
      let key := colKey f.bank.toNat (e.rows.getD f.bank.toNat 0) f.col.toNat
      let m : Move :=
        { slot := engSlot s s.curEng, due := e.now + e.wlBase - c.2.2, isWr := true, eng := s.curEng,
          issue := e.now, addr := c.2.1, dram := key, data := [], wsrc := 0, early := false, void := false, tags := [], poison := none }
      let t := match e.taken.find? (fun x => x.1 == e.now && x.2.1 == c.1 && x.2.2.1 == c.2.1) with
        | some x => writeColumn s s.curEng key e.now x.2.2.2.1 x.2.2.2.2
        | none => if (s.ctxOf c.1 m.slot).now ≤ m.due then sendMove s c.1 m
          else writeColumn s s.curEng key e.now (s.readSp c.1 c.2.1 64) (rowPoison (s.core c.1) [rowKey 0 c.2.1])
      some (columnRule e f.bank.toNat true,
        onEngine t (fun e => { colDone e f true with taken := e.taken.filter (fun x => x.1 != e.now) }))
  | .mcTag f =>
      let e := s.eng
      let t := ((e.rdLog.map (fun x => x.2.1)).dedup).foldl (fun s core =>
        (stampsAt e s.curEng (engSlot s s.curEng) f.tag.toNat core).foldl (fun s m =>
          if (s.ctxOf core m.slot).now ≤ m.due then sendMove s core m
          else s.setCore core { s.core core with tags := m.tags.foldl (fun k p => NMap.set k p.1 p.2) (s.core core).tags }) s) s
      some ({}, onEngine t (fun e => { e with rdLog := [] }))
  | .mcBind f => some ({}, onEngine s (fun e => { e with curSel := f.cursor.toNat }))
  | .mcSvw f =>
      let m := f.mask.toNat
      some ({ tableErr := m == 0 || decide (f.len.toNat < 128)
              wrongState := ((maskedBanks m).find? s.eng.isOpen).map (fun b => (0x07, b)) },
        onEngine s (fun e => { e with
          svw := some (f.cls.toNat, m, e.now + f.len.toNat), windows := min (e.windows + 1) 0xFFFF
          svc := ⟨e.now, e.rows, e.actAt, e.preAt, e.rowLog, e.rdCol, e.wrCol, e.refAll⟩ }))
  | .mcLoop f =>
      let e := s.eng
      let again (left : Nat) (act : Bool) : Bool := decide (0 < (if act then left else f.count.toNat))
      let after (left : Nat) (act : Bool) : Nat := (if act then left else f.count.toNat) - 1
      some ({ tableErr := f.count.toNat == 0 || decide (e.pc ≤ f.target.toNat) },
        if f.level.toNat = 0 then
          s.setEng (wordIssued { e with left0 := after e.left0 e.act0, act0 := again e.left0 e.act0 }
            (if again e.left0 e.act0 then f.target.toNat else e.pc + 1) 0)
        else
          s.setEng (wordIssued { e with left1 := after e.left1 e.act1, act1 := again e.left1 e.act1 }
            (if again e.left1 e.act1 then f.target.toNat else e.pc + 1) 0))
  | .mcEnd => some ({ wrongState := (s.eng.openBanks.head?).map (fun b => (0x08, b)) },
      s.setEng { wordIssued s.eng 0 0 with st := .idle, left0 := 0, left1 := 0, act0 := false, act1 := false })
  | .mcDly f => some ({}, s.setEng (wordIssued s.eng (s.eng.pc + 1) f.e.toNat))
  | _ => none

/-! ## Collective words -/

/-- The run of a group with its present word done (R347, R349). -/
def runDone (s : State) (wb : Nat) (r : Run) : State :=
  let n := { r with nword := min (r.nword + 1) (2 ^ 32 - 1), lastWb := wb }
  putRun s s.curDie (match r.loopAt with
    | some (first, last, left, i) =>
      if r.pc = last then
        if left > 1 then { n with pc := first, loopAt := some (first, last, left - 1, i + 1) } else { n with pc := last + 1, loopAt := none }
      else { n with pc := r.pc + 1 }
    | none => { n with pc := r.pc + 1 })

/-- The rank at a distance from the run's own (R347). -/
def rankFrom (r : Run) (k : Int) : Nat := (((r.rank : Int) + k) % (r.count : Int)).toNat

/-- A word that ended in one of the outcomes of R349, R356 and R357. -/
def cxOutcome (s : State) (r : Run) : CxRes → State
  | .wait => s
  | .done t r1 => runDone t s.wb r1
  | .mismatch => abortRun s s.curDie r 0x03
  | .fault st => portFault s s.curDie r st

/-- A chunk of a slot, as it is read for a word (R349, R357): a fault, or its elements and its mark. -/
def withChunk (s : State) (r : Run) (slot k : Nat) (go : List Nat → Option Nat → CxRes) : CxRes :=
  match ownChunk s r slot k with
  | .error st => .fault st
  | .ok o => go o.1 o.2

/-- The unit of a receiving word (R344, R349): it waits for the next from its predecessor, which must be of the word's chunk and format. -/
def withUnit (s : State) (r : Run) (k wfmt : Nat) (go : State → Run → ColUnit → CxRes) : CxRes :=
  match nextUnit s s.curDie r with
  | none => .wait
  | some u =>
    if u.chunk = k ∧ u.wfmt = wfmt then go (dropUnit s s.curDie u) { r with taken := r.taken ++ [(u.sender, u.seqNo)] } u
    else .mismatch

/-- What a collective word does for a run (R347, R349, R350). -/
def collectiveWord (s : State) (r : Run) : Instr → Option CxRes
  | .cxNop => some (.done s r)
  | .cxLoop f => some (.done s { r with loopAt := some (r.pc + 1, r.pc + f.body.toNat, f.count.toNat, 0) })
  | .cxPeer f => some (.done s { r with peer := rankFrom r f.k.toInt, pred := rankFrom r (-f.k.toInt) })
  | .cxSend f =>
      let k := r.chunk f.ck
      some (withChunk s r f.slot.toNat k (fun es p =>
        let v := narrowAll (r.desc f.slot.toNat).fmt f.wfmt.toNat es
        let t := sendUnit s s.curDie (countSat r v.2) r.peer none k f.wfmt.toNat v.1 p
        .done t.1 t.2))
  | .cxRecv f =>
      let k := r.chunk f.ck
      some (withUnit s r k f.wfmt.toNat (fun s r u => writeNarrowed s r f.slot.toNat k f.wfmt.toNat u.data u.poison))
  | .cxRrs f =>
      let k := r.chunk f.ck
      some (withUnit s r k f.wfmt.toNat (fun s r u => withChunk s r f.slot.toNat k (fun es p =>
        let t := sendUnit s s.curDie r r.peer none k f.wfmt.toNat (sumUnits f.wfmt.toNat (r.desc f.slot.toNat).fmt u.data es)
          (mergePoison u.poison p)
        .done t.1 t.2)))
  | .cxRed f =>
      let k := r.chunk f.ck
      some (withUnit s r k f.wfmt.toNat (fun s r u => withChunk s r f.slot.toNat k (fun es p =>
        writeNarrowed s r f.slot.toNat k f.wfmt.toNat (sumUnits f.wfmt.toNat (r.desc f.slot.toNat).fmt u.data es)
          (mergePoison u.poison p))))
  | .cxCopy f =>
      let k := r.chunk f.ck
      some (withChunk s r f.src.toNat k (fun es p => writeNarrowed s r f.slot.toNat k (r.desc f.src.toNat).fmt es p))
  | .cxWaitDelivery _ => some (if 0 < r.undelivered ∨ sendsOut s s.curDie r = true then .wait else .done s r)
  | .cxWaitFlag f =>
      let d := r.desc f.slot.toNat
      some (if (flagOf (runCtx s r) ((d.addr + 128 * d.cw * r.chunk f.ck) / 4096)).ready then .done s r else .wait)
  | .cxMcast f =>
      let k := r.chunk f.ck
      some (withChunk s r f.slot.toNat k (fun es p =>
        let v := narrowAll (r.desc f.slot.toNat).fmt f.wfmt.toNat es
        let r1 := countSat r v.2
        if (r.desc f.dst.toNat).kind = 1 then writeNarrowed s r1 f.dst.toNat k f.wfmt.toNat v.1 p
        else
          let t := ((List.range r.n).filter (fun q => q != r.rank)).foldl (fun (t : State × Run) q =>
            sendUnit t.1 s.curDie t.2 q (some f.dst.toNat) k f.wfmt.toNat v.1 p) (s, r1)
          .done t.1 t.2))
  | _ => none

end Sys2Proof.Claims

/-- R209–R220, R224, R227: a table word that meets its checks issues with its effect; one that does not takes MEMTIME with the reason, rule,
bank and deficit of the first check that fails, and has no effect. Which bank is named where several offend is the model's choice (log
44); that TAG stamps each granule on the cycle of the last RD that wrote it, or on its own where that is later, is the model's reading of
R67 and R216 (log 33); that a WR whose take was not announced, as its core has passed the cycle of R215, takes the data as the core stands, is the
model's (log 40); and that a window keeps the banks as it finds them, for its own commands to go on from, is the model's (log 70). -/
def Obligations.TableWords : Prop :=
  ∀ (i : Instr) (s : State) (r : WordRule) (t : State), tableWord s i = some (r, t) →
    (wordFault s.eng r = none → exec i s = .next t)
      ∧ ∀ reason rule b d, wordFault s.eng r = some (reason, rule, b, d) → exec i s = .next (memTrap s reason rule b d)

/-- R218, R220: the rule that MEMTIME names is the lowest one that some command before forbids on this cycle, with the lowest bank of that
rule and its largest deficit in cycles; one is named wherever a requirement is not met, and none where every one is. -/
def Obligations.TimingRuleReported : Prop :=
  ∀ (c : Nat) (ns : List Need),
    ((∀ n ∈ ns, n.2.2 ≤ c) → failing c ns = none)
      ∧ ((∃ n ∈ ns, c < n.2.2) → ∃ x, failing c ns = some x)
      ∧ ∀ rule b d, failing c ns = some (rule, b, d) →
          (∃ n ∈ ns, n.1 = rule ∧ c < n.2.2 ∧ n.2.1 = b) ∧ (∃ n ∈ ns, n.1 = rule ∧ n.2.2 = c + d ∧ 0 < d)
            ∧ ∀ n ∈ ns, c < n.2.2 → rule ≤ n.1 ∧ (n.1 = rule → b ≤ n.2.1 ∧ n.2.2 ≤ c + d)

/-- R221, R222: MEMTIME freezes the engine TRAPPED on its cycle, with the state before, the reason, and EINFO holding reason, rule, bank,
engine, PC and deficit for its controller; nothing else changes. -/
def Obligations.MemtimeEntry : Prop :=
  ∀ (s : State) (reason rule bank deficit : Nat),
    let e := s.eng
    let c := if e.st = .started ∨ e.st = .running then 32 * engPart s s.curEng + e.ctrl
      else (engCores s s.curEng).headD (32 * engDie s.curEng)
    memTrap s reason rule bank deficit = s.setEng { e with
      st := .trapped, prior := e.st, reason := reason, frozen := some ⟨e.now, 5, true, false⟩
      trapInfo := some (e.now, reason + rule * 2 ^ 8 + bank * 2 ^ 16 + (s.curEng % 128) * 2 ^ 20 + (e.pc % 1024) * 2 ^ 32
        + (min deficit 0xFFFF) * 2 ^ 42, c)
      told := false }

/-- R347, R349, R350, R354–R358: each collective word for the active run of its group: it executes and the next follows, or waits and nothing
changes, or ends the run with STATUS 0x03 or by the fault of its port access; without a run nothing happens. DONE waits until every
MCAST unit due has been applied and, by the model's reading of R329 and R359 (log 89), until the owners have answered the run's paged writes, then the
run ends with STATUS 0x00 and its record. Where these rules leave an order open, the effects are the model's
choices (logs 31, 41, 72, 89). -/
def Obligations.CollectiveWords : Prop :=
  (∀ (i : Instr) (s : State), isCxWord i = true →
    (runOf s s.curDie s.curGroup = none → exec i s = .next s)
      ∧ ∀ r x, runOf s s.curDie s.curGroup = some r → collectiveWord s r i = some x → exec i s = .next (cxOutcome s r x))
  ∧ (∀ (f : FCxSlot) (s : State) (r : Run), runOf s s.curDie s.curGroup = some r →
    (r.mcDone < r.mcDue ∨ 0 < r.undelivered → exec (.cxDone f) s = .next s)
      ∧ (r.mcDue ≤ r.mcDone → r.undelivered = 0 → exec (.cxDone f) s = .next (endRun s s.curDie
          { r with nword := min (r.nword + 1) (2 ^ 32 - 1), lastWb := s.wb, status := 0, recSlot := some f.slot.toNat })))

namespace Sys2Proof.Claims
open Sys2Proof Sys2Proof.Machine

/-! ## Events -/

/-- What an event does: its cases, each a condition with the state that follows under it. Where none of them holds, and `quiet` does, the
event changes nothing. -/
structure Happening where
  cases : List (Prop × State)
  quiet : Prop := True

/-- The event does so. -/
def Happens (i : Instr) (s : State) (x : Happening) : Prop :=
  (∀ c ∈ x.cases, c.1 → exec i s = .next c.2) ∧ (x.quiet → (∀ c ∈ x.cases, ¬ c.1) → exec i s = .next s)

/-- An event of one case. -/
def once (c : Prop) (t : State) : Happening := ⟨[(c, t)], True⟩

/-! ### Launches, domains, tasks (R19–R26, R37–R43, R121, R379–R384, R392–R395, R404) -/

/-- The events of the launch unit: `a` names the partition, `b` the slot. -/
def launchEvents (s : State) : List (Instr × Happening) :=
  let p := s.ev.a
  let q := s.part p
  let d := s.dom p s.ev.b
  [
    (Instr.launchPacketWrite,
        let bs := (s.ev.data.map (· % 256)).take 128
        once (128 ≤ s.ev.data.length ∧ (s.parts.find p).isSome = true ∧ (s.ev.b = 1 → peerAllowed q s.ev.c (pktField bs 1 1 % 4) = true)
            ∧ q.queue.length < 16)
          (s.setPart p { q with
            queue := q.queue ++ [(pktField bs 1 1 % 4, q.arrivals, bs)], arrivals := q.arrivals + 1, notifies := q.notifies + 1 })),
    (Instr.doorbellNotify, ⟨[
        (0 < q.notifies ∧ q.mapped = true, s.setPart p { q with notifies := q.notifies - 1, rung := true }),
        (0 < q.notifies ∧ q.mapped = false, s.setPart p { q with notifies := q.notifies - 1, pnb := true })], True⟩),
    (Instr.doorbellUnmap, once ((s.parts.find p).isSome = true) (s.setPart p { q with mapped := false, unmapped := true })),
    (Instr.doorbellMap, ⟨[
        ((s.parts.find p).isSome = true ∧ (q.pnb = true ∨ q.rung = true),
          s.setPart p { q with mapped := true, unmapped := false, rung := false, pnb := false, scanned := q.arrivals }),
        ((s.parts.find p).isSome = true ∧ q.pnb = false ∧ q.rung = false, s.setPart p { q with mapped := true, unmapped := false })], True⟩),
    (Instr.launch, match headPacket q with
        | none => ⟨[], True⟩
        | some x =>
          let bs := x.2.2
          let slot := bits (pktField bs 2 2) 1 1
          let free : Prop := (s.dom p slot).task = none ∧ ¬ (q.str = 2 ∧ q.strSlot = slot)
          let s1 := s.setPart p { q with
            queue := q.queue.filter (fun y => y.2.1 != x.2.1), headTold := q.headTold.filter (fun n => n != x.2.1) }
          let ready := launchReady s p slot bs
          let secs := imageSections s bs
          ⟨[
            (¬ free ∧ x.2.1 ∉ q.headTold, sysEventOn (s.setPart p { q with headTold := x.2.1 :: q.headTold }) p 0),
            (free ∧ packetStatus q bs = none ∧ ready = false, launchPrepare s p slot bs),
            (free ∧ packetStatus q bs = none ∧ ready = true ∧ secs = none, launchFails s1 (packetTask p s.wb bs) 4),
            (free ∧ packetStatus q bs = none ∧ ready = true ∧ ∃ xs, secs = some xs ∧ xs.all Section.fits = true,
              launchTask s1 p slot bs (secs.getD []) (s.ev.b == 1)),
            (free ∧ packetStatus q bs = some 1, launchFails s1 (packetTask p s.wb bs) 1),
            (free ∧ packetStatus q bs = some 2, launchFails s1 (packetTask p s.wb bs) 2),
            (free ∧ packetStatus q bs = some 3, launchFails s1 (packetTask p s.wb bs) 3)], ¬ free⟩),
    (Instr.slathBarrierComplete, match d.task with
        | none => ⟨[], True⟩
        | some t =>
          let last := d.tb + Config.slathTransit s.free
          ⟨[
            (t.tb0 = none ∧ ∀ c ∈ t.cores, c ∈ t.arrived,
              { s with free := s.free + 1 }.setDom p s.ev.b { d with
                task := some { t with tb0 := some ((last + 48 + 15) / 16 * 16) } }),
            (t.tb0 = some d.tb ∧ (d.mode = .run ∨ ∃ f, d.mode = .freezing f) ∧ ∃ c ∈ t.cores, (s.ctxOf c s.ev.b).slathed = false,
              (mapCtxs s p s.ev.b (fun _ c => slathCtx d.tb c)).setDom p s.ev.b { d with livew := 0, task := some { t with relWb := s.wb } })],
            True⟩),
    (Instr.slathWatchdog, match d.task with
        | none => ⟨[], True⟩
        | some t => once (t.tb0 = none ∧ t.slathFired = false ∧ t.slathWb + wdogLimit s p s.ev.b ≤ s.wb)
            (sysEventOn (s.setDom p s.ev.b { d with wdf := true, wdWhich := 0, task := some { t with slathFired := true } }) p 3)),
    (Instr.taskCompletion, once (d.task ≠ none ∧ ∀ x ∈ domCtxs s p s.ev.b, x.2.partEnded = true) (endTask s p s.ev.b 0)),
    (Instr.corePartEnd, once (s.cur.halted ≠ none ∧ s.cur.partEnded = false ∧ s.cur.frozen = none ∧ coreIdle s.cur = true)
        (s.setCur { s.cur with partEnded := true }))
  ]

/-- The events of a timed domain: `a` names the partition, `b` the slot. -/
def domainEvents (s : State) : List (Instr × Happening) :=
  let p := s.ev.a
  let q := s.part p
  let slot := s.ev.b
  let d := s.dom p slot
  [
    (Instr.domainFreeze, once (d.mode = .freezing d.tb) (freezeOn s p slot d.tb)),
    (Instr.holdRequest,
        let len := if s.ev.c = 6 ∨ s.ev.c = 7 then 48 else if s.ev.c = 9 then 64 else 0
        once (q.runSlot = some slot ∧ d.task ≠ none ∧ s.ev.c ∈ [6, 7, 8, 9, 13]) (s.setDom p slot (requestHold d s.ev.c d.tb len s.wb))),
    (Instr.holdRelease, once (s.ev.c = 6 ∨ s.ev.c = 7)
        (s.setDom p slot { d with reqs := d.reqs.map (fun r => if r.kind = s.ev.c then { r with released := true } else r) })),
    (Instr.domainResume, match d.mode with
        | .frozen f => once (holdOver s p slot = true ∧ keepersDone s p slot = true) (s.setDom p slot { d with mode := .catchUp f s.wb })
        | _ => ⟨[], True⟩),
    (Instr.phaseCommit,
        let p := s.curPart
        let slot := s.slotOf s.curCore
        let d := s.dom p slot
        (match reportDue d s.curCore s.cur.now s.cur.phaseno.toNat with
        | some (ph, cy) => once (phaseAgrees d ph cy = true) (commitCore (commitDomain s p slot ph cy) p slot ph cy)
        | none => ⟨[], True⟩)),
    (Instr.phaseMismatch,
        let p := s.curPart
        let slot := s.slotOf s.curCore
        let d := s.dom p slot
        (match reportDue d s.curCore s.cur.now s.cur.phaseno.toNat with
        | some (ph, cy) =>
          let odd := ((taskCores d).find? (fun c => !reported d c ph cy)).getD 0
          once (phaseAgrees d ph cy = false)
            (takeTrap (s.setDom p slot { d with
                reports := d.reports.filter (fun r => !(r.1 == s.curCore && r.2.1 == ph && r.2.2 == cy))
                mismatch := d.mismatch ++ [(s.curCore, ph, cy)] }) 0x01 (0x010C + (odd % 32) * 2 ^ 16 + (odd / 32 % 8) * 2 ^ 25))
        | none => ⟨[], True⟩)),
    (Instr.phaseCancel, match d.mode, d.cancel with
        | .frozen f, some (t, cause) => once (stillRuns s p slot = false) (cancelPhase s p slot f t cause)
        | _, _ => ⟨[], True⟩),
    (Instr.recordChangeApply, ⟨[(True, s.setPart p (foldChanges q slot (earliestCycle s p slot)))], True⟩),
    (Instr.watchdogExpiry,
        let l := wdogLimit s p slot
        let u := countTrigger (sysEventOn s p 3) p
        let t := mapCtxs (if (domCtxs s p slot).any (fun x => handlerRuns x.2) then sysEventOn u p 4 else u) p slot (fun _ c => wdogStop c)
        once (d.task ≠ none ∧ (d.wdf = false ∨ d.wdWhich = 0) ∧ (l ≤ d.holdw ∨ l ≤ d.livew))
          (t.setDom p slot { requestHold (t.dom p slot) 13 (t.dom p slot).tb 0 s.wb with
            wdf := true, wdWhich := (if l ≤ d.holdw then 1 else 0) + (if l ≤ d.livew then 2 else 0) })),
    (Instr.contextSwitch, match q.runSlot with
        | none => ⟨[(True, switchSlots s p)], True⟩
        | some out =>
          let d := s.dom p out
          once (d.task = none ∨ ((∃ f, d.mode = .frozen f) ∧ inHandlerMode s p out = false ∧ stillRuns s p out = false ∧ d.cancel = none
              ∧ rowsClosed s p out = true))
            (switchSlots s p)),
    (Instr.restoreComplete,
        let slot := q.strSlot
        (match q.images.find? (areasHold s p slot) with
        | none => once (q.str = 2) (s.setPart p { q with str := 0, serr := true })
        | some img => ⟨[
            (q.str = 2 ∧ s.ev.c = 1, s.setPart p { q with str := 0, serr := true }),
            (q.str = 2 ∧ s.ev.c ≠ 1,
              let t := img.cores.foldl (fun s x => restoreCore s p slot x) s
              let e := img.engs.foldl (fun m x => NMap.set m ((x.1 + 128 * p) * 4 + slot) x.2) t.engSaved
              let u := { t with engSaved := e }.setDom p slot img.dom
              let r := putRecs (u.part p) slot img.recChecks img.changes img.merges
              u.setPart p { r with str := 0, serr := false, runSlot := if r.runSlot = some slot then none else r.runSlot })], True⟩))
  ]

/-! ### A core's cycle (R29, R31, R33, R63–R68, R215, R216, R236, R291–R296, R308, R322) -/

/-- A result, or the stop that it takes, as the state that follows: the stop is a trap of the current core. -/
def orStops (s : State) (r : Res State) : State :=
  match r with
  | .ok t => t
  | .error st => takeStop s st

/-- A word on its way to the current core meets its granule; one that stops the core aborts its run, and on a frozen core it stays. -/
def metBy (s : State) (x : Arrival) (frozenHere : Bool) (r : State × Option Stop) : State :=
  match r.2 with
  | none => noteBarrier r.1 x
  | some st => if frozenHere then s else takeStop (spoilRun r.1 x st) st

/-- The MCBASE that the current core issued on cycle `ev.a` to engine `ev.d`, and its place among the messages of the engine. -/
def baseOf (s : State) : Option (McMsg × Nat) :=
  (s.engOf s.ev.d).inbox.zipIdx.find? (fun m =>
    (m.1.fn == 2 || m.1.fn == mcbaseAccepted) && m.1.core == s.curCore && m.1.due == s.ev.a + 24)

/-- The events of a core's cycle: the current core, or the one that `a` names. -/
def coreEvents (s : State) : List (Instr × Happening) :=
  let c := s.cur
  let at' : State := { s with curCore := s.ev.a }
  let of' : State := { s with curCore := s.ev.a / 4 }
  [
    (Instr.segcntLate, once (c.seg.active = true ∧ c.seg.start + c.seg.cnt < c.now)
        (takeTrap s 0x06 ((c.now - c.seg.start) % 2 ^ 32 + 2 ^ 32))),
    (Instr.streamDrive, match c.strms.find s.ev.a with
        | none => ⟨[], True⟩
        | some st => once (st.wr = false ∧ st.due c.now = true) (orStops s (streamDrive s s.ev.a st))),
    (Instr.streamStore, match c.strms.find s.ev.a with
        | none => ⟨[], True⟩
        | some st => once (st.wr = true ∧ st.due c.now = true) (orStops s (streamStore s s.ev.a st))),
    (Instr.operandTap, ⟨[
        (s.ev.b = 0 ∧ ∃ x, c.cmds.find? (fun x => x.issue == s.ev.a) = some x,
          match c.cmds.find? (fun x => x.issue == s.ev.a) with
          | some x => orStops s (cmdTap s x)
          | none => s),
        (s.ev.b = 1 ∧ ∃ x, c.atomics.find? (fun x => x.issue == s.ev.a && x.issue + 1 == c.now) = some x,
          match c.atomics.find? (fun x => x.issue == s.ev.a && x.issue + 1 == c.now) with
          | some x => orStops s (atomicRead s x)
          | none => s),
        (2 ≤ s.ev.b ∧ ∃ m i, baseOf s = some (m, i) ∧ s.ev.a + 1 ≤ c.now ∧ c.now ≤ s.ev.a + mcbaseRows m.b,
          match baseOf s with
          | some (m, i) => orStops s (mcbaseRow s s.ev.d i m)
          | none => s)], True⟩),
    (Instr.resultPerform,
        let done : Res State := do
          let t ← performFlights s s.ev.a
          (t.cur.cmds.filter (fun x => x.issue == s.ev.a)).foldlM cmdFinish t
        ⟨[
        (s.ev.b = 1 ∧ ∃ x, c.atomics.find? (fun x => x.issue == s.ev.a && x.issue + 3 == c.now) = some x,
          match c.atomics.find? (fun x => x.issue == s.ev.a && x.issue + 3 == c.now) with
          | some x => orStops s (atomicWrite s x)
          | none => s),
        (s.ev.b = 0 ∧ ∃ t, done = .ok t, orStops s done)], s.ev.b = 1⟩),
    (Instr.factStep, match c.cmds.find? (fun x => x.issue == s.ev.a && x.station == 1) with
        | none => ⟨[], True⟩
        | some x =>
          let d := c.now - x.issue
          let n := (factSteps x).1
          let q := (factSteps x).2
          ⟨[
            (x.issue < c.now ∧ c.now ≤ x.last ∧ n ≠ 0 ∧ (d - 1) % q = 0, factRead s x (s.ev.c.testBit 2) ((d - 1) / q)),
            (x.issue < c.now ∧ c.now ≤ x.last ∧ n ≠ 0 ∧ (d - 1) % q ≠ 0 ∧ d % q = 0, factWrite s x (d / q - 1))], True⟩),
    (Instr.plainArrivalApply, match inboundAt at' s.ev.c with
        | none => ⟨[(True, at')], True⟩
        | some x => ⟨[
            (slotted at'.cur x.gran = false, metBy at' x (s.ev.d == 2) (plainApply at' s.ev.c x (s.ev.d == 1))),
            (slotted at'.cur x.gran = true, at')], True⟩),
    (Instr.reducingWriteApply, ⟨[
        (s.ev.d = 0 ∧ (∃ x, inboundAt at' s.ev.c = some x ∧ slotted at'.cur x.gran = true),
          match inboundAt at' s.ev.c with
          | some x => admitArrival at' s.ev.c x
          | none => at'),
        (s.ev.d ≠ 0 ∧ (∃ x p, (at'.core s.ev.a).waiting[s.ev.c]? = some x ∧ slotOfWord at'.cur x = some p),
          match (at'.core s.ev.a).waiting[s.ev.c]? with
          | some x => (match slotOfWord at'.cur x with
            | some p => metBy at' x (s.ev.d == 2) (reduceApply at' s.ev.c x p (s.ev.d == 1))
            | none => at')
          | none => at'),
        (s.ev.d ≠ 0 ∧ (∃ x, (at'.core s.ev.a).waiting[s.ev.c]? = some x ∧ slotOfWord at'.cur x = none ∧ admitSlot at'.cur x = none),
          match (at'.core s.ev.a).waiting[s.ev.c]? with
          | some x => dropWaiting at' s.ev.c x
          | none => at')], s.ev.a = s.curCore⟩),
    (Instr.loadLanding, ⟨[
        (s.ev.d = 0, landComes s s.ev.a s.ev.b false),
        (s.ev.d = 1 ∧ ∃ r, of'.cur.aus.find? (fun r => r.seqNo == s.ev.b && r.place == .performed && r.ahead != 1 && r.land != 0 && (r.op == .fill) == false) = some r,
          match of'.cur.aus.find? (fun r => r.seqNo == s.ev.b && r.place == .performed && r.ahead != 1 && r.land != 0 && (r.op == .fill) == false) with
          | some r => of'.setCur (auLand (noteGap of'.cur r.seqNo) r.seqNo (loadWordOf r) of'.cur.now)
          | none => s)], s.ev.a / 4 = s.curCore ∧ s.ev.d < 2⟩),
    (Instr.lineFillLanding, ⟨[
        (s.ev.d = 0, landComes s s.ev.a s.ev.b true),
        (s.ev.d = 1 ∧ ∃ r, of'.cur.aus.find? (fun r => r.seqNo == s.ev.b && r.place == .performed && r.ahead != 1 && r.land != 0 && (r.op == .fill) == true) = some r,
          match of'.cur.aus.find? (fun r => r.seqNo == s.ev.b && r.place == .performed && r.ahead != 1 && r.land != 0 && (r.op == .fill) == true) with
          | some r => orStops of' (landNow (of'.setCur (noteGap of'.cur r.seqNo)) r true)
          | none => s)], s.ev.a / 4 = s.curCore ∧ s.ev.d < 2⟩),
    (Instr.mcRdData, match moveAt s s.ev.c false with
        | some m => ⟨[(True, orStops s (rdLand s s.ev.c m))], True⟩
        | none => ⟨[], True⟩),
    (Instr.mcWrTake, match moveAt s s.ev.c true with
        | some m => ⟨[(True, orStops s (wrTake s s.ev.c m))], True⟩
        | none => ⟨[], True⟩),
    (Instr.mcstatPageWrite, match (s.engOf s.ev.a).inbox[s.ev.c]? with
        | some m => once (m.fn = 4 ∧ m.core = s.curCore ∧ m.due + 23 = c.now) (orStops s (pageLand s s.ev.a s.ev.c m))
        | none => ⟨[], True⟩)
  ]

/-! ### Paged memory (R305, R306, R311, R317, R318) -/

/-- A service window of a class is open at an engine. -/
def windowOpen (e : EngSt) (cls : Nat) : Prop := ∃ m till, e.svw = some (cls, m, till) ∧ e.now < till

/-- An engine serves paged requests: a class-0 window, or a scrub window while more than DEMTH wait (R317, R401). -/
def Serves (e : EngSt) : Prop :=
  e.frozen = none ∧ (windowOpen e 0
    ∨ (windowOpen e 1 ∧ bits ((e.scrubCfg.getD (BitVec.ofNat 64 (64 + 16 * 2 ^ 16))).toNat) 31 16 < e.queue.length))

/-- The events of paged memory. -/
def pagedEvents (s : State) : List (Instr × Happening) :=
  [
    (Instr.pagedRequestArrival, ⟨[
        (s.ev.d = 0, arriveAu s s.ev.a s.ev.b), (s.ev.d = 1, arriveExt s s.ev.a s.ev.b), (s.ev.d = 2, foreignReq s),
        (3 ≤ s.ev.d, foreignWord s)], True⟩),
    (Instr.pagedRequestPerform,
        let e := s.engOf s.ev.a
        let next := e.queue.find? (fun x => partTurn s s.ev.a x && partMasked s s.ev.a x && !partKept s s.ev.a x)
        ⟨[
          (s.ev.d = 0 ∧ Serves e ∧ ∃ x e1, next = some x ∧ partServe s s.ev.a x = some e1,
            match next with
            | none => s
            | some x => match partServe s s.ev.a x with
              | none => s
              | some e1 =>
                let t := alsoNew (s.setEngOf s.ev.a { e1 with queue := e1.queue.erase x, paged := min (e1.paged + 1) 0xFFFFFFFF }) (engDie s.ev.a) x
                if x.key ≠ 0 then match auReqOf t (x.key - 1) x.id with
                  | some r => performAu t (x.key - 1) r x.part
                  | none => t
                else match (t.die (engDie s.ev.a)).ext.find? (fun q => q.id == x.id) with
                  | some q => performExt t (engDie s.ev.a) q x.part
                  | none => t),
          (s.ev.d = 1, performFar s s.ev.a s.ev.b), (2 ≤ s.ev.d, performFarExt s s.ev.a s.ev.b)], True⟩),
    (Instr.spaceManagerAnswer, ⟨[
        (s.ev.d = 0, answerAu s s.ev.a (s.ev.c == 1)),
        (s.ev.d ≠ 0 ∧ s.ev.c = 1 ∧ ∃ q, (s.die s.ev.a).ext.find? (fun q => q.id == s.ev.b) = some q ∧ q.queued = false,
          match (s.die s.ev.a).ext.find? (fun q => q.id == s.ev.b) with
          | some q => failExt s s.ev.a q 0x0C 1
          | none => s)], True⟩),
    (Instr.migrCompletion, match auReqOf s s.ev.a s.ev.b with
        | none => ⟨[], True⟩
        | some r =>
          let c := s.ctxOf (s.ev.a / 4) (s.ev.a % 4)
          let stamped (st : Nat) : Ctx := { c with migrs := c.migrs ++ [(c.now, c.release + r.b0.toNat % 2 ^ 32, st, 0)] }
          ⟨[
            (r.op = .migr ∧ r.ahead ≠ 1 ∧ r.place = .performed,
              s.setCtx (s.ev.a / 4) (s.ev.a % 4) (auMod (stamped r.value) r.seqNo (fun x => { x with place := .landed }))),
            (r.op = .migr ∧ r.ahead ≠ 1 ∧ (r.place = .faulted ∨ r.place = .delivered) ∧ r.value = 0,
              s.setCtx (s.ev.a / 4) (s.ev.a % 4) (auMod (stamped 2) r.seqNo (fun x => { x with value := 2 })))], True⟩),
    (Instr.migrationLineCopy, match (s.die s.ev.a).migr.find? (fun m => m.page == s.ev.c) with
        | none => ⟨[], True⟩
        | some m =>
          let page : Page := ⟨m.page, m.big, 0, 0⟩
          let at' (frame l : Nat) : Nat := engOfLine s.ev.a page frame (l * 64)
          let ls := ((s.ev.data.map (fun i => m.page * 1024 + i)).filter (fun l => (migrLines m).contains l && !m.copied.contains l
            && (at' m.oldFrame l == s.ev.b || at' m.newFrame l == s.ev.b))).dedup
          let served := ls.foldl (copyStep s.ev.b page m) (s.engOf s.ev.b, m.taken, [])
          let mem := served.2.2.foldl (fun mem l => Memory.writeN mem (physAt s.ev.a page m.newFrame (l * 64))
            (Memory.readN mem 64 (physAt s.ev.a page m.oldFrame (l * 64)))) s.mem
          once (engDie s.ev.b = s.ev.a ∧ windowOpen (s.engOf s.ev.b) 2 ∧ (s.engOf s.ev.b).frozen = none)
            (({ s with mem := mem }.setEngOf s.ev.b served.1).setDie s.ev.a { s.die s.ev.a with
              migr := (s.die s.ev.a).migr.map (fun (x : Migr) => if x.page = m.page then { x with taken := served.2.1, copied := x.copied ++ served.2.2 } else x)
              pagePoison := served.2.2.foldl (fun marks l => match (s.die s.ev.a).pagePoison.find (lineOf page m.oldFrame (l * 64)) with
                | some tag => marks.set (lineOf page m.newFrame (l * 64)) tag
                | none => marks.erase (lineOf page m.newFrame (l * 64))) (s.die s.ev.a).pagePoison })),
    (Instr.migrationCopyEnd, match (s.die s.ev.a).migr.find? (fun m => m.page == s.ev.c) with
        | none => ⟨[], True⟩
        | some m =>
          let d := s.die s.ev.a
          let e := modEntry d m.page (fun w => putBits (putBits w 31 8 m.newFrame) 7 6 0) (putBits · 24 24 0)
          let page : Page := ⟨m.page, m.big, pteWord e m.page 0, pteWord e m.page 1⟩
          let here (x : Nat × Nat) : Bool := (queuedReq s s.ev.a x.1 x.2).any (fun r => page.holds (vaOff r.1))
          let t := s.setDie s.ev.a { e with
            migr := d.migr.filter (fun x => x.page != m.page), migrWait := d.migrWait.filter (fun x => !here x) }
          once (∀ l ∈ migrLines m, l ∈ m.copied)
            ((d.migrWait.filter here).foldl (fun s x => match queuedReq s s.ev.a x.1 x.2 with
              | some r => startMigr s s.ev.a x.1 x.2 r.1
              | none => s) (migrDone (requeue t s.ev.a page) s.ev.a m.key m.id 0)))
  ]

end Sys2Proof.Claims

/-- R19–R26, R382–R384, R404: the events of the launch unit and the ends of a task: each on its conditions, and nothing otherwise. A notify is served as its
wall cycle ends, and an unmap completes then: PNB, which a notify of that cycle sets too, is read, and set it is cleared and the queue is looked at again. LAUNCH takes the sections of the directory at the
packet's IMG, and one that cannot be read ends it with status 0x04; how a record is laid out is the model's choice (log 19). Where
these rules leave a time, an order or a value open, the effects are the model's choices (logs 3, 7, 19, 21, 22, 39, 63, 64, 76, 93). -/
def Obligations.LaunchEvents : Prop :=
  (∀ (s : State), ∀ x ∈ launchEvents s, Happens x.1 s x.2)
  ∧ ∀ (s : State) (p : Nat), (s.part p).unmapped = true →
      ((s.part p).pnb = true ∨ (s.part p).rung = true →
        doorbellTick s p = s.setPart p { s.part p with unmapped := false, rung := false, pnb := false, scanned := (s.part p).arrivals })
      ∧ ((s.part p).pnb = false → (s.part p).rung = false → doorbellTick s p = s.setPart p { s.part p with unmapped := false })

/-- R37–R43, R121, R184, R379–R381, R384, R392–R395: the events of a timed domain, and SAVE_COMPLETE, which waits for the slot's own
traffic and for the pages of its save areas, then writes each core's area, which holds its image's bytes, its granules and its tiles in this order, keeps
with the image what its bytes stand for, the slot's record state among it, and frees the slot. Where these rules leave an order or a value open, the effects are the model's choices (logs 18, 47, 54, 57, 83, 84). -/
def Obligations.DomainEvents : Prop :=
  (∀ (s : State), ∀ x ∈ domainEvents s, Happens x.1 s x.2)
  ∧ ∀ (s : State), (s.part s.ev.a).str = 1 → (s.parts.find s.ev.a).isSome = true → (s.part s.ev.a).strSlot < 2 →
      let slot := (s.part s.ev.a).strSlot
      let d := s.dom s.ev.a slot
      d.task ≠ none →
      (saveBusy s s.ev.a slot = true ∨ areasReady s s.ev.a slot (taskCores d) = false → exec .saveComplete s = .next s)
        ∧ (saveBusy s s.ev.a slot = false → areasReady s s.ev.a slot (taskCores d) = true →
          ∃ t img, exec .saveComplete s = .next t ∧ img.no = s.free
            ∧ t.mem = ((taskCores d).foldl (fun u c => writeVa u (saveArea (s.part s.ev.a) slot (c - 32 * s.ev.a))
                (imageBytes img.no (c - 32 * s.ev.a) ++ u.readSp c (4096 * (winSpan (s.ctxOf c slot)).1.1) (4096 * (winSpan (s.ctxOf c slot)).1.2)
                  ++ u.mem.readN (16384 * (winSpan (s.ctxOf c slot)).2.2) (accAddr c (16384 * (winSpan (s.ctxOf c slot)).2.1))))
                { s with free := s.free + 1 }).mem
            ∧ (t.part s.ev.a).str = 0 ∧ img ∈ (t.part s.ev.a).images
            ∧ img.dom = d ∧ img.cores = (taskCores d).map (savedCore s s.ev.a slot)
            ∧ img.recChecks = ((s.part s.ev.a).recChecks.filter (checkSlot slot)).map (fun x => (x.1 / 4, x.2)) ∧ (t.dom s.ev.a slot).task = none)

/-- R29, R31, R33, R63–R68, R215, R216, R236, R268, R291–R296, R308, R322: the events of a core's cycle: each has its effect, or the trap
that its checks take; without its conditions it changes nothing. Where these rules leave a cycle, an order or a value open, the effects are the model's
choices (logs 26, 33, 36, 37, 42, 66, 67, 68, 77, 92, 95). -/
def Obligations.CoreEvents : Prop := ∀ (s : State), ∀ x ∈ coreEvents s, Happens x.1 s x.2

/-- R217, R218, R227, R305, R306, R311, R317, R318: the events of paged memory. In a window of an engine the oldest waiting line whose turn has come,
in a bank of the window's groups, performs once its commands may issue; a migration copies the lines for which its window has room.
Where these rules leave an order open, and where in a channel a line lies, the effects are the model's choices (logs 34, 45, 69, 70, 86, 90, 91). -/
def Obligations.PagedEvents : Prop := ∀ (s : State), ∀ x ∈ pagedEvents s, Happens x.1 s x.2

namespace Sys2Proof.Claims
open Sys2Proof Sys2Proof.Machine

/-! ### Memory command engines (R220, R224–R236, R401) -/

/-- Every engine of a list changed where a condition on it holds. -/
def onEngines (s : State) (ns : List Nat) (p : Nat → EngSt → Bool) (f : Nat → EngSt → EngSt) : State :=
  { s with engs := ns.foldl (fun m n =>
    let e := NMap.getD m n EngSt.reset
    if p n e then NMap.set m n (f n e) else m) s.engs }

/-- The message named by `c`, of a function and due now. -/
def DueMsg (s : State) (fn : Nat) (m : McMsg) : Prop := s.eng.inbox[s.ev.c]? = some m ∧ m.fn = fn ∧ m.due = s.eng.now

/-- The engine's state with its message taken. -/
def taken (s : State) (f : EngSt → EngSt) : State := s.setEng (f { s.eng with inbox := s.eng.inbox.eraseIdx s.ev.c })

/-- The engine executes a table: STARTED or RUNNING. -/
def Executes (e : EngSt) : Prop := e.st = .started ∨ e.st = .running

/-- The keeper of a frozen engine owes a REFAB and may issue it; so does that of a slot that stands frozen and does not run (R226, R229). -/
def owesRefab (s : State) (n : Nat) (e : EngSt) : Bool :=
  (e.frozen.isSome && e.keeper == 1 && decide (0 < e.hw) && decide (e.busyTill ≤ s.wb)) || restRefab s n

/-- The events of the current engine, or of the one that `a` names. -/
def engineEvents (s : State) : List (Instr × Happening) :=
  let e := s.eng
  let n := s.curEng
  [
    (Instr.mcbindArrival, match e.inbox[s.ev.c]? with
        | none => ⟨[], True⟩
        | some m => once (DueMsg s 3 m) (taken s (fun e => e.setCursor (bits m.a 9 8) ⟨true, bits m.b 31 24, bits m.b 22 0⟩))),
    (Instr.mcbaseArrival, match e.inbox[s.ev.c]? with
        | none => ⟨[], True⟩
        | some m => ⟨[
            (DueMsg s 2 m ∧ e.busy = true, memTrap s 0x09 0 0 0 (some m.core)),
            (DueMsg s 2 m ∧ e.busy = false, s.setEng { e with inbox := e.inbox.modify s.ev.c (fun m => { m with fn := mcbaseAccepted }) }),
            (m.fn = mcbaseAccepted ∧ m.due + bits m.b 27 23 ≤ e.now ∧ m.words.length = 32 * (bits m.b 27 23 + 1),
              taken s (fun e => { e with table := (m.words.zipIdx).map (fun w => (w.2, w.1)), loaded := m.words.length, badWords := [] }))], True⟩),
    (Instr.mcstartArrival, match e.inbox[s.ev.c]? with
        | none => ⟨[], True⟩
        | some m => ⟨[
            (DueMsg s 0 m ∧ e.busy = true, memTrap s 0x09 0 0 0 (some m.core)),
            (DueMsg s 0 m ∧ e.busy = false, taken s (fun e => { e with
              st := .started, start := bits m.b 31 0, ctrl := m.core - 32 * engPart s n, pc := 0, first := true, wait := 0, ncmd := 0
              left0 := 0, left1 := 0, act0 := false, act1 := false, rdLog := [], stopping := false }))], True⟩),
    (Instr.mcstopArrival, match e.inbox[s.ev.c]? with
        | some m => ⟨[
            (DueMsg s 1 m, stopEngine (taken s id) n),
            (¬ DueMsg s 1 m ∧ e.stopping = true ∧ failing e.now (needPrea e) = none,
              s.setEng { closeAll e with st := .idle, stopping := false, pc := 0, left0 := 0, left1 := 0, act0 := false, act1 := false })], True⟩
        | none => once (e.stopping = true ∧ failing e.now (needPrea e) = none)
            (s.setEng { closeAll e with st := .idle, stopping := false, pc := 0, left0 := 0, left1 := 0, act0 := false, act1 := false })),
    (Instr.tableStart, ⟨[
        (e.st = .started ∧ e.stopping = false ∧ e.now = engTb0 s n + e.start ∧ e.loaded ≠ 0, s.setEng { e with st := .running }),
        (e.st = .started ∧ e.stopping = false ∧ e.now = engTb0 s n + e.start ∧ e.loaded = 0, memTrap s 0x09 0 0 0)], True⟩),
    (Instr.refreshTick, ⟨[
        (e.tREFI ≠ 0 ∧ (∃ t k, engTb0? s n = some t ∧ 0 < k ∧ e.now = t + k * e.tREFI) ∧ (∀ b, b < 16 → e.owe b + 1 ≤ (e.maxPost : Int)),
          s.setEng { e with owed := (List.range 16).foldl (fun m b => NMap.set m b (e.owe b + 1)) e.owed, ticks := e.ticks + 1 })],
        ∀ b, b < 16 → e.owe b + 1 ≤ (e.maxPost : Int)⟩),
    (Instr.standingRefresh, match tickOf (engTb0? s n) e.tREFIpb e.now with
        | none => ⟨[], True⟩
        | some k => once ((e.st = .idle ∨ e.st = .started) ∧ e.isOpen (k % 16) = false ∧ failing e.now (needRefpb e (k % 16)) = none
              ∧ tooFar e (k % 16) = false)
            (s.setEng { refreshBank s.wb e (k % 16) with standing := e.standing + 1 })),
    (Instr.svwEnd, match e.svw with
        | none => ⟨[], True⟩
        | some w => once (w.2.2 ≤ e.now) (s.setEng { e with svw := none })),
    (Instr.scrubStep,
        let x := s.engOf s.ev.a
        once (windowOpen x 1 ∧ x.frozen = none ∧ x.queue.length ≤ bits (scrubWord x) 31 16 ∧ scrubRoom s s.ev.a = true
            ∧ ∃ f, scrubServe x s.ev.data = some f)
          (match scrubServe x s.ev.data with
          | some f => scrubRow (s.setEngOf s.ev.a f) s.ev.a (windowMask x) (goodCols s.ev.data) (badCols s.ev.data)
          | none => s)),
    (Instr.keeperEntry, ⟨[(True, onEngines s s.ev.data (fun _ e => e.frozen.isSome && (e.keeper == 0 || e.keeper == 5))
        (fun _ e => { e with
          keeper := 1, saved := e.rows, busyTill := max e.busyTill (s.wb + closeTime e), svc := { e.svc with rows := e.rows }
          holds := if e.keeper = 0 then min (e.holds + 1) 0xFFFFFFFF else e.holds }))], True⟩),
    (Instr.keeperRefab, ⟨[
        (True, onEngines s s.ev.data
          (fun n e => owesRefab s n e || windowRefab s.wb e)
          (fun n e => { (if owesRefab s n e then e else windowPut e) with
            hw := max (e.hw - (e.tREFI : Int)) (-((e.maxPost * e.tREFI : Nat) : Int)), busyTill := s.wb + e.tRFCab
            refWall := s.wb + e.tRFCab }))], True⟩),
    (Instr.keeperScrubStep,
        let x := s.engOf s.ev.a
        let served := if x.frozen.isSome then some { x with busyTill := s.wb + scrubTime x (colsBack s.ev.data) } else scrubServe x s.ev.data
        once ((∃ f, served = some f) ∧ scrubRoom s s.ev.a = true
            ∧ ((x.busyTill ≤ s.wb ∧ x.frozen ≠ none ∧ x.keeper = 1 ∧ x.hw ≤ 0 ∧ holdOver s (engPart s s.ev.a) (engSlot s s.ev.a) = false)
              ∨ (x.frozen = none ∧ windowOpen x 3 ∧ windowRefabAt x = none)))
          (match served with
          | some f => scrubRow (s.setEngOf s.ev.a { f with scrub := f.scrub + 1 }) s.ev.a (if x.frozen.isSome then 15 else windowMask x)
              (goodCols s.ev.data) (badCols s.ev.data)
          | none => s)),
    (Instr.keeperReopen, ⟨[(True, onEngines s s.ev.data
        (fun n e => e.frozen.isSome && holdOver s (engPart s n) (engSlot s n)) (fun _ => reopenStep s.wb))], True⟩)
  ]

/-! ### The collective engine and the package (R344, R349, R355, R360, R361, R367, R403, R409, R411, R412) -/

/-- The events of the collective engine: `a` names the die. -/
def collectiveEvents (s : State) : List (Instr × Happening) :=
  let die := s.ev.a
  let e := s.cxe die
  [
    (Instr.collectiveRunStart, match nextStart s die with
        | none => ⟨[], True⟩
        | some w =>
          let t := s.setCxe die { e with waits := e.waits.erase w }
          once (e.runs.length < 8) (match portRead s w true 8 with
            | .ok _ => startRun t die w
            | .error st => stopStarter t w.core w.slot st)),
    (Instr.collectiveUnitArrival, match e.outbox[s.ev.b]? with
        | none => ⟨[], s.ev.d ≠ 1⟩
        | some (loc, u) =>
          let t := s.setCxe die { e with outbox := e.outbox.eraseIdx s.ev.b }
          -- the sender's run has progressed from the unit's receiver too (R355)
          let got (v : State) : State := match sendRun v die u with
            | some r => putRun v die { r with heard := r.heard.set (r.members.idxOf loc) s.wb }
            | none => v
          ⟨[
            (s.ev.d ≠ 1 ∧ locHere s loc = true ∧ bufferUnit t u = none, s),
            (s.ev.d ≠ 1 ∧ locHere s loc = true ∧ (∃ v, bufferUnit t u = some v), got ((bufferUnit t u).getD s)),
            (s.ev.d ≠ 1 ∧ locHere s loc = false, got t)], s.ev.d ≠ 1⟩),
    (Instr.mcastUnitArrival, match e.units[s.ev.b]? with
        | none => ⟨[], True⟩
        | some u => match u.slot, unitRun s die u with
          | some z, some r =>
            let d := r.desc z
            let bad : Prop := r.ns ≤ z ∨ d.kind ≠ 0 ∨ d.cw = 0 ∨ r.n ≤ u.chunk ∨ isIntFmt u.wfmt ≠ isIntFmt d.fmt
            let v := narrowAll u.wfmt d.fmt u.data
            let r1 := { countSat r v.2 with
              mcDone := r.mcDone + 1, taken := r.taken ++ [(u.sender, u.seqNo)]
              mcFrom := r.mcFrom.set u.sender (r.mcFrom.getD u.sender 0 + 1) }
            let t := runWrite (dropUnit s die u) die r1 z u.chunk v.1 u.poison
            ⟨[
              (unitFirst s die r u = true ∧ ¬ bad, putRun t.1 die t.2),
              (unitFirst s die r u = true ∧ bad, abortRun s die r 0x03)], True⟩
          | _, _ => ⟨[], True⟩),
    (Instr.abortUnitArrival, match e.outAborts[s.ev.b]? with
        | none => ⟨[], s.ev.d ≠ 1⟩
        | some (loc, g, ep, st, o, born) =>
          let t := s.setCxe die { e with outAborts := e.outAborts.eraseIdx s.ev.b }
          let old := oldInstall t (loc % 256 / 32) g born
          ⟨[
            (s.ev.d ≠ 1 ∧ locHere s loc = true ∧ old = false, abortArrives t (loc % 256) g ep st o),
            (s.ev.d ≠ 1 ∧ (locHere s loc = false ∨ old = true), t)], s.ev.d ≠ 1⟩),
    (Instr.collectiveTimeout, match runOf s die s.ev.b with
        | none => ⟨[], True⟩
        | some r => once (∃ q ∈ waitsForMember s die r, max r.lastWb (r.heard.getD q 0) + coltoOf (s.part (s.partOfDie die)) ≤ s.wb)
            (abortRun s die r 0x02)),
    (Instr.colabortArrival, match e.stops with
        | [] => ⟨[], True⟩
        | g :: rest =>
          let t := s.setCxe die { e with stops := rest }
          ⟨[(True, match runOf t die g with | some r => abortRun t die r 0x01 | none => t)], True⟩),
    (Instr.collabort, match e.colaborts[s.ev.b]? with
        | none => ⟨[], True⟩
        | some (key, info) => once (canTake s (key / 4) (key % 4) = true)
            (deliverTrap (s.setCxe die { e with colaborts := e.colaborts.eraseIdx s.ev.b }) (key / 4) (key % 4) 0x16 info))
  ]

/-- The end of a run by an abort with a STATUS from its own rank, at an engine that awaits no answer for it: abort units to its other members, its units
dropped, its record with the STATUS, and COLLABORT to the context where the run asks for traps (R356, R360, R361). -/
def endedBy (s : State) (die : Nat) (r : Run) (st : Nat) : State :=
  let x : Run := { r with status := st, aborted := true, active := false, undelivered := 0 }
  let e := s.cxe die
  let label (u : ColUnit) : Bool := u.group == r.group && u.epoch == r.epoch
  let t := s.setCxe die { e with
    outAborts := e.outAborts ++ (r.members.filter (fun l => l != locOf s r.core)).map (fun l => (l, r.group, r.epoch, st, r.rank, r.born))
    units := e.units.filter (fun u => !(label u && u.dest == r.core))
    outbox := e.outbox.filter (fun p => !(label p.2 && p.2.sender == r.rank))
    runs := e.runs.filter (fun y => y.group != r.group)
    ended := e.ended.set (r.slot * 64 + r.group) x }
  let u := match r.recSlot with
    | none => t
    | some z => portWrite t die x (x.desc z).addr (some (x.desc z).tag) (recordBytes x ++ List.replicate 64 0#8) none none
  if r.trap then
    let f := u.cxe die
    u.setCxe die { f with colaborts := f.colaborts ++
      [(ctxKey r.core r.slot, r.group + st * 2 ^ 8 + r.rank * 2 ^ 16 + (r.nword % 2 ^ 32) * 2 ^ 32)] }
  else u

/-- The run of a group whose units a link has lost ends with STATUS 0x02; one that an abort has ended already keeps that one's (R355, R409). -/
def unitsLost (s : State) (die g : Nat) : State :=
  match (s.cxe die).runs.find? (fun r => r.group == g) with
  | none => s
  | some r => if r.aborted then endRun s die { r with undelivered := 0 } else endedBy s die r 2

/-- Data in pairs. -/
def pairsOf : List Nat → List (Nat × Nat)
  | a :: b :: xs => (a, b) :: pairsOf xs
  | _ => []

/-- The events of the package. -/
def packageEvents (s : State) : List (Instr × Happening) :=
  let l := s.pkg.links.getD s.ev.a ⟨false, 16, 0⟩
  let withLink (l : LinkSt) : State := { s with pkg := { s.pkg with links := s.pkg.links.set s.ev.a l } }
  [
    (Instr.systemEvent,
        let x := s.syss.getD s.ev.a SysSt.reset
        once (x.running = true ∧ x.inEvent = false ∧ x.sevt &&& x.seven ≠ 0 ∧ x.guard = none ∧ x.req = none ∧ x.ans = none)
          { s with syss := s.syss.set s.ev.a { x with sepc := x.pc, pc := x.svec, inEvent := true, halted := false } }),
    (Instr.boot, once (s.pkg.boot = .off ∧ s.pkg.powerCut = false)
        (bootRun { s with pkg := { s.pkg with pkg := s.ev.d % 64 } } s.ev.data (s.ev.c == 1))),
    (Instr.recoveryImage, once (s.pkg.boot = .recovery ∧ s.pkg.powerCut = false) (bootRun s s.ev.data (s.ev.c == 1))),
    (Instr.linkFlitRetry, ⟨[
        (l.up = true ∧ l.retries < 8 ∧ s.ev.d = 1, withLink { l with retries := 0 }),
        (l.up = true ∧ l.retries < 8 ∧ s.ev.d ≠ 1, withLink { l with retries := l.retries + 1 })], True⟩),
    (Instr.linkLaneLoss, once (l.up = true) (withLink { l with lanes := 8 })),
    (Instr.linkDown, ⟨[
        (l.up = true ∧ l.retries = 8,
          (pairsOf s.ev.data).foldl (fun t x => unitsLost t x.1 x.2) (s.parts.foldl (fun t p => sysEventOn t p.1 7) (withLink { l with up := false })))],
        True⟩),
    (Instr.powerSample, ⟨[
        (s.wb % 65536 = 0 ∧ s.pkg.boot = .running ∧ ∃ d, d < 8 ∧ 125 ≤ bits (Config.therm s.wb).toNat (8 * d + 7) (8 * d),
          { State.reset with wb := s.wb, free := s.free, pkg := { State.reset.pkg with powerCut := true } }),
        (s.wb % 65536 = 0 ∧ s.pkg.boot = .running ∧ ∀ d, d < 8 → bits (Config.therm s.wb).toNat (8 * d + 7) (8 * d) < 125,
          powerAct s (Config.therm s.wb) (Config.power s.wb))], True⟩)
  ]

end Sys2Proof.Claims

/-- R220, R224–R236, R400, R401: the events of a memory command engine; a refresh tick that would pass MAXPOST is MEMTIME 0x03. Where
these rules leave a wall time or an order open, the time of a scrub step among them, the effects are the model's choices (logs 38, 39, 40, 43, 44, 81, 83, 97). -/
def Obligations.EngineEvents : Prop :=
  (∀ (s : State), ∀ x ∈ engineEvents s, Happens x.1 s x.2)
  ∧ ∀ (s : State) (t k b : Nat), s.eng.tREFI ≠ 0 → engTb0? s s.curEng = some t → 0 < k → s.eng.now = t + k * s.eng.tREFI → b < 16 →
      (s.eng.maxPost : Int) < s.eng.owe b + 1 → (∀ a, a < b → s.eng.owe a + 1 ≤ (s.eng.maxPost : Int)) →
      exec .refreshTick s = .next (memTrap s 0x03 0 b 0)

/-- R344, R349, R355, R360, R361, R367: the events of the collective engine. Where these rules leave an order open, the model's choices
are logs 31, 41, 51, 73, 101. -/
def Obligations.CollectiveEvents : Prop := ∀ (s : State), ∀ x ∈ collectiveEvents s, Happens x.1 s x.2

namespace Sys2Proof.Claims
open Sys2Proof Sys2Proof.Machine

/-- The temperature of die `d` in THERM. -/
def tempOf (t : Word) (d : Nat) : Nat := bits t.toNat (8 * d + 7) (8 * d)

/-- A sample finds a die above THOLD, the package above PLIM, or a die at the temperature of the trip (R412). -/
def IsHot (s : State) (t : Word) : Prop := ∃ d, d < 8 ∧ s.pkg.thold < tempOf t d
def IsHigh (s : State) (w : Word) : Prop := s.pkg.plim < w.toNat % 2 ^ 32
def Trips (t : Word) : Prop := ∃ d, d < 8 ∧ 115 ≤ tempOf t d

end Sys2Proof.Claims

/-- R403, R405, R409, R411, R412: events of system cores, boot and recovery, links and power; what a power sample leads to: DUTY falls by 1
while hot or over PLIM, no lower than 0, and rises by 1 to at most 16 once cool; every running domain gets a thermal hold request, of KIND
6, where a die is hot, and a power hold request, of KIND 7, where the package is over PLIM; at 115 °C every running domain gets the
thermal one and every system core of every partition SEVT bit 6, which no other sample sets. A link that goes down sets SEVT bit 7, and each run whose units
it loses ends with STATUS 0x02, in its record and in COLLABORT, without the answers of its paged writes (R355); which runs those are, the event names. Where these rules leave a value open, the
model's choices are logs 11, 49, 50, 51. -/
def Obligations.PackageEvents : Prop :=
  (∀ (s : State), ∀ x ∈ packageEvents s, Happens x.1 s x.2)
  ∧ ∀ (s : State) (t w : Word),
      let cool : Prop := (∀ d, d < 8 → tempOf t d + 3 ≤ s.pkg.thold) ∧ 100 * (w.toNat % 2 ^ 32) ≤ 95 * s.pkg.plim
      let u := powerAct s t w
      u.pkg.therm = t ∧ u.pkg.pwr = w
        ∧ (IsHot s t ∨ IsHigh s w → u.pkg.duty = s.pkg.duty - 1)
        ∧ (¬ (IsHot s t ∨ IsHigh s w) → cool → u.pkg.duty = min 16 (s.pkg.duty + 1))
        ∧ (¬ (IsHot s t ∨ IsHigh s w) → ¬ cool → u.pkg.duty = s.pkg.duty)
        ∧ (∀ p r, (s.parts.map (·.1)).Nodup → (s.parts.find p).isSome = true → (s.part p).runSlot = some r → (s.dom p r).task ≠ none →
            let d := s.dom p r
            let warm : Prop := IsHot s t ∨ Trips t
            let held (kind : Nat) (d : Domain) : Domain := requestHold d kind d.tb 48 s.wb
            (warm → ¬ IsHigh s w → u.dom p r = held 6 d) ∧ (¬ warm → IsHigh s w → u.dom p r = held 7 d)
              ∧ (warm → IsHigh s w → u.dom p r = held 7 (held 6 d)) ∧ (¬ warm → ¬ IsHigh s w → u.dom p r = d))
        ∧ (Trips t → ∀ p k, (s.parts.find p).isSome = true → k < 2 * (s.part p).size →
            ((u.syss.getD (2 * p + k) SysSt.reset).sevt).testBit 6 = true)
        ∧ (¬ Trips t → u.syss = s.syss)

namespace Sys2Proof.Claims
open Sys2Proof Sys2Proof.Machine

/-! ## Fetching, decoding and the words of the encoding -/

/-- A core that executes handler code may execute its next instruction: its slot runs, no fault has stopped the handler and no word of
control storage that it reads fails (R374, R375, R397). -/
def HandlerRuns (s : State) (n : Nat) : Prop :=
  let t := { s with curCore := n, onSys := false }
  (t.core n).slotRun ≠ none ∧ t.cur.handler = true ∧ t.cur.hfault.getLsbD 8 = false ∧ t.cur.badWord = false

/-- A core outside handler mode issues the word at its pc on the present cycle, before which nothing of the cycle stands: no segment is
late, no trap is delivered, no WR takes data, no word of control storage fails, nothing that came in a hold comes again, it is past SLATH, not halted and its word is due (R25,
R27, R29, R37, R357, R397). -/
def WordDue (s : State) (n : Nat) : Prop :=
  let t := { s with curCore := n, onSys := false }
  (t.core n).slotRun ≠ none ∧ t.cur.handler = false ∧ t.cur.frozen = none ∧ t.cur.slathed = true ∧ t.cur.slathPend = false
    ∧ t.cur.halted = none ∧ issueCycle t ≤ t.cur.now ∧ (t.cur.seg.active = true → t.cur.now ≤ t.cur.seg.start + t.cur.seg.cnt)
    ∧ (t.core n).moves = [] ∧ stampedDue t = none ∧ t.cur.badWord = false
    ∧ (∀ r ∈ t.cur.aus, r.gap = false) ∧ (∀ x ∈ (t.core n).inbound, x.gap = false)

/-- A system core executes the word at its pc: it runs, is not halted, and takes no event now (R403). -/
def SystemRuns (s : State) (n : Nat) : Prop :=
  let x := s.syss.getD n SysSt.reset
  x.running = true ∧ x.halted = false ∧ (sysEventDue x = false ∨ x.inEvent = true ∨ sysBetween x = false)

/-- A frozen or stopping engine aside, the word at the PC of engine `n` is due, before which nothing of the cycle stands: no message waits, no
window is open, no refresh falls due, the word has its parity (R211, R220, R224, R397). -/
def EngineWordDue (s : State) (n : Nat) : Prop :=
  let t := { s with curEng := n, onSys := false }
  let e := t.eng
  e.frozen = none ∧ e.st = .running ∧ e.stopping = false ∧ e.inbox = [] ∧ e.svw = none ∧ tickOf (engTb0? t n) e.tREFI e.now = none
    ∧ wordDue e (engTb0 t n) = e.now ∧ e.pc ∉ e.badWords

/-- Scalar instructions of formats R, I and U (R75, R76, R82). -/
def isScalar (i : Instr) : Bool := (scalarOf 0 0 i).isSome

end Sys2Proof.Claims

/-- R87, R211, R344, R374, R403: a step runs the instruction that the bytes at the pc decode to. Handler code and a system core: the step is
exec of it, and exec alone moves the pc. A core's word that is due: exec of it, once the extension word of the cycle before has entered
the signature; then what the rest of the cycle adds, or, where the word traps or waits, that stop ranked among the cycle's. A
collective run: exec of the word at its PC. An engine's word that is due: exec of it, then the engine's next cycle, or, where the word
takes MEMTIME, the engine TRAPPED as it stood before. An event that comes next: exec of it with its
argument. The order of agents within a wall cycle and the pace of handler code are the model's choice (logs 4, 5, 10). -/
def Obligations.StepRunsDecoded : Prop :=
  (∀ (s : State) (n k : Nat) (rest : List Agent) (i : Instr), s.agenda = [] → s.todo = .core n :: rest → HandlerRuns s n →
    let t := { s with todo := rest, curCore := n, onSys := false }
    decode false (fetchWords t) = .ok i k → step s = exec i t)
  ∧ (∀ (s u : State) (n k : Nat) (rest : List Agent) (i : Instr), s.agenda = [] → s.todo = .core n :: rest → WordDue s n →
    let t := { s with todo := rest, curCore := n, onSys := false }
    decode false (fetchWords t) = .ok i k → exec i (enterSig t) = .next u →
      step s = .next (afterWord t (if u.cur.frozen = none then ⟨u, []⟩ else ⟨enterSig t, [(wordRank u.cur, wordFinal t u)]⟩)))
  ∧ (∀ (s : State) (n k : Nat) (rest : List Agent) (i : Instr), s.agenda = [] → s.todo = .sys n :: rest → SystemRuns s n →
    let t := { s with todo := rest, curSys := n, onSys := true }
    decode true (fetchSysWords t) = .ok i k → step s = exec i t)
  ∧ (∀ (s : State) (d g : Nat) (rest : List Agent) (i : Instr) (r : Run), s.agenda = [] → s.todo = .cxe d g :: rest → runOf s d g = some r →
    r.aborted = false → decodeCx (r.words.getD r.pc 0) = some i → step s = exec i { s with todo := rest, curDie := d, curGroup := g, onSys := false })
  ∧ (∀ (s u : State) (n w : Nat) (rest : List Agent) (i : Instr), s.agenda = [] → s.todo = .eng n :: rest → EngineWordDue s n →
    let t := { s with todo := rest, curEng := n, onSys := false }
    let t0 := t.setEng t.eng
    tableAt t.eng t.eng.pc = some w → decodeMc w = some i → exec i { t0 with ev := EvArg.none } = .next u →
      step s = .next (if u.eng.frozen = none then engEnd u else engTrapped t0 u))
  ∧ (∀ (s : State) (i : Instr) (a : EvArg) (rest : List (Instr × EvArg)), s.agenda = (i, a) :: rest →
    step s = exec i { s with agenda := rest, ev := a })

/-- R87, R88 and the table of neighbouring encodings after R91: words that are no instruction, each with its REASON and WORD: a reserved major,
a reserved minor, an unknown vector format, an idle count on a guarded word or on SLATH, a pair at an odd queue; major 0x3B on a
compute core. A core that comes to such a word takes ILLEGAL class 0x01 with them in EINFO, but for a SEG that is late or a SEGEND that is early or late:
where only a field of theirs is wrong, SEGLATE or SEGCNT ranks first (R89). -/
def Obligations.IllegalEncodings : Prop :=
  (∀ m ∈ [0x2C, 0x2D, 0x2E, 0x2F, 0x33, 0x36, 0x37, 0x3C, 0x3D, 0x3E, 0x3F], ∀ h, h < 8 → ∀ w, w < 2 ^ 23 → ∀ rest,
    decode false ((h * 2 ^ 29 + m * 2 ^ 23 + w) :: rest) = .illegal 1 0 (h * 2 ^ 29 + m * 2 ^ 23 + w))
  ∧ (∀ h, h < 8 → ∀ w, w < 2 ^ 23 → ∀ rest,
    decode false ((h * 2 ^ 29 + 0x3B * 2 ^ 23 + w) :: rest) = .illegal 7 0 (h * 2 ^ 29 + 0x3B * 2 ^ 23 + w))
  ∧ (∀ rest, decode false (0x08104A00 :: rest) = .illegal 5 0 0x08104A00)
  ∧ (∀ rest, decode false (0x0C001882 :: 0x00080005 :: rest) = .illegal 2 0 0x0C001882)
  ∧ (∀ rest, decode false (0x13141135 :: rest) = .illegal 3 0 0x13141135)
  ∧ (∀ rest, decode false (0x09182C00 :: 0x48105200 :: rest) = .illegal 6 4 0x48105200)
  ∧ (∀ rest, decode false (0x2B800001 :: rest) = .illegal 4 0 0x2B800001)
  ∧ (∀ (s : State) (reason word raw : Nat), decode false (fetchWords s) = .illegal reason word raw →
      s.cur.badWord = false → segStop s = none → runWord s = .next (takeTrap s 0x01 (0x01 + reason * 2 ^ 8 + word * 2 ^ 16 + (raw % 2 ^ 32) * 2 ^ 32)))
  ∧ (∀ (s : State) (reason word raw a b : Nat) (f : FSeg), decode false (fetchWords s) = .illegal reason word raw → s.cur.badWord = false →
      firstWord ((fetchWords s).headD 0) ((fetchWords s).drop 1) = .row a b (.seg f) → s.onSys = false → s.cur.seg.active = false →
      s.cur.handler = false → f.opn = false → s.cur.release + f.off.toNat < s.cur.now →
      runWord s = .next (takeTrap s 0x08 ((s.cur.now - (s.cur.release + f.off.toNat)) % 2 ^ 32)))
  ∧ (∀ (s : State) (reason word raw a b : Nat), decode false (fetchWords s) = .illegal reason word raw → s.cur.badWord = false →
      firstWord ((fetchWords s).headD 0) ((fetchWords s).drop 1) = .row a b .segend → s.onSys = false → s.cur.seg.active = true →
      s.cur.handler = false → s.cur.seg.opn = false → s.cur.now ≠ s.cur.seg.start + s.cur.seg.cnt →
      runWord s = .next (takeTrap s 0x06 ((s.cur.now - s.cur.seg.start) % 2 ^ 32)))

/-- The worked encodings after R91: the words of the program of chapter 1 and the two example lines decode to the instructions that the
spec writes beside them. -/
def Obligations.DecodeSpecWords : Prop :=
  decode false [0x0B800001] = .ok .slath 1
    ∧ decode false [0x0B000000, 0x20, 1, 0x12345678] = .ok (.seg ⟨false, 0x20, 1, 0x12345678⟩) 4
    ∧ decode false [0x0C001880, 0x00080005] = .ok (.openS ⟨0, 3, 4, false, false, false, 0, 8, 5⟩) 2
    ∧ decode false [0x0C082100, 0x800B0005] = .ok (.openS ⟨1, 4, 8, false, false, true, 0, 11, 5⟩) 2
    ∧ decode false [0x1214112D] = .ok (.vdot ⟨5, 0, 17, 5⟩) 1
    ∧ decode false [0x1028A603] = .ok (.vadd ⟨10, 5, 6, 3⟩) 1
    ∧ decode false [0x0C800000] = .ok (.close ⟨0⟩) 1
    ∧ decode false [0x33A1B803] = .ok (.vtoq ⟨8, 0, 13, 3, 0, 3⟩) 1
    ∧ decode false [0x0B800000] = .ok .segend 1
    ∧ decode false [0x3D000007] = .ok .halt 1
    ∧ decode false [0x608A30F0] = .ok (.add ⟨5, 6, 7, true, false⟩) 1
    ∧ decode false [0x09182C00, 0x08105200] = .ok (.grd ⟨12, 5, true⟩) 1
    ∧ decode false [0x08105200] = .ok (.mov ⟨8, 10, 1, false⟩) 1

/-- R73, R75, R76, R82, R209, R347: decode and encode agree. Every scalar instruction, with every operand at every value and every idle
count, is read back from its word, whatever follows; the word keeps the idle count in bits [31:29]. So is every well-formed
word of a memory command table, with its delay in bits [31:24], and every well-formed collective word. -/
def Obligations.EncodingRoundTrip : Prop :=
  (∀ (i : Instr) (h : Nat) (rest : List Nat), isScalar i = true → h < 8 →
    decode false (encode h i ++ rest) = .ok i 1 ∧ ∃ w, encode h i = [w] ∧ w < 2 ^ 32 ∧ w / 2 ^ 29 = h)
  ∧ (∀ (i : Instr) (h : Nat), isMcWord i = true → WellFormed i → h < 256 →
    ∃ w, encode h i = [w] ∧ w < 2 ^ 32 ∧ w / 2 ^ 24 = h ∧ decodeMc w = some i)
  ∧ (∀ (i : Instr) (h : Nat), isCxWord i = true → WellFormed i → ∃ w, encode h i = [w] ∧ w < 2 ^ 32 ∧ decodeCx w = some i)

/-- What reset leaves (R21, R22, R43, R202, R237, R243, R274, R313, R369, R375, R378, R403, R412 and the Reset columns of their tables): the registers
to which the spec gives a reset value hold it in every context; a launch sets them again; the timing fields, the system
cores' registers and the power limits hold theirs; the package has not booted. The memory of the state after reset is in canonical
form. That a launch keeps the layout, footprint and time-slot tables and the lost parity of their words, CTXWIN and AUKEY, which the
launch does not set, is the model's choice (log 19). What the spec gives no reset value is log 1's choice and not stated here. -/
def Obligations.ResetValues : Prop :=
  (∀ core slot, core < 256 → slot < 3 →
    (∀ n ∈ [0x00, 0x01, 0x02, 0x03, 0x04, 0x09, 0x35, 0x40, 0x41, 0x42, 0x43, 0x60, 0x61, 0x62, 0x63, 0x64, 0x65, 0x66, 0x67, 0x68, 0x69, 0x6A,
        0x80, 0x87, 0xA0, 0xA1, 0xA2, 0xA3, 0xA4], csrRead State.reset core slot n = 0)
      ∧ csrRead State.reset core slot 0x6B = 0x3F800000 ∧ csrRead State.reset core slot 0x36 = 0x00007F0007FF0000
      ∧ ∀ i, i < 64 → ((csrRead State.reset core slot (0x81 + 6 * i / 64)).toNat / 2 ^ (6 * i % 64)
          + 2 ^ (64 - 6 * i % 64) * (csrRead State.reset core slot (0x82 + 6 * i / 64)).toNat) % 64 = i)
  ∧ (∀ (c : Ctx) (tb mode : Nat) (dmr : Word),
      let d := launchCtx c tb mode dmr
      d.mode = BitVec.ofNat 64 (mode % 16) ∧ d.dmr = dmr ∧ d.phaseno = 0 ∧ d.ssn = 0 ∧ d.cause = 0 ∧ d.epc = 0 ∧ d.etb = 0 ∧ d.einfo = 0
        ∧ d.tvec = 0 ∧ d.hfault = 0 ∧ d.frm = 0 ∧ d.vrm = 0 ∧ d.vflags = 0 ∧ d.dqscale = 0x3F800000 ∧ d.pc = 0 ∧ d.q = [] ∧ d.w = [] ∧ d.h = []
        ∧ d.strms = [] ∧ d.flags = [] ∧ d.layout = c.layout ∧ d.foot = c.foot ∧ d.slots = c.slots ∧ d.badTab = c.badTab
        ∧ d.ctxwin = c.ctxwin ∧ d.aukey = c.aukey)
  ∧ (∀ n, let e := State.reset.engOf n
      (e.tRCD, e.tRP, e.tRAS, e.tRC) = (36, 36, 80, 116) ∧ (e.tRRDS, e.tRRDL, e.tFAW, e.tCCDS) = (4, 6, 32, 2)
        ∧ (e.tCCDL, e.tWR, e.tWTRS, e.tWTRL) = (4, 36, 8, 20) ∧ (e.tRTW, e.tRTP, e.tRFCab, e.tRFCpb) = (14, 8, 840, 400)
        ∧ (e.tREFI, e.tREFIpb, e.rlBase, e.wlBase) = (9360, 585, 52, 12) ∧ e.arena = 0 ∧ e.maxPost = 8 ∧ e.st = .idle)
  ∧ State.reset.pkg.boot = .off ∧ State.reset.pkg.thold = 100 ∧ State.reset.pkg.plim = 3200
  ∧ State.reset.mem.wf = true

/-! ## Memory -/

/-- The memory keeps its canonical form: every step from a state that has it, in whatever state the rest of the machine is, leaves a
state that has it (the model's own invariant, log 2). -/
def Obligations.MemoryInvariant : Prop := ∀ s t : State, s.Inv → step s = .next t → t.Inv

namespace Sys2Proof.Claims
open Sys2Proof Sys2Proof.Machine

/-- The instructions and events that may change a byte of memory: the writes of the accumulator store at issue, the events that store, land, move or
copy, the ends of a task with their record and the loads of a launch or a boot. -/
def writesMemory : Instr → Bool
  | .accwr _ | .accz _ => true
  | .ctxswSwitch _ | .ctxswSave _ | .ctxswRestore _ | .ctxswRelease _ | .ctxswEnd _ | .ctxswHold _ => true
  | .mcWr _ | .boot | .recoveryImage | .launch | .taskCompletion | .factStep | .loadLanding | .lineFillLanding | .mcRdData | .mcWrTake
  | .mcstatPageWrite | .migrationLineCopy | .pagedRequestPerform | .phaseCancel | .plainArrivalApply | .reducingWriteApply
  | .restoreComplete | .resultPerform | .saveComplete | .streamStore => true
  | _ => false

end Sys2Proof.Claims

/-- R33, R64, R215, R287, R292, R309, R317: no instruction and no event but those named changes a byte of memory: what an instruction stores, it stores
through its later events. -/
def Obligations.MemoryFrame : Prop :=
  ∀ (i : Instr) (s t : State), writesMemory i = false → i ≠ .powerSample → exec i s = .next t → t.mem = s.mem

/-! ## Floating scalar instructions -/

/-- R107, R108: every floating scalar instruction completes with its result rounded by FRM and with its flags. On a compute core FRM is the
context's; that a system core rounds by an FRM of its own, and ORs the flags into a VFLAGS of its own, is the model's choice (log 71). -/
def Obligations.FloatResults : Prop :=
  ∀ (i : Instr) (s : State) (x : Scalar), isFloat i = true →
    (s.onSys = false → scalarOf (frmCode s.cur.frm) 0 i = some x → CompletesAs i s x)
      ∧ (s.onSys = true → scalarOf (frmCode s.sys.frm) 0 i = some x → CompletesAs i s x)
end

