-- ==== Sys2Proof/Laws/Memory.lean ====
section
/-! SUPPORT. The laws of memory: reads after writes, and that every operation keeps the canonical form. -/

namespace Sys2Proof.Machine

/-! ## The canonical form -/

theorem Memory.wfFrom_mono (m : Memory) (lo lo' : Nat) (h : Memory.wfFrom lo m = true) (hl : lo' ≤ lo) :
    Memory.wfFrom lo' m = true := by
  cases m with
  | nil => rfl
  | cons p rest =>
    obtain ⟨a, b⟩ := p
    simp only [Memory.wfFrom, Bool.and_eq_true, decide_eq_true_eq] at h ⊢
    exact ⟨⟨by omega, h.1.2⟩, h.2⟩

theorem Memory.wfFrom_write (m : Memory) (lo k : Nat) (v : Byte) (h : Memory.wfFrom lo m = true) (hk : lo ≤ k) :
    Memory.wfFrom lo (Memory.write m k v) = true := by
  induction m generalizing lo with
  | nil =>
    by_cases hv : v = memDefault <;> simp [Memory.write, Memory.wfFrom, hv, hk]
  | cons p rest ih =>
    obtain ⟨a, b⟩ := p
    have h0 := h
    simp only [Memory.wfFrom, Bool.and_eq_true, decide_eq_true_eq] at h
    by_cases h1 : k = a
    · subst h1
      by_cases hv : v = memDefault
      · simpa [Memory.write, hv] using Memory.wfFrom_mono rest (k + 1) lo h.2 (by omega)
      · simp [Memory.write, Memory.wfFrom, hv, hk, h.2]
    · by_cases h2 : k < a
      · by_cases hv : v = memDefault
        · simpa [Memory.write, h1, h2, hv] using h0
        · have h3 : Memory.wfFrom (a + 1) rest = true := h.2
          have h4 := h.1.2
          simp [Memory.write, Memory.wfFrom, h1, h2, hv, hk, h3] at h4 ⊢
          exact h4
      · have h3 := ih (a + 1) h.2 (by omega)
        have h4 := h.1
        simp [Memory.write, Memory.wfFrom, h1, h2, h3] at h4 ⊢
        exact h4

/-- Writing a byte keeps the canonical form. -/
theorem Memory.wf_write (m : Memory) (k : Nat) (v : Byte) (h : m.wf = true) : (m.write k v).wf = true :=
  Memory.wfFrom_write m 0 k v h (Nat.zero_le k)

theorem Memory.wfFrom_above (m : Memory) (lo k : Nat) (h : Memory.wfFrom lo m = true) :
    Memory.wfFrom k (Memory.above m k) = true := by
  induction m generalizing lo with
  | nil => rfl
  | cons p rest ih =>
    obtain ⟨a, b⟩ := p
    simp only [Memory.wfFrom, Bool.and_eq_true, decide_eq_true_eq] at h
    by_cases h1 : a < k
    · simpa [Memory.above, h1] using ih (a + 1) h.2
    · have h4 := h.1.2
      simp [Memory.above, Memory.wfFrom, h1, h.2] at h4 ⊢
      exact ⟨by omega, h4⟩

theorem Memory.wfFrom_cells (bs : List Byte) (k : Nat) : Memory.wfFrom k (Memory.cells k bs) = true := by
  induction bs generalizing k with
  | nil => rfl
  | cons b bs ih =>
    by_cases hb : b = memDefault
    · simpa [Memory.cells, hb] using Memory.wfFrom_mono _ (k + 1) k (ih (k + 1)) (by omega)
    · simp [Memory.cells, Memory.wfFrom, hb, ih]

/-- Cells of bytes from `k` on, before entries that lie behind them. -/
theorem Memory.wfFrom_cells_append (bs : List Byte) (k : Nat) (m : Memory) (h : Memory.wfFrom (k + bs.length) m = true) :
    Memory.wfFrom k (Memory.cells k bs ++ m) = true := by
  induction bs generalizing k with
  | nil => simpa [Memory.cells] using h
  | cons b bs ih =>
    have h' : Memory.wfFrom (k + 1 + bs.length) m = true := by simpa [Nat.add_comm, Nat.add_left_comm, Nat.add_assoc] using h
    by_cases hb : b = memDefault
    · simpa [Memory.cells, hb] using Memory.wfFrom_mono _ (k + 1) k (ih (k + 1) h') (by omega)
    · simpa [Memory.cells, Memory.wfFrom, hb] using ih (k + 1) h'

theorem Memory.wfFrom_writeN (m : Memory) (lo k : Nat) (bs : List Byte) (h : Memory.wfFrom lo m = true) (hk : lo ≤ k) :
    Memory.wfFrom lo (Memory.writeN m k bs) = true := by
  induction m generalizing lo with
  | nil => exact Memory.wfFrom_mono _ k lo (Memory.wfFrom_cells bs k) hk
  | cons p rest ih =>
    obtain ⟨a, b⟩ := p
    have h0 := h
    simp only [Memory.wfFrom, Bool.and_eq_true, decide_eq_true_eq] at h
    by_cases h1 : a < k
    · have h3 := ih (a + 1) h.2 (by omega)
      have h4 := h.1
      simp [Memory.writeN, Memory.wfFrom, h1, h3] at h4 ⊢
      exact h4
    · simp only [Memory.writeN, h1, if_false]
      exact Memory.wfFrom_mono _ k lo
        (Memory.wfFrom_cells_append bs k _ (Memory.wfFrom_above _ lo _ h0)) hk

/-- Writing bytes keeps the canonical form. -/
theorem Memory.wf_writeN (m : Memory) (k : Nat) (bs : List Byte) (h : m.wf = true) : (m.writeN k bs).wf = true :=
  Memory.wfFrom_writeN m 0 k bs h (Nat.zero_le k)

theorem Memory.wf_foldl_writeN {α : Type} (l : List α) (at' : α → Nat) (bs : Memory → α → List Byte) (m : Memory) (h : m.wf = true) :
    (l.foldl (fun m x => Memory.writeN m (at' x) (bs m x)) m).wf = true := by
  induction l generalizing m with
  | nil => exact h
  | cons x l ih => exact ih _ (Memory.wf_writeN _ _ _ h)

/-! ## Reads after writes -/

theorem Memory.read_of_lt (m : Memory) (lo k : Nat) (h : Memory.wfFrom lo m = true) (hk : k < lo) : m.read k = memDefault := by
  cases m with
  | nil => rfl
  | cons p rest =>
    obtain ⟨a, b⟩ := p
    simp only [Memory.wfFrom, Bool.and_eq_true, decide_eq_true_eq] at h
    have h1 : k ≠ a := by omega
    have h2 : k < a := by omega
    simp [Memory.read, h1, h2]

theorem Memory.read_write_same_from (m : Memory) (lo k : Nat) (v : Byte) (h : Memory.wfFrom lo m = true) : (m.write k v).read k = v := by
  induction m generalizing lo with
  | nil =>
    by_cases hv : v = memDefault <;> simp [Memory.write, Memory.read, hv]
  | cons p rest ih =>
    obtain ⟨a, b⟩ := p
    simp only [Memory.wfFrom, Bool.and_eq_true, decide_eq_true_eq] at h
    by_cases h1 : k = a
    · subst h1
      by_cases hv : v = memDefault
      · simpa [Memory.write, hv] using Memory.read_of_lt rest (k + 1) k h.2 (by omega)
      · simp [Memory.write, Memory.read, hv]
    · by_cases h2 : k < a
      · by_cases hv : v = memDefault
        · simp [Memory.write, Memory.read, h1, h2, hv]
        · simp [Memory.write, Memory.read, h1, h2, hv]
      · simp [Memory.write, Memory.read, h1, h2, ih (a + 1) h.2]

/-- The byte just written is read back. -/
theorem Memory.read_write_same (m : Memory) (k : Nat) (v : Byte) (h : m.wf = true) : (m.write k v).read k = v :=
  Memory.read_write_same_from m 0 k v h

theorem Memory.read_write_other_from (m : Memory) (lo k j : Nat) (v : Byte) (h : Memory.wfFrom lo m = true) (hj : j ≠ k) :
    (m.write k v).read j = m.read j := by
  induction m generalizing lo with
  | nil =>
    by_cases hv : v = memDefault <;> by_cases hl : j < k <;> simp [Memory.write, Memory.read, hv, hj, hl]
  | cons p rest ih =>
    obtain ⟨a, b⟩ := p
    simp only [Memory.wfFrom, Bool.and_eq_true, decide_eq_true_eq] at h
    by_cases h1 : k = a
    · subst h1
      by_cases hv : v = memDefault
      · by_cases hl : j < k
        · simpa [Memory.write, Memory.read, hv, hj, hl] using Memory.read_of_lt rest (k + 1) j h.2 (by omega)
        · simp [Memory.write, Memory.read, hv, hj, hl]
      · simp [Memory.write, Memory.read, hv, hj]
    · by_cases h2 : k < a
      · by_cases hv : v = memDefault
        · simp [Memory.write, h1, h2, hv]
        · by_cases hl : j < k
          · have h5 : j ≠ a := by omega
            have h6 : j < a := by omega
            simp [Memory.write, Memory.read, h1, h2, hv, hj, hl, h5, h6]
          · simp [Memory.write, Memory.read, h1, h2, hv, hj, hl]
      · simp [Memory.write, Memory.read, h1, h2, ih (a + 1) h.2]

/-- A write leaves every other byte alone. -/
theorem Memory.read_write_other (m : Memory) (k j : Nat) (v : Byte) (h : m.wf = true) (hj : j ≠ k) : (m.write k v).read j = m.read j :=
  Memory.read_write_other_from m 0 k j v h hj

theorem Memory.read_above (m : Memory) (lo k j : Nat) (h : Memory.wfFrom lo m = true) (hj : k ≤ j) :
    (Memory.above m k).read j = m.read j := by
  induction m generalizing lo with
  | nil => rfl
  | cons p rest ih =>
    obtain ⟨a, b⟩ := p
    simp only [Memory.wfFrom, Bool.and_eq_true, decide_eq_true_eq] at h
    by_cases h1 : a < k
    · have h5 : j ≠ a := by omega
      have h6 : ¬ j < a := by omega
      simp [Memory.above, Memory.read, h1, h5, h6, ih (a + 1) h.2]
    · simp [Memory.above, h1]

theorem Memory.read_cells_append_other (bs : List Byte) (k j : Nat) (m : Memory) (h : Memory.wfFrom (k + bs.length) m = true)
    (hj : j < k ∨ k + bs.length ≤ j) : (Memory.cells k bs ++ m).read j = m.read j := by
  induction bs generalizing k with
  | nil => rfl
  | cons b bs ih =>
    have hl : k + (b :: bs).length = k + 1 + bs.length := by simp only [List.length_cons]; omega
    rw [hl] at h hj
    have ih' := ih (k + 1) h (by omega)
    by_cases hb : b = memDefault
    · simpa [Memory.cells, hb] using ih'
    · have h5 : j ≠ k := by omega
      by_cases h6 : j < k
      · simp [Memory.cells, Memory.read, hb, h5, h6]
        exact (Memory.read_of_lt m _ j h (by omega)).symm
      · simpa [Memory.cells, Memory.read, hb, h5, h6] using ih'

theorem Memory.read_cells_append_at (bs : List Byte) (k i : Nat) (m : Memory) (h : Memory.wfFrom (k + bs.length) m = true)
    (hi : i < bs.length) : (Memory.cells k bs ++ m).read (k + i) = bs[i] := by
  induction bs generalizing k i with
  | nil => simp at hi
  | cons b bs ih =>
    have hl : k + (b :: bs).length = k + 1 + bs.length := by simp only [List.length_cons]; omega
    rw [hl] at h
    cases i with
    | zero =>
      by_cases hb : b = memDefault
      · have := Memory.read_of_lt (Memory.cells (k + 1) bs ++ m) (k + 1) k (Memory.wfFrom_cells_append bs (k + 1) m h) (by omega)
        simpa [Memory.cells, hb] using this
      · simp [Memory.cells, Memory.read, hb]
    | succ i =>
      have hi' : i < bs.length := by simpa using hi
      have ih' := ih (k + 1) i h hi'
      have e : k + (i + 1) = k + 1 + i := by omega
      rw [e]
      by_cases hb : b = memDefault
      · simpa [Memory.cells, hb] using ih'
      · have h5 : k + 1 + i ≠ k := by omega
        have h6 : ¬ k + 1 + i < k := by omega
        simpa [Memory.cells, Memory.read, hb, h5, h6] using ih'

theorem Memory.read_writeN_other_from (m : Memory) (lo k j : Nat) (bs : List Byte) (h : Memory.wfFrom lo m = true)
    (hj : j < k ∨ k + bs.length ≤ j) : (m.writeN k bs).read j = m.read j := by
  induction m generalizing lo with
  | nil => simpa [Memory.writeN] using Memory.read_cells_append_other bs k j [] rfl hj
  | cons p rest ih =>
    obtain ⟨a, b⟩ := p
    have h0 := h
    simp only [Memory.wfFrom, Bool.and_eq_true, decide_eq_true_eq] at h
    by_cases h1 : a < k
    · simp [Memory.writeN, Memory.read, h1, ih (a + 1) h.2]
    · simp only [Memory.writeN, h1, if_false]
      rw [Memory.read_cells_append_other bs k j _ (Memory.wfFrom_above _ lo _ h0) hj]
      by_cases h2 : k + bs.length ≤ j
      · exact Memory.read_above _ lo _ j h0 h2
      · have h3 : j < a := by omega
        have h4 : j ≠ a := by omega
        rw [Memory.read_of_lt _ (k + bs.length) j (Memory.wfFrom_above _ lo _ h0) (by omega)]
        simp [Memory.read, h3, h4]

/-- A write of bytes leaves every byte outside them alone. -/
theorem Memory.read_writeN_other (m : Memory) (k j : Nat) (bs : List Byte) (h : m.wf = true) (hj : j < k ∨ k + bs.length ≤ j) :
    (m.writeN k bs).read j = m.read j :=
  Memory.read_writeN_other_from m 0 k j bs h hj

theorem Memory.read_writeN_at_from (m : Memory) (lo k i : Nat) (bs : List Byte) (h : Memory.wfFrom lo m = true) (hi : i < bs.length) :
    (m.writeN k bs).read (k + i) = bs[i] := by
  induction m generalizing lo with
  | nil => simpa [Memory.writeN] using Memory.read_cells_append_at bs k i [] rfl hi
  | cons p rest ih =>
    obtain ⟨a, b⟩ := p
    have h0 := h
    simp only [Memory.wfFrom, Bool.and_eq_true, decide_eq_true_eq] at h
    by_cases h1 : a < k
    · have h2 : k + i ≠ a := by omega
      have h3 : ¬ k + i < a := by omega
      simp [Memory.writeN, Memory.read, h1, h2, h3, ih (a + 1) h.2]
    · simp only [Memory.writeN, h1, if_false]
      exact Memory.read_cells_append_at bs k i _ (Memory.wfFrom_above _ lo _ h0) hi

/-- The bytes just written are read back. -/
theorem Memory.read_writeN_at (m : Memory) (k i : Nat) (bs : List Byte) (h : m.wf = true) (hi : i < bs.length) :
    (m.writeN k bs).read (k + i) = bs[i] :=
  Memory.read_writeN_at_from m 0 k i bs h hi

theorem Memory.spread_length (n k : Nat) (m : Memory) : (Memory.spread n k m).length = n := by
  induction n generalizing k m with
  | zero => rfl
  | succ n ih =>
    cases m with
    | nil => simp [Memory.spread, ih]
    | cons p rest =>
      obtain ⟨a, b⟩ := p
      by_cases h : a = k <;> simp [Memory.spread, h, ih]

/-- A wide read gives as many bytes as it is wide. -/
@[simp] theorem Memory.readN_length (m : Memory) (n k : Nat) : (m.readN n k).length = n := Memory.spread_length n k _

theorem Memory.spread_get (n k i : Nat) (m : Memory) (h : Memory.wfFrom k m = true) (hi : i < n) :
    (Memory.spread n k m)[i]? = some (m.read (k + i)) := by
  induction n generalizing k i m with
  | zero => omega
  | succ n ih =>
    cases m with
    | nil =>
      cases i with
      | zero => rfl
      | succ i =>
        have := ih (k + 1) i [] rfl (by omega)
        simpa [Memory.spread, Memory.read, Nat.add_comm, Nat.add_left_comm] using this
    | cons p rest =>
      obtain ⟨a, b⟩ := p
      have h0 := h
      simp only [Memory.wfFrom, Bool.and_eq_true, decide_eq_true_eq] at h
      by_cases h1 : a = k
      · subst h1
        cases i with
        | zero => simp [Memory.spread, Memory.read]
        | succ i =>
          have := ih (a + 1) i rest h.2 (by omega)
          have e : a + (i + 1) = a + 1 + i := by omega
          have h5 : a + 1 + i ≠ a := by omega
          have h6 : ¬ a + 1 + i < a := by omega
          rw [e]
          simpa [Memory.spread, Memory.read, h5, h6] using this
      · have h2 : k < a := by omega
        cases i with
        | zero =>
          have h5 : k ≠ a := by omega
          simp [Memory.spread, Memory.read, h1, h2, h5]
        | succ i =>
          have hw : Memory.wfFrom (k + 1) ((a, b) :: rest) = true := by
            have h4 := h.1.2
            simp [Memory.wfFrom, h.2] at h4 ⊢
            exact ⟨by omega, h4⟩
          have := ih (k + 1) i ((a, b) :: rest) hw (by omega)
          have e : k + (i + 1) = k + 1 + i := by omega
          rw [e]
          simpa [Memory.spread, h1] using this

/-- A wide read gives the bytes, one by one. -/
theorem Memory.readN_get (m : Memory) (n k i : Nat) (h : m.wf = true) (hi : i < n) : (m.readN n k)[i]? = some (m.read (k + i)) := by
  unfold Memory.readN
  rw [Memory.spread_get n k i _ (Memory.wfFrom_above m 0 k h) hi, Memory.read_above m 0 k _ h (by omega)]

/-- The bytes just written are read back by a wide read. -/
theorem Memory.readN_writeN_same (m : Memory) (k : Nat) (bs : List Byte) (h : m.wf = true) :
    (m.writeN k bs).readN bs.length k = bs := by
  apply List.ext_getElem?
  intro i
  by_cases hi : i < bs.length
  · rw [Memory.readN_get _ _ _ _ (Memory.wf_writeN m k bs h) hi, Memory.read_writeN_at m k i bs h hi]
    simp [hi]
  · rw [List.getElem?_eq_none (by simpa using hi), List.getElem?_eq_none (by omega)]

/-- A wide read outside the bytes written gives what it gave. -/
theorem Memory.readN_writeN_other (m : Memory) (k n j : Nat) (bs : List Byte) (h : m.wf = true) (hj : j + n ≤ k ∨ k + bs.length ≤ j) :
    (m.writeN k bs).readN n j = m.readN n j := by
  apply List.ext_getElem?
  intro i
  by_cases hi : i < n
  · rw [Memory.readN_get _ _ _ _ (Memory.wf_writeN m k bs h) hi, Memory.readN_get _ _ _ _ h hi,
      Memory.read_writeN_other m k _ bs h (by omega)]
  · rw [List.getElem?_eq_none (by simpa using hi), List.getElem?_eq_none (by simpa using hi)]

end Sys2Proof.Machine
end

