-- ==== Sys2Proof/Laws/Engines.lean ====
section
/-! SUPPORT. What a service window does to its engine (R227), what reading a table word with its parity checked answers (R397), and that an
image put back keeps the canonical form of memory (R381). -/

namespace Sys2Proof.Machine

/-! ## Service windows (R227) -/

@[simp] theorem svcPut_rows (e v : EngSt) : (svcPut e v).rows = e.rows := rfl
@[simp] theorem svcPut_queue (e v : EngSt) : (svcPut e v).queue = e.queue := rfl
@[simp] theorem svcPut_now (e v : EngSt) : (svcPut e v).now = e.now := rfl
@[simp] theorem svcPut_svw (e v : EngSt) : (svcPut e v).svw = e.svw := rfl
@[simp] theorem svcPut_st (e v : EngSt) : (svcPut e v).st = e.st := rfl
@[simp] theorem svcPut_pc (e v : EngSt) : (svcPut e v).pc = e.pc := rfl
@[simp] theorem svcPut_hw (e v : EngSt) : (svcPut e v).hw = e.hw := rfl
@[simp] theorem svcPut_timing (e v : EngSt) : (svcPut e v).timing = e.timing := rfl
@[simp] theorem svcPut_frozen (e v : EngSt) : (svcPut e v).frozen = e.frozen := rfl

/-- A window serves only while it is open and in a bank of its groups, and changes its own view of the banks alone. -/
theorem svcServe_some (e e' : EngSt) (b row : Nat) (cols : List Bool) (now : Bool) (h : svcServe e b row cols now = some e') :
    ∃ cls mask till, e.svw = some (cls, mask, till) ∧ bitB mask (group b) = true ∧ e.now < till ∧ ∃ v, e' = svcPut e v := by
  unfold svcServe at h
  split at h
  · cases h
  · rename_i cls mask till hw
    simp only [Option.ite_none_right_eq_some, Bool.and_eq_true, decide_eq_true_eq] at h
    exact ⟨cls, mask, till, hw, h.1.1.1.1, h.1.1.1.2, _, (Option.some.inj h.2).symm⟩

/-- Without a window nothing is served. -/
theorem svcServe_none (e : EngSt) (b row : Nat) (cols : List Bool) (now : Bool) (h : e.svw = none) : svcServe e b row cols now = none := by
  simp [svcServe, h]

/-! ## Parity of table words (R397) -/

/-- The words are read where none of them has failed. -/
theorem parityOk_ok (c : Ctx) (ps : List Nat) : parityOk c ps = .ok () ↔ ∀ p ∈ ps, p ∉ c.badTab := by
  unfold parityOk
  split
  · rename_i p hp
    have hm := List.min?_mem hp
    simp only [reduceCtorEq, false_iff]
    intro h
    rw [List.mem_filter] at hm
    exact h p hm.1 (by simpa using hm.2)
  · rename_i hp
    have h0 : ps.filter c.badTab.contains = [] := by simpa using hp
    simpa [List.filter_eq_nil_iff] using h0

@[simp] theorem tabFresh_badTab (c : Ctx) (p : Nat) : (tabFresh c p).badTab = c.badTab.filter (· != p) := rfl

/-- A word that has been written can be read. -/
theorem parityOk_fresh (c : Ctx) (p : Nat) : parityOk (tabFresh c p) [p] = .ok () := by
  rw [parityOk_ok]; simp

/-! ## Instruction memory of an image (R381) -/

/-- An image's instruction memory put back keeps the canonical form. -/
theorem putCode_wf (m : Memory) (core slot : Nat) (code : List (Nat × Byte)) (h : m.wf = true) : (putCode m core slot code).wf = true :=
  Memory.wf_foldl_writeN code _ _ _ (Memory.wf_foldl_writeN _ _ _ m h)

end Sys2Proof.Machine
end

