-- ==== Sys2Proof/Laws/Tables.lean ====
section
/-! SUPPORT. The laws of the sparse table by number. -/

namespace Sys2Proof

@[simp] theorem NMap.find_nil {α : Type} (k : Nat) : NMap.find ([] : NMap α) k = none := rfl

@[simp] theorem NMap.find_set_same {α : Type} (m : NMap α) (k : Nat) (v : α) : NMap.find (NMap.set m k v) k = some v := by
  induction m with
  | nil => simp [NMap.set, NMap.find]
  | cons p rest ih =>
    obtain ⟨j, w⟩ := p
    by_cases h1 : k = j
    · subst h1; simp [NMap.set, NMap.find]
    · by_cases h2 : k < j <;> simp [NMap.set, NMap.find, h1, h2, ih]

theorem NMap.find_set_other {α : Type} (m : NMap α) (k j : Nat) (v : α) (h : j ≠ k) :
    NMap.find (NMap.set m k v) j = NMap.find m j := by
  induction m with
  | nil => simp [NMap.set, NMap.find, h]
  | cons p rest ih =>
    obtain ⟨i, w⟩ := p
    by_cases h1 : k = i
    · subst h1; simp [NMap.set, NMap.find, h]
    · by_cases h2 : k < i <;> simp [NMap.set, NMap.find, h1, h2, h, ih]

@[simp] theorem NMap.find_erase_same {α : Type} (m : NMap α) (k : Nat) : NMap.find (NMap.erase m k) k = none := by
  induction m with
  | nil => rfl
  | cons p rest ih =>
    obtain ⟨i, w⟩ := p
    by_cases h1 : i = k
    · subst h1; simpa [NMap.erase] using ih
    · have h2 : k ≠ i := fun e => h1 e.symm
      simpa [NMap.erase, NMap.find, h1, h2] using ih

theorem NMap.find_erase_other {α : Type} (m : NMap α) (k j : Nat) (h : j ≠ k) : NMap.find (NMap.erase m k) j = NMap.find m j := by
  induction m with
  | nil => rfl
  | cons p rest ih =>
    obtain ⟨i, w⟩ := p
    by_cases h1 : i = k
    · subst h1; simpa [NMap.erase, NMap.find, h] using ih
    · by_cases h2 : j = i
      · subst h2; simp [NMap.erase, NMap.find, h]
      · simpa [NMap.erase, NMap.find, h1, h2] using ih

@[simp] theorem NMap.getD_set_same {α : Type} (m : NMap α) (k : Nat) (v d : α) : NMap.getD (NMap.set m k v) k d = v := by
  simp [NMap.getD]

theorem NMap.getD_erase_other {α : Type} (m : NMap α) (k j : Nat) (d : α) (h : j ≠ k) :
    NMap.getD (NMap.erase m k) j d = NMap.getD m j d := by
  simp [NMap.getD, NMap.find_erase_other m k j h]

@[simp] theorem NMap.getD_erase_same {α : Type} (m : NMap α) (k : Nat) (d : α) : NMap.getD (NMap.erase m k) k d = d := by
  simp [NMap.getD]

theorem NMap.getD_set_other {α : Type} (m : NMap α) (k j : Nat) (v d : α) (h : j ≠ k) :
    NMap.getD (NMap.set m k v) j d = NMap.getD m j d := by
  simp [NMap.getD, NMap.find_set_other m k j v h]

@[simp] theorem NMap.set_set {α : Type} (m : NMap α) (k : Nat) (v w : α) : NMap.set (NMap.set m k v) k w = NMap.set m k w := by
  induction m with
  | nil => simp [NMap.set]
  | cons p rest ih =>
    obtain ⟨j, x⟩ := p
    by_cases h1 : k = j
    · subst h1; simp [NMap.set]
    · by_cases h2 : k < j
      · simp [NMap.set, h1, h2]
      · simp [NMap.set, h1, h2, ih]

/-- Setting keeps the numbers strictly rising. -/
theorem NMap.risingFrom_set {α : Type} (m : NMap α) (lo k : Nat) (v : α) (h : NMap.risingFrom lo m = true) (hk : lo ≤ k) :
    NMap.risingFrom lo (NMap.set m k v) = true := by
  induction m generalizing lo with
  | nil => simp [NMap.set, NMap.risingFrom, hk]
  | cons p rest ih =>
    obtain ⟨j, w⟩ := p
    simp [NMap.risingFrom] at h
    by_cases h1 : k = j
    · subst h1; simp [NMap.set, NMap.risingFrom, h]
    · by_cases h2 : k < j
      · simp [NMap.set, NMap.risingFrom, h1, h2, h, hk]
      · simp [NMap.set, NMap.risingFrom, h1, h2, h]
        exact ih (j + 1) h.2 (by omega)

end Sys2Proof
end

