-- ==== Sys2Proof/Laws/State.lean ====
section
/-! SUPPORT. What each update of the state leaves in each part of it: one lemma for a part under an update. -/

namespace Sys2Proof.Machine

variable (s : State) (n m slot k : Nat)

/-! ## Cores and contexts -/

@[simp] theorem State.core_setCore (c : CoreSt) : (s.setCore n c).core n = c := by simp [State.core, State.setCore]
theorem State.core_setCore_other (c : CoreSt) (h : m ≠ n) : (s.setCore n c).core m = s.core m := by
  simp [State.core, State.setCore, NMap.getD_set_other, h]
@[simp] theorem State.setCore_mem (c : CoreSt) : (s.setCore n c).mem = s.mem := rfl
@[simp] theorem State.setCore_wb (c : CoreSt) : (s.setCore n c).wb = s.wb := rfl
@[simp] theorem State.setCore_free (c : CoreSt) : (s.setCore n c).free = s.free := rfl
@[simp] theorem State.setCore_syss (c : CoreSt) : (s.setCore n c).syss = s.syss := rfl
@[simp] theorem State.setCore_engs (c : CoreSt) : (s.setCore n c).engs = s.engs := rfl
@[simp] theorem State.setCore_cxes (c : CoreSt) : (s.setCore n c).cxes = s.cxes := rfl
@[simp] theorem State.setCore_dies (c : CoreSt) : (s.setCore n c).dies = s.dies := rfl
@[simp] theorem State.setCore_parts (c : CoreSt) : (s.setCore n c).parts = s.parts := rfl
@[simp] theorem State.setCore_pkg (c : CoreSt) : (s.setCore n c).pkg = s.pkg := rfl
@[simp] theorem State.setCore_agenda (c : CoreSt) : (s.setCore n c).agenda = s.agenda := rfl
@[simp] theorem State.setCore_todo (c : CoreSt) : (s.setCore n c).todo = s.todo := rfl
@[simp] theorem State.setCore_engSaved (c : CoreSt) : (s.setCore n c).engSaved = s.engSaved := rfl
@[simp] theorem State.setCore_engHist (c : CoreSt) : (s.setCore n c).engHist = s.engHist := rfl
@[simp] theorem State.setCore_ev (c : CoreSt) : (s.setCore n c).ev = s.ev := rfl
@[simp] theorem State.setCore_curCore (c : CoreSt) : (s.setCore n c).curCore = s.curCore := rfl
@[simp] theorem State.setCore_curSys (c : CoreSt) : (s.setCore n c).curSys = s.curSys := rfl
@[simp] theorem State.setCore_curEng (c : CoreSt) : (s.setCore n c).curEng = s.curEng := rfl
@[simp] theorem State.setCore_curDie (c : CoreSt) : (s.setCore n c).curDie = s.curDie := rfl
@[simp] theorem State.setCore_curGroup (c : CoreSt) : (s.setCore n c).curGroup = s.curGroup := rfl
@[simp] theorem State.setCore_onSys (c : CoreSt) : (s.setCore n c).onSys = s.onSys := rfl

@[simp] theorem State.setCore_setCore (c d : CoreSt) : (s.setCore n c).setCore n d = s.setCore n d := by
  simp [State.setCore]

@[simp] theorem State.core_setCtx (c : Ctx) : (s.setCtx n slot c).core n = { s.core n with ctxs := (s.core n).ctxs.set slot c } := by
  simp [State.setCtx]
@[simp] theorem State.ctxOf_setCtx (c : Ctx) : (s.setCtx n slot c).ctxOf n slot = c := by simp [State.ctxOf]
theorem State.ctxOf_setCtx_slot (c : Ctx) (h : k ≠ slot) : (s.setCtx n slot c).ctxOf n k = s.ctxOf n k := by
  simp [State.ctxOf, NMap.getD_set_other, h]
theorem State.ctxOf_setCtx_core (c : Ctx) (h : m ≠ n) : (s.setCtx n slot c).ctxOf m k = s.ctxOf m k := by
  simp [State.ctxOf, State.setCtx, State.core_setCore_other, h]
@[simp] theorem State.setCtx_setCtx (c d : Ctx) : (s.setCtx n slot c).setCtx n slot d = s.setCtx n slot d := by
  simp [State.setCtx]
@[simp] theorem State.slotOf_setCtx (c : Ctx) : (s.setCtx n slot c).slotOf n = s.slotOf n := by simp [State.slotOf]

@[simp] theorem State.setCur_cur (c : Ctx) : (s.setCur c).cur = c := by simp [State.cur, State.setCur, State.setCtx, State.slotOf, State.ctxOf, State.core, State.setCore]
@[simp] theorem State.setCur_setCur (c d : Ctx) : (s.setCur c).setCur d = s.setCur d := by
  simp [State.setCur, State.setCtx, State.slotOf, State.core, State.setCore]
@[simp] theorem State.setCur_mem (c : Ctx) : (s.setCur c).mem = s.mem := rfl
@[simp] theorem State.setCur_wb (c : Ctx) : (s.setCur c).wb = s.wb := rfl
@[simp] theorem State.setCur_free (c : Ctx) : (s.setCur c).free = s.free := rfl
@[simp] theorem State.setCur_syss (c : Ctx) : (s.setCur c).syss = s.syss := rfl
@[simp] theorem State.setCur_engs (c : Ctx) : (s.setCur c).engs = s.engs := rfl
@[simp] theorem State.setCur_cxes (c : Ctx) : (s.setCur c).cxes = s.cxes := rfl
@[simp] theorem State.setCur_dies (c : Ctx) : (s.setCur c).dies = s.dies := rfl
@[simp] theorem State.setCur_parts (c : Ctx) : (s.setCur c).parts = s.parts := rfl
@[simp] theorem State.setCur_pkg (c : Ctx) : (s.setCur c).pkg = s.pkg := rfl
@[simp] theorem State.setCur_agenda (c : Ctx) : (s.setCur c).agenda = s.agenda := rfl
@[simp] theorem State.setCur_todo (c : Ctx) : (s.setCur c).todo = s.todo := rfl
@[simp] theorem State.setCur_engSaved (c : Ctx) : (s.setCur c).engSaved = s.engSaved := rfl
@[simp] theorem State.setCur_engHist (c : Ctx) : (s.setCur c).engHist = s.engHist := rfl
@[simp] theorem State.setCur_ev (c : Ctx) : (s.setCur c).ev = s.ev := rfl
@[simp] theorem State.setCur_curCore (c : Ctx) : (s.setCur c).curCore = s.curCore := rfl
@[simp] theorem State.setCur_curSys (c : Ctx) : (s.setCur c).curSys = s.curSys := rfl
@[simp] theorem State.setCur_curEng (c : Ctx) : (s.setCur c).curEng = s.curEng := rfl
@[simp] theorem State.setCur_curDie (c : Ctx) : (s.setCur c).curDie = s.curDie := rfl
@[simp] theorem State.setCur_curGroup (c : Ctx) : (s.setCur c).curGroup = s.curGroup := rfl
@[simp] theorem State.setCur_onSys (c : Ctx) : (s.setCur c).onSys = s.onSys := rfl
@[simp] theorem State.setCur_slotOf (c : Ctx) : (s.setCur c).slotOf s.curCore = s.slotOf s.curCore := by
  simp [State.setCur]
@[simp] theorem State.setCur_sys (c : Ctx) : (s.setCur c).sys = s.sys := rfl
@[simp] theorem State.setCur_part (c : Ctx) : (s.setCur c).part n = s.part n := rfl
@[simp] theorem State.setCur_partOfDie (c : Ctx) : (s.setCur c).partOfDie n = s.partOfDie n := rfl
@[simp] theorem State.setCur_curPart (c : Ctx) : (s.setCur c).curPart = s.curPart := rfl
@[simp] theorem State.setCur_dom (c : Ctx) : (s.setCur c).dom n m = s.dom n m := rfl
@[simp] theorem State.setCur_curDom (c : Ctx) : (s.setCur c).curDom = s.curDom := by simp [State.curDom]
@[simp] theorem State.setCur_fetchWord (c : Ctx) : (s.setCur c).fetchWord n m k = s.fetchWord n m k := rfl
@[simp] theorem State.setCur_fetchSys (c : Ctx) : (s.setCur c).fetchSys n m = s.fetchSys n m := rfl
@[simp] theorem State.modCur_cur (f : Ctx → Ctx) : (s.modCur f).cur = f s.cur := by simp [State.modCur]
theorem State.modCur_def (f : Ctx → Ctx) : s.modCur f = s.setCur (f s.cur) := rfl
theorem State.ctxOf_setCur (c : Ctx) (h : ¬ (m = s.curCore ∧ k = s.slotOf s.curCore)) : (s.setCur c).ctxOf m k = s.ctxOf m k := by
  by_cases hm : m = s.curCore
  · subst hm
    exact State.ctxOf_setCtx_slot s _ _ _ c (fun e => h ⟨rfl, e⟩)
  · exact State.ctxOf_setCtx_core s _ _ _ _ c hm
theorem State.core_setCur_other (c : Ctx) (h : m ≠ s.curCore) : (s.setCur c).core m = s.core m := by
  simp [State.setCur, State.setCtx, State.core_setCore_other, h]

/-! ## System cores, engines, collective engines, dies, partitions -/

@[simp] theorem State.sys_setSys (c : SysSt) : (s.setSys c).sys = c := by simp [State.sys, State.setSys]
@[simp] theorem State.setSys_mem (c : SysSt) : (s.setSys c).mem = s.mem := rfl
@[simp] theorem State.setSys_cores (c : SysSt) : (s.setSys c).cores = s.cores := rfl
@[simp] theorem State.setSys_engs (c : SysSt) : (s.setSys c).engs = s.engs := rfl
@[simp] theorem State.setSys_parts (c : SysSt) : (s.setSys c).parts = s.parts := rfl
@[simp] theorem State.setSys_onSys (c : SysSt) : (s.setSys c).onSys = s.onSys := rfl
@[simp] theorem State.setSys_curSys (c : SysSt) : (s.setSys c).curSys = s.curSys := rfl
@[simp] theorem State.setSys_setSys (c d : SysSt) : (s.setSys c).setSys d = s.setSys d := by simp [State.setSys]

@[simp] theorem State.engOf_setEngOf (x : EngSt) : (s.setEngOf n x).engOf n = x := by simp [State.engOf, State.setEngOf]
theorem State.engOf_setEngOf_other (x : EngSt) (h : m ≠ n) : (s.setEngOf n x).engOf m = s.engOf m := by
  simp [State.engOf, State.setEngOf, NMap.getD_set_other, h]
@[simp] theorem State.setEngOf_mem (x : EngSt) : (s.setEngOf n x).mem = s.mem := rfl
@[simp] theorem State.setEngOf_cores (x : EngSt) : (s.setEngOf n x).cores = s.cores := rfl
@[simp] theorem State.setEngOf_parts (x : EngSt) : (s.setEngOf n x).parts = s.parts := rfl
@[simp] theorem State.setEngOf_curEng (x : EngSt) : (s.setEngOf n x).curEng = s.curEng := rfl
@[simp] theorem State.eng_setEng (x : EngSt) : (s.setEng x).eng = x := by simp [State.eng, State.setEng, State.setEngOf, State.engOf]
@[simp] theorem State.eng_modEng (f : EngSt → EngSt) : (s.modEng f).eng = f s.eng := by simp [State.modEng]
@[simp] theorem State.modEng_mem (f : EngSt → EngSt) : (s.modEng f).mem = s.mem := rfl
@[simp] theorem State.modEng_cores (f : EngSt → EngSt) : (s.modEng f).cores = s.cores := rfl
@[simp] theorem State.modEng_parts (f : EngSt → EngSt) : (s.modEng f).parts = s.parts := rfl
@[simp] theorem State.modEng_curEng (f : EngSt → EngSt) : (s.modEng f).curEng = s.curEng := rfl

@[simp] theorem State.cxe_setCxe (x : CxeSt) : (s.setCxe n x).cxe n = x := by simp [State.cxe, State.setCxe]
theorem State.cxe_setCxe_other (x : CxeSt) (h : m ≠ n) : (s.setCxe n x).cxe m = s.cxe m := by
  simp [State.cxe, State.setCxe, NMap.getD_set_other, h]
@[simp] theorem State.setCxe_mem (x : CxeSt) : (s.setCxe n x).mem = s.mem := rfl
@[simp] theorem State.setCxe_cores (x : CxeSt) : (s.setCxe n x).cores = s.cores := rfl
@[simp] theorem State.setCxe_parts (x : CxeSt) : (s.setCxe n x).parts = s.parts := rfl

@[simp] theorem State.die_setDie (x : DieSt) : (s.setDie n x).die n = x := by simp [State.die, State.setDie]
theorem State.die_setDie_other (x : DieSt) (h : m ≠ n) : (s.setDie n x).die m = s.die m := by
  simp [State.die, State.setDie, NMap.getD_set_other, h]
@[simp] theorem State.setDie_mem (x : DieSt) : (s.setDie n x).mem = s.mem := rfl
@[simp] theorem State.setDie_cores (x : DieSt) : (s.setDie n x).cores = s.cores := rfl
@[simp] theorem State.setDie_parts (x : DieSt) : (s.setDie n x).parts = s.parts := rfl

@[simp] theorem State.part_setPart (x : PartSt) : (s.setPart n x).part n = x := by simp [State.part, State.setPart]
theorem State.part_setPart_other (x : PartSt) (h : m ≠ n) : (s.setPart n x).part m = s.part m := by
  simp [State.part, State.setPart, NMap.getD_set_other, h]
@[simp] theorem State.setPart_mem (x : PartSt) : (s.setPart n x).mem = s.mem := rfl
@[simp] theorem State.setPart_cores (x : PartSt) : (s.setPart n x).cores = s.cores := rfl
@[simp] theorem State.setPart_engs (x : PartSt) : (s.setPart n x).engs = s.engs := rfl
@[simp] theorem State.dom_setDom (d : Domain) : (s.setDom n slot d).dom n slot = d := by
  unfold State.dom State.setDom
  split <;> simp
@[simp] theorem State.setDom_mem (d : Domain) : (s.setDom n slot d).mem = s.mem := rfl
@[simp] theorem State.setDom_cores (d : Domain) : (s.setDom n slot d).cores = s.cores := rfl
@[simp] theorem State.setDom_engs (d : Domain) : (s.setDom n slot d).engs = s.engs := rfl
@[simp] theorem State.setDom_wb (d : Domain) : (s.setDom n slot d).wb = s.wb := rfl
@[simp] theorem State.setCurDom_mem (d : Domain) : (s.setCurDom d).mem = s.mem := rfl
@[simp] theorem State.setCurDom_cores (d : Domain) : (s.setCurDom d).cores = s.cores := rfl
@[simp] theorem State.setCurDom_curCore (d : Domain) : (s.setCurDom d).curCore = s.curCore := rfl
@[simp] theorem State.setCurDom_onSys (d : Domain) : (s.setCurDom d).onSys = s.onSys := rfl
@[simp] theorem State.setCurDom_cur (d : Domain) : (s.setCurDom d).cur = s.cur := rfl
@[simp] theorem State.setCurDom_core (d : Domain) : (s.setCurDom d).core n = s.core n := rfl

/-! ## Bytes -/

@[simp] theorem State.writeSp_cores (a : Nat) (bs : List Byte) : (s.writeSp n a bs).cores = s.cores := rfl
@[simp] theorem State.writeSp_cur (a : Nat) (bs : List Byte) : (s.writeSp n a bs).cur = s.cur := rfl
@[simp] theorem State.writeSp_parts (a : Nat) (bs : List Byte) : (s.writeSp n a bs).parts = s.parts := rfl

/-! ## Context records under the operations of the operand forms -/

@[simp] theorem qEntries_setQ (c : Ctx) (q : Nat) (es : List QEntry) : qEntries (setQ c q es) q = es := by
  cases es <;> simp [qEntries, setQ]
theorem qEntries_setQ_other (c : Ctx) (q r : Nat) (es : List QEntry) (h : r ≠ q) : qEntries (setQ c q es) r = qEntries c r := by
  cases es <;> simp [qEntries, setQ, NMap.getD_set_other, NMap.getD_erase_other, h]
/-- A popped queue loses its head. -/
theorem qEntries_dropHead_same (c : Ctx) (q : Nat) (h : q ≠ 0) : qEntries (dropHead c q) q = (qEntries c q).tail := by
  simp [dropHead, h]
theorem qEntries_dropHead_other (c : Ctx) (q r : Nat) (h : r ≠ q) : qEntries (dropHead c q) r = qEntries c r := by
  unfold dropHead; split
  · rfl
  · exact qEntries_setQ_other c q r _ h
theorem qEntries_dropHeads_other (c : Ctx) (qs : List Nat) (r : Nat) (h : r ∉ qs) : qEntries (dropHeads c qs) r = qEntries c r := by
  unfold dropHeads
  have h' : r ∉ qs.dedup := by simpa using h
  revert h'
  generalize qs.dedup = l
  induction l generalizing c with
  | nil => intro _; rfl
  | cons q l ih =>
    intro h'
    simp only [List.mem_cons, not_or] at h'
    rw [List.foldl_cons, ih (dropHead c q) h'.2, qEntries_dropHead_other c q r h'.1]
@[simp] theorem dropHead_zero (c : Ctx) : dropHead c 0 = c := rfl
@[simp] theorem dropHeads_nil (c : Ctx) : dropHeads c [] = c := rfl
@[simp] theorem headQ_zero (c : Ctx) (kind : Nat) : headQ c 0 kind = .ok 0 := rfl
theorem dropHead_frame (c : Ctx) (q : Nat) : dropHead c q = { c with q := (dropHead c q).q } := by
  unfold dropHead setQ; split <;> rfl
theorem dropHeads_frame (c : Ctx) (qs : List Nat) : dropHeads c qs = { c with q := (dropHeads c qs).q } := by
  unfold dropHeads
  generalize qs.dedup = l
  induction l generalizing c with
  | nil => rfl
  | cons q l ih =>
    rw [List.foldl_cons, ih (dropHead c q), dropHead_frame c q]

end Sys2Proof.Machine
end

