-- ==== Sys2Proof/Laws/Operands.lean ====
section
/-! SUPPORT. What the shared operations of an instruction do: reading sources, popping, results, the issue of an instruction. -/

namespace Sys2Proof.Machine
open Sys2Proof.Claims

/-! ## Signatures leave everything but the segment and its second word alone -/

theorem signWords_frame (s : State) (n : Nat) :
    signWords s n = s ∨ ∃ g w, signWords s n = s.setCur { s.cur with seg := g, sigNext := w } := by
  unfold signWords
  split
  · exact .inr ⟨_, _, rfl⟩
  · exact .inl rfl

/-- What the signature does: nothing, or the segment of the current context and the word that enters it next change. -/
theorem signed_frame (s : State) (n : Nat) :
    signed s n = s ∨ ∃ g w, signed s n = s.setCur { s.cur with seg := g, sigNext := w } := by
  unfold signed
  split
  · exact .inl rfl
  · exact signWords_frame s n

theorem signed_cur (s : State) (n : Nat) :
    (signed s n).cur = { s.cur with seg := (signed s n).cur.seg, sigNext := (signed s n).cur.sigNext } := by
  rcases signed_frame s n with h | ⟨g, w, h⟩ <;> rw [h]
  simp

@[simp] theorem signed_onSys (s : State) (n : Nat) : (signed s n).onSys = s.onSys := by
  rcases signed_frame s n with h | ⟨g, w, h⟩ <;> rw [h]
  rfl
@[simp] theorem signed_handler (s : State) (n : Nat) : (signed s n).cur.handler = s.cur.handler := by rw [signed_cur]
@[simp] theorem signed_sys (s : State) (n : Nat) : (signed s n).sys = s.sys := by
  rcases signed_frame s n with h | ⟨g, w, h⟩ <;> rw [h]
  rfl
@[simp] theorem signed_mem (s : State) (n : Nat) : (signed s n).mem = s.mem := by
  rcases signed_frame s n with h | ⟨g, w, h⟩ <;> rw [h]
  rfl
@[simp] theorem signed_curCore (s : State) (n : Nat) : (signed s n).curCore = s.curCore := by
  rcases signed_frame s n with h | ⟨g, w, h⟩ <;> rw [h]
  rfl
@[simp] theorem readG_signed (s : State) (n r : Nat) : readG (signed s n) r = readG s r := by simp [readG]
@[simp] theorem qEntries_signed (s : State) (n q : Nat) : qEntries (signed s n).cur q = qEntries s.cur q := by
  rw [signed_cur]; rfl
@[simp] theorem readH_signed (s : State) (n r : Nat) : readH (signed s n).cur r = readH s.cur r := by
  rw [signed_cur]; rfl
@[simp] theorem inHandler_signed (s : State) (n : Nat) : inHandler (signed s n) = inHandler s := by simp [inHandler]
@[simp] theorem pcOf_signed (s : State) (n : Nat) : pcOf (signed s n) = pcOf s := by
  unfold pcOf; rw [signed_onSys, signed_sys, signed_cur]
@[simp] theorem dstOk_signed (s : State) (n d : Nat) : dstOk (signed s n) d = dstOk s d := by simp [dstOk]

theorem headQ_congr (c d : Ctx) (q k : Nat) (h : ∀ q, qEntries c q = qEntries d q) (ha : c.auHalt = d.auHalt) : headQ c q k = headQ d q k := by
  unfold headQ; rw [h, ha]
theorem headsQ_congr (c d : Ctx) (qs : List Nat) (h : ∀ q, qEntries c q = qEntries d q) (ha : c.auHalt = d.auHalt) :
    headsQ c qs = headsQ d qs := by
  have h1 : (fun q => headQ c q 0) = (fun q => headQ d q 0) := by funext q; exact headQ_congr c d q 0 h ha
  unfold headsQ; rw [h1]
@[simp] theorem srcVals_signed (s : State) (n : Nat) (fs : List Src) : srcVals (signed s n) fs = srcVals s fs := by
  unfold srcVals
  have e : headsQ (signed s n).cur (fs.map (·.1)) = headsQ s.cur (fs.map (·.1)) := headsQ_congr _ _ _ (fun q => qEntries_signed s n q) (by rw [signed_cur])
  simp [e]

/-! ## Sources -/

theorem headQ_ready (s : State) (q k : Nat) (hq : QueueMode s) (h : q = 0 ∨ ∃ v es, qEntries s.cur q = .val v none :: es) :
    headQ s.cur q k = .ok (srcValue s q) := by
  obtain ⟨h1, h2⟩ := hq
  by_cases h0 : q = 0
  · subst h0; simp [headQ, srcValue, h1, h2]
  · obtain h | ⟨v, es, h⟩ := h
    · exact absurd h h0
    · simp [headQ, srcValue, h0, h, h1, h2]

/-- Operands that all have a value give their values. -/
theorem gather_ok {α β : Type} (f : α → Res β) (g : α → β) (l : List α) (h : ∀ x ∈ l, f x = .ok (g x)) :
    gather (l.map f) = .ok (l.map g) := by
  induction l with
  | nil => rfl
  | cons x l ih =>
    simp only [List.map_cons, gather, h x (by simp), ih (fun y hy => h y (by simp [hy]))]

/-- Sources that can be read give their values. -/
theorem srcVals_ready (s : State) (fs : List Src) (h : SrcsReady s fs) : srcVals s fs = .ok (srcValues s fs) := by
  unfold srcVals srcValues
  by_cases h1 : s.onSys = true
  · simp [h1, srcValue]
  · by_cases h2 : s.cur.handler = true
    · have h3 : ∀ f ∈ fs, f.1 < 16 := by
        intro f hf
        rcases h f hf with h | ⟨_, h⟩ | ⟨h, _⟩
        · exact absurd h h1
        · exact h
        · exact absurd h.2 (by simp [h2])
      have h4 : fs.any (fun f => decide (f.1 ≥ 16)) = false := by
        rw [List.any_eq_false]
        intro f hf
        have := h3 f hf
        simp; omega
      simp [h1, h2, h4, srcValue]
    · have hq : QueueMode s := ⟨by simpa using h1, by simpa using h2⟩
      have h3 : ∀ f ∈ fs, f.1 = 0 ∨ ∃ v es, qEntries s.cur f.1 = .val v none :: es := by
        intro f hf
        rcases h f hf with h | ⟨h, _⟩ | ⟨_, h⟩
        · exact absurd h h1
        · exact absurd h.2 h2
        · exact h
      have h5 : gather ((fs.map (·.1)).map (fun q => headQ s.cur q 0)) = .ok ((fs.map (·.1)).map (srcValue s)) := by
        apply gather_ok
        intro q hq'
        obtain ⟨f, hf, rfl⟩ := List.mem_map.mp hq'
        exact headQ_ready s f.1 0 hq (h3 f hf)
      rw [List.map_map, List.map_map] at h5
      simp only [Function.comp_def] at h5
      simp [h1, h2, headsQ, Function.comp_def, h5]

theorem dstOk_ready (s : State) (d : Nat) (h : DstReady s d) : dstOk s d = .ok () := by
  unfold dstOk inHandler
  by_cases h1 : s.onSys = true
  · simp [h1]
  · by_cases h2 : s.cur.handler = true
    · have := h ⟨by simpa using h1, h2⟩
      have : ¬ 16 ≤ d := by omega
      simp [this]
    · simp [h2]

/-! ## The rules of loops -/

theorem loopCheck_ok (s : State) (n : Nat) (ends : Bool) (h : LoopRule s n ends) : loopCheck s n ends = .ok () := by
  unfold loopCheck
  cases hl : loopsOf s with
  | nil => rfl
  | cons l ls =>
    obtain ⟨h1, h2⟩ := h l ls hl
    have h3 : (ends && (pcOf s + n - 1) % 65536 == l.last) = false := by
      cases ends with
      | false => rfl
      | true => simpa using h2 rfl
    have h4 : (List.range (n - 1)).any (fun k => (pcOf s + k) % 65536 == l.last) = false := by
      rw [List.any_eq_false]
      intro k hk
      simpa using h1 k (by simpa using hk)
    simp only [h3, h4]
    simp

@[simp] theorem loopCheck_one (s : State) : loopCheck s 1 false = .ok () := by
  unfold loopCheck; split <;> simp

/-! ## The issue of an instruction -/

/-- Checks that pass leave the body's answer. -/
@[simp] theorem lowerClass_ok {α : Type} (u : Unit) (body : Res α) : lowerClass (.ok u) body = body := rfl

/-- An instruction that no check stops does its body, and the sequencer goes on. -/
theorem issue_ok (s : State) (r : IssueRule) (body : State → Res (State × Flow)) (t : State) (fl : Flow) (hg : Unguarded s)
    (hf : r.first s = .ok ()) (hh : r.handlerOk = true ∨ inHandler s = false) (hp : r.pre s = .ok ())
    (hl : loopCheck s r.words r.endsBody = .ok ()) (hb : body (if s.onSys || !r.signs then s else signWords s r.words) = .ok (t, fl)) :
    issue s r body = .next (flowOn t r.words fl) := by
  have h1 : (!r.handlerOk && inHandler s) = false := by rcases hh with h | h <;> simp [h]
  unfold issue
  rw [if_neg hg]
  simp only [hf, hp, hl, hb, h1, bind, Except.bind]
  simp

/-- The body's state of an instruction whose words enter the signature. -/
theorem signed_def (s : State) (n : Nat) : (if s.onSys || !true then s else signWords s n) = signed s n := by
  cases h : s.onSys <;> simp [signed, h]

theorem issue1_ok (s : State) (hOk : Bool) (body : State → Res State) (t : State) (hg : Unguarded s)
    (hh : hOk = true ∨ inHandler s = false) (hb : body (signed s 1) = .ok t) :
    issue1 s hOk body = .next (advance t 1 1) := by
  unfold issue1
  refine issue_ok s _ _ t (.seq 1) hg rfl hh rfl (loopCheck_one s) ?_
  rw [signed_def, hb]
  rfl

/-- A two-source instruction whose operands can be read. -/
theorem op2_ok (s : State) (d a b : Nat) (ka kb : Bool) (f : Nat) (op : Word → Word → Word × Nat) (hg : Unguarded s)
    (hs : SrcsReady s [(a, ka), (b, kb)]) (hd : DstReady s d) :
    op2 s d a b ka kb f op = .next (advance (result (popSrcs (signed s 1) [(a, ka), (b, kb)]) f d
      (op (srcValue s a) (srcValue s b)).1 (op (srcValue s a) (srcValue s b)).2) 1 1) := by
  apply issue1_ok s true _ _ hg (.inl rfl)
  simp [dstOk_ready s d hd, srcVals_ready s _ hs, srcValues, bind, Except.bind, pure, Except.pure]

/-- A one-source instruction whose operand can be read. -/
theorem op1_ok (s : State) (d a : Nat) (ka : Bool) (f : Nat) (op : Word → Word × Nat) (hg : Unguarded s)
    (hs : SrcsReady s [(a, ka)]) (hd : DstReady s d) :
    op1 s d a ka f op = .next (advance (result (popSrcs (signed s 1) [(a, ka)]) f d
      (op (srcValue s a)).1 (op (srcValue s a)).2) 1 1) := by
  apply issue1_ok s true _ _ hg (.inl rfl)
  simp [dstOk_ready s d hd, srcVals_ready s _ hs, srcValues, bind, Except.bind, pure, Except.pure]

/-- A stop of an instruction on a compute core: the stop is taken. -/
theorem issue_stop (s : State) (r : IssueRule) (body : State → Res (State × Flow)) (st : Stop) (hs : s.onSys = false) (hg : Unguarded s)
    (hf : r.first s = .ok ()) (hh : r.handlerOk = true ∨ inHandler s = false) (hp : r.pre s = .ok ())
    (hl : loopCheck s r.words r.endsBody = .ok ()) (hb : body (if s.onSys || !r.signs then s else signWords s r.words) = .error st) :
    issue s r body = .next (takeStop s st) := by
  have h1 : (!r.handlerOk && inHandler s) = false := by rcases hh with h | h <;> simp [h]
  unfold issue
  rw [if_neg hg]
  simp only [hf, hp, hl, hb, h1, bind, Except.bind]
  simp [hs]

/-- The ILLEGAL of a body stands where every other check that fails is an ILLEGAL of higher class (R88). -/
theorem issue_lower (s : State) (r : IssueRule) (body : State → Res (State × Flow)) (b : Nat) (hs : s.onSys = false) (hg : Unguarded s)
    (hf : r.first s = .ok ()) (hh : r.handlerOk = true ∨ inHandler s = false)
    (hp : ∀ st, r.pre s = .error st → ∃ a, st = .trap 1 a ∧ b % 256 < a % 256)
    (hl : ∀ st, loopCheck s r.words r.endsBody = .error st → ∃ a, st = .trap 1 a ∧ b % 256 < a % 256)
    (hb : body (if s.onSys || !r.signs then s else signWords s r.words) = .error (.trap 1 b)) :
    issue s r body = .next (takeStop s (.trap 1 b)) := by
  have h1 : (!r.handlerOk && inHandler s) = false := by rcases hh with h | h <;> simp [h]
  unfold issue
  rw [if_neg hg]
  simp only [hf, hb, h1, bind, Except.bind]
  have hc : ∀ st, lowerClass (r.pre s) (loopCheck s r.words r.endsBody) = .error st → ∃ a, st = .trap 1 a ∧ b % 256 < a % 256 := by
    intro st
    cases hp' : r.pre s with
    | ok u => exact hl st
    | error e =>
      obtain ⟨a, rfl, ha⟩ := hp e hp'
      cases hl' : loopCheck s r.words r.endsBody with
      | ok u => simp only [lowerClass, Except.error.injEq]; rintro rfl; exact ⟨a, rfl, ha⟩
      | error e =>
        obtain ⟨x, rfl, hx⟩ := hl e hl'
        simp only [lowerClass, Except.error.injEq]
        rintro rfl
        split
        · exact ⟨x, rfl, hx⟩
        · exact ⟨a, rfl, ha⟩
  cases hc' : lowerClass (r.pre s) (loopCheck s r.words r.endsBody) with
  | error st => obtain ⟨a, rfl, ha⟩ := hc st hc'; simp [lowerClass, ha, hs]
  | ok u => simp [lowerClass, hs]

/-- The ILLEGAL of a check before the loop rule stands where the body shows no ILLEGAL of a lower class (R88). -/
theorem issue_pre (s : State) (r : IssueRule) (body : State → Res (State × Flow)) (a : Nat) (hs : s.onSys = false) (hg : Unguarded s)
    (hf : r.first s = .ok ()) (hh : r.handlerOk = true ∨ inHandler s = false) (hp : r.pre s = .error (.trap 1 a))
    (hl : loopCheck s r.words r.endsBody = .ok ())
    (hb : ∀ b, body (if s.onSys || !r.signs then s else signWords s r.words) = .error (.trap 1 b) → a % 256 ≤ b % 256) :
    issue s r body = .next (takeStop s (.trap 1 a)) := by
  have h1 : (!r.handlerOk && inHandler s) = false := by rcases hh with h | h <;> simp [h]
  unfold issue
  rw [if_neg hg]
  simp only [hf, hp, hl, h1, bind, Except.bind]
  generalize hx : body (if s.onSys || !r.signs then s else signWords s r.words) = x at hb ⊢
  rcases x with (⟨c, b⟩ | _ | _) | _
  · by_cases hc : c = 1
    · subst hc
      have := hb b rfl
      simp [lowerClass, hs, Nat.not_lt.mpr this]
    · simp [lowerClass, hs, hc]
  all_goals simp [lowerClass, hs]

/-- The loop rule stops with ILLEGAL of class 0x0A (R114). -/
theorem loopCheck_class (s : State) (n : Nat) (ends : Bool) (st : Stop) (h : loopCheck s n ends = .error st) :
    ∃ a, st = .trap 1 a ∧ a % 256 = 0x0A := by
  unfold loopCheck at h
  split at h
  · cases h
  · simp only at h
    split at h
    · cases h; exact ⟨_, rfl, by omega⟩
    · split at h
      · cases h; exact ⟨_, rfl, by omega⟩
      · cases h

/-- A stop that is an ILLEGAL is taken as a trap. -/
theorem takeStop_illegal (s : State) (e : Nat) : takeStop s (.trap 1 e) = takeTrap s 1 e := by simp [takeStop, cancels]

/-- A guard that is false leaves nothing but the words and their cycles. -/
theorem issue_false (s : State) (r : IssueRule) (body : State → Res (State × Flow)) (hg : guardOf s = some false) :
    issue s r body = .next (advance (signed s r.words) r.words r.falseCycles) := by
  unfold issue
  rw [if_pos hg]
  rfl

/-! ## Instructions that complete -/

@[simp] theorem popSrcs_nil (s : State) : popSrcs s [] = s := by simp [popSrcs]

@[simp] theorem atIssue_onSys (s : State) (x : Doing) : (atIssue s x).onSys = s.onSys := by unfold atIssue; split <;> simp
@[simp] theorem atIssue_handler (s : State) (x : Doing) : (atIssue s x).cur.handler = s.cur.handler := by unfold atIssue; split <;> simp

/-- What the issue leaves of the state: the segment of the current context and the word that enters it next may change. -/
theorem atIssue_frame (s : State) (x : Doing) :
    atIssue s x = s ∨ ∃ g w, atIssue s x = s.setCur { s.cur with seg := g, sigNext := w } := by
  unfold atIssue; split
  · exact signed_frame s _
  · exact .inl rfl

theorem atIssue_unsigned (s : State) (x : Doing) (h : x.signs = false) : atIssue s x = s := by simp [atIssue, h]

theorem srcVals_atIssue (s : State) (x : Doing) (h : SrcsReady s x.srcs) : srcVals (atIssue s x) x.srcs = .ok (srcValues s x.srcs) := by
  unfold atIssue; split
  · rw [srcVals_signed]; exact srcVals_ready s _ h
  · exact srcVals_ready s _ h

theorem queueMode_not_handler {s : State} (h : QueueMode s) : inHandler s = false := by simp [inHandler, h.1, h.2]
theorem queueMode_atIssue {s : State} {x : Doing} (h : QueueMode s) : QueueMode (atIssue s x) := by
  obtain ⟨h1, h2⟩ := h
  exact ⟨by simp [h1], by simp [h2]⟩

/-- An instruction of the common form completes where its checks pass and its body does what is said. -/
theorem completes_of (i : Instr) (s : State) (x : Doing) (r : IssueRule) (body : State → Res (State × Flow))
    (he : exec i s = issue s r body) (hw : r.words = x.words) (hs : r.signs = x.signs) (hends : r.endsBody = x.ends)
    (hf : x.may s → x.ok (atIssue s x) (srcValues s x.srcs) → r.first s = .ok ())
    (hh : x.may s → r.handlerOk = true ∨ inHandler s = false)
    (hp : x.may s → x.ok (atIssue s x) (srcValues s x.srcs) → r.pre s = .ok ())
    (hb : x.may s → x.ok (atIssue s x) (srcValues s x.srcs) → srcVals (atIssue s x) x.srcs = .ok (srcValues s x.srcs) →
      body (atIssue s x) = .ok (x.eff (atIssue s x) (popSrcs (atIssue s x) x.srcs) (srcValues s x.srcs),
        x.flow (atIssue s x) (srcValues s x.srcs))) :
    Completes i s x := by
  intro hm hg hl hr hk
  rw [he, issue_ok s r body _ _ hg (hf hm hk) (hh hm) (hp hm hk) (loopCheck_ok s _ _ (hw ▸ hends ▸ hl)) ?_, hw]
  have : (if s.onSys || !r.signs then s else signWords s r.words) = atIssue s x := by
    unfold atIssue signed; rw [hs, hw]; cases s.onSys <;> cases x.signs <;> simp
  rw [this]; exact hb hm hk (srcVals_atIssue s x hr)

theorem bitB_testBit (x n : Nat) : bitB x n = x.testBit n := by
  rw [Nat.testBit_eq_decide_div_mod_eq, ← Nat.shiftRight_eq_div_pow]
  unfold bitB
  rcases Nat.mod_two_eq_zero_or_one (x >>> n) with h | h <;> rw [h] <;> rfl

theorem testBit_ready (s : State) (q b : Nat) (neg : Bool) (h : SrcReady s q) : testBit s q b neg = .ok ((srcValue s q).getLsbD b != neg) := by
  have hb : ∀ v : Word, bitB v.toNat b = v.getLsbD b := fun v => bitB_testBit v.toNat b
  unfold testBit srcValue
  rcases h with h | ⟨⟨h1, h2⟩, h3⟩ | ⟨⟨h1, h2⟩, h3⟩
  · simp [h, hb]
  · have : ¬ 16 ≤ q := by omega
    simp [h1, h2, this, hb]
  · have := headQ_ready s q 4 ⟨h1, h2⟩ h3
    simp only [this, srcValue, h1, h2]
    simp [hb, bind, Except.bind, pure, Except.pure]

/-! ## No stop changes memory -/

@[simp] theorem sysEventOn_mem (s : State) (p bit : Nat) : (sysEventOn s p bit).mem = s.mem := rfl

@[simp] theorem addError_mem (s : State) (p cls loc : Nat) (unc : Bool) : (addError s p cls loc unc).2.mem = s.mem := by
  unfold addError; simp only; split <;> rfl

@[simp] theorem detectError_mem (s : State) (einfo : Nat) : (detectError s einfo).2.mem = s.mem := by
  unfold detectError; simp only; split <;> simp

@[simp] theorem takeTrap_mem (s : State) (cause einfo : Nat) : (takeTrap s cause einfo).mem = s.mem := by
  unfold takeTrap; split <;> rfl

/-- A stop of the current core, whatever it is, leaves every byte of memory. -/
@[simp] theorem takeStop_mem (s : State) (st : Stop) : (takeStop s st).mem = s.mem := by
  unfold takeStop
  cases st with
  | trap cause einfo =>
    by_cases hc : cause = 0x15 <;> simp only [hc, if_true, if_false]
    all_goals
      split
      · first | exact detectError_mem s einfo | rfl
      · split
        · first | exact detectError_mem s einfo | rfl
        · simp
  | fault n => simp only; split <;> simp [State.modCur]
  | hold kind late => simp only; split <;> simp [State.modCur]

@[simp] theorem deliverTrap_mem (s : State) (core slot cause einfo : Nat) : (deliverTrap s core slot cause einfo).mem = s.mem := by
  unfold deliverTrap
  simp only
  split
  · simp only [takeStamped, takeStop_mem, State.modCur, State.setCur_mem]; split <;> rfl
  · split <;> rfl

/-- CSR numbers 0x044 to 0x05F are undefined, on a compute core and on a system core: CSRRD and CSRWR of one are no well-formed instruction, and their word
is reported with REASON 0x08 (R88, R179). -/
theorem csr_undefined (sys : Bool) (n : Nat) (h : 0x44 ≤ n) (h' : n ≤ 0x5F) : csrDefined sys n = false := by
  cases sys <;> simp [csrDefined] <;> omega

/-- Plain registers of a system core written: memory is left. -/
@[simp] theorem writeGs_mem (s : State) (d : Nat) (vs : List Word) : (writeGs s d vs).mem = s.mem := by
  unfold writeGs
  generalize vs.zipIdx = xs
  induction xs generalizing s with
  | nil => rfl
  | cons x xs ih => rw [List.foldl_cons, ih]; unfold writeG; split <;> rfl

end Sys2Proof.Machine
end

