-- ==== Sys2Proof/Laws/Paging.lean ====
section
/-! SUPPORT. What a write of paged space can do: memory and marks change, and memory keeps its form (R303, R318, R398); the same of a save area
(R381). -/

namespace Sys2Proof.Machine

/-! ## Marks of lines (R398) -/

/-- A line written whole takes the mark of the write, or loses its own. -/
@[simp] theorem setMark_whole_some (m : NMap Nat) (l p : Nat) : setMark m l true (some p) = m.set l p := by
  simp [setMark, mergePoison]
@[simp] theorem setMark_whole_none (m : NMap Nat) (l : Nat) : setMark m l true none = m.erase l := rfl
/-- A line written in part without a mark keeps its own. -/
@[simp] theorem setMark_part_none (m : NMap Nat) (l : Nat) : setMark m l false none = m := rfl

/-- No other line's mark changes. -/
theorem setMark_other (m : NMap Nat) (l j : Nat) (whole : Bool) (p : Option Nat) (h : j ≠ l) : (setMark m l whole p).find j = m.find j := by
  cases p with
  | some p => exact NMap.find_set_other _ _ _ _ h
  | none => cases whole with
    | true => exact NMap.find_erase_other _ _ _ h
    | false => rfl

/-- Marking lines changes a die's marks and nothing else. -/
theorem markLines_only (s : State) (die off n : Nat) (p : Option Nat) :
    markLines s die off n p = s.setDie die { s.die die with pagePoison := ((markLines s die off n p).die die).pagePoison } := by
  simp [markLines]

@[simp] theorem markLines_mem (s : State) (die off n : Nat) (p : Option Nat) : (markLines s die off n p).mem = s.mem := rfl

/-! ## Writes (R303, R318) -/

/-- What every step of a fold keeps, the fold keeps. -/
theorem foldl_keeps {α β : Type} (P : β → Prop) (f : β → α → β) (hs : ∀ b a, P b → P (f b a)) (l : List α) (b : β) (h : P b) : P (l.foldl f b) := by
  induction l generalizing b with
  | nil => exact h
  | cons a l ih => exact ih _ (hs b a h)

/-- A write of paged space changes memory and nothing else. -/
theorem pageWrite_only (s : State) (die off : Nat) (bs : List Byte) : pageWrite s die off bs = { s with mem := (pageWrite s die off bs).mem } := by
  have h : ∃ m, pageWrite s die off bs = { s with mem := m } := by
    refine foldl_keeps (fun t : State => ∃ m, t = { s with mem := m }) _ (fun t l h => ?_) _ _ ⟨s.mem, rfl⟩
    obtain ⟨m, rfl⟩ := h
    dsimp only
    split
    · exact ⟨_, rfl⟩
    · split
      · split <;> exact ⟨_, rfl⟩
      · exact ⟨_, rfl⟩
  obtain ⟨m, h⟩ := h
  rw [h]

/-- It keeps the canonical form of memory. -/
theorem pageWrite_wf (s : State) (die off : Nat) (bs : List Byte) (h : s.mem.wf = true) : (pageWrite s die off bs).mem.wf = true := by
  refine foldl_keeps (fun t : State => t.mem.wf = true) _ (fun t l ht => ?_) _ _ h
  dsimp only
  split
  · exact ht
  · split
    · split
      · exact Memory.wf_writeN _ _ _ (Memory.wf_writeN _ _ _ ht)
      · exact Memory.wf_writeN _ _ _ ht
    · exact Memory.wf_writeN _ _ _ ht

/-- Bytes written at a virtual address change memory and the marks of one die. -/
theorem writeVa_only (s : State) (va : Nat) (bs : List Byte) :
    writeVa s va bs = s ∨ writeVa s va bs = { s with
      mem := (pageWrite s (vaDie va) (vaOff va) bs).mem, dies := (writeVa s va bs).dies } := by
  unfold writeVa
  split
  · refine .inr ?_
    rw [markLines_only, pageWrite_only]
    rfl
  · exact .inl rfl

theorem writeVa_wf (s : State) (va : Nat) (bs : List Byte) (h : s.mem.wf = true) : (writeVa s va bs).mem.wf = true := by
  unfold writeVa
  split
  · exact pageWrite_wf _ _ _ _ h
  · exact h

/-- What a write at a virtual address leaves of the other parts of the machine. -/
@[simp] theorem writeVa_cores (s : State) (va : Nat) (bs : List Byte) : (writeVa s va bs).cores = s.cores := by
  rcases writeVa_only s va bs with h | h <;> rw [h]
@[simp] theorem writeVa_parts (s : State) (va : Nat) (bs : List Byte) : (writeVa s va bs).parts = s.parts := by
  rcases writeVa_only s va bs with h | h <;> rw [h]
@[simp] theorem writeVa_engs (s : State) (va : Nat) (bs : List Byte) : (writeVa s va bs).engs = s.engs := by
  rcases writeVa_only s va bs with h | h <;> rw [h]

/-! ## Save areas (R381) -/

/-- A save area written keeps the canonical form of memory, and leaves cores, partitions and engines. -/
theorem writeArea_wf (s : State) (p slot no core : Nat) (h : s.mem.wf = true) : (writeArea s p slot no core).mem.wf = true := writeVa_wf _ _ _ h
@[simp] theorem writeArea_cores (s : State) (p slot no core : Nat) : (writeArea s p slot no core).cores = s.cores := by simp [writeArea]
@[simp] theorem writeArea_parts (s : State) (p slot no core : Nat) : (writeArea s p slot no core).parts = s.parts := by simp [writeArea]
@[simp] theorem writeArea_engs (s : State) (p slot no core : Nat) : (writeArea s p slot no core).engs = s.engs := by simp [writeArea]

end Sys2Proof.Machine
end

