-- ==== Sys2Proof/Tests/Slice0.lean ====
section
/-! SUPPORT. Tests: ill-formed terms that WellFormed refuses, words written out bit by bit from the encodings of the spec, single steps
on small states, and for every statement with hypotheses a state and operands that meet them. -/

set_option Elab.async false

namespace Sys2Proof.Tests
open Sys2Proof Sys2Proof.Machine Sys2Proof.Claims

/-! ## WellFormed refuses an ill-formed term of each check (R78–R84, R87, R88) -/

/-- Governed register fields that are no multiple of the width (R78): MOV, DROP, QCNT, QCLR, OPEN, AMOCAS, PAMOCAS, VTOQ, VFROMQ. -/
theorem test_ill_formed_widths :
    ¬ WellFormed (.mov ⟨9, 10, 1, false⟩) ∧ ¬ WellFormed (.mov ⟨8, 11, 1, false⟩) ∧ ¬ WellFormed (.mov ⟨0, 8, 1, false⟩)
      ∧ ¬ WellFormed (.drop ⟨6, 2⟩) ∧ ¬ WellFormed (.qcnt ⟨8, 4, 3⟩) ∧ ¬ WellFormed (.qclr ⟨0, 1⟩)
      ∧ ¬ WellFormed (.openS ⟨0, 3, 6, false, false, false, 0, 8, 5⟩) ∧ ¬ WellFormed (.amocas ⟨5, 6, 7, false, false⟩)
      ∧ ¬ WellFormed (.pamocas ⟨5, 6, 0, false, false⟩) ∧ ¬ WellFormed (.vtoq ⟨9, 0, 1, 1, 0, 0⟩)
      ∧ ¬ WellFormed (.vfromq ⟨0, 1, 9, 1, 0, 0⟩) := by decide

/-- Reserved values of control words (R79, R80, R112): LOOP of no words, SEG of no cycles or OPEN with a stamp or a signature, OPEN of an
offset below 2 or of no words. -/
theorem test_ill_formed_control :
    ¬ WellFormed (.loop ⟨5, false, 0⟩) ∧ ¬ WellFormed (.seg ⟨false, 0, 1, 2⟩) ∧ ¬ WellFormed (.seg ⟨true, 4, 1, 0⟩)
      ∧ ¬ WellFormed (.seg ⟨true, 4, 0, 1⟩) ∧ ¬ WellFormed (.openS ⟨0, 3, 8, false, false, false, 0, 1, 5⟩)
      ∧ ¬ WellFormed (.openS ⟨0, 3, 8, false, false, false, 0, 2, 0⟩) := by decide

/-- Formats that a vector instruction does not take, and vector fields that must name a queue (R139–R153). -/
theorem test_ill_formed_vectors :
    ¬ WellFormed (.vadd ⟨1, 2, 3, 6⟩) ∧ ¬ WellFormed (.vsub ⟨1, 2, 3, 7⟩) ∧ ¬ WellFormed (.vmul ⟨1, 2, 3, 6⟩)
      ∧ ¬ WellFormed (.vfma ⟨1, 2, 3, 6⟩) ∧ ¬ WellFormed (.vfma ⟨16, 2, 3, 0⟩) ∧ ¬ WellFormed (.vfms ⟨1, 2, 3, 6⟩)
      ∧ ¬ WellFormed (.vfms ⟨17, 2, 3, 0⟩) ∧ ¬ WellFormed (.vadds ⟨1, 2, 3, 0⟩) ∧ ¬ WellFormed (.vsubs ⟨1, 2, 3, 1⟩)
      ∧ ¬ WellFormed (.vmulhi ⟨1, 2, 3, 2⟩) ∧ ¬ WellFormed (.vdiff ⟨1, 2, 3, 6⟩) ∧ ¬ WellFormed (.vrcp ⟨1, 2, 3⟩)
      ∧ ¬ WellFormed (.vrsq ⟨1, 2, 3⟩) ∧ ¬ WellFormed (.vsqrt ⟨1, 2, 4⟩) ∧ ¬ WellFormed (.vexp2 ⟨1, 2, 3⟩)
      ∧ ¬ WellFormed (.vlog2 ⟨1, 2, 3⟩) ∧ ¬ WellFormed (.vfloor ⟨1, 2, 3⟩) ∧ ¬ WellFormed (.vround ⟨1, 2, 3⟩)
      ∧ ¬ WellFormed (.vscale ⟨1, 2, 3, 3⟩) ∧ ¬ WellFormed (.vsel ⟨16, 2, 3, 0⟩) ∧ ¬ WellFormed (.vcvt ⟨1, 2, 0x17, 0⟩)
      ∧ ¬ WellFormed (.vcvt ⟨1, 2, 0x0F, 0⟩) ∧ ¬ WellFormed (.vunpk3 ⟨1, 2, 5⟩) ∧ ¬ WellFormed (.vtoq ⟨8, 1, 1, 2, 0, 0⟩)
      ∧ ¬ WellFormed (.vfromq ⟨1, 1, 8, 2, 0, 0⟩) := by decide

/-- Operands of the matrix array and of the quantisation engine that must name a stream, their rounding modes and seeds, CSR numbers (R88,
R200, R250, R260). -/
theorem test_ill_formed_engines :
    ¬ WellFormed (.mmaFlt ⟨5, 0, 17, false, false, false⟩) ∧ ¬ WellFormed (.mmaW4 ⟨5, 16, 1, false, false, false⟩)
      ∧ ¬ WellFormed (.mmaL6 ⟨5, 0, 17, false, false, false⟩) ∧ ¬ WellFormed (.mmaT3 ⟨5, 0, 17, false, false, false⟩)
      ∧ ¬ WellFormed (.mmaI8 ⟨5, 0, 17, false, false, false⟩) ∧ ¬ WellFormed (.mmaF32 ⟨5, 0, 17, false, false, false⟩)
      ∧ ¬ WellFormed (.accmv ⟨5, 2, 0⟩) ∧ ¬ WellFormed (.accmv ⟨5, 18, 5⟩) ∧ ¬ WellFormed (.accld ⟨5, 3⟩) ∧ ¬ WellFormed (.accadd ⟨5, 3⟩)
      ∧ ¬ WellFormed (.quantTensor ⟨2, 16, 0, 0, false⟩) ∧ ¬ WellFormed (.quantBlock ⟨18, 16, 3, 0⟩)
      ∧ ¬ WellFormed (.quantBlockTensor ⟨18, 16, 0, 1, false⟩) ∧ ¬ WellFormed (.quantCast ⟨18, 0, 0, 0⟩)
      ∧ ¬ WellFormed (.dequantTensor ⟨2, 16⟩) ∧ ¬ WellFormed (.dequantBlock ⟨18, 0⟩) ∧ ¬ WellFormed (.dequantBlockTensor ⟨0, 16⟩)
      ∧ ¬ WellFormed (.dequantCast ⟨0, 0⟩) ∧ ¬ WellFormed (.csrrd ⟨5, 0x7FF⟩) ∧ ¬ WellFormed (.csrwr ⟨5, 0x100⟩) := by decide

/-- Limits of table words and collective words (R209, R347). -/
theorem test_ill_formed_words :
    ¬ WellFormed (.mcSvw ⟨0, 0, 128⟩) ∧ ¬ WellFormed (.mcSvw ⟨0, 1, 127⟩) ∧ ¬ WellFormed (.mcLoop ⟨0, 3, 0⟩)
      ∧ ¬ WellFormed (.cxSend ⟨0, 0, 3⟩) ∧ ¬ WellFormed (.cxRecv ⟨0, 0, 4⟩) ∧ ¬ WellFormed (.cxRrs ⟨0, 0, 0x0F⟩)
      ∧ ¬ WellFormed (.cxRed ⟨0, 0, 0x1F⟩) ∧ ¬ WellFormed (.cxLoop ⟨0, 1⟩) ∧ ¬ WellFormed (.cxLoop ⟨1, 0⟩)
      ∧ ¬ WellFormed (.cxMcast ⟨0, 0, 3, 1⟩) := by decide

/-! ## Words written out bit by bit from the formats of R75, R79, R80, R209 and R347 -/

/-- R: IDL, MAJ, D, A, B, KA, KB, FN: `ADD q5, q6.k, q7` and, of a system core, `LPTWR g5, g6, g7`. -/
theorem test_bits_format_R :
    decode false [0b000_000001_000101_000110_000111_1_0_000] = .ok (.add ⟨5, 6, 7, true, false⟩) 1
      ∧ decode true [0b000_111011_000101_000110_000111_0_0_010] = .ok (.lptwr ⟨5, 6, 7, false, false⟩) 1 := by decide

/-- I: IDL, MAJ, D, A, KA, IMM10: `ADDI q5, q6.k, #-2`; U: IDL, MAJ, D, IMM17: `LI q5, #-7`. -/
theorem test_bits_formats_I_U :
    decode false [0b000_000110_000101_000110_1_1111111110] = .ok (.addi ⟨5, 6, true, -2⟩) 1
      ∧ decode false [0b000_001110_000101_11111111111111001] = .ok (.li ⟨5, -7⟩) 1 := by decide

/-- B: IDL, MAJ, GQ, GB, GN, OFF10: `BRC ?!q12.5, -3`; W: IDL, MAJ, D, A, WD, KA, FN, IMM5: `MOV q8:2, q10:2.k` and `LDS.d q21, q30.k, #-1`. -/
theorem test_bits_formats_B_W :
    decode false [0b000_010001_001100_000101_1_1111111101] = .ok (.brc ⟨12, 5, true, -3⟩) 1
      ∧ decode false [0b000_010000_001000_001010_01_1_000_00000] = .ok (.mov ⟨8, 10, 1, true⟩) 1
      ∧ decode false [0b000_011100_010101_011110_00_1_000_11111] = .ok (.ldsD ⟨21, 30, true, -1⟩) 1 := by decide

/-- S: IDL, MAJ, S, LTE, A, KA, FN: `SADV s3, q5.k`; V: IDL, MAJ, VD, VA, VB, FN5, FMT3: `VDOT.i8 w5, w0, s1`. -/
theorem test_bits_formats_S_V :
    decode false [0b000_011001_0011_00000000_000101_1_0001] = .ok (.sadv ⟨3, 5, true⟩) 1
      ∧ decode false [0b000_100100_00101_00000_10001_00101_101] = .ok (.vdot ⟨5, 0, 17, 5⟩) 1 := by decide

/-- M: IDL, MAJ, AT, SA, SB, CFG: `MMA.flt.acc a5, s0, s1`; F: IDL, MAJ, AT, AU, OP, FL: `TRSM.up.u a3, a4`; Q: IDL, MAJ, SD, SA, MODE, RND, SEED,
RTE: `QUANT.block.sr s1, s0, seed=0`. -/
theorem test_bits_formats_M_F_Q :
    decode false [0b000_101000_0000101_10000_10001_100000] = .ok (.mmaFlt ⟨5, 16, 17, true, false, false⟩) 1
      ∧ decode false [0b000_101010_0000011_0000100_100_001010] = .ok (.trsm ⟨3, 4, 10⟩) 1
      ∧ decode false [0b000_110000_10001_10000_001_10_000_0_0000] = .ok (.quantBlock ⟨17, 16, 2, 0⟩) 1 := by decide

/-- P: IDL, MAJ, A, B, FN: `MCSTAT q5, q6` and `COLSTAT q20, q21`; Y: IDL, MAJ, D, A, CSR: `CSRRD q40, 0x042`. -/
theorem test_bits_formats_P_Y :
    decode false [0b000_110100_000101_000110_100_00000000] = .ok (.mcstat ⟨5, 6⟩) 1
      ∧ decode false [0b000_110101_010100_010101_001_00000000] = .ok (.colstat ⟨20, 21⟩) 1
      ∧ decode false [0b000_111000_101000_000000_00001000010] = .ok (.csrrd ⟨40, 0x42⟩) 1 := by decide

/-- SEG: the OPEN bit [22], then C, the stamp and the signature, one word each (R79); OPEN: S, LTE, A, KA, FN, then DIR, LANE, OFF12
and COUNT (R80). -/
theorem test_bits_of_many_words :
    decode false [0b000_010110_1_0000000000000000000000, 100, 0, 0] = .ok (.seg ⟨true, 100, 0, 0⟩) 4
      ∧ decode false [0b000_011000_0001_00000110_001000_0_0001, 0b0_000_000011000010_0000000000000001]
        = .ok (.openS ⟨1, 6, 8, false, true, false, 0, 194, 1⟩) 2 := by decide

/-- A table word: DLY, CMD, bank, column, AP, STEP (R209); collective words: OP, SLOT, CK, WFMT and DSLOT (R347). -/
theorem test_bits_engine_words :
    decodeMc 0b00000011_0010_1011_1001_1_00001000000 = some (.mcRd ⟨11, 9, true, 64⟩)
      ∧ decodeMc 0b00000000_1010_10_0110_00000010000000 = some (.mcSvw ⟨2, 6, 128⟩)
      ∧ decodeCx 0b00011_000000_11111_00000_00000000000 = some (.cxRrs ⟨0, 31, 0⟩)
      ∧ decodeCx 0b01001_000011_00010_00001_000111_00000 = some (.cxMcast ⟨3, 2, 1, 7⟩)
      ∧ decodeCx 0b01000_000000_11111_0000000000000000 = some (.cxPeer ⟨31⟩) := by decide

/-! ## Words of every row of the opcode table -/

/-- Majors 0x01–0x05 and 0x06–0x0F (R101–R104): words by the encodings of the table. -/
theorem test_decode_alu : [
    (0x008A3110, .add ⟨5, 6, 8, true, false⟩),
    (0x008A3111, .sub ⟨5, 6, 8, true, false⟩),
    (0x008A3112, .and ⟨5, 6, 8, true, false⟩),
    (0x008A3113, .or ⟨5, 6, 8, true, false⟩),
    (0x008A3114, .xor ⟨5, 6, 8, true, false⟩),
    (0x008A3115, .shl ⟨5, 6, 8, true, false⟩),
    (0x008A3116, .shr ⟨5, 6, 8, true, false⟩),
    (0x008A3117, .sra ⟨5, 6, 8, true, false⟩),
    (0x010A3110, .mul ⟨5, 6, 8, true, false⟩),
    (0x010A3111, .mulhs ⟨5, 6, 8, true, false⟩),
    (0x010A3112, .mulhu ⟨5, 6, 8, true, false⟩),
    (0x010A3113, .min ⟨5, 6, 8, true, false⟩),
    (0x010A3114, .max ⟨5, 6, 8, true, false⟩),
    (0x010A3115, .minu ⟨5, 6, 8, true, false⟩),
    (0x010A3116, .maxu ⟨5, 6, 8, true, false⟩),
    (0x010A3117, .andn ⟨5, 6, 8, true, false⟩),
    (0x018A3110, .seq ⟨5, 6, 8, true, false⟩),
    (0x018A3111, .sne ⟨5, 6, 8, true, false⟩),
    (0x018A3112, .slt ⟨5, 6, 8, true, false⟩),
    (0x018A3113, .sltu ⟨5, 6, 8, true, false⟩),
    (0x018A3114, .sge ⟨5, 6, 8, true, false⟩),
    (0x018A3115, .sgeu ⟨5, 6, 8, true, false⟩),
    (0x018A3116, .bext ⟨5, 6, 8, true, false⟩),
    (0x018A3117, .bflip ⟨5, 6, 8, true, false⟩),
    (0x020A3110, .div ⟨5, 6, 8, true, false⟩),
    (0x020A3111, .divu ⟨5, 6, 8, true, false⟩),
    (0x020A3112, .rem ⟨5, 6, 8, true, false⟩),
    (0x020A3113, .remu ⟨5, 6, 8, true, false⟩),
    (0x028A3010, .clz ⟨5, 6, true⟩),
    (0x028A3011, .ctz ⟨5, 6, true⟩),
    (0x028A3012, .popc ⟨5, 6, true⟩),
    (0x028A3013, .brev ⟨5, 6, true⟩),
    (0x028A3014, .bswap ⟨5, 6, true⟩),
    (0x028A3115, .sext ⟨5, 6, 8, true, false⟩),
    (0x028A3116, .zext ⟨5, 6, 8, true, false⟩),
    (0x030A36A5, .addi ⟨5, 6, true, 677⟩),
    (0x038A36A5, .andi ⟨5, 6, true, 677⟩),
    (0x040A36A5, .ori ⟨5, 6, true, 677⟩),
    (0x048A36A5, .xori ⟨5, 6, true, 677⟩),
    (0x050A3425, .shli ⟨5, 6, true, 37⟩),
    (0x058A3425, .shri ⟨5, 6, true, 37⟩),
    (0x060A3425, .srai ⟨5, 6, true, 37⟩),
    (0x068A36A5, .slti ⟨5, 6, true, 677⟩),
    (0x070BF0F0, .li ⟨5, 127216⟩),
    (0x078BF0F0, .lcat ⟨5, 127216⟩)
  ].all (fun (p : Nat × Instr) => decode false [p.1] == .ok p.2 1) = true := by decide

/-- FP32 scalars, major 0x1B (R107): words by the encodings of the table. -/
theorem test_decode_float : [
    (0x08003260, .qclr ⟨6, 1⟩),
    (0x0D8A3110, .fadd ⟨5, 6, 8, true, false⟩),
    (0x0D8A3111, .fsub ⟨5, 6, 8, true, false⟩),
    (0x0D8A3112, .fmul ⟨5, 6, 8, true, false⟩),
    (0x0D8A3113, .fdiv ⟨5, 6, 8, true, false⟩),
    (0x0D8A3014, .fsqrt ⟨5, 6, true⟩),
    (0x0D8A3115, .fcmplt ⟨5, 6, 8, true, false⟩),
    (0x0D8A3016, .fcvti ⟨5, 6, true⟩),
    (0x0D8A3017, .icvtf ⟨5, 6, true⟩)
  ].all (fun (p : Nat × Instr) => decode false [p.1] == .ok p.2 1) = true := by decide

/-- Queues, branches, loops, timing words: majors 0x00, 0x10–0x17 (R105–R124): words by the encodings of the table. -/
theorem test_decode_control : [
    (0x00010007, .idle ⟨65543⟩),
    (0x08143300, .mov ⟨10, 6, 1, true⟩),
    (0x08003220, .drop ⟨6, 1⟩),
    (0x08143240, .qcnt ⟨10, 6, 1⟩),
    (0x08990FF0, .brc ⟨12, 33, true, 1008⟩),
    (0x088007F0, .br ⟨1008⟩),
    (0x09190C00, .grd ⟨12, 33, true⟩),
    (0x09803409, .loop ⟨6, true, 9⟩),
    (0x0A001234, .call ⟨4660⟩),
    (0x0A803010, .jr ⟨6, true⟩),
    (0x0A803011, .jrl ⟨6, true⟩),
    (0x0B800000, .segend),
    (0x0B800001, .slath),
    (0x0B8A0002, .tbrd ⟨5⟩),
    (0x0B8A0003, .wbrd ⟨5⟩),
    (0x0B803014, .phase ⟨6, true⟩),
    (0x0B803005, .waitq ⟨6⟩),
    (0x0B803016, .waitf ⟨6, true⟩)
  ].all (fun (p : Nat × Instr) => decode false [p.1] == .ok p.2 1) = true := by decide

/-- Streams and tables, majors 0x18–0x1A (R125–R129): words by the encodings of the table. -/
theorem test_decode_streams : [
    (0x0C980000, .close ⟨3⟩),
    (0x0C9800D1, .sadv ⟨3, 6, true⟩),
    (0x0C980002, .srew ⟨3⟩),
    (0x0C9800C3, .sstat ⟨3, 6⟩),
    (0x0D003110, .ltwr ⟨6, 8, true, false⟩),
    (0x0D0A3011, .ltrd ⟨5, 6, true⟩),
    (0x0D003112, .fpwr ⟨6, 8, true, false⟩),
    (0x0D0A3013, .fprd ⟨5, 6, true⟩),
    (0x0D003114, .tswr ⟨6, 8, true, false⟩),
    (0x0D0A3015, .tsrd ⟨5, 6, true⟩)
  ].all (fun (p : Nat × Instr) => decode false [p.1] == .ok p.2 1) = true := by decide

/-- Elementwise vector instructions, majors 0x20–0x23 (R140–R143): words by the encodings of the table. -/
theorem test_decode_vector : [
    (0x101E4900, .vadd ⟨7, 18, 9, 0⟩),
    (0x101E4908, .vsub ⟨7, 18, 9, 0⟩),
    (0x101E4910, .vmul ⟨7, 18, 9, 0⟩),
    (0x101E4918, .vfma ⟨7, 18, 9, 0⟩),
    (0x101E4920, .vfms ⟨7, 18, 9, 0⟩),
    (0x101E4928, .vmin ⟨7, 18, 9, 0⟩),
    (0x101E4930, .vmax ⟨7, 18, 9, 0⟩),
    (0x101E4038, .vabs ⟨7, 18, 0⟩),
    (0x101E4040, .vneg ⟨7, 18, 0⟩),
    (0x101E494B, .vadds ⟨7, 18, 9, 3⟩),
    (0x101E4953, .vsubs ⟨7, 18, 9, 3⟩),
    (0x101E495B, .vmulhi ⟨7, 18, 9, 3⟩),
    (0x101E4963, .vdiff ⟨7, 18, 9, 3⟩),
    (0x109E4000, .vrcp ⟨7, 18, 0⟩),
    (0x109E4008, .vrsq ⟨7, 18, 0⟩),
    (0x109E4010, .vsqrt ⟨7, 18, 0⟩),
    (0x109E4018, .vexp2 ⟨7, 18, 0⟩),
    (0x109E4020, .vlog2 ⟨7, 18, 0⟩),
    (0x109E4028, .vfloor ⟨7, 18, 0⟩),
    (0x109E4030, .vround ⟨7, 18, 0⟩),
    (0x109E4938, .vscale ⟨7, 18, 9, 0⟩),
    (0x111E4900, .vand ⟨7, 18, 9, 0⟩),
    (0x111E4908, .vor ⟨7, 18, 9, 0⟩),
    (0x111E4910, .vxor ⟨7, 18, 9, 0⟩),
    (0x111E4918, .vandn ⟨7, 18, 9, 0⟩),
    (0x111E4920, .vshl ⟨7, 18, 9, 0⟩),
    (0x111E4928, .vshr ⟨7, 18, 9, 0⟩),
    (0x111E4930, .vsra ⟨7, 18, 9, 0⟩),
    (0x111E4038, .vpopc ⟨7, 18, 0⟩),
    (0x119E4900, .vceq ⟨7, 18, 9, 0⟩),
    (0x119E4908, .vcne ⟨7, 18, 9, 0⟩),
    (0x119E4910, .vclt ⟨7, 18, 9, 0⟩),
    (0x119E4918, .vcle ⟨7, 18, 9, 0⟩),
    (0x119E4920, .vcun ⟨7, 18, 9, 0⟩),
    (0x119E4928, .vsel ⟨7, 18, 9, 0⟩)
  ].all (fun (p : Nat × Instr) => decode false [p.1] == .ok p.2 1) = true := by decide

/-- Other vector instructions, majors 0x24–0x27 (R144–R153): words by the encodings of the table. -/
theorem test_decode_vector_words : [
    (0x121E4000, .vsum ⟨7, 18, 0⟩),
    (0x121E4008, .vmaxr ⟨7, 18, 0⟩),
    (0x121E4010, .vminr ⟨7, 18, 0⟩),
    (0x121E4018, .vamaxr ⟨7, 18, 0⟩),
    (0x121E4020, .vsumsq ⟨7, 18, 0⟩),
    (0x121E4928, .vdot ⟨7, 18, 9, 0⟩),
    (0x129E4008, .vcvt ⟨7, 18, 1, 0⟩),
    (0x131E4500, .vbcast ⟨7, 18, 5, 0⟩),
    (0x131E4908, .vzip ⟨7, 18, 9, 0⟩),
    (0x131E4910, .vunzip ⟨7, 18, 9, 0⟩),
    (0x131E4018, .vrev ⟨7, 18, 0⟩),
    (0x131E4920, .vshufl ⟨7, 18, 9, 0⟩),
    (0x131E4528, .vrotl ⟨7, 18, 5, 0⟩),
    (0x131E4031, .vunpk3 ⟨7, 18, 1⟩),
    (0x131E4039, .vunpk4 ⟨7, 18, 1⟩),
    (0x13A36A00, .vtoq ⟨8, 1, 11, 1, 2, 0⟩),
    (0x13ED0A08, .vfromq ⟨1, 11, 8, 1, 2, 0⟩),
    (0x139C0010, .viota ⟨7, 0⟩),
    (0x139C0018, .vzero ⟨7⟩)
  ].all (fun (p : Nat × Instr) => decode false [p.1] == .ok p.2 1) = true := by decide

/-- QUANT, DEQUANT and record instructions, majors 0x30 and 0x32 (R194–R203): words by the encodings of the table. -/
theorem test_decode_records : [
    (0x184E42D0, .quantTensor ⟨19, 18, 2, 6, true⟩),
    (0x184E46C0, .quantBlock ⟨19, 18, 2, 6⟩),
    (0x184E4AD0, .quantBlockTensor ⟨19, 18, 2, 6, true⟩),
    (0x184E4EC0, .quantCast ⟨19, 18, 2, 6⟩),
    (0x18CE4000, .dequantTensor ⟨19, 18⟩),
    (0x18CE4400, .dequantBlock ⟨19, 18⟩),
    (0x18CE4800, .dequantBlockTensor ⟨19, 18⟩),
    (0x18CE4C00, .dequantCast ⟨19, 18⟩),
    (0x19003110, .stbind ⟨6, 8, true, false⟩),
    (0x19003011, .stclr ⟨6, true⟩),
    (0x190A3012, .strd ⟨5, 6, true⟩),
    (0x19003013, .stmerge ⟨6, true⟩),
    (0x190A3014, .stgen ⟨5, 6, true⟩),
    (0x19003115, .stset ⟨6, 8, true, false⟩)
  ].all (fun (p : Nat × Instr) => decode false [p.1] == .ok p.2 1) = true := by decide

/-- Instructions to the engines, major 0x34 (R231–R236) and 0x35 (R364–R367): words by the encodings of the table. -/
theorem test_decode_engine_instructions : [
    (0x1A0C4000, .mcstart ⟨6, 8⟩),
    (0x1A0C4100, .mcstopStop ⟨6, 8⟩),
    (0x1A0C4200, .mcbase ⟨6, 8⟩),
    (0x1A0C4300, .mcbind ⟨6, 8⟩),
    (0x1A0C4400, .mcstat ⟨6, 8⟩),
    (0x1A8C4000, .colstart ⟨6, 8⟩),
    (0x1A8C4100, .colstat ⟨6, 8⟩),
    (0x1A8C0200, .colabort ⟨6⟩)
  ].all (fun (p : Nat × Instr) => decode false [p.1] == .ok p.2 1) = true := by decide

/-- Matrix array and factorisations, majors 0x28–0x2B (R249–R281): words by the encodings of the table. -/
theorem test_decode_matrix : [
    (0x144D9568, .mmaFlt ⟨77, 18, 21, true, false, true⟩),
    (0x144D9569, .mmaW4 ⟨77, 18, 21, true, false, true⟩),
    (0x144D956A, .mmaL6 ⟨77, 18, 21, true, false, true⟩),
    (0x144D956B, .mmaT3 ⟨77, 18, 21, true, false, true⟩),
    (0x144D956C, .mmaI8 ⟨77, 18, 21, true, false, true⟩),
    (0x144D956D, .mmaF32 ⟨77, 18, 21, true, false, true⟩),
    (0x14CD0000, .accz ⟨77⟩),
    (0x14CD9009, .accmv ⟨77, 18, 1⟩),
    (0x14CD9010, .accld ⟨77, 18⟩),
    (0x14CD9018, .accadd ⟨77, 18⟩),
    (0x154D0000, .chol ⟨77⟩),
    (0x154D0040, .lup ⟨77⟩),
    (0x154D0080, .givqr ⟨77⟩),
    (0x154D42C0, .grot ⟨77, 33⟩),
    (0x154D430A, .trsm ⟨77, 33, 10⟩),
    (0x158A3010, .accrd ⟨5, 6, true⟩),
    (0x15803111, .accwr ⟨6, 8, true, false⟩),
    (0x158A3012, .pivrd ⟨5, 6, true⟩),
    (0x158A3013, .gfrd ⟨5, 6, true⟩),
    (0x158A3014, .estep ⟨5, 6, true⟩),
    (0x15803015, .resume ⟨6, true⟩),
    (0x15803016, .eabort ⟨6, true⟩)
  ].all (fun (p : Nat × Instr) => decode false [p.1] == .ok p.2 1) = true := by decide

/-- Atomics, flags, paged memory: majors 0x1C–0x1F (R286–R324): words by the encodings of the table. -/
theorem test_decode_memory : [
    (0x0E0A311D, .ldsD ⟨5, 6, true, 29⟩),
    (0x0E0A313D, .ldsWu ⟨5, 6, true, 29⟩),
    (0x0E0A315D, .ldsWs ⟨5, 6, true, 29⟩),
    (0x0E0A317D, .ldsHu ⟨5, 6, true, 29⟩),
    (0x0E0A319D, .ldsBu ⟨5, 6, true, 29⟩),
    (0x0E8A311D, .stsD ⟨5, 6, true, 29⟩),
    (0x0E8A313D, .stsW ⟨5, 6, true, 29⟩),
    (0x0E8A315D, .stsH ⟨5, 6, true, 29⟩),
    (0x0E8A317D, .stsB ⟨5, 6, true, 29⟩),
    (0x0F0A3010, .ldq ⟨5, 6, true⟩),
    (0x0F003111, .stq ⟨6, 8, true, false⟩),
    (0x0F003112, .rstq ⟨6, 8, true, false⟩),
    (0x0F003113, .migr ⟨6, 8, true, false⟩),
    (0x0F0A0004, .austat ⟨5⟩),
    (0x0F8A3110, .amoadd ⟨5, 6, 8, true, false⟩),
    (0x0F8A3111, .amomax ⟨5, 6, 8, true, false⟩),
    (0x0F8A3112, .amoswp ⟨5, 6, 8, true, false⟩),
    (0x0F8A3113, .amocas ⟨5, 6, 8, true, false⟩),
    (0x0F8A3114, .pamoadd ⟨5, 6, 8, true, false⟩),
    (0x0F8A3115, .pamocas ⟨5, 6, 8, true, false⟩),
    (0x0F8A3016, .flagrd ⟨5, 6, true⟩),
    (0x0F803117, .flagset ⟨6, 8, true, false⟩),
    (0x1D000006, .fence)
  ].all (fun (p : Nat × Instr) => decode false [p.1] == .ok p.2 1) = true := by decide

/-- Contexts, CSRs, system words: majors 0x38–0x3B (R376–R408): words by the encodings of the table. -/
theorem test_decode_system : [
    (0x1C0A0042, .csrrd ⟨5, 66⟩),
    (0x1C803042, .csrwr ⟨6, 66⟩),
    (0x1D003010, .trap ⟨6, true⟩),
    (0x1D000001, .tret),
    (0x1D0A3012, .ctxrd ⟨5, 6, true⟩),
    (0x1D003113, .ctxwr ⟨6, 8, true, false⟩),
    (0x1D003014, .ctxswSwitch ⟨6, true⟩),
    (0x1D000005, .snap),
    (0x1D000007, .halt)
  ].all (fun (p : Nat × Instr) => decode false [p.1] == .ok p.2 1) = true := by decide

/-- Major 0x3B on a system core (R406, R408): words by the encodings of the table. -/
theorem test_decode_system_words_of_system_cores : [
    (0x1D8A3110, .mtlbinv ⟨5, 6, 8, true, false⟩),
    (0x1D8A3111, .mtlbwr ⟨5, 6, 8, true, false⟩),
    (0x1D8A3112, .lptwr ⟨5, 6, 8, true, false⟩),
    (0x1D8A3113, .hvcallVersion ⟨5, 6, 8, true, false⟩)
  ].all (fun (p : Nat × Instr) => decode true [p.1] == .ok p.2 1) = true := by decide

/-- Words of the memory command tables (R209): words by the encodings of the table. -/
theorem test_decode_table_words : [
    (0x001BBEEF, .mcAct ⟨11, 48879⟩),
    (0x002B9840, .mcRd ⟨11, 9, true, 64⟩),
    (0x003B9840, .mcWr ⟨11, 9, true, 64⟩),
    (0x004B0000, .mcPre ⟨11⟩),
    (0x00500000, .mcPrea),
    (0x006B0000, .mcRefpb ⟨11⟩),
    (0x00700000, .mcRefab),
    (0x0080CAFE, .mcTag ⟨51966⟩),
    (0x00900002, .mcBind ⟨2⟩),
    (0x00A58123, .mcSvw ⟨1, 6, 291⟩),
    (0x00B89A64, .mcLoop ⟨1, 77, 100⟩),
    (0x00C00000, .mcEnd),
    (0x00D54321, .mcDly ⟨344865⟩)
  ].all (fun (p : Nat × Instr) => decodeMc p.1 == some p.2) = true := by decide

/-- Collective words (R347): words by the encodings of the table. -/
theorem test_decode_collective_words : [
    (0x00000000, .cxNop),
    (0x0D330800, .cxSend ⟨41, 19, 1⟩),
    (0x15330800, .cxRecv ⟨41, 19, 1⟩),
    (0x1D330800, .cxRrs ⟨41, 19, 1⟩),
    (0x253300E0, .cxCopy ⟨41, 19, 7⟩),
    (0x2D330800, .cxRed ⟨41, 19, 1⟩),
    (0x30130029, .cxWaitDelivery ⟨19, 41⟩),
    (0x30130429, .cxWaitFlag ⟨19, 41⟩),
    (0x38006409, .cxLoop ⟨100, 9⟩),
    (0x401F0000, .cxPeer ⟨31⟩),
    (0x4D330820, .cxMcast ⟨41, 19, 1, 1⟩),
    (0x55200000, .cxDone ⟨41⟩)
  ].all (fun (p : Nat × Instr) => decodeCx p.1 == some p.2) = true := by decide

/-! ## States for the witnesses -/

/-- The context `c` on core 0. -/
def core (c : Ctx) : State := State.reset.setCur c

/-- Queues with one valid entry each. -/
def queues (qs : List (Nat × Word)) : Ctx := { Ctx.reset with q := qs.map (fun p => (p.1, [.val p.2 none])) }

/-- A core outside handler mode: q1 holds 1, q2 holds 2, q4 to q7 hold 0, q32 holds 5, q34 and q35 hold 8 and 3. -/
def user : State := core (queues [(1, 1), (2, 2), (4, 0), (5, 0), (6, 0), (7, 0), (32, 5), (34, 8), (35, 3)])
/-- A core in handler mode: h1 holds 1, h2 holds 2. -/
def handler : State := core { Ctx.reset with handler := true, h := [(1, 1), (2, 2)], epc := 7, pc := 40, cause := 5 }
/-- A system core: g1 holds 1, g2 holds 2. -/
def system : State := { State.reset with onSys := true }.setSys { SysSt.reset with g := [(1, 1), (2, 2)], running := true, pc := 4 }

/-- A source field can be read, as a Bool. -/
def srcB (s : State) (q : Nat) : Bool :=
  if s.onSys then true
  else if s.cur.handler then decide (q < 16)
  else q == 0 || (match qEntries s.cur q with
    | .val _ none :: _ => true
    | _ => false)

theorem srcB_ready {s : State} {q : Nat} (h : srcB s q = true) : SrcReady s q := by
  unfold srcB at h
  split at h
  · exact .inl ‹_›
  · split at h
    · exact .inr (.inl ⟨⟨by simp_all, by simp_all⟩, by simpa using h⟩)
    · refine .inr (.inr ⟨⟨by simp_all, by simp_all⟩, ?_⟩)
      rcases Bool.or_eq_true _ _ |>.mp h with h | h
      · exact .inl (by simpa using h)
      · split at h
        · exact .inr ⟨_, _, ‹_›⟩
        · simp at h

/-- The guard, the loop rule and the sources of an instruction, as a Bool. -/
def readyB (s : State) (x : Doing) : Bool :=
  guardOf s != some false && (loopsOf s).isEmpty && x.srcs.all (fun f => srcB s f.1)

/-- What a statement of completion supposes: the instruction is of its family, may run, and its conditions hold. -/
def Meets (acts : Instr → Option Doing) (i : Instr) (s : State) : Prop :=
  ∃ x, acts i = some x ∧ x.may s ∧ (Unguarded s ∧ LoopRule s x.words x.ends ∧ SrcsReady s x.srcs)
    ∧ x.ok (atIssue s x) (srcValues s x.srcs)

theorem readyB_ready {s : State} {x : Doing} (h : readyB s x = true) :
    Unguarded s ∧ LoopRule s x.words x.ends ∧ SrcsReady s x.srcs := by
  simp only [readyB, Bool.and_eq_true, bne_iff_ne, List.isEmpty_iff, List.all_eq_true] at h
  exact ⟨h.1.1, fun l ls e => by simp [h.1.2] at e, fun f hf => srcB_ready (h.2 f hf)⟩

/-- The sources of a list can be read, as a Bool. -/
theorem srcsB_ready {s : State} {fs : List Src} (h : fs.all (fun f => srcB s f.1) = true) : SrcsReady s fs :=
  fun f hf => srcB_ready (List.all_eq_true.mp h f hf)

theorem meets {acts : Instr → Option Doing} {i : Instr} {s : State} {x : Doing} (h : acts i = some x) (hm : x.may s)
    (hb : readyB s x = true) (hk : x.ok (atIssue s x) (srcValues s x.srcs)) : Meets acts i s := ⟨x, h, hm, readyB_ready hb, hk⟩

theorem unguardedB {s : State} (h : (guardOf s != some false) = true) : Unguarded s := by simpa [Unguarded] using h

theorem noLoops {s : State} {n : Nat} {e : Bool} (h : (loopsOf s).isEmpty = true) : LoopRule s n e := by
  intro l ls he; simp [he] at h

/-- A destination can be named, as a Bool. -/
theorem dstB_ready {s : State} {d : Nat} (h : (s.onSys || !s.cur.handler || decide (d < 16)) = true) : DstReady s d := by
  intro hh
  simpa [hh.1, hh.2] using h

/-- A queue whose head is pending cannot be read. -/
theorem pending_not_ready {s : State} {q n : Nat} {es : List QEntry} (hs : QueueMode s) (hq : q ≠ 0) (h : qEntries s.cur q = .pending n :: es) :
    ¬ SrcReady s q := by
  rintro (h1 | h1 | ⟨_, h1 | ⟨v, fs, h1⟩⟩)
  · exact absurd h1 (by simp [hs.1])
  · exact absurd h1.1.2 (by simp [hs.2])
  · exact hq h1
  · simp [h] at h1

/-- Table words have their parity, as a Bool. -/
theorem intactB {c : Ctx} {ps : List Nat} (h : ps.all (fun p => !c.badTab.contains p) = true) : Intact c ps := by
  intro p hp
  simpa using List.all_eq_true.mp h p hp

/-! ## Scalars, queues, transfers -/

/-- Scalar instructions on a compute core, in handler mode and on a system core: sources that can be read, a destination that can be
named, no false guard. -/
theorem witness_scalars :
    (∃ x, scalarOf 0 0 (.add ⟨5, 1, 2, true, false⟩) = some x ∧ QueueMode user ∧ Unguarded user ∧ SrcsReady user x.srcs ∧ DstReady user x.d)
      ∧ (∃ x, scalarOf 0 0 (.divu ⟨5, 1, 2, true, false⟩) = some x ∧ HandlerMode handler ∧ Unguarded handler ∧ SrcsReady handler x.srcs
          ∧ DstReady handler x.d)
      ∧ (∃ x, scalarOf 0 0 (.addi ⟨63, 1, false, 5⟩) = some x ∧ SystemMode system ∧ Unguarded system ∧ SrcsReady system x.srcs
          ∧ DstReady system x.d) := by
  refine ⟨⟨_, rfl, ⟨rfl, rfl⟩, unguardedB (by decide), srcsB_ready (by decide), dstB_ready (by decide)⟩,
    ⟨_, rfl, ⟨rfl, rfl⟩, unguardedB (by decide), srcsB_ready (by decide), dstB_ready (by decide)⟩,
    ⟨_, rfl, rfl, unguardedB (by decide), srcsB_ready (by decide), dstB_ready (by decide)⟩⟩

/-- Floating instructions on a compute core outside and in handler mode, and on a system core. -/
theorem witness_floats :
    (∃ x, scalarOf (frmCode user.cur.frm) 0 (.fadd ⟨5, 1, 2, true, false⟩) = some x ∧ user.onSys = false ∧ isFloat (.fadd ⟨5, 1, 2, true, false⟩) = true
        ∧ Unguarded user ∧ SrcsReady user x.srcs ∧ DstReady user x.d)
      ∧ (∃ x, scalarOf (frmCode handler.cur.frm) 0 (.fsqrt ⟨5, 1, true⟩) = some x ∧ handler.onSys = false ∧ isFloat (.fsqrt ⟨5, 1, true⟩) = true
        ∧ Unguarded handler ∧ SrcsReady handler x.srcs ∧ DstReady handler x.d)
      ∧ (∃ x, scalarOf (frmCode system.sys.frm) 0 (.fcvti ⟨63, 1, false⟩) = some x ∧ system.onSys = true ∧ isFloat (.fcvti ⟨63, 1, false⟩) = true
        ∧ Unguarded system ∧ SrcsReady system x.srcs ∧ DstReady system x.d) :=
  ⟨⟨_, rfl, rfl, rfl, unguardedB (by decide), srcsB_ready (by decide), dstB_ready (by decide)⟩,
   ⟨_, rfl, rfl, rfl, unguardedB (by decide), srcsB_ready (by decide), dstB_ready (by decide)⟩,
   ⟨_, rfl, rfl, rfl, unguardedB (by decide), srcsB_ready (by decide), dstB_ready (by decide)⟩⟩

/-- MOV, DROP, QCNT and QCLR at widths 1 and 2. -/
theorem witness_queues :
    Meets queueActs (.mov ⟨8, 1, 0, true⟩) user ∧ Meets queueActs (.mov ⟨8, 4, 1, false⟩) user ∧ Meets queueActs (.drop ⟨34, 1⟩) user
      ∧ Meets queueActs (.qcnt ⟨8, 62, 1⟩) user ∧ Meets queueActs (.qclr ⟨8, 3⟩) user ∧ Meets queueActs (.mov ⟨1, 2, 0, false⟩) handler :=
  ⟨meets rfl (.inl ⟨rfl, rfl⟩) (by decide) (dstB_ready (by decide)),
   meets rfl (.inl ⟨rfl, rfl⟩) (by decide) (dstB_ready (by decide)),
   meets rfl ⟨rfl, rfl⟩ (by decide) trivial,
   meets rfl ⟨rfl, rfl⟩ (by decide) trivial,
   meets rfl ⟨rfl, rfl⟩ (by decide) trivial,
   meets rfl (.inr ⟨⟨rfl, rfl⟩, rfl⟩) (by decide) (dstB_ready (by decide))⟩

/-- The same on a system core, whose fields name plain registers. -/
theorem witness_plain_queues :
    Meets plainActs (.mov ⟨8, 4, 1, false⟩) system ∧ Meets plainActs (.drop ⟨34, 1⟩) system ∧ Meets plainActs (.qcnt ⟨8, 62, 1⟩) system
      ∧ Meets plainActs (.qclr ⟨8, 3⟩) system :=
  ⟨meets rfl rfl (by decide) trivial, meets rfl rfl (by decide) trivial, meets rfl rfl (by decide) trivial, meets rfl rfl (by decide) trivial⟩

/-- The core `user` in an OPEN segment, with a loop whose body is words 0 to 5. -/
def looping : State := user.setCur { user.cur with seg := ⟨true, true, 0, 100, 0, 0⟩, loops := [⟨0, 5, 3⟩] }

/-- BRC, BR, CALL, JR, JRL, LOOP, GRD and IDLE. -/
theorem witness_transfers :
    Meets controlActs (.brc ⟨1, 0, false, -1⟩) (user.setCur { user.cur with seg := ⟨true, true, 0, 100, 0, 0⟩ })
      ∧ Meets controlActs (.brc ⟨1, 0, false, 3⟩) handler ∧ Meets controlActs (.br ⟨-1⟩) user ∧ Meets controlActs (.call ⟨9⟩) user
      ∧ Meets controlActs (.jr ⟨1, false⟩) user ∧ Meets controlActs (.jrl ⟨1, true⟩) system ∧ Meets controlActs (.loop ⟨2, false, 4⟩) user
      ∧ Meets controlActs (.loop ⟨4, false, 4⟩) user ∧ Meets controlActs (.grd ⟨1, 0, true⟩) user ∧ Meets controlActs (.idle ⟨3⟩) user :=
  ⟨meets rfl (.inr (.inr ⟨⟨rfl, rfl⟩, rfl, rfl⟩)) (by decide) (srcB_ready (by decide)),
   meets rfl (.inr (.inl ⟨rfl, rfl⟩)) (by decide) (srcB_ready (by decide)),
   meets rfl trivial (by decide) trivial, meets rfl trivial (by decide) trivial, meets rfl trivial (by decide) trivial,
   meets rfl trivial (by decide) trivial, meets rfl trivial (by decide) (by decide), meets rfl trivial (by decide) (by decide),
   meets rfl trivial (by decide) ⟨srcB_ready (by decide), noLoops (by decide)⟩, meets rfl trivial (by decide) trivial⟩

/-- A transfer from word 2 of the body of `looping` to word 6 leaves its loop, one to word 4 does not, and one from outside the body does
not. -/
theorem witness_transfer_clauses :
    (loopsOf looping = [⟨0, 5, 3⟩] ∧ LoopRec.holds ⟨0, 5, 3⟩ 2 = true ∧ LoopRec.holds ⟨0, 5, 3⟩ 5 = true ∧ LoopRec.holds ⟨0, 5, 3⟩ 6 = false)
      ∧ QueueMode looping ∧ (looping.cur.pc + 6 - 1) % 65536 = 5 ∧ (looping.cur.pc + 5 - 1) % 65536 ≠ 5 := by
  refine ⟨by decide, ⟨rfl, rfl⟩, by decide, by decide⟩

/-- The instruction at word `pc` of a context `c`, with a loop whose body ends at word 5. -/
def inLoop (c : Ctx) (pc : Nat) : State := core { c with pc := pc, loops := [⟨0, 5, 3⟩] }

/-- Four loops; a word at the end of a body, words across it, in an OPEN segment, with a layout entry that OPEN may bind and with a guarded JR. -/
theorem witness_loop_clauses :
    (∃ s, Unguarded s ∧ QueueMode s ∧ 4 ≤ (loopsOf s).length)
      ∧ (Unguarded (inLoop user.cur 5) ∧ QueueMode (inLoop user.cur 5) ∧ loopsOf (inLoop user.cur 5) = ⟨0, 5, 3⟩ :: [] ∧ (5 + 0) % 65536 = 5
          ∧ (inLoop user.cur 5).cur.seg.active = false)
      ∧ (∃ s, Unguarded s ∧ QueueMode s ∧ loopsOf s = ⟨0, 5, 3⟩ :: [] ∧ s.cur.seg.active = true ∧ s.cur.seg.opn = true ∧ (pcOf s + 0) % 65536 = 5)
      ∧ (pcOf (inLoop user.cur 2) + 3) % 65536 = 5 ∧ (pcOf (inLoop user.cur 3) + 2) % 65536 = 5
      ∧ (∃ s, Unguarded s ∧ QueueMode s ∧ loopsOf s = ⟨0, 5, 3⟩ :: [] ∧ (pcOf s + 1) % 65536 = 5 ∧ guardedEnds (nextWord s) = true)
      ∧ (let s := inLoop user.cur 5
        Unguarded s ∧ QueueMode s ∧ (pcOf s + 0) % 65536 = 5 ∧ Intact s.cur (entryPlaces 0) ∧ layoutOk (layoutEntry s.cur 0) = true
          ∧ openRecOk s false (layoutEntry s.cur 0) = true
          ∧ startOk (layoutEntry s.cur 0) ((srcValues s [(4, false), (5, false), (6, false), (7, false)]).map BitVec.toNat) 1 = true) := by
  refine ⟨⟨core { user.cur with loops := List.replicate 4 ⟨0, 5, 3⟩ }, unguardedB (by decide), ⟨rfl, rfl⟩, by decide⟩,
    ⟨unguardedB (by decide), ⟨rfl, rfl⟩, rfl, rfl, rfl⟩,
    ⟨inLoop { user.cur with seg := ⟨true, true, 0, 100, 0, 0⟩ } 5, unguardedB (by decide), ⟨rfl, rfl⟩, rfl, rfl, rfl, rfl⟩, rfl, rfl,
    ⟨{ inLoop user.cur 4 with mem := Memory.writeN [] (imemAddr 0 0 5) (bytesOf 4 0x0A800000) }, unguardedB (by decide), ⟨rfl, rfl⟩, rfl, rfl,
      by decide⟩,
    unguardedB (by decide), ⟨rfl, rfl⟩, rfl, intactB (by decide), by decide, by decide, by decide⟩

/-- A register field of 16 or more of each kind of instruction. -/
theorem witness_handler_fields :
    ∀ i ∈ [Instr.mov ⟨16, 1, 0, false⟩, .ltwr ⟨1, 17, false, false⟩, .flagrd ⟨20, 1, false⟩, .jr ⟨63, false⟩, .loop ⟨16, false, 4⟩, .grd ⟨16, 0, true⟩,
      .brc ⟨16, 0, true, 3⟩, .csrrd ⟨16, 0⟩, .csrwr ⟨16, 0⟩, .ctxrd ⟨16, 1, false⟩, .ctxwr ⟨1, 16, false, false⟩, .trap ⟨16, false⟩, .wbrd ⟨16⟩],
      ∃ r ∈ handlerFields i, 16 ≤ r := by decide

/-- Indexes of LPTWR of every table, and of each reason. -/
theorem witness_lptwr :
    (∀ a ∈ [0, 2 ^ 60, 2 * 2 ^ 60, 3 * 2 ^ 60, 4 * 2 ^ 60, 5 * 2 ^ 60, 6 * 2 ^ 60, 7 * 2 ^ 60, 7 * 2 ^ 60 + 1], lptReason system a = none)
      ∧ (∀ a ∈ [8 * 2 ^ 60, 2 ^ 36, 7 * 2 ^ 60 + 2], lptReason system a = some 1)
      ∧ (∀ a ∈ [2 ^ 33, 2 ^ 60 + 2 ^ 7, 3 * 2 ^ 60 + 512, 5 * 2 ^ 60 + 32, 6 * 2 ^ 60 + 2 ^ 7], lptReason system a = some 2)
      ∧ lptReason (system.setDie 0 { DieSt.reset with pte := [(0, 0x40)] }) 0 = some 3 := by decide

/-- A false guard, before an instruction of one word, of two and of four, and before IDLE. -/
theorem witness_false_guard :
    guardOf (user.setCur { user.cur with guard := some false }) = some false ∧ isSequencer (.add ⟨5, 1, 2, false, false⟩) = true
      ∧ isSequencer (.openS ⟨0, 3, 4, false, false, false, 0, 8, 5⟩) = true ∧ isSequencer (.idle ⟨7⟩) = true
      ∧ isSequencer (.mcEnd) = false ∧ isSequencer (.launch) = false := by decide

/-- `ADD q5, q1, q9`, whose second source is empty. -/
theorem witness_empty_source :
    ∃ x, scalarOf 0 0 (.add ⟨5, 1, 9, true, false⟩) = some x ∧ QueueMode user ∧ Unguarded user ∧ x.srcs = [(1, true)] ++ (9, false) :: []
      ∧ qEntries user.cur 1 ≠ [] ∧ qEntries user.cur 9 = [] :=
  ⟨_, rfl, ⟨rfl, rfl⟩, unguardedB (by decide), rfl, by decide, by decide⟩

/-- Instructions that handler mode forbids and that it alone allows; a register field of 16. -/
theorem witness_handler_rules :
    notInHandler (.drop ⟨5, 0⟩) = true ∧ notInHandler (.mov ⟨8, 10, 1, false⟩) = true ∧ notInHandler (.mov ⟨8, 10, 0, false⟩) = false
      ∧ onlyInHandler (.wbrd ⟨5⟩) = true ∧ HandlerMode handler ∧ Unguarded handler ∧ QueueMode user ∧ Unguarded user
      ∧ ∃ x, scalarOf 0 0 (.add ⟨5, 16, 2, false, false⟩) = some x ∧ ∃ f ∈ x.srcs, f.1 ≥ 16 :=
  ⟨rfl, by decide, by decide, rfl, ⟨rfl, rfl⟩, unguardedB (by decide), ⟨rfl, rfl⟩, unguardedB (by decide), _, rfl, (16, false), by decide, by decide⟩

/-- Every kind of agent, for the operand rules. -/
theorem witness_agents : QueueMode user ∧ HandlerMode handler ∧ SystemMode system ∧ user.cur.handler = false ∧ handler.cur.handler = true :=
  ⟨⟨rfl, rfl⟩, ⟨rfl, rfl⟩, rfl, rfl, rfl⟩

/-! ## Segments and waits -/

/-- The core `user` in a timed segment of 4 cycles that began on cycle 0, on cycle `n`. -/
def timed (n : Nat) : State := user.setCur { user.cur with now := n, seg := ⟨true, false, 0, 4, 0xFFFFFFFF, 0⟩ }

/-- SEG on its stamp and OPEN, SEGEND on its cycle, SLATH, WBRD. -/
theorem witness_segments :
    Meets segmentActs (.seg ⟨false, 8, 0, 5⟩) user ∧ Meets segmentActs (.seg ⟨true, 8, 0, 0⟩) user ∧ Meets segmentActs .segend (timed 4)
      ∧ Meets segmentActs .slath user ∧ Meets segmentActs (.wbrd ⟨3⟩) handler :=
  ⟨meets rfl ⟨⟨rfl, rfl⟩, rfl⟩ (by decide) (.inr rfl), meets rfl ⟨⟨rfl, rfl⟩, rfl⟩ (by decide) (.inl rfl),
   meets rfl ⟨⟨rfl, rfl⟩, rfl⟩ (by decide) (.inr ⟨rfl, rfl⟩), meets rfl ⟨⟨rfl, rfl⟩, rfl⟩ (by decide) trivial,
   meets rfl (.inr ⟨rfl, rfl⟩) (by decide) (dstB_ready (by decide))⟩

/-- SEG one cycle after its stamp and one before, SEGEND one cycle off and with another signature. -/
theorem witness_segment_traps :
    (QueueMode (timed 3) ∧ Unguarded (timed 3) ∧ LoopRule (timed 3) 1 true ∧ (timed 3).cur.seg.active = true ∧ (timed 3).cur.seg.opn = false
        ∧ (timed 3).cur.now ≠ (timed 3).cur.seg.start + (timed 3).cur.seg.cnt)
      ∧ (timed 4).cur.now = (timed 4).cur.seg.start + (timed 4).cur.seg.cnt
      ∧ (user.cur.seg.active = false ∧ LoopRule user 4 true ∧ user.cur.now < user.cur.release + 1)
      ∧ (user.setCur { user.cur with now := 1 }).cur.release < 1 :=
  ⟨⟨⟨rfl, rfl⟩, unguardedB (by decide), noLoops (by decide), rfl, rfl, by decide⟩, rfl, ⟨rfl, noLoops (by decide), by decide⟩, by decide⟩

/-- The core `user` with flag 1 ready, flag 2 with overrun and flag 0 neither; q9 with a pending head. -/
def flagged : State := user.setCur { user.cur with
  flags := [(1, ⟨0, 0, true, true, false⟩), (2, ⟨0, 0, true, false, true⟩)], q := user.cur.q.set 9 [.pending 0] }

/-- PHASE of no footprint, WAITQ of a valid head, WAITF of a ready flag, FENCE with nothing out. -/
theorem witness_waits :
    Meets waitActs (.phase ⟨4, false⟩) user ∧ Meets waitActs (.waitq ⟨1⟩) user ∧ Meets waitActs (.waitf ⟨1, false⟩) flagged
      ∧ Meets waitActs .fence user :=
  ⟨meets rfl ⟨rfl, rfl⟩ (by decide) ⟨intactB (by decide), by decide, by decide, by decide, by decide, by decide, rfl⟩,
   meets rfl ⟨rfl, rfl⟩ (by decide) (srcB_ready (by decide)),
   meets rfl ⟨rfl, rfl⟩ (by decide) ⟨by decide, by decide, by decide⟩,
   meets rfl trivial (by decide) (fun _ => ⟨by decide, rfl⟩)⟩

/-- WAITQ of a pending and of an empty queue, WAITF of a flag not ready, of one with overrun and of an operand of 12 bits, FENCE with a load
out. -/
theorem witness_waits_that_stop :
    qEntries flagged.cur 9 = [.pending 0] ∧ qEntries flagged.cur 10 = []
      ∧ (SrcReady flagged 4 ∧ (flagOf flagged.cur (srcValue flagged 4).toNat).ready = false)
      ∧ (SrcReady flagged 2 ∧ (flagOf flagged.cur (srcValue flagged 2).toNat).ovr = true)
      ∧ srcValue (core (queues [(1, 2048)])) 1 = 2048
      ∧ fenceDone (user.setCur (enterRequest user.cur (newRequest user .load 0 8))) = false :=
  ⟨by decide, by decide, ⟨srcB_ready (by decide), by decide⟩, ⟨srcB_ready (by decide), by decide⟩, by decide, by decide⟩

/-- PHASE of a selected entry with engine code 4 and of two write entries of different engines that share granule 5, with two equal time slots,
with a store of the lot before on its way, with a load out; q1 selects entry 0, q35 entries 0 and 1. -/
theorem witness_phase_that_stops :
    let broken := user.setCur { user.cur with foot := [(0, 4)] }
    let shared := user.setCur { user.cur with foot := [(0, 9 + 5 * 2 ^ 16 + 7 * 2 ^ 32), (4, 10 + 5 * 2 ^ 16 + 5 * 2 ^ 32)] }
    let clash := user.setCur { user.cur with slots := [(0, 2 ^ 8), (1, 2 ^ 8 + 2 ^ 9)] }
    (SrcReady user 1 ∧ Intact user.cur (phasePlaces (srcValue user 1)) ∧ Intact user.cur (phasePlaces (srcValue user 35)))
      ∧ (srcValue broken 1).getLsbD 0 = true ∧ footBad broken.cur 0 = true
      ∧ slotsClash clash.cur = true
      ∧ firstConflict shared.cur (srcValue shared 35).toNat = some (0, 1, 5)
      ∧ lotDraining (user.setCur { user.cur with aus := [{ newRequest user .store 0 8 with place := .departed }] }).cur = true
      ∧ (let out := user.setCur (enterRequest user.cur (newRequest user .load 0 8))
         firstConflict out.cur 1 = none ∧ slotsClash out.cur = false ∧ lotDraining out.cur = false ∧ loadsOut out.cur = true
          ∧ footBad out.cur 0 = false) :=
  ⟨⟨srcB_ready (by decide), intactB (by decide), intactB (by decide)⟩, by decide, by decide, by decide, by decide, by decide,
   by decide, by decide, by decide, by decide, by decide⟩

/-! ## Streams, tables, flags, CSRs, items -/

/-- A stream of a layout entry of one element in a format, a write stream where `wr`. -/
def stream (fmt : Nat) (wr : Bool) : Strm :=
  { entry := ⟨BitVec.ofNat 64 (fmt * 2 ^ 25), BitVec.ofNat 64 (2 ^ 16), 0, 0, 0, 0⟩, lte := 0, wr := wr, dir := false, lane := 0, station := 0, t1 := 9,
    cnt := 5, remaining := 5, adv := 0, off := 9, sched := 0, start := 0, cursor := 0, seen := [], seenScale := [] }

/-- The core `user` with stream 3 open. -/
def streaming : State := user.setCur { user.cur with strms := [(3, stream 0 false)] }

theorem witness_streams :
    Meets streamActs (.openS ⟨3, 0, 4, false, false, false, 0, 2, 1⟩) user ∧ Meets streamActs (.close ⟨3⟩) streaming
      ∧ Meets streamActs (.sadv ⟨3, 1, false⟩) streaming ∧ Meets streamActs (.srew ⟨3⟩) streaming ∧ Meets streamActs (.sstat ⟨3, 9⟩) user :=
  ⟨meets rfl ⟨rfl, rfl⟩ (by decide) ⟨intactB (by decide), by decide, by decide, by decide, by decide⟩, meets rfl ⟨rfl, rfl⟩ (by decide) trivial,
   meets rfl ⟨rfl, rfl⟩ (by decide) ⟨stream 0 false, by decide, by decide⟩, meets rfl ⟨rfl, rfl⟩ (by decide) (by decide),
   meets rfl ⟨rfl, rfl⟩ (by decide) trivial⟩

/-- OPEN of an open stream, SADV and SREW of a closed one, SADV of 6 words where 5 remain. -/
theorem witness_stream_traps :
    streaming.cur.strms.find 3 = some (stream 0 false) ∧ streaming.cur.strms.find 2 = none ∧ Unguarded streaming ∧ QueueMode streaming
      ∧ SrcReady (streaming.setCur { streaming.cur with q := [(1, [.val 6 none])] }) 1
      ∧ (stream 0 false).remaining - b2n ((stream 0 false).due 0) < 6 :=
  ⟨by decide, by decide, unguardedB (by decide), ⟨rfl, rfl⟩, srcB_ready (by decide), by decide⟩

/-- An open stream whose entry may be bound, and one whose entry has a format code that no format has. -/
theorem witness_stream_entries :
    LoopRule streaming 2 false ∧ Intact streaming.cur (entryPlaces 0) ∧ layoutOk (layoutEntry streaming.cur 0) = true
      ∧ openRecOk streaming false (layoutEntry streaming.cur 0) = true
      ∧ startOk (layoutEntry streaming.cur 0) ((srcValues streaming ([0, 1, 2, 3].map (fun k => (4 + k, false)))).map BitVec.toNat) 1 = true
      ∧ layoutOk (layoutEntry { streaming.cur with layout := [(0, BitVec.ofNat 64 (31 * 2 ^ 25))] } 0) = false :=
  ⟨(by intro l ls h; cases h), intactB (by decide), by decide, by decide, by decide, by decide⟩

theorem witness_tables :
    Meets tableActs (.ltwr ⟨1, 2, false, false⟩) user ∧ Meets tableActs (.ltrd ⟨3, 1, false⟩) handler ∧ Meets tableActs (.fpwr ⟨1, 2, false, false⟩) user
      ∧ Meets tableActs (.fprd ⟨3, 1, false⟩) user ∧ Meets tableActs (.tswr ⟨1, 2, false, false⟩) user ∧ Meets tableActs (.tsrd ⟨3, 1, false⟩) user
      ∧ Meets flagActs (.flagset ⟨1, 2, false, false⟩) user ∧ Meets flagActs (.flagrd ⟨3, 1, false⟩) flagged
      ∧ Meets flagActs (.flagrd ⟨3, 1, false⟩) (handler.setCur { handler.cur with h := [(1, 2049)] })
      ∧ ¬ inTable 3 6 2048 6 ∧ ¬ inTable 2 3 256 3 ∧ ¬ inTable 0 1 64 64 ∧ inTable 3 6 2048 2045 ∧ inTable 0 1 64 63 :=
  ⟨meets rfl trivial (by decide) ⟨by decide, by decide⟩,
   meets rfl trivial (by decide) ⟨dstB_ready (by decide), ⟨by decide, by decide⟩, intactB (by decide)⟩,
   meets rfl trivial (by decide) ⟨by decide, by decide⟩,
   meets rfl trivial (by decide) ⟨dstB_ready (by decide), ⟨by decide, by decide⟩, intactB (by decide)⟩,
   meets rfl trivial (by decide) ⟨by decide, by decide⟩,
   meets rfl trivial (by decide) ⟨dstB_ready (by decide), ⟨by decide, by decide⟩, intactB (by decide)⟩,
   meets rfl trivial (by decide) ⟨by decide, by decide⟩, meets rfl trivial (by decide) ⟨dstB_ready (by decide), by decide, by decide⟩,
   meets rfl trivial (by decide) ⟨dstB_ready (by decide), by decide, by decide⟩, by unfold inTable; decide, by unfold inTable; decide, by unfold inTable; decide, by unfold inTable; decide, by unfold inTable; decide⟩

theorem witness_csrs :
    Meets csrActs (.csrrd ⟨3, 0x42⟩) user ∧ Meets csrActs (.csrrd ⟨3, 0x102⟩) system ∧ Meets csrActs (.csrwr ⟨1, 0x08⟩) user
      ∧ Meets csrActs (.trap ⟨1, false⟩) user ∧ Meets csrActs .snap user ∧ Meets csrActs .halt user :=
  ⟨meets rfl trivial (by decide) ⟨dstB_ready (by decide), fun h => nomatch h.2⟩, meets rfl trivial (by decide) ⟨dstB_ready (by decide), fun h => nomatch h.1⟩,
   meets rfl trivial (by decide) trivial, meets rfl ⟨rfl, rfl⟩ (by decide) trivial, meets rfl trivial (by decide) trivial,
   meets rfl ⟨⟨rfl, rfl⟩, rfl⟩ (by decide) trivial⟩

/-- CTXRD and CTXWR of the CSR EPC (class 7) in handler mode. -/
theorem witness_items :
    Meets itemActs (.ctxrd ⟨3, 1, false⟩) (handler.setCur { handler.cur with h := [(1, 0x70001)] })
      ∧ Meets itemActs (.ctxwr ⟨1, 2, false, false⟩) (handler.setCur { handler.cur with h := [(1, 0x70001), (2, 9)] }) :=
  ⟨meets rfl (.inr ⟨rfl, rfl⟩) (by decide) ⟨dstB_ready (by decide), _, _, _, rfl, rfl⟩,
   meets rfl (.inr ⟨rfl, rfl⟩) (by decide) ⟨_, _, rfl, rfl⟩⟩

/-! ## Memory instructions, records -/

/-- A task of cores 0 and 1. -/
def job : Task :=
  { notify := false, wdog := 0, cores := [0, 1], crec := 0, task := 0, args := [], podn := 0, status := 0, arrived := [],
    tb0 := none, slathWb := 0, slathFired := false, relWb := 0, lastHalt := 0, lastHaltWb := 0, holds := 0 }

/-- Partition 0 with the task in slot 0, which owns records 1 and 2; group 1 is valid. -/
def shared : PartSt := { PartSt.boot 1 with
  dom0 := { Domain.reset with task := some job }, owners := [(1, 4), (2, 4)], groups := [(1024, 1 + 2 * 512)] }

/-- The core `user` of that task. -/
def member : State := user.setPart 0 shared

theorem witness_paged :
    Meets pagedActs (.ldsD ⟨9, 4, false, 0⟩) user ∧ Meets pagedActs (.ldsWu ⟨9, 4, false, 1⟩) user ∧ Meets pagedActs (.ldsWs ⟨9, 4, true, 1⟩) user
      ∧ Meets pagedActs (.ldsHu ⟨0, 4, false, 1⟩) user ∧ Meets pagedActs (.ldsBu ⟨9, 1, false, 0⟩) user
      ∧ Meets pagedActs (.stsD ⟨1, 4, false, 15⟩) user ∧ Meets pagedActs (.stsW ⟨1, 4, false, 1⟩) user ∧ Meets pagedActs (.stsH ⟨1, 4, false, 1⟩) user
      ∧ Meets pagedActs (.stsB ⟨1, 2, false, -1⟩) user ∧ Meets pagedActs (.ldq ⟨9, 4, false⟩) user ∧ Meets pagedActs (.ldqLineFill ⟨9, 1, false⟩) user
      ∧ Meets pagedActs (.stq ⟨4, 1, false, false⟩) user ∧ Meets pagedActs (.migr ⟨4, 1, false, false⟩) user
      ∧ Meets pagedActs (.pamoadd ⟨9, 4, 1, false, false⟩) user ∧ Meets pagedActs (.pamocas ⟨9, 4, 34, false, false⟩) user
      ∧ Meets pagedActs (.austat ⟨9⟩) user :=
  ⟨meets rfl ⟨rfl, rfl⟩ (by decide) ⟨by decide, by decide⟩, meets rfl ⟨rfl, rfl⟩ (by decide) ⟨by decide, by decide⟩,
   meets rfl ⟨rfl, rfl⟩ (by decide) ⟨by decide, by decide⟩, meets rfl ⟨rfl, rfl⟩ (by decide) ⟨by decide, by decide⟩,
   meets rfl ⟨rfl, rfl⟩ (by decide) ⟨by decide, by decide⟩, meets rfl ⟨rfl, rfl⟩ (by decide) ⟨⟨by decide, by decide⟩, by decide⟩,
   meets rfl ⟨rfl, rfl⟩ (by decide) ⟨⟨by decide, by decide⟩, by decide⟩, meets rfl ⟨rfl, rfl⟩ (by decide) ⟨⟨by decide, by decide⟩, by decide⟩,
   meets rfl ⟨rfl, rfl⟩ (by decide) ⟨⟨by decide, by decide⟩, by decide⟩, meets rfl ⟨rfl, rfl⟩ (by decide) ⟨by decide, .inl (by decide)⟩,
   meets rfl ⟨rfl, rfl⟩ (by decide) ⟨by decide, .inr (by decide)⟩, meets rfl ⟨rfl, rfl⟩ (by decide) ⟨⟨by decide, by decide⟩, by decide⟩,
   meets rfl ⟨rfl, rfl⟩ (by decide) ⟨⟨by decide, by decide⟩, by decide, by decide⟩, meets rfl ⟨rfl, rfl⟩ (by decide) ⟨⟨by decide, by decide⟩, by decide⟩,
   meets rfl ⟨rfl, rfl⟩ (by decide) ⟨⟨by decide, by decide⟩, by decide⟩, meets rfl trivial (by decide) (dstB_ready (by decide))⟩

set_option maxRecDepth 4000 in
/-- Paged addresses beyond 57 bits, misaligned, and a store into a full lot, its address there or still to come; a MIGR deadline of 33 bits; LDQ's
line fill at word 1 of its line and its form 2; a remote RSTQ that is legal. -/
theorem witness_paged_illegal :
    let full := user.setCur { user.cur with aus := List.replicate 256 (newRequest user .store 0 8), q := user.cur.q.set 9 [.pending 0] }
    (egressOf (.stsW ⟨4, 2, false, 0⟩)).isSome = true ∧ (egressOf (.migr ⟨4, 1, false, false⟩)).isSome = true
      ∧ lotCount full ≥ 256 ∧ srcB full 4 = true ∧ (¬ SrcReady full 9) ∧ (srcValue full 9).toNat < 2 ^ 32
      ∧ (srcValue (core (queues [(1, 2 ^ 32)])) 1).toNat ≥ 2 ^ 32
      ∧ (9 % 128 ≠ 1 ∧ 9 % 8 = 1 ∧ bits 9 6 3 ≠ 0) ∧ 2 % 8 ≥ 2 ∧ ¬ vaOk 4 8 ∧ ¬ vaOk (2 ^ 57) 8
      ∧ pagedAddr (2 ^ 57) 0 8 ≥ 2 ^ 57 ∧ pagedAddr 1 0 8 % 8 ≠ 0 ∧ pagedAddr 0 (-1) 8 ≥ 2 ^ 57 ∧ SrcReady user 4
      ∧ lotCount (user.setCur { user.cur with aus := List.replicate 256 (newRequest user .store 0 8) }) ≥ 256 ∧ vaOk (pagedAddr 0 0 8) 8 :=
  ⟨rfl, rfl, by decide, by decide, pending_not_ready ⟨rfl, rfl⟩ (by decide) (show _ = [QEntry.pending 0] from by decide), by decide, by decide, by decide,
   by decide, by unfold vaOk; decide, by unfold vaOk; decide, by decide, by decide, by decide, srcB_ready (by decide), by decide, by decide, by decide⟩

/-- A load whose bytes an earlier store of the context gives whole, in part, and not at all; the younger of two stores gives a byte. -/
theorem witness_forwarding :
    let c := { Ctx.reset with aus := [newRequest user .store 8 8] }
    (∀ x ∈ forwardBytes c 1 8 8, x.isSome = true) ∧ (∃ x ∈ forwardBytes c 1 4 8, x.isSome = true) ∧ (∃ x ∈ forwardBytes c 1 4 8, x = none)
      ∧ (∀ x ∈ forwardBytes c 1 64 8, x = none)
      ∧ forwardByte { c with aus := [newRequest user .store 8 8, { newRequest user .store 8 8 with seqNo := 1, b0 := 7 }] } 2 8 = some 7 := by decide

/-- RSTQ to core 1 of the task; scratchpad atomics of word 0. -/
theorem witness_rstq_atomics :
    Meets rstqActs (.rstq ⟨8, 1, false, false⟩) (member.setCur { member.cur with q := member.cur.q.set 8 [.val 0x800000 none] })
      ∧ Meets atomicActs (.amoadd ⟨9, 4, 1, false, false⟩) user ∧ Meets atomicActs (.amomax ⟨9, 4, 1, false, false⟩) user
      ∧ Meets atomicActs (.amoswp ⟨9, 4, 1, false, false⟩) user ∧ Meets atomicActs (.amocas ⟨9, 4, 34, false, false⟩) user :=
  ⟨meets rfl ⟨rfl, rfl⟩ (by decide) ⟨by decide, fun h => absurd h (by decide)⟩, meets rfl ⟨rfl, rfl⟩ (by decide) rfl,
   meets rfl ⟨rfl, rfl⟩ (by decide) rfl, meets rfl ⟨rfl, rfl⟩ (by decide) rfl, meets rfl ⟨rfl, rfl⟩ (by decide) rfl⟩

/-- An atomic whose write comes: its row is not poisoned, its granule may be written. -/
theorem witness_atomic_write :
    ∃ t, atomicWrite (user.setCur { user.cur with now := 3 }) ⟨0, 0, 0, 8, 0, 1, 0, 9, some 5, none⟩ = .ok t := ⟨_, rfl⟩

theorem witness_records :
    Meets recordActs (.stbind ⟨1, 1, false, false⟩) member ∧ Meets recordActs (.stclr ⟨1, false⟩) member ∧ Meets recordActs (.strd ⟨9, 1, false⟩) member
      ∧ Meets recordActs (.stmerge ⟨8, false⟩) (member.setCur { member.cur with q := member.cur.q.set 8 [.val 0x1002 none] })
      ∧ Meets recordActs (.stgen ⟨9, 1, false⟩) member ∧ Meets recordActs (.stset ⟨1, 2, false, false⟩) member :=
  ⟨meets rfl rfl (by decide) ⟨by decide, by decide, by decide, fun _ => ⟨by decide, by decide, by decide⟩⟩,
   meets rfl rfl (by decide) ⟨by decide, by decide, by decide, by decide⟩,
   meets rfl rfl (by decide) ⟨dstB_ready (by decide), ⟨by decide, ⟨by decide, by decide, by decide⟩, by decide⟩, by decide⟩,
   meets rfl rfl (by decide) ⟨by decide, ⟨by decide, by decide, by decide⟩, ⟨by decide, by decide, by decide⟩, by decide⟩,
   meets rfl rfl (by decide) ⟨dstB_ready (by decide), by decide, by decide, by decide, by decide⟩,
   meets rfl rfl (by decide) ⟨⟨by decide, ⟨by decide, by decide, by decide⟩, by decide⟩, by decide⟩⟩

/-- An access in the window, in a selected entry and in none, outside the window; a free and a used bank. -/
theorem witness_access :
    let c := { Ctx.reset with footSel := some 1, footSet := [(0, 3 + 8 + 5 * 2 ^ 16 + 9 * 2 ^ 32)] }
    (inWindow c 0 5 = true ∧ footCovers c 0 3 true 0 5 = true ∧ footCovers c 0 3 true 0 4 = false)
      ∧ inWindow { c with ctxwin := 0 } 0 5 = false ∧ bankHolder user.cur 3 user.cur.now none = none ∧ [3, 4].Nodup := by decide

/-! ## Vectors -/

/-- The core `user` with one word in each of w0, w1 and w2. -/
def vectors : State := user.setCur { user.cur with w := [(0, [⟨1, none⟩]), (1, [⟨2, none⟩]), (2, [⟨3, none⟩])] }

/-- The elementwise instructions of three operands, of two and of one, on vector queues. -/
theorem witness_elements :
    (∀ i ∈ [Instr.vadd ⟨2, 0, 1, 0⟩, .vsub ⟨2, 0, 1, 1⟩, .vmul ⟨2, 0, 0, 2⟩, .vmin ⟨2, 0, 1, 0⟩, .vmax ⟨2, 0, 1, 5⟩, .vadds ⟨2, 0, 1, 3⟩, .vsubs ⟨2, 0, 1, 4⟩,
        .vmulhi ⟨2, 0, 1, 5⟩, .vdiff ⟨2, 0, 1, 0⟩, .vscale ⟨2, 0, 1, 0⟩, .vand ⟨2, 0, 1, 0⟩, .vor ⟨2, 0, 1, 0⟩, .vxor ⟨2, 0, 1, 0⟩, .vandn ⟨2, 0, 1, 0⟩,
        .vshl ⟨2, 0, 1, 0⟩, .vshr ⟨2, 0, 1, 0⟩, .vsra ⟨2, 0, 1, 0⟩, .vceq ⟨2, 0, 1, 0⟩, .vcne ⟨2, 0, 1, 0⟩, .vclt ⟨2, 0, 1, 0⟩, .vcle ⟨2, 0, 1, 0⟩,
        .vcun ⟨2, 0, 1, 0⟩, .vfma ⟨2, 0, 1, 0⟩, .vfms ⟨2, 0, 1, 0⟩, .vsel ⟨2, 0, 1, 0⟩, .vabs ⟨2, 0, 0⟩, .vneg ⟨2, 0, 0⟩, .vrcp ⟨2, 0, 0⟩, .vrsq ⟨2, 0, 0⟩,
        .vsqrt ⟨2, 0, 0⟩, .vexp2 ⟨2, 0, 0⟩, .vlog2 ⟨2, 0, 0⟩, .vfloor ⟨2, 0, 0⟩, .vround ⟨2, 0, 0⟩, .vpopc ⟨2, 0, 0⟩],
      Meets elementActs i vectors) := by
  simp only [List.forall_mem_cons, List.not_mem_nil, false_implies, implies_true, and_true]
  refine ⟨?_, ?_, ?_, ?_, ?_, ?_, ?_, ?_, ?_, ?_, ?_, ?_, ?_, ?_, ?_, ?_, ?_, ?_, ?_, ?_, ?_, ?_, ?_, ?_, ?_, ?_, ?_, ?_, ?_, ?_, ?_, ?_, ?_, ?_, ?_⟩ <;>
    exact meets rfl ⟨rfl, rfl⟩ (by decide) ⟨by decide, by decide, _, rfl⟩

/-- Reductions, conversion, permutes, unpacking, queue moves and fills. -/
theorem witness_vector_words :
    (∀ i ∈ [Instr.vsum ⟨2, 0, 0⟩, .vsumsq ⟨2, 0, 0⟩, .vdot ⟨2, 0, 1, 0⟩, .vmaxr ⟨2, 0, 0⟩, .vminr ⟨2, 0, 0⟩, .vamaxr ⟨2, 0, 0⟩, .vcvt ⟨2, 0, 1, 0⟩,
        .vbcast ⟨2, 0, 3, 0⟩, .vzip ⟨2, 0, 1, 0⟩, .vunzip ⟨2, 0, 1, 0⟩, .vrev ⟨2, 0, 0⟩, .vshufl ⟨2, 0, 1, 0⟩, .vrotl ⟨2, 0, 3, 0⟩, .vunpk4 ⟨2, 0, 1⟩,
        .viota ⟨2, 0⟩, .vzero ⟨2⟩],
      Meets wordActs i vectors)
      ∧ Meets wordActs (.vunpk3 ⟨2, 0, 0⟩) vectors ∧ Meets wordActs (.vtoq ⟨8, 0, 0, 1, 0, 0⟩) vectors
      ∧ Meets wordActs (.vfromq ⟨0, 2, 2, 1, 0, 0⟩) vectors := by
  simp only [List.forall_mem_cons, List.not_mem_nil, false_implies, implies_true, and_true]
  refine ⟨⟨?_, ?_, ?_, ?_, ?_, ?_, ?_, ?_, ?_, ?_, ?_, ?_, ?_, ?_, ?_, ?_⟩, meets rfl ⟨rfl, rfl⟩ (by decide) ⟨by decide, by decide, _, rfl, fun h => absurd h (by decide)⟩,
    meets rfl ⟨rfl, rfl⟩ (by decide) ⟨_, rfl⟩, meets rfl ⟨rfl, rfl⟩ (by decide) trivial⟩ <;>
    exact meets rfl ⟨rfl, rfl⟩ (by decide) ⟨by decide, by decide, _, rfl⟩

/-- A w queue with a valid head and an empty one; integers that fit and that do not. -/
theorem witness_vector_queues :
    wEntries vectors.cur 0 = [⟨1, none⟩] ∧ wEntries vectors.cur 9 = [] ∧ (100 : Nat) < 2 ^ fmtWidth 0x0C
      ∧ decodeInt 0x0C 100 + decodeInt 0x0C 100 = 200 ∧ decodeInt 0x0C 0x80 = -128 :=
  ⟨rfl, rfl, by decide, by simp [decodeInt, toSigned, fmtWidth], by simp [decodeInt, toSigned, fmtWidth]⟩

/-! ## The matrix array, the quantisation engine -/

/-- A core with K = 4 and streams of every kind of operand open: BF16 in s0 and s1, FP32 in s2, code 0x09 in s4 to s7, INT8 in s8, W4G in s9,
FP32 written in s10, MX in s11 and written in s12, BF16 written in s13. -/
def array : State := member.setCur { member.cur with
  mxdim := 0x30000
  strms := [(0, stream 0x01 false), (1, stream 0x01 false), (2, stream 0x00 false), (4, stream 0x09 false), (5, stream 0x09 false),
    (6, stream 0x09 false), (7, stream 0x09 false), (8, stream 0x0C false), (9, stream 0x16 false), (10, stream 0x00 true),
    (11, stream 0x10 false), (12, stream 0x10 true), (13, stream 0x01 true)] }

theorem free1 : StationFree array 1 := by unfold StationFree; decide
theorem free5 : StationFree array 5 := by unfold StationFree; decide

theorem open_read {ns : List Nat} (h : ns.all (fun n => (array.cur.strms.find n).any (fun st => !st.wr)) = true) : ReadStreams array ns := by
  intro n hn
  have := List.all_eq_true.mp h n hn
  revert this
  cases array.cur.strms.find n <;> simp

theorem witness_matrix :
    Meets matrixActs (.mmaFlt ⟨5, 16, 17, true, false, false⟩) array ∧ Meets matrixActs (.mmaW4 ⟨5, 16, 25, false, false, false⟩) array
      ∧ Meets matrixActs (.mmaL6 ⟨5, 20, 22, false, false, false⟩) array ∧ Meets matrixActs (.mmaT3 ⟨5, 24, 24, false, false, false⟩) array
      ∧ Meets matrixActs (.mmaI8 ⟨5, 24, 24, false, false, false⟩) array ∧ Meets matrixActs (.mmaF32 ⟨5, 18, 18, false, false, false⟩) array
      ∧ Meets matrixActs (.accz ⟨5⟩) array ∧ Meets matrixActs (.accld ⟨5, 18⟩) array ∧ Meets matrixActs (.accadd ⟨5, 18⟩) array
      ∧ Meets matrixActs (.accmv ⟨5, 26, 0⟩) array :=
  ⟨meets rfl ⟨⟨rfl, rfl⟩, free1⟩ (by decide) ⟨open_read (by decide), fun a b ha hb => by
    cases (show some (stream 0x01 false) = some a from ha); cases (show some (stream 0x01 false) = some b from hb); exact ⟨rfl, rfl⟩, fun h => rfl⟩,
   meets rfl ⟨⟨rfl, rfl⟩, free1⟩ (by decide) ⟨open_read (by decide), fun a b ha hb => by
    cases (show some (stream 0x01 false) = some a from ha); cases (show some (stream 0x16 false) = some b from hb); exact ⟨rfl, rfl⟩, fun h => absurd h (by decide)⟩,
   meets rfl ⟨⟨rfl, rfl⟩, free1⟩ (by decide) ⟨open_read (by decide), fun a b ha hb => by
    cases (show some (stream 0x09 false) = some a from ha); cases (show some (stream 0x09 false) = some b from hb); exact ⟨rfl, rfl⟩, fun h => absurd h (by decide)⟩,
   meets rfl ⟨⟨rfl, rfl⟩, free1⟩ (by decide) ⟨open_read (by decide), fun a b ha hb => by
    cases (show some (stream 0x0C false) = some a from ha); cases (show some (stream 0x0C false) = some b from hb); exact ⟨rfl, rfl⟩, fun h => absurd h (by decide)⟩,
   meets rfl ⟨⟨rfl, rfl⟩, free1⟩ (by decide) ⟨open_read (by decide), fun a b ha hb => by
    cases (show some (stream 0x0C false) = some a from ha); cases (show some (stream 0x0C false) = some b from hb); exact ⟨rfl, rfl⟩, fun h => absurd h (by decide)⟩,
   meets rfl ⟨⟨rfl, rfl⟩, free1⟩ (by decide) ⟨open_read (by decide), fun a b ha hb => by
    cases (show some (stream 0x00 false) = some a from ha); cases (show some (stream 0x00 false) = some b from hb); exact ⟨rfl, rfl⟩, fun h => absurd h (by decide)⟩,
   meets rfl ⟨⟨rfl, rfl⟩, free1⟩ (by decide) rfl,
   meets rfl ⟨⟨rfl, rfl⟩, free1⟩ (by decide) ⟨⟨stream 0x00 false, rfl, rfl, .inl (by decide), by decide⟩, rfl, fun h => absurd h (by decide)⟩,
   meets rfl ⟨⟨rfl, rfl⟩, free1⟩ (by decide) ⟨⟨stream 0x00 false, rfl, rfl, .inl (by decide), by decide⟩, rfl, fun _ => rfl⟩,
   meets rfl ⟨⟨rfl, rfl⟩, free1⟩ (by decide) ⟨⟨stream 0x00 true, rfl, rfl, by decide, by decide⟩, rfl, rfl⟩⟩

/-- Factorisations and solves of one row and one column; ones that take no step. -/
theorem witness_factorisations :
    Meets factorActs (.chol ⟨5⟩) array ∧ Meets factorActs (.lup ⟨5⟩) array ∧ Meets factorActs (.givqr ⟨5⟩) array
      ∧ Meets factorActs (.grot ⟨5, 6⟩) array ∧ Meets factorActs (.trsm ⟨5, 6, 10⟩) array
      ∧ factLength .chol 1 1 = (1, 16) ∧ factLength .givqr 1 1 = (0, 4) :=
  ⟨meets rfl ⟨⟨rfl, rfl⟩, free1⟩ (by decide) ⟨fun h => absurd h (by decide), fun _ => rfl⟩,
   meets rfl ⟨⟨rfl, rfl⟩, free1⟩ (by decide) ⟨fun h => absurd h (by decide), fun _ => rfl⟩,
   meets rfl ⟨⟨rfl, rfl⟩, free1⟩ (by decide) ⟨fun h => absurd h (by decide), fun _ => rfl⟩,
   meets rfl ⟨⟨rfl, rfl⟩, free1⟩ (by decide) ⟨fun _ => by decide, fun _ => rfl⟩,
   meets rfl ⟨⟨rfl, rfl⟩, free1⟩ (by decide) ⟨fun _ => by decide, fun _ => rfl⟩, rfl, rfl⟩

/-- Stations 1 and 5 busy. -/
theorem witness_busy :
    let s := array.setCur { array.cur with freeAt := [(1, 9), (5, 9)] }
    s.cur.freeAt.getD 1 0 > s.cur.now ∧ s.cur.freeAt.getD 5 0 > s.cur.now ∧ QueueMode s ∧ Unguarded s :=
  ⟨by decide, by decide, ⟨rfl, rfl⟩, unguardedB (by decide)⟩

/-- Handler code of a core whose footprint and window cover its tiles. -/
def tileHandler : State := array.setCur { array.cur with handler := true, h := [(1, 1), (2, 2)] }

theorem witness_element_access :
    Meets elementAccessActs (.accrd ⟨3, 1, false⟩) tileHandler ∧ Meets elementAccessActs (.accrd ⟨9, 1, false⟩) array
      ∧ Meets elementAccessActs (.accwr ⟨1, 2, false, false⟩) tileHandler ∧ Meets elementAccessActs (.accwr ⟨1, 2, false, false⟩) array
      ∧ Meets elementAccessActs (.estep ⟨9, 1, false⟩) user ∧ Meets elementAccessActs (.pivrd ⟨9, 1, false⟩) user
      ∧ Meets elementAccessActs (.gfrd ⟨9, 1, false⟩) user ∧ Meets elementAccessActs (.resume ⟨1, false⟩) handler
      ∧ Meets elementAccessActs (.eabort ⟨1, false⟩) handler :=
  ⟨meets rfl rfl (by decide) ⟨dstB_ready (by decide), by decide, ⟨_, rfl⟩, by decide⟩,
   meets rfl rfl (by decide) ⟨dstB_ready (by decide), by decide, ⟨_, rfl⟩, by decide⟩,
   meets rfl rfl (by decide) ⟨by decide, ⟨_, rfl⟩⟩,
   meets rfl rfl (by decide) ⟨by decide, ⟨_, rfl⟩⟩,
   meets rfl trivial (by decide) ⟨dstB_ready (by decide), by decide⟩, meets rfl trivial (by decide) ⟨dstB_ready (by decide), by decide⟩,
   meets rfl trivial (by decide) ⟨dstB_ready (by decide), by decide⟩, meets rfl ⟨rfl, rfl⟩ (by decide) (by decide),
   meets rfl ⟨rfl, rfl⟩ (by decide) (.inl (by decide))⟩

theorem witness_quantisation :
    Meets quantActs (.quantTensor ⟨29, 18, 0, 0, false⟩) array ∧ Meets quantActs (.quantBlock ⟨28, 18, 2, 0⟩) array
      ∧ Meets quantActs (.quantBlockTensor ⟨28, 18, 0, 0, true⟩) array ∧ Meets quantActs (.quantCast ⟨29, 18, 0, 0⟩) array
      ∧ Meets quantActs (.dequantTensor ⟨26, 16⟩) array ∧ Meets quantActs (.dequantBlock ⟨26, 27⟩) array
      ∧ Meets quantActs (.dequantBlockTensor ⟨26, 27⟩) array ∧ Meets quantActs (.dequantCast ⟨26, 16⟩) array :=
  ⟨meets rfl ⟨⟨rfl, rfl⟩, free5⟩ (by decide) ⟨stream 0x00 false, stream 0x01 true, ⟨rfl, rfl, rfl, rfl⟩, by decide, rfl, rfl, fun _ => ⟨by decide, by decide, rfl⟩⟩,
   meets rfl ⟨⟨rfl, rfl⟩, free5⟩ (by decide) ⟨stream 0x00 false, stream 0x10 true, ⟨rfl, rfl, rfl, rfl⟩, by decide, rfl, rfl, fun h => absurd h (by decide)⟩,
   meets rfl ⟨⟨rfl, rfl⟩, free5⟩ (by decide) ⟨stream 0x00 false, stream 0x10 true, ⟨rfl, rfl, rfl, rfl⟩, by decide, rfl, rfl, fun _ => ⟨by decide, by decide, rfl⟩⟩,
   meets rfl ⟨⟨rfl, rfl⟩, free5⟩ (by decide) ⟨stream 0x00 false, stream 0x01 true, ⟨rfl, rfl, rfl, rfl⟩, by decide, rfl, rfl, fun h => absurd h (by decide)⟩,
   meets rfl ⟨⟨rfl, rfl⟩, free5⟩ (by decide) ⟨stream 0x01 false, stream 0x00 true, ⟨rfl, rfl, rfl, rfl⟩, rfl, by decide, rfl⟩,
   meets rfl ⟨⟨rfl, rfl⟩, free5⟩ (by decide) ⟨stream 0x10 false, stream 0x00 true, ⟨rfl, rfl, rfl, rfl⟩, rfl, by decide, rfl⟩,
   meets rfl ⟨⟨rfl, rfl⟩, free5⟩ (by decide) ⟨stream 0x10 false, stream 0x00 true, ⟨rfl, rfl, rfl, rfl⟩, rfl, by decide, rfl⟩,
   meets rfl ⟨⟨rfl, rfl⟩, free5⟩ (by decide) ⟨stream 0x01 false, stream 0x00 true, ⟨rfl, rfl, rfl, rfl⟩, rfl, by decide, rfl⟩⟩

/-! ## Instructions to the engines, the system cores -/

/-- The core `member` with q8 = 48 and q9 = 0x182 (engine 2, cursor 3). -/
def sender : State := member.setCur { member.cur with q := (member.cur.q.set 8 [.val 48 none]).set 9 [.val 0x302 none] }

/-- The core `handler` of that task, its domain frozen on cycle 0, engine 1 trapped with reason 0x01. -/
def stopped : State :=
  let s := handler.setPart 0 { shared with dom0 := { shared.dom0 with mode := .frozen 0 } }
  { s with engs := [(1, { EngSt.reset with st := .trapped, reason := 1, frozen := some ⟨0, 1, true, false⟩ })] }

theorem witness_engine_instructions :
    Meets engineActs (.mcstart ⟨1, 8⟩) sender ∧ Meets engineActs (.mcbase ⟨1, 4⟩) sender ∧ Meets engineActs (.mcbind ⟨9, 4⟩) sender
      ∧ Meets engineActs (.mcstopStop ⟨1, 4⟩) sender ∧ Meets engineActs (.mcstopSkip ⟨1, 4⟩) sender ∧ Meets engineActs (.mcstat ⟨1, 4⟩) sender :=
  ⟨meets rfl ⟨rfl, rfl⟩ (by decide) ⟨by decide, by decide, by decide⟩,
   meets rfl ⟨rfl, rfl⟩ (by decide) ⟨by decide, by decide, by decide, by decide⟩,
   meets rfl ⟨rfl, rfl⟩ (by decide) ⟨by decide, by decide, by decide, by decide, by decide, by decide⟩,
   meets rfl ⟨rfl, rfl⟩ (by decide) ⟨by decide, by decide⟩, meets rfl ⟨rfl, rfl⟩ (by decide) ⟨by decide, by decide⟩,
   meets rfl ⟨rfl, rfl⟩ (by decide) ⟨by decide, by decide, by decide, by decide, by decide⟩⟩

theorem witness_frozen_engines :
    Meets frozenEngineActs (.mcstopStop ⟨1, 0⟩) stopped ∧ Meets frozenEngineActs (.mcstopSkip ⟨1, 1⟩) stopped
      ∧ Meets frozenEngineActs (.mcstat ⟨1, 3⟩) stopped :=
  ⟨meets rfl ⟨rfl, rfl⟩ (by decide) ⟨by decide, by decide⟩,
   meets rfl ⟨rfl, rfl⟩ (by decide) ⟨by decide, by decide, by decide, by decide⟩,
   meets rfl ⟨rfl, rfl⟩ (by decide) ⟨dstB_ready (by decide), by decide, by decide, by decide⟩⟩

theorem witness_frozen_collective : Meets frozenCollectiveActs (.colstat ⟨1, 4⟩) stopped :=
  meets rfl ⟨rfl, rfl⟩ (by decide) ⟨dstB_ready (by decide), by decide, by decide, by decide⟩

theorem witness_collective_instructions :
    Meets collectiveActs (.colstart ⟨4, 1⟩) member ∧ Meets collectiveActs (.colstat ⟨1, 4⟩) member ∧ Meets collectiveActs (.colabort ⟨1⟩) member :=
  ⟨meets rfl ⟨rfl, rfl⟩ (by decide) ⟨by decide, by decide, by decide, by decide⟩,
   meets rfl ⟨rfl, rfl⟩ (by decide) ⟨by decide, by decide, by decide, by decide⟩, meets rfl rfl (by decide) ⟨by decide, by decide⟩⟩

theorem witness_system_instructions :
    Meets systemActs (.mtlbinv ⟨3, 0, 0, false, false⟩) system ∧ Meets systemActs (.mtlbwr ⟨3, 0, 0, false, false⟩) system
      ∧ Meets systemActs (.lptwr ⟨3, 1, 2, false, false⟩) (system.setSys { system.sys with g := [(1, 0x7000000000000000), (2, 9)] })
      ∧ Meets systemActs (.hvcallVersion ⟨3, 0, 0, false, false⟩) system ∧ Meets systemActs (.hvcallPartinfo ⟨3, 1, 0, false, false⟩) system
      ∧ Meets systemActs (.hvcallFrames ⟨3, 2, 0, false, false⟩) system ∧ Meets systemActs (.hvcallAttest ⟨3, 1, 0, false, false⟩) system
      ∧ (∀ i ∈ [Instr.ctxswSwitch ⟨1, false⟩, .ctxswSave ⟨1, false⟩, .ctxswRestore ⟨1, false⟩, .ctxswRelease ⟨1, false⟩, .ctxswEnd ⟨1, false⟩,
          .ctxswHold ⟨1, false⟩], Meets switchActs i system) := by
  refine ⟨meets rfl rfl (by decide) ⟨by decide, by decide, by decide, fun p h => nomatch (show none = some p from h)⟩,
    meets rfl rfl (by decide) ⟨by decide, by decide⟩, meets rfl rfl (by decide) rfl, meets rfl rfl (by decide) trivial,
    meets rfl rfl (by decide) trivial, meets rfl rfl (by decide) trivial, meets rfl rfl (by decide) trivial, ?_⟩
  simp only [List.forall_mem_cons, List.not_mem_nil, false_implies, implies_true, and_true]
  exact ⟨meets rfl rfl (by decide) trivial, meets rfl rfl (by decide) trivial, meets rfl rfl (by decide) trivial, meets rfl rfl (by decide) trivial,
    meets rfl rfl (by decide) trivial, meets rfl rfl (by decide) trivial⟩

/-- Paged accesses of a system core: a load, a store, an atomic, before the request, while it waits and with its answer. -/
theorem witness_system_paged :
    systemPaged system (.ldsD ⟨3, 0, false, 1⟩) = some (.load, 8, 8, 0, none) ∧ systemPaged system (.stsW ⟨2, 0, false, 1⟩) = some (.store, 4, 4, 2, none)
      ∧ systemPaged system (.pamocas ⟨3, 0, 2, false, false⟩) = some (.atomic, 0, 8, 2, some 0)
      ∧ system.sys.ans = none ∧ system.sys.req = none ∧ (system.setSys { system.sys with req := some 7 }).sys.req ≠ none
      ∧ (system.setSys { system.sys with req := some 7, ans := some (0, 5) }).sys.ans = some (0, 5) :=
  ⟨rfl, rfl, rfl, rfl, rfl, Option.some_ne_none 7, rfl⟩

/-! ## Words of the engines -/

/-- Engine 0 running on cycle `n`, bank 3 open on row 5 since cycle 0, its cursor 0 bound to core 0. -/
def running (n : Nat) : State :=
  State.reset.setEng { EngSt.reset with now := n, st := .running, rows := [(3, 5)], actAt := [(3, 0)], pc := 2, cur0 := ⟨true, 0, 0⟩, timing := [(5, 0x80040)] }

theorem witness_table_words :
    (∃ r t, tableWord (running 200) (.mcRd ⟨3, 1, false, 0⟩) = some (r, t) ∧ wordFault (running 200).eng r = none)
      ∧ (∃ r t, tableWord (running 10) (.mcRd ⟨3, 1, false, 0⟩) = some (r, t) ∧ wordFault (running 10).eng r = some (0x01, 1, 3, 26))
      ∧ (∃ r t, tableWord (running 200) (.mcAct ⟨3, 1⟩) = some (r, t) ∧ wordFault (running 200).eng r = some (0x02, 0, 3, 0)) :=
  ⟨⟨_, _, rfl, rfl⟩, ⟨_, _, rfl, rfl⟩, ⟨_, _, rfl, rfl⟩⟩

/-- A requirement that is met and two that are not. -/
theorem witness_rules : failing 10 [(1, 3, 9), (2, 4, 10)] = none ∧ failing 10 [(3, 1, 30), (1, 3, 12), (1, 3, 14)] = some (1, 3, 4)
    ∧ (∃ n ∈ [(3, 1, 30), (1, 3, 9)], 10 < n.2.2) := by decide

/-! ## Events: for each a state in which it has its effect -/

/-- Case `j` of event `k` of a list holds. -/
def Fires (evs : State → List (Instr × Happening)) (i : Instr) (k j : Nat) (s : State) : Prop :=
  ∃ x c, (evs s)[k]? = some x ∧ x.1 = i ∧ x.2.cases[j]? = some c ∧ c.1

/-- A state with the argument of an event. -/
def ev (s : State) (a b c d : Nat) (data : List Nat := []) : State := { s with ev := ⟨a, b, c, d, data⟩ }

/-- Partition 0 of one die as `f` makes it. -/
def partition (f : PartSt → PartSt) : State := State.reset.setPart 0 (f (PartSt.boot 1))

/-- A packet of version 1 whose CMASK names core 0, for slot 0. -/
def packet (version flags mask : Nat) : List Nat := [version, 0, flags, 0, 0, 0, 0, 0, mask] ++ List.replicate 119 0

/-- A partition with one packet in its queue, of which the launch unit knows. -/
def queued (bs : List Nat) : PartSt → PartSt := fun q => { q with queue := [(0, 0, bs)], arrivals := 1, scanned := 1 }

/-- The same, with page 0 of die 0 mapped and readable: the directory at address 0 ends with its first record, which is 0. -/
def imaged (bs : List Nat) : State := (partition (queued bs)).setDie 0 { DieSt.reset with pte := [(0, 5)] }

/-- A partition that runs `job` in slot 0, changed by `f`. -/
def working (f : Domain → Domain) : State := partition (fun q => { q with runSlot := some 0, dom0 := f { Domain.reset with task := some job } })

theorem witness_launch_events :
    Fires launchEvents .launchPacketWrite 0 0 (ev (partition id) 0 0 0 0 (packet 1 0 1))
      ∧ Fires launchEvents .doorbellNotify 1 0 (partition (fun q => { q with notifies := 1 }))
      ∧ Fires launchEvents .doorbellNotify 1 1 (partition (fun q => { q with notifies := 1, mapped := false }))
      ∧ Fires launchEvents .doorbellUnmap 2 0 (partition id)
      ∧ Fires launchEvents .doorbellMap 3 0 (partition (fun q => { q with pnb := true })) ∧ Fires launchEvents .doorbellMap 3 1 (partition id)
      ∧ Fires launchEvents .launch 4 0 (partition (fun q => { queued (packet 1 0 1) q with dom0 := { Domain.reset with task := some job } }))
      ∧ Fires launchEvents .launch 4 1 ({ partition (queued (packet 1 0 1)) with wb := 9361 })
      ∧ Fires launchEvents .launch 4 2 (partition (queued (packet 1 0 1))) ∧ Fires launchEvents .launch 4 3 (imaged (packet 1 0 1))
      ∧ Fires launchEvents .launch 4 4 (partition (queued (packet 2 0 1)))
      ∧ Fires launchEvents .launch 4 5 (partition (queued (packet 1 4 1))) ∧ Fires launchEvents .launch 4 6 (partition (queued (packet 1 0 0))) := by
  refine ⟨⟨_, _, rfl, rfl, rfl, by simp [ev, packet], by decide, fun h => absurd h (by decide), by decide⟩, ⟨_, _, rfl, rfl, rfl, by decide, by decide⟩,
    ⟨_, _, rfl, rfl, rfl, by decide, by decide⟩, ⟨_, _, rfl, rfl, rfl, by decide⟩,
    ⟨_, _, rfl, rfl, rfl, by decide, .inl (by decide)⟩, ⟨_, _, rfl, rfl, rfl, by decide, by decide, by decide⟩,
    ⟨_, _, rfl, rfl, rfl, fun h => absurd h.1 (by decide), by decide⟩,
    ⟨_, _, rfl, rfl, rfl, ⟨by decide, fun h => absurd h.1 (by decide)⟩, by decide, by decide⟩,
    ⟨_, _, rfl, rfl, rfl, ⟨by decide, fun h => absurd h.1 (by decide)⟩, by decide, by decide, by decide⟩,
    ⟨_, _, rfl, rfl, rfl, ⟨by decide, fun h => absurd h.1 (by decide)⟩, by decide, by decide, [], by decide, rfl⟩,
    ⟨_, _, rfl, rfl, rfl, ⟨by decide, fun h => absurd h.1 (by decide)⟩, by decide⟩,
    ⟨_, _, rfl, rfl, rfl, ⟨by decide, fun h => absurd h.1 (by decide)⟩, by decide⟩,
    ⟨_, _, rfl, rfl, rfl, ⟨by decide, fun h => absurd h.1 (by decide)⟩, by decide⟩⟩

/-- A queue whose unmap has completed, with PNB set, with a notify of its cycle, and with neither. -/
theorem witness_unmapped :
    (∃ s : State, (s.part 0).unmapped = true ∧ (s.part 0).pnb = true) ∧ (∃ s : State, (s.part 0).unmapped = true ∧ (s.part 0).rung = true)
      ∧ (∃ s : State, (s.part 0).unmapped = true ∧ (s.part 0).pnb = false ∧ (s.part 0).rung = false) :=
  ⟨⟨partition (fun q => { q with unmapped := true, pnb := true }), rfl, rfl⟩, ⟨partition (fun q => { q with unmapped := true, rung := true }), rfl, rfl⟩,
   ⟨partition (fun q => { q with unmapped := true }), rfl, rfl, rfl⟩⟩

theorem witness_task_events :
    Fires launchEvents .slathBarrierComplete 5 0 (working (fun d => { d with task := some { job with arrived := [1, 0] } }))
      ∧ Fires launchEvents .slathBarrierComplete 5 1 (working (fun d => { d with tb := 48, task := some { job with tb0 := some 48 } }))
      ∧ Fires launchEvents .slathWatchdog 6 0 { working id with wb := 2 ^ 40 } ∧ Fires launchEvents .taskCompletion 7 0 (working (fun d => { d with task := some { job with cores := [] } }))
      ∧ Fires launchEvents .corePartEnd 8 0 (core { Ctx.reset with halted := some 3 }) :=
  ⟨⟨_, _, rfl, rfl, rfl, rfl, by decide⟩, ⟨_, _, rfl, rfl, rfl, rfl, .inl rfl, 0, by decide, by decide⟩, ⟨_, _, rfl, rfl, rfl, rfl, rfl, by decide⟩,
   ⟨_, _, rfl, rfl, rfl, by decide, by decide⟩, ⟨_, _, rfl, rfl, rfl, by decide, by decide, by decide, by decide⟩⟩

/-- A core or an engine frozen on cycle 0. -/
def stop0 : Freeze := ⟨0, 1, false, false⟩

/-- The partition of `working` with its cores and engines frozen, the engines' keepers done. -/
def frozenAll (f : Domain → Domain) : State :=
  let s := working (fun d => f { d with mode := .frozen 0, task := some { job with cores := [0] } })
  { s.setCur { Ctx.reset with frozen := some { stop0 with clear := true } } with
    engs := (List.range 128).map (fun n => (n, { EngSt.reset with frozen := some { stop0 with clear := true }, keeper := 2 })) }

/-- The image of an empty slot. -/
def noImage : Image :=
  { no := 0, dom := .reset, cores := [], engs := [], recChecks := [], changes := [], merges := [] }

theorem witness_domain_events :
    Fires domainEvents .domainFreeze 0 0 (working (fun d => { d with mode := .freezing 0 }))
      ∧ Fires domainEvents .holdRequest 1 0 (ev (working id) 0 0 6 0) ∧ Fires domainEvents .holdRelease 2 0 (ev (working id) 0 0 7 0)
      ∧ Fires domainEvents .recordChangeApply 7 0 (working id)
      ∧ Fires domainEvents .watchdogExpiry 8 0 (working (fun d => { d with holdw := 2 ^ 40 }))
      ∧ Fires domainEvents .contextSwitch 9 0 (partition id) ∧ Fires domainEvents .contextSwitch 9 0 (partition (fun q => { q with runSlot := some 0 }))
      ∧ Fires domainEvents .restoreComplete 10 0 (partition (fun q => { q with str := 2 }))
      ∧ Fires domainEvents .restoreComplete 10 0 (ev (partition (fun q => { q with str := 2, images := [noImage] })) 0 0 1 0)
      ∧ Fires domainEvents .restoreComplete 10 1 (partition (fun q => { q with str := 2, images := [noImage] }))
      ∧ (∃ s : State, (s.part s.ev.a).str = 1 ∧ (s.parts.find s.ev.a).isSome = true ∧ (s.part s.ev.a).strSlot < 2
          ∧ (s.dom s.ev.a (s.part s.ev.a).strSlot).task ≠ none ∧ saveBusy s s.ev.a (s.part s.ev.a).strSlot = false
          ∧ areasReady s s.ev.a (s.part s.ev.a).strSlot (taskCores (s.dom s.ev.a (s.part s.ev.a).strSlot)) = true)
      ∧ saveBusy ((working (fun d => { d with task := some { job with cores := [0] } })).setCur
          { Ctx.reset with aus := [{ newRequest user .load 0 8 with place := .departed }] }) 0 0 = true :=
  ⟨⟨_, _, rfl, rfl, rfl, rfl⟩, ⟨_, _, rfl, rfl, rfl, by decide, by decide, by decide⟩, ⟨_, _, rfl, rfl, rfl, by decide⟩,
   ⟨_, _, rfl, rfl, rfl, trivial⟩, ⟨_, _, rfl, rfl, rfl, by decide, by decide, .inl (by decide)⟩, ⟨_, _, rfl, rfl, rfl, trivial⟩,
   ⟨_, _, rfl, rfl, rfl, .inl rfl⟩, ⟨_, _, rfl, rfl, rfl, rfl⟩, ⟨_, _, rfl, rfl, rfl, rfl, rfl⟩, ⟨_, _, rfl, rfl, rfl, rfl, by decide⟩,
   ⟨partition (fun q => { q with str := 1, dom0 := { Domain.reset with task := some { job with cores := [] } } }), by decide, by decide, by decide, by decide,
    by decide, by decide⟩, by decide⟩

/-- The first granule of a range that is not empty. -/
theorem first_granule (n : Nat) (h : 0 < n) : 0 ∈ gransOf 0 n := by
  simp only [gransOf, List.mem_filterMap, List.mem_range]
  exact ⟨0, by omega, if_pos (by omega)⟩

theorem area_not_empty (w : (Nat × Nat) × (Nat × Nat)) (h : 0 < w.1.2) : 0 < areaSize w := by
  simp only [areaSize]; omega

theorem not_granted (n : Nat) (h : 0 < n) : vaGrants State.reset 0 n 3 = false := by
  simp only [vaGrants, Bool.or_eq_false_iff]
  refine ⟨by decide, ?_⟩
  rw [List.all_eq_false]
  exact ⟨0, first_granule n h, by decide⟩

/-- No page of a save area is mapped: the save waits. -/
theorem witness_areas_not_ready : areasReady State.reset 0 0 [0] = false := by
  have h : saveArea (State.reset.part 0) 0 (0 - 32 * 0) = 0 := by decide
  have hw : 0 < (winSpan (State.reset.ctxOf 0 0)).1.2 := by decide
  simp only [areasReady, List.all_cons, List.all_nil, Bool.and_true, h]
  exact not_granted _ (area_not_empty _ hw)

set_option maxRecDepth 20000 in
/-- Resuming and cancelling a domain whose agents all stand. -/
theorem witness_frozen_domain :
    Fires domainEvents .domainResume 3 0 (frozenAll id) ∧ Fires domainEvents .phaseCancel 6 0 (frozenAll (fun d => { d with cancel := some (0, 5) })) :=
  ⟨⟨_, _, rfl, rfl, rfl, rfl, rfl⟩, ⟨_, _, rfl, rfl, rfl, rfl⟩⟩

/-- The PHASE of core 0 on cycle 0 comes to its commit on cycle 24, with and without that of core 1. -/
theorem witness_commits :
    Fires domainEvents .phaseCommit 4 0 ((working (fun d => { d with reports := [(0, 1, 0), (1, 1, 0)] })).setCur { Ctx.reset with now := 24 })
      ∧ Fires domainEvents .phaseMismatch 5 0 ((working (fun d => { d with reports := [(0, 1, 0)] })).setCur { Ctx.reset with now := 24 }) :=
  ⟨⟨_, _, rfl, rfl, rfl, rfl⟩, ⟨_, _, rfl, rfl, rfl, rfl⟩⟩

/-- A command of station 1 issued on cycle 0. -/
def command (kind : CmdKind) : Cmd := { Cmd.fresh Ctx.reset 1 kind with dimM := 2, dimN := 2, last := 32 }

/-- A word of source 1 for granule 0. -/
def word1 : Arrival :=
  { slot := 0, due := 0, issue := none, src := some 1, srcOrder := 1, addr := 0, perm := 0, data := [1], tag := none, poison := none, run := none,
    bar := none, wall := 0, gap := false, came := 0 }

/-- A core on cycle `n` with `f` done to its context. -/
def onCycle (n : Nat) (f : Ctx → Ctx) : State := core (f { Ctx.reset with now := n })

/-- A request of the access unit that has performed and lands on cycle `l`. -/
def done (op : AuOp) (l : Nat) : AuReq := { newRequest user op 0 8 with place := .performed, land := l }

theorem witness_core_events :
    Fires coreEvents .segcntLate 0 0 (timed 5)
      ∧ Fires coreEvents .streamDrive 1 0 (ev (onCycle 9 (fun c => { c with strms := [(3, stream 0 false)] })) 3 0 0 0)
      ∧ Fires coreEvents .streamStore 2 0 (ev (onCycle 9 (fun c => { c with strms := [(3, stream 0 true)] })) 3 0 0 0)
      ∧ Fires coreEvents .operandTap 3 0 (onCycle 1 (fun c => { c with cmds := [command .accld] }))
      ∧ Fires coreEvents .operandTap 3 1 (ev (onCycle 1 (fun c => { c with atomics := [⟨0, 0, 0, 8, 0, 1, 0, 9, none, none⟩] })) 0 1 0 0)
      ∧ Fires coreEvents .resultPerform 4 0 (ev (onCycle 3 (fun c => { c with atomics := [⟨0, 0, 0, 8, 0, 1, 0, 9, some 5, none⟩] })) 0 1 0 0)
      ∧ Fires coreEvents .resultPerform 4 1 (onCycle 3 id)
      ∧ Fires coreEvents .factStep 5 0 (onCycle 1 (fun c => { c with cmds := [command .chol] }))
      ∧ Fires coreEvents .factStep 5 1 (onCycle 16 (fun c => { c with cmds := [command .chol] })) :=
  ⟨⟨_, _, rfl, rfl, rfl, by decide, by decide⟩, ⟨_, _, rfl, rfl, rfl, rfl, rfl⟩, ⟨_, _, rfl, rfl, rfl, rfl, rfl⟩, ⟨_, _, rfl, rfl, rfl, rfl, _, rfl⟩,
   ⟨_, _, rfl, rfl, rfl, rfl, _, rfl⟩, ⟨_, _, rfl, rfl, rfl, rfl, _, rfl⟩, ⟨_, _, rfl, rfl, rfl, rfl, _, rfl⟩,
   ⟨_, _, rfl, rfl, rfl, by decide, by decide, by decide, by decide⟩, ⟨_, _, rfl, rfl, rfl, by decide, by decide, by decide, by decide, by decide⟩⟩

theorem witness_delivery_events :
    Fires coreEvents .plainArrivalApply 6 0 State.reset
      ∧ Fires coreEvents .plainArrivalApply 6 0 ((onCycle 0 id).setCore 0 { (onCycle 0 id).core 0 with inbound := [word1] })
      ∧ Fires coreEvents .plainArrivalApply 6 1 (((onCycle 0 id).setCore 0 { (onCycle 0 id).core 0 with inbound := [word1] }).setCur { Ctx.reset with slotsLive := [(0, 0x100000101)] })
      ∧ Fires coreEvents .reducingWriteApply 7 0 (((onCycle 0 id).setCore 0 { (onCycle 0 id).core 0 with inbound := [word1] }).setCur { Ctx.reset with slotsLive := [(0, 0x100000101)] })
      ∧ Fires coreEvents .reducingWriteApply 7 1 (ev (((onCycle 0 id).setCore 0 { (onCycle 0 id).core 0 with waiting := [word1] }).setCur { Ctx.reset with slotsLive := [(0, 0x100000101)] }) 0 0 0 1)
      ∧ Fires coreEvents .loadLanding 8 0 State.reset
      ∧ Fires coreEvents .loadLanding 8 1 (ev (onCycle 9 (fun c => { c with aus := [done .load 9] })) 0 0 0 1)
      ∧ Fires coreEvents .lineFillLanding 9 0 State.reset
      ∧ Fires coreEvents .lineFillLanding 9 1 (ev (onCycle 9 (fun c => { c with aus := [done .fill 9] })) 0 0 0 1)
      ∧ Fires coreEvents .mcRdData 10 0 ((onCycle 7 id).setCore 0 { (onCycle 7 id).core 0 with moves := [⟨0, 7, false, 0, 1, 0, 0, [], 0, false, false, [], none⟩] })
      ∧ Fires coreEvents .mcWrTake 11 0 ((onCycle 7 id).setCore 0 { (onCycle 7 id).core 0 with moves := [⟨0, 7, true, 0, 1, 0, 0, [], 0, false, false, [], none⟩] })
      ∧ Fires coreEvents .mcstatPageWrite 12 0 { onCycle 47 id with engs := [(0, { EngSt.reset with inbox := [⟨24, 0, 4, 0, 0, []⟩] })] } :=
  ⟨⟨_, _, rfl, rfl, rfl, trivial⟩, ⟨_, _, rfl, rfl, rfl, rfl⟩, ⟨_, _, rfl, rfl, rfl, rfl⟩, ⟨_, _, rfl, rfl, rfl, rfl, _, rfl, rfl⟩,
   ⟨_, _, rfl, rfl, rfl, by decide, _, _, rfl, rfl⟩, ⟨_, _, rfl, rfl, rfl, rfl⟩, ⟨_, _, rfl, rfl, rfl, rfl, _, rfl⟩, ⟨_, _, rfl, rfl, rfl, rfl⟩,
   ⟨_, _, rfl, rfl, rfl, rfl, _, rfl⟩, ⟨_, _, rfl, rfl, rfl, trivial⟩, ⟨_, _, rfl, rfl, rfl, trivial⟩, ⟨_, _, rfl, rfl, rfl, rfl, rfl, rfl⟩⟩

/-- Engine 0 with `f` done to it. -/
def engine (f : EngSt → EngSt) : State := { State.reset with engs := [(0, f EngSt.reset)] }

/-- A migration of page 0, its lines copied. -/
def moving : Migr := { page := 0, big := false, oldFrame := 0, newFrame := 1, taken := [], copied := [], key := 0, id := 0 }

/-- A request of system core 0. -/
def request : ExtReq :=
  { id := 0, op := .load, va := 0, size := 8, agent := 0, pbase := 0, ph := 0, ssn := 0, key := 0, value := 0, cas := none, run := none, sys := some 0,
    queued := false, left := [], poison := none }

/-- Die 0 with page 0 in its translation buffer, frame 0. -/
def mapped0 (d : DieSt) : DieSt := { d with tlb := [(0, (1, 0))] }

/-- Engine 0 on cycle 500 of a window of a class over every bank that began on cycle 0 and lasts to cycle 2000, with a queue. -/
def window0 (cls : Nat) (q : List PagedPart) (e : EngSt) : EngSt := { e with now := 500, svw := some (cls, 15, 2000), queue := q, timing := e.timing.set 5 (timingFields 5 (8 * 65536 + 65535)) }

/-- A load of the context of core 0 and one of system core 0 whose line waits at engine 0, in windows of class 0, and of class 1 among 17 lines. -/
def waiting0 (cls : Nat) (q : List PagedPart) : State :=
  ((engine (window0 cls q)).setDie 0 (mapped0 { DieSt.reset with ext := [{ request with queued := true, left := [0] }] })).setCtx 0 0
    { Ctx.reset with aus := [{ newRequest user .load 0 8 with place := .queued, left := [0] }] }

/-- The lines that wait in the three states. -/
def lines0 : List (Nat × List PagedPart) := [(0, [⟨0, 1, 0, 0⟩]), (0, [⟨0, 0, 0, 0⟩]), (1, List.replicate 17 ⟨0, 1, 0, 0⟩)]

set_option maxRecDepth 20000 in
/-- Whatever bank of the one row of paged memory the line lies in, the window has the bank and serves it. -/
theorem window_serves : ∀ x ∈ lines0, ∀ b, b < 16 →
    bitB 15 (group b) = true ∧ (svcServe (window0 x.1 x.2 EngSt.reset) b 65535 [false] true).isSome = true := by decide

theorem line_waits (s : State) (n : Nat) (x : PagedPart) (q : List PagedPart) (k b row : Nat) (hl : (k, x :: q) ∈ lines0)
    (hs : (s.engOf n).queue = x :: q) (hp : partCols s n x = some (b % 16, 65535 + row % 1, [false]))
    (he : s.engOf n = window0 k (x :: q) EngSt.reset) (ht : partTurn s n x = true) (hf : partKept s n x = false) :
    ∃ y e1, (s.engOf n).queue.find? (fun y => partTurn s n y && partMasked s n y && !partKept s n y) = some y ∧ partServe s n y = some e1 := by
  have hw := window_serves _ hl (b % 16) (Nat.mod_lt _ (by decide))
  rw [Nat.mod_one, Nat.add_zero] at hp
  obtain ⟨e1, h1⟩ := Option.isSome_iff_exists.mp hw.2
  refine ⟨x, e1, ?_, ?_⟩
  · have hm : windowMask (s.engOf n) = 15 := by rw [he]; rfl
    rw [hs, List.find?_cons_of_pos]
    simp [ht, hf, partMasked, hp, hm, hw.1]
  · simp [partServe, hp, he, h1]

set_option maxRecDepth 20000 in
theorem witness_paged_events :
    Fires pagedEvents .pagedRequestArrival 0 0 State.reset ∧ Fires pagedEvents .pagedRequestArrival 0 1 (ev State.reset 0 0 0 1)
      ∧ Fires pagedEvents .pagedRequestArrival 0 2 (ev State.reset 0 0 0 2) ∧ Fires pagedEvents .pagedRequestPerform 1 1 (ev State.reset 0 0 0 1)
      ∧ Fires pagedEvents .pagedRequestPerform 1 2 (ev State.reset 0 0 0 2)
      ∧ Fires pagedEvents .pagedRequestPerform 1 0 (waiting0 0 [⟨0, 1, 0, 0⟩])
      ∧ Fires pagedEvents .pagedRequestPerform 1 0 (waiting0 0 [⟨0, 0, 0, 0⟩])
      ∧ Fires pagedEvents .pagedRequestPerform 1 0 (waiting0 1 (List.replicate 17 ⟨0, 1, 0, 0⟩))
      ∧ Fires pagedEvents .spaceManagerAnswer 2 0 State.reset
      ∧ Fires pagedEvents .spaceManagerAnswer 2 1 (ev (State.reset.setDie 0 { DieSt.reset with ext := [request] }) 0 0 1 1)
      ∧ Fires pagedEvents .migrCompletion 3 0 (core { Ctx.reset with aus := [done .migr 0] })
      ∧ Fires pagedEvents .migrCompletion 3 1 (core { Ctx.reset with aus := [{ done .migr 0 with place := .faulted }] })
      ∧ Fires pagedEvents .migrationLineCopy 4 0 ((engine (fun e => { e with svw := some (2, 15, 9) })).setDie 0 { DieSt.reset with migr := [moving] })
      ∧ Fires pagedEvents .migrationCopyEnd 5 0 (State.reset.setDie 0 { DieSt.reset with migr := [{ moving with copied := migrLines moving }] }) :=
  ⟨⟨_, _, rfl, rfl, rfl, rfl⟩, ⟨_, _, rfl, rfl, rfl, rfl⟩, ⟨_, _, rfl, rfl, rfl, by decide⟩, ⟨_, _, rfl, rfl, rfl, rfl⟩, ⟨_, _, rfl, rfl, rfl, by decide⟩,
   ⟨_, _, rfl, rfl, rfl, rfl, ⟨rfl, .inl ⟨15, 2000, rfl, by decide⟩⟩, line_waits _ 0 _ [] 0 _ _ (by decide) rfl rfl rfl rfl rfl⟩,
   ⟨_, _, rfl, rfl, rfl, rfl, ⟨rfl, .inl ⟨15, 2000, rfl, by decide⟩⟩, line_waits _ 0 _ [] 0 _ _ (by decide) rfl rfl rfl rfl rfl⟩,
   ⟨_, _, rfl, rfl, rfl, rfl, ⟨rfl, .inr ⟨⟨15, 2000, rfl, by decide⟩, by decide⟩⟩, line_waits _ 0 _ (List.replicate 16 ⟨0, 1, 0, 0⟩) 1 _ _ (by decide) rfl rfl rfl rfl rfl⟩,
   ⟨_, _, rfl, rfl, rfl, rfl⟩, ⟨_, _, rfl, rfl, rfl, by decide, rfl, _, rfl, rfl⟩, ⟨_, _, rfl, rfl, rfl, rfl, by decide, rfl⟩,
   ⟨_, _, rfl, rfl, rfl, rfl, by decide, .inl rfl, rfl⟩, ⟨_, _, rfl, rfl, rfl, rfl, ⟨15, 9, rfl, by decide⟩, rfl⟩, ⟨_, _, rfl, rfl, rfl, fun _ h => h⟩⟩

/-- Engine 0 of a task whose TB0 is cycle 0, with `f` done to it. -/
def tasked (f : EngSt → EngSt) : State :=
  (engine f).setPart 0 { PartSt.boot 1 with runSlot := some 0, dom0 := { Domain.reset with task := some { job with tb0 := some 0 } } }

/-- An engine on cycle `n` with one message that arrives then. -/
def told (n : Nat) (m : McMsg) (f : EngSt → EngSt) : State := engine (fun e => f { e with now := n, inbox := [m] })

theorem witness_engine_messages :
    Fires engineEvents .mcbindArrival 0 0 (told 24 ⟨24, 0, 3, 0, 0, []⟩ id)
      ∧ Fires engineEvents .mcbaseArrival 1 0 (told 24 ⟨24, 0, 2, 0, 0, []⟩ (fun e => { e with st := .running }))
      ∧ Fires engineEvents .mcbaseArrival 1 1 (told 24 ⟨24, 0, 2, 0, 0, []⟩ id)
      ∧ Fires engineEvents .mcbaseArrival 1 2 (told 25 ⟨24, 0, mcbaseAccepted, 0, 0, List.replicate 32 0⟩ id)
      ∧ Fires engineEvents .mcstartArrival 2 0 (told 24 ⟨24, 0, 0, 0, 0, []⟩ (fun e => { e with st := .running }))
      ∧ Fires engineEvents .mcstartArrival 2 1 (told 24 ⟨24, 0, 0, 0, 0, []⟩ id)
      ∧ Fires engineEvents .mcstopArrival 3 0 (told 24 ⟨24, 0, 1, 0, 0, []⟩ id)
      ∧ Fires engineEvents .mcstopArrival 3 1 (told 24 ⟨30, 0, 3, 0, 0, []⟩ (fun e => { e with stopping := true }))
      ∧ Fires engineEvents .mcstopArrival 3 0 (engine (fun e => { e with stopping := true })) :=
  ⟨⟨_, _, rfl, rfl, rfl, rfl, rfl, rfl⟩, ⟨_, _, rfl, rfl, rfl, ⟨rfl, rfl, rfl⟩, rfl⟩, ⟨_, _, rfl, rfl, rfl, ⟨rfl, rfl, rfl⟩, rfl⟩,
   ⟨_, _, rfl, rfl, rfl, rfl, by decide, rfl⟩, ⟨_, _, rfl, rfl, rfl, ⟨rfl, rfl, rfl⟩, rfl⟩, ⟨_, _, rfl, rfl, rfl, ⟨rfl, rfl, rfl⟩, rfl⟩,
   ⟨_, _, rfl, rfl, rfl, rfl, rfl, rfl⟩, ⟨_, _, rfl, rfl, rfl, fun h => absurd h.2.1 (by decide), rfl, rfl⟩, ⟨_, _, rfl, rfl, rfl, rfl, rfl⟩⟩

/-- A channel that has scrubbed nothing yet has room for a step, whatever its temperature. -/
theorem scrub_has_room (s : State) (n : Nat) (h1 : (s.engOf n).scrubPace = (0, 0)) (h2 : (s.engOf n).scrubCfg = none)
    (h3 : (s.engOf n).corrected = []) : scrubRoom s n = true := by
  have h : bits (scrubWord (s.engOf n)) 15 0 = 64 := by rw [scrubWord, h2]; decide
  simp only [scrubRoom, scrubbed, scrubTarget, h, h1, h3, List.filter_nil, List.length_nil, ite_self, decide_eq_true_eq]
  split
  · decide
  · split <;> decide

set_option maxRecDepth 20000 in
theorem witness_engine_steps :
    Fires engineEvents .tableStart 4 0 (engine (fun e => { e with st := .started, loaded := 1 }))
      ∧ Fires engineEvents .tableStart 4 1 (engine (fun e => { e with st := .started }))
      ∧ Fires engineEvents .refreshTick 5 0 (tasked (fun e => { e with now := 9360 }))
      ∧ Fires engineEvents .standingRefresh 6 0 (tasked (fun e => { e with now := 585 }))
      ∧ Fires engineEvents .svwEnd 7 0 (engine (fun e => { e with now := 9, svw := some (0, 15, 9) }))
      ∧ Fires engineEvents .scrubStep 8 0 (engine (window0 1 []))
      ∧ Fires engineEvents .keeperEntry 9 0 State.reset ∧ Fires engineEvents .keeperRefab 10 0 State.reset
      ∧ Fires engineEvents .keeperScrubStep 11 0 (engine (fun e => { e with frozen := some stop0, keeper := 1 }))
      ∧ Fires engineEvents .keeperScrubStep 11 0 (engine (fun e => { window0 3 [] e with hw := -70000 }))
      ∧ Fires engineEvents .keeperReopen 12 0 State.reset :=
  ⟨⟨_, _, rfl, rfl, rfl, rfl, rfl, rfl, by decide⟩, ⟨_, _, rfl, rfl, rfl, rfl, rfl, rfl, rfl⟩,
   ⟨_, _, rfl, rfl, rfl, by decide, ⟨0, 1, rfl, by decide, rfl⟩, by decide⟩, ⟨_, _, rfl, rfl, rfl, .inl rfl, rfl, rfl, rfl⟩,
   ⟨_, _, rfl, rfl, rfl, by decide⟩, ⟨_, _, rfl, rfl, rfl, ⟨15, 2000, rfl, by decide⟩, rfl, by decide, scrub_has_room _ _ rfl rfl rfl, _, rfl⟩,
   ⟨_, _, rfl, rfl, rfl, trivial⟩,
   ⟨_, _, rfl, rfl, rfl, trivial⟩, ⟨_, _, rfl, rfl, rfl, ⟨_, rfl⟩, scrub_has_room _ _ rfl rfl rfl, .inl ⟨by decide, by decide, rfl, by decide, rfl⟩⟩,
   ⟨_, _, rfl, rfl, rfl, ⟨_, rfl⟩, scrub_has_room _ _ rfl rfl rfl, .inr ⟨rfl, ⟨15, 2000, rfl, by decide⟩, by decide⟩⟩, ⟨_, _, rfl, rfl, rfl, trivial⟩⟩

/-- A tick that passes MAXPOST. -/
theorem witness_refresh_trap :
    ∃ s : State, s.eng.tREFI ≠ 0 ∧ engTb0? s s.curEng = some 0 ∧ s.eng.now = 0 + 1 * s.eng.tREFI ∧ (s.eng.maxPost : Int) < s.eng.owe 2 + 1
      ∧ (∀ a, a < 2 → s.eng.owe a + 1 ≤ (s.eng.maxPost : Int)) :=
  ⟨tasked (fun e => { e with now := 9360, owed := [(2, 8)] }), by decide, rfl, rfl, by decide, by decide⟩

/-- A run of group 0 on core 0, rank 0 of two, with `f` done to it. -/
def running0 (f : Run → Run) : Run :=
  f { serial := 0, core := 0, slot := 0, group := 0, rank := 0, epoch := 1, trap := false, bar := false, ns := 1, descs := [2 ^ 48 + 3 * 2 ^ 23], words := [],
      members := [0, 1], active := true, pc := 0, loopAt := none, peer := 1, pred := 1, taken := [], sent := [], mcDone := 0, mcDue := 0,
      kept := [], satn := 0, deny := 0, nword := 0, sig := 0, status := 0, aborted := false, recSlot := none, undelivered := 0, lastWb := 0, heard := []
      mcFrom := [], born := 0 }

/-- The engine of die 0 as `f` makes it. -/
def cxe0 (f : CxeSt → CxeSt) : State := State.reset.setCxe 0 (f CxeSt.reset)

/-- A unit of rank 1 for core 0. -/
def unit1 (slot : Option Nat) : ColUnit := ⟨0, 0, 1, 1, 0, slot, 0, 3, List.replicate 32 0, none, 0⟩

set_option maxRecDepth 20000 in
theorem witness_collective_events :
    Fires collectiveEvents .collectiveRunStart 0 0 (cxe0 (fun e => { e with waits := [⟨0, 0, 0, 0, false, none⟩] }))
      ∧ Fires collectiveEvents .collectiveUnitArrival 1 1 (cxe0 (fun e => { e with outbox := [(0, unit1 none)] }))
      ∧ Fires collectiveEvents .collectiveUnitArrival 1 0 (cxe0 (fun e => { e with outbox := [(0, unit1 none)], units := List.replicate 64 (unit1 none) }))
      ∧ Fires collectiveEvents .collectiveUnitArrival 1 2 (cxe0 (fun e => { e with outbox := [(256, unit1 none)] }))
      ∧ Fires collectiveEvents .mcastUnitArrival 2 0
          (cxe0 (fun e => { e with units := [unit1 (some 0)], runs := [running0 (fun r => { r with descs := [2 ^ 48 + 3 * 2 ^ 23] })] }))
      ∧ Fires collectiveEvents .mcastUnitArrival 2 1 (cxe0 (fun e => { e with units := [unit1 (some 1)], runs := [running0 id] }))
      ∧ Fires collectiveEvents .abortUnitArrival 3 0 (cxe0 (fun e => { e with outAborts := [(0, 0, 1, 2, 1, 0)] }))
      ∧ Fires collectiveEvents .abortUnitArrival 3 1 (cxe0 (fun e => { e with outAborts := [(256, 0, 1, 2, 1, 0)] }))
      ∧ Fires collectiveEvents .collectiveTimeout 4 0
          { cxe0 (fun e => { e with runs := [running0 (fun r => { r with words := [2 * 2 ^ 27] })] }) with wb := 2 ^ 40 }
      ∧ Fires collectiveEvents .colabortArrival 5 0 (cxe0 (fun e => { e with stops := [0], runs := [running0 id] }))
      ∧ Fires collectiveEvents .collabort 6 0
          ((cxe0 (fun e => { e with colaborts := [(0, 5)] })).setCore 0 { State.reset.core 0 with slotRun := some 0 }) := by
  refine ⟨⟨_, _, rfl, rfl, rfl, by decide⟩, ⟨_, _, rfl, rfl, rfl, by decide, rfl, Option.isSome_iff_exists.mp (by decide)⟩, ⟨_, _, rfl, rfl, rfl, by decide, rfl, Option.isNone_iff_eq_none.mp (by decide)⟩,
    ⟨_, _, rfl, rfl, rfl, by decide, rfl⟩,
    ⟨_, _, rfl, rfl, rfl, rfl, by decide⟩, ⟨_, _, rfl, rfl, rfl, rfl, .inl (by decide)⟩, ⟨_, _, rfl, rfl, rfl, by decide, rfl, by decide⟩,
    ⟨_, _, rfl, rfl, rfl, by decide, .inl rfl⟩, ⟨_, _, rfl, rfl, rfl, 1, by decide, by decide⟩, ⟨_, _, rfl, rfl, rfl, trivial⟩, ⟨_, _, rfl, rfl, rfl, rfl⟩⟩

/-- A package whose system core 0 runs and has an event to take. -/
def powered (f : SysSt → SysSt) (b : BootSt) (l : LinkSt) (wb : Nat) : State :=
  { State.reset with
    syss := [(0, f { SysSt.reset with running := true, sevt := 1, seven := 1 })], wb := wb
    pkg := { State.reset.pkg with boot := b, links := [(0, l)] } }

theorem witness_package_events :
    Fires packageEvents .systemEvent 0 0 (powered id .off ⟨false, 16, 0⟩ 0) ∧ Fires packageEvents .boot 1 0 State.reset
      ∧ Fires packageEvents .recoveryImage 2 0 (powered id .recovery ⟨false, 16, 0⟩ 0)
      ∧ Fires packageEvents .linkFlitRetry 3 0 (ev (powered id .running ⟨true, 16, 1⟩ 0) 0 0 0 1)
      ∧ Fires packageEvents .linkFlitRetry 3 1 (powered id .running ⟨true, 16, 1⟩ 0)
      ∧ Fires packageEvents .linkLaneLoss 4 0 (powered id .running ⟨true, 16, 1⟩ 0)
      ∧ Fires packageEvents .linkDown 5 0 (powered id .running ⟨true, 16, 8⟩ 0)
      ∧ Fires packageEvents .linkDown 5 0 (ev { cxe0 (fun e => { e with runs := [running0 id] }) with pkg := { State.reset.pkg with links := [(0, ⟨true, 16, 8⟩)] } }
          0 0 0 0 [0, 0])
      ∧ pairsOf [0, 0] = [(0, 0)] :=
  ⟨⟨_, _, rfl, rfl, rfl, rfl, rfl, by decide, rfl, rfl, rfl⟩, ⟨_, _, rfl, rfl, rfl, rfl, rfl⟩, ⟨_, _, rfl, rfl, rfl, rfl, rfl⟩,
   ⟨_, _, rfl, rfl, rfl, rfl, by decide, rfl⟩, ⟨_, _, rfl, rfl, rfl, rfl, by decide, by decide⟩, ⟨_, _, rfl, rfl, rfl, rfl⟩,
   ⟨_, _, rfl, rfl, rfl, rfl, rfl⟩, ⟨_, _, rfl, rfl, rfl, rfl, rfl⟩, rfl⟩

/-- Whatever the sample of the power manager reads, one of its two cases holds; and a sample that is hot, one that is cool. -/
theorem witness_power_sample :
    (Fires packageEvents .powerSample 6 0 (powered id .running ⟨true, 16, 0⟩ 65536)
      ∨ Fires packageEvents .powerSample 6 1 (powered id .running ⟨true, 16, 0⟩ 65536))
      ∧ (∃ t : Word, State.reset.pkg.thold < bits t.toNat 7 0 ∧ IsHot State.reset t ∧ Trips t)
      ∧ (∃ w : Word, IsHigh State.reset w) ∧ (working id).parts.map (·.1) = [0] ∧ ((working id).part 0).runSlot = some 0
      ∧ ∃ t w : Word, (∀ d, d < 8 → bits t.toNat (8 * d + 7) (8 * d) + 3 ≤ State.reset.pkg.thold) ∧ 100 * (w.toNat % 2 ^ 32) ≤ 95 * State.reset.pkg.plim := by
  refine ⟨?_, ⟨115, by decide, ⟨0, by decide, by decide⟩, 0, by decide, by decide⟩, ⟨4000, by unfold IsHigh; decide⟩, rfl, rfl, 0, 0, by decide, by decide⟩
  by_cases h : ∃ d, d < 8 ∧ 125 ≤ bits (Config.therm 65536).toNat (8 * d + 7) (8 * d)
  · exact .inl ⟨_, _, rfl, rfl, rfl, rfl, rfl, h⟩
  · exact .inr ⟨_, _, rfl, rfl, rfl, rfl, rfl, fun d hd => by
      rcases Nat.lt_or_ge (bits (Config.therm 65536).toNat (8 * d + 7) (8 * d)) 125 with g | g
      · exact g
      · exact absurd ⟨d, hd, g⟩ h⟩

/-! ## Fetching, words of the units, traps and memory -/

/-- An agent comes next. -/
def turn (s : State) (a : Agent) : State := { s with todo := [a] }

/-- Core 0 as `f` makes it, its slot 0 running. -/
def live (f : Ctx → Ctx) : State := (State.reset.setCore 0 { State.reset.core 0 with slotRun := some 0 }).setCur (f Ctx.reset)

/-- Handler code, a due word, a system core, a collective run, a table word and an event, each with an instruction to run; memory that
lists nothing decodes to IDLE. -/
theorem witness_step_runs :
    (∃ s : State, s.agenda = [] ∧ s.todo = .core 0 :: [] ∧ HandlerRuns s 0
        ∧ decode false (fetchWords { s with todo := [], curCore := 0, onSys := false }) = .ok (.idle ⟨0⟩) 1)
      ∧ (∃ s u : State, s.agenda = [] ∧ s.todo = .core 0 :: [] ∧ WordDue s 0
          ∧ decode false (fetchWords { s with todo := [], curCore := 0, onSys := false }) = .ok (.idle ⟨0⟩) 1
          ∧ exec (.idle ⟨0⟩) (enterSig { s with todo := [], curCore := 0, onSys := false }) = .next u ∧ u.cur.frozen = none)
      ∧ (∃ s : State, s.agenda = [] ∧ s.todo = .sys 0 :: [] ∧ SystemRuns s 0
          ∧ decode true (fetchSysWords { s with todo := [], curSys := 0, onSys := true }) = .ok (.idle ⟨0⟩) 1)
      ∧ (∃ s : State, s.agenda = [] ∧ s.todo = .cxe 0 0 :: [] ∧ ∃ r, runOf s 0 0 = some r ∧ decodeCx (r.words.getD r.pc 0) = some .cxNop)
      ∧ (∃ s u : State, s.agenda = [] ∧ s.todo = .eng 0 :: [] ∧ EngineWordDue s 0
          ∧ (∃ w, tableAt s.eng s.eng.pc = some w ∧ decodeMc w = some (.mcPrea))
          ∧ exec .mcPrea { s.setEng s.eng with todo := [], curEng := 0, onSys := false, ev := EvArg.none } = .next u ∧ u.eng.frozen = none)
      ∧ (∃ s : State, s.agenda = (.scrubStep, ⟨0, 0, 0, 0, []⟩) :: []) := by
  refine ⟨⟨turn (live (fun c => { c with handler := true })) (.core 0), rfl, rfl, ⟨by decide, rfl, rfl, rfl⟩, by decide⟩,
    ⟨turn (live (fun c => { c with slathed := true, nic := some 0 })) (.core 0), _, rfl, rfl,
      ⟨by decide, rfl, rfl, rfl, rfl, rfl, by decide, by decide, rfl, rfl, rfl, fun r h => (nomatch h), fun x h => (nomatch h)⟩, by decide, rfl, rfl⟩,
    ⟨turn { State.reset with syss := [(0, { SysSt.reset with running := true })] } (.sys 0), rfl, rfl, ⟨rfl, rfl, .inl rfl⟩, by decide⟩,
    ⟨turn (cxe0 (fun e => { e with runs := [running0 id] })) (.cxe 0 0), rfl, rfl, _, rfl, by decide⟩,
    ⟨turn (engine (fun e => { e with st := .running, table := [(0, 0x11500000)], loaded := 1, first := true, now := 17 })) (.eng 0), _, rfl, rfl,
      ⟨rfl, rfl, rfl, rfl, rfl, rfl, by decide, by decide⟩, ⟨_, rfl, by decide⟩, rfl, rfl⟩,
    ⟨{ State.reset with agenda := [(.scrubStep, ⟨0, 0, 0, 0, []⟩)] }, rfl⟩⟩

/-- A core whose word is a reserved minor encoding. -/
theorem witness_illegal :
    decode false (fetchWords { State.reset with mem := Memory.writeN [] (imemAddr 0 0 0) (bytesOf 4 0x08104A00) }) = .illegal 5 0 0x08104A00 := by
  decide

/-- A core whose word is a SEG with a field that must be 0 set, one cycle after its stamp, and one whose word is such a SEGEND, one cycle early. -/
theorem witness_late_illegal :
    (∃ s reason word raw a b f, decode false (fetchWords s) = .illegal reason word raw ∧ s.cur.badWord = false
        ∧ firstWord ((fetchWords s).headD 0) ((fetchWords s).drop 1) = .row a b (.seg f) ∧ s.cur.seg.active = false ∧ f.opn = false
        ∧ s.cur.release + f.off.toNat < s.cur.now)
      ∧ (∃ s reason word raw a b, decode false (fetchWords s) = .illegal reason word raw ∧ s.cur.badWord = false
        ∧ firstWord ((fetchWords s).headD 0) ((fetchWords s).drop 1) = .row a b .segend ∧ s.cur.seg.active = true ∧ s.cur.seg.opn = false
        ∧ s.cur.now ≠ s.cur.seg.start + s.cur.seg.cnt) :=
  ⟨⟨{ core { Ctx.reset with now := 9 } with mem := Memory.writeN [] (imemAddr 0 0 0) (bytesOf 16 (0x0B000001 + 0x20 * 2 ^ 32 + 8 * 2 ^ 64)) },
      _, _, _, _, _, _, rfl, rfl, rfl, rfl, rfl, by decide⟩,
   ⟨{ core { Ctx.reset with now := 3, seg := ⟨true, false, 0, 4, 0, 0⟩ } with mem := Memory.writeN [] (imemAddr 0 0 0) (bytesOf 4 0x0B800010) },
      _, _, _, _, _, rfl, rfl, rfl, rfl, rfl, by decide⟩⟩

/-- A collective word with a run and without one; DONE before and after its multicast units. -/
theorem witness_collective_words :
    (∃ s, runOf s s.curDie s.curGroup = none) ∧ (∃ s, ∃ r x, runOf s s.curDie s.curGroup = some r ∧ collectiveWord s r .cxNop = some x)
      ∧ (∃ s r, runOf s s.curDie s.curGroup = some r ∧ r.mcDone < r.mcDue)
      ∧ (∃ s r, runOf s s.curDie s.curGroup = some r ∧ 0 < r.undelivered)
      ∧ (∃ s r, runOf s s.curDie s.curGroup = some r ∧ r.mcDue ≤ r.mcDone ∧ r.undelivered = 0) :=
  ⟨⟨State.reset, rfl⟩, ⟨cxe0 (fun e => { e with runs := [running0 id] }), _, _, rfl, rfl⟩,
   ⟨cxe0 (fun e => { e with runs := [running0 (fun r => { r with mcDue := 1 })] }), _, rfl, by decide⟩,
   ⟨cxe0 (fun e => { e with runs := [running0 (fun r => { r with undelivered := 1 })] }), _, rfl, by decide⟩,
   ⟨cxe0 (fun e => { e with runs := [running0 id] }), _, rfl, by decide, by decide⟩⟩

/-- Sources that pop and that keep, in every mode; a loop that goes on, one that ends, none. -/
theorem witness_sources_and_sequence :
    QueueMode user ∧ (∃ f ∈ [((1, false) : Src)], f.1 = 1 ∧ f.2 = false) ∧ (∀ f ∈ [((1, true) : Src)], f.1 = 1 → f.2 = true)
      ∧ (∃ (s : State) (l : LoopRec), QueueMode s ∧ s.cur.loops = l :: [] ∧ (s.cur.pc + 1 - 1) % 65536 = l.last ∧ l.left > 1)
      ∧ (∃ (s : State) (l : LoopRec), QueueMode s ∧ s.cur.loops = l :: [] ∧ (s.cur.pc + 1 - 1) % 65536 = l.last ∧ l.left ≤ 1)
      ∧ (∃ (s : State), QueueMode s ∧ s.cur.loops = []) :=
  ⟨⟨rfl, rfl⟩, ⟨_, .head _, rfl, rfl⟩, by decide, ⟨core { Ctx.reset with loops := [⟨0, 0, 2⟩] }, _, ⟨rfl, rfl⟩, rfl, rfl, by decide⟩,
   ⟨core { Ctx.reset with loops := [⟨0, 0, 1⟩] }, _, ⟨rfl, rfl⟩, rfl, rfl, by decide⟩, ⟨user, ⟨rfl, rfl⟩, rfl⟩⟩

/-- Handler code that traps, TRAP in handler mode, TRET, and the registers past h15. -/
theorem witness_handler :
    handler.cur.handler = true ∧ user.cur.handler = false ∧ HandlerMode handler ∧ Unguarded handler ∧ SystemMode system ∧ Unguarded system
      ∧ notInHandler .slath = true ∧ onlyInHandler .tret = true
      ∧ (∃ x, scalarOf (frmMode handler) handler.cur.now (.add ⟨5, 1, 17, true, false⟩) = some x ∧ ∃ f ∈ x.srcs, f.1 ≥ 16)
      ∧ (∃ x, scalarOf (frmMode handler) handler.cur.now (.add ⟨16, 1, 2, true, false⟩) = some x ∧ x.d ≥ 16) := by
  refine ⟨rfl, rfl, ⟨rfl, rfl⟩, unguardedB (by decide), rfl, unguardedB (by decide), rfl, rfl, ⟨_, rfl, (17, false), by decide, by decide⟩,
    ⟨_, rfl, by decide⟩⟩

/-- What a command of the engines meets in handler mode. -/
theorem witness_engines_in_handler :
    HandlerMode handler ∧ Unguarded handler ∧ (∃ x, elementActs (.vadd ⟨1, 2, 3, 3⟩) = some x) ∧ handler.cur.freeAt.getD 1 0 ≤ handler.cur.now :=
  ⟨⟨rfl, rfl⟩, unguardedB (by decide), ⟨_, rfl⟩, by decide⟩

/-- Registers and items within their ranges; memory in its form, which a step keeps going; an instruction that stores nothing. -/
theorem witness_registers_and_memory :
    csrDefined false 0x04 = true ∧ State.reset.sys.sevt < 2 ^ 10 ∧ State.reset.Inv
      ∧ (∃ s t : State, s.Inv ∧ step s = .next t) ∧ (∃ t, writesMemory (.add ⟨5, 1, 2, true, false⟩) = false
          ∧ exec (.add ⟨5, 1, 2, true, false⟩) user = .next t) :=
  ⟨rfl, by decide, rfl, ⟨{ State.reset with agenda := [(.scrubStep, ⟨0, 0, 0, 0, []⟩)] }, _, rfl, rfl⟩, _, rfl, rfl⟩

/-- Instructions of each kind that the round trip speaks of. -/
theorem witness_round_trip :
    isScalar (.add ⟨5, 1, 2, true, false⟩) = true ∧ (isMcWord .mcPrea = true ∧ WellFormed .mcPrea) ∧ (isCxWord .cxNop = true ∧ WellFormed .cxNop) := by
  refine ⟨rfl, ⟨rfl, by decide⟩, rfl, by decide⟩

end Sys2Proof.Tests
end

section
/-! PROOFS. What a register reads after a write, on a compute core and on a system core (R5, R390, R403). -/

namespace Sys2Proof

/-! ## Entries of a sparse table -/

theorem NMap.find_eq_none_of_lt {α : Type} (m : NMap α) (lo k : Nat) (h : NMap.risingFrom lo m = true) (hk : k < lo) :
    NMap.find m k = none := by
  induction m generalizing lo with
  | nil => rfl
  | cons p rest ih =>
    obtain ⟨j, w⟩ := p
    simp only [NMap.risingFrom, Bool.and_eq_true, decide_eq_true_eq] at h
    rw [NMap.find, if_neg (by omega)]
    exact ih (j + 1) h.2 (by omega)

theorem NMap.set_of_find_eq_some {α : Type} (m : NMap α) (lo k : Nat) (v : α) (h : NMap.risingFrom lo m = true)
    (hv : NMap.find m k = some v) : NMap.set m k v = m := by
  induction m generalizing lo with
  | nil => exact absurd hv (by simp)
  | cons p rest ih =>
    obtain ⟨j, w⟩ := p
    simp only [NMap.risingFrom, Bool.and_eq_true, decide_eq_true_eq] at h
    by_cases hj : k = j
    · subst hj
      simp_all [NMap.set, NMap.find]
    · rw [NMap.find, if_neg hj] at hv
      have hlt : ¬ k < j := fun hlt => by simp [NMap.find_eq_none_of_lt rest (j + 1) k h.2 (by omega)] at hv
      rw [NMap.set, if_neg hj, if_neg hlt, ih (j + 1) h.2 hv]

end Sys2Proof

namespace Sys2Proof.Machine
open Sys2Proof.Claims

/-! ## Fields of a word -/

/-- A field of a word, put back in its place, is the word under the mask of that field. -/
theorem ofNat_bits_eq_and_mask (v : Word) (hi lo : Nat) :
    BitVec.ofNat 64 (bits v.toNat hi lo * 2 ^ lo) = v &&& BitVec.ofNat 64 ((2 ^ (hi + 1 - lo) - 1) * 2 ^ lo) := by
  apply BitVec.eq_of_getLsbD_eq
  intro i hi'
  simp only [BitVec.getLsbD_and, BitVec.getLsbD_ofNat, bits, Nat.testBit_mul_two_pow, Nat.testBit_mod_two_pow, Nat.testBit_shiftRight,
    Nat.testBit_two_pow_sub_one, BitVec.testBit_toNat]
  by_cases hl : lo ≤ i
  · simp [hl, hi', Bool.and_comm]
  · simp [hl]

/-- The lowest `w` bits of a word are the word under a mask of `w` ones. -/
theorem ofNat_mod_two_pow_eq_and (v : Word) (w : Nat) :
    BitVec.ofNat 64 (v.toNat % 2 ^ w) = v &&& BitVec.ofNat 64 (2 ^ w - 1) := by
  cases w with
  | zero => simp [Nat.mod_one]
  | succ w => simpa [bits] using ofNat_bits_eq_and_mask v w 0

/-- Two parts of a word under disjoint masks add up to the word under both. -/
theorem and_add_and_of_disjoint (v a b : Word) (h : a &&& b = 0#64) : (v &&& a) + (v &&& b) = v &&& (a ||| b) := by
  have hdisj : v &&& a &&& (v &&& b) = 0#64 := by
    rw [show v &&& a &&& (v &&& b) = v &&& (a &&& b) by ac_nf, h, BitVec.and_zero]
  rw [BitVec.add_eq_or_of_and_eq_zero _ _ hdisj]
  ext i
  simp [Bool.and_or_distrib_left]

/-- Bits cleared by ones: among `w` bits, the ones of `v` fall away. -/
theorem ofNat_and_ones_sub_eq_and_not (x w : Nat) (v : Word) (hx : x < 2 ^ w) :
    BitVec.ofNat 64 (x &&& (2 ^ w - 1 - v.toNat % 2 ^ w)) = BitVec.ofNat 64 x &&& ~~~v := by
  have hv : v.toNat % 2 ^ w < 2 ^ w := Nat.mod_lt _ (Nat.two_pow_pos w)
  apply BitVec.eq_of_getLsbD_eq
  intro i hi
  rw [Nat.sub_sub, Nat.add_comm 1]
  simp only [BitVec.getLsbD_and, BitVec.getLsbD_ofNat, BitVec.getLsbD_not, Nat.testBit_and, Nat.testBit_two_pow_sub_succ hv,
    Nat.testBit_mod_two_pow, BitVec.testBit_toNat]
  by_cases hw : i < w
  · simp [hi, hw]
  · have hxi : x.testBit i = false := Nat.testBit_lt_two_pow (hx.trans_le (Nat.pow_le_pow_right (by decide) (by omega)))
    simp [hxi]

/-! ## Registers of a compute core -/

theorem State.ctxslotWord_setCur (s : State) (c : Ctx) :
    ctxslotWord (s.setCur c) s.curCore (s.slotOf s.curCore) = ctxslotWord s s.curCore (s.slotOf s.curCore) := by
  have hrun : ((s.setCur c).core s.curCore).slotRun = (s.core s.curCore).slotRun := by simp [State.setCur]
  simp [ctxslotWord, hrun]

theorem State.ctxOf_setCur_same (s : State) (c : Ctx) : (s.setCur c).ctxOf s.curCore (s.slotOf s.curCore) = c := by
  simp [State.setCur]

theorem csrWrite_piv (c : Ctx) (n : Nat) (v : Word) : (csrWrite c n v).piv = c.piv := by
  unfold csrWrite
  split
  · rfl
  · split <;> rfl

/-- The pivot vector is read-only (R390): it depends on the pivots alone, which no write changes. -/
theorem csrWrite_pivVector (c : Ctx) (n : Nat) (v : Word) : pivVector (csrWrite c n v) = pivVector c := by
  have hpiv : pivOf (csrWrite c n v) = pivOf c := funext fun i => by rw [pivOf, pivOf, csrWrite_piv]
  rw [pivVector, pivVector, hpiv]

/-- A register without writable bits is not changed. -/
theorem csrWrite_readOnly (c : Ctx) (n : Nat) (v : Word) (hn : csrMask n = 0) : csrWrite c n v = c := by
  unfold csrWrite
  split
  next hseed => exact absurd hn (by simp [csrMask, hseed])
  next =>
    split
    case h_16 => rfl
    all_goals exact absurd hn (by decide)

/-- A register with writable bits reads what a write put in them. -/
theorem csrRead_csrWrite_same (s : State) (n : Nat) (v : Word) (hn : csrMask n ≠ 0) :
    csrRead (s.setCur (csrWrite s.cur n v)) s.curCore (s.slotOf s.curCore) n = v &&& csrMask n := by
  unfold csrRead
  rw [State.ctxOf_setCur_same]
  generalize s.cur = c
  unfold csrMask at hn ⊢
  split at hn
  next hseed => simpa [csrWrite, hseed] using (BitVec.and_allOnes (x := v)).symm
  next hseed =>
    rw [if_neg hseed]
    split at hn
    case h_1 => exact ofNat_mod_two_pow_eq_and v 8
    case h_2 | h_3 => exact ofNat_mod_two_pow_eq_and v 16
    case h_4 | h_6 => exact ofNat_mod_two_pow_eq_and v 4
    case h_5 => exact ofNat_mod_two_pow_eq_and v 3
    case h_7 => exact ofNat_mod_two_pow_eq_and v 6
    case h_8 | h_9 | h_10 | h_11 | h_12 => exact ofNat_mod_two_pow_eq_and v 32
    case h_13 =>
      have hlow := ofNat_bits_eq_and_mask v 5 0
      rw [Nat.pow_zero, Nat.mul_one] at hlow
      show BitVec.ofNat 64 (bits v.toNat 5 0 + bits v.toNat 13 8 * 2 ^ 8 + bits v.toNat 31 16 * 2 ^ 16) = _
      rw [BitVec.ofNat_add, BitVec.ofNat_add, hlow, ofNat_bits_eq_and_mask, ofNat_bits_eq_and_mask, and_add_and_of_disjoint _ _ _ (by decide),
        and_add_and_of_disjoint _ _ _ (by decide)]
      rfl
    case h_14 => exact (BitVec.and_allOnes ..).symm
    case h_15 =>
      show BitVec.ofNat 64 (bits v.toNat 22 7 * 2 ^ 7 + bits v.toNat 63 48 * 2 ^ 48) = _
      rw [BitVec.ofNat_add, ofNat_bits_eq_and_mask, ofNat_bits_eq_and_mask, and_add_and_of_disjoint _ _ _ (by decide)]
      rfl
    case h_16 => exact absurd rfl hn

/-- A write changes no other register. -/
theorem csrRead_csrWrite_other (s : State) (n m : Nat) (v : Word) (hn : m ≠ n) :
    csrRead (s.setCur (csrWrite s.cur n v)) s.curCore (s.slotOf s.curCore) m = csrRead s s.curCore (s.slotOf s.curCore) m := by
  unfold csrRead
  rw [State.ctxOf_setCur_same, State.ctxslotWord_setCur, show s.ctxOf s.curCore (s.slotOf s.curCore) = s.cur from rfl]
  generalize s.cur = c
  split
  next hm =>
    unfold csrWrite
    split
    next => exact NMap.getD_set_other _ _ _ _ _ (by omega)
    next => split <;> rfl
  next =>
    split
    next => simp only [csrWrite_pivVector]
    next =>
      dsimp only
      split
      any_goals rfl
      all_goals
        unfold csrWrite
        split
        · rfl
        · split
          any_goals rfl
          all_goals exact absurd rfl hn

/-- The compute cores' half of `Obligations.CsrReadsBack`, which holds of every state and every number. -/
theorem csrRead_setCur_csrWrite (s : State) (n m : Nat) (v : Word) :
    csrRead (s.setCur (csrWrite s.cur n v)) s.curCore (s.slotOf s.curCore) m
      = if m = n ∧ csrMask n ≠ 0 then v &&& csrMask n else csrRead s s.curCore (s.slotOf s.curCore) m := by
  by_cases hm : m = n
  · subst hm
    by_cases hmask : csrMask m = 0
    · rw [if_neg (fun h => h.2 hmask), csrWrite_readOnly _ _ _ hmask]
      unfold csrRead
      rw [State.ctxOf_setCur_same, State.ctxslotWord_setCur]
      rfl
    · rw [if_pos ⟨rfl, hmask⟩, csrRead_csrWrite_same s m v hmask]
  · rw [if_neg (fun h => hm h.1), csrRead_csrWrite_other s n m v hm]

/-! ## Registers of a system core -/

/-- The part of `Obligations.CsrReadsBack` about the writable registers of a system core, which holds as it stands (R403). -/
theorem sysCsrRead_sysCsrWrite (s : State) (v : Word) (hsevt : s.sys.sevt < 2 ^ 10) :
    let t (n : Nat) := s.setSys (sysCsrWrite s.sys n v.toNat)
    sysCsrRead (t 0x100) 0x100 = sysCsrRead s 0x100 &&& ~~~v
      ∧ sysCsrRead (t 0x101) 0x101 = v &&& 0x3FF ∧ sysCsrRead (t 0x102) 0x102 = v &&& 0xFFFF
      ∧ sysCsrRead (t 0x103) 0x103 = v &&& 0xFFFF ∧ sysCsrRead (t 0x120) 0x120 = v &&& 0x1FF
      ∧ sysCsrRead (t 0x128) 0x128 = v &&& 0xFFFFF
      ∧ sysCsrRead (t 0x40) 0x40 = v &&& 0x7 ∧ sysCsrRead (t 0x42) 0x42 = v &&& 0x3F := by
  simp only [sysCsrRead, State.sys_setSys, sysCsrWrite]
  exact ⟨ofNat_and_ones_sub_eq_and_not _ _ v hsevt, ofNat_mod_two_pow_eq_and v 10, ofNat_mod_two_pow_eq_and v 16,
    ofNat_mod_two_pow_eq_and v 16, ofNat_mod_two_pow_eq_and v 9, ofNat_mod_two_pow_eq_and v 20, ofNat_mod_two_pow_eq_and v 3,
    ofNat_mod_two_pow_eq_and v 6⟩

/-- A system core reads the TB of each slot of its partition (R24, log 71). -/
theorem sysCsrRead_tb (s : State) (slot : Nat) (hslot : slot < 2) :
    sysCsrRead s (0x30 + slot) = BitVec.ofNat 64 (s.dom (s.partOfDie (s.curSys / 2)) slot).tb := by
  interval_cases slot <;> rfl

/-- The record of a system core is not changed by a write of a register without writable bits. -/
theorem sysCsrWrite_readOnly (x : SysSt) (n v : Nat)
    (hn : n ∈ [0x30, 0x31, 0x110, 0x111, 0x121, 0x122, 0x123, 0x124, 0x129, 0x12A]) : sysCsrWrite x n v = x := by
  fin_cases hn <;> rfl

/-! ## Writing a record back

A write of a read-only register puts the record of the core back as it was. That is the same state where the table of the system cores
lists the record, and a longer table, with the same reads, where it does not. -/

/-- Where the table lists the core, a write of a register without writable bits leaves the whole state. -/
theorem setSys_sysCsrWrite_readOnly (s : State) (n v : Nat) (hrise : NMap.risingFrom 0 s.syss = true)
    (hlisted : NMap.find s.syss s.curSys = some s.sys)
    (hn : n ∈ [0x30, 0x31, 0x110, 0x111, 0x121, 0x122, 0x123, 0x124, 0x129, 0x12A]) : s.setSys (sysCsrWrite s.sys n v) = s := by
  rw [sysCsrWrite_readOnly s.sys n v hn, State.setSys, NMap.set_of_find_eq_some s.syss 0 s.curSys s.sys hrise hlisted]

/-- A state whose table lists its system core: a write of THERM leaves it. -/
theorem witness_setSys_sysCsrWrite_readOnly :
    ∃ s : State, s.sys.running = true ∧ s.setSys (sysCsrWrite s.sys 0x110 7) = s :=
  ⟨State.reset.setSys { SysSt.reset with running := true }, rfl, setSys_sysCsrWrite_readOnly _ _ _ (by decide) rfl (by decide)⟩

/-- Where the table does not list the core, any record put in it makes the table longer. -/
theorem setSys_ne_of_unlisted (s : State) (x : SysSt) (h : NMap.find s.syss s.curSys = none) : s.setSys x ≠ s := by
  intro hs
  have hfind : NMap.find (s.setSys x).syss s.curSys = some x := NMap.find_set_same ..
  rw [hs, h] at hfind
  exact absurd hfind (by simp)

/-- Refutes O20: its clause that a write of a read-only register of a system core leaves the whole state (`t n = s`) fails at
`State.reset`, whose table of the system cores is empty: the write of 0x030 puts the reset record of system core 0 in it. The fault
is the clause's equality of tables, not what a register holds: the other clauses hold (`csrRead_setCur_csrWrite`,
`sysCsrRead_sysCsrWrite`, `sysCsrRead_tb`), and this one holds where the table is in its form and lists the core
(`setSys_sysCsrWrite_readOnly`). -/
theorem not_csrReadsBack : ¬ Obligations.CsrReadsBack := by
  unfold Obligations.CsrReadsBack
  rintro ⟨-, hsys⟩
  obtain ⟨-, -, -, -, -, -, -, -, hstay, -⟩ := hsys State.reset 0 (by decide)
  exact setSys_ne_of_unlisted State.reset _ rfl (hstay 0x30 (by decide))

end Sys2Proof.Machine
end

section
/-! PROOFS. Where a result goes, and how the sequencer goes on (R27, R46, R49, R51, R97, R100, R112, R403). -/

namespace Sys2Proof.Machine
open Sys2Proof.Claims

theorem readH_writeH (c : Ctx) (d r : Nat) (v : Word) : readH (writeH c d v) r = if r = d ∧ d ≠ 0 then v else readH c r := by
  by_cases hr : r = 0
  · subst hr
    have h : ¬ (0 = d ∧ d ≠ 0) := fun h => h.2 h.1.symm
    simp only [readH, if_neg h, if_true]
  · by_cases hd : d = 0
    · simp [readH, writeH, hd]
    · by_cases h : r = d
      · subst h; simp [readH, writeH, hd]
      · simp [readH, writeH, hr, hd, h, NMap.getD_set_other]

theorem writeH_frame (c : Ctx) (d : Nat) (v : Word) : writeH c d v = { c with h := (writeH c d v).h } := by
  unfold writeH; split <;> rfl

@[simp] theorem readH_orFlags (c : Ctx) (fl r : Nat) : readH (orFlags c fl) r = readH c r := rfl

theorem readG_writeG (s : State) (d r : Nat) (v : Word) : readG (writeG s d v) r = if r = d ∧ d ≠ 0 then v else readG s r := by
  by_cases hr : r = 0
  · subst hr
    have h : ¬ (0 = d ∧ d ≠ 0) := fun h => h.2 h.1.symm
    simp only [readG, if_neg h, if_true]
  · by_cases hd : d = 0
    · simp [writeG, hd]
    · by_cases h : r = d
      · subst h; simp [readG, writeG, hd]
      · simp [readG, writeG, hr, hd, h, NMap.getD_set_other]

@[simp] theorem readG_orSys (s : State) (fl r : Nat) : readG (orSys s fl) r = readG s r := by
  unfold orSys; split
  · rfl
  · simp [readG]

theorem writeG_zero (s : State) (v : Word) : writeG s 0 v = s := rfl

theorem orSys_zero (s : State) : orSys s 0 = s := rfl

theorem orSys_of_ne {s : State} {fl : Nat} (hfl : fl ≠ 0) :
    orSys s fl = s.setSys { s.sys with vflags := s.sys.vflags ||| BitVec.ofNat 64 (fl % 64) } := by
  simp [orSys, hfl]

theorem result_queue (s : State) (f d : Nat) (v : Word) (fl : Nat) (hq : QueueMode s) :
    result s f d v fl = s.setCur { s.cur with flight := s.cur.flight ++
      [⟨s.cur.now, s.cur.pc, s.cur.now + f - 1, .pushQ d [v], fl, 0, none, decide (f > 1)⟩] } := by
  obtain ⟨hsys, hh⟩ := hq
  simp [result, hsys, hh, State.modCur]

theorem result_handler (s : State) (f d : Nat) (v : Word) (fl : Nat) (hm : HandlerMode s) :
    result s f d v fl = s.setCur (orFlags (writeH s.cur d v) fl) := by
  obtain ⟨hsys, hh⟩ := hm
  simp [result, hsys, hh, State.modCur]

theorem result_system (s : State) (f d : Nat) (v : Word) (fl : Nat) (hm : SystemMode s) :
    result s f d v fl = orSys (writeG s d v) fl := if_pos hm

theorem orSys_writeG_frame (s : State) (d : Nat) (v : Word) (fl : Nat) (h : d ≠ 0 ∨ fl ≠ 0) :
    orSys (writeG s d v) fl = s.setSys
      { s.sys with g := (orSys (writeG s d v) fl).sys.g, vflags := s.sys.vflags ||| BitVec.ofNat 64 (fl % 64) } := by
  by_cases hd : d = 0
  · have hfl : fl ≠ 0 := h.resolve_left (fun hne => hne hd)
    rw [hd, writeG_zero, orSys_of_ne hfl, State.sys_setSys]
  · by_cases hfl : fl = 0
    · simp [hfl, orSys_zero, writeG, hd]
    · simp [orSys_of_ne hfl, writeG, hd]

/-- Settles O4: the equation of `result` in each of the three modes; a system core writes its register and its VFLAGS and nothing else. -/
theorem resultDestinations : Obligations.ResultDestinations := by
  unfold Obligations.ResultDestinations
  refine ⟨result_queue, fun s f d v fl hm => ⟨fun r => ?_, ?_⟩, fun s f d v fl hm => ?_⟩
  · rw [result_handler s f d v fl hm, State.setCur_cur, readH_orFlags, readH_writeH]
  · rw [result_handler s f d v fl hm, State.setCur_cur, orFlags, writeH_frame]
  · rw [result_system s f d v fl hm]
    refine ⟨fun r => by rw [readG_orSys, readG_writeG], orSys_writeG_frame s d v fl, ?_⟩
    rintro rfl rfl
    rw [writeG_zero, orSys_zero]

theorem goto_queue (s : State) (target cycles : Nat) (hq : QueueMode s) :
    goto s target cycles = s.setCur { s.cur with pc := target % 65536, base := s.cur.now + cycles, nic := none, guard := none } := by
  obtain ⟨hsys, hh⟩ := hq
  simp [goto, hsys, hh, State.modCur]

theorem setLoops_queue (s : State) (ls : List LoopRec) (hq : QueueMode s) : setLoops s ls = s.setCur { s.cur with loops := ls } := by
  obtain ⟨hsys, hh⟩ := hq
  simp [setLoops, hsys, hh, State.modCur]

theorem goto_setLoops_queue (s : State) (ls : List LoopRec) (target cycles : Nat) (hq : QueueMode s) :
    goto (setLoops s ls) target cycles = s.setCur { s.cur with
      pc := target % 65536, base := s.cur.now + cycles, nic := none, guard := none, loops := ls } := by
  have hq' : QueueMode (s.setCur { s.cur with loops := ls }) := ⟨hq.1, by simpa using hq.2⟩
  rw [setLoops_queue s ls hq, goto_queue _ _ _ hq', State.setCur_setCur, State.setCur_cur]

theorem loopsOf_queue (s : State) (hq : QueueMode s) : loopsOf s = s.cur.loops := by
  obtain ⟨hsys, hh⟩ := hq
  simp [loopsOf, hsys, hh]

theorem pcOf_queue (s : State) (hq : QueueMode s) : pcOf s = s.cur.pc := by simp [pcOf, hq.1]

/-- Settles O5: `advance` by the loop stack in force, no loop, the last trip and the trips before it. -/
theorem sequencerAdvances : Obligations.SequencerAdvances := by
  unfold Obligations.SequencerAdvances
  intro s n c hq
  refine ⟨fun h => ?_, fun l ls hls hlast hleft => ?_, fun l ls hls hlast hleft => ?_⟩
  all_goals rw [advance, pcOf_queue s hq, loopsOf_queue s hq]
  · cases hls : s.cur.loops with
    | nil => rw [goto_queue s _ _ hq]
    | cons l ls => simp only [if_neg (h l ls hls), goto_queue s _ _ hq]
  · simp only [hls, if_pos hlast, if_pos hleft, goto_setLoops_queue s _ _ _ hq]
  · simp only [hls, if_pos hlast, if_neg (Nat.not_lt.mpr hleft), goto_setLoops_queue s _ _ _ hq]

end Sys2Proof.Machine
end

section
/-! PROOFS. The stops of an instruction, and that a busy station comes before every other check of a command (R35, R88). -/

namespace Sys2Proof.Machine
open Sys2Proof.Claims

/-- Every stop of a result meets a predicate. -/
structure StopsAre {α : Type} (P : Stop → Prop) (r : Res α) : Prop where
  of_error : ∀ e, r = .error e → P e

namespace StopsAre
variable {α β : Type} {P : Stop → Prop}

protected theorem ok (x : α) : StopsAre P (.ok x : Res α) := ⟨fun _ h => by cases h⟩
protected theorem pure (x : α) : StopsAre P (pure x : Res α) := .ok x
protected theorem error {e : Stop} (h : P e) : StopsAre P (.error e : Res α) := ⟨fun _ h' => by cases h'; exact h⟩
protected theorem throw {e : Stop} (h : P e) : StopsAre P (throw e : Res α) := .error h
protected theorem bind {r : Res α} {f : α → Res β} (hr : StopsAre P r) (hf : ∀ x, StopsAre P (f x)) : StopsAre P (r >>= f) := by
  cases r with
  | ok x => exact hf x
  | error e => exact .error (hr.of_error e rfl)
/-- What stands after a throw is not reached. -/
theorem throw_bind {e : Stop} {f : α → Res β} (h : P e) : StopsAre P ((MonadExcept.throw e : Res α) >>= f) := .error h
protected theorem ite {c : Prop} [Decidable c] {r t : Res α} (hr : StopsAre P r) (ht : StopsAre P t) :
    StopsAre P (if c then r else t) := by
  split
  · exact hr
  · exact ht
end StopsAre

/-- A stop that is no ILLEGAL of a class below that of a busy station, so that the busy station comes first (R35, R88). -/
def AfterBusy (e : Stop) : Prop := ∀ b, e = .trap 0x01 b → 2 ≤ b % 256

theorem afterBusy_illegal {b : Nat} (h : 2 ≤ b % 256) : AfterBusy (illegal b) := by
  rintro c ⟨⟩
  exact h

theorem afterBusy_trap {cause b : Nat} (h : cause ≠ 0x01) : AfterBusy (.trap cause b) := by
  rintro c ⟨⟩
  exact absurd rfl h

theorem mxIllegal_afterBusy (reason tile operand : Nat) : AfterBusy (mxIllegal reason tile operand) :=
  afterBusy_illegal (by omega)

theorem quantIllegal_afterBusy (reason rid operand : Nat) : AfterBusy (quantIllegal reason rid operand) :=
  afterBusy_illegal (by omega)

theorem closedCheck_afterBusy (c : Ctx) (station : Nat) (ss : List Nat) : StopsAre AfterBusy (closedCheck c station ss) := by
  unfold closedCheck
  split
  · exact .error (afterBusy_trap (by decide))
  · exact .ok ()

theorem footCheck_afterBusy (c : Ctx) (eng : Nat) (wr : Bool) (space : Nat) (gs : List Nat) :
    StopsAre AfterBusy (footCheck c eng wr space gs) := by
  unfold footCheck
  dsimp only
  split
  · exact .ok ()
  · exact .error (afterBusy_trap (by decide))

theorem dirtyCheck_afterBusy (s : State) (eng : Nat) (tiles : List Nat) (w : Nat) : StopsAre AfterBusy (dirtyCheck s eng tiles w) := by
  unfold dirtyCheck
  split
  · exact .error (afterBusy_trap (by decide))
  · exact .ok ()

theorem tileChecks_afterBusy (s : State) (reads writes : List Nat) (w : Nat) : StopsAre AfterBusy (tileChecks s reads writes w) :=
  .bind (footCheck_afterBusy ..) fun _ => .bind (footCheck_afterBusy ..) fun _ => dirtyCheck_afterBusy ..

theorem tilePoison_afterBusy (s : State) (tile : Nat) (rows : List Nat) : StopsAre AfterBusy (tilePoison s tile rows) := by
  unfold tilePoison
  split
  · exact .error (afterBusy_trap (by decide))
  · exact .ok ()

theorem chainPoison_afterBusy (s : State) (issue tile : Nat) (rows : List Nat) : StopsAre AfterBusy (chainPoison s issue tile rows) :=
  tilePoison_afterBusy ..

theorem blockSide_afterBusy (st : Strm) : StopsAre AfterBusy (blockSide st) := by
  unfold blockSide
  exact .ite (.error (afterBusy_illegal (by omega))) (.ok ())

theorem qzeStreams_afterBusy (s : State) (sa sd : Nat) : StopsAre AfterBusy (qzeStreams s sa sd) := by
  refine .bind (closedCheck_afterBusy ..) fun _ => ?_
  split
  · exact .ite (.throw (afterBusy_illegal (by decide))) (.pure _)
  · exact .throw (afterBusy_trap (by decide))

/-- A command whose station is busy takes ILLEGAL 0x0002, whatever its other checks find, where none of these is an ILLEGAL of a lower class
(R35, R88). -/
theorem issue_busy (s : State) (station : Nat) (r : IssueRule) (body : State → Res (State × Flow)) (hr : r.first = busyCheck station)
    (hbusy : s.cur.freeAt.getD station 0 > s.cur.now) (hq : QueueMode s) (hg : Unguarded s) (hb : ∀ t, StopsAre AfterBusy (body t)) :
    issue s r body = .next (takeTrap s 0x01 (0x0002 + station * 2 ^ 8)) := by
  have hfirst : r.first s = .error (.trap 0x01 (0x0002 + station * 2 ^ 8)) := by rw [hr, busyCheck, if_pos hbusy, illegal]
  have hgo : ∀ x : Res (State × Flow), StopsAre AfterBusy x →
      lowerClass (.error (.trap 0x01 (0x0002 + station * 2 ^ 8))) x = .error (.trap 0x01 (0x0002 + station * 2 ^ 8)) := by
    rintro (⟨⟨c, b⟩ | n | ⟨k, l⟩⟩ | t) hx
    · by_cases hc : c = 1
      · subst hc
        have hb := hx.of_error _ rfl b rfl
        have hle : ¬ b % 256 < (0x0002 + station * 2 ^ 8) % 256 := by omega
        simp only [lowerClass, if_neg hle]
      · simp [lowerClass, hc]
    all_goals rfl
  unfold issue
  rw [if_neg hg]
  simp only [hfirst, bind, Except.bind, hgo _ (hb _), hq.1, Bool.false_eq_true, if_false, takeStop_illegal]

/-! ## The commands of the stations 1 and 5 -/

theorem mmaIssue_busy (f : FMma) (mode : Nat) (s : State) (hbusy : s.cur.freeAt.getD 1 0 > s.cur.now) (hq : QueueMode s)
    (hg : Unguarded s) : mmaIssue f mode s = .next (takeTrap s 0x01 (0x0002 + 1 * 2 ^ 8)) := by
  unfold mmaIssue
  refine issue_busy s 1 _ _ rfl hbusy hq hg fun t => ?_
  refine .bind (closedCheck_afterBusy ..) fun _ => ?_
  split
  · refine .ite (.throw_bind (afterBusy_illegal (by decide))) ?_
    dsimp only
    split
    · exact .throw_bind (mxIllegal_afterBusy _ _ _)
    · exact .bind (tileChecks_afterBusy ..) fun _ => .ite (.bind (chainPoison_afterBusy ..) fun _ => .pure _) (.pure _)
  · exact .throw (afterBusy_trap (by decide))

theorem execAccz_busy (f : FT) (s : State) (hbusy : s.cur.freeAt.getD 1 0 > s.cur.now) (hq : QueueMode s) (hg : Unguarded s) :
    execAccz f s = .next (takeTrap s 0x01 (0x0002 + 1 * 2 ^ 8)) := by
  unfold execAccz
  exact issue_busy s 1 _ _ rfl hbusy hq hg fun _ => .bind (tileChecks_afterBusy ..) fun _ => .pure _

theorem accIssue_busy (f : FTS) (kind : CmdKind) (s : State) (hbusy : s.cur.freeAt.getD 1 0 > s.cur.now) (hq : QueueMode s)
    (hg : Unguarded s) : accIssue f kind s = .next (takeTrap s 0x01 (0x0002 + 1 * 2 ^ 8)) := by
  unfold accIssue
  refine issue_busy s 1 _ _ rfl hbusy hq hg fun t => ?_
  refine .bind (closedCheck_afterBusy ..) fun _ => ?_
  split
  · exact .throw (afterBusy_trap (by decide))
  · exact .ite (.throw_bind (afterBusy_illegal (by decide))) (.ite (.throw_bind (mxIllegal_afterBusy _ _ _))
      (.bind (tileChecks_afterBusy ..) fun _ => .ite (.bind (chainPoison_afterBusy ..) fun _ => .pure _) (.pure _)))

theorem execAccmv_busy (f : FAmv) (s : State) (hbusy : s.cur.freeAt.getD 1 0 > s.cur.now) (hq : QueueMode s)
    (hg : Unguarded s) : execAccmv f s = .next (takeTrap s 0x01 (0x0002 + 1 * 2 ^ 8)) := by
  unfold execAccmv
  refine issue_busy s 1 _ _ rfl hbusy hq hg fun t => ?_
  refine .bind (closedCheck_afterBusy ..) fun _ => ?_
  split
  · exact .throw (afterBusy_trap (by decide))
  · exact .ite (.throw_bind (afterBusy_illegal (by decide))) (.ite (.throw_bind (mxIllegal_afterBusy _ _ _))
      (.bind (footCheck_afterBusy ..) fun _ => .bind (tilePoison_afterBusy ..) fun _ => .pure _))

theorem factIssue_busy (kind : CmdKind) (tile tile2 fl : Nat) (s : State) (hbusy : s.cur.freeAt.getD 1 0 > s.cur.now)
    (hq : QueueMode s) (hg : Unguarded s) :
    factIssue s kind tile tile2 fl = .next (takeTrap s 0x01 (0x0002 + 1 * 2 ^ 8)) := by
  unfold factIssue
  exact issue_busy s 1 _ _ rfl hbusy hq hg fun _ => .ite (.throw_bind (mxIllegal_afterBusy _ _ _))
    (.ite (.pure _) (.bind (tileChecks_afterBusy ..) fun _ => .pure _))

theorem quantIssue_busy (mode sd sa rnd seed : Nat) (rte : Bool) (s : State) (hbusy : s.cur.freeAt.getD 5 0 > s.cur.now)
    (hq : QueueMode s) (hg : Unguarded s) :
    quantIssue s mode sd sa rnd seed rte = .next (takeTrap s 0x01 (0x0002 + 5 * 2 ^ 8)) := by
  unfold quantIssue
  refine issue_busy s 5 _ _ rfl hbusy hq hg fun t => .bind (qzeStreams_afterBusy ..) fun ad => ?_
  exact .ite (.throw_bind (quantIllegal_afterBusy _ _ _)) (.ite (.throw_bind (quantIllegal_afterBusy _ _ _))
    (.ite (.throw_bind (quantIllegal_afterBusy _ _ _)) (.bind (blockSide_afterBusy _) fun _ =>
      .ite (.throw_bind (quantIllegal_afterBusy _ _ _)) (.pure _))))

theorem dequantIssue_busy (mode sd sa : Nat) (s : State) (hbusy : s.cur.freeAt.getD 5 0 > s.cur.now) (hq : QueueMode s)
    (hg : Unguarded s) : dequantIssue s mode sd sa = .next (takeTrap s 0x01 (0x0002 + 5 * 2 ^ 8)) := by
  unfold dequantIssue
  exact issue_busy s 5 _ _ rfl hbusy hq hg fun _ => .bind (qzeStreams_afterBusy ..) fun _ =>
    .ite (.throw_bind (quantIllegal_afterBusy _ _ _)) (.ite (.throw_bind (quantIllegal_afterBusy _ _ _))
      (.bind (blockSide_afterBusy _) fun _ => .pure _))

/-- Settles O33: `issue_busy` for each command, as none of its other checks gives an ILLEGAL of a lower class. -/
theorem busyStation : Obligations.BusyStation := by
  unfold Obligations.BusyStation
  intro i s x
  refine ⟨fun hi hbusy hq hg => ?_, fun hi hbusy hq hg => ?_, fun hi hbusy hq hg => ?_⟩
  · cases i
    case accz f => exact execAccz_busy f s hbusy hq hg
    case accld f => exact accIssue_busy f _ s hbusy hq hg
    case accadd f => exact accIssue_busy f _ s hbusy hq hg
    case accmv f => exact execAccmv_busy f s hbusy hq hg
    case mmaFlt f => exact mmaIssue_busy f 0 s hbusy hq hg
    case mmaW4 f => exact mmaIssue_busy f 1 s hbusy hq hg
    case mmaL6 f => exact mmaIssue_busy f 2 s hbusy hq hg
    case mmaT3 f => exact mmaIssue_busy f 3 s hbusy hq hg
    case mmaI8 f => exact mmaIssue_busy f 4 s hbusy hq hg
    case mmaF32 f => exact mmaIssue_busy f 5 s hbusy hq hg
    all_goals cases hi
  · cases i
    case chol f => exact factIssue_busy .chol _ _ _ s hbusy hq hg
    case lup f => exact factIssue_busy .lup _ _ _ s hbusy hq hg
    case givqr f => exact factIssue_busy .givqr _ _ _ s hbusy hq hg
    case grot f => exact factIssue_busy .grot _ _ _ s hbusy hq hg
    case trsm f => exact factIssue_busy .trsm _ _ _ s hbusy hq hg
    all_goals cases hi
  · cases i
    case quantTensor f => exact quantIssue_busy 0 _ _ _ _ _ s hbusy hq hg
    case quantBlock f => exact quantIssue_busy 1 _ _ _ _ _ s hbusy hq hg
    case quantBlockTensor f => exact quantIssue_busy 2 _ _ _ _ _ s hbusy hq hg
    case quantCast f => exact quantIssue_busy 3 _ _ _ _ _ s hbusy hq hg
    case dequantTensor f => exact dequantIssue_busy 0 _ _ s hbusy hq hg
    case dequantBlock f => exact dequantIssue_busy 1 _ _ s hbusy hq hg
    case dequantBlockTensor f => exact dequantIssue_busy 2 _ _ s hbusy hq hg
    case dequantCast f => exact dequantIssue_busy 3 _ _ s hbusy hq hg
    all_goals cases hi

end Sys2Proof.Machine
end

section
/-! PROOFS. What reset and a launch leave (R22, R237, R274 and the Reset columns of the register tables). -/

namespace Sys2Proof.Machine
open Sys2Proof.Claims

/-- After reset no CSR but CTXSLOT depends on the core or the slot. -/
theorem csrRead_reset (core slot n : Nat) (hn : n ≠ 0x34) : csrRead State.reset core slot n = csrRead State.reset 0 0 n := by
  have hctx : State.reset.ctxOf core slot = State.reset.ctxOf 0 0 := rfl
  unfold csrRead
  rw [hctx]
  split
  · rfl
  · split
    · rfl
    · split
      case h_12 => exact absurd rfl hn
      all_goals rfl

/-- The registers with reset value 0 (the Reset columns of their tables). -/
theorem csrRead_reset_zero : ∀ n ∈ [0x00, 0x01, 0x02, 0x03, 0x04, 0x09, 0x35, 0x40, 0x41, 0x42, 0x43, 0x60, 0x61, 0x62, 0x63, 0x64, 0x65,
    0x66, 0x67, 0x68, 0x69, 0x6A, 0x80, 0x87, 0xA0, 0xA1, 0xA2, 0xA3, 0xA4], n ≠ 0x34 ∧ csrRead State.reset 0 0 n = 0 := by
  decide

/-- The pivot vector after reset is the identity: entry `i`, six bits wide, reads `i` (R274). -/
theorem pivot_reset : ∀ i, i < 64 → ((csrRead State.reset 0 0 (0x81 + 6 * i / 64)).toNat / 2 ^ (6 * i % 64)
    + 2 ^ (64 - 6 * i % 64) * (csrRead State.reset 0 0 (0x82 + 6 * i / 64)).toNat) % 64 = i := by
  decide +kernel

theorem engOf_reset (n : Nat) : State.reset.engOf n = EngSt.reset := rfl

/-- The timing fields of page 1 after reset (R237). -/
theorem timing_reset : let e := EngSt.reset
    (e.tRCD, e.tRP, e.tRAS, e.tRC) = (36, 36, 80, 116) ∧ (e.tRRDS, e.tRRDL, e.tFAW, e.tCCDS) = (4, 6, 32, 2)
      ∧ (e.tCCDL, e.tWR, e.tWTRS, e.tWTRL) = (4, 36, 8, 20) ∧ (e.tRTW, e.tRTP, e.tRFCab, e.tRFCpb) = (14, 8, 840, 400)
      ∧ (e.tREFI, e.tREFIpb, e.rlBase, e.wlBase) = (9360, 585, 52, 12) ∧ e.arena = 0 ∧ e.maxPost = 8 ∧ e.st = .idle := by
  decide

/-- Settles O57: after reset a register reads the same in every context, and in one context its value is evaluated. -/
theorem resetValues : Obligations.ResetValues := by
  unfold Obligations.ResetValues
  refine ⟨fun core slot _ _ => ⟨fun n hn => ?_, ?_, ?_, fun i hi => ?_⟩, fun c tb mode dmr => ?_, fun n => ?_, rfl, rfl, rfl, rfl⟩
  · obtain ⟨hne, hzero⟩ := csrRead_reset_zero n hn
    rw [csrRead_reset core slot n hne, hzero]
  · exact (csrRead_reset core slot 0x6B (by decide)).trans (by decide)
  · exact (csrRead_reset core slot 0x36 (by decide)).trans (by decide)
  · rw [csrRead_reset core slot _ (by omega), csrRead_reset core slot _ (by omega)]
    exact pivot_reset i hi
  · exact ⟨rfl, rfl, rfl, rfl, rfl, rfl, rfl, rfl, rfl, rfl, rfl, rfl, rfl, rfl, rfl, rfl, rfl, rfl, rfl, rfl, rfl, rfl, rfl, rfl, rfl, rfl⟩
  · rw [engOf_reset]
    exact timing_reset

end Sys2Proof.Machine
end

section
/-! PROOFS. The events of the launch unit (R19–R26, R382, R383, R404). -/

namespace Sys2Proof.Claims
open Sys2Proof Sys2Proof.Machine

/-! ## Events of the common form -/

theorem Happens.once {i : Instr} {s t : State} {c : Prop} (h : c → exec i s = .next t) (hn : ¬ c → exec i s = .next s) :
    Happens i s (once c t) := by
  constructor
  · intro x hx hc
    obtain rfl := List.mem_singleton.mp hx
    exact h hc
  · exact fun _ hx => hn (hx _ (List.mem_singleton_self _))

theorem Happens.never {i : Instr} {s : State} (h : exec i s = .next s) : Happens i s ⟨[], True⟩ :=
  ⟨fun _ hx => absurd hx List.not_mem_nil, fun _ _ => h⟩

theorem Happens.always {i : Instr} {s t : State} (h : exec i s = .next t) : Happens i s ⟨[(True, t)], True⟩ := by
  constructor
  · intro x hx _
    obtain rfl := List.mem_singleton.mp hx
    exact h
  · exact fun _ hx => absurd trivial (hx _ (List.mem_singleton_self _))

theorem Happens.two {i : Instr} {s t u : State} {c d q : Prop} (hc : c → exec i s = .next t) (hd : d → exec i s = .next u)
    (hn : q → ¬ c → ¬ d → exec i s = .next s) : Happens i s ⟨[(c, t), (d, u)], q⟩ := by
  constructor
  · intro x hx h
    simp only [List.mem_cons, List.not_mem_nil, or_false] at hx
    obtain rfl | rfl := hx
    · exact hc h
    · exact hd h
  · exact fun hq hx => hn hq (hx (c, t) (by simp)) (hx (d, u) (by simp))

theorem Happens.three {i : Instr} {s t u v : State} {c d e q : Prop} (hc : c → exec i s = .next t) (hd : d → exec i s = .next u)
    (he : e → exec i s = .next v) (hn : q → ¬ c → ¬ d → ¬ e → exec i s = .next s) :
    Happens i s ⟨[(c, t), (d, u), (e, v)], q⟩ := by
  constructor
  · intro x hx h
    simp only [List.mem_cons, List.not_mem_nil, or_false] at hx
    obtain rfl | rfl | rfl := hx
    · exact hc h
    · exact hd h
    · exact he h
  · exact fun hq hx => hn hq (hx (c, t) (by simp)) (hx (d, u) (by simp)) (hx (e, v) (by simp))

end Sys2Proof.Claims

namespace Sys2Proof.Machine
open Sys2Proof.Claims

/-! ## Doorbells (R383) -/

/-- PNB is read: a notify that waits, or came in this wall cycle, has the queue looked at again. -/
theorem readPnb_of_notified (q : PartSt) (h : q.pnb = true ∨ q.rung = true) :
    readPnb q = { q with unmapped := false, rung := false, pnb := false, scanned := q.arrivals } := by
  unfold readPnb settleBell rescan
  cases hr : q.rung with
  | false => simp [h.resolve_right (by simp [hr])]
  | true => cases hu : q.unmapped with
    | false => cases q.pnb <;> simp
    | true => simp

theorem readPnb_of_quiet (q : PartSt) (hp : q.pnb = false) (hr : q.rung = false) : readPnb q = { q with unmapped := false } := by
  simp only [readPnb, settleBell, hr, hp, Bool.not_false, if_true, Bool.false_eq_true, if_false]

theorem doorbellTick_unmapped (s : State) (p : Nat) (h : (s.part p).unmapped = true) :
    doorbellTick s p = s.setPart p (readPnb (s.part p)) := by
  simp only [doorbellTick, h, if_true]

/-! ## LAUNCH (R19–R23) -/

section
variable (s : State) {x : Nat × Nat × List Nat}

/-- The slot of a packet. -/
def packetSlot (x : Nat × Nat × List Nat) : Nat := bits (pktField x.2.2 2 2) 1 1

/-- The state with a packet taken from the queue of the event's partition. -/
def packetTaken (x : Nat × Nat × List Nat) : State :=
  s.setPart s.ev.a { s.part s.ev.a with
    queue := (s.part s.ev.a).queue.filter (fun y => y.2.1 != x.2.1)
    headTold := (s.part s.ev.a).headTold.filter (fun n => n != x.2.1) }

variable (hx : headPacket (s.part s.ev.a) = some x)
include hx

/-- LAUNCH at a slot that is not free: the operating system is told of the packet once (R19). -/
theorem execLaunch_notFree (hf : slotFree (s.part s.ev.a) (s.dom s.ev.a (packetSlot x)) (packetSlot x) = false) :
    execLaunch s = .next (if (s.part s.ev.a).headTold.contains x.2.1 then s
      else sysEventOn (s.setPart s.ev.a { s.part s.ev.a with headTold := x.2.1 :: (s.part s.ev.a).headTold }) s.ev.a 0) := by
  unfold packetSlot at hf
  simp only [execLaunch, hx, hf, Bool.not_false, if_true]
  split <;> rfl

/-- LAUNCH of a packet that fails its check (R22, R23). -/
theorem execLaunch_bad (hf : slotFree (s.part s.ev.a) (s.dom s.ev.a (packetSlot x)) (packetSlot x) = true) {st : Nat}
    (hst : packetStatus (s.part s.ev.a) x.2.2 = some st) :
    execLaunch s = .next (launchFails (packetTaken s x) (packetTask s.ev.a s.wb x.2.2) st) := by
  unfold packetSlot at hf
  simp only [execLaunch, hx, hf, hst, Bool.not_true, Bool.false_eq_true, if_false, Option.isNone_some, Bool.false_and]
  rfl

/-- LAUNCH of a sound packet whose engines are not ready (R226). -/
theorem execLaunch_notReady (hf : slotFree (s.part s.ev.a) (s.dom s.ev.a (packetSlot x)) (packetSlot x) = true)
    (hst : packetStatus (s.part s.ev.a) x.2.2 = none) (hr : launchReady s s.ev.a (packetSlot x) x.2.2 = false) :
    execLaunch s = .next (launchPrepare s s.ev.a (packetSlot x) x.2.2) := by
  unfold packetSlot at hf hr
  simp only [execLaunch, hx, hf, hst, hr, Bool.not_true, Bool.false_eq_true, if_false, Option.isNone_none, Bool.not_false, Bool.true_and, if_true]
  rfl

/-- LAUNCH of a sound packet with its engines ready: what the image directory gives (R20, R22). -/
theorem execLaunch_ready (hf : slotFree (s.part s.ev.a) (s.dom s.ev.a (packetSlot x)) (packetSlot x) = true)
    (hst : packetStatus (s.part s.ev.a) x.2.2 = none) (hr : launchReady s s.ev.a (packetSlot x) x.2.2 = true) :
    execLaunch s = match imageSections s x.2.2 with
      | none => .next (launchFails (packetTaken s x) (packetTask s.ev.a s.wb x.2.2) 4)
      | some secs => if secs.all Section.fits then
          .next (launchTask (packetTaken s x) s.ev.a (packetSlot x) x.2.2 secs (s.ev.b == 1)) else .fault .noSuchAddress := by
  unfold packetSlot at hf hr
  simp only [execLaunch, hx, hf, hst, hr, Bool.not_true, Bool.false_eq_true, if_false, Option.isNone_none, Bool.true_and]
  rfl

end

theorem slotFree_iff (q : PartSt) (d : Domain) (slot : Nat) :
    slotFree q d slot = true ↔ d.task = none ∧ ¬ (q.str = 2 ∧ q.strSlot = slot) := by
  simp [slotFree, imp_iff_not_or]

theorem slotFree_false_iff (q : PartSt) (d : Domain) (slot : Nat) :
    slotFree q d slot = false ↔ ¬ (d.task = none ∧ ¬ (q.str = 2 ∧ q.strSlot = slot)) := by
  rw [← slotFree_iff, Bool.not_eq_true]

/-! ## The SLATH barrier (R24–R26) -/

theorem executesTb_iff (d : Domain) : executesTb d = true ↔ d.mode = .run ∨ ∃ f, d.mode = .freezing f := by
  unfold executesTb
  cases d.mode <;> simp

section
variable (s : State) {t : Task} (ht : (s.dom s.ev.a s.ev.b).task = some t)
include ht

/-- Every core has arrived: TB0 is formed (R25). -/
theorem execSlathBarrierComplete_forms (htb : t.tb0 = none) (hall : t.cores.all (fun c => t.arrived.contains c) = true) :
    execSlathBarrierComplete s = .next ({ s with free := s.free + 1 }.setDom s.ev.a s.ev.b { s.dom s.ev.a s.ev.b with
      task := some { t with tb0 := some (((s.dom s.ev.a s.ev.b).tb + Config.slathTransit s.free + 48 + 15) / 16 * 16) } }) := by
  simp only [execSlathBarrierComplete, ht, htb, hall, if_true]
  rfl

theorem execSlathBarrierComplete_waits (htb : t.tb0 = none) (hall : t.cores.all (fun c => t.arrived.contains c) ≠ true) :
    execSlathBarrierComplete s = .next s := by
  simp only [execSlathBarrierComplete, ht, htb, if_neg hall]

/-- On TB0 every member that is still to complete does so, where the domain executes that cycle (R25, R38). -/
theorem execSlathBarrierComplete_onTb0 (htb : t.tb0 = some (s.dom s.ev.a s.ev.b).tb) :
    execSlathBarrierComplete s =
      if executesTb (s.dom s.ev.a s.ev.b) && t.cores.any (fun c => !(s.ctxOf c s.ev.b).slathed) then
        .next ((mapCtxs s s.ev.a s.ev.b (fun _ c => slathCtx (s.dom s.ev.a s.ev.b).tb c)).setDom s.ev.a s.ev.b
          { s.dom s.ev.a s.ev.b with livew := 0, task := some { t with relWb := s.wb } })
      else .next s := by
  simp only [execSlathBarrierComplete, ht, htb, decide_true, Bool.true_and]

theorem execSlathBarrierComplete_otherCycle {tb0 : Nat} (htb : t.tb0 = some tb0) (hne : tb0 ≠ (s.dom s.ev.a s.ev.b).tb) :
    execSlathBarrierComplete s = .next s := by
  simp only [execSlathBarrierComplete, ht, htb, decide_eq_false hne.symm, Bool.false_and, Bool.false_eq_true, if_false]

/-- The watchdog of the barrier fires once, after its limit, where TB0 has not been formed (R26). -/
theorem execSlathWatchdog_eq : execSlathWatchdog s =
    if t.tb0 = none ∧ t.slathFired = false ∧ t.slathWb + wdogLimit s s.ev.a s.ev.b ≤ s.wb then
      .next (sysEventOn (s.setDom s.ev.a s.ev.b { s.dom s.ev.a s.ev.b with
        wdf := true, wdWhich := 0, task := some { t with slathFired := true } }) s.ev.a 3)
    else .next s := by
  have hbar : (t.tb0.isSome || t.slathFired || decide (s.wb < t.slathWb + wdogLimit s s.ev.a s.ev.b)) = true
      ↔ ¬ (t.tb0 = none ∧ t.slathFired = false ∧ t.slathWb + wdogLimit s s.ev.a s.ev.b ≤ s.wb) := by
    rw [Bool.or_eq_true, Bool.or_eq_true, decide_eq_true_eq, Option.isSome_iff_ne_none, not_and_or, not_and_or, Bool.not_eq_false, Nat.not_le,
      or_assoc]
  simp only [execSlathWatchdog, ht, hbar, ite_not]

end

/-! ## The events -/

theorem isNone_iff_not_isSome {α : Type} (o : Option α) : o.isNone = true ↔ ¬ o.isSome = true := by cases o <;> simp

/-- What bars a packet write (R19, R382). -/
theorem execLaunchPacketWrite_bar_iff (s : State) (bs : List Nat) (hbs : bs = (s.ev.data.map (· % 256)).take 128) :
    (bs.length < 128 || (s.parts.find s.ev.a).isNone
        || (s.ev.b = 1 && !peerAllowed (s.part s.ev.a) s.ev.c (pktField bs 1 1 % 4)) || (s.part s.ev.a).queue.length ≥ 16) = true
      ↔ ¬ (128 ≤ s.ev.data.length ∧ (s.parts.find s.ev.a).isSome = true
        ∧ (s.ev.b = 1 → peerAllowed (s.part s.ev.a) s.ev.c (pktField bs 1 1 % 4) = true) ∧ (s.part s.ev.a).queue.length < 16) := by
  have hlen : bs.length < 128 ↔ ¬ 128 ≤ s.ev.data.length := by rw [hbs, List.length_take, List.length_map]; omega
  simp only [Bool.or_eq_true, decide_eq_true_eq, isNone_iff_not_isSome, Bool.and_eq_true, Bool.not_eq_true', hlen, ge_iff_le,
    ← Bool.not_eq_true, not_and_or, not_lt, Classical.not_imp, or_assoc]

theorem launchEvents_happen (s : State) : ∀ x ∈ launchEvents s, Happens x.1 s x.2 := by
  unfold launchEvents
  simp only [List.forall_mem_cons]
  refine ⟨?launchPacketWrite, ?doorbellNotify, ?doorbellUnmap, ?doorbellMap, ?launch, ?slathBarrierComplete, ?slathWatchdog,
    ?taskCompletion, ?corePartEnd, fun x hx => absurd hx List.not_mem_nil⟩
  case launchPacketWrite =>
    have hbar := execLaunchPacketWrite_bar_iff s _ rfl
    exact .once (fun h => if_neg (mt hbar.mp (not_not_intro h))) (fun h => if_pos (hbar.mpr h))
  case doorbellNotify =>
    refine .two (fun ⟨hn, hm⟩ => ?_) (fun ⟨hn, hm⟩ => ?_) (fun _ h h' => ?_)
    · refine (if_neg hn.ne').trans ?_
      rw [hm, if_pos rfl]
    · refine (if_neg hn.ne').trans ?_
      rw [hm, if_neg Bool.false_ne_true]
    · refine if_pos (Nat.eq_zero_of_not_pos fun hn => ?_)
      cases hm : (s.part s.ev.a).mapped
      · exact h' ⟨hn, hm⟩
      · exact h ⟨hn, hm⟩
  case doorbellUnmap =>
    exact .once (fun h => if_neg (mt (isNone_iff_not_isSome _).mp (not_not_intro h))) (fun h => if_pos ((isNone_iff_not_isSome _).mpr h))
  case doorbellMap =>
    have hmap : (s.parts.find s.ev.a).isSome = true →
        execDoorbellMap s = .next (s.setPart s.ev.a (readPnb { s.part s.ev.a with mapped := true })) :=
      fun hp => if_neg (mt (isNone_iff_not_isSome _).mp (not_not_intro hp))
    refine .two (fun ⟨hp, h⟩ => ?_) (fun ⟨hp, hpnb, hrung⟩ => ?_) (fun _ h h' => if_pos ((isNone_iff_not_isSome _).mpr fun hp => ?_))
    · exact (hmap hp).trans (by rw [readPnb_of_notified { s.part s.ev.a with mapped := true } h])
    · exact (hmap hp).trans (by rw [readPnb_of_quiet { s.part s.ev.a with mapped := true } hpnb hrung])
    · by_cases hb : (s.part s.ev.a).pnb = true ∨ (s.part s.ev.a).rung = true
      · exact h ⟨hp, hb⟩
      · rw [not_or, Bool.not_eq_true, Bool.not_eq_true] at hb
        exact h' ⟨hp, hb⟩
  case launch =>
    cases hx : headPacket (s.part s.ev.a) with
    | none =>
      refine .never ?_
      show execLaunch s = _
      simp only [execLaunch, hx]
    | some x =>
      have hfree (h : (s.dom s.ev.a (packetSlot x)).task = none ∧ ¬ ((s.part s.ev.a).str = 2 ∧ (s.part s.ev.a).strSlot = packetSlot x)) :=
        (slotFree_iff (s.part s.ev.a) (s.dom s.ev.a (packetSlot x)) (packetSlot x)).mpr h
      have htaken h := execLaunch_notFree s hx ((slotFree_false_iff _ _ _).mpr h)
      refine ⟨?_, fun hquiet hno => ?_⟩
      · simp only [List.forall_mem_cons]
        refine ⟨fun ⟨hf, ht⟩ => (htaken hf).trans ?_, fun ⟨hf, hst, hr⟩ => execLaunch_notReady s hx (hfree hf) hst hr,
          fun ⟨hf, hst, hr, hsec⟩ => (execLaunch_ready s hx (hfree hf) hst hr).trans ?_,
          fun ⟨hf, hst, hr, xs, hsec, hfit⟩ => (execLaunch_ready s hx (hfree hf) hst hr).trans ?_,
          fun ⟨hf, hst⟩ => execLaunch_bad s hx (hfree hf) hst, fun ⟨hf, hst⟩ => execLaunch_bad s hx (hfree hf) hst,
          fun ⟨hf, hst⟩ => execLaunch_bad s hx (hfree hf) hst, fun y hy => absurd hy List.not_mem_nil⟩
        · rw [if_neg (by simpa using ht)]
        · rw [hsec]
          rfl
        · rw [hsec]
          exact if_pos hfit
      · refine (htaken hquiet).trans ?_
        rw [if_pos]
        by_contra ht
        exact hno _ (List.mem_cons_self ..) ⟨hquiet, by simpa using ht⟩
  case slathBarrierComplete =>
    cases ht : (s.dom s.ev.a s.ev.b).task with
    | none => exact .never (by show execSlathBarrierComplete s = _; simp only [execSlathBarrierComplete, ht])
    | some t =>
      have hgoes : (executesTb (s.dom s.ev.a s.ev.b) && t.cores.any (fun c => !(s.ctxOf c s.ev.b).slathed)) = true
          ↔ ((s.dom s.ev.a s.ev.b).mode = .run ∨ ∃ f, (s.dom s.ev.a s.ev.b).mode = .freezing f)
            ∧ ∃ c ∈ t.cores, (s.ctxOf c s.ev.b).slathed = false := by
        rw [Bool.and_eq_true, executesTb_iff, List.any_eq_true]
        simp only [Bool.not_eq_true']
      refine .two (fun ⟨htb, hall⟩ => ?_) (fun ⟨htb, hgo⟩ => ?_) (fun _ h h' => ?_)
      · exact execSlathBarrierComplete_forms s ht htb (by simpa using hall)
      · exact (execSlathBarrierComplete_onTb0 s ht htb).trans (if_pos (hgoes.mpr hgo))
      · cases htb : t.tb0 with
        | none => exact execSlathBarrierComplete_waits s ht htb (by simpa [htb] using h)
        | some tb0 =>
          by_cases htb0 : tb0 = (s.dom s.ev.a s.ev.b).tb
          · subst htb0
            exact (execSlathBarrierComplete_onTb0 s ht htb).trans (if_neg fun hgo => h' ⟨htb, hgoes.mp hgo⟩)
          · exact execSlathBarrierComplete_otherCycle s ht htb htb0
  case slathWatchdog =>
    cases ht : (s.dom s.ev.a s.ev.b).task with
    | none => exact .never (by show execSlathWatchdog s = _; simp only [execSlathWatchdog, ht])
    | some t =>
      have hexec := execSlathWatchdog_eq s ht
      exact .once (fun h => hexec.trans (if_pos h)) (fun h => hexec.trans (if_neg h))
  case taskCompletion =>
    refine .once (fun ⟨ht, hend⟩ => if_pos ?_) (fun h => if_neg ?_)
    · rw [Bool.and_eq_true, Option.isSome_iff_ne_none, List.all_eq_true]
      exact ⟨ht, hend⟩
    · rw [Bool.and_eq_true, Option.isSome_iff_ne_none, List.all_eq_true]
      exact h
  case corePartEnd =>
    refine .once (fun h => if_pos ?_) (fun h => if_neg ?_)
    · simpa [Option.isSome_iff_ne_none, and_assoc] using h
    · simpa [Option.isSome_iff_ne_none, and_assoc] using h

/-- Settles O46: each event by the equations of its `exec`, and an unmap by what PNB and the notify of its cycle say. -/
theorem launchEvents : Obligations.LaunchEvents := by
  unfold Obligations.LaunchEvents
  refine ⟨launchEvents_happen, fun s p hu => ⟨fun h => ?_, fun hp hr => ?_⟩⟩
  · rw [doorbellTick_unmapped s p hu, readPnb_of_notified _ h]
  · rw [doorbellTick_unmapped s p hu, readPnb_of_quiet _ hp hr]

end Sys2Proof.Machine
end

section
/-! PROOFS. The events of a timed domain, and SAVE_COMPLETE (R37–R43, R121, R184, R379–R381, R384, R392–R395). -/

namespace Sys2Proof.Machine
open Sys2Proof.Claims

/-! ## Conditions of the events as propositions -/

section
variable (s : State)

theorem execDomainFreeze_onTb (h : (s.dom s.ev.a s.ev.b).mode = .freezing (s.dom s.ev.a s.ev.b).tb) :
    execDomainFreeze s = .next (freezeOn s s.ev.a s.ev.b (s.dom s.ev.a s.ev.b).tb) := by
  simp only [execDomainFreeze, h, if_true]

theorem execDomainFreeze_waits (h : (s.dom s.ev.a s.ev.b).mode ≠ .freezing (s.dom s.ev.a s.ev.b).tb) :
    execDomainFreeze s = .next s := by
  unfold execDomainFreeze
  dsimp only
  split
  next f hf => exact if_neg fun htb => h (hf.trans (congrArg DomMode.freezing htb.symm))
  next => rfl

theorem execDomainResume_frozen {f : Nat} (h : (s.dom s.ev.a s.ev.b).mode = .frozen f) : execDomainResume s =
    if holdOver s s.ev.a s.ev.b = true ∧ keepersDone s s.ev.a s.ev.b = true then
      .next (s.setDom s.ev.a s.ev.b { s.dom s.ev.a s.ev.b with mode := .catchUp f s.wb })
    else .next s := by
  simp only [execDomainResume, h, Bool.and_eq_true]

theorem execPhaseCancel_asked {f t cause : Nat} (hm : (s.dom s.ev.a s.ev.b).mode = .frozen f)
    (hc : (s.dom s.ev.a s.ev.b).cancel = some (t, cause)) :
    execPhaseCancel s = if stillRuns s s.ev.a s.ev.b then .next s else .next (cancelPhase s s.ev.a s.ev.b f t cause) := by
  simp only [execPhaseCancel, hm, hc]

theorem execPhaseCommit_due {ph cy : Nat}
    (h : reportDue (s.dom s.curPart (s.slotOf s.curCore)) s.curCore s.cur.now s.cur.phaseno.toNat = some (ph, cy)) :
    execPhaseCommit s = if phaseAgrees (s.dom s.curPart (s.slotOf s.curCore)) ph cy then
      .next (commitCore (commitDomain s s.curPart (s.slotOf s.curCore) ph cy) s.curPart (s.slotOf s.curCore) ph cy) else .next s := by
  simp only [execPhaseCommit, h]

/-- ILLEGAL class 0x0C at a core whose report of a PHASE is due, where not every core of the task made it (R121). -/
theorem execPhaseMismatch_due {ph cy : Nat}
    (h : reportDue (s.dom s.curPart (s.slotOf s.curCore)) s.curCore s.cur.now s.cur.phaseno.toNat = some (ph, cy)) :
    let d := s.dom s.curPart (s.slotOf s.curCore)
    let odd := ((taskCores d).find? (fun c => !reported d c ph cy)).getD 0
    execPhaseMismatch s = if phaseAgrees d ph cy then .next s
      else .next (takeTrap (s.setDom s.curPart (s.slotOf s.curCore) { d with
        reports := d.reports.filter (fun r => !(r.1 == s.curCore && r.2.1 == ph && r.2.2 == cy))
        mismatch := d.mismatch ++ [(s.curCore, ph, cy)] }) 0x01 (0x0C + 2 ^ 8 + (odd % 32) * 2 ^ 16 + (odd / 32 % 8) * 2 ^ 25)) := by
  simp only [execPhaseMismatch, h, takeStop_illegal]

theorem holdMin_eq (kind : Nat) : holdMin kind = if kind = 6 ∨ kind = 7 then 48 else if kind = 9 then 64 else 0 := by
  simp [holdMin]

theorem execHoldRequest_eq : execHoldRequest s =
    if (s.part s.ev.a).runSlot = some s.ev.b ∧ (s.dom s.ev.a s.ev.b).task ≠ none ∧ s.ev.c ∈ [6, 7, 8, 9, 13] then
      .next (s.setDom s.ev.a s.ev.b (requestHold (s.dom s.ev.a s.ev.b) s.ev.c (s.dom s.ev.a s.ev.b).tb
        (if s.ev.c = 6 ∨ s.ev.c = 7 then 48 else if s.ev.c = 9 then 64 else 0) s.wb))
    else .next s := by
  simp only [execHoldRequest, holdMin_eq, Bool.and_eq_true, decide_eq_true_eq, Option.isSome_iff_ne_none, List.contains_iff_mem, and_assoc]

/-- The watchdog does not expire: no task, fired already, or both counters below the limit (R384). -/
theorem watchdogLate_iff (d : Domain) (l : Nat) :
    (d.task.isNone || (d.wdf && d.wdWhich != 0) || !(decide (l ≤ d.holdw) || decide (l ≤ d.livew))) = true
      ↔ ¬ (d.task ≠ none ∧ (d.wdf = false ∨ d.wdWhich = 0) ∧ (l ≤ d.holdw ∨ l ≤ d.livew)) := by
  simp only [Bool.or_eq_true, Bool.and_eq_true, bne_iff_ne, Bool.not_eq_true', ← Bool.not_eq_true, decide_eq_true_eq, isNone_iff_not_isSome,
    Option.isSome_iff_ne_none, not_and_or, not_or, or_assoc, not_not]

/-- Which counters have fired, as a number (log 83). -/
theorem firedWhich_eq (p q : Prop) [Decidable p] [Decidable q] :
    b2n (decide p) + 2 * b2n (decide q) = (if p then 1 else 0) + (if q then 2 else 0) := by
  by_cases p <;> by_cases q <;> simp [b2n, *]

theorem execWatchdogExpiry_fires
    (h : (s.dom s.ev.a s.ev.b).task ≠ none ∧ ((s.dom s.ev.a s.ev.b).wdf = false ∨ (s.dom s.ev.a s.ev.b).wdWhich = 0)
      ∧ (wdogLimit s s.ev.a s.ev.b ≤ (s.dom s.ev.a s.ev.b).holdw ∨ wdogLimit s s.ev.a s.ev.b ≤ (s.dom s.ev.a s.ev.b).livew)) :
    let u := countTrigger (sysEventOn s s.ev.a 3) s.ev.a
    let t := mapCtxs (if (domCtxs s s.ev.a s.ev.b).any (fun x => handlerRuns x.2) then sysEventOn u s.ev.a 4 else u) s.ev.a s.ev.b
      (fun _ c => wdogStop c)
    execWatchdogExpiry s = .next (t.setDom s.ev.a s.ev.b
      { requestHold (t.dom s.ev.a s.ev.b) 13 (t.dom s.ev.a s.ev.b).tb 0 s.wb with
        wdf := true
        wdWhich := (if wdogLimit s s.ev.a s.ev.b ≤ (s.dom s.ev.a s.ev.b).holdw then 1 else 0)
          + (if wdogLimit s s.ev.a s.ev.b ≤ (s.dom s.ev.a s.ev.b).livew then 2 else 0) }) := by
  intro u t
  rw [← firedWhich_eq]
  exact if_neg (mt (watchdogLate_iff _ _).mp (not_not_intro h))

/-- The running domain may be switched away: it has no task, or stands frozen without a handler, a late agent, a cancel or an open row (R379). -/
theorem switchReady_iff (d : Domain) (handler late closed : Bool) :
    (d.task.isNone || (match d.mode with | .frozen _ => !handler && !late && d.cancel.isNone && closed | _ => false)) = true
      ↔ d.task = none ∨ ((∃ f, d.mode = .frozen f) ∧ handler = false ∧ late = false ∧ d.cancel = none ∧ closed = true) := by
  cases d.mode <;> simp [and_assoc]

theorem execContextSwitch_eq {out : Nat} (h : (s.part s.ev.a).runSlot = some out) : execContextSwitch s =
    if ((s.dom s.ev.a out).task.isNone || (match (s.dom s.ev.a out).mode with
        | .frozen _ => !inHandlerMode s s.ev.a out && !stillRuns s s.ev.a out && (s.dom s.ev.a out).cancel.isNone && rowsClosed s s.ev.a out
        | _ => false)) = true then .next (switchSlots s s.ev.a) else .next s := by
  cases hm : (s.dom s.ev.a out).mode <;> simp only [execContextSwitch, h, hm]

/-! ## RESTORE_COMPLETE (R381) -/

theorem execRestoreComplete_idle (h : (s.part s.ev.a).str ≠ 2) : execRestoreComplete s = .next s := by
  simp only [execRestoreComplete, bne_iff_ne.mpr h, if_true]

/-- No image is taken: SERR is set. -/
theorem execRestoreComplete_fails (hstr : (s.part s.ev.a).str = 2)
    (himg : (if s.ev.c = 1 then none else (s.part s.ev.a).images.find? (areasHold s s.ev.a (s.part s.ev.a).strSlot)) = none) :
    execRestoreComplete s = .next (s.setPart s.ev.a { s.part s.ev.a with str := 0, serr := true }) := by
  simp only [execRestoreComplete, hstr, himg, bne_self_eq_false, Bool.false_eq_true, if_false]

/-- The state with an image of the event's partition moved into its slot. -/
def imageRestored (s : State) (img : Image) : State :=
  let p := s.ev.a
  let slot := (s.part p).strSlot
  let t := img.cores.foldl (fun s x => restoreCore s p slot x) s
  let e := img.engs.foldl (fun m x => NMap.set m ((x.1 + 128 * p) * 4 + slot) x.2) t.engSaved
  let u := { t with engSaved := e }.setDom p slot img.dom
  let r := putRecs (u.part p) slot img.recChecks img.changes img.merges
  u.setPart p { r with str := 0, serr := false, runSlot := if r.runSlot = some slot then none else r.runSlot }

theorem execRestoreComplete_restores (hstr : (s.part s.ev.a).str = 2) (hc : s.ev.c ≠ 1) {img : Image}
    (himg : (s.part s.ev.a).images.find? (areasHold s s.ev.a (s.part s.ev.a).strSlot) = some img) :
    execRestoreComplete s = .next (imageRestored s img) := by
  simp only [execRestoreComplete, hstr, himg, if_neg hc, bne_self_eq_false, Bool.false_eq_true, if_false]
  rfl

end

theorem domainEvents_happen (s : State) : ∀ x ∈ domainEvents s, Happens x.1 s x.2 := by
  unfold domainEvents
  simp only [List.forall_mem_cons]
  refine ⟨?domainFreeze, ?holdRequest, ?holdRelease, ?domainResume, ?phaseCommit, ?phaseMismatch, ?phaseCancel, ?recordChangeApply,
    ?watchdogExpiry, ?contextSwitch, ?restoreComplete, fun x hx => absurd hx List.not_mem_nil⟩
  case domainFreeze => exact .once (execDomainFreeze_onTb s) (execDomainFreeze_waits s)
  case holdRequest =>
    exact .once (fun h => (execHoldRequest_eq s).trans (if_pos h)) (fun h => (execHoldRequest_eq s).trans (if_neg h))
  case holdRelease =>
    refine .once (fun h => if_pos ?_) (fun h => if_neg ?_)
    · simpa using h
    · simpa using h
  case domainResume =>
    cases hm : (s.dom s.ev.a s.ev.b).mode with
    | frozen f =>
      have hexec := execDomainResume_frozen s hm
      exact .once (fun h => hexec.trans (if_pos h)) (fun h => hexec.trans (if_neg h))
    | run => exact .never (by show execDomainResume s = _; simp only [execDomainResume, hm])
    | freezing f => exact .never (by show execDomainResume s = _; simp only [execDomainResume, hm])
    | catchUp f w => exact .never (by show execDomainResume s = _; simp only [execDomainResume, hm])
  case phaseCommit =>
    cases hr : reportDue (s.dom s.curPart (s.slotOf s.curCore)) s.curCore s.cur.now s.cur.phaseno.toNat with
    | none => exact .never (by show execPhaseCommit s = _; simp only [execPhaseCommit, hr])
    | some r =>
      obtain ⟨ph, cy⟩ := r
      have hexec := execPhaseCommit_due s hr
      exact .once (fun h => hexec.trans (if_pos h)) (fun h => hexec.trans (if_neg h))
  case phaseMismatch =>
    cases hr : reportDue (s.dom s.curPart (s.slotOf s.curCore)) s.curCore s.cur.now s.cur.phaseno.toNat with
    | none => exact .never (by show execPhaseMismatch s = _; simp only [execPhaseMismatch, hr])
    | some r =>
      obtain ⟨ph, cy⟩ := r
      have hexec := execPhaseMismatch_due s hr
      exact .once (fun h => hexec.trans (if_neg (by simp [h]))) (fun h => hexec.trans (if_pos (by simpa using h)))
  case phaseCancel =>
    split
    next f t cause hm hc =>
      have hexec := execPhaseCancel_asked s hm hc
      exact .once (fun h => hexec.trans (if_neg (by simp [h]))) (fun h => hexec.trans (if_pos (by simpa using h)))
    next hno =>
      refine .never ?_
      show execPhaseCancel s = _
      unfold execPhaseCancel
      dsimp only
      split
      next f t cause hm hc => exact absurd hc (hno f t cause hm)
      next => rfl
  case recordChangeApply => exact .always rfl
  case watchdogExpiry =>
    exact .once (execWatchdogExpiry_fires s) (fun h => if_pos ((watchdogLate_iff _ _).mpr h))
  case contextSwitch =>
    cases hr : (s.part s.ev.a).runSlot with
    | none => exact .always (by show execContextSwitch s = _; simp only [execContextSwitch, hr])
    | some out =>
      have hexec := execContextSwitch_eq s hr
      have hready := switchReady_iff (s.dom s.ev.a out) (inHandlerMode s s.ev.a out) (stillRuns s s.ev.a out) (rowsClosed s s.ev.a out)
      exact .once (fun h => hexec.trans (if_pos (hready.mpr h))) (fun h => hexec.trans (if_neg (mt hready.mp h)))
  case restoreComplete =>
    cases himg : (s.part s.ev.a).images.find? (areasHold s s.ev.a (s.part s.ev.a).strSlot) with
    | none =>
      exact .once (fun hstr => execRestoreComplete_fails s hstr (by rw [himg, ite_self])) (execRestoreComplete_idle s)
    | some img =>
      refine .two (fun ⟨hstr, hc⟩ => execRestoreComplete_fails s hstr (if_pos hc)) (fun ⟨hstr, hc⟩ => ?_)
        (fun _ h h' => execRestoreComplete_idle s fun hstr => ?_)
      · exact execRestoreComplete_restores s hstr hc himg
      · by_cases hc : s.ev.c = 1
        · exact h ⟨hstr, hc⟩
        · exact h' ⟨hstr, hc⟩

/-! ## SAVE_COMPLETE (R381) -/

section
variable (s : State)

/-- Two folds agree where their steps agree under an invariant that they keep. -/
theorem foldl_congr_keeps {α β : Type} {f g : β → α → β} (P : β → Prop) (h : ∀ b a, P b → f b a = g b a ∧ P (f b a)) (l : List α) (b : β)
    (hb : P b) : l.foldl f b = l.foldl g b := by
  induction l generalizing b with
  | nil => rfl
  | cons a l ih =>
    obtain ⟨heq, hkeep⟩ := h b a hb
    rw [List.foldl_cons, List.foldl_cons, ← heq, ih _ hkeep]

/-- What a core's save area takes, the window being that of `s` (R381). -/
def areaBytes (p slot no c : Nat) (u : State) : List Byte :=
  imageBytes no (c - 32 * p) ++ u.readSp c (4096 * (winSpan (s.ctxOf c slot)).1.1) (4096 * (winSpan (s.ctxOf c slot)).1.2)
    ++ u.mem.readN (16384 * (winSpan (s.ctxOf c slot)).2.2) (accAddr c (16384 * (winSpan (s.ctxOf c slot)).2.1))

theorem writeArea_eq (p slot no c : Nat) (u : State) (hcores : u.cores = s.cores) (hparts : u.parts = s.parts) :
    writeArea u p slot no c = writeVa u (saveArea (s.part p) slot (c - 32 * p)) (areaBytes s p slot no c u) := by
  have hctx : u.ctxOf c slot = s.ctxOf c slot := by rw [State.ctxOf, State.core, hcores]; rfl
  have hpart : u.part p = s.part p := by rw [State.part, hparts]; rfl
  rw [writeArea, hctx, hpart]
  rfl

/-- The save areas are written one after another, each from what the slot held as the save began. -/
theorem foldl_writeArea_eq (p slot no : Nat) (cores : List Nat) (u : State) (hcores : u.cores = s.cores) (hparts : u.parts = s.parts) :
    cores.foldl (fun u c => writeArea u p slot no c) u
      = cores.foldl (fun u c => writeVa u (saveArea (s.part p) slot (c - 32 * p)) (areaBytes s p slot no c u)) u := by
  refine foldl_congr_keeps (fun t : State => t.cores = s.cores ∧ t.parts = s.parts) (fun t c ⟨hc, hp⟩ => ?_) cores u ⟨hcores, hparts⟩
  exact ⟨writeArea_eq s p slot no c t hc hp, (writeArea_cores ..).trans hc, (writeArea_parts ..).trans hp⟩

theorem foldl_setCtx_mem {f : State → Nat → CoreSt} {g : State → Nat → Ctx} (slot : Nat) (cores : List Nat) (u : State) :
    (cores.foldl (fun u c => (u.setCore c (f u c)).setCtx c slot (g u c)) u).mem = u.mem := by
  induction cores generalizing u with
  | nil => rfl
  | cons c cores ih => rw [List.foldl_cons, ih]; rfl

/-- What SAVE_COMPLETE keeps of a slot. -/
def imageOf (p slot : Nat) : Image :=
  { no := s.free, dom := s.dom p slot, cores := (taskCores (s.dom p slot)).map (savedCore s p slot)
    engs := (domEngines (s.dom p slot)).map (fun n => (n - 128 * p, s.engSaved.getD (n * 4 + slot) EngSt.reset))
    recChecks := ((s.part p).recChecks.filter (checkSlot slot)).map (fun x => (x.1 / 4, x.2))
    changes := (s.part p).recs.changes.filter (fun x => x.ofSlot (s.part p) slot), merges := slotMerges (s.part p) slot }

/-- The slot of a partition freed, its image kept with the partition. -/
def slotFreed (u : State) (p slot : Nat) (img : Image) : State :=
  let t := u.setDom p slot { Domain.reset with tb := img.dom.tb }
  t.setPart p { dropRecs (t.part p) slot with str := 0, images := img :: (t.part p).images }

theorem slotFreed_str (u : State) (p slot : Nat) (img : Image) : ((slotFreed u p slot img).part p).str = 0 := by
  simp [slotFreed]

theorem mem_slotFreed_images (u : State) (p slot : Nat) (img : Image) : img ∈ ((slotFreed u p slot img).part p).images := by
  simp [slotFreed]

theorem slotFreed_task (u : State) (p slot : Nat) (img : Image) : ((slotFreed u p slot img).dom p slot).task = none := by
  unfold slotFreed State.dom State.setDom
  split <;> simp [dropRecs, Domain.reset]

/-- The state with the areas of a slot's cores written and what belonged to it taken from cores and engines. -/
def slotSaved (p slot : Nat) : State :=
  let cores := taskCores (s.dom p slot)
  let u := cores.foldl (fun u c => writeArea u p slot s.free c) { s with free := s.free + 1 }
  let v := cores.foldl (fun v c => (v.setCore c (coreFree (v.core c) slot)).setCtx c slot (ctxSaved (ctxFree (v.ctxOf c slot)))) u
  { v with engSaved := (domEngines (s.dom p slot)).foldl (fun m n => NMap.erase m (n * 4 + slot)) v.engSaved }

variable (hstr : (s.part s.ev.a).str = 1) (htask : (s.dom s.ev.a (s.part s.ev.a).strSlot).task ≠ none)
include hstr htask

theorem execSaveComplete_waits
    (h : saveBusy s s.ev.a (s.part s.ev.a).strSlot = true
      ∨ areasReady s s.ev.a (s.part s.ev.a).strSlot (taskCores (s.dom s.ev.a (s.part s.ev.a).strSlot)) = false) :
    execSaveComplete s = .next s := by
  have hnone : (s.dom s.ev.a (s.part s.ev.a).strSlot).task.isNone = false :=
    Option.isNone_eq_false_iff.mpr (Option.isSome_iff_ne_none.mpr htask)
  have hwait : (saveBusy s s.ev.a (s.part s.ev.a).strSlot
      || !areasReady s s.ev.a (s.part s.ev.a).strSlot (taskCores (s.dom s.ev.a (s.part s.ev.a).strSlot))) = true := by simpa using h
  simp only [execSaveComplete, hstr, hnone, hwait, bne_self_eq_false, Bool.false_eq_true, if_false, if_true]

theorem execSaveComplete_saves (hbusy : saveBusy s s.ev.a (s.part s.ev.a).strSlot = false)
    (hready : areasReady s s.ev.a (s.part s.ev.a).strSlot (taskCores (s.dom s.ev.a (s.part s.ev.a).strSlot)) = true) :
    execSaveComplete s = .next (slotFreed (slotSaved s s.ev.a (s.part s.ev.a).strSlot) s.ev.a (s.part s.ev.a).strSlot
      (imageOf s s.ev.a (s.part s.ev.a).strSlot)) := by
  have hnone : (s.dom s.ev.a (s.part s.ev.a).strSlot).task.isNone = false :=
    Option.isNone_eq_false_iff.mpr (Option.isSome_iff_ne_none.mpr htask)
  simp only [execSaveComplete, hstr, hnone, hbusy, hready, bne_self_eq_false, Bool.not_true, Bool.or_false, Bool.false_eq_true, if_false]
  rfl

end

/-- Settles O47: each event by the equations of its `exec`; SAVE_COMPLETE by what its folds over the cores leave of memory. -/
theorem domainEvents : Obligations.DomainEvents := by
  unfold Obligations.DomainEvents
  refine ⟨domainEvents_happen, fun s hstr _ _ => ?_⟩
  intro slot d htask
  refine ⟨execSaveComplete_waits s hstr htask, fun hbusy hready => ?_⟩
  refine ⟨_, imageOf s s.ev.a slot, execSaveComplete_saves s hstr htask hbusy hready, rfl, ?_, slotFreed_str .., mem_slotFreed_images ..,
    rfl, rfl, rfl, slotFreed_task ..⟩
  exact (foldl_setCtx_mem slot (taskCores d) _).trans
    (congrArg State.mem (foldl_writeArea_eq s s.ev.a slot s.free (taskCores d) { s with free := s.free + 1 } rfl rfl))

end Sys2Proof.Machine
end

section
/-! PROOFS. The events of a core's cycle (R29, R31, R33, R63–R68, R215, R216, R236, R268, R291–R296, R308, R322). -/

namespace Sys2Proof.Machine
open Sys2Proof.Claims

/-! ## What the parts of a core event come to -/

theorem evRes_eq (s : State) (r : Res State) : evRes s r = .next (orStops s r) := by
  cases r <;> rfl

/-- A word's application, with the stop that its core takes (R292, R357). -/
theorem arrivalDone_eq (s : State) (x : Arrival) (r : State × Option Stop) :
    arrivalDone s x r = .next (metBy s x (s.ev.d == 2) r) := by
  unfold arrivalDone metBy
  cases r.2 with
  | none => rfl
  | some st => by_cases h : s.ev.d = 2 <;> simp [h]

theorem noteGap_now (c : Ctx) (n : Nat) : (noteGap c n).now = c.now := rfl

/-- A landing that is no line fill's writes its register or its queue only (R308). -/
theorem landNow_load (s : State) (r : AuReq) (timed : Bool) (h : (r.op == .fill) = false) :
    landNow s r timed = .ok (s.setCur (auLand s.cur r.seqNo (loadWordOf r) s.cur.now)) := by
  simp only [landNow, h, Bool.false_eq_true, if_false]
  rfl

section
variable (s : State)

/-! ## Streams, taps, results (R63–R68, R193, R252, R259, R287, R33) -/

theorem execSegcntLate_eq : execSegcntLate s =
    if s.cur.seg.active = true ∧ s.cur.seg.start + s.cur.seg.cnt < s.cur.now then
      .next (takeTrap s 0x06 ((s.cur.now - s.cur.seg.start) % 2 ^ 32 + 2 ^ 32)) else .next s := by
  have htrap (e : Nat) : takeStop s (.trap 0x06 e) = takeTrap s 0x06 e := by simp [takeStop, cancels]
  simp only [execSegcntLate, htrap, Bool.and_eq_true, decide_eq_true_eq, gt_iff_lt]

theorem execStreamDrive_open {st : Strm} (h : s.cur.strms.find s.ev.a = some st) : execStreamDrive s =
    if st.wr = false ∧ st.due s.cur.now = true then .next (orStops s (streamDrive s s.ev.a st)) else .next s := by
  simp only [execStreamDrive, h, evRes_eq]
  cases st.wr <;> cases st.due s.cur.now <;> rfl

theorem execStreamStore_open {st : Strm} (h : s.cur.strms.find s.ev.a = some st) : execStreamStore s =
    if st.wr = true ∧ st.due s.cur.now = true then .next (orStops s (streamStore s s.ev.a st)) else .next s := by
  simp only [execStreamStore, h, evRes_eq]
  cases st.wr <;> cases st.due s.cur.now <;> rfl

/-- OPERAND_TAP of a command (R193, R252, R259). -/
theorem execOperandTap_command (hb : s.ev.b = 0) : execOperandTap s =
    .next ((s.cur.cmds.find? (fun x => x.issue == s.ev.a)).elim s fun x => orStops s (cmdTap s x)) := by
  cases hx : s.cur.cmds.find? (fun x => x.issue == s.ev.a) <;> simp only [execOperandTap, hb, hx, evRes_eq, Option.elim]

/-- OPERAND_TAP of an atomic (R287). -/
theorem execOperandTap_atomic (hb : s.ev.b = 1) : execOperandTap s =
    .next ((s.cur.atomics.find? (fun x => x.issue == s.ev.a && x.issue + 1 == s.cur.now)).elim s fun x => orStops s (atomicRead s x)) := by
  cases hx : s.cur.atomics.find? (fun x => x.issue == s.ev.a && x.issue + 1 == s.cur.now) <;>
    simp only [execOperandTap, hb, hx, evRes_eq, Option.elim]

/-- OPERAND_TAP of a MCBASE (R233). -/
theorem execOperandTap_base (hb : 2 ≤ s.ev.b) : execOperandTap s =
    .next ((baseOf s).elim s fun x => if s.ev.a + 1 ≤ s.cur.now ∧ s.cur.now ≤ s.ev.a + mcbaseRows x.1.b then
      orStops s (mcbaseRow s s.ev.d x.2 x.1) else s) := by
  obtain ⟨n, hn⟩ := Nat.exists_eq_add_of_le' hb
  cases hx : baseOf s <;> unfold baseOf at hx
  · simp only [execOperandTap, hn, hx, Option.elim]
  · simp only [execOperandTap, hn, hx, evRes_eq, Option.elim, Bool.and_eq_true, decide_eq_true_eq]
    exact (apply_ite Host.Outcome.next _ _ _).symm

/-- RESULT_PERFORM of an atomic's write (R287). -/
theorem execResultPerform_atomic (hb : s.ev.b = 1) : execResultPerform s =
    .next ((s.cur.atomics.find? (fun x => x.issue == s.ev.a && x.issue + 3 == s.cur.now)).elim s fun x => orStops s (atomicWrite s x)) := by
  cases hx : s.cur.atomics.find? (fun x => x.issue == s.ev.a && x.issue + 3 == s.cur.now) <;>
    simp only [execResultPerform, hb, hx, evRes_eq, Option.elim]

/-- RESULT_PERFORM of an instruction whose results all perform (R33). -/
theorem execResultPerform_ok (hb : s.ev.b = 0) {t : State}
    (h : (do
      let t ← performFlights s s.ev.a
      (t.cur.cmds.filter (fun x => x.issue == s.ev.a)).foldlM cmdFinish t : Res State) = .ok t) :
    execResultPerform s = .next t := by
  simp only [execResultPerform, hb, h]

/-- FACT_STEP of a command of station 1 (R268). -/
theorem execFactStep_command {x : Cmd} (h : s.cur.cmds.find? (fun x => x.issue == s.ev.a && x.station == 1) = some x) :
    execFactStep s =
      let d := s.cur.now - x.issue
      let q := (factSteps x).2
      if x.issue < s.cur.now ∧ s.cur.now ≤ x.last ∧ (factSteps x).1 ≠ 0 then
        if (d - 1) % q = 0 then .next (factRead s x (s.ev.c.testBit 2) ((d - 1) / q))
        else if d % q = 0 then .next (factWrite s x (d / q - 1))
        else .next s
      else .next s := by
  have hrun : (decide (s.cur.now ≤ x.issue) || decide (x.last < s.cur.now) || decide ((factSteps x).1 = 0)) = true
      ↔ ¬ (x.issue < s.cur.now ∧ s.cur.now ≤ x.last ∧ (factSteps x).1 ≠ 0) := by
    simp only [Bool.or_eq_true, decide_eq_true_eq]
    omega
  simp only [execFactStep, h, hrun, bitB_testBit, ite_not]

/-! ## Arrivals (R292, R293) -/

/-- The state whose current core is the one that the event names. -/
def atEventCore : State := { s with curCore := s.ev.a }

theorem execPlainArrivalApply_word {x : Arrival} (h : inboundAt (atEventCore s) s.ev.c = some x) :
    execPlainArrivalApply s = if slotted (atEventCore s).cur x.gran = true then .next (atEventCore s)
      else .next (metBy (atEventCore s) x (s.ev.d == 2) (plainApply (atEventCore s) s.ev.c x (s.ev.d == 1))) := by
  unfold atEventCore at h ⊢
  simp only [execPlainArrivalApply, h, arrivalDone_eq]

/-- A word meets its slotted granule (R292). -/
theorem execReducingWriteApply_meets (hd : s.ev.d = 0) : execReducingWriteApply s =
    .next ((inboundAt (atEventCore s) s.ev.c).elim (atEventCore s) fun x =>
      if slotted (atEventCore s).cur x.gran = true then admitArrival (atEventCore s) s.ev.c x else atEventCore s) := by
  cases hx : inboundAt (atEventCore s) s.ev.c <;> unfold atEventCore at hx
  · simp only [execReducingWriteApply, hd, if_true, hx, Option.elim, atEventCore]
  · simp only [execReducingWriteApply, hd, if_true, hx, Option.elim, atEventCore]
    exact (apply_ite Host.Outcome.next _ _ _).symm

theorem execReducingWriteApply_none (hd : s.ev.d ≠ 0) (h : ((atEventCore s).core s.ev.a).waiting[s.ev.c]? = none) :
    execReducingWriteApply s = .next (atEventCore s) := by
  unfold atEventCore at h ⊢
  simp only [execReducingWriteApply, hd, if_false, h]

/-- A waiting word that has its slot is added (R292, R293). -/
theorem execReducingWriteApply_adds (hd : s.ev.d ≠ 0) {x : Arrival} (h : ((atEventCore s).core s.ev.a).waiting[s.ev.c]? = some x)
    {p : Nat × Nat} (hp : slotOfWord (atEventCore s).cur x = some p) : execReducingWriteApply s =
    .next (metBy (atEventCore s) x (s.ev.d == 2) (reduceApply (atEventCore s) s.ev.c x p (s.ev.d == 1))) := by
  unfold atEventCore at h hp ⊢
  simp only [execReducingWriteApply, hd, if_false, h, hp, arrivalDone_eq]

/-- A waiting word that has no slot: it is discarded where it can take none (R292, R293). -/
theorem execReducingWriteApply_noSlot (hd : s.ev.d ≠ 0) {x : Arrival} (h : ((atEventCore s).core s.ev.a).waiting[s.ev.c]? = some x)
    (hp : slotOfWord (atEventCore s).cur x = none) : execReducingWriteApply s =
    .next (if admitSlot (atEventCore s).cur x = none then dropWaiting (atEventCore s) s.ev.c x else atEventCore s) := by
  unfold atEventCore at h hp ⊢
  simp only [execReducingWriteApply, hd, if_false, h, hp, Option.isNone_iff_eq_none]

theorem atEventCore_of_cur (h : s.ev.a = s.curCore) : atEventCore s = s := by
  unfold atEventCore
  rw [h]

/-- The state whose current core is the one of the context that the event names. -/
def atEventCtx : State := { s with curCore := s.ev.a / 4 }

theorem atEventCtx_of_cur (h : s.ev.a / 4 = s.curCore) : atEventCtx s = s := by
  unfold atEventCtx
  rw [h]

theorem landEvent_comes (fill : Bool) (hd : s.ev.d = 0) : landEvent s fill = .next (landComes s s.ev.a s.ev.b fill) := by
  simp only [landEvent, hd, if_true]

/-- The request whose data a landing event lands (R308, R322). -/
def landing (fill : Bool) : Option AuReq :=
  (atEventCtx s).cur.aus.find? (fun r => r.seqNo == s.ev.b && r.place == .performed && r.ahead != 1 && r.land != 0 && (r.op == .fill) == fill)

theorem landEvent_lands (fill : Bool) (hd : s.ev.d = 1) : landEvent s fill = .next ((landing s fill).elim (atEventCtx s) fun r =>
    orStops (atEventCtx s) (landNow ((atEventCtx s).setCur (noteGap (atEventCtx s).cur r.seqNo)) r true)) := by
  have h0 : s.ev.d ≠ 0 := by omega
  have h2 : s.ev.d ≠ 2 := by omega
  have hrun : (s.ev.d == 1) = true := by simp [hd]
  cases hr : landing s fill with
  | none =>
    unfold landing atEventCtx at hr
    simp only [landEvent, h0, if_false, hr, Option.elim, atEventCtx]
  | some r =>
    cases hl : landNow ((atEventCtx s).setCur (noteGap (atEventCtx s).cur r.seqNo)) r true <;> unfold atEventCtx at hl <;>
      unfold landing atEventCtx at hr <;>
      simp only [landEvent, h0, h2, hrun, if_false, hr, hl, State.modCur_def, orStops, Option.elim, atEventCtx]

/-! ## Data moves (R215, R236) -/

theorem execMcstatPageWrite_message {m : McMsg} (h : (s.engOf s.ev.a).inbox[s.ev.c]? = some m) : execMcstatPageWrite s =
    if m.fn = 4 ∧ m.core = s.curCore ∧ m.due + 23 = s.cur.now then .next (orStops s (pageLand s s.ev.a s.ev.c m)) else .next s := by
  simp only [execMcstatPageWrite, h, evRes_eq, Bool.and_eq_true, beq_iff_eq, and_assoc]

end

theorem coreEvents_happen (s : State) : ∀ x ∈ coreEvents s, Happens x.1 s x.2 := by
  unfold coreEvents
  simp only [List.forall_mem_cons]
  refine ⟨?segcntLate, ?streamDrive, ?streamStore, ?operandTap, ?resultPerform, ?factStep, ?plainArrivalApply, ?reducingWriteApply,
    ?loadLanding, ?lineFillLanding, ?mcRdData, ?mcWrTake, ?mcstatPageWrite, fun _ h => absurd h List.not_mem_nil⟩
  case segcntLate =>
    exact .once (fun h => (execSegcntLate_eq s).trans (if_pos h)) (fun h => (execSegcntLate_eq s).trans (if_neg h))
  case streamDrive =>
    split
    next h => exact .never (by show execStreamDrive s = _; simp only [execStreamDrive, h])
    next st h => exact .once (fun hc => (execStreamDrive_open s h).trans (if_pos hc)) (fun hc => (execStreamDrive_open s h).trans (if_neg hc))
  case streamStore =>
    split
    next h => exact .never (by show execStreamStore s = _; simp only [execStreamStore, h])
    next st h => exact .once (fun hc => (execStreamStore_open s h).trans (if_pos hc)) (fun hc => (execStreamStore_open s h).trans (if_neg hc))
  case operandTap =>
    refine .three (fun ⟨hb, x, hx⟩ => ?_) (fun ⟨hb, x, hx⟩ => ?_) (fun ⟨hb, m, i, hm, hrow⟩ => ?_) (fun _ h h' h'' => ?_)
    · refine (execOperandTap_command s hb).trans ?_
      simp only [hx, Option.elim]
    · refine (execOperandTap_atomic s hb).trans ?_
      simp only [hx, Option.elim]
    · refine (execOperandTap_base s hb).trans ?_
      simp only [hm, Option.elim, if_pos hrow]
    · obtain hb | hb | hb : s.ev.b = 0 ∨ s.ev.b = 1 ∨ 2 ≤ s.ev.b := by omega
      · refine (execOperandTap_command s hb).trans ?_
        cases hx : s.cur.cmds.find? (fun x => x.issue == s.ev.a) with
        | none => rfl
        | some x => exact absurd ⟨hb, x, hx⟩ h
      · refine (execOperandTap_atomic s hb).trans ?_
        cases hx : s.cur.atomics.find? (fun x => x.issue == s.ev.a && x.issue + 1 == s.cur.now) with
        | none => rfl
        | some x => exact absurd ⟨hb, x, hx⟩ h'
      · refine (execOperandTap_base s hb).trans ?_
        cases hm : baseOf s with
        | none => rfl
        | some x => exact congrArg _ (if_neg fun hrow => h'' ⟨hb, x.1, x.2, hm, hrow⟩)
  case resultPerform =>
    refine .two (fun ⟨hb, x, hx⟩ => ?_) (fun ⟨hb, t, ht⟩ => ?_) (fun hb h _ => ?_)
    · refine (execResultPerform_atomic s hb).trans ?_
      simp only [hx, Option.elim]
    · rw [ht]
      exact execResultPerform_ok s hb ht
    · refine (execResultPerform_atomic s hb).trans ?_
      cases hx : s.cur.atomics.find? (fun x => x.issue == s.ev.a && x.issue + 3 == s.cur.now) with
      | none => rfl
      | some x => exact absurd ⟨hb, x, hx⟩ h
  case factStep =>
    split
    next h => exact .never (by show execFactStep s = _; simp only [execFactStep, h])
    next x h =>
      have hexec := execFactStep_command s h
      dsimp only at hexec
      refine .two (fun ⟨hi, hl, hn, hq⟩ => ?_) (fun ⟨hi, hl, hn, hq, hq'⟩ => ?_) (fun _ h h' => ?_)
      · exact hexec.trans ((if_pos ⟨hi, hl, hn⟩).trans (if_pos hq))
      · exact hexec.trans ((if_pos ⟨hi, hl, hn⟩).trans ((if_neg hq).trans (if_pos hq')))
      · refine hexec.trans ?_
        split
        next hrun =>
          obtain ⟨hi, hl, hn⟩ := hrun
          split
          next hq => exact absurd ⟨hi, hl, hn, hq⟩ h
          next hq => exact if_neg fun hq' => h' ⟨hi, hl, hn, hq, hq'⟩
        next => rfl
  case plainArrivalApply =>
    split
    next h => exact .always (by show execPlainArrivalApply s = _; simp only [execPlainArrivalApply, h])
    next x h =>
      have hexec := execPlainArrivalApply_word s h
      refine .two (fun hs => hexec.trans (if_neg (Bool.not_eq_true _ ▸ hs))) (fun hs => hexec.trans (if_pos hs)) (fun _ h h' => ?_)
      exact absurd (Bool.not_eq_false _ ▸ h) h'
  case reducingWriteApply =>
    refine .three (fun ⟨hd, x, hx, hs⟩ => ?_) (fun ⟨hd, x, p, hx, hp⟩ => ?_) (fun ⟨hd, x, hx, hp, ha⟩ => ?_) (fun hcur h h' h'' => ?_)
    · refine (execReducingWriteApply_meets s hd).trans ?_
      simp only [atEventCore, hx, Option.elim]
      exact congrArg _ (if_pos hs)
    · refine (execReducingWriteApply_adds s hd hx hp).trans ?_
      simp only [atEventCore, hx, hp]
    · refine (execReducingWriteApply_noSlot s hd hx hp).trans ?_
      simp only [atEventCore, hx]
      exact congrArg _ (if_pos ha)
    · have hhere := atEventCore_of_cur s hcur
      by_cases hd : s.ev.d = 0
      · refine (execReducingWriteApply_meets s hd).trans ?_
        cases hx : inboundAt (atEventCore s) s.ev.c with
        | none => exact congrArg _ hhere
        | some x => exact congrArg _ ((if_neg fun hs => h ⟨hd, x, hx, hs⟩).trans hhere)
      · cases hx : ((atEventCore s).core s.ev.a).waiting[s.ev.c]? with
        | none => exact (execReducingWriteApply_none s hd hx).trans (congrArg _ hhere)
        | some x =>
          cases hp : slotOfWord (atEventCore s).cur x with
          | none =>
            refine (execReducingWriteApply_noSlot s hd hx hp).trans ?_
            exact congrArg _ ((if_neg fun ha => h'' ⟨hd, x, hx, hp, ha⟩).trans hhere)
          | some p => exact absurd ⟨hd, x, p, hx, hp⟩ h'
  case loadLanding =>
    refine .two (landEvent_comes s false) (fun ⟨hd, r, hr⟩ => ?_) (fun ⟨hcur, hd⟩ h h' => ?_)
    · have hop : (r.op == .fill) = false := by
        have hfound := List.find?_some hr
        simp only [Bool.and_eq_true, beq_iff_eq] at hfound
        exact hfound.2
      refine (landEvent_lands s false hd).trans ?_
      simp only [landing, atEventCtx, hr, Option.elim, landNow_load _ r true hop, orStops, State.setCur_cur, State.setCur_setCur, noteGap_now]
    · have hd : s.ev.d = 1 := by omega
      refine (landEvent_lands s false hd).trans ?_
      cases hr : landing s false with
      | none => exact congrArg _ (atEventCtx_of_cur s hcur)
      | some r => exact absurd ⟨hd, r, hr⟩ h'
  case lineFillLanding =>
    refine .two (landEvent_comes s true) (fun ⟨hd, r, hr⟩ => ?_) (fun ⟨hcur, hd⟩ h h' => ?_)
    · refine (landEvent_lands s true hd).trans ?_
      simp only [landing, atEventCtx, hr, Option.elim]
    · have hd : s.ev.d = 1 := by omega
      refine (landEvent_lands s true hd).trans ?_
      cases hr : landing s true with
      | none => exact congrArg _ (atEventCtx_of_cur s hcur)
      | some r => exact absurd ⟨hd, r, hr⟩ h'
  case mcRdData =>
    split
    next m h => exact .always (by show execMcRdData s = _; simp only [execMcRdData, h, evRes_eq])
    next h => exact .never (by show execMcRdData s = _; simp only [execMcRdData, h])
  case mcWrTake =>
    split
    next m h => exact .always (by show execMcWrTake s = _; simp only [execMcWrTake, h, evRes_eq])
    next h => exact .never (by show execMcWrTake s = _; simp only [execMcWrTake, h])
  case mcstatPageWrite =>
    split
    next m h =>
      exact .once (fun hc => (execMcstatPageWrite_message s h).trans (if_pos hc)) (fun hc => (execMcstatPageWrite_message s h).trans (if_neg hc))
    next h => exact .never (by show execMcstatPageWrite s = _; simp only [execMcstatPageWrite, h])

/-- Settles O48: each event of a core's cycle by the equation of its `exec`. -/
theorem coreEvents : Obligations.CoreEvents := coreEvents_happen

end Sys2Proof.Machine
end

section
/-! PROOFS. What leaves memory as it is (R33, R64, R215, R287, R292, R309, R317). -/

namespace Sys2Proof.Machine
open Sys2Proof.Claims

/-! ## What a result yields, and what an outcome keeps -/

/-- Every value of a result meets a predicate. -/
def Yields {α : Type} (P : α → Prop) : Res α → Prop
  | .ok x => P x
  | .error _ => True

namespace Yields
variable {α β : Type} {P : α → Prop} {r t : Res α}

@[simp] theorem ok_iff (x : α) : Yields P (.ok x : Res α) ↔ P x := Iff.rfl
@[simp] theorem pure_iff (x : α) : Yields P (pure x : Res α) ↔ P x := Iff.rfl
@[simp] theorem error_iff (e : Stop) : Yields P (.error e : Res α) ↔ True := Iff.rfl
@[simp] theorem throw_iff (e : Stop) : Yields P (throw e : Res α) ↔ True := Iff.rfl
@[simp] theorem bind_iff {P : β → Prop} (r : Res α) (f : α → Res β) : Yields P (r >>= f) ↔ Yields (fun x => Yields P (f x)) r := by
  cases r <;> rfl
@[simp] theorem map_iff {P : β → Prop} (r : Res α) (f : α → β) : Yields P (f <$> r) ↔ Yields (fun x => P (f x)) r := by
  cases r <;> rfl
@[simp] theorem ite_iff {c : Prop} [Decidable c] : Yields P (if c then r else t) ↔ (c → Yields P r) ∧ (¬ c → Yields P t) := by
  split <;> simp [*]
@[simp] theorem true_iff (r : Res α) : Yields (fun _ => True) r ↔ True := by
  cases r <;> simp

theorem of_forall (h : ∀ x, P x) (r : Res α) : Yields P r := by
  cases r <;> simp [h]

protected theorem bind {P : β → Prop} {r : Res α} {f : α → Res β} (h : ∀ x, Yields P (f x)) : Yields P (r >>= f) :=
  (bind_iff ..).mpr (of_forall h _)

theorem bind_of {Q : α → Prop} {P : β → Prop} {r : Res α} {f : α → Res β} (hr : Yields Q r) (h : ∀ x, Q x → Yields P (f x)) :
    Yields P (r >>= f) := by
  cases r with
  | ok x => exact h x hr
  | error => trivial

/-- A check that stops the instruction, and what follows it. -/
theorem check {c : Prop} [Decidable c] {e : Stop} {f : β → Res α} (h : Yields P r) : Yields P (if c then (throw e : Res β) >>= f else r) := by
  split
  · trivial
  · exact h

theorem mono {Q : α → Prop} (hr : Yields P r) (h : ∀ x, P x → Q x) : Yields Q r := by
  cases r with
  | ok x => exact h x hr
  | error => trivial

theorem of_ok (h : Yields P r) {x : α} (hr : r = .ok x) : P x := by
  subst hr
  exact h

theorem lowestTag (h : Yields P r) (y : Res β) : Yields P (lowestTag r y) := by
  cases r with
  | ok x => cases y <;> exact h
  | error e => cases y <;> trivial

theorem lowerClass (checks : Res Unit) (h : Yields P r) : Yields P (lowerClass checks r) := by
  unfold Machine.lowerClass
  split <;> trivial

end Yields

/-- An outcome leaves every byte of memory as it is. -/
def KeepsMem (s : State) : Host.Outcome State Fault Refusal → Prop
  | .next t => t.mem = s.mem
  | _ => True

namespace KeepsMem
variable {s : State} {o u : Host.Outcome State Fault Refusal}

@[simp] theorem next_iff (t : State) : KeepsMem s (.next t) ↔ t.mem = s.mem := Iff.rfl
@[simp] theorem ite_iff {c : Prop} [Decidable c] : KeepsMem s (if c then o else u) ↔ (c → KeepsMem s o) ∧ (¬ c → KeepsMem s u) := by
  split <;> simp [*]

end KeepsMem

section
variable (s : State)

@[simp] theorem State.ite_mem {c : Prop} [Decidable c] (t u : State) : (if c then t else u).mem = if c then t.mem else u.mem := by
  split <;> rfl
@[simp] theorem State.setCtx_mem (n slot : Nat) (c : Ctx) : (s.setCtx n slot c).mem = s.mem := rfl
@[simp] theorem State.modCur_mem (f : Ctx → Ctx) : (s.modCur f).mem = s.mem := rfl
@[simp] theorem State.modCore_mem (f : CoreSt → CoreSt) : (s.modCore f).mem = s.mem := rfl
@[simp] theorem State.setEng_mem (x : EngSt) : (s.setEng x).mem = s.mem := rfl

end

/-! ## Operations on the state -/

theorem foldl_mem {α : Type} (f : State → α → State) (h : ∀ t x, (f t x).mem = t.mem) (l : List α) (s : State) :
    (l.foldl f s).mem = s.mem :=
  foldl_keeps (fun t => t.mem = s.mem) f (fun t x ht => (h t x).trans ht) l s rfl

/-! ### Traps and operands -/

@[simp] theorem doubleFault_mem (s : State) (code info : Nat) : (doubleFault s code info).mem = s.mem := rfl

@[simp] theorem leaveHandler_mem (s : State) : (leaveHandler s).mem = s.mem := rfl

@[simp] theorem writeG_mem (s : State) (r : Nat) (v : Word) : (writeG s r v).mem = s.mem := by
  unfold writeG
  split <;> simp

@[simp] theorem popSrcs_mem (s : State) (fs : List Src) : (popSrcs s fs).mem = s.mem := by
  unfold popSrcs
  split <;> simp

@[simp] theorem orSys_mem (s : State) (fl : Nat) : (orSys s fl).mem = s.mem := by
  unfold orSys
  split <;> simp

@[simp] theorem result_mem (s : State) (f d : Nat) (v : Word) (flags : Nat) : (result s f d v flags).mem = s.mem := by
  unfold result
  split
  · simp
  · split <;> simp

@[simp] theorem resultWide_mem (s : State) (f d : Nat) (vs : List Word) : (resultWide s f d vs).mem = s.mem := rfl

/-! ### The sequencer and issue -/

@[simp] theorem setLoops_mem (s : State) (ls : List LoopRec) : (setLoops s ls).mem = s.mem := by
  unfold setLoops
  split <;> simp

@[simp] theorem goto_mem (s : State) (target cycles : Nat) : (goto s target cycles).mem = s.mem := by
  unfold goto
  split <;> simp

@[simp] theorem advance_mem (s : State) (n cycles : Nat) : (advance s n cycles).mem = s.mem := by
  unfold advance
  dsimp only
  split
  · split
    · split <;> simp
    · simp
  · simp

@[simp] theorem transfer_mem (s : State) (target : Nat) (keepsLoop : Bool) : (transfer s target keepsLoop).mem = s.mem := by
  unfold transfer
  dsimp only
  split
  · split <;> simp
  · simp

@[simp] theorem signWords_mem (s : State) (n : Nat) : (signWords s n).mem = s.mem := by
  unfold signWords
  split <;> simp

@[simp] theorem sysTrap_mem (s : State) (cause einfo : Nat) : (sysTrap s cause einfo).mem = s.mem := rfl

@[simp] theorem flowOn_mem (s : State) (n : Nat) (fl : Flow) : (flowOn s n fl).mem = s.mem := by
  unfold flowOn
  split <;> simp

@[simp] theorem link_mem (s : State) : (link s).mem = s.mem := by
  unfold link
  split
  · simp
  · split <;> simp

/-! ### Records, posted actions, the vector unit, commands and requests -/

@[simp] theorem departCols_mem (s : State) (q : Nat → Bool) : (departCols s q).mem = s.mem := rfl

@[simp] theorem stampChange_mem (s : State) (p : Nat) (x : RecChange) : (stampChange s p x).mem = s.mem := rfl

@[simp] theorem addPost_mem (s : State) (p : PostAct) : (addPost s p).mem = s.mem := rfl

@[simp] theorem vpop_mem (s : State) (xs : List VSrc) : (vpop s xs).mem = s.mem := rfl

@[simp] theorem vresult_mem (s : State) (f d : Nat) (v : LaneWord) (flags t3 : Nat) : (vresult s f d v flags t3).mem = s.mem := rfl

@[simp] theorem accept_mem (s : State) (x : Cmd) (interval : Nat) : (accept s x interval).mem = s.mem := rfl

@[simp] theorem auEnter_mem (s : State) (r : AuReq) : (auEnter s r).mem = s.mem := rfl

@[simp] theorem sysAsk_mem (s : State) (op : AuOp) (va size b0 : Nat) (cas : Option Nat) : (sysAsk s op va size b0 cas).mem = s.mem := rfl

@[simp] theorem sendArrival_mem (s : State) (core : Nat) (x : Arrival) : (sendArrival s core x).mem = s.mem := rfl

@[simp] theorem stampHere_mem (s : State) (kind rid die word : Nat) (value : Word) (data : List Nat) :
    (stampHere s kind rid die word value data).mem = s.mem := rfl

/-! ### Collective runs -/

@[simp] theorem putRun_mem (s : State) (die : Nat) (r : Run) : (putRun s die r).mem = s.mem := rfl

@[simp] theorem sendUnit_mem (s : State) (die : Nat) (r : Run) (q : Nat) (slot : Option Nat) (chunk wfmt : Nat) (data : List Nat)
    (poison : Option Nat) :
    (sendUnit s die r q slot chunk wfmt data poison).1.mem = s.mem := rfl

@[simp] theorem dropUnit_mem (s : State) (die : Nat) (u : ColUnit) : (dropUnit s die u).mem = s.mem := rfl

@[simp] theorem portWrite_mem (s : State) (die : Nat) (r : Run) (addr : Nat) (tag : Option Nat) (bs : List Byte) (poison : Option Nat)
    (bar : Option Nat) :
    (portWrite s die r addr tag bs poison bar).mem = s.mem := rfl

@[simp] theorem dropUnits_mem (s : State) (die : Nat) (r : Run) : (dropUnits s die r).mem = s.mem := rfl

@[simp] theorem endRun_mem (s0 : State) (die : Nat) (r : Run) : (endRun s0 die r).mem = s0.mem := by
  unfold endRun
  split <;> simp

@[simp] theorem abortHere_mem (s : State) (die : Nat) (r : Run) (status origin : Nat) : (abortHere s die r status origin).mem = s.mem := by
  unfold abortHere
  dsimp only
  split
  · rfl
  · split <;> split <;> simp

@[simp] theorem sendAborts_mem (s : State) (die : Nat) (r : Run) (status : Nat) : (sendAborts s die r status).mem = s.mem := rfl

@[simp] theorem abortRun_mem (s : State) (die : Nat) (r : Run) (status : Nat) : (abortRun s die r status).mem = s.mem := by
  unfold abortRun
  split <;> simp

@[simp] theorem stopStarter_mem (s : State) (core slot : Nat) (st : Stop) : (stopStarter s core slot st).mem = s.mem := by
  unfold stopStarter
  split <;> simp

@[simp] theorem portFault_mem (s : State) (die : Nat) (r : Run) (st : Stop) : (portFault s die r st).mem = s.mem := by simp [portFault]

@[simp] theorem runWrite_mem (s0 : State) (die : Nat) (r : Run) (slot k : Nat) (es0 : List Nat) (poison : Option Nat) :
    (runWrite s0 die r slot k es0 poison).1.mem = s0.mem := by
  unfold runWrite
  dsimp only
  split
  · exact foldl_mem _ (fun t w => portWrite_mem ..) _ _
  · exact foldl_mem _ (fun t p => by simp) _ _

/-! ### Memory command engines -/

@[simp] theorem memTrap_mem (s : State) (reason rule bank deficit : Nat) (arrival : Option Nat) :
    (memTrap s reason rule bank deficit arrival).mem = s.mem := rfl

@[simp] theorem sendMove_mem (s : State) (core : Nat) (m : Move) : (sendMove s core m).mem = s.mem := rfl

@[simp] theorem voidTakes_mem (s : State) (n c : Nat) (e : EngSt) (p : Nat → Bool) : (voidTakes s n c e p).mem = s.mem := by
  unfold voidTakes
  refine foldl_mem _ (fun t x => ?_) _ _
  dsimp only
  split <;> simp

@[simp] theorem stopEngine_mem (s : State) (n : Nat) : (stopEngine s n).mem = s.mem := by
  unfold stopEngine
  dsimp only
  split <;> simp

@[simp] theorem resolveEngine_mem (s : State) (n : Nat) (skip : Bool) : (resolveEngine s n skip).mem = s.mem := by
  unfold resolveEngine
  dsimp only
  split <;> simp

@[simp] theorem storeEnter_mem (s : State) (fs : List Src) (va size : Nat) (v : Word) :
    (storeEnter s fs va size v).mem = s.mem := by simp [storeEnter]

/-! ### Contexts and engines of a slot -/

@[simp] theorem mapCtxs_mem (s : State) (p slot : Nat) (f : Nat → Ctx → Ctx) : (mapCtxs s p slot f).mem = s.mem := by
  exact foldl_mem _ (fun t c => by simp) _ _

@[simp] theorem mapEngs_mem (s : State) (p slot : Nat) (f : Nat → EngSt → EngSt) : (mapEngs s p slot f).mem = s.mem := rfl

@[simp] theorem snapCore_mem (s : State) (core slot : Nat) : (snapCore s core slot).mem = s.mem := rfl

@[simp] theorem latchEngs_mem (s : State) (p slot : Nat) : (latchEngs s p slot).mem = s.mem := by
  unfold latchEngs
  split <;> simp

@[simp] theorem latchDomain_mem (s : State) (p slot : Nat) : (latchDomain s p slot).mem = s.mem := by
  unfold latchDomain
  exact (latchEngs_mem ..).trans (foldl_mem _ (fun t c => snapCore_mem ..) _ _)

@[simp] theorem countTrigger_mem (s : State) (p : Nat) : (countTrigger s p).mem = s.mem := rfl

/-! ### Runs that start, units that arrive -/

@[simp] theorem dropHeld_mem (s : State) (die core group epoch : Nat) : (dropHeld s die core group epoch).mem = s.mem := rfl

@[simp] theorem checkRun_mem (s : State) (die : Nat) (r0 : Run) (b : Block) : (checkRun s die r0 b).mem = s.mem := by
  unfold checkRun
  dsimp only
  split
  · simp
  · split
    · simp
    · split
      · simp
      · split <;> simp

@[simp] theorem startRun_mem (s : State) (die : Nat) (w : ColWait) : (startRun s die w).mem = s.mem := by
  unfold startRun
  dsimp only
  split
  · simp
  · split <;> simp

@[simp] theorem touchRun_mem (s : State) (die : Nat) (r : Run) (q : Nat) : (touchRun s die r q).mem = s.mem := rfl

@[simp] theorem abortArrives_mem (s : State) (core group epoch status origin : Nat) :
    (abortArrives s core group epoch status origin).mem = s.mem := by
  unfold abortArrives
  dsimp only
  split
  · simp
  · split <;> simp

@[simp] theorem nextTableWord_mem (s : State) : (nextTableWord s).mem = s.mem := rfl

@[simp] theorem sendStamp_mem (s : State) (core : Nat) (m : Move) : (sendStamp s core m).mem = s.mem := by
  unfold sendStamp
  split <;> simp

/-! ### Freezes, commits and switches of a slot -/

@[simp] theorem giveMemtime_mem (s : State) (core t info : Nat) : (giveMemtime s core t info).mem = s.mem := by
  unfold giveMemtime
  dsimp only
  split <;> simp

@[simp] theorem giveMemtimes_mem (s : State) (p slot : Nat) : (giveMemtimes s p slot).mem = s.mem := by
  have hfold : ∀ (l : List Nat) (ms : List (Nat × Nat × Nat × Nat)) (u : State), (l.foldl (fun s c =>
      match memtimeFor ms c with | some (t, info) => giveMemtime s c t info | none => s) u).mem = u.mem :=
    fun l ms u => foldl_mem _ (fun t c => by split <;> simp) l u
  unfold giveMemtimes
  dsimp only
  split
  · exact hfold ..
  · exact (mapEngs_mem ..).trans (hfold ..)

@[simp] theorem freezeOn_mem (s : State) (p slot f : Nat) : (freezeOn s p slot f).mem = s.mem := by
  unfold freezeOn
  dsimp only
  split <;> simp

@[simp] theorem commitDomain_mem (s : State) (p slot ph cy : Nat) : (commitDomain s p slot ph cy).mem = s.mem := by
  unfold commitDomain
  dsimp only
  split <;> simp

@[simp] theorem commitCore_mem (s : State) (p slot ph cy : Nat) : (commitCore s p slot ph cy).mem = s.mem := rfl

@[simp] theorem swapEngs_mem (s : State) (p : Nat) (out : Option Nat) (inn : Nat) : (swapEngs s p out inn).mem = s.mem := by
  unfold swapEngs
  refine foldl_mem _ (fun t n => ?_) _ _
  dsimp only
  split
  · split <;> simp
  · simp

@[simp] theorem runOn_mem (s : State) (p slot : Nat) : (runOn s p slot).mem = s.mem := by
  unfold runOn
  refine foldl_mem _ (fun t c => ?_) _ _
  split <;> simp

@[simp] theorem switchOn_mem (s : State) (p slot : Nat) : (switchOn s p slot).mem = s.mem := by simp [switchOn]

@[simp] theorem moveHolds_mem (s : State) (p out inn : Nat) : (moveHolds s p out inn).mem = s.mem := by
  unfold moveHolds
  dsimp only
  split <;> simp

@[simp] theorem switchSlots_mem (s : State) (p : Nat) : (switchSlots s p).mem = s.mem := by
  unfold switchSlots
  dsimp only
  split
  · rfl
  · split
    · simp
    · split <;> simp

/-! ### Paged requests -/

@[simp] theorem modAu_mem (s : State) (key : Nat) (f : Ctx → Ctx) : (modAu s key f).mem = s.mem := rfl

@[simp] theorem placeAu_mem (s : State) (key n : Nat) (p : AuPlace) : (placeAu s key n p).mem = s.mem := rfl

@[simp] theorem queuePart_mem (s : State) (n : Nat) (x : PagedPart) : (queuePart s n x).mem = s.mem := rfl

@[simp] theorem joinQueue_mem (s : State) (die key id va size : Nat) : (joinQueue s die key id va size).mem = s.mem := by
  unfold joinQueue
  exact foldl_mem _ (fun t i => queuePart_mem ..) _ _

@[simp] theorem tellOwner_mem (s : State) (die bit : Nat) : (tellOwner s die bit).mem = s.mem := rfl

@[simp] theorem faultAu_mem (s : State) (key : Nat) (r : AuReq) (cause why rag : Nat) : (faultAu s key r cause why rag).mem = s.mem := by
  unfold faultAu
  split
  · dsimp only
    split <;> simp
  · simp

@[simp] theorem dropExt_mem (s : State) (die n : Nat) : (dropExt s die n).mem = s.mem := rfl

@[simp] theorem migrDone_mem (s : State) (die key id status : Nat) : (migrDone s die key id status).mem = s.mem := by
  unfold migrDone
  split <;> simp

@[simp] theorem startMigr_mem (s : State) (die key id va : Nat) : (startMigr s die key id va).mem = s.mem := by
  unfold startMigr
  dsimp only
  split
  · split
    · simp
    · split <;> simp
  · split
    · simp
    · split <;> simp

@[simp] theorem acceptAu_mem (s : State) (key : Nat) (r : AuReq) : (acceptAu s key r).mem = s.mem := by
  unfold acceptAu
  split <;> simp

@[simp] theorem arriveAu_mem (s : State) (key n : Nat) : (arriveAu s key n).mem = s.mem := by
  unfold arriveAu
  split
  · rfl
  · dsimp only
    split
    · rfl
    · split
      · simp
      · split
        · split <;> simp
        · split
          · rfl
          · split <;> simp

@[simp] theorem answerSys_mem (s : State) (x cause v : Nat) : (answerSys s x cause v).mem = s.mem := rfl

@[simp] theorem answerRun_mem (s : State) (x : Nat × Nat × Nat × Nat) (denied : Bool) : (answerRun s x denied).mem = s.mem := by
  unfold answerRun
  split
  · simp
  · split <;> simp

@[simp] theorem failExt_mem (s : State) (die : Nat) (q : ExtReq) (cause why : Nat) : (failExt s die q cause why).mem = s.mem := by
  unfold failExt
  dsimp only
  split
  · split <;> simp
  · simp
  · simp

@[simp] theorem acceptExt_mem (s : State) (die : Nat) (q : ExtReq) : (acceptExt s die q).mem = s.mem := by
  unfold acceptExt
  split <;> simp

@[simp] theorem arriveExt_mem (s : State) (die n : Nat) : (arriveExt s die n).mem = s.mem := by
  unfold arriveExt
  dsimp only
  split
  · rfl
  · split
    · rfl
    · split
      · split <;> simp
      · split
        · rfl
        · split
          · split <;> simp
          · split <;> simp

@[simp] theorem foreignReq_mem (s : State) : (foreignReq s).mem = s.mem := by
  unfold foreignReq
  split <;> simp

@[simp] theorem foreignWord_mem (s : State) : (foreignWord s).mem = s.mem := by
  unfold foreignWord
  split
  · dsimp only
    split <;> simp
  · rfl

@[simp] theorem answerAu_mem (s : State) (key : Nat) (fatal : Bool) : (answerAu s key fatal).mem = s.mem := by
  unfold answerAu
  split <;> simp

@[simp] theorem requeue_mem (s : State) (die : Nat) (p : Page) : (requeue s die p).mem = s.mem := by
  unfold requeue
  dsimp only
  refine (foldl_mem _ (fun t x => queuePart_mem ..) _ _).trans (foldl_mem _ (fun t n => ?_) _ _)
  split <;> simp

/-! ### Messages, columns, links and groups -/

@[simp] theorem dropMsg_mem (s : State) : (dropMsg s).mem = s.mem := rfl

@[simp] theorem stopNow_mem (s : State) : (stopNow s).mem = s.mem := by
  unfold stopNow
  dsimp only
  split <;> simp

@[simp] theorem markColumn_mem (s : State) (n key tag : Nat) : (markColumn s n key tag).mem = s.mem := rfl

@[simp] theorem scrubRow_mem (s : State) (n mask : Nat) (good bad : List Nat) : (scrubRow s n mask good bad).mem = s.mem := by
  unfold scrubRow
  dsimp only
  refine (foldl_mem _ (fun t col => ?_) _ _).trans (foldl_mem _ (fun t col => addError_mem ..) _ _)
  simp

@[simp] theorem setLink_mem (s : State) (n : Nat) (l : LinkSt) : (setLink s n l).mem = s.mem := rfl

@[simp] theorem tellAll_mem (s : State) (bit : Nat) : (tellAll s bit).mem = s.mem := by
  exact foldl_mem _ (fun t p => sysEventOn_mem ..) _ _

@[simp] theorem lostRun_mem (s : State) (die g : Nat) : (lostRun s die g).mem = s.mem := by
  unfold lostRun
  split
  · simp
  · split <;> simp

@[simp] theorem regroup_mem (s : State) (p g : Nat) : (regroup s p g).mem = s.mem := by
  unfold regroup
  refine foldl_mem _ (fun t die => ?_) _ _
  dsimp only
  split <;> simp

/-! ## Issue of an instruction -/

/-- An instruction whose body leaves memory as it is does so, whatever its checks find. -/
theorem issue_keeps_of (s : State) (r : IssueRule) {body : State → Res (State × Flow)}
    (h : ∀ u, u.mem = s.mem → Yields (fun x => x.1.mem = s.mem) (body u)) : KeepsMem s (issue s r body) := by
  unfold issue
  split
  · simp only [KeepsMem.next_iff, advance_mem]
    split <;> simp
  · dsimp only
    split
    next t fl hgo => exact (flowOn_mem ..).trans (((h _ (by split <;> simp)).lowerClass _).of_ok hgo)
    next st _ =>
      split
      · cases st <;> simp
      · simp

theorem issue_keeps (s : State) (r : IssueRule) {body : State → Res (State × Flow)}
    (h : ∀ u, Yields (fun x => x.1.mem = u.mem) (body u)) : KeepsMem s (issue s r body) :=
  issue_keeps_of s r fun u hu => hu ▸ h u

theorem issue1_keeps (s : State) (ok : Bool) {body : State → Res State} (h : ∀ u, Yields (fun t => t.mem = u.mem) (body u)) :
    KeepsMem s (issue1 s ok body) :=
  issue_keeps s _ fun u => (Yields.bind_iff ..).mpr (h u)

theorem useBanks_yields (s : State) (bs : List Nat) (self : Option Nat) : Yields (fun t => t.mem = s.mem) (useBanks s bs self) := by
  unfold useBanks
  dsimp only
  split
  · simp
  · split <;> simp

/-! ## Instructions and events -/

/-! ### Scalar instructions and the sequencer -/

theorem op2_keeps (s : State) (d a b : Nat) (ka kb : Bool) (f : Nat) (op : Word → Word → Word × Nat) : KeepsMem s (op2 s d a b ka kb f op) :=
  issue1_keeps _ _ fun _ => .bind fun _ => .bind fun xs => by split <;> simp

theorem op1_keeps (s : State) (d a : Nat) (ka : Bool) (f : Nat) (op : Word → Word × Nat) : KeepsMem s (op1 s d a ka f op) :=
  issue1_keeps _ _ fun _ => .bind fun _ => .bind fun xs => by split <;> simp

theorem int2_keeps (g : FDAB) (s : State) (f : Nat) (op : Word → Word → Word) : KeepsMem s (int2 g s f op) :=
  op2_keeps ..

theorem int1_keeps (g : FDA) (s : State) (f : Nat) (op : Word → Word) : KeepsMem s (int1 g s f op) :=
  op1_keeps ..

theorem intImm_keeps (f : FImm) (s : State) (op : Word → Word → Word) : KeepsMem s (intImm f s op) :=
  op1_keeps ..

theorem shImm_keeps (f : FShI) (s : State) (op : Word → Nat → Word) : KeepsMem s (shImm f s op) :=
  op1_keeps ..

theorem float2_keeps (g : FDAB) (s : State) (f : Nat) (op : Val → Val → Nat → Nat × Flags) : KeepsMem s (float2 g s f op) :=
  op2_keeps ..

theorem execLi_keeps (f : FU) (s : State) : KeepsMem s (execLi f s) :=
  issue1_keeps _ _ fun _ => by simp

theorem execMov_keeps (f : FMov) (s : State) : KeepsMem s (execMov f s) :=
  issue_keeps _ _ fun _ => .bind fun _ => .bind fun vs => by simp

theorem execDrop_keeps (f : FAW) (s : State) : KeepsMem s (execDrop f s) :=
  issue_keeps _ _ fun _ => by simp

theorem execQcnt_keeps (f : FDAW) (s : State) : KeepsMem s (execQcnt f s) :=
  issue_keeps _ _ fun _ => by simp

theorem execQclr_keeps (f : FAW) (s : State) : KeepsMem s (execQclr f s) :=
  issue_keeps _ _ fun _ => by split <;> simp

theorem execBrc_keeps (f : FBrc) (s : State) : KeepsMem s (execBrc f s) :=
  issue_keeps _ _ fun _ => by simp

theorem execBr_keeps (f : FBr) (s : State) : KeepsMem s (execBr f s) :=
  issue_keeps _ _ fun _ => by simp

theorem execGrd_keeps (f : FGrd) (s : State) : KeepsMem s (execGrd f s) :=
  issue_keeps _ _ fun _ => by split <;> simp

theorem execCall_keeps (f : FCall) (s : State) : KeepsMem s (execCall f s) :=
  issue_keeps _ _ fun _ => by simp

theorem jumpReg_keeps (f : FA) (s : State) (linked : Bool) : KeepsMem s (jumpReg f s linked) :=
  issue_keeps _ _ fun _ => by split <;> simp

theorem execLoop_keeps (f : FLoop) (s : State) : KeepsMem s (execLoop f s) :=
  issue_keeps _ _ fun _ => by simp

theorem execIdle_keeps (f : FIdl) (s : State) : KeepsMem s (execIdle f s) :=
  issue_keeps _ _ fun _ => by simp

theorem execSeg_keeps (f : FSeg) (s : State) : KeepsMem s (execSeg f s) :=
  issue_keeps _ _ fun _ => by simp

theorem execSegend_keeps (s : State) : KeepsMem s (execSegend s) :=
  issue_keeps _ _ fun _ => by simp

theorem execSlath_keeps (s : State) : KeepsMem s (execSlath s) :=
  issue_keeps _ _ fun _ => by simp

theorem execTbrd_keeps (f : FD) (s : State) : KeepsMem s (execTbrd f s) :=
  issue1_keeps _ _ fun _ => by simp

theorem execWbrd_keeps (f : FD) (s : State) : KeepsMem s (execWbrd f s) :=
  issue_keeps _ _ fun _ => by simp

theorem execPhase_keeps (f : FA) (s : State) : KeepsMem s (execPhase f s) := by
  unfold execPhase
  refine issue_keeps _ _ fun s => .bind fun vs => .bind fun _ => .check (.check ?_)
  dsimp only
  split
  · trivial
  · refine .check (.check ?_)
    split <;> simp

theorem execWaitq_keeps (f : FA0) (s : State) : KeepsMem s (execWaitq f s) :=
  issue_keeps _ _ fun _ => by split <;> simp

theorem execWaitf_keeps (f : FA) (s : State) : KeepsMem s (execWaitf f s) :=
  issue_keeps _ _ fun _ => by simp

theorem execHalt_keeps (s : State) : KeepsMem s (execHalt s) :=
  issue_keeps _ _ fun _ => by simp

theorem execOpenS_keeps (f : FOpen) (s : State) : KeepsMem s (execOpenS f s) :=
  issue_keeps _ _ fun _ => by simp

/-! ### Streams and tables -/

theorem execClose_keeps (f : FS) (s : State) : KeepsMem s (execClose f s) :=
  issue1_keeps _ _ fun _ => by simp

theorem execSadv_keeps (f : FSA) (s : State) : KeepsMem s (execSadv f s) :=
  issue_keeps _ _ fun _ => by split <;> simp

theorem execSrew_keeps (f : FS) (s : State) : KeepsMem s (execSrew f s) :=
  issue_keeps _ _ fun _ => by simp

theorem execSstat_keeps (f : FSD) (s : State) : KeepsMem s (execSstat f s) :=
  issue1_keeps _ _ fun _ => by simp

theorem tableWrite_keeps (f : FAB) (t : Table) (put : Ctx → Nat → Word → Ctx) (s : State) : KeepsMem s (tableWrite f t put s) :=
  issue1_keeps _ _ fun _ => .lowerClass _ (.bind fun xs => by split <;> simp)

theorem tableRead_keeps (f : FDA) (t : Table) (get : Ctx → Nat → Word) (s : State) : KeepsMem s (tableRead f t get s) :=
  issue1_keeps _ _ fun _ => .bind fun _ => .bind fun xs => by split <;> simp

/-! ### The vector unit -/

theorem vop_keeps (s : State) (f d : Nat) (srcs : List Nat) (op : Ctx → List VSrc → LaneWord × Flags) : KeepsMem s (vop s f d srcs op) :=
  issue1_keeps _ _ fun _ => by simp

theorem v3_keeps (g : FV3) (s : State) (f : Nat) (op : Ctx → Nat → Nat → Nat → Nat × Flags) : KeepsMem s (v3 g s f op) :=
  vop_keeps ..

theorem v2_keeps (g : FV2) (s : State) (f : Nat) (op : Ctx → Nat → Nat → Nat × Flags) : KeepsMem s (v2 g s f op) :=
  vop_keeps ..

theorem vfma_keeps (f : FV3) (s : State) (sub : Bool) : KeepsMem s (vfma f s sub) :=
  vop_keeps ..

theorem vfun_keeps (f : FV2) (s : State) (off : Nat) (op : Nat → Val → Nat → Bool → Nat × Flags) : KeepsMem s (vfun f s off op) :=
  v2_keeps ..

theorem vbits_keeps (f : FV3) (s : State) (op : Nat → Nat → Nat → Nat) : KeepsMem s (vbits f s op) :=
  v3_keeps ..

theorem vcmp_keeps (f : FV3) (s : State) (rel : Val → Val → Bool) (nan : Bool × Flags) : KeepsMem s (vcmp f s rel nan) :=
  v3_keeps ..

theorem vsumOf_keeps (f : FV2) (s : State) (sq : Bool) : KeepsMem s (vsumOf f s sq) :=
  vop_keeps ..

theorem vext_keeps (f : FV2) (s : State) (key : Nat → Nat → Nat) (larger : Bool) : KeepsMem s (vext f s key larger) :=
  vop_keeps ..

theorem vperm1_keeps (s : State) (d a fmt : Nat) (pick : List Nat → Nat → Nat → Nat) : KeepsMem s (vperm1 s d a fmt pick) :=
  vop_keeps ..

theorem vperm2_keeps (f : FV3) (s : State) (pick : List Nat → List Nat → Nat → Nat → Nat) : KeepsMem s (vperm2 f s pick) :=
  vop_keeps ..

theorem execVunpk3_keeps (f : FVp) (s : State) : KeepsMem s (execVunpk3 f s) := by
  unfold execVunpk3
  refine issue_keeps_of _ _ fun u hu => ?_
  simp [hu]

theorem execVtoq_keeps (f : FVtoq) (s : State) : KeepsMem s (execVtoq f s) :=
  issue1_keeps _ _ fun _ => by simp

theorem execVfromq_keeps (f : FVfromq) (s : State) : KeepsMem s (execVfromq f s) :=
  issue1_keeps _ _ fun _ => by simp

/-! ### Scales, atomics, flags, quantisation -/

theorem useScaleRows_yields (s : State) (rows : List (Nat × Nat)) : Yields (fun t => t.mem = s.mem) (useScaleRows s rows) :=
  useBanks_yields _ _ _

@[simp] theorem fresh_mem (s : State) : (fresh s).2.mem = s.mem := rfl

theorem scaleCheck_yields (s : State) (strm : Nat) (l : Layout) (n k eng : Nat) :
    Yields (fun t => t.1.mem = s.mem) (scaleCheck s strm l n k eng) := by
  unfold scaleCheck
  split
  · simp
  · split
    · simp
    · refine .bind fun _ => .bind fun _ => ?_
      split <;> simp

@[simp] theorem sysPaged_yields (s : State) (op : AuOp) (va size b0 : Nat) (cas : Option Nat) (finish : State → Nat → State)
    (h : ∀ t v, (finish t v).mem = t.mem) : Yields (fun t => t.1.mem = s.mem) (sysPaged s op va size b0 cas finish) := by
  unfold sysPaged
  dsimp only
  split
  · split <;> simp [h]
  · split <;> simp

theorem atomicIssue_yields (s : State) (op : Nat) (a b : Src) (pair : Bool) (d : Nat) :
    Yields (fun t => t.1.mem = s.mem) (atomicIssue s op a b pair d) := by
  unfold atomicIssue
  simp

theorem atomic_keeps (f : FDAB) (op : Nat) (s : State) : KeepsMem s (atomic f op s) :=
  issue_keeps _ _ fun _ => atomicIssue_yields ..

theorem atomicRead_yields (s : State) (x : Atomic) : Yields (fun t => t.mem = s.mem) (atomicRead s x) := by
  unfold atomicRead
  dsimp only
  split <;> simp

theorem pagedAtomic_keeps (f : FDAB) (cas : Bool) (s : State) : KeepsMem s (pagedAtomic f cas s) :=
  issue_keeps _ _ fun _ => by simp

theorem execRstq_keeps (f : FAB) (s : State) : KeepsMem s (execRstq f s) :=
  issue_keeps _ _ fun _ => by simp

theorem execFlagset_keeps (f : FAB) (s : State) : KeepsMem s (execFlagset f s) := by
  unfold execFlagset
  refine issue1_keeps _ _ fun s => ?_
  refine .lowerClass _ ?_
  simp

theorem execFlagrd_keeps (f : FDA) (s : State) : KeepsMem s (execFlagrd f s) :=
  issue1_keeps _ _ fun _ => by simp

theorem quantIssue_keeps (s : State) (mode sd0 sa0 rnd seed : Nat) (rte : Bool) : KeepsMem s (quantIssue s mode sd0 sa0 rnd seed rte) := by
  unfold quantIssue
  refine issue_keeps _ _ fun s => .bind fun ad => ?_
  simp

theorem dequantIssue_keeps (s : State) (mode sd0 sa0 : Nat) : KeepsMem s (dequantIssue s mode sd0 sa0) := by
  unfold dequantIssue
  refine issue_keeps _ _ fun s => .bind fun ad => ?_
  simp

/-! ### Records -/

theorem execStbind_keeps (f : FAB) (s : State) : KeepsMem s (execStbind f s) :=
  issue1_keeps _ _ fun _ => .bind fun xs => by split <;> simp

theorem execStclr_keeps (f : FA) (s : State) : KeepsMem s (execStclr f s) :=
  issue1_keeps _ _ fun _ => .bind fun xs => by split <;> simp

theorem execStrd_keeps (f : FDA) (s : State) : KeepsMem s (execStrd f s) :=
  issue1_keeps _ _ fun _ => .bind fun _ => .bind fun xs => by split <;> simp

theorem execStmerge_keeps (f : FA) (s : State) : KeepsMem s (execStmerge f s) :=
  issue1_keeps _ _ fun _ => .bind fun xs => by split <;> simp

theorem execStgen_keeps (f : FDA) (s : State) : KeepsMem s (execStgen f s) :=
  issue1_keeps _ _ fun _ => .bind fun _ => .bind fun xs => by split <;> simp

theorem execStset_keeps (f : FAB) (s : State) : KeepsMem s (execStset f s) :=
  issue1_keeps _ _ fun _ => .bind fun xs => by split <;> simp

/-! ### Collectives -/

theorem execColstart_keeps (f : FP2) (s : State) : KeepsMem s (execColstart f s) :=
  issue_keeps _ _ fun _ => by simp

theorem execColstat_keeps (f : FP2) (s : State) : KeepsMem s (execColstat f s) :=
  issue_keeps _ _ fun _ => by simp

theorem execColabort_keeps (f : FP1) (s : State) : KeepsMem s (execColabort f s) :=
  issue_keeps _ _ fun _ => by simp

/-- What a table word comes to leaves memory as it is. -/
def CxRes.KeepsMem (s : State) : CxRes → Prop
  | .done t _ => t.mem = s.mem
  | _ => True

@[simp] theorem CxRes.keeps_done (s t : State) (r : Run) : CxRes.KeepsMem s (.done t r) ↔ t.mem = s.mem := Iff.rfl
@[simp] theorem CxRes.keeps_wait (s : State) : CxRes.KeepsMem s .wait ↔ True := Iff.rfl
@[simp] theorem CxRes.keeps_mismatch (s : State) : CxRes.KeepsMem s .mismatch ↔ True := Iff.rfl
@[simp] theorem CxRes.keeps_fault (s : State) (st : Stop) : CxRes.KeepsMem s (.fault st) ↔ True := Iff.rfl

@[simp] theorem writeNarrowed_keeps (s : State) (r : Run) (slot k src : Nat) (es : List Nat) (p : Option Nat) :
    CxRes.KeepsMem s (writeNarrowed s r slot k src es p) :=
  runWrite_mem ..

theorem takeUnit_keeps (s : State) (r : Run) (k wfmt : Nat) {go : State → Run → ColUnit → CxRes}
    (h : ∀ t r u, CxRes.KeepsMem t (go t r u)) : CxRes.KeepsMem s (takeUnit s r k wfmt go) := by
  have hgo (u : ColUnit) (r : Run) : CxRes.KeepsMem s (go (dropUnit s s.curDie u) r u) := h (dropUnit s s.curDie u) r u
  unfold takeUnit
  split
  · trivial
  · split
    · trivial
    · exact hgo _ _

theorem cxWord_keeps (s : State) {act : State → Run → CxRes} (h : ∀ s r, CxRes.KeepsMem s (act s r)) : KeepsMem s (cxWord s act) := by
  unfold cxWord
  split
  · rfl
  next r _ =>
    have hact := h s r
    split
    next => rfl
    next t r1 hdone =>
      rw [hdone] at hact
      exact (putRun_mem ..).trans hact
    next => simp
    next => simp

theorem execCxNop_keeps (s : State) : KeepsMem s (execCxNop s) :=
  cxWord_keeps _ fun _ _ => rfl

theorem execCxSend_keeps (f : FCxData) (s : State) : KeepsMem s (execCxSend f s) := by
  refine cxWord_keeps _ fun s r => ?_
  dsimp only
  split <;> simp

theorem execCxRecv_keeps (f : FCxData) (s : State) : KeepsMem s (execCxRecv f s) :=
  cxWord_keeps _ fun _ _ => takeUnit_keeps _ _ _ _ fun _ _ _ => writeNarrowed_keeps ..

theorem execCxRrs_keeps (f : FCxData) (s : State) : KeepsMem s (execCxRrs f s) := by
  refine cxWord_keeps _ fun s r => takeUnit_keeps _ _ _ _ fun t r u => ?_
  dsimp only
  split <;> simp

theorem execCxRed_keeps (f : FCxData) (s : State) : KeepsMem s (execCxRed f s) :=
  cxWord_keeps _ fun s r => takeUnit_keeps _ _ _ _ fun t r u => by split <;> simp

theorem execCxCopy_keeps (f : FCxCopy) (s : State) : KeepsMem s (execCxCopy f s) := by
  refine cxWord_keeps _ fun s r => ?_
  dsimp only
  split <;> simp

theorem execCxWaitDelivery_keeps (f : FCxWaitD) (s : State) : KeepsMem s (execCxWaitDelivery f s) :=
  cxWord_keeps _ fun s r => by split <;> simp

theorem execCxWaitFlag_keeps (f : FCxWaitF) (s : State) : KeepsMem s (execCxWaitFlag f s) :=
  cxWord_keeps _ fun s r => by dsimp only; split <;> simp

theorem execCxLoop_keeps (f : FCxLoop) (s : State) : KeepsMem s (execCxLoop f s) :=
  cxWord_keeps _ fun _ _ => rfl

theorem execCxPeer_keeps (f : FCxPeer) (s : State) : KeepsMem s (execCxPeer f s) :=
  cxWord_keeps _ fun _ _ => rfl

theorem execCxMcast_keeps (f : FCxMcast) (s : State) : KeepsMem s (execCxMcast f s) := by
  refine cxWord_keeps _ fun s r => ?_
  dsimp only
  split
  · simp
  · split
    · simp
    · exact foldl_keeps (fun t : State × Run => t.1.mem = s.mem) _ (fun t q ht => (sendUnit_mem ..).trans ht) _ _ rfl

theorem execCxDone_keeps (f : FCxSlot) (s : State) : KeepsMem s (execCxDone f s) := by
  unfold execCxDone
  split <;> simp

/-! ### Paged space -/

theorem loadIssue_keeps (f : FLs) (size : Nat) (signed : Bool) (s : State) : KeepsMem s (loadIssue f size signed s) :=
  issue_keeps _ _ fun _ => by simp

theorem storeIssue_keeps (f : FLs) (size : Nat) (s : State) : KeepsMem s (storeIssue f size s) :=
  issue_keeps _ _ fun _ => by simp

theorem ldq_keeps (f : FDA) (s : State) : KeepsMem s (ldq f s) :=
  issue_keeps _ _ fun _ => by simp

theorem execStq_keeps (f : FAB) (s : State) : KeepsMem s (execStq f s) :=
  issue_keeps _ _ fun _ => by simp

theorem execMigr_keeps (f : FAB) (s : State) : KeepsMem s (execMigr f s) :=
  issue_keeps _ _ fun _ => by simp

theorem execAustat_keeps (f : FD) (s : State) : KeepsMem s (execAustat f s) :=
  issue1_keeps _ _ fun _ => by simp

theorem execFence_keeps (s : State) : KeepsMem s (execFence s) := by
  unfold execFence
  refine issue1_keeps _ _ fun s => ?_
  split
  · simp
  · split
    · simp
    · split <;> simp

/-! ### Events of collectives -/

theorem execCollectiveRunStart_keeps (s : State) : KeepsMem s (execCollectiveRunStart s) := by
  unfold execCollectiveRunStart
  dsimp only
  split
  · simp
  · split
    · simp
    · split <;> simp

theorem bufferUnit_mem (s : State) (u : ColUnit) : ∀ t ∈ bufferUnit s u, t.mem = s.mem := by
  unfold bufferUnit
  dsimp only
  split
  · simp
  · split
    · simp
    · split <;> simp

theorem getD_mem {o : Option State} {s : State} (h : ∀ t ∈ o, t.mem = s.mem) : (o.getD s).mem = s.mem := by
  cases o with
  | none => rfl
  | some t => exact h t rfl

theorem execCollectiveUnitArrival_keeps (s : State) : KeepsMem s (execCollectiveUnitArrival s) := by
  unfold execCollectiveUnitArrival
  dsimp only
  split
  · split
    · exact getD_mem (bufferUnit_mem _ _)
    · simp
  · split
    · simp
    · split
      · refine getD_mem fun t ht => ?_
        obtain ⟨v, hv, rfl⟩ := Option.mem_map.mp ht
        have hbuffer := bufferUnit_mem _ _ _ hv
        rw [State.setCxe_mem] at hbuffer
        rw [← hbuffer]
        split <;> simp
      · simp only [KeepsMem.next_iff]
        split <;> simp

theorem execMcastUnitArrival_keeps (s : State) : KeepsMem s (execMcastUnitArrival s) := by
  unfold execMcastUnitArrival
  dsimp only
  split
  · simp
  · split
    · split
      · simp
      · split <;> simp
    · simp

theorem execAbortUnitArrival_keeps (s : State) : KeepsMem s (execAbortUnitArrival s) := by
  unfold execAbortUnitArrival
  split
  · split <;> simp
  · dsimp only
    split
    · simp
    · split <;> simp

theorem execCollectiveTimeout_keeps (s : State) : KeepsMem s (execCollectiveTimeout s) := by
  unfold execCollectiveTimeout
  split <;> simp

theorem execColabortArrival_keeps (s : State) : KeepsMem s (execColabortArrival s) := by
  unfold execColabortArrival
  dsimp only
  split
  · simp
  · split <;> simp

theorem execCollabort_keeps (s : State) : KeepsMem s (execCollabort s) := by
  unfold execCollabort
  dsimp only
  split <;> simp

/-! ### The matrix unit -/

theorem mmaIssue_keeps (f : FMma) (mode : Nat) (s : State) : KeepsMem s (mmaIssue f mode s) := by
  unfold mmaIssue
  refine issue_keeps _ _ fun s => .bind fun _ => ?_
  split
  · refine .check ?_
    dsimp only
    split <;> simp
  · simp

theorem accIssue_keeps (f : FTS) (kind : CmdKind) (s : State) : KeepsMem s (accIssue f kind s) := by
  unfold accIssue
  refine issue_keeps _ _ fun s => .bind fun _ => ?_
  split <;> simp

theorem execAccmv_keeps (f : FAmv) (s : State) : KeepsMem s (execAccmv f s) := by
  unfold execAccmv
  refine issue_keeps _ _ fun s => .bind fun _ => ?_
  split <;> simp

theorem accAccess_yields (s : State) (wr : Bool) (x : Word) : Yields (fun t => t.mem = s.mem) (accAccess s wr x) := by
  unfold accAccess
  simp [useBanks_yields]

theorem execAccrd_keeps (f : FDA) (s : State) : KeepsMem s (execAccrd f s) := by
  unfold execAccrd
  refine issue1_keeps _ _ fun s => .bind fun _ => .bind fun xs => ?_
  split
  · refine .bind fun _ => .bind_of (accAccess_yields ..) fun t ht => ?_
    dsimp only
    split
    · trivial
    · simp [ht]
  · simp

theorem execEstep_keeps (f : FDA) (s : State) : KeepsMem s (execEstep f s) :=
  issue1_keeps _ _ fun _ => .bind fun _ => .bind fun xs => by split <;> simp

theorem execEabort_keeps (f : FA) (s : State) : KeepsMem s (execEabort f s) :=
  issue_keeps _ _ fun _ => .bind fun xs => by split <;> simp

theorem factIssue_keeps (s : State) (kind : CmdKind) (tile tile2 fl : Nat) : KeepsMem s (factIssue s kind tile tile2 fl) := by
  unfold factIssue
  refine issue_keeps _ _ fun s => ?_
  simp

theorem pivRead_keeps (f : FDA) (s : State) (lim : Nat) (get : Ctx → Nat → Nat) : KeepsMem s (pivRead f s lim get) :=
  issue1_keeps _ _ fun _ => .bind fun _ => .bind fun xs => by split <;> simp

theorem execResume_keeps (f : FA) (s : State) : KeepsMem s (execResume f s) :=
  issue_keeps _ _ fun _ => .bind fun xs => by split <;> simp

/-! ### Registers, traps and contexts -/

theorem execCsrrd_keeps (f : FCsrR) (s : State) : KeepsMem s (execCsrrd f s) :=
  issue_keeps _ _ fun _ => by simp

theorem execCsrwr_keeps (f : FCsrW) (s : State) : KeepsMem s (execCsrwr f s) :=
  issue_keeps _ _ fun _ => by split <;> simp

theorem execTrap_keeps (f : FA) (s : State) : KeepsMem s (execTrap f s) :=
  issue_keeps _ _ fun _ => by simp

theorem execTret_keeps (s : State) : KeepsMem s (execTret s) :=
  issue_keeps _ _ fun _ => by simp

theorem ctxItem_mem (s : State) (core slot idx : Nat) : ∀ x ∈ ctxItem s core slot idx, x.2.mem = s.mem := by
  unfold ctxItem
  dsimp only
  split
  · split <;> simp
  · simp
  · split <;> simp
  · simp
  · split <;> simp
  · split <;> simp
  · split <;> simp
  · simp
  · split <;> simp

theorem execCtxrd_keeps (f : FDA) (s : State) : KeepsMem s (execCtxrd f s) := by
  unfold execCtxrd
  refine issue_keeps _ _ fun s => .bind fun _ => .bind fun vs => .bind fun t => ?_
  split
  · trivial
  next v s1 h => exact (result_mem ..).trans (ctxItem_mem _ _ _ _ _ h)

theorem ctxCsrWrite_yields (s : State) (core slot n idx : Nat) (v : Word) : Yields (fun t => t.mem = s.mem) (ctxCsrWrite s core slot n idx v) := by
  unfold ctxCsrWrite
  simp

theorem ctxPut_yields (s : State) (core slot idx : Nat) (v : Word) : Yields (fun t => t.mem = s.mem) (ctxPut s core slot idx v) := by
  unfold ctxPut
  dsimp only
  split
  · split
    · simp
    · split
      · simp
      · split <;> simp
  · split <;> simp
  · split <;> simp
  · exact ctxCsrWrite_yields ..
  · simp

theorem execCtxwr_keeps (f : FAB) (s : State) : KeepsMem s (execCtxwr f s) := by
  unfold execCtxwr
  refine issue_keeps _ _ fun s => .bind fun vs => .bind fun t => ?_
  exact (Yields.bind_iff ..).mpr ((ctxPut_yields ..).mono fun u hu => hu)

theorem execSnap_keeps (s : State) : KeepsMem s (execSnap s) := by
  unfold execSnap
  refine issue1_keeps _ _ fun s => ?_
  dsimp only
  split
  · split <;> simp
  · split <;> simp

/-! ### Memory command engines and their tables -/

theorem engineSend_keeps (f : FP2) (fn : Nat) (zero : Nat → Bool) (chk : State → Nat → Nat → Res Unit) (s : State) :
    KeepsMem s (engineSend f fn zero chk s) :=
  issue_keeps _ _ fun _ => by split <;> simp

theorem mcstop_keeps (f : FP2) (s : State) : KeepsMem s (mcstop f s) :=
  issue_keeps _ _ fun _ => by simp

theorem execMcstat_keeps (f : FP2) (s : State) : KeepsMem s (execMcstat f s) :=
  issue_keeps _ _ fun _ => by simp

theorem mcWord_keeps (s : State) (r : WordRule) {act : State → State} (h : ∀ s, (act s).mem = s.mem) : KeepsMem s (mcWord s r act) := by
  unfold mcWord
  split
  · simp
  · exact h s

theorem execMcRd_keeps (f : FMcCol) (s : State) : KeepsMem s (execMcRd f s) :=
  mcWord_keeps _ _ fun _ => rfl

theorem execMcAct_keeps (f : FMcAct) (s : State) : KeepsMem s (execMcAct f s) := by
  unfold execMcAct
  exact mcWord_keeps _ _ fun _ => rfl

theorem execMcPre_keeps (f : FMcBank) (s : State) : KeepsMem s (execMcPre f s) := by
  unfold execMcPre
  exact mcWord_keeps _ _ fun _ => rfl

theorem execMcPrea_keeps (s : State) : KeepsMem s (execMcPrea s) :=
  mcWord_keeps _ _ fun _ => rfl

theorem execMcRefpb_keeps (f : FMcBank) (s : State) : KeepsMem s (execMcRefpb f s) := by
  unfold execMcRefpb
  exact mcWord_keeps _ _ fun _ => rfl

theorem execMcRefab_keeps (s : State) : KeepsMem s (execMcRefab s) := by
  unfold execMcRefab
  exact mcWord_keeps _ _ fun _ => rfl

theorem execMcTag_keeps (f : FMcTag) (s : State) : KeepsMem s (execMcTag f s) := by
  refine mcWord_keeps _ _ fun s => ?_
  exact foldl_mem _ (fun t core => foldl_mem _ (fun u m => sendStamp_mem ..) _ _) _ _

theorem execMcBind_keeps (f : FMcBind) (s : State) : KeepsMem s (execMcBind f s) :=
  mcWord_keeps _ _ fun _ => rfl

theorem execMcSvw_keeps (f : FMcSvw) (s : State) : KeepsMem s (execMcSvw f s) := by
  unfold execMcSvw
  exact mcWord_keeps _ _ fun _ => rfl

theorem execMcLoop_keeps (f : FMcLoop) (s : State) : KeepsMem s (execMcLoop f s) :=
  mcWord_keeps _ _ fun _ => rfl

theorem execMcEnd_keeps (s : State) : KeepsMem s (execMcEnd s) :=
  mcWord_keeps _ _ fun _ => rfl

theorem execMcDly_keeps (f : FMcDly) (s : State) : KeepsMem s (execMcDly f s) :=
  mcWord_keeps _ _ fun _ => rfl

/-! ### Events of a core -/

theorem evRes_keeps (s : State) {r : Res State} (h : Yields (fun t => t.mem = s.mem) r) : KeepsMem s (evRes s r) := by
  unfold evRes
  split
  · exact h
  · simp

theorem streamDrive_yields (s : State) (n : Nat) (st : Strm) : Yields (fun t => t.mem = s.mem) (streamDrive s n st) := by
  unfold streamDrive
  dsimp only
  split <;> exact .bind fun _ => .bind_of (useBanks_yields ..) fun t ht => .bind fun d => ht

theorem execStreamDrive_keeps (s : State) : KeepsMem s (execStreamDrive s) := by
  unfold execStreamDrive
  split
  · simp
  · split
    · simp
    · exact evRes_keeps _ (streamDrive_yields ..)

theorem tapWord_yields (s : State) (strm station eng : Nat) : Yields (fun t => t.1.mem = s.mem) (tapWord s strm station eng) := by
  unfold tapWord
  refine .bind fun x => ?_
  split
  · exact .bind fun l => rfl
  · exact .bind fun l => .bind_of (scaleCheck_yields ..) fun r hr => hr

theorem tapWords_yields (s : State) (station eng : Nat) (ns : List Nat) : Yields (fun t => t.1.mem = s.mem) (tapWords s station eng ns) := by
  induction ns generalizing s with
  | nil => rfl
  | cons n ns ih => exact .bind_of ((tapWord_yields ..).lowestTag _) fun a ha => .bind_of (ih a.1) fun b hb => hb.trans ha

theorem cmdTap_yields (s : State) (x : Cmd) : Yields (fun t => t.mem = s.mem) (cmdTap s x) := by
  unfold cmdTap
  dsimp only
  split
  · exact .bind_of ((tapWords_yields ..).lowestTag _) fun a ha => .bind_of (tapWords_yields ..) fun b hb =>
      .bind_of (useScaleRows_yields ..) fun t ht => ht.trans (hb.trans ha)
  · split
    · exact .bind fun l => rfl
    · rfl
  · split
    · exact .bind_of (tapWords_yields ..) fun a ha => .bind_of (useScaleRows_yields ..) fun t ht => ht.trans ha
    · rfl
  · split
    · exact .bind fun l => rfl
    · rfl
  · split
    · exact .bind fun l => rfl
    · rfl
  · rfl

theorem mcbaseRow_yields (s : State) (n i : Nat) (m : McMsg) : Yields (fun t => t.mem = s.mem) (mcbaseRow s n i m) :=
  .bind fun _ => .bind_of (useBanks_yields ..) fun _ ht => ht

theorem execOperandTap_keeps (s : State) : KeepsMem s (execOperandTap s) := by
  unfold execOperandTap
  dsimp only
  split
  · split
    · exact evRes_keeps _ (cmdTap_yields ..)
    · simp
  · split
    · exact evRes_keeps _ (atomicRead_yields ..)
    · simp
  · split
    · split
      · exact evRes_keeps _ (mcbaseRow_yields ..)
      · simp
    · simp

theorem execSegcntLate_keeps (s : State) : KeepsMem s (execSegcntLate s) := by
  simp [execSegcntLate]

/-! ### Events of a timed domain -/

theorem execDomainFreeze_keeps (s : State) : KeepsMem s (execDomainFreeze s) := by
  unfold execDomainFreeze
  dsimp only
  split <;> simp

theorem execHoldRequest_keeps (s : State) : KeepsMem s (execHoldRequest s) := by
  simp [execHoldRequest]

theorem execHoldRelease_keeps (s : State) : KeepsMem s (execHoldRelease s) := by
  simp [execHoldRelease]

theorem execDomainResume_keeps (s : State) : KeepsMem s (execDomainResume s) := by
  unfold execDomainResume
  dsimp only
  split <;> simp

theorem execPhaseCommit_keeps (s : State) : KeepsMem s (execPhaseCommit s) := by
  unfold execPhaseCommit
  dsimp only
  split <;> simp

theorem execPhaseMismatch_keeps (s : State) : KeepsMem s (execPhaseMismatch s) := by
  unfold execPhaseMismatch
  dsimp only
  split <;> simp

theorem execRecordChangeApply_keeps (s : State) : KeepsMem s (execRecordChangeApply s) := by
  simp [execRecordChangeApply]

theorem execWatchdogExpiry_keeps (s : State) : KeepsMem s (execWatchdogExpiry s) := by
  unfold execWatchdogExpiry
  dsimp only
  split
  · simp
  · split <;> simp

theorem execContextSwitch_keeps (s : State) : KeepsMem s (execContextSwitch s) := by
  unfold execContextSwitch
  dsimp only
  split <;> simp

/-! ### Events of paged space -/

theorem execPagedRequestArrival_keeps (s : State) : KeepsMem s (execPagedRequestArrival s) := by
  unfold execPagedRequestArrival
  split <;> simp

theorem execSpaceManagerAnswer_keeps (s : State) : KeepsMem s (execSpaceManagerAnswer s) := by
  unfold execSpaceManagerAnswer
  split
  · simp
  · split
    · split <;> simp
    · simp

theorem execMigrCompletion_keeps (s : State) : KeepsMem s (execMigrCompletion s) := by
  unfold execMigrCompletion
  split <;> simp

theorem execMigrationCopyEnd_keeps (s : State) : KeepsMem s (execMigrationCopyEnd s) := by
  unfold execMigrationCopyEnd
  dsimp only
  split
  · simp
  · split
    · simp
    · refine (foldl_mem _ (fun t x => ?_) _ _).trans ?_
      · split <;> simp
      · simp

/-! ### Events of memory command engines -/

theorem execMcbindArrival_keeps (s : State) : KeepsMem s (execMcbindArrival s) := by
  unfold execMcbindArrival
  split <;> simp

theorem execMcbaseArrival_keeps (s : State) : KeepsMem s (execMcbaseArrival s) := by
  unfold execMcbaseArrival
  split <;> simp

theorem execMcstartArrival_keeps (s : State) : KeepsMem s (execMcstartArrival s) := by
  unfold execMcstartArrival
  split <;> simp

theorem execMcstopArrival_keeps (s : State) : KeepsMem s (execMcstopArrival s) := by
  unfold execMcstopArrival
  split <;> simp

theorem execTableStart_keeps (s : State) : KeepsMem s (execTableStart s) := by
  simp [execTableStart]

theorem execRefreshTick_keeps (s : State) : KeepsMem s (execRefreshTick s) := by
  unfold execRefreshTick
  dsimp only
  split
  · simp
  · split <;> simp

theorem execStandingRefresh_keeps (s : State) : KeepsMem s (execStandingRefresh s) := by
  unfold execStandingRefresh
  dsimp only
  split <;> simp

theorem execSvwEnd_keeps (s : State) : KeepsMem s (execSvwEnd s) := by
  unfold execSvwEnd
  split <;> simp

theorem execScrubStep_keeps (s : State) : KeepsMem s (execScrubStep s) := by
  unfold execScrubStep
  dsimp only
  split
  · split <;> simp
  · simp

theorem execKeeperEntry_keeps (s : State) : KeepsMem s (execKeeperEntry s) := by
  simp [execKeeperEntry]

theorem execKeeperRefab_keeps (s : State) : KeepsMem s (execKeeperRefab s) := by
  simp [execKeeperRefab]

theorem execKeeperScrubStep_keeps (s : State) : KeepsMem s (execKeeperScrubStep s) := by
  unfold execKeeperScrubStep
  dsimp only
  split
  · split <;> simp
  · simp

theorem execKeeperReopen_keeps (s : State) : KeepsMem s (execKeeperReopen s) := by
  simp [execKeeperReopen]

/-! ### Events of the launch unit and of the package -/

theorem execLaunchPacketWrite_keeps (s : State) : KeepsMem s (execLaunchPacketWrite s) := by
  simp [execLaunchPacketWrite]

theorem execDoorbellNotify_keeps (s : State) : KeepsMem s (execDoorbellNotify s) := by
  simp [execDoorbellNotify]

theorem execDoorbellUnmap_keeps (s : State) : KeepsMem s (execDoorbellUnmap s) := by
  simp [execDoorbellUnmap]

theorem execDoorbellMap_keeps (s : State) : KeepsMem s (execDoorbellMap s) := by
  simp [execDoorbellMap]

theorem execSlathBarrierComplete_keeps (s : State) : KeepsMem s (execSlathBarrierComplete s) := by
  unfold execSlathBarrierComplete
  dsimp only
  split
  · simp
  · split
    · split <;> simp
    · split <;> simp

theorem execSlathWatchdog_keeps (s : State) : KeepsMem s (execSlathWatchdog s) := by
  unfold execSlathWatchdog
  dsimp only
  split <;> simp

theorem execCorePartEnd_keeps (s : State) : KeepsMem s (execCorePartEnd s) := by
  simp [execCorePartEnd]

theorem execSystemEvent_keeps (s : State) : KeepsMem s (execSystemEvent s) := by
  simp [execSystemEvent]

theorem execLinkFlitRetry_keeps (s : State) : KeepsMem s (execLinkFlitRetry s) := by
  simp [execLinkFlitRetry]

theorem execLinkDown_keeps (s : State) : KeepsMem s (execLinkDown s) := by
  unfold execLinkDown
  dsimp only
  split
  · exact (foldl_mem _ (fun t x => lostRun_mem ..) _ _).trans (by simp)
  · simp

theorem execLinkLaneLoss_keeps (s : State) : KeepsMem s (execLinkLaneLoss s) := by
  simp [execLinkLaneLoss]

/-! ### System instructions -/

/-- HVCALL 3 at each of its steps: what it gives, if anything, and the state that it goes on with. -/
theorem attest_mem (s : State) (va : Nat) : (∀ x ∈ (attest s va).1, x.2.mem = s.mem) ∧ (attest s va).2.mem = s.mem := by
  unfold attest
  dsimp only
  split
  · split
    · simp
    · split <;> simp
  · split <;> simp
  · simp

theorem sysWait_keeps (f : FDAB) (s : State) {body : State → Nat → Nat → Res (Option (Word × State) × State)}
    (h : ∀ s a b, Yields (fun x => (∀ y ∈ x.1, y.2.mem = s.mem) ∧ x.2.mem = s.mem) (body s a b)) : KeepsMem s (sysWait f s body) := by
  unfold sysWait
  refine issue_keeps _ _ fun s => .bind_of (h ..) fun x hx => ?_
  obtain ⟨hdone, hwait⟩ := hx
  split
  next v t _ => exact (writeG_mem ..).trans (hdone (v, t) rfl)
  next => exact hwait

theorem sysOp_keeps (f : FDAB) (s : State) {body : State → Nat → Nat → Res (Option (Word × State))}
    (h : ∀ s a b, Yields (fun x => ∀ y ∈ x, y.2.mem = s.mem) (body s a b)) : KeepsMem s (sysOp f s body) := by
  refine sysWait_keeps _ _ fun s a b => ?_
  exact (Yields.bind_iff ..).mpr ((h s a b).mono fun x hx => ⟨hx, rfl⟩)

theorem execMtlbinv_keeps (f : FDAB) (s : State) : KeepsMem s (execMtlbinv f s) := by
  refine sysOp_keeps _ _ fun s a b => .bind fun _ => ?_
  dsimp only
  split <;> simp

theorem execMtlbwr_keeps (f : FDAB) (s : State) : KeepsMem s (execMtlbwr f s) := by
  refine sysOp_keeps _ _ fun s a b => .bind fun _ => ?_
  dsimp only
  split <;> simp

theorem lptWrite_yields (s : State) (a v : Nat) : Yields (fun t => t.2.mem = s.mem) (lptWrite s a v) := by
  unfold lptWrite
  dsimp only
  refine .check ?_
  split
  case h_8 => split <;> simp
  all_goals simp

theorem execLptwr_keeps (f : FDAB) (s : State) : KeepsMem s (execLptwr f s) := by
  refine sysOp_keeps _ _ fun s a b => ?_
  exact .bind_of (lptWrite_yields ..) fun x hx y hy => by cases hy; exact hx

theorem hvcall_keeps (f : FDAB) (s : State) : KeepsMem s (hvcall f s) := by
  refine sysWait_keeps _ _ fun s a b => ?_
  dsimp only
  split
  · simp
  · simp
  · split <;> simp [fresh]
  · exact attest_mem ..
  · simp

/-! ## The list -/

/-- No instruction and no event outside the list changes a byte of memory. -/
theorem exec_keeps (i : Instr) (s : State) (h : writesMemory i = false) (hp : i ≠ .powerSample) : KeepsMem s (exec i s) := by
  cases i
  all_goals dsimp only [exec]
  case powerSample => exact absurd rfl hp
  case add | sub | and | or | xor | shl | shr | sra | mul | mulhs | mulhu | min | max | minu | maxu | andn | seq | sne | slt | sltu | sge | sgeu |
    bext | bflip | div | divu | rem | remu | sext | zext => exact int2_keeps ..
  case clz | ctz | popc | brev | bswap => exact int1_keeps ..
  case addi | andi | ori | xori | slti => exact intImm_keeps ..
  case shli | shri | srai => exact shImm_keeps ..
  case lcat | fsqrt | fcvti | icvtf => exact op1_keeps ..
  case jr | jrl => exact jumpReg_keeps ..
  case ltwr | fpwr | tswr => exact tableWrite_keeps ..
  case ltrd | fprd | tsrd => exact tableRead_keeps ..
  case fadd | fsub | fmul | fdiv | fcmplt => exact float2_keeps ..
  case ldsD | ldsWu | ldsWs | ldsHu | ldsBu => exact loadIssue_keeps ..
  case stsD | stsW | stsH | stsB => exact storeIssue_keeps ..
  case ldq | ldqLineFill => exact ldq_keeps ..
  case amoadd | amomax | amoswp | amocas => exact atomic_keeps ..
  case pamoadd | pamocas => exact pagedAtomic_keeps ..
  case vadd | vsub | vmul | vmin | vmax | vadds | vsubs | vmulhi | vdiff | vscale => exact v3_keeps ..
  case vfma | vfms => exact vfma_keeps ..
  case vabs | vneg | vfloor | vround | vpopc => exact v2_keeps ..
  case vrcp | vrsq | vsqrt | vexp2 | vlog2 => exact vfun_keeps ..
  case vand | vor | vxor | vandn | vshl | vshr | vsra => exact vbits_keeps ..
  case vceq | vcne | vclt | vcle | vcun => exact vcmp_keeps ..
  case vsel | vamaxr | vdot | vcvt | vunpk4 | viota | vzero => exact vop_keeps ..
  case vsum | vsumsq => exact vsumOf_keeps ..
  case vmaxr | vminr => exact vext_keeps ..
  case vbcast | vrev | vrotl => exact vperm1_keeps ..
  case vzip | vunzip | vshufl => exact vperm2_keeps ..
  case mmaFlt | mmaW4 | mmaL6 | mmaT3 | mmaI8 | mmaF32 => exact mmaIssue_keeps ..
  case accld | accadd => exact accIssue_keeps ..
  case chol | lup | givqr | grot | trsm => exact factIssue_keeps ..
  case pivrd | gfrd => exact pivRead_keeps ..
  case quantTensor | quantBlock | quantBlockTensor | quantCast => exact quantIssue_keeps ..
  case dequantTensor | dequantBlock | dequantBlockTensor | dequantCast => exact dequantIssue_keeps ..
  case mcstart | mcbase | mcbind => exact engineSend_keeps ..
  case mcstopStop | mcstopSkip => exact mcstop_keeps ..
  case hvcallVersion | hvcallPartinfo | hvcallFrames | hvcallAttest => exact hvcall_keeps ..
  case launchPacketWrite => exact execLaunchPacketWrite_keeps ..
  case corePartEnd => exact execCorePartEnd_keeps ..
  case slathBarrierComplete => exact execSlathBarrierComplete_keeps ..
  case slathWatchdog => exact execSlathWatchdog_keeps ..
  case domainFreeze => exact execDomainFreeze_keeps ..
  case holdRequest => exact execHoldRequest_keeps ..
  case holdRelease => exact execHoldRelease_keeps ..
  case domainResume => exact execDomainResume_keeps ..
  case phaseCommit => exact execPhaseCommit_keeps ..
  case phaseMismatch => exact execPhaseMismatch_keeps ..
  case segcntLate => exact execSegcntLate_keeps ..
  case watchdogExpiry => exact execWatchdogExpiry_keeps ..
  case streamDrive => exact execStreamDrive_keeps ..
  case recordChangeApply => exact execRecordChangeApply_keeps ..
  case pagedRequestArrival => exact execPagedRequestArrival_keeps ..
  case spaceManagerAnswer => exact execSpaceManagerAnswer_keeps ..
  case migrCompletion => exact execMigrCompletion_keeps ..
  case migrationCopyEnd => exact execMigrationCopyEnd_keeps ..
  case mcbindArrival => exact execMcbindArrival_keeps ..
  case mcbaseArrival => exact execMcbaseArrival_keeps ..
  case mcstartArrival => exact execMcstartArrival_keeps ..
  case mcstopArrival => exact execMcstopArrival_keeps ..
  case tableStart => exact execTableStart_keeps ..
  case refreshTick => exact execRefreshTick_keeps ..
  case standingRefresh => exact execStandingRefresh_keeps ..
  case svwEnd => exact execSvwEnd_keeps ..
  case keeperEntry => exact execKeeperEntry_keeps ..
  case keeperRefab => exact execKeeperRefab_keeps ..
  case keeperScrubStep => exact execKeeperScrubStep_keeps ..
  case keeperReopen => exact execKeeperReopen_keeps ..
  case scrubStep => exact execScrubStep_keeps ..
  case collectiveRunStart => exact execCollectiveRunStart_keeps ..
  case collectiveUnitArrival => exact execCollectiveUnitArrival_keeps ..
  case mcastUnitArrival => exact execMcastUnitArrival_keeps ..
  case abortUnitArrival => exact execAbortUnitArrival_keeps ..
  case collectiveTimeout => exact execCollectiveTimeout_keeps ..
  case collabort => exact execCollabort_keeps ..
  case contextSwitch => exact execContextSwitch_keeps ..
  case doorbellNotify => exact execDoorbellNotify_keeps ..
  case doorbellUnmap => exact execDoorbellUnmap_keeps ..
  case doorbellMap => exact execDoorbellMap_keeps ..
  case systemEvent => exact execSystemEvent_keeps ..
  case linkFlitRetry => exact execLinkFlitRetry_keeps ..
  case linkDown => exact execLinkDown_keeps ..
  case linkLaneLoss => exact execLinkLaneLoss_keeps ..
  case li => exact execLi_keeps ..
  case idle => exact execIdle_keeps ..
  case mov => exact execMov_keeps ..
  case drop => exact execDrop_keeps ..
  case qcnt => exact execQcnt_keeps ..
  case qclr => exact execQclr_keeps ..
  case brc => exact execBrc_keeps ..
  case br => exact execBr_keeps ..
  case grd => exact execGrd_keeps ..
  case loop => exact execLoop_keeps ..
  case call => exact execCall_keeps ..
  case seg => exact execSeg_keeps ..
  case segend => exact execSegend_keeps ..
  case slath => exact execSlath_keeps ..
  case tbrd => exact execTbrd_keeps ..
  case wbrd => exact execWbrd_keeps ..
  case phase => exact execPhase_keeps ..
  case waitq => exact execWaitq_keeps ..
  case waitf => exact execWaitf_keeps ..
  case openS => exact execOpenS_keeps ..
  case close => exact execClose_keeps ..
  case sadv => exact execSadv_keeps ..
  case srew => exact execSrew_keeps ..
  case sstat => exact execSstat_keeps ..
  case stq => exact execStq_keeps ..
  case rstq => exact execRstq_keeps ..
  case migr => exact execMigr_keeps ..
  case austat => exact execAustat_keeps ..
  case flagrd => exact execFlagrd_keeps ..
  case flagset => exact execFlagset_keeps ..
  case vunpk3 => exact execVunpk3_keeps ..
  case vtoq => exact execVtoq_keeps ..
  case vfromq => exact execVfromq_keeps ..
  case accmv => exact execAccmv_keeps ..
  case accrd => exact execAccrd_keeps ..
  case estep => exact execEstep_keeps ..
  case resume => exact execResume_keeps ..
  case eabort => exact execEabort_keeps ..
  case stbind => exact execStbind_keeps ..
  case stclr => exact execStclr_keeps ..
  case strd => exact execStrd_keeps ..
  case stmerge => exact execStmerge_keeps ..
  case stgen => exact execStgen_keeps ..
  case stset => exact execStset_keeps ..
  case mcstat => exact execMcstat_keeps ..
  case colstart => exact execColstart_keeps ..
  case colstat => exact execColstat_keeps ..
  case colabort => exact execColabort_keeps ..
  case csrrd => exact execCsrrd_keeps ..
  case csrwr => exact execCsrwr_keeps ..
  case trap => exact execTrap_keeps ..
  case tret => exact execTret_keeps ..
  case ctxrd => exact execCtxrd_keeps ..
  case ctxwr => exact execCtxwr_keeps ..
  case snap => exact execSnap_keeps ..
  case fence => exact execFence_keeps ..
  case halt => exact execHalt_keeps ..
  case mtlbinv => exact execMtlbinv_keeps ..
  case mtlbwr => exact execMtlbwr_keeps ..
  case lptwr => exact execLptwr_keeps ..
  case mcAct => exact execMcAct_keeps ..
  case mcRd => exact execMcRd_keeps ..
  case mcPre => exact execMcPre_keeps ..
  case mcPrea => exact execMcPrea_keeps ..
  case mcRefpb => exact execMcRefpb_keeps ..
  case mcRefab => exact execMcRefab_keeps ..
  case mcTag => exact execMcTag_keeps ..
  case mcBind => exact execMcBind_keeps ..
  case mcSvw => exact execMcSvw_keeps ..
  case mcLoop => exact execMcLoop_keeps ..
  case mcEnd => exact execMcEnd_keeps ..
  case mcDly => exact execMcDly_keeps ..
  case cxNop => exact execCxNop_keeps ..
  case cxSend => exact execCxSend_keeps ..
  case cxRecv => exact execCxRecv_keeps ..
  case cxRrs => exact execCxRrs_keeps ..
  case cxCopy => exact execCxCopy_keeps ..
  case cxRed => exact execCxRed_keeps ..
  case cxWaitDelivery => exact execCxWaitDelivery_keeps ..
  case cxWaitFlag => exact execCxWaitFlag_keeps ..
  case cxLoop => exact execCxLoop_keeps ..
  case cxPeer => exact execCxPeer_keeps ..
  case cxMcast => exact execCxMcast_keeps ..
  case cxDone => exact execCxDone_keeps ..
  case operandTap => exact execOperandTap_keeps ..
  case colabortArrival => exact execColabortArrival_keeps ..
  all_goals cases h

/-- Settles O59: each instruction and event outside the list by the frame lemma of its meaning. -/
theorem memoryFrame : Obligations.MemoryFrame := by
  intro i s t hstore hpower hexec
  have hkeeps := exec_keeps i s hstore hpower
  rwa [hexec] at hkeeps

end Sys2Proof.Machine
end

section
/-! PROOFS. What writes memory keeps its canonical form: the events that store, land, move or copy (R53, R56, R206, R303). -/

namespace Sys2Proof.Machine
open Sys2Proof.Claims

/-! ## The invariant of a state and of an outcome -/

theorem State.Inv.of_mem {s t : State} (hs : s.Inv) (h : t.mem = s.mem) : t.Inv := by
  rw [State.Inv, h]
  exact hs

/-- The state that an outcome goes on with, if any, is in the invariant. -/
def OutcomeInv : Host.Outcome State Fault Refusal → Prop
  | .next t => t.Inv
  | _ => True

@[simp] theorem OutcomeInv.next_iff (t : State) : OutcomeInv (.next t) ↔ t.Inv := Iff.rfl

theorem KeepsMem.outcomeInv {s : State} {o : Host.Outcome State Fault Refusal} (h : KeepsMem s o) (hs : s.Inv) : OutcomeInv o := by
  cases o with
  | next t => exact hs.of_mem h
  | fault | refused => trivial

theorem Yields.inv {s : State} {r : Res State} (h : Yields (fun t => t.mem = s.mem) r) (hs : s.Inv) : Yields State.Inv r :=
  h.mono fun _ ht => hs.of_mem ht

theorem foldl_inv {α : Type} (f : State → α → State) (hf : ∀ t x, t.Inv → (f t x).Inv) (l : List α) {s : State} (hs : s.Inv) : (l.foldl f s).Inv :=
  foldl_keeps State.Inv f hf l s hs

theorem foldlM_inv {α : Type} (f : State → α → Res State) (hf : ∀ t x, t.Inv → Yields State.Inv (f t x)) (l : List α) {s : State}
    (hs : s.Inv) : Yields State.Inv (l.foldlM f s) := by
  induction l generalizing s with
  | nil => exact hs
  | cons x l ih => exact .bind_of (hf s x hs) fun t ht => ih ht

theorem ite_inv {c : Prop} [Decidable c] {s t : State} (hs : s.Inv) (ht : t.Inv) : (if c then s else t).Inv := by
  split
  · exact hs
  · exact ht

/-- An instruction whose body keeps the invariant does so, whatever its checks find. -/
theorem issue_inv {s : State} (r : IssueRule) {body : State → Res (State × Flow)} (hs : s.Inv)
    (h : ∀ u : State, u.Inv → Yields (fun x => x.1.Inv) (body u)) : OutcomeInv (issue s r body) := by
  have hbody : Yields (fun x => x.1.Inv) (body (if s.onSys || !r.signs then s else signWords s r.words)) :=
    h _ (ite_inv hs (hs.of_mem (signWords_mem ..)))
  unfold issue
  split
  · exact hs.of_mem (by simp [apply_ite])
  · dsimp only
    split
    next t fl hgo =>
      have ht : t.Inv := (hbody.lowerClass _).of_ok hgo
      exact ht.of_mem (flowOn_mem ..)
    next st _ =>
      split
      · cases st
        case trap => exact hs.of_mem (sysTrap_mem ..)
        case fault | hold => exact hs
      · exact hs.of_mem (takeStop_mem ..)

theorem issue1_inv {s : State} (ok : Bool) {body : State → Res State} (hs : s.Inv) (h : ∀ u : State, u.Inv → Yields State.Inv (body u)) :
    OutcomeInv (issue1 s ok body) :=
  issue_inv _ hs fun u hu => (Yields.bind_iff ..).mpr (h u hu)

theorem evRes_inv {s : State} {r : Res State} (hs : s.Inv) (h : Yields State.Inv r) : OutcomeInv (evRes s r) := by
  unfold evRes
  split
  · exact h
  · exact hs.of_mem (takeStop_mem ..)

/-! ## Bytes, elements, rows and columns -/

section
variable {s : State} (hs : s.Inv)
include hs

theorem writeSp_inv (core a : Nat) (bs : List Byte) : (s.writeSp core a bs).Inv := Memory.wf_writeN _ _ _ hs

theorem permWrite_inv (core perm a : Nat) (bs : List Byte) : (permWrite s core perm a bs).Inv := by
  unfold permWrite
  split
  · exact writeSp_inv hs ..
  · exact foldl_inv _ (fun _ _ ht => writeSp_inv ht ..) _ hs

theorem entryWrite_inv (core : Nat) (l : Layout) (a : Nat) (bs : List Byte) : (entryWrite s core l a bs).Inv := by
  unfold entryWrite
  split
  · exact permWrite_inv hs ..
  · exact Memory.wf_writeN _ _ _ hs

theorem writeElem_inv (core : Nat) (l : Layout) (n v : Nat) : (writeElem s core l n v).Inv := entryWrite_inv hs ..

theorem writeRows_inv (core tile i : Nat) (es : List Nat) : (writeRows s core tile i es).Inv := Memory.wf_writeN _ _ _ hs

theorem writeTileElem_inv (core tile i j v : Nat) : (writeTileElem s core tile i j v).Inv := Memory.wf_writeN _ _ _ hs

theorem markDirty_inv (tile : Nat) : (markDirty s tile).Inv := by
  unfold markDirty
  dsimp only
  split
  · exact hs
  · exact Memory.wf_writeN _ _ _ hs

theorem markRows_inv (keys full : List Nat) (poison : Option Nat) : (markRows s keys full poison).Inv := hs

theorem writeColumn_inv (n key issue : Nat) (data : List Byte) (poison : Option Nat) : (writeColumn s n key issue data poison).Inv := by
  unfold writeColumn
  dsimp only
  split
  · exact Memory.wf_writeN _ _ _ hs
  · exact hs

end

/-! ## Streams, results and steps of commands -/

theorem execAccwr_inv (f : FAB) {s : State} (hs : s.Inv) : OutcomeInv (execAccwr f s) := by
  unfold execAccwr
  refine issue1_inv _ hs fun u hu => .bind fun vs => ?_
  split
  · exact .bind_of ((accAccess_yields ..).inv hu) fun t ht =>
      writeTileElem_inv (markDirty_inv (ht.of_mem (popSrcs_mem ..)) _) ..
  · exact hu

theorem execAccz_inv (f : FT) {s : State} (hs : s.Inv) : OutcomeInv (execAccz f s) := by
  unfold execAccz
  exact issue_inv _ hs fun u hu => .bind fun _ => writeRows_inv (markDirty_inv hu _) ..

@[simp] theorem storeContribution_mem (s : State) (l : Layout) (xs scales : List (Nat × Nat)) : (storeContribution s l xs scales).mem = s.mem := by
  unfold storeContribution
  split <;> simp

theorem streamStore_inv {s : State} (hs : s.Inv) (n : Nat) (st : Strm) : Yields State.Inv (streamStore s n st) := by
  have hbanks : ∀ bs : List Nat, Yields State.Inv (useBanks s bs) := fun bs => (useBanks_yields s bs none).inv hs
  unfold streamStore
  dsimp only
  split
  · trivial
  · refine .check (.check (.bind fun _ => .bind fun _ => ?_))
    split
    · exact .bind fun _ => .bind fun _ => .bind_of (hbanks _) fun t ht => .of_mem (markRows_inv (foldl_inv _ (fun _ _ h => permWrite_inv h ..) _
        (foldl_inv _ (fun _ _ h => writeElem_inv h ..) _ (foldl_inv _ (fun _ _ h => markDirty_inv h _) _ ht))) ..) (storeContribution_mem ..)
    · exact .bind_of (hbanks _) fun t ht => .of_mem (markRows_inv (foldl_inv _ (fun _ _ h => permWrite_inv h ..) _
        (foldl_inv _ (fun _ _ h => writeElem_inv h ..) _ ht)) ..) (storeContribution_mem ..)

theorem execStreamStore_inv {s : State} (hs : s.Inv) : OutcomeInv (execStreamStore s) := by
  unfold execStreamStore
  split
  · exact hs
  · split
    · exact hs
    · exact evRes_inv hs (streamStore_inv hs ..)

theorem undoCopy_yields (s : State) (g : Nat) : Yields (fun t => t.mem = s.mem) (undoCopy s g) := by
  unfold undoCopy
  simp

theorem atomicWrite_inv {s : State} (hs : s.Inv) (x : Atomic) : Yields State.Inv (atomicWrite s x) := by
  unfold atomicWrite
  split
  · exact hs
  · exact .bind_of ((undoCopy_yields ..).inv hs) fun t ht => permWrite_inv ht ..

theorem settleAtomics_inv {s : State} (hs : s.Inv) (perm a n : Nat) : Yields State.Inv (settleAtomics s perm a n) := by
  refine foldlM_inv _ (fun t x ht => ?_) _ hs
  exact .bind_of (atomicWrite_inv ht x) fun u hu => hu

theorem performFlights_yields (s : State) (issue : Nat) : Yields (fun t => t.mem = s.mem) (performFlights s issue) :=
  .bind fun _ => rfl

theorem writeTile_inv {s : State} (hs : s.Inv) (x : Cmd) (r : List Nat × Nat) : (writeTile s x r).Inv := by
  have h : (if x.wrote then s else markRows (writeRows (markDirty s x.tile) s.curCore x.tile x.supers
      (((layOver x.supers x.skip r.1 (readRows s s.curCore x.tile 0 64)).take r.1.length).drop (64 * x.supers)))
      (((List.range (r.1.length / 32)).filter (fun i => decide (2 * x.supers ≤ i))).map (fun i => rowKey 1 (16384 * x.tile + 128 * i)))
      (((List.range (r.1.length / 32)).filter (fun i => decide (2 * x.supers ≤ i))).map (fun i => rowKey 1 (16384 * x.tile + 128 * i)))
      none).Inv :=
    ite_inv hs (markRows_inv (writeRows_inv (markDirty_inv hs _) ..) ..)
  exact h

theorem cmdFinish_inv {s : State} (hs : s.Inv) (x : Cmd) : Yields State.Inv (cmdFinish s x) := by
  unfold cmdFinish
  dsimp only
  split
  case h_1 =>
    split
    · split
      · trivial
      · exact hs
    · exact hs
  case h_2 => exact (Yields.ite_iff ..).mpr ⟨fun _ => hs, fun _ => hs⟩
  case h_3 | h_4 | h_5 => exact (Yields.ite_iff ..).mpr ⟨fun _ => writeTile_inv hs .., fun _ => hs⟩
  case h_6 => exact hs

theorem execResultPerform_inv {s : State} (hs : s.Inv) : OutcomeInv (execResultPerform s) := by
  have hres : Yields State.Inv (do
      let t ← performFlights s s.ev.a
      (t.cur.cmds.filter (fun x => x.issue == s.ev.a)).foldlM cmdFinish t : Res State) :=
    .bind_of ((performFlights_yields ..).inv hs) fun t ht => foldlM_inv _ (fun _ x hu => cmdFinish_inv hu x) _ ht
  unfold execResultPerform
  dsimp only
  split
  · split
    next t ht => exact hres.of_ok ht
    next => exact hs.of_mem (takeStop_mem ..)
    next => exact hs.of_mem (takeStop_mem ..)
  · split
    · exact evRes_inv hs (atomicWrite_inv hs _)
    · exact hs

theorem factRead_mem (s : State) (x : Cmd) (trap : Bool) (k : Nat) : (factRead s x trap k).mem = s.mem := by
  unfold factRead
  dsimp only
  split
  · exact takeStop_mem ..
  · split
    · exact takeStop_mem ..
    · exact takeStop_mem ..
    · split
      · exact takeStop_mem ..
      · rfl

theorem factWrite_inv {s : State} (hs : s.Inv) (x : Cmd) (k : Nat) : (factWrite s x k).Inv := by
  have h : ((if x.wrote then [] else x.out.filter (fun p => decide (64 * x.supers ≤ p.1))).foldl
      (fun s p => writeTileElem s s.curCore x.target (p.1 / 64) (p.1 % 64) p.2) (markDirty s x.target)).Inv :=
    foldl_inv _ (fun _ _ ht => writeTileElem_inv ht ..) _ (markDirty_inv hs _)
  exact h

theorem execFactStep_inv {s : State} (hs : s.Inv) : OutcomeInv (execFactStep s) := by
  unfold execFactStep
  dsimp only
  split
  · exact hs
  · split
    · exact hs
    · split
      · exact hs.of_mem (factRead_mem ..)
      · split
        · exact factWrite_inv hs ..
        · exact hs

/-! ## Arrivals, landings and data moves -/

theorem lostOfRun_mem (s : State) (x : Arrival) : (lostOfRun s x).mem = s.mem := by
  unfold lostOfRun
  split
  · rfl
  · split <;> simp

theorem spoilRun_mem (s : State) (x : Arrival) (st : Stop) : (spoilRun s x st).mem = s.mem := by
  unfold spoilRun
  split
  · split
    · exact lostOfRun_mem ..
    · rfl
  · rfl

theorem noteBarrier_mem (s : State) (x : Arrival) : (noteBarrier s x).mem = s.mem := by
  unfold noteBarrier
  split
  · rfl
  · dsimp only
    split <;> simp

theorem loseInbound_mem (s : State) (n : Nat) (x : Arrival) (slot : Option (Nat × Nat)) : (loseInbound s n x slot).mem = s.mem := rfl

theorem applyWord_inv {s : State} (hs : s.Inv) (x : Arrival) (slot : Option (Nat × Nat)) (timed : Bool) :
    Yields State.Inv (applyWord s x slot timed) := by
  have hput : ∀ t : State, t.Inv → ∀ (data : List Byte) (keys full : List Nat),
      (match x.tag with
        | some tag => (markRows (permWrite t s.curCore x.perm x.addr data) keys full x.poison).modCore
            (fun k => { k with tags := k.tags.set x.gran tag })
        | none => markRows (permWrite t s.curCore x.perm x.addr data) keys full x.poison).Inv := by
    intro t ht data keys full
    have hrow : (permWrite t s.curCore x.perm x.addr data).Inv := permWrite_inv ht ..
    split <;> exact hrow
  unfold applyWord
  dsimp only
  split
  · exact hs
  · refine .bind fun _ => ?_
    split
    case' isTrue => refine .bind_of ((undoCopy_yields ..).inv hs) fun t ht => ?_
    case' isFalse => refine .bind_of (Q := State.Inv) hs fun t ht => ?_
    all_goals
      split
      · exact .bind_of ((useBanks_yields ..).inv ht) fun u hu => hput u hu ..
      · exact .bind_of (settleAtomics_inv ht ..) fun u hu => hput u hu ..

theorem plainApply_inv {s : State} (hs : s.Inv) (n : Nat) (x : Arrival) (timed : Bool) : (plainApply s n x timed).1.Inv := by
  unfold plainApply
  split
  next t ht => exact (applyWord_inv (s := takeInbound s n x) hs ..).of_ok ht
  next =>
    split
    · exact hs
    · exact hs

theorem reduceApply_inv {s : State} (hs : s.Inv) (n : Nat) (x : Arrival) (p : Nat × Nat) (timed : Bool) :
    (reduceApply s n x p timed).1.Inv := by
  unfold reduceApply
  dsimp only
  split
  next t ht => exact (applyWord_inv (s := s.modCore _) hs ..).of_ok ht
  next =>
    split
    · exact hs
    · exact hs

theorem admitArrival_mem (s : State) (n : Nat) (x : Arrival) : (admitArrival s n x).mem = s.mem := by
  unfold admitArrival
  dsimp only
  split
  · rfl
  · split <;> rfl

theorem arrivalDone_inv {s : State} (hs : s.Inv) (x : Arrival) {r : State × Option Stop} (hr : r.1.Inv) : OutcomeInv (arrivalDone s x r) := by
  unfold arrivalDone
  split
  · exact hr.of_mem (noteBarrier_mem ..)
  · split
    · exact hs
    · exact hr.of_mem ((takeStop_mem ..).trans (spoilRun_mem ..))

theorem execPlainArrivalApply_inv {s : State} (hs : s.Inv) : OutcomeInv (execPlainArrivalApply s) := by
  have hcore : ({ s with curCore := s.ev.a } : State).Inv := hs
  unfold execPlainArrivalApply
  dsimp only
  split
  · exact hs
  · split
    · exact hs
    · exact arrivalDone_inv hcore _ (plainApply_inv hcore ..)

theorem execReducingWriteApply_inv {s : State} (hs : s.Inv) : OutcomeInv (execReducingWriteApply s) := by
  have hcore : ({ s with curCore := s.ev.a } : State).Inv := hs
  unfold execReducingWriteApply
  dsimp only
  split
  · split
    · exact hs
    · split
      · exact hcore.of_mem (admitArrival_mem ..)
      · exact hs
  · split
    · exact hs
    · split
      · exact ite_inv (s := dropWaiting _ _ _) hs hs
      · exact arrivalDone_inv hcore _ (reduceApply_inv hcore ..)

theorem landLine_inv {s : State} (hs : s.Inv) (r : AuReq) (timed : Bool) : Yields State.Inv (landLine s r timed) := by
  unfold landLine
  dsimp only
  split
  · exact hs
  · refine .bind fun _ => ?_
    split
    · exact .bind_of ((useBanks_yields ..).inv hs) fun t ht => writeSp_inv ht ..
    · exact .bind_of (settleAtomics_inv hs ..) fun t ht => writeSp_inv ht ..

theorem landNow_inv {s : State} (hs : s.Inv) (r : AuReq) (timed : Bool) : Yields State.Inv (landNow s r timed) := by
  unfold landNow
  dsimp only
  split
  · exact .bind_of (landLine_inv hs ..) fun t ht => ht
  · exact hs

theorem landEvent_inv {s : State} (hs : s.Inv) (fill : Bool) : OutcomeInv (landEvent s fill) := by
  unfold landEvent
  dsimp only
  split
  · exact hs
  · split
    · exact hs
    next r _ =>
      have hland := landNow_inv (s := ({ s with curCore := s.ev.a / 4 } : State).modCur (fun c => noteGap c r.seqNo)) hs r (s.ev.d == 1)
      split
      next t ht => exact hland.of_ok ht
      next =>
        split
        · exact hs
        · exact hs.of_mem (takeStop_mem ..)

theorem rdLand_inv {s : State} (hs : s.Inv) (n : Nat) (m : Move) : Yields State.Inv (rdLand s n m) := by
  unfold rdLand
  split
  · exact hs
  · exact .bind fun _ => .bind_of ((useBanks_yields ..).inv hs) fun t ht => markRows_inv (writeSp_inv (s := dropMove t n) ht ..) ..

theorem execMcRdData_inv {s : State} (hs : s.Inv) : OutcomeInv (execMcRdData s) := by
  unfold execMcRdData
  split
  · exact evRes_inv hs (rdLand_inv hs ..)
  · exact hs

theorem wrTake_inv {s : State} (hs : s.Inv) (n : Nat) (m : Move) : Yields State.Inv (wrTake s n m) := by
  refine .bind fun _ => .bind_of ((useBanks_yields ..).inv hs) fun t ht => ?_
  dsimp only
  split
  · exact ht
  · split
    · exact ht
    · exact writeColumn_inv (s := dropMove t n) ht ..

theorem execMcWrTake_inv {s : State} (hs : s.Inv) : OutcomeInv (execMcWrTake s) := by
  unfold execMcWrTake
  split
  · exact evRes_inv hs (wrTake_inv hs ..)
  · exact hs

theorem pageLand_inv {s : State} (hs : s.Inv) (n i : Nat) (m : McMsg) : Yields State.Inv (pageLand s n i m) :=
  .bind fun _ => .bind_of ((useBanks_yields ..).inv hs) fun t ht => markRows_inv (writeSp_inv (s := t.setEngOf _ _) ht ..) ..

theorem execMcstatPageWrite_inv {s : State} (hs : s.Inv) : OutcomeInv (execMcstatPageWrite s) := by
  unfold execMcstatPageWrite
  split
  · split
    · exact evRes_inv hs (pageLand_inv hs ..)
    · exact hs
  · exact hs

theorem execMcWr_inv (f : FMcCol) {s : State} (hs : s.Inv) : OutcomeInv (execMcWr f s) := by
  unfold execMcWr mcWord
  split
  · exact hs
  · dsimp only
    split
    · exact writeColumn_inv hs ..
    · show (sendTake _ _ _).Inv
      unfold sendTake
      split
      · exact hs
      · exact writeColumn_inv hs ..

end Sys2Proof.Machine
end

section
/-! PROOFS. Phase cancels, save areas, paged space, launches and boot keep the canonical form of memory; with the frame of O59, every instruction and every
event does (R20, R303, R318, R381, R393, R405, R412). -/

namespace Sys2Proof.Machine
open Sys2Proof.Claims

/-! ## The cancel of a phase (R393) -/

theorem cancelCore_inv {s : State} (hs : s.Inv) (slot ph pc core : Nat) : (cancelCore s slot ph pc core).Inv := by
  unfold cancelCore
  dsimp only
  split
  · exact hs
  · exact Memory.wf_foldl_writeN _ _ _ _ (Memory.wf_foldl_writeN _ _ _ _ hs)

theorem cancelPhase_inv {s : State} (hs : s.Inv) (p slot f t cause : Nat) : (cancelPhase s p slot f t cause).Inv := by
  unfold cancelPhase
  split
  · exact hs
  next ph pc _ =>
    have hcores : ∀ (l : List Nat) (u : State), u.Inv → (l.foldl (fun s c => cancelCore s slot ph pc c) u).Inv :=
      fun l u hu => foldl_inv _ (fun _ _ ht => cancelCore_inv ht ..) l hu
    exact hcores _ _ hs

theorem execPhaseCancel_inv {s : State} (hs : s.Inv) : OutcomeInv (execPhaseCancel s) := by
  unfold execPhaseCancel
  dsimp only
  split
  · split
    · exact hs
    · exact cancelPhase_inv hs ..
  · exact hs

/-! ## Save areas (R381) -/

theorem execSaveComplete_inv {s : State} (hs : s.Inv) : OutcomeInv (execSaveComplete s) := by
  have hareas : ∀ (p slot no : Nat) (cores : List Nat) (u : State), u.Inv → (cores.foldl (fun s c => writeArea s p slot no c) u).Inv :=
    fun p slot no cores u hu => foldl_inv _ (fun _ _ ht => writeArea_wf _ _ _ _ _ ht) cores hu
  have hfree : ∀ (slot : Nat) (cores : List Nat) (u : State), u.Inv →
      (cores.foldl (fun s c => (s.setCore c (coreFree (s.core c) slot)).setCtx c slot (ctxSaved (ctxFree (s.ctxOf c slot)))) u).Inv :=
    fun slot cores u hu => by
      refine foldl_inv _ (fun t c ht => ?_) cores hu
      exact ht
  unfold execSaveComplete
  dsimp only
  split
  · exact hs
  · split
    · exact hs
    · split
      · exact hs
      · exact hfree _ _ _ (hareas _ _ _ _ _ hs)

theorem restoreCore_inv {s : State} (hs : s.Inv) (p slot : Nat) (x : SavedCore) : (restoreCore s p slot x).Inv :=
  putCode_wf _ _ _ _ (Memory.wf_foldl_writeN _ _ _ _ (Memory.wf_writeN _ _ _ (Memory.wf_writeN _ _ _ hs)))

theorem execRestoreComplete_inv {s : State} (hs : s.Inv) : OutcomeInv (execRestoreComplete s) := by
  have hcores : ∀ (p slot : Nat) (xs : List SavedCore), (xs.foldl (fun s x => restoreCore s p slot x) s).Inv :=
    fun p slot xs => foldl_inv _ (fun _ _ ht => restoreCore_inv ht ..) xs hs
  unfold execRestoreComplete
  dsimp only
  split
  · exact hs
  · split
    · exact hs
    · exact hcores ..

/-! ## Paged space (R317, R318) -/

theorem performAu_inv {s : State} (hs : s.Inv) (key : Nat) (r : AuReq) (part : Nat) : (performAu s key r part).Inv := by
  unfold performAu
  dsimp only
  split
  · exact pageWrite_wf _ _ _ _ hs
  · exact pageWrite_wf _ _ _ _ hs
  · exact hs
  · exact hs

theorem performExt_inv {s : State} (hs : s.Inv) (die : Nat) (q : ExtReq) (part : Nat) : (performExt s die q part).Inv := by
  have hwrite : (match q.op with
      | .store => markLines (pageWrite s die (partSpan q.va q.size part).1 (bytesOf (partSpan q.va q.size part).2
          (q.value / 2 ^ (8 * ((partSpan q.va q.size part).1 - vaOff q.va))))) die (partSpan q.va q.size part).1 (partSpan q.va q.size part).2 q.poison
      | .atomic => markLines (pageWrite s die (partSpan q.va q.size part).1 (bytesOf 8
          (pagedNew (ofBytes (pageRead s die (partSpan q.va q.size part).1 (partSpan q.va q.size part).2)) q.value (q.cas.getD 0) q.cas.isSome)))
          die (partSpan q.va q.size part).1 (partSpan q.va q.size part).2 q.poison
      | _ => s).Inv := by
    split
    · exact pageWrite_wf _ _ _ _ hs
    · exact pageWrite_wf _ _ _ _ hs
    · exact hs
  unfold performExt
  dsimp only
  split
  · split
    · exact hwrite
    · exact hwrite
  · exact hwrite

theorem secondWrite_mem (s : State) (die off : Nat) : (secondWrite s die off).mem = s.mem := by
  unfold secondWrite
  dsimp only
  split
  · rfl
  · split
    · rfl
    · split <;> rfl

theorem alsoNew_mem (s : State) (die : Nat) (x : PagedPart) : (alsoNew s die x).mem = s.mem := by
  unfold alsoNew
  split
  · split
    · exact secondWrite_mem ..
    · rfl
  · rfl

theorem performHead_inv {s : State} (hs : s.Inv) (n : Nat) : (performHead s n).Inv := by
  unfold performHead
  split
  · exact hs
  next x _ =>
    split
    · exact hs
    next e _ =>
      have hserved : (alsoNew (s.setEngOf n { e with queue := e.queue.erase x, paged := min (e.paged + 1) 0xFFFFFFFF }) (engDie n) x).Inv :=
        hs.of_mem (alsoNew_mem ..)
      dsimp only
      split
      · split
        · exact performExt_inv hserved ..
        · exact hserved
      · split
        · exact performAu_inv hserved ..
        · exact hserved

theorem performFar_mem (s : State) (key n : Nat) : (performFar s key n).mem = s.mem := by
  unfold performFar
  split
  · rfl
  · split <;> rfl

theorem performFarExt_mem (s : State) (die n : Nat) : (performFarExt s die n).mem = s.mem := by
  unfold performFarExt
  split
  · rfl
  · split
    · rfl
    · dsimp only
      split <;> rfl

theorem execPagedRequestPerform_inv {s : State} (hs : s.Inv) : OutcomeInv (execPagedRequestPerform s) := by
  unfold execPagedRequestPerform
  split
  · exact performHead_inv hs _
  · exact hs.of_mem (performFar_mem ..)
  · exact hs.of_mem (performFarExt_mem ..)

theorem execMigrationLineCopy_inv {s : State} (hs : s.Inv) : OutcomeInv (execMigrationLineCopy s) := by
  unfold execMigrationLineCopy
  dsimp only
  split
  · exact hs
  · split
    · exact hs
    · exact Memory.wf_foldl_writeN _ _ _ _ hs

/-! ## Launches and ends of tasks (R20–R23) -/

theorem completionBytes_mem (s : State) (t : Task) (status : Nat) (tb0 halt wall : Option Nat) :
    (completionBytes s t status tb0 halt wall).2.mem = s.mem := by
  unfold completionBytes
  cases tb0 <;> cases halt <;> cases wall <;> rfl

theorem launchFails_inv {s : State} (hs : s.Inv) (t : Task) (status : Nat) : (launchFails s t status).Inv := by
  unfold launchFails
  split
  · exact writeVa_wf _ _ _ (hs.of_mem (completionBytes_mem ..))
  · exact hs

theorem loadSection_inv {s : State} (hs : s.Inv) (p slot : Nat) (x : Section) : (loadSection s p slot x).Inv := by
  unfold loadSection
  dsimp only
  split
  · exact Memory.wf_writeN _ _ _ hs
  · exact hs
  · exact hs
  · exact hs
  · exact writeSp_inv hs ..

theorem launchTask_inv {s : State} (hs : s.Inv) (p slot : Nat) (bs : List Nat) (secs : List Section) (fault : Bool) :
    (launchTask s p slot bs secs fault).Inv := by
  have hload : ∀ (cores : List Nat), (secs.foldl (fun s x => if cores.contains (32 * p + x.rank) then loadSection s p slot x else s) s).Inv :=
    fun cores => foldl_inv _ (fun _ _ ht => ite_inv (loadSection_inv ht ..) ht) secs hs
  have hctxs : ∀ (cs : NMap Ctx) (u : State), u.Inv → (cs.foldl (fun (s : State) (x : Nat × Ctx) => s.setCtx (32 * p + x.1) slot x.2) u).Inv :=
    fun cs u hu => by
      refine foldl_inv _ (fun t x ht => ?_) cs hu
      exact ht
  unfold launchTask
  dsimp only
  split
  · exact launchFails_inv hs ..
  · split
    · exact launchFails_inv (hload _) ..
    next cs _ =>
      have hset := hctxs cs _ (hload (packetTask p s.wb bs).cores)
      split
      · exact hset.of_mem ((mapEngs_mem ..).trans (runOn_mem ..))
      · exact hset

theorem execLaunch_inv {s : State} (hs : s.Inv) : OutcomeInv (execLaunch s) := by
  unfold execLaunch
  dsimp only
  split
  · exact hs
  next x _ =>
    split
    · split
      · exact hs
      · exact hs
    · split
      · exact hs
      · generalize hu : s.setPart s.ev.a { s.part s.ev.a with
            queue := (s.part s.ev.a).queue.filter fun y => y.2.1 != x.2.1, headTold := (s.part s.ev.a).headTold.filter fun n => n != x.2.1 } = u
        have hui : u.Inv := hu ▸ hs
        split
        · exact launchFails_inv hui _ _
        · split
          · exact launchFails_inv hui _ _
          · split
            · exact launchTask_inv hui _ _ _ _ _
            · trivial

theorem endTask_inv {s : State} (hs : s.Inv) (p slot status : Nat) : (endTask s p slot status).Inv := by
  have hcores : ∀ (cores : List Nat) (u : State), u.Inv → (cores.foldl (fun s c => s.setCore c (coreFree (s.core c) slot)) u).Inv :=
    fun cores u hu => by
      refine foldl_inv _ (fun t c ht => ?_) cores hu
      exact ht
  have hengs : ∀ (ns : List Nat) (u : State), u.Inv → (ns.foldl (fun s n =>
      if (s.part p).runSlot = some slot then s.setEngOf n (engDone s.wb (s.engOf n))
      else { s with engSaved := s.engSaved.erase (n * 4 + slot) }) u).Inv :=
    fun ns u hu => by
      refine foldl_inv _ (fun t n ht => ?_) ns hu
      exact ite_inv ht ht
  unfold endTask
  dsimp only
  split
  · exact hs
  · exact hengs _ _ (hcores _ _ (ite_inv (writeVa_wf _ _ _ (hs.of_mem (completionBytes_mem ..))) hs))

theorem execTaskCompletion_inv {s : State} (hs : s.Inv) : OutcomeInv (execTaskCompletion s) := by
  unfold execTaskCompletion
  dsimp only
  split
  · exact endTask_inv hs ..
  · exact hs

theorem ctxSwitch_mem (s : State) (p slot : Nat) : (ctxSwitch s p slot).mem = s.mem := by
  unfold ctxSwitch
  dsimp only
  split
  · rfl
  · split <;> rfl

theorem ctxRelease_mem (s : State) (p slot : Nat) : (ctxRelease s p slot).mem = s.mem := mapCtxs_mem ..

theorem ctxswOp_inv {s : State} (hs : s.Inv) (a : Nat) : (ctxswOp s a).Inv := by
  unfold ctxswOp
  dsimp only
  split
  · exact hs
  · split
    · exact ite_inv hs (hs.of_mem (ctxSwitch_mem ..))
    · exact ite_inv (s := s.setPart _ _) hs hs
    · exact ite_inv (s := s.setPart _ _) hs hs
    · exact hs.of_mem (ctxRelease_mem ..)
    · exact endTask_inv hs ..
    · exact ite_inv (s := s.setDom _ _ _) hs hs
    · exact hs

theorem ctxsw_inv (f : FA) {s : State} (hs : s.Inv) : OutcomeInv (ctxsw f s) := by
  unfold ctxsw
  refine issue_inv _ hs fun u hu => ?_
  split
  · exact ctxswOp_inv hu _
  · split <;> trivial

/-! ## Boot and power (R405, R411, R412) -/

theorem bootRun_inv {s : State} (hs : s.Inv) (xs : List Nat) (failed : Bool) : (bootRun s xs failed).Inv := by
  have htiming : ∀ (ts : List (List Nat)) (u : State), u.Inv → (ts.foldl addTiming u).Inv :=
    fun ts u hu => by
      refine foldl_inv _ (fun t x ht => ?_) ts hu
      exact ht
  have hwords : ∀ (ws : List (List Nat)) (u : State), u.Inv → (ws.foldl addSysWord u).Inv :=
    fun ws u hu => by
      refine foldl_inv _ (fun t w ht => ?_) ws hu
      exact Memory.wf_writeN _ _ _ ht
  have hparts : ∀ (ps : List (List Nat)) (u : State), u.Inv → (ps.foldl addPart u).Inv :=
    fun ps u hu => foldl_inv _ (fun t x ht => by unfold addPart; exact ite_inv ht ht) ps hu
  have hframes : ∀ (fs : List (List Nat)) (u : State), u.Inv → (fs.foldl addFrames u).Inv :=
    fun fs u hu => foldl_inv _ (fun t x ht => by unfold addFrames; exact ite_inv (s := t.setPart _ _) ht ht) fs hu
  unfold bootRun
  dsimp only
  split
  · exact hs
  · exact hframes _ _ (hparts _ _ (hwords _ _ (htiming _ _ hs)))

theorem execBoot_inv {s : State} (hs : s.Inv) : OutcomeInv (execBoot s) := by
  unfold execBoot
  split
  · exact bootRun_inv (s := { s with pkg := { s.pkg with pkg := s.ev.d % 64 } }) hs _ _
  · exact hs

theorem execRecoveryImage_inv {s : State} (hs : s.Inv) : OutcomeInv (execRecoveryImage s) := by
  unfold execRecoveryImage
  split
  · exact bootRun_inv hs ..
  · exact hs

theorem reset_inv : State.reset.Inv := by
  unfold State.Inv
  rfl

theorem holdAll_mem (s : State) (kind : Nat) : (holdAll s kind).mem = s.mem := by
  refine foldl_mem _ (fun t p => ?_) _ _
  split
  · rfl
  · split <;> rfl

theorem powerAct_inv {s : State} (hs : s.Inv) (t w : Word) : (powerAct s t w).Inv := by
  have hhold : ∀ (kind : Nat) {u : State}, u.Inv → (holdAll u kind).Inv := fun kind u hu => hu.of_mem (holdAll_mem u kind)
  have htell : ∀ (n : Nat) {u : State}, u.Inv → (tellAll u n).Inv := fun n u hu => hu.of_mem (tellAll_mem u n)
  unfold powerAct
  dsimp only
  generalize hu : { s with pkg := _ } = u
  have hui : u.Inv := hu ▸ hs
  have hhot : ∀ (c : Prop) [Decidable c], (if c then holdAll u 6 else u).Inv := fun _ _ => ite_inv (hhold 6 hui) hui
  have hhigh : ∀ (c d : Prop) [Decidable c] [Decidable d],
      (if d then holdAll (if c then holdAll u 6 else u) 7 else if c then holdAll u 6 else u).Inv :=
    fun _ _ _ _ => ite_inv (hhold 7 (hhot _)) (hhot _)
  exact ite_inv (htell 6 (hhigh _ _)) (hhigh _ _)

/-- A power cut leaves the state after reset (R412). -/
theorem execPowerSample_inv {s : State} (hs : s.Inv) : OutcomeInv (execPowerSample s) := by
  unfold execPowerSample
  dsimp only
  split
  · exact hs
  · split
    · exact reset_inv
    · exact powerAct_inv hs _ _

/-! ## Every instruction and every event -/

theorem exec_inv (i : Instr) {s : State} (hs : s.Inv) : OutcomeInv (exec i s) := by
  by_cases h : writesMemory i = true ∨ i = .powerSample
  · cases i
    case accwr f => exact execAccwr_inv f hs
    case accz f => exact execAccz_inv f hs
    case ctxswSwitch f | ctxswSave f | ctxswRestore f | ctxswRelease f | ctxswEnd f | ctxswHold f => exact ctxsw_inv f hs
    case mcWr f => exact execMcWr_inv f hs
    case boot => exact execBoot_inv hs
    case recoveryImage => exact execRecoveryImage_inv hs
    case launch => exact execLaunch_inv hs
    case taskCompletion => exact execTaskCompletion_inv hs
    case factStep => exact execFactStep_inv hs
    case loadLanding => exact landEvent_inv hs false
    case lineFillLanding => exact landEvent_inv hs true
    case mcRdData => exact execMcRdData_inv hs
    case mcWrTake => exact execMcWrTake_inv hs
    case mcstatPageWrite => exact execMcstatPageWrite_inv hs
    case migrationLineCopy => exact execMigrationLineCopy_inv hs
    case pagedRequestPerform => exact execPagedRequestPerform_inv hs
    case phaseCancel => exact execPhaseCancel_inv hs
    case plainArrivalApply => exact execPlainArrivalApply_inv hs
    case reducingWriteApply => exact execReducingWriteApply_inv hs
    case restoreComplete => exact execRestoreComplete_inv hs
    case resultPerform => exact execResultPerform_inv hs
    case saveComplete => exact execSaveComplete_inv hs
    case streamStore => exact execStreamStore_inv hs
    case powerSample => exact execPowerSample_inv hs
    all_goals
      obtain h | h := h
      · cases h
      · cases h
  · rw [not_or, Bool.not_eq_true] at h
    exact (exec_keeps i s h.1 h.2).outcomeInv hs

end Sys2Proof.Machine
end

section
/-! PROOFS. What the agents and the clock do between two instructions keeps the canonical form of memory (R15, R37–R42, R220, R403), and so every step does:
only the instructions and events of `exec_inv` write it. -/

namespace Sys2Proof.Machine
open Sys2Proof.Claims

theorem OutcomeInv.of_next {o : Host.Outcome State Fault Refusal} {t : State} (h : OutcomeInv o) (ho : o = .next t) : t.Inv := by
  rw [ho] at h
  exact h

theorem evt_inv {s : State} (hs : s.Inv) (i : Instr) (a : EvArg) : (evt i a s).Inv := by
  have h : OutcomeInv (exec i { s with ev := a }) := exec_inv i hs
  unfold evt
  split
  next t ht => exact h.of_next ht
  next => exact hs
  next => exact hs

theorem takeStop_inv {s : State} (hs : s.Inv) (st : Stop) : (takeStop s st).Inv := hs.of_mem (takeStop_mem ..)

theorem modCur_inv {s : State} (hs : s.Inv) (f : Ctx → Ctx) : (s.modCur f).Inv := hs

theorem mapEngs_inv {s : State} (hs : s.Inv) (p slot : Nat) (f : Nat → EngSt → EngSt) : (mapEngs s p slot f).Inv := hs

theorem mapCtxs_inv {s : State} (hs : s.Inv) (p slot : Nat) (f : Nat → Ctx → Ctx) : (mapCtxs s p slot f).Inv := hs.of_mem (mapCtxs_mem ..)

/-! ## A core's word -/

theorem runWord_inv {s : State} (hs : s.Inv) : OutcomeInv (runWord s) := by
  unfold runWord
  split
  · exact modCur_inv (takeStop_inv hs _) _
  · split
    · exact exec_inv _ hs
    · exact takeStop_inv hs _

theorem issueNow_inv {s : State} (hs : s.Inv) : OutcomeInv (issueNow s) := by
  have hmiss : (takeStop s (.trap 0x1A 0)).Inv := takeStop_inv hs _
  have hslath : OutcomeInv (runWord (s.modCur fun c => { c with slathPend := false })) := runWord_inv hs
  unfold issueNow
  split
  · exact hs
  · split
    · exact hmiss
    · split
      · exact hs
      · split
        · exact hslath
        · exact runWord_inv hs

/-! ## The passes of a core's cycle (R37, R89) -/

/-- The state of a cycle under way and what it would come to by each trap are in the invariant. -/
structure Pass.Inv (p : Pass) : Prop where
  st : p.st.Inv
  stops : ∀ x ∈ p.stops, x.2.Inv

theorem Pass.Inv.note {p : Pass} (hp : p.Inv) (rank : Nat) {t : State} (ht : t.Inv) : Pass.Inv { p with stops := p.stops ++ [(rank, t)] } := by
  refine ⟨hp.st, fun x hx => ?_⟩
  obtain hx | hx := List.mem_append.1 hx
  · exact hp.stops x hx
  · rw [List.mem_singleton.1 hx]
    exact ht

theorem Pass.Inv.run {p : Pass} (hp : p.Inv) (rank : Nat) (i : Instr) (a : EvArg) {final : State → State}
    (hf : ∀ t : State, t.Inv → (final t).Inv) : (p.run rank i a final).Inv := by
  have ht : (evt i a p.st).Inv := evt_inv hp.st i a
  unfold Pass.run
  dsimp only
  split
  · exact hp.note rank (hf _ ht)
  · exact ⟨ht, hp.stops⟩

theorem foldl_passInv {α : Type} (f : Pass → α → Pass) (hf : ∀ p x, p.Inv → (f p x).Inv) (l : List α) {p : Pass} (hp : p.Inv) :
    (l.foldl f p).Inv := by
  induction l generalizing p with
  | nil => exact hp
  | cons x l ih => exact ih (hf p x hp)

theorem stopBefore_inv {s0 : State} (hs : s0.Inv) (issue : Nat) (t : State) : (stopBefore s0 issue t).Inv := takeStop_inv hs _

theorem ownFinal_inv {s0 : State} (hs : s0.Inv) (e : CoreEv) (t : State) : (ownFinal s0 e t).Inv := by
  unfold ownFinal
  split
  · exact evt_inv hs _ _
  · exact stopBefore_inv hs _ _

theorem runOwn_inv {s0 : State} (hs : s0.Inv) {p : Pass} (hp : p.Inv) (e : CoreEv) : (runOwn s0 p e).Inv :=
  hp.run 4 _ _ fun t _ => ownFinal_inv hs e t

theorem runMoves_inv {s0 : State} (hs : s0.Inv) (wr : Bool) (n k : Nat) {p : Pass} (hp : p.Inv) : (runMoves s0 wr n k p).Inv := by
  induction n generalizing k p with
  | zero => exact hp
  | succ n ih =>
    unfold runMoves
    split
    · exact hp
    · exact ih _ (hp.run 3 _ _ fun t _ => stopBefore_inv hs 0 t)

theorem refuseWord_mem (s : State) (x : Arrival) (slot : Option (Nat × Nat)) : (refuseWord s x slot).mem = s.mem := by
  unfold refuseWord
  split <;> rfl

theorem arrivalFinal_inv {s0 : State} (hs : s0.Inv) (x : Arrival) (t : State) : (arrivalFinal s0 x t).Inv := by
  have hmod : ∀ f : CoreSt → CoreSt, (s0.modCore f).Inv := fun _ => hs
  unfold arrivalFinal
  dsimp only
  split
  · split
    · exact takeStop_inv (hs.of_mem ((lostOfRun_mem ..).trans (loseInbound_mem ..))) _
    · exact takeStop_inv ((hmod _).of_mem (refuseWord_mem ..)) _
    · exact stopBefore_inv hs _ _
  · exact stopBefore_inv (hs.of_mem (spoilRun_mem ..)) _ _

theorem runWords_inv {s0 : State} (hs : s0.Inv) (xs : List Arrival) (used late : List Nat) {p : Pass} (hp : p.Inv) :
    (runWords s0 xs used late p).1.Inv := by
  induction xs generalizing used late p with
  | nil => exact hp
  | cons x xs ih =>
    have hfin : ∀ t : State, t.Inv → (arrivalFinal s0 x t).Inv := fun t _ => arrivalFinal_inv hs x t
    unfold runWords
    split
    · exact ih _ _ hp
    · split
      · exact ih _ _ hp
      · split
        · exact ih _ _ (hp.run 2 _ _ hfin)
        · split
          · exact ih _ _ hp
          · exact ih _ _ (hp.run 2 _ _ hfin)

theorem runWaiting_inv {s0 : State} (hs : s0.Inv) (xs : List Arrival) (used : List Nat) {p : Pass} (hp : p.Inv) : (runWaiting s0 xs used p).Inv := by
  induction xs generalizing used p with
  | nil => exact hp
  | cons x xs ih =>
    unfold runWaiting
    split
    · exact ih _ hp
    · split
      · exact ih _ hp
      · exact ih _ (hp.run 2 _ _ fun t _ => arrivalFinal_inv hs x t)

theorem runDeliveries_inv {s0 : State} (hs : s0.Inv) {p : Pass} (hp : p.Inv) : (runDeliveries s0 p).Inv := by
  have hmoves : ∀ n : Nat, (runMoves s0 false n 0 p).Inv := fun n => runMoves_inv hs false n 0 hp
  have hlands : ∀ (l : List (Instr × EvArg)) {q : Pass}, q.Inv → (l.foldl (fun p e => p.run 2 e.1 e.2 (stopBefore s0 0)) q).Inv :=
    fun l q hq => foldl_passInv _ (fun p e hp => hp.run 2 _ _ fun t _ => stopBefore_inv hs 0 t) l hq
  exact runWaiting_inv hs _ _ (runWords_inv hs _ _ _ (hlands _ (hmoves _)))

theorem withTag_mem (l : List (Nat × State)) (t : State) : (withTag l t).mem = t.mem := by
  unfold withTag
  split
  · split <;> rfl
  · rfl

/-- The step of `bestStop`: of two outcomes the one of the lower rank, the first of one rank. -/
def lowerStop (b : Option (Nat × State)) (x : Nat × State) : Option (Nat × State) :=
  match b with
  | none => some x
  | some y => if x.1 < y.1 then some x else some y

theorem bestStop_eq (l : List (Nat × State)) : bestStop l = (l.foldl lowerStop none).map fun x => withTag l x.2 := rfl

theorem foldl_lowerStop_mem (l : List (Nat × State)) (b : Option (Nat × State)) (y : Nat × State) (h : l.foldl lowerStop b = some y) :
    b = some y ∨ y ∈ l := by
  induction l generalizing b with
  | nil => exact .inl h
  | cons x l ih =>
    obtain hb | hl := ih _ h
    · cases b with
      | none => exact .inr (Option.some.inj hb ▸ List.mem_cons_self)
      | some z =>
        unfold lowerStop at hb
        dsimp only at hb
        split at hb
        · exact .inr (Option.some.inj hb ▸ List.mem_cons_self)
        · exact .inl hb
    · exact .inr (List.mem_cons_of_mem _ hl)

theorem bestStop_inv {l : List (Nat × State)} (hl : ∀ x ∈ l, x.2.Inv) {t : State} (h : bestStop l = some t) : t.Inv := by
  rw [bestStop_eq] at h
  obtain ⟨y, hy, rfl⟩ := Option.map_eq_some_iff.1 h
  obtain hb | hy := foldl_lowerStop_mem l none y hy
  · cases hb
  · exact (hl y hy).of_mem (withTag_mem ..)

theorem runSysCall_inv {s0 : State} (hs : s0.Inv) {p : Pass} (hp : p.Inv) : (runSysCall s0 p).Inv := by
  unfold runSysCall
  split
  · exact hp
  · exact hp.note 4 (takeStop_inv (s := s0.modCur fun c => { c with sysCall := none }) hs _)

theorem doPost_mem (s : State) (x : PostAct) : (doPost s x).mem = s.mem := by cases x <;> rfl

theorem endCycle_inv {s : State} (hs : s.Inv) : (endCycle s).Inv := by
  have hpost : ∀ (l : List PostAct) {u : State}, u.Inv → (l.foldl doPost u).Inv := fun l u hu => hu.of_mem (foldl_mem _ doPost_mem l u)
  unfold endCycle
  dsimp only
  generalize hu : State.modCur (List.foldl doPost _ _) _ = u
  have hui : u.Inv := hu ▸ modCur_inv (hpost _ (evt_inv hs .phaseCommit .none)) _
  exact modCur_inv (ite_inv (evt_inv hui .corePartEnd .none) hui) _

theorem afterWord_inv {s0 : State} (hs : s0.Inv) {p : Pass} (hp : p.Inv) : (afterWord s0 p).Inv := by
  have hown : ∀ (l : List CoreEv) {q : Pass}, q.Inv → (l.foldl (runOwn s0) q).Inv :=
    fun l q hq => foldl_passInv _ (fun _ e h => runOwn_inv hs h e) l hq
  unfold afterWord
  dsimp only
  generalize hq : runDeliveries s0 _ = q
  have hqi : q.Inv := hq ▸ runDeliveries_inv hs (hown _ (runSysCall_inv hs (hown _ hp)))
  split
  next t ht => exact bestStop_inv hqi.stops ht
  next => exact endCycle_inv hqi.st

/-! ## Untimed deliveries (R39) -/

theorem landUntimed_inv (q : AuReq → Bool) {s : State} (hs : s.Inv) : (landUntimed q s).Inv :=
  foldl_inv _ (fun _ _ ht => evt_inv ht _ _) _ hs

theorem wordsUntimed_inv (came : State → Arrival → Bool) (n : Nat) (late : List Nat) {s : State} (hs : s.Inv) : (wordsUntimed came n late s).Inv := by
  induction n generalizing late s with
  | zero => exact hs
  | succ n ih =>
    unfold wordsUntimed
    dsimp only
    split
    · exact ih _ (evt_inv hs _ _)
    · split
      · exact hs
      · split
        · exact hs
        · exact ih _ (ite_inv (evt_inv hs _ _) (evt_inv hs _ _))

theorem takeCame_inv (w0 : Nat) (lands : AuReq → Bool) (words : State → Arrival → Bool) {s : State} (hs : s.Inv) : (takeCame w0 lands words s).Inv :=
  foldl_inv _ (fun _ _ ht => wordsUntimed_inv _ _ _ (landUntimed_inv _ ht)) _ hs

theorem gapAgain_inv {s : State} (hs : s.Inv) : (gapAgain s).Inv := by
  unfold gapAgain
  dsimp only
  exact ite_inv hs (takeCame_inv _ _ _ hs)

/-! ## A core's cycle -/

theorem enterSig_mem (s : State) : (enterSig s).mem = s.mem := by
  unfold enterSig
  split <;> rfl

theorem stampedStop_inv {s0 : State} (hs : s0.Inv) : ∀ x ∈ stampedStop s0, x.2.Inv := by
  unfold stampedStop
  split
  · simp
  next d _ =>
    intro x hx
    rw [List.mem_singleton.1 hx]
    refine takeStop_inv (s := s0.modCore _) ?_ _
    exact hs

theorem wordFinal_inv {s0 : State} (hs : s0.Inv) (t : State) : (wordFinal s0 t).Inv := by
  have hissue := issueNow_inv hs
  have hbefore := stopBefore_inv hs 0 t
  unfold wordFinal
  split
  next u hu => exact ite_inv (hissue.of_next hu) hbefore
  next => exact hbefore
  next => exact hbefore

theorem coreRun_inv {s : State} (hs : s.Inv) : OutcomeInv (coreRun s) := by
  have h0 : (gapAgain s).Inv := gapAgain_inv hs
  unfold coreRun
  dsimp only
  split
  · exact evt_inv h0 _ _
  · generalize hp : runMoves (gapAgain s) true _ 0 _ = p
    have hpi : p.Inv := hp ▸ runMoves_inv h0 true _ 0 ⟨h0.of_mem (enterSig_mem _), stampedStop_inv h0⟩
    have hissue := issueNow_inv hpi.st
    split
    next t ht =>
      split
      · exact afterWord_inv h0 (hpi.note _ (wordFinal_inv h0 t))
      · exact afterWord_inv h0 ⟨hissue.of_next ht, hpi.stops⟩
    next => trivial
    next => trivial

theorem coreCycle_inv {s : State} (hs : s.Inv) (n : Nat) : OutcomeInv (coreCycle s n) := by
  have hcur : State.Inv { s with curCore := n, onSys := false } := hs
  unfold coreCycle
  dsimp only
  split
  · exact hcur
  · split
    · split
      · exact hcur
      · exact runWord_inv hcur
    · split
      · exact hcur
      · exact coreRun_inv hcur

/-! ## An engine's cycle (R220) -/

theorem runMsgs_inv (n : Nat) {s : State} (hs : s.Inv) : (runMsgs n s).Inv := by
  induction n generalizing s with
  | zero => exact hs
  | succ n ih =>
    unfold runMsgs
    split
    · exact hs
    · split
      · exact hs
      · exact ih (evt_inv hs _ _)

theorem holdTables_inv (n : Nat) {s : State} (hs : s.Inv) : (holdTables n s).Inv := by
  induction n generalizing s with
  | zero => exact hs
  | succ n ih =>
    unfold holdTables
    dsimp only
    split
    · exact ih (evt_inv hs _ _)
    · exact ih hs

theorem engEv_inv {s : State} (hs : s.Inv) (i : Instr) (a : EvArg) : (engEv s i a).Inv := ite_inv hs (evt_inv hs i a)

theorem windowKeeper_inv {s : State} (hs : s.Inv) : (windowKeeper s).Inv := ite_inv (evt_inv hs _ _) hs

theorem engWord_inv {s : State} (hs : s.Inv) : OutcomeInv (engWord s) := by
  unfold engWord
  dsimp only
  split
  · exact hs
  · split
    · split
      · exact hs
      · split
        · exact exec_inv _ hs
        · exact hs.of_mem (memTrap_mem ..)
    · exact evt_inv hs _ _

theorem announceTakes_mem (s : State) : (announceTakes s).mem = s.mem := by
  unfold announceTakes
  dsimp only
  split
  · refine foldl_mem _ (fun t x => ?_) _ _
    split <;> rfl
  · rfl

theorem tableRecord_mem (s : State) (e : EngSt) : (tableRecord s e).mem = s.mem := by
  unfold tableRecord
  split
  · exact addError_mem ..
  · rfl

theorem engTrapped_mem (s0 t : State) : (engTrapped s0 t).mem = s0.mem := (announceTakes_mem _).trans (tableRecord_mem ..)

theorem engCycle_inv {s : State} (hs : s.Inv) (n : Nat) : OutcomeInv (engCycle s n) := by
  have h0 : (takePages { s with curEng := n, onSys := false }).Inv := hs
  unfold engCycle
  dsimp only
  split
  · exact hs
  · generalize hu : windowKeeper _ = u
    have hui : u.Inv := hu ▸ windowKeeper_inv (engEv_inv (engEv_inv (engEv_inv (engEv_inv (holdTables_inv _ (runMsgs_inv _ h0)) _ _) _ _) _ _) _ _)
    have hword := engWord_inv hui
    split
    next t ht =>
      have hti : t.Inv := hword.of_next ht
      have hend : (engEnd t).Inv := hti
      exact ite_inv (h0.of_mem (engTrapped_mem ..)) hend
    next => trivial
    next => trivial

/-! ## System cores and collective runs -/

theorem sysCycle_inv {s : State} (hs : s.Inv) (n : Nat) : OutcomeInv (sysCycle s n) := by
  have hcur : State.Inv { s with curSys := n, onSys := true } := hs
  unfold sysCycle
  dsimp only
  split
  · exact hcur
  · split
    · exact evt_inv hcur _ _
    · split
      · exact ite_inv (s := State.setSys _ _) hcur hcur
      · split
        · exact exec_inv _ hcur
        · exact hcur.of_mem (sysTrap_mem ..)

theorem cxeCycle_inv {s : State} (hs : s.Inv) (die g : Nat) : OutcomeInv (cxeCycle s die g) := by
  have hcur : State.Inv { s with curDie := die, curGroup := g, onSys := false } := hs
  unfold cxeCycle
  dsimp only
  split
  · exact hcur
  · split
    · exact ite_inv (hcur.of_mem (endRun_mem ..)) hcur
    · split
      · exact exec_inv _ hcur
      · exact hcur.of_mem (abortRun_mem ..)

theorem agentCycle_inv {s : State} (hs : s.Inv) (a : Agent) : OutcomeInv (agentCycle s a) := by
  cases a with
  | core n => exact coreCycle_inv hs n
  | eng n => exact engCycle_inv hs n
  | sys n => exact sysCycle_inv hs n
  | cxe d g => exact cxeCycle_inv hs d g

/-! ## The domain between two wall cycles (R38–R42, R384, R393) -/

theorem frozenCore_inv (t : Nat) {s : State} (hs : s.Inv) (n : Nat) : (frozenCore t s n).Inv := by
  have hmark : (markCame t { s with curCore := n, onSys := false }).Inv := hs
  unfold frozenCore
  dsimp only
  split
  · exact ite_inv hmark (takeCame_inv _ _ _ hmark)
  · exact hs

theorem clearHeld_mem (s : State) (p slot : Nat) : (clearHeld s p slot).mem = s.mem := by
  refine foldl_mem _ (fun t n => ?_) _ _
  dsimp only
  split
  · split <;> rfl
  · rfl

theorem clearEngines_mem (s : State) (p slot : Nat) : (clearEngines s p slot).mem = s.mem := rfl

theorem advanceDomain_inv {s : State} (hs : s.Inv) (p slot : Nat) : (advanceDomain s p slot).Inv := by
  unfold advanceDomain
  refine evt_inv ?_ _ _
  exact hs

theorem keepers_inv {s : State} (hs : s.Inv) (p slot : Nat) (idle : Bool) : (keepers s p slot idle).Inv := by
  have hgo : ∀ (i : Instr) (l : List Nat) {u : State}, u.Inv → (if l.isEmpty then u else evt i (arg p slot 0 0 l) u).Inv :=
    fun i l u hu => ite_inv hu (evt_inv hu _ _)
  unfold keepers
  dsimp only
  generalize hu : (if List.isEmpty _ then _ else evt .keeperRefab _ _) = u
  have hui : u.Inv := hu ▸ hgo _ _ (hgo _ _ (mapEngs_inv hs p slot _))
  exact ite_inv (hgo _ _ hui) hui

theorem dropEarly_mem (s : State) (p slot : Nat) : (dropEarly s p slot).mem = s.mem := by
  refine foldl_mem _ (fun t n => ?_) _ _
  dsimp only
  split <;> rfl

theorem cutCatch_mem (s : State) (p slot : Nat) : (cutCatch s p slot).mem = s.mem := by
  unfold cutCatch
  split
  · split <;> rfl
  · rfl

theorem catchStep_inv {s : State} (hs : s.Inv) (p slot f w : Nat) : (catchStep s p slot f w).Inv := by
  unfold catchStep
  dsimp only
  generalize hu : dropEarly _ p slot = u
  have hui : u.Inv := hu ▸ (mapEngs_inv (mapCtxs_inv hs p slot _) p slot _).of_mem (dropEarly_mem ..)
  exact ite_inv hui (t := u.setDom _ _ _) hui

theorem frozenStep_inv {s : State} (hs : s.Inv) (p slot f : Nat) : (frozenStep s p slot f).Inv := by
  unfold frozenStep
  dsimp only
  generalize hu : mapEngs _ p slot _ = u
  have hui : u.Inv := hu ▸ mapEngs_inv (mapCtxs_inv hs p slot _) p slot _
  have hcancel := evt_inv (ite_inv (c := stillRuns u p slot = true) hui (hui.of_mem (giveMemtimes_mem u p slot))) .phaseCancel (arg p slot)
  generalize evt .phaseCancel _ _ = v at hcancel ⊢
  have hresume := evt_inv (keepers_inv hcancel p slot (holdOver v p slot)) .domainResume (arg p slot)
  split
  · exact catchStep_inv hresume ..
  · exact hresume

theorem countWall_mem (s : State) (p slot : Nat) : (countWall s p slot).mem = s.mem := rfl

theorem joinedLatch_mem (s : State) (p slot : Nat) : (joinedLatch s p slot).mem = s.mem := by
  unfold joinedLatch
  split
  · split
    · exact latchDomain_mem ..
    · rfl
  · rfl

theorem engCheckpoints_mem (s : State) (p slot : Nat) : (engCheckpoints s p slot).mem = s.mem := by
  unfold engCheckpoints
  dsimp only
  split <;> rfl

theorem recCheckpoints_mem (s : State) (p slot : Nat) : (recCheckpoints s p slot).mem = s.mem := by
  unfold recCheckpoints
  dsimp only
  split <;> rfl

theorem slotEvents_inv {s : State} (hs : s.Inv) (p slot : Nat) : (slotEvents s p slot).Inv := by
  have hdog := evt_inv (evt_inv (evt_inv hs .slathBarrierComplete (arg p slot)) .slathWatchdog (arg p slot)) .watchdogExpiry (arg p slot)
  have hrec := hdog.of_mem (recCheckpoints_mem _ p slot)
  exact evt_inv (ite_inv hrec (evt_inv hrec _ _)) _ _

theorem domTick_inv {s : State} (hs : s.Inv) (p slot : Nat) : (domTick s p slot).Inv := by
  have hcores : ∀ (t : Nat) (l : List Nat) {u : State}, u.Inv → (l.foldl (frozenCore t) u).Inv :=
    fun t l u hu => foldl_inv _ (fun _ n h => frozenCore_inv t h n) l hu
  unfold domTick
  dsimp only
  split
  · exact hs
  · generalize hu : joinedLatch _ p slot = u
    have hui : u.Inv := by
      rw [← hu]
      refine State.Inv.of_mem ?_ ((joinedLatch_mem ..).trans ((clearEngines_mem ..).trans (clearHeld_mem ..)))
      exact hcores _ _ (hs.of_mem ((cutCatch_mem ..).trans (countWall_mem ..)))
    refine slotEvents_inv (State.Inv.of_mem (s := syncIdle _ p slot) (mapEngs_inv ?_ _ _ _) (engCheckpoints_mem ..)) p slot
    split
    · exact keepers_inv (advanceDomain_inv hui p slot) ..
    · exact keepers_inv (advanceDomain_inv hui p slot) ..
    · exact frozenStep_inv hui ..
    · exact catchStep_inv hui ..

theorem restTick_inv {s : State} (hs : s.Inv) (p slot : Nat) : (restTick s p slot).Inv := by
  have hheld : ∀ {u : State}, u.Inv → (evt .watchdogExpiry (arg p slot) (joinedLatch u p slot)).Inv :=
    fun hu => evt_inv (hu.of_mem (joinedLatch_mem ..)) _ _
  unfold restTick
  dsimp only
  split
  · exact hs
  · split
    · exact hheld hs
    · exact hheld hs
    · exact hs
    · exact hs

theorem restKeepers_inv {s : State} (hs : s.Inv) (p : Nat) : (restKeepers s p).Inv := by
  unfold restKeepers
  refine ite_inv hs (evt_inv ?_ _ _)
  exact hs

theorem doorbellTick_mem (s : State) (p : Nat) : (doorbellTick s p).mem = s.mem := by
  unfold doorbellTick
  dsimp only
  split
  · rfl
  · split <;> rfl

theorem partTick_inv {s : State} (hs : s.Inv) (p : Nat) : (partTick s p).Inv := by
  have hbell : (doorbellTick s p).Inv := hs.of_mem (doorbellTick_mem s p)
  have hrests : ∀ (l : List Nat) {u : State}, u.Inv → (l.foldl (fun s k => restTick s p k) u).Inv :=
    fun l u hu => foldl_inv _ (fun _ k h => restTick_inv h p k) l hu
  unfold partTick
  dsimp only
  generalize hu : restKeepers _ p = u
  have hui : u.Inv := hu ▸ restKeepers_inv (hrests _ (ite_inv hbell (evt_inv hbell _ _))) p
  split
  · exact hui
  · exact domTick_inv hui ..

/-! ## Errors of the storages (R397), the wall clock, and the step -/

@[simp] theorem errMark_mem (s : State) (die cls loc : Nat) : (errMark s die cls loc).2.mem = s.mem := by simp [errMark]

@[simp] theorem modRun_mem (s : State) (core : Nat) (f : Ctx → Ctx) : (modRun s core f).mem = s.mem := rfl

/-- An error marks an item or flips a bit of it; the byte memory holds no mark. -/
theorem applyUpset_mem (s : State) (x : Upset) : (applyUpset s x).mem = s.mem := by
  cases x with
  | row | lane | code | table | command | column | fabric | word | unit | line => simp [applyUpset]
  | entry =>
    unfold applyUpset
    dsimp only
    split <;> simp
  | request core n =>
    unfold applyUpset
    dsimp only
    split
    · split <;> simp
    · rfl
  | ext die n =>
    unfold applyUpset
    dsimp only
    split <;> simp
  | port die g =>
    unfold applyUpset
    dsimp only
    split
    · split <;> simp
    · rfl
  | block die n header =>
    unfold applyUpset
    dsimp only
    split <;> simp
  | corrected die cls loc =>
    unfold applyUpset
    dsimp only
    split <;> simp

theorem tick_inv {s : State} (hs : s.Inv) : (tick s).Inv := by
  have hparts : ∀ (l : List Nat) {u : State}, u.Inv → (l.foldl partTick u).Inv := fun l u hu => foldl_inv _ (fun _ p h => partTick_inv h p) l hu
  have hupsets : ∀ (l : List Upset) {u : State}, u.Inv → (l.foldl applyUpset u).Inv := fun l u hu => hu.of_mem (foldl_mem _ applyUpset_mem l u)
  have hwall : State.Inv { s with wb := s.wb + 1, engHist := (s.engs :: s.engHist).take 25, onSys := false } := hs
  unfold tick State.Inv
  dsimp only
  exact hupsets _ (hparts _ (ite_inv (evt_inv hwall _ _) hwall))

theorem step_inv {s : State} (hs : s.Inv) : OutcomeInv (step s) := by
  unfold step
  split
  next i a rest _ =>
    have hev : State.Inv { s with agenda := rest, ev := a } := hs
    exact exec_inv i hev
  next =>
    split
    next a rest _ =>
      have hturn : State.Inv { s with todo := rest } := hs
      exact agentCycle_inv hturn a
    next => exact tick_inv hs

/-- Settles O58: the form is kept by every write of bytes (`Memory.wf_writeN`), each instruction and event changes memory by such writes only (`exec_inv`), and
the agents' cycles and the wall clock change it by instructions and events only. -/
theorem memoryInvariant : Obligations.MemoryInvariant := by
  unfold Obligations.MemoryInvariant
  intro s t hs hstep
  exact (step_inv hs).of_next hstep

end Sys2Proof.Machine
end

section
/-! PROOFS. The sources of an instruction leave their queues together, each queue once (R46, R77, R97, R100). -/

namespace Sys2Proof.Machine
open Sys2Proof.Claims

/-- Of several different queues popped in turn each loses its head once, and a queue that is not among them stays; `get` gives the entries of a queue. -/
theorem foldl_pops_once {α : Type} (get : Ctx → Nat → List α) (pop : Ctx → Nat → Ctx) (q : Nat) (hsame : ∀ c, get (pop c q) q = (get c q).tail)
    (hother : ∀ c r, r ≠ q → get (pop c r) q = get c q) {l : List Nat} (hl : l.Nodup) (c : Ctx) :
    get (l.foldl pop c) q = if q ∈ l then (get c q).tail else get c q := by
  induction l generalizing c with
  | nil => rfl
  | cons r l ih =>
    obtain ⟨hr, hl⟩ := List.nodup_cons.1 hl
    rw [List.foldl_cons, ih hl]
    by_cases hrq : r = q
    · subst hrq
      simp [hr, hsame]
    · simp [hother c r hrq, Ne.symm hrq]

/-- A queue named among several loses its head once, however often it is named. -/
theorem qEntries_dropHeads_same (c : Ctx) (qs : List Nat) (q : Nat) (hq : q ≠ 0) (h : q ∈ qs) :
    qEntries (dropHeads c qs) q = (qEntries c q).tail := by
  have honce := foldl_pops_once qEntries dropHead q (fun c => qEntries_dropHead_same c q hq)
    (fun c r hr => qEntries_dropHead_other c r q hr.symm) (List.nodup_dedup qs) c
  rwa [if_pos (List.mem_dedup.2 h)] at honce

/-- The queues that a list of source fields pops. -/
def poppedQs (fs : List Src) : List Nat := (fs.filter (fun f => !f.2)).map (·.1)

theorem mem_poppedQs (fs : List Src) (q : Nat) : q ∈ poppedQs fs ↔ ∃ f ∈ fs, f.1 = q ∧ f.2 = false := by
  simp [poppedQs]

theorem popSrcs_queue (s : State) (hm : QueueMode s) (fs : List Src) :
    popSrcs s fs = if fs.all (·.2) then s else s.setCur (dropHeads s.cur (poppedQs fs)) := by
  obtain ⟨hsys, hhandler⟩ := hm
  unfold popSrcs
  rw [hsys, hhandler]
  rfl

/-- In queue mode the sources pop the queues that are named without a keep bit. -/
theorem cur_popSrcs_queue (s : State) (hm : QueueMode s) (fs : List Src) : (popSrcs s fs).cur = dropHeads s.cur (poppedQs fs) := by
  rw [popSrcs_queue s hm]
  split
  next hall =>
    have hnone : poppedQs fs = [] := by
      rw [List.eq_nil_iff_forall_not_mem]
      intro q hq
      obtain ⟨f, hf, _, hkeep⟩ := (mem_poppedQs fs q).1 hq
      simp [List.all_eq_true.1 hall f hf] at hkeep
    rw [hnone, dropHeads_nil]
  next => exact State.setCur_cur ..

/-- Settles O3, by the queues that the fields name without a keep bit (`poppedQs`): a queue is among them or not. -/
theorem sourcesPopOnce : Obligations.SourcesPopOnce := by
  unfold Obligations.SourcesPopOnce
  refine ⟨fun s fs hm q hq => ⟨fun hpops => ?_, fun hkeeps => ?_⟩, fun s fs hm => ?_, fun s fs hm => ?_⟩
  · rw [cur_popSrcs_queue s hm]
    exact qEntries_dropHeads_same _ _ q hq ((mem_poppedQs fs q).2 hpops)
  · rw [cur_popSrcs_queue s hm]
    refine qEntries_dropHeads_other _ _ q fun hmem => ?_
    obtain ⟨f, hf, hfq, hpop⟩ := (mem_poppedQs fs q).1 hmem
    simp [hkeeps f hf hfq] at hpop
  · rw [cur_popSrcs_queue s hm, ← dropHeads_frame, popSrcs_queue s hm]
    split
    · exact .inl rfl
    · exact .inr rfl
  · obtain ⟨hsys, hhandler⟩ | hsys := hm
    · simp [popSrcs, hhandler]
    · simp [popSrcs, show s.onSys = true from hsys]

end Sys2Proof.Machine
end

section
/-! PROOFS. A false guard leaves nothing of a sequencer instruction but its words and their cycles (R50, R110): each is an `issue`. -/

namespace Sys2Proof.Machine
open Sys2Proof.Claims

/-- Under a false guard the outcome is that `n` words have passed in `c` cycles. -/
def Skips (s : State) (o : Host.Outcome State Fault Refusal) (n c : Nat) : Prop :=
  guardOf s = some false → o = .next (advance (signed s n) n c)

section
variable {s : State}

/-! ## The common forms of instructions, each over the one that it is made of -/

theorem issue_skips {r : IssueRule} {body : State → Res (State × Flow)} : Skips s (issue s r body) r.words r.falseCycles := issue_false s r body

theorem issue1_skips {hOk : Bool} {body : State → Res State} : Skips s (issue1 s hOk body) 1 1 := issue_skips

theorem op1_skips {d a : Nat} {ka : Bool} {f : Nat} {op : Word → Word × Nat} : Skips s (op1 s d a ka f op) 1 1 := issue1_skips

theorem op2_skips {d a b : Nat} {ka kb : Bool} {f : Nat} {op : Word → Word → Word × Nat} : Skips s (op2 s d a b ka kb f op) 1 1 := issue1_skips

theorem int1_skips {g : FDA} {f : Nat} {op : Word → Word} : Skips s (int1 g s f op) 1 1 := op1_skips

theorem int2_skips {g : FDAB} {f : Nat} {op : Word → Word → Word} : Skips s (int2 g s f op) 1 1 := op2_skips

theorem intImm_skips {f : FImm} {op : Word → Word → Word} : Skips s (intImm f s op) 1 1 := op1_skips

theorem shImm_skips {f : FShI} {op : Word → Nat → Word} : Skips s (shImm f s op) 1 1 := op1_skips

theorem float2_skips {g : FDAB} {f : Nat} {op : Val → Val → Nat → Nat × Flags} : Skips s (float2 g s f op) 1 1 := op2_skips

theorem jumpReg_skips {f : FA} {linked : Bool} : Skips s (jumpReg f s linked) 1 1 := issue_skips

theorem tableWrite_skips {f : FAB} {t : Table} {put : Ctx → Nat → Word → Ctx} : Skips s (tableWrite f t put s) 1 1 := issue1_skips

theorem tableRead_skips {f : FDA} {t : Table} {get : Ctx → Nat → Word} : Skips s (tableRead f t get s) 1 1 := issue1_skips

theorem loadIssue_skips {f : FLs} {size : Nat} {sgn : Bool} : Skips s (loadIssue f size sgn s) 1 1 := issue_skips

theorem storeIssue_skips {f : FLs} {size : Nat} : Skips s (storeIssue f size s) 1 1 := issue_skips

theorem ldq_skips {f : FDA} : Skips s (ldq f s) 1 1 := issue_skips

theorem atomic_skips {f : FDAB} {op : Nat} : Skips s (atomic f op s) 1 1 := issue_skips

theorem pagedAtomic_skips {f : FDAB} {cas : Bool} : Skips s (pagedAtomic f cas s) 1 1 := issue_skips

theorem vop_skips {f d : Nat} {srcs : List Nat} {op : Ctx → List VSrc → LaneWord × Flags} : Skips s (vop s f d srcs op) 1 1 := issue1_skips

theorem v2_skips {g : FV2} {f : Nat} {op : Ctx → Nat → Nat → Nat × Flags} : Skips s (v2 g s f op) 1 1 := vop_skips

theorem v3_skips {g : FV3} {f : Nat} {op : Ctx → Nat → Nat → Nat → Nat × Flags} : Skips s (v3 g s f op) 1 1 := vop_skips

theorem vfma_skips {f : FV3} {sub : Bool} : Skips s (vfma f s sub) 1 1 := vop_skips

theorem vfun_skips {f : FV2} {off : Nat} {op : Nat → Val → Nat → Bool → Nat × Flags} : Skips s (vfun f s off op) 1 1 := v2_skips

theorem vbits_skips {f : FV3} {op : Nat → Nat → Nat → Nat} : Skips s (vbits f s op) 1 1 := v3_skips

theorem vcmp_skips {f : FV3} {rel : Val → Val → Bool} {nan : Bool × Flags} : Skips s (vcmp f s rel nan) 1 1 := v3_skips

theorem vsumOf_skips {f : FV2} {sq : Bool} : Skips s (vsumOf f s sq) 1 1 := vop_skips

theorem vext_skips {f : FV2} {key : Nat → Nat → Nat} {larger : Bool} : Skips s (vext f s key larger) 1 1 := vop_skips

theorem vperm1_skips {d a fmt : Nat} {pick : List Nat → Nat → Nat → Nat} : Skips s (vperm1 s d a fmt pick) 1 1 := vop_skips

theorem vperm2_skips {f : FV3} {pick : List Nat → List Nat → Nat → Nat → Nat} : Skips s (vperm2 f s pick) 1 1 := vop_skips

theorem mmaIssue_skips {f : FMma} {mode : Nat} : Skips s (mmaIssue f mode s) 1 1 := by
  unfold mmaIssue
  exact issue_skips

theorem accIssue_skips {f : FTS} {kind : CmdKind} : Skips s (accIssue f kind s) 1 1 := by
  unfold accIssue
  exact issue_skips

theorem factIssue_skips {kind : CmdKind} {tile tile2 fl : Nat} : Skips s (factIssue s kind tile tile2 fl) 1 1 := by
  unfold factIssue
  exact issue_skips

theorem pivRead_skips {f : FDA} {lim : Nat} {get : Ctx → Nat → Nat} : Skips s (pivRead f s lim get) 1 1 := issue1_skips

theorem quantIssue_skips {mode sd sa rnd seed : Nat} {rte : Bool} : Skips s (quantIssue s mode sd sa rnd seed rte) 1 1 := by
  unfold quantIssue
  exact issue_skips

theorem dequantIssue_skips {mode sd sa : Nat} : Skips s (dequantIssue s mode sd sa) 1 1 := by
  unfold dequantIssue
  exact issue_skips

theorem engineSend_skips {f : FP2} {fn : Nat} {zero : Nat → Bool} {chk : State → Nat → Nat → Res Unit} : Skips s (engineSend f fn zero chk s) 1 1 := issue_skips

theorem mcstop_skips {f : FP2} : Skips s (mcstop f s) 1 1 := issue_skips

theorem sysWait_skips {f : FDAB} {body : State → Nat → Nat → Res (Option (Word × State) × State)} : Skips s (sysWait f s body) 1 1 := issue_skips

theorem sysOp_skips {f : FDAB} {body : State → Nat → Nat → Res (Option (Word × State))} : Skips s (sysOp f s body) 1 1 := sysWait_skips

theorem hvcall_skips {f : FDAB} : Skips s (hvcall f s) 1 1 := sysWait_skips

theorem ctxsw_skips {f : FA} : Skips s (ctxsw f s) 1 1 := issue_skips

end

/-- Every instruction of the sequencer is issued, with its words and its cycles. -/
theorem exec_skips (i : Instr) (s : State) (hseq : isSequencer i = true) : Skips s (exec i s) (wordCount i) (falseCyclesOf i) := by
  cases i
  all_goals dsimp only [exec]
  case add | sub | and | or | xor | shl | shr | sra | mul | mulhs | mulhu | min | max | minu | maxu | andn | seq | sne | slt | sltu | sge | sgeu |
    bext | bflip | div | divu | rem | remu | sext | zext => exact int2_skips
  case clz | ctz | popc | brev | bswap => exact int1_skips
  case addi | andi | ori | xori | slti => exact intImm_skips
  case shli | shri | srai => exact shImm_skips
  case li | tbrd | close | sstat | austat | flagrd | flagset | vtoq | vfromq | accrd | accwr | estep | stbind | stclr | strd | stmerge | stgen | stset
    | snap | fence => exact issue1_skips
  case lcat | fsqrt | fcvti | icvtf => exact op1_skips
  case idle | mov | drop | qcnt | qclr | brc | br | grd | loop | call | seg | segend | slath | wbrd | phase | waitq | waitf | openS | sadv | srew |
    stq | rstq | migr | vunpk3 | accz |  resume | eabort | mcstat | colstart | colstat | colabort | csrrd | csrwr | trap | tret | ctxrd | ctxwr
    | halt => exact issue_skips
  case accmv =>
    unfold execAccmv
    exact issue_skips
  case jr | jrl => exact jumpReg_skips
  case ltwr | fpwr | tswr => exact tableWrite_skips
  case ltrd | fprd | tsrd => exact tableRead_skips
  case fadd | fsub | fmul | fdiv | fcmplt => exact float2_skips
  case ldsD | ldsWu | ldsWs | ldsHu | ldsBu => exact loadIssue_skips
  case stsD | stsW | stsH | stsB => exact storeIssue_skips
  case ldq | ldqLineFill => exact ldq_skips
  case amoadd | amomax | amoswp | amocas => exact atomic_skips
  case pamoadd | pamocas => exact pagedAtomic_skips
  case vadd | vsub | vmul | vmin | vmax | vadds | vsubs | vmulhi | vdiff | vscale => exact v3_skips
  case vfma | vfms => exact vfma_skips
  case vabs | vneg | vfloor | vround | vpopc => exact v2_skips
  case vrcp | vrsq | vsqrt | vexp2 | vlog2 => exact vfun_skips
  case vand | vor | vxor | vandn | vshl | vshr | vsra => exact vbits_skips
  case vceq | vcne | vclt | vcle | vcun => exact vcmp_skips
  case vsel | vamaxr | vdot | vcvt | vunpk4 | viota | vzero => exact vop_skips
  case vsum | vsumsq => exact vsumOf_skips
  case vmaxr | vminr => exact vext_skips
  case vbcast | vrev | vrotl => exact vperm1_skips
  case vzip | vunzip | vshufl => exact vperm2_skips
  case mmaFlt | mmaW4 | mmaL6 | mmaT3 | mmaI8 | mmaF32 => exact mmaIssue_skips
  case accld | accadd => exact accIssue_skips
  case chol | lup | givqr | grot | trsm => exact factIssue_skips
  case pivrd | gfrd => exact pivRead_skips
  case quantTensor | quantBlock | quantBlockTensor | quantCast => exact quantIssue_skips
  case dequantTensor | dequantBlock | dequantBlockTensor | dequantCast => exact dequantIssue_skips
  case mcstart | mcbase | mcbind => exact engineSend_skips
  case mcstopStop | mcstopSkip => exact mcstop_skips
  case ctxswSwitch | ctxswSave | ctxswRestore | ctxswRelease | ctxswEnd | ctxswHold => exact ctxsw_skips
  case mtlbinv | mtlbwr | lptwr => exact sysOp_skips
  case hvcallVersion | hvcallPartinfo | hvcallFrames | hvcallAttest => exact hvcall_skips
  all_goals cases hseq

/-- Settles O6: every instruction of the sequencer is an `issue`, which ends at its false guard. -/
theorem falseGuardSkips : Obligations.FalseGuardSkips := by
  unfold Obligations.FalseGuardSkips
  exact fun i s hseq => exec_skips i s hseq

end Sys2Proof.Machine
end

section
/-! PROOFS. What the operands of an instruction stop it with: the first empty queue among its sources (R48, R99), and in handler mode a field that names no
register (R51). -/

namespace Sys2Proof.Machine
open Sys2Proof.Claims

/-! ## The operands of a word -/

/-- The destination field judged and the sources read, nothing popped: what every scalar instruction begins with. -/
def operands (s : State) (d : Nat) (fs : List Src) : Res (List Word) := do
  dstOk s d
  srcVals s fs

@[simp] theorem operands_signed (s : State) (n d : Nat) (fs : List Src) : operands (signed s n) d fs = operands s d fs := by
  simp [operands]

/-- A body that begins with its operands stops where they do. -/
theorem operands_bind {α : Type} {s : State} {d : Nat} {fs : List Src} {st : Stop} (h : operands s d fs = .error st) (k : List Word → Res α) :
    (do dstOk s d; let vs ← srcVals s fs; k vs) = .error st := by
  unfold operands at h
  cases hd : dstOk s d with
  | error e =>
    rw [hd] at h
    cases h
    rfl
  | ok u =>
    rw [hd] at h
    exact congrArg (· >>= k) h

/-- The stop of a one-word instruction's body is taken. -/
theorem issue1_stop {s : State} (hOk : Bool) (body : State → Res State) {st : Stop} (hs : s.onSys = false) (hg : Unguarded s)
    (hh : hOk = true ∨ inHandler s = false) (hb : body (signed s 1) = .error st) : issue1 s hOk body = .next (takeStop s st) := by
  refine issue_stop s _ _ st hs hg rfl hh rfl (loopCheck_one s) ?_
  rw [signed_def, hb]
  rfl

theorem op1_stop {s : State} {d a : Nat} {ka : Bool} {st : Stop} (hs : s.onSys = false) (hg : Unguarded s)
    (h : operands s d [(a, ka)] = .error st) (f : Nat) (op : Word → Word × Nat) : op1 s d a ka f op = .next (takeStop s st) :=
  issue1_stop true _ hs hg (.inl rfl) (operands_bind ((operands_signed ..).trans h) _)

theorem op2_stop {s : State} {d a b : Nat} {ka kb : Bool} {st : Stop} (hs : s.onSys = false) (hg : Unguarded s)
    (h : operands s d [(a, ka), (b, kb)] = .error st) (f : Nat) (op : Word → Word → Word × Nat) :
    op2 s d a b ka kb f op = .next (takeStop s st) :=
  issue1_stop true _ hs hg (.inl rfl) (operands_bind ((operands_signed ..).trans h) _)

@[simp] theorem srcVals_nil (s : State) : srcVals s [] = .ok [] := by
  unfold srcVals
  split
  · rfl
  · split <;> rfl

theorem dstOk_of_operands_nil {s : State} {d : Nat} {st : Stop} (h : operands s d [] = .error st) : dstOk s d = .error st := by
  unfold operands at h
  cases hd : dstOk s d with
  | error e =>
    rw [hd] at h
    cases h
    rfl
  | ok u =>
    rw [hd, srcVals_nil] at h
    cases h

/-- An instruction that has a destination and no source. -/
theorem op0_stop {s : State} {d : Nat} {st : Stop} (hs : s.onSys = false) (hg : Unguarded s) (h : operands s d [] = .error st)
    (k : State → State) : issue1 s true (fun s => do dstOk s d; return k s) = .next (takeStop s st) := by
  refine issue1_stop true _ hs hg (.inl rfl) ?_
  rw [dstOk_signed, dstOk_of_operands_nil h]
  rfl

/-- A scalar instruction stops where its operands do. -/
theorem scalar_stop {i : Instr} {s : State} {x : Scalar} {m t : Nat} {st : Stop} (hx : scalarOf m t i = some x) (hs : s.onSys = false)
    (hg : Unguarded s) (h : operands s x.d x.srcs = .error st) : exec i s = .next (takeStop s st) := by
  cases i
  case add | sub | and | or | xor | shl | shr | sra | mul | mulhs | mulhu | min | max | minu | maxu | andn | seq | sne | slt | sltu | sge | sgeu |
    bext | bflip | div | divu | rem | remu | sext | zext | fadd | fsub | fmul | fdiv | fcmplt =>
    cases hx
    exact op2_stop hs hg h ..
  case clz | ctz | popc | brev | bswap | addi | andi | ori | xori | slti | shli | shri | srai | lcat | fsqrt | fcvti | icvtf =>
    cases hx
    exact op1_stop hs hg h ..
  case li f =>
    cases hx
    exact op0_stop hs hg h fun s => result s 1 f.d.toNat (BitVec.ofInt 64 f.imm.toInt)
  case tbrd f =>
    cases hx
    exact op0_stop hs hg h fun s => result s 1 f.d.toNat (BitVec.ofNat 64 s.cur.now)
  all_goals cases hx

/-! ## The first empty source (R48, R99) -/

/-- The head of a queue that holds an entry is read, or stops with a lower rank than QUNF. -/
theorem headQ_rank {c : Ctx} {q : Nat} (h : q = 0 ∨ qEntries c q ≠ []) {e : Stop} (he : headQ c q 0 = .error e) : 0 < e.rank := by
  unfold headQ at he
  split at he
  · cases he
  next hq =>
    split at he
    next hnil => exact absurd hnil (h.resolve_left hq)
    next =>
      cases he
      simp [Stop.rank]
    next =>
      cases he
      split <;> simp [Stop.rank]
    next =>
      split at he
      · cases he
        simp [Stop.rank]
      · cases he

/-- QUNF comes before a stop of a later operand. -/
theorem joinStop_qunf (q : Nat) (b : Stop) : joinStop (.trap 0x03 q) b = .trap 0x03 q := by
  unfold joinStop
  rw [if_neg (by simp [Stop.rank])]
  rfl

/-- QUNF comes before a stop of lower rank of an earlier operand. -/
theorem joinStop_before_qunf (q : Nat) {a : Stop} (ha : 0 < a.rank) : joinStop a (.trap 0x03 q) = .trap 0x03 q := if_pos ha

theorem headQ_empty {c : Ctx} {q : Nat} (hq : q ≠ 0) (h : qEntries c q = []) : headQ c q 0 = .error (.trap 0x03 q) := by
  simp [headQ, hq, h]

theorem gather_qunf {α : Type} (q : Nat) (rs : List (Res α)) : gather (.error (.trap 0x03 q) :: rs) = .error (.trap 0x03 q) := by
  unfold gather
  cases gather rs with
  | ok xs => rfl
  | error b => exact congrArg Except.error (joinStop_qunf q b)

theorem gather_before_qunf {α : Type} {q : Nat} {x : Res α} {rs : List (Res α)} (hx : ∀ e, x = .error e → 0 < e.rank)
    (hrs : gather rs = .error (.trap 0x03 q)) : gather (x :: rs) = .error (.trap 0x03 q) := by
  unfold gather
  rw [hrs]
  cases x with
  | ok x => rfl
  | error a => exact congrArg Except.error (joinStop_before_qunf q (hx a rfl))

/-- Of several queues the first empty one gives QUNF. -/
theorem headsQ_first_empty (c : Ctx) (l r : List Nat) {q : Nat} (hl : ∀ p ∈ l, p = 0 ∨ qEntries c p ≠ []) (hq : q ≠ 0)
    (hnil : qEntries c q = []) : headsQ c (l ++ q :: r) = .error (.trap 0x03 q) := by
  unfold headsQ
  induction l with
  | nil =>
    rw [List.nil_append, List.map_cons, headQ_empty hq hnil]
    exact gather_qunf ..
  | cons p l ih =>
    obtain ⟨hp, hl⟩ := List.forall_mem_cons.1 hl
    exact gather_before_qunf (fun e he => headQ_rank hp he) (ih hl)

/-- QUNF is taken as a trap. -/
theorem takeStop_qunf (s : State) (q : Nat) : takeStop s (.trap 0x03 q) = takeTrap s 0x03 q := by simp [takeStop, cancels]

/-- Settles O7: among the sources, read together, the QUNF of the first empty queue ranks before what the others meet. -/
theorem emptySourceTraps : Obligations.EmptySourceTraps := by
  unfold Obligations.EmptySourceTraps
  intro i s x l r f hx hm hg hsrcs hl hf hnil
  obtain ⟨hsys, hhandler⟩ := hm
  have hheads : headsQ s.cur (x.srcs.map (·.1)) = .error (.trap 0x03 f.1) := by
    rw [hsrcs, List.map_append, List.map_cons]
    exact headsQ_first_empty _ _ _ (List.forall_mem_map.2 hl) hf hnil
  have hstop : operands s x.d x.srcs = .error (.trap 0x03 f.1) := by
    simp [operands, dstOk, inHandler, srcVals, hsys, hhandler, hheads, bind, Except.bind]
  rw [scalar_stop hx hsys hg hstop, takeStop_qunf]

end Sys2Proof.Machine
end

section
/-! PROOFS. In handler mode a field of 16 to 63 names no register, and its ILLEGAL of class 0x05 is the lowest that the instruction can meet (R51, R88). -/

namespace Sys2Proof.Machine
open Sys2Proof.Claims

/-! ## Fields that name no handler register -/

theorem srcVals_handler_bad {s : State} (hm : HandlerMode s) {fs : List Src} {f : Src} (hf : f ∈ fs) (h16 : 16 ≤ f.1) :
    srcVals s fs = .error (illegal 0x05) := by
  obtain ⟨hsys, hhandler⟩ := hm
  have hany : fs.any (fun f => decide (f.1 ≥ 16)) = true := List.any_eq_true.2 ⟨f, hf, decide_eq_true h16⟩
  simp [srcVals, hsys, hhandler, hany]

theorem dstOk_handler_bad {s : State} (hm : HandlerMode s) {d : Nat} (h16 : 16 ≤ d) : dstOk s d = .error (illegal 0x05) := by
  obtain ⟨hsys, hhandler⟩ := hm
  simp [dstOk, inHandler, hsys, hhandler, h16]

/-- A destination or a source that names no register. -/
theorem operands_handler_bad {s : State} (hm : HandlerMode s) {d : Nat} {fs : List Src} (h : (∃ f ∈ fs, f.1 ≥ 16) ∨ d ≥ 16) :
    operands s d fs = .error (illegal 0x05) := by
  by_cases hd : 16 ≤ d
  · unfold operands
    rw [dstOk_handler_bad hm hd]
    rfl
  · obtain ⟨f, hf, h16⟩ := h.resolve_right hd
    unfold operands
    rw [dstOk_ready s d fun _ => Nat.lt_of_not_le hd, srcVals_handler_bad hm hf h16]
    rfl

theorem testBit_handler_bad {s : State} (hm : HandlerMode s) {q : Nat} (h16 : 16 ≤ q) (b : Nat) (neg : Bool) :
    testBit s q b neg = .error (illegal 0x05) := by
  obtain ⟨hsys, hhandler⟩ := hm
  simp [testBit, hsys, hhandler, h16, bind, Except.bind]

theorem handlerMode_signed {s : State} (hm : HandlerMode s) (n : Nat) : HandlerMode (signed s n) := by
  obtain ⟨hsys, hhandler⟩ := hm
  exact ⟨by simp [hsys], by simp [hhandler]⟩

/-! ## Their ILLEGAL is the lowest -/

/-- Checks that pass or meet an ILLEGAL of a higher class leave that of class 0x05 (R88). -/
def AboveFields (r : Res Unit) : Prop := ∀ st, r = .error st → ∃ a, st = .trap 0x01 a ∧ 0x05 < a % 256

theorem aboveFields_ok : AboveFields (.ok ()) := by
  intro st h
  cases h

theorem aboveFields_illegalOp {cls : Nat} (h5 : 0x05 < cls) (hcls : cls < 256) (reason x : Nat) : AboveFields (.error (illegalOp cls reason x)) := by
  intro st h
  cases h
  exact ⟨_, rfl, by omega⟩

theorem aboveFields_loopCheck (s : State) (n : Nat) (ends : Bool) : AboveFields (loopCheck s n ends) := by
  intro st h
  obtain ⟨a, rfl, ha⟩ := loopCheck_class s n ends st h
  exact ⟨a, rfl, by omega⟩

theorem aboveFields_loopRoom (s : State) : AboveFields (loopRoom s) := by
  intro st h
  unfold loopRoom at h
  split at h
  · cases h
    exact ⟨_, rfl, by decide⟩
  · cases h

theorem lowerClass_fields {α : Type} {checks : Res Unit} (h : AboveFields checks) : lowerClass checks (.error (illegal 0x05) : Res α) = .error (illegal 0x05) := by
  cases checks with
  | ok u => rfl
  | error st =>
    obtain ⟨a, rfl, ha⟩ := h st rfl
    simp [lowerClass, illegal, ha]

/-- An instruction whose body stops at such a field takes its ILLEGAL. -/
theorem issue_field {s : State} {ends : Bool} {pre : State → Res Unit} {body : State → Res (State × Flow)} (hm : HandlerMode s) (hg : Unguarded s)
    (hp : AboveFields (pre s)) (hb : body (signed s 1) = .error (illegal 0x05)) :
    issue s { endsBody := ends, pre := pre } body = .next (takeTrap s 0x01 0x0005) := by
  rw [issue_lower s { endsBody := ends, pre := pre } body 5 hm.1 hg rfl (.inl rfl) hp (aboveFields_loopCheck s _ _) ((signed_def s 1).symm ▸ hb),
    takeStop_illegal]

theorem issue1_field {s : State} {body : State → Res State} (hm : HandlerMode s) (hg : Unguarded s)
    (hb : body (signed s 1) = .error (illegal 0x05)) : issue1 s true body = .next (takeTrap s 0x01 0x0005) := by
  rw [issue1_stop true body hm.1 hg (.inl rfl) hb]
  exact congrArg _ (takeStop_illegal ..)

/-! ## The instructions that are not scalar -/

/-- An operand that can be read is judged, and one that cannot is not. -/
theorem aboveFields_peekCheck {s : State} {f : Src} {chk : Word → Res Unit} (h : ∀ x, AboveFields (chk x)) : AboveFields (peekCheck s f chk) := by
  unfold peekCheck
  split
  · exact h _
  · exact aboveFields_ok

theorem aboveFields_operandFirst {cls : Nat} (h5 : 0x05 < cls) (hcls : cls < 256) (s : State) (a : Src) (ok : Nat → Bool) (reason : Nat) :
    AboveFields (operandFirst s a ok cls reason) := by
  refine aboveFields_peekCheck fun x => ?_
  split
  · exact aboveFields_ok
  · exact aboveFields_illegalOp h5 hcls _ _

theorem tableIndex_class (t : Table) (x : Word) : AboveFields (do let _ ← tableIndex t x; return ()) := by
  intro st h
  unfold tableIndex at h
  split at h
  · cases h
    exact ⟨_, rfl, by omega⟩
  · cases h

theorem aboveFields_indexFirst (s : State) (t : Table) (a : Src) : AboveFields (indexFirst s t a) := by
  unfold indexFirst
  split
  · exact tableIndex_class t _
  · exact aboveFields_ok

theorem AboveFields.and {x y : Res Unit} (hx : AboveFields x) (hy : AboveFields y) : AboveFields (do x; y) := by
  cases x with
  | ok u => exact hy
  | error e => exact hx

/-- Two fields of which one names no register. -/
theorem field_pair {a b r : Nat} (ka kb : Bool) (hr : r ∈ [a, b]) (h16 : 16 ≤ r) : ∃ f ∈ [((a, ka) : Src), (b, kb)], 16 ≤ f.1 := by
  obtain rfl | hr := List.mem_cons.1 hr
  · exact ⟨_, List.mem_cons_self, h16⟩
  · obtain rfl := List.mem_singleton.1 hr
    exact ⟨(r, kb), by simp, h16⟩

theorem field_dst_src {d a r : Nat} (ka : Bool) (hr : r ∈ [d, a]) (h16 : 16 ≤ r) : (∃ f ∈ [((a, ka) : Src)], f.1 ≥ 16) ∨ d ≥ 16 := by
  obtain rfl | hr := List.mem_cons.1 hr
  · exact .inr h16
  · obtain rfl := List.mem_singleton.1 hr
    exact .inl ⟨(r, ka), by simp, h16⟩

section
variable {s : State} (hm : HandlerMode s) (hg : Unguarded s)
include hm hg

theorem tableWrite_field (f : FAB) (t : Table) (put : Ctx → Nat → Word → Ctx) {r : Nat} (hr : r ∈ [f.a.toNat, f.b.toNat]) (h16 : 16 ≤ r) :
    tableWrite f t put s = .next (takeTrap s 0x01 0x0005) := by
  obtain ⟨g, hgm, hg16⟩ := field_pair f.ka f.kb hr h16
  refine issue1_field hm hg ?_
  dsimp only
  rw [srcVals_handler_bad (handlerMode_signed hm 1) hgm hg16]
  exact lowerClass_fields (aboveFields_indexFirst _ _ _)

theorem tableRead_field (f : FDA) (t : Table) (get : Ctx → Nat → Word) {r : Nat} (hr : r ∈ [f.d.toNat, f.a.toNat]) (h16 : 16 ≤ r) :
    tableRead f t get s = .next (takeTrap s 0x01 0x0005) :=
  issue1_field hm hg (operands_bind (operands_handler_bad (handlerMode_signed hm 1) (field_dst_src f.ka hr h16)) _)

theorem jumpReg_field (f : FA) (linked : Bool) (h16 : 16 ≤ f.a.toNat) : jumpReg f s linked = .next (takeTrap s 0x01 0x0005) := by
  refine issue_field hm hg aboveFields_ok ?_
  rw [srcVals_handler_bad (f := (f.a.toNat, f.ka)) (handlerMode_signed hm 1) List.mem_cons_self h16]
  rfl

end

/-- A field of the instructions that R51 lists besides the scalar ones. -/
theorem exec_field {i : Instr} {s : State} {r : Nat} (hm : HandlerMode s) (hg : Unguarded s) (hr : r ∈ handlerFields i) (h16 : 16 ≤ r)
    (hmov : ∀ f, i = .mov f → f.wd = 0) : exec i s = .next (takeTrap s 0x01 0x0005) := by
  have hin : s.cur.handler = true := hm.2
  have hm1 : HandlerMode (signed s 1) := handlerMode_signed hm 1
  cases i
  all_goals dsimp only [exec]
  case mov f =>
    have hwd : f.wd.toNat = 0 := by rw [hmov f rfl]; rfl
    have hfields : (wide f.a.toNat (2 ^ f.wd.toNat)).map (fun q => ((q, f.ka) : Src)) = [(f.a.toNat, f.ka)] := by rw [hwd]; rfl
    refine issue_field hm hg ?_ ?_
    · simp only [widthOk, hwd, bne_self_eq_false, Bool.and_false]
      exact aboveFields_ok
    · dsimp only
      rw [hfields]
      exact operands_bind (operands_handler_bad hm1 (field_dst_src f.ka hr h16)) _
  case ltwr f | fpwr f | tswr f => exact tableWrite_field hm hg f _ _ hr h16
  case ltrd f | fprd f | tsrd f => exact tableRead_field hm hg f _ _ hr h16
  case jr f | jrl f =>
    obtain rfl := List.mem_singleton.1 hr
    exact jumpReg_field hm hg f _ h16
  case flagset f =>
    obtain ⟨g, hgm, hg16⟩ := field_pair f.ka f.kb hr h16
    refine issue1_field hm hg ?_
    dsimp only
    rw [srcVals_handler_bad hm1 hgm hg16]
    exact lowerClass_fields (.and (aboveFields_operandFirst (cls := 0x11) (by decide) (by decide) _ _ _ _)
      (aboveFields_operandFirst (cls := 0x11) (by decide) (by decide) _ _ _ _))
  case flagrd f => exact issue1_field hm hg (operands_bind (operands_handler_bad hm1 (field_dst_src f.ka hr h16)) _)
  case ctxwr f =>
    obtain ⟨g, hgm, hg16⟩ := field_pair f.ka f.kb hr h16
    refine issue_field hm hg ?_ ?_
    · rw [hin, Bool.or_true]
      exact aboveFields_ok
    · dsimp only
      rw [srcVals_handler_bad hm1 hgm hg16]
      rfl
  case ctxrd f =>
    refine issue_field hm hg ?_ (operands_bind (operands_handler_bad hm1 (field_dst_src f.ka hr h16)) _)
    rw [hin, Bool.or_true]
    exact aboveFields_ok
  case trap f =>
    obtain rfl := List.mem_singleton.1 hr
    refine issue_field hm hg aboveFields_ok ?_
    dsimp only
    rw [srcVals_handler_bad (f := (f.a.toNat, f.ka)) hm1 List.mem_cons_self h16]
    rfl
  case loop f =>
    obtain rfl := List.mem_singleton.1 hr
    refine issue_field hm hg (aboveFields_loopRoom s) ?_
    dsimp only
    rw [srcVals_handler_bad (f := (f.a.toNat, f.ka)) hm1 List.mem_cons_self h16]
    rfl
  case grd f =>
    obtain rfl := List.mem_singleton.1 hr
    refine issue_field hm hg (aboveFields_loopCheck _ _ _) ?_
    dsimp only
    rw [testBit_handler_bad hm1 h16]
    rfl
  case brc f =>
    obtain rfl := List.mem_singleton.1 hr
    refine issue_field hm hg ?_ ?_
    · simp only [brcLegal, hin, Bool.or_true, Bool.true_or]
      exact aboveFields_ok
    · rw [testBit_handler_bad hm1 h16]
      rfl
  case csrrd f =>
    obtain rfl := List.mem_singleton.1 hr
    refine issue_field hm hg aboveFields_ok ?_
    dsimp only
    rw [dstOk_handler_bad hm1 h16]
    rfl
  case csrwr f =>
    obtain rfl := List.mem_singleton.1 hr
    refine issue_field hm hg aboveFields_ok ?_
    dsimp only
    rw [srcVals_handler_bad (f := (f.a.toNat, false)) hm1 List.mem_cons_self h16]
    rfl
  case wbrd f =>
    obtain rfl := List.mem_singleton.1 hr
    refine issue_field hm hg ?_ ?_
    · rw [hin, Bool.or_true]
      exact aboveFields_ok
    · rw [dstOk_handler_bad hm1 h16]
      rfl
  all_goals cases hr

/-- Settles O11: such a field stops the operands with ILLEGAL of class 0x05, and the other checks of these instructions meet only higher classes. -/
theorem handlerRegisterLimit : Obligations.HandlerRegisterLimit := by
  unfold Obligations.HandlerRegisterLimit
  refine ⟨fun i s x hx hm hg h => ?_, fun i s r hr h16 hmov hm hg => exec_field hm hg hr h16 hmov⟩
  rw [scalar_stop hx hm.1 hg (operands_handler_bad hm h)]
  exact congrArg _ (takeStop_illegal ..)

end Sys2Proof.Machine
end

section
/-! PROOFS. The checks of an access: footprint and window (R70, R122, R378), and each bank once a cycle (R57, R287). -/

namespace Sys2Proof.Machine
open Sys2Proof.Claims

/-! ## Footprints and windows -/

/-- A granule or tile lies in a selected footprint entry, or the context is in phase 0 (R70, R122). -/
def FootCovered (c : Ctx) (eng : Nat) (wr : Bool) (space g : Nat) : Prop :=
  c.footSel = none ∨ ∃ (m : Word) (n : Nat), c.footSel = some m ∧ n < 64 ∧ m.getLsbD n = true ∧ footCovers c n eng wr space g = true

/-- A granule or tile fails the check. -/
def footFails (c : Ctx) (eng : Nat) (wr : Bool) (space g : Nat) : Bool :=
  !inWindow c space g || (match c.footSel with
    | none => false
    | some m => !(List.range 64).any (fun n => bitB m.toNat n && footCovers c n eng wr space g))

theorem footFails_iff (c : Ctx) (eng : Nat) (wr : Bool) (space g : Nat) :
    footFails c eng wr space g = false ↔ inWindow c space g = true ∧ FootCovered c eng wr space g := by
  unfold footFails FootCovered
  cases hsel : c.footSel with
  | none => simp
  | some m => simp [bitB_testBit, BitVec.getLsbD]

theorem footCheck_eq (c : Ctx) (eng : Nat) (wr : Bool) (space : Nat) (gs : List Nat) :
    footCheck c eng wr space gs = (match (gs.filter (footFails c eng wr space)).min? with
      | none => .ok ()
      | some g => .error (.trap 0x09 (footInfo eng wr space g (if inWindow c space g then 0 else 2 ^ 19)))) := rfl

theorem footCheck_passes {c : Ctx} {eng : Nat} {wr : Bool} {space : Nat} {gs : List Nat} (h : ∀ g ∈ gs, footFails c eng wr space g = false) :
    footCheck c eng wr space gs = .ok () := by
  have hnil : gs.filter (footFails c eng wr space) = [] := List.filter_eq_nil_iff.2 fun g hg => by simp [h g hg]
  rw [footCheck_eq, hnil]
  rfl

/-- The lowest granule or tile that fails is reported. -/
theorem footCheck_lowest {c : Ctx} {eng : Nat} {wr : Bool} {space g : Nat} {gs : List Nat} (hg : g ∈ gs) (hfail : footFails c eng wr space g = true)
    (hlow : ∀ k ∈ gs, k < g → footFails c eng wr space k = false) :
    footCheck c eng wr space gs = .error (.trap 0x09 (footInfo eng wr space g (if inWindow c space g then 0 else 2 ^ 19))) := by
  have hmin : (gs.filter (footFails c eng wr space)).min? = some g := by
    refine List.min?_eq_some_iff.2 ⟨List.mem_filter.2 ⟨hg, hfail⟩, fun k hk => ?_⟩
    obtain ⟨hkm, hkf⟩ := List.mem_filter.1 hk
    by_contra hlt
    rw [hlow k hkm (Nat.lt_of_not_le hlt)] at hkf
    cases hkf
  rw [footCheck_eq, hmin]

/-! ## Banks -/

/-- A bank of the list at its place is touched already: in an earlier access of the cycle, or earlier in the list. -/
def bankAgain (used bs : List Nat) (p : Nat × Nat) : Bool := used.contains p.1 || (bs.take p.2).contains p.1

/-- Where no atomic holds a bank, only banks touched already stop the access. -/
theorem useBanks_unheld {s : State} {bs : List Nat} (h : ∀ b ∈ bs, bankHolder s.cur b s.cur.now none = none) {used : List Nat}
    (hused : (if (s.core s.curCore).bankCycle = s.cur.now then (s.core s.curCore).banks else []) = used) :
    useBanks s bs = (match bs.zipIdx.find? (bankAgain used bs) with
      | some p => .error (.trap 0x0F (bankInfo p.1))
      | none => .ok (s.setCore s.curCore { s.core s.curCore with banks := used ++ bs, bankCycle := s.cur.now })) := by
  have hfree : bs.find? (fun b => (bankHolder s.cur b s.cur.now none).isSome) = none := List.find?_eq_none.2 fun b hb => by simp [h b hb]
  unfold useBanks
  dsimp only
  rw [hfree, hused]
  rfl

/-- Different banks, none of them touched. -/
theorem find?_bankAgain_fresh {used bs : List Nat} (hnodup : bs.Nodup) (hfresh : ∀ b ∈ bs, b ∉ used) :
    bs.zipIdx.find? (bankAgain used bs) = none := by
  refine List.find?_eq_none.2 fun p hp => ?_
  obtain ⟨hlt, hget⟩ := List.mem_zipIdx' hp
  have hused : p.1 ∉ used := hfresh _ (hget ▸ List.getElem_mem hlt)
  have htake : p.1 ∉ bs.take p.2 := by
    intro hmem
    obtain ⟨k, hk, hkp⟩ := List.mem_take_iff_getElem.1 hmem
    have hkeq : k = p.2 := (hnodup.getElem_inj_iff).1 (hkp.trans hget)
    omega
  simp [bankAgain, hused, htake]

/-- Settles O27: the failing granules are those that do not pass, and the bank check looks for one that is touched already. -/
theorem accessChecks : Obligations.AccessChecks := by
  unfold Obligations.AccessChecks
  refine ⟨fun c eng wr space gs => ⟨fun hall => ?_, fun g hg hfails hlow => ?_⟩, fun s bs hheld => ⟨fun hnodup hfresh => ?_, fun b hb hbu => ?_⟩⟩
  · exact footCheck_passes fun g hg => (footFails_iff ..).2 (hall g hg)
  · exact footCheck_lowest hg (by simpa using mt (footFails_iff ..).1 hfails) fun k hk hlt => (footFails_iff ..).2 (hlow k hk hlt)
  · rw [useBanks_unheld hheld rfl, find?_bankAgain_fresh hnodup hfresh]
  · have hagain : bs.zipIdx.find? (bankAgain (if (s.core s.curCore).bankCycle = s.cur.now then (s.core s.curCore).banks else []) bs) = some (b, 0) := by
      subst hb
      simp [bankAgain, hbu]
    rw [useBanks_unheld hheld rfl, hagain]

end Sys2Proof.Machine
end

section
/-! PROOFS. A vector source that names a w queue (R52, R133). -/

namespace Sys2Proof.Machine
open Sys2Proof.Claims

@[simp] theorem wEntries_setW (c : Ctx) (n : Nat) (es : List WEntry) : wEntries (setW c n es) n = es := by
  cases es <;> simp [wEntries, setW]

theorem wEntries_setW_other (c : Ctx) {m n : Nat} (es : List WEntry) (h : m ≠ n) : wEntries (setW c n es) m = wEntries c m := by
  cases es <;> simp [wEntries, setW, NMap.getD_set_other, NMap.getD_erase_other, h]

/-- A w queue without its head. -/
def popW (c : Ctx) (n : Nat) : Ctx := setW c n (wEntries c n).tail

/-- Sources without a tapped slot move no cursor. -/
theorem vpop_queues (s : State) {xs : List VSrc} (h : ∀ x ∈ xs, x.field < 16 ∧ x.slot = none) :
    (vpop s xs).cur = (xs.map (·.field)).dedup.foldl popW s.cur := by
  have hfields : xs.filter (fun x => decide (x.field < 16)) = xs := List.filter_eq_self.2 fun x hx => decide_eq_true (h x hx).1
  have hcursors : ∀ (l : List VSrc) (c : Ctx), (∀ x ∈ l, x.slot = none) → l.foldl (fun c x => match x.slot with
      | some y => moveCursor c (x.field - 16) y
      | none => c) c = c := by
    intro l
    induction l with
    | nil => intro _ _; rfl
    | cons x l ih =>
      intro c hl
      obtain ⟨hx, hl⟩ := List.forall_mem_cons.1 hl
      rw [List.foldl_cons, hx]
      exact ih c hl
  unfold vpop
  dsimp only
  rw [State.modCur_cur, State.modCur_cur, hfields]
  exact hcursors xs _ fun x hx => (h x hx).2

theorem vread_valid {s : State} {f : Nat} (hf : f < 16) {w : LaneWord} {es : List WEntry} (h : wEntries s.cur f = ⟨w, none⟩ :: es) :
    vread s f = .ok ⟨f, w, none⟩ := by
  unfold vread
  rw [if_pos hf, h]

theorem vread_empty {s : State} {f : Nat} (hf : f < 16) (h : wEntries s.cur f = []) : vread s f = .error (.trap 0x03 (32 + f)) := by
  unfold vread
  rw [if_pos hf, h]

/-- Settles O30: the fields of the sources without doubles are popped in turn (`foldl_pops_once`). -/
theorem vectorQueueSources : Obligations.VectorQueueSources := by
  unfold Obligations.VectorQueueSources
  refine fun s f hf => ⟨fun w es h => vread_valid hf h, fun h => vread_empty hf h, fun xs hxs => ?_⟩
  rw [vpop_queues s hxs, foldl_pops_once wEntries popW f (fun c => wEntries_setW ..) (fun c r hr => wEntries_setW_other c _ hr.symm)
    (List.nodup_dedup _)]
  simp only [List.mem_dedup]

end Sys2Proof.Machine
end

section
/-! PROOFS. The ILLEGAL of a check stands where the body meets none of a lower class (R88), and reading operands meets none at all. -/

namespace Sys2Proof.Machine
open Sys2Proof.Claims

/-- A stop that is no ILLEGAL of a class below `k`. -/
def ClassFrom (k : Nat) (e : Stop) : Prop := ∀ b, e = .trap 0x01 b → k ≤ b % 256

/-- A stop that is no ILLEGAL. -/
def NotIllegal (e : Stop) : Prop := ∀ b, e ≠ .trap 0x01 b

theorem NotIllegal.classFrom {e : Stop} (h : NotIllegal e) (k : Nat) : ClassFrom k e := fun b hb => absurd hb (h b)

theorem classFrom_illegal {k b : Nat} (h : k ≤ b % 256) : ClassFrom k (illegal b) := by
  rintro c ⟨⟩
  exact h

theorem notIllegal_trap {cause : Nat} (h : cause ≠ 0x01) (b : Nat) : NotIllegal (.trap cause b) := by
  rintro c ⟨⟩
  exact h rfl

theorem notIllegal_fault (n : Nat) : NotIllegal (.fault n) := by rintro c ⟨⟩

theorem notIllegal_hold (kind late : Nat) : NotIllegal (.hold kind late) := by rintro c ⟨⟩

theorem StopsAre.mono {α : Type} {P Q : Stop → Prop} {r : Res α} (h : StopsAre P r) (hpq : ∀ e, P e → Q e) : StopsAre Q r :=
  ⟨fun e he => hpq e (h.of_error e he)⟩

theorem StopsAre.classFrom {α : Type} {r : Res α} (h : StopsAre NotIllegal r) (k : Nat) : StopsAre (ClassFrom k) r := h.mono fun _ he => he.classFrom k

/-! ## Checks against the body -/

/-- The state that a body runs in. -/
def bodyState (s : State) (r : IssueRule) : State := if s.onSys || !r.signs then s else signWords s r.words

theorem bodyState_signs {s : State} {r : IssueRule} (h : r.signs = true) : bodyState s r = signed s r.words := by
  unfold bodyState
  rw [h, signed_def]

/-- The ILLEGAL of the checks is taken where the body meets no ILLEGAL of a lower class. -/
theorem issue_illegal {s : State} {r : IssueRule} {body : State → Res (State × Flow)} {a : Nat} (hg : Unguarded s) (hf : r.first s = .ok ())
    (hh : r.handlerOk = true ∨ inHandler s = false) (hc : lowerClass (r.pre s) (loopCheck s r.words r.endsBody) = .error (.trap 0x01 a))
    (hb : StopsAre (ClassFrom (a % 256)) (body (bodyState s r))) :
    issue s r body = .next (if s.onSys then sysTrap s 0x01 a else takeTrap s 0x01 a) := by
  have hmode : (!r.handlerOk && inHandler s) = false := by
    obtain h | h := hh
    · rw [h]; rfl
    · rw [h, Bool.and_false]
  have hgo : lowerClass (.error (.trap 0x01 a)) (body (bodyState s r)) = .error (.trap 0x01 a) := by
    generalize body (bodyState s r) = x at hb
    match x, hb with
    | .ok _, _ => rfl
    | .error (.fault _), _ => rfl
    | .error (.hold _ _), _ => rfl
    | .error (.trap cause b), hb =>
      by_cases hcause : cause = 0x01
      · subst hcause
        have hle : ¬ b % 256 < a % 256 := Nat.not_lt.2 (hb.of_error _ rfl b rfl)
        simp only [lowerClass, if_neg hle]
      · simp [lowerClass, hcause]
  unfold bodyState at hgo
  unfold issue
  rw [if_neg hg]
  simp only [hf, hmode, hc, bind, Except.bind, Bool.false_eq_true, if_false, hgo, takeStop_illegal]
  split <;> rfl

/-! ## What reading meets -/

theorem joinStop_notIllegal {a b : Stop} (ha : NotIllegal a) (hb : NotIllegal b) : NotIllegal (joinStop a b) := by
  unfold joinStop
  split
  · exact hb
  · split
    · exact notIllegal_fault _
    · unfold mergeTags
      split
      · exact notIllegal_trap (by decide) _
      · exact ha

theorem gather_notIllegal {α : Type} {rs : List (Res α)} (h : ∀ r ∈ rs, StopsAre NotIllegal r) : StopsAre NotIllegal (gather rs) := by
  induction rs with
  | nil => exact .ok _
  | cons r rs ih =>
    obtain ⟨hr, hrs⟩ := List.forall_mem_cons.1 h
    have hrest := ih hrs
    unfold gather
    split
    · exact .ok _
    next hb => exact .error (hrest.of_error _ hb)
    · exact .error (hr.of_error _ rfl)
    next hb => exact .error (joinStop_notIllegal (hr.of_error _ rfl) (hrest.of_error _ hb))

theorem headQ_notIllegal (c : Ctx) (q kind : Nat) : StopsAre NotIllegal (headQ c q kind) := by
  unfold headQ
  split
  · exact .ok _
  · split
    · exact .error (notIllegal_trap (by decide) _)
    · exact .error (notIllegal_hold _ _)
    · split
      · exact .error (notIllegal_hold _ _)
      · exact .error (notIllegal_fault _)
    · split
      · exact .error (notIllegal_trap (by decide) _)
      · exact .ok _

theorem srcVals_notIllegal {s : State} {fs : List Src} (h : HandlerMode s → ∀ f ∈ fs, f.1 < 16) : StopsAre NotIllegal (srcVals s fs) := by
  unfold srcVals
  split
  · exact .ok _
  next hsys =>
    split
    next hhandler =>
      have hlow : fs.any (fun f => decide (f.1 ≥ 16)) = false :=
        List.any_eq_false.2 fun f hf => by simpa using h ⟨by simpa using hsys, hhandler⟩ f hf
      rw [hlow]
      exact .ok _
    next =>
      refine gather_notIllegal fun r hr => ?_
      obtain ⟨q, _, rfl⟩ := List.mem_map.1 hr
      exact headQ_notIllegal ..

theorem testBit_notIllegal {s : State} {q : Nat} (h : HandlerMode s → q < 16) (b : Nat) (neg : Bool) : StopsAre NotIllegal (testBit s q b neg) := by
  unfold testBit
  dsimp only
  split
  · exact .ok _
  next hsys =>
    split
    next hhandler =>
      rw [if_neg (Nat.not_le.2 (h ⟨by simpa using hsys, hhandler⟩))]
      exact .ok _
    next => exact .bind (headQ_notIllegal ..) fun v => .pure _

/-- Sources of a compute core in queue mode that give values are ready. -/
theorem srcsReady_of_srcVals {s : State} (hm : QueueMode s) {fs : List Src} {vs : List Word} (h : srcVals s fs = .ok vs) : SrcsReady s fs := by
  obtain ⟨hsys, hhandler⟩ := hm
  have hheads : gather ((fs.map (·.1)).map fun q => headQ s.cur q 0) = .ok vs := by
    simpa [srcVals, hsys, hhandler, headsQ] using h
  have hok : ∀ (rs : List (Res Word)) (vs : List Word), gather rs = .ok vs → ∀ r ∈ rs, ∃ v, r = .ok v := by
    intro rs
    induction rs with
    | nil => intro _ _ r hr; cases hr
    | cons r rs ih =>
      intro vs hvs
      unfold gather at hvs
      split at hvs
      next v xs hxs => exact List.forall_mem_cons.2 ⟨⟨v, rfl⟩, ih xs hxs⟩
      all_goals cases hvs
  intro f hf
  obtain ⟨v, hv⟩ := hok _ vs hheads (headQ s.cur f.1 0) (List.mem_map.2 ⟨f.1, List.mem_map_of_mem hf, rfl⟩)
  refine .inr (.inr ⟨⟨hsys, hhandler⟩, ?_⟩)
  unfold headQ at hv
  split at hv
  next hz => exact .inl hz
  next =>
    split at hv
    · cases hv
    · cases hv
    · cases hv
    next w p es hes =>
      split at hv
      · cases hv
      next hp => exact .inr ⟨w, es, hes⟩

end Sys2Proof.Machine
end

section
/-! PROOFS. Branches, guards, calls, loops and IDLE on operands that can be read (R50, R109–R115). -/

namespace Sys2Proof.Machine
open Sys2Proof.Claims

/-! ## What the issue of a word leaves as it is -/

section
variable (s : State) (x : Doing)

@[simp] theorem atIssue_sys : (atIssue s x).sys = s.sys := by
  obtain h | ⟨g, w, h⟩ := atIssue_frame s x <;> rw [h]
  rfl

theorem atIssue_cur : (atIssue s x).cur = { s.cur with seg := (atIssue s x).cur.seg, sigNext := (atIssue s x).cur.sigNext } := by
  obtain h | ⟨g, w, h⟩ := atIssue_frame s x <;> rw [h]
  simp

@[simp] theorem loopsOf_atIssue : loopsOf (atIssue s x) = loopsOf s := by
  unfold loopsOf
  rw [atIssue_onSys, atIssue_sys, atIssue_cur]

@[simp] theorem pcOf_atIssue : pcOf (atIssue s x) = pcOf s := by
  unfold pcOf
  rw [atIssue_onSys, atIssue_sys, atIssue_cur]

@[simp] theorem nextWord_atIssue : nextWord (atIssue s x) = nextWord s := by
  obtain h | ⟨g, w, h⟩ := atIssue_frame s x <;> rw [h]
  simp [nextWord]

theorem loopRule_atIssue (n : Nat) (ends : Bool) : LoopRule (atIssue s x) n ends ↔ LoopRule s n ends := by
  unfold LoopRule
  rw [loopsOf_atIssue, pcOf_atIssue]

end

/-! ## Popped sources leave the sequencer as it is -/

section
variable (s : State) (fs : List Src)

@[simp] theorem popSrcs_onSys : (popSrcs s fs).onSys = s.onSys := by
  unfold popSrcs
  split <;> rfl

@[simp] theorem popSrcs_sys : (popSrcs s fs).sys = s.sys := by
  unfold popSrcs
  split <;> rfl

theorem popSrcs_cur : (popSrcs s fs).cur = { s.cur with q := (popSrcs s fs).cur.q } := by
  unfold popSrcs
  split
  · rfl
  · rw [State.modCur_cur]
    exact dropHeads_frame ..

@[simp] theorem pcOf_popSrcs : pcOf (popSrcs s fs) = pcOf s := by
  unfold pcOf
  rw [popSrcs_onSys, popSrcs_sys, popSrcs_cur]

@[simp] theorem loopsOf_popSrcs : loopsOf (popSrcs s fs) = loopsOf s := by
  unfold loopsOf
  rw [popSrcs_onSys, popSrcs_sys, popSrcs_cur]

end

/-! ## The transfers, one by one -/

theorem callLink_eq (s : State) : link s = callLink s (pcOf s) := by
  unfold link callLink
  split
  · rfl
  · split
    · rfl
    · rfl

theorem brcLegal_ok {s : State} (h : SystemMode s ∨ HandlerMode s ∨ (QueueMode s ∧ s.cur.seg.active = true ∧ s.cur.seg.opn = true)) :
    brcLegal s = .ok () := by
  unfold brcLegal
  obtain hsys | ⟨_, hhandler⟩ | ⟨_, hactive, hopn⟩ := h
  · rw [show s.onSys = true from hsys]
    rfl
  · rw [hhandler, Bool.or_true]
    rfl
  · rw [hactive, hopn, Bool.and_true, Bool.or_true]
    rfl

theorem loopRoom_ok {s : State} (h : (loopsOf s).length < 4) : loopRoom s = .ok () := if_neg (Nat.not_le.2 h)

theorem brc_completes (f : FBrc) (s : State) {x : Doing} (hx : controlActs (.brc f) = some x) : Completes (.brc f) s x := by
  cases hx
  refine completes_of _ s _ _ _ (show execBrc f s = issue s _ _ from rfl) rfl rfl rfl (fun _ _ => rfl) (fun _ => .inl rfl)
    (fun hmay _ => brcLegal_ok hmay) fun _ hok _ => ?_
  dsimp only
  rw [testBit_ready _ _ _ _ hok, popSrcs_nil]
  rfl

theorem br_completes (f : FBr) (s : State) {x : Doing} (hx : controlActs (.br f) = some x) : Completes (.br f) s x := by
  cases hx
  refine completes_of _ s _ _ _ (show execBr f s = issue s _ _ from rfl) rfl rfl rfl (fun _ _ => rfl) (fun _ => .inl rfl) (fun _ _ => rfl) fun _ _ _ => ?_
  dsimp only
  rw [popSrcs_nil]
  rfl

theorem call_completes (f : FCall) (s : State) {x : Doing} (hx : controlActs (.call f) = some x) : Completes (.call f) s x := by
  cases hx
  refine completes_of _ s _ _ _ (show execCall f s = issue s _ _ from rfl) rfl rfl rfl (fun _ _ => rfl) (fun _ => .inl rfl) (fun _ _ => rfl) fun _ _ _ => ?_
  dsimp only
  rw [popSrcs_nil]
  exact congrArg (fun t => Except.ok (t, Flow.jump f.target.toNat true)) (callLink_eq _)

theorem jr_completes (f : FA) (s : State) {x : Doing} (hx : controlActs (.jr f) = some x) : Completes (.jr f) s x := by
  cases hx
  refine completes_of _ s _ _ _ (show jumpReg f s false = issue s _ _ from rfl) rfl rfl rfl (fun _ _ => rfl) (fun _ => .inl rfl) (fun _ _ => rfl) fun _ _ hvals => ?_
  dsimp only at hvals ⊢
  rw [hvals]
  rfl

theorem jrl_completes (f : FA) (s : State) {x : Doing} (hx : controlActs (.jrl f) = some x) : Completes (.jrl f) s x := by
  cases hx
  refine completes_of _ s _ _ _ (show jumpReg f s true = issue s _ _ from rfl) rfl rfl rfl (fun _ _ => rfl) (fun _ => .inl rfl) (fun _ _ => rfl) fun _ _ hvals => ?_
  dsimp only at hvals ⊢
  rw [hvals]
  simp [bind, Except.bind, pure, Except.pure, callLink_eq, arg1]

theorem loop_completes (f : FLoop) (s : State) {x : Doing} (hx : controlActs (.loop f) = some x) : Completes (.loop f) s x := by
  cases hx
  refine completes_of _ s _ _ _ (show execLoop f s = issue s _ _ from rfl) rfl rfl rfl (fun _ _ => rfl) (fun _ => .inl rfl)
    (fun _ hok => loopRoom_ok (by simpa using hok)) fun _ _ hvals => ?_
  dsimp only at hvals ⊢
  rw [hvals]
  have hzero : (srcValue s f.a.toNat).toNat = 0 ↔ srcValue s f.a.toNat = 0#64 := by
    rw [← BitVec.toNat_inj]
    rfl
  by_cases h0 : srcValue s f.a.toNat = 0#64
  · simp [bind, Except.bind, pure, Except.pure, srcValues, arg1, h0]
  · simp [bind, Except.bind, pure, Except.pure, srcValues, arg1, h0, hzero]

theorem grd_completes (f : FGrd) (s : State) {x : Doing} (hx : controlActs (.grd f) = some x) : Completes (.grd f) s x := by
  cases hx
  refine completes_of _ s _ _ _ (show execGrd f s = issue s _ _ from rfl) rfl rfl rfl (fun _ _ => rfl) (fun _ => .inl rfl)
    (fun _ hok => loopCheck_ok _ _ _ (by simpa [loopRule_atIssue] using hok.2)) fun _ hok _ => ?_
  dsimp only
  rw [testBit_ready _ _ _ _ hok.1, popSrcs_nil]
  rfl

theorem idle_completes (f : FIdl) (s : State) {x : Doing} (hx : controlActs (.idle f) = some x) : Completes (.idle f) s x := by
  cases hx
  refine completes_of _ s _ _ _ (show execIdle f s = issue s _ _ from rfl) rfl rfl rfl (fun _ _ => rfl) (fun _ => .inl rfl) (fun _ _ => rfl) fun _ _ _ => ?_
  dsimp only
  rw [popSrcs_nil]

theorem controlActs_complete (i : Instr) (s : State) (x : Doing) (hx : controlActs i = some x) : Completes i s x := by
  cases i
  case brc f => exact brc_completes f s hx
  case br f => exact br_completes f s hx
  case call f => exact call_completes f s hx
  case jr f => exact jr_completes f s hx
  case jrl f => exact jrl_completes f s hx
  case loop f => exact loop_completes f s hx
  case grd f => exact grd_completes f s hx
  case idle f => exact idle_completes f s hx
  all_goals cases hx

end Sys2Proof.Machine
end

section
/-! PROOFS. Transfers and the loop stack, and the ILLEGALs of loops (R113, R114). -/

namespace Sys2Proof.Machine
open Sys2Proof.Claims

/-! ## A transfer (R113) -/

theorem transfer_leaves {s : State} {target : Nat} {l : LoopRec} {ls : List LoopRec} (hl : loopsOf s = l :: ls)
    (hin : l.holds (pcOf s) = true) (hout : l.holds (target % 65536) = false) : transfer s target false = goto (setLoops s ls) target 1 := by
  simp [transfer, hl, hin, hout]

theorem transfer_keeps {s : State} {target : Nat} {call : Bool}
    (h : loopsOf s = [] ∨ call = true ∨ ∃ l ls, loopsOf s = l :: ls ∧ (l.holds (pcOf s) = false ∨ l.holds (target % 65536) = true)) :
    transfer s target call = goto s target 1 := by
  unfold transfer
  dsimp only
  split
  next l ls hl =>
    refine if_neg fun hleaves => ?_
    simp only [Bool.and_eq_true, Bool.not_eq_true'] at hleaves
    obtain ⟨⟨hcall, hin⟩, hout⟩ := hleaves
    obtain hnil | hkeep | ⟨k, ks, hk, hstays⟩ := h
    · rw [hl] at hnil
      cases hnil
    · rw [hcall] at hkeep
      cases hkeep
    · rw [hl] at hk
      cases hk
      simp [hin, hout] at hstays
  next => rfl

/-! ## The check of R114 -/

section
variable {s : State} {l : LoopRec} {ls : List LoopRec} (hl : loopsOf s = l :: ls)
include hl

theorem loopCheck_ends {n : Nat} (h : (pcOf s + n - 1) % 65536 = l.last) :
    loopCheck s n true = .error (illegal (0x0A + 2 * 2 ^ 8 + l.last * 2 ^ 16)) := by
  simp [loopCheck, hl, h]

theorem loopCheck_past {n k : Nat} {ends : Bool} (hends : ends = true → (pcOf s + n - 1) % 65536 ≠ l.last) (hk : k < n - 1)
    (h : (pcOf s + k) % 65536 = l.last) : loopCheck s n ends = .error (illegal (0x0A + 3 * 2 ^ 8 + l.last * 2 ^ 16)) := by
  have hlast : (ends && (pcOf s + n - 1) % 65536 == l.last) = false := by
    cases ends with
    | false => rfl
    | true => simpa using hends rfl
  have hany : (List.range (n - 1)).any (fun k => (pcOf s + k) % 65536 == l.last) = true :=
    List.any_eq_true.2 ⟨k, List.mem_range.2 hk, by simpa using h⟩
  simp [loopCheck, hl, hlast, hany]

end

/-! ## The state of a body -/

theorem bodyState_cases (s : State) (r : IssueRule) : bodyState s r = s ∨ bodyState s r = signed s r.words := by
  unfold bodyState signed
  cases s.onSys <;> cases r.signs <;> simp

theorem handlerMode_of_bodyState {s : State} {r : IssueRule} (h : HandlerMode (bodyState s r)) : HandlerMode s := by
  obtain heq | heq := bodyState_cases s r <;> rw [heq] at h
  · exact h
  · obtain ⟨hsys, hhandler⟩ := h
    exact ⟨by simpa using hsys, by simpa using hhandler⟩

/-- An ILLEGAL of loops stands where the body meets none of a class below 0x0A. -/
theorem issue_loopIllegal {s : State} {r : IssueRule} {body : State → Res (State × Flow)} {reason last : Nat} (hg : Unguarded s)
    (hf : r.first s = .ok ()) (hh : r.handlerOk = true ∨ inHandler s = false)
    (hc : lowerClass (r.pre s) (loopCheck s r.words r.endsBody) = .error (illegal (0x0A + reason * 2 ^ 8 + last * 2 ^ 16)))
    (hb : StopsAre (ClassFrom 0x0A) (body (bodyState s r))) : issue s r body = loopIllegal s reason last := by
  have hclass : (0x0A + reason * 2 ^ 8 + last * 2 ^ 16) % 256 = 0x0A := by omega
  exact issue_illegal hg hf hh hc (hclass.symm ▸ hb)

/-! ## The instructions, one by one -/

/-- A source field that names a register where handler code runs. -/
theorem srcVals_one_notIllegal {s : State} {r : IssueRule} {a : Nat} {ka : Bool} (hlow : HandlerMode s → a < 16) :
    StopsAre NotIllegal (srcVals (bodyState s r) [(a, ka)]) :=
  srcVals_notIllegal fun hm f hf => by
    rw [List.mem_singleton.1 hf]
    exact hlow (handlerMode_of_bodyState hm)

/-- LOOP with four loops active (R114). -/
theorem loop_full {s : State} (hg : Unguarded s) {f : FLoop} (hlow : HandlerMode s → f.a.toNat < 16) (hfull : 4 ≤ (loopsOf s).length) :
    exec (.loop f) s = loopIllegal s 1 0 := by
  have hroom : loopRoom s = .error (illegal (0x0A + 1 * 2 ^ 8 + 0 * 2 ^ 16)) := if_pos hfull
  refine (issue_loopIllegal hg rfl (.inl rfl) ?_ ?_ : execLoop f s = _)
  · dsimp only
    rw [hroom]
    cases hcheck : loopCheck s 1 true with
    | ok u => rfl
    | error e =>
      obtain ⟨a, rfl, ha⟩ := loopCheck_class s 1 true e hcheck
      simp [lowerClass, illegal, ha]
  · exact .bind ((srcVals_one_notIllegal hlow).classFrom _) fun _ => .ite (.pure _) (.pure _)

section
variable {s : State} {l : LoopRec} {ls : List LoopRec} (hg : Unguarded s) (hl : loopsOf s = l :: ls)
include hg hl

section
variable (hend : (pcOf s + 0) % 65536 = l.last)
include hend

theorem br_ends (f : FBr) : exec (.br f) s = loopIllegal s 2 l.last :=
  (issue_loopIllegal hg rfl (.inl rfl) (loopCheck_ends hl hend) (.ok _) : execBr f s = _)

theorem call_ends (f : FCall) : exec (.call f) s = loopIllegal s 2 l.last :=
  (issue_loopIllegal hg rfl (.inl rfl) (loopCheck_ends hl hend) (.ok _) : execCall f s = _)

theorem jumpReg_ends (f : FA) (hlow : HandlerMode s → f.a.toNat < 16) (linked : Bool) : jumpReg f s linked = loopIllegal s 2 l.last :=
  issue_loopIllegal hg rfl (.inl rfl) (loopCheck_ends hl hend) (.bind ((srcVals_one_notIllegal hlow).classFrom _) fun _ => .pure _)

theorem loop_ends (f : FLoop) (hlow : HandlerMode s → f.a.toNat < 16) (hroom : (loopsOf s).length < 4) :
    exec (.loop f) s = loopIllegal s 2 l.last := by
  refine (issue_loopIllegal hg rfl (.inl rfl) ?_ (.bind ((srcVals_one_notIllegal hlow).classFrom _) fun _ => .ite (.pure _) (.pure _)) : execLoop f s = _)
  dsimp only
  rw [loopRoom_ok hroom]
  exact loopCheck_ends hl hend

theorem brc_ends (f : FBrc) (hlow : HandlerMode s → f.gq.toNat < 16)
    (hopen : QueueMode s → s.cur.seg.active = true ∧ s.cur.seg.opn = true) : exec (.brc f) s = loopIllegal s 2 l.last := by
  have hmode : SystemMode s ∨ HandlerMode s ∨ (QueueMode s ∧ s.cur.seg.active = true ∧ s.cur.seg.opn = true) := by
    cases hsys : s.onSys with
    | true => exact .inl hsys
    | false =>
      cases hhandler : s.cur.handler with
      | true => exact .inr (.inl ⟨hsys, hhandler⟩)
      | false => exact .inr (.inr ⟨⟨hsys, hhandler⟩, hopen ⟨hsys, hhandler⟩⟩)
  refine (issue_loopIllegal hg rfl (.inl rfl) ?_ ?_ : execBrc f s = _)
  · dsimp only
    rw [brcLegal_ok hmode]
    exact loopCheck_ends hl hend
  · exact .bind ((testBit_notIllegal (fun hm => hlow (handlerMode_of_bodyState hm)) ..).classFrom _) fun _ => .pure _

theorem segend_ends (hm : QueueMode s) (hactive : s.cur.seg.active = true)
    (htime : s.cur.seg.opn = true ∨ s.cur.now = s.cur.seg.start + s.cur.seg.cnt) : exec .segend s = loopIllegal s 2 l.last := by
  have hlegal : segendLegal s = .ok () := by simp [segendLegal, hm.1, hm.2, hactive]
  have honTime : segendOnTime s = .ok () := by
    obtain h | h := htime
    · simp [segendOnTime, h]
    · simp [segendOnTime, h]
  refine (issue_loopIllegal hg rfl (.inl rfl) ?_ ?_ : execSegend s = _)
  · dsimp only
    rw [hlegal, honTime]
    exact loopCheck_ends hl hend
  · dsimp only
    split
    · exact .error ((notIllegal_trap (by decide) _).classFrom _)
    · exact .ok _

end

end

section
variable {s : State} (hg : Unguarded s) {last : Nat}
include hg

theorem seg_stops (f : FSeg) (hm : QueueMode s) (hactive : s.cur.seg.active = false)
    (htime : f.opn = true ∨ s.cur.now ≤ s.cur.release + f.off.toNat) {reason : Nat}
    (hcheck : loopCheck s 4 true = .error (illegal (0x0A + reason * 2 ^ 8 + last * 2 ^ 16))) : exec (.seg f) s = loopIllegal s reason last := by
  have hlegal : segLegal s = .ok () := by simp [segLegal, hm.1, hm.2, hactive]
  have honTime : segOnTime f s = .ok () := by
    obtain h | h := htime
    · simp [segOnTime, h]
    · simp [segOnTime, Nat.not_lt.2 h]
  refine (issue_loopIllegal hg rfl (.inl rfl) ?_ ?_ : execSeg f s = _)
  · dsimp only
    rw [hlegal, honTime]
    exact hcheck
  · dsimp only
    split
    · exact .ok _
    · exact .ok _

theorem grd_stops (f : FGrd) (hlow : HandlerMode s → f.gq.toNat < 16) {reason : Nat}
    (hcheck : loopCheck s 2 (guardedEnds (nextWord s)) = .error (illegal (0x0A + reason * 2 ^ 8 + last * 2 ^ 16))) :
    exec (.grd f) s = loopIllegal s reason last := by
  refine (issue_loopIllegal hg rfl (.inl rfl) ?_ ?_ : execGrd f s = _)
  · dsimp only
    rw [hcheck, loopCheck_one]
    rfl
  · exact .bind ((testBit_notIllegal (fun hm => hlow (handlerMode_of_bodyState hm)) ..).classFrom _) fun _ => .pure _

end

/-! ## OPEN: its entry is judged ahead of the loop (R60, R88) -/

@[simp] theorem layoutEntry_signed (s : State) (n k : Nat) : layoutEntry (signed s n).cur k = layoutEntry s.cur k := by
  rw [signed_cur]
  rfl

@[simp] theorem openRecOk_signed (s : State) (n : Nat) (wr : Bool) (e : Layout) : openRecOk (signed s n) wr e = openRecOk s wr e := by
  obtain h | ⟨g, w, h⟩ := signed_frame s n <;> rw [h]
  simp [openRecOk]

@[simp] theorem intact_signed (s : State) (n : Nat) (ps : List Nat) : Intact (signed s n).cur ps ↔ Intact s.cur ps := by
  rw [signed_cur]
  rfl

@[simp] theorem queueMode_signed (s : State) (n : Nat) : QueueMode (signed s n) ↔ QueueMode s := by simp [QueueMode]

@[simp] theorem srcReady_signed (s : State) (n q : Nat) : SrcReady (signed s n) q ↔ SrcReady s q := by
  simp [SrcReady, HandlerMode]

@[simp] theorem srcsReady_signed (s : State) (n : Nat) (fs : List Src) : SrcsReady (signed s n) fs ↔ SrcsReady s fs := by
  simp [SrcsReady]

@[simp] theorem srcValues_signed (s : State) (n : Nat) (fs : List Src) : srcValues (signed s n) fs = srcValues s fs := by
  simp [srcValues, srcValue]

/-- The coordinate fields of OPEN. -/
abbrev openCoords (f : FOpen) : List Src := [0, 1, 2, 3].map fun k => (f.a.toNat + k, f.ka)

/-- OPEN may bind the entry that it names (R60, R191). -/
def openEntryOk (f : FOpen) (s : State) : Bool := layoutOk (layoutEntry s.cur f.lte.toNat) && openRecOk s f.wr (layoutEntry s.cur f.lte.toNat)

/-- Coordinates inside the entry of an OPEN, with its count left from there (R60). -/
def openStartOk (f : FOpen) (s : State) (vs : List Word) : Bool :=
  startOk (layoutEntry s.cur f.lte.toNat) (vs.map BitVec.toNat) f.cnt.toNat

/-- The coordinates of an OPEN fit where they can be read. -/
def StartFits (s : State) (f : FOpen) : Prop := SrcsReady s (openCoords f) → openStartOk f s (srcValues s (openCoords f)) = true

@[simp] theorem openEntryOk_signed (f : FOpen) (s : State) (n : Nat) : openEntryOk f (signed s n) = openEntryOk f s := by
  simp [openEntryOk]

@[simp] theorem startFits_signed (s : State) (n : Nat) (f : FOpen) : StartFits (signed s n) f ↔ StartFits s f := by
  simp [StartFits, openStartOk]

/-- The stream that OPEN binds (R60, R61). -/
def openedStrm (f : FOpen) (s : State) (vs : List Word) : Strm :=
  let e := layoutEntry s.cur f.lte.toNat
  let c (k : Nat) : Nat := (vs.map BitVec.toNat).getD k 0
  let n0 := e.index (c 0) (c 1) (c 2) (c 3)
  { entry := e, lte := f.lte.toNat, wr := f.wr, dir := f.dir, lane := f.lane.toNat, station := e.station,
    t1 := s.cur.now + f.off.toNat, cnt := f.cnt.toNat, remaining := f.cnt.toNat, adv := 0, off := f.off.toNat, sched := s.cur.now,
    start := n0, cursor := n0, seen := [], seenScale := [] }

/-- The state after OPEN has bound its stream. -/
def bindStream (f : FOpen) (s : State) (vs : List Word) : State :=
  (popSrcs s (openCoords f)).modCur fun c => { c with strms := c.strms.set f.s.toNat (openedStrm f s vs) }

/-- What OPEN checks and does once its stream is closed. -/
def openBody (f : FOpen) (s : State) : Res (State × Flow) := do
  parityOk s.cur ((List.range 6).map (fun w => tabPlace 0 (f.lte.toNat * 8 + w)))
  if !layoutOk (layoutEntry s.cur f.lte.toNat) || !openRecOk s f.wr (layoutEntry s.cur f.lte.toNat) then throw (illegal 0x04)
  let vs ← srcVals s (openCoords f)
  if !openStartOk f s vs then throw (illegal 0x04)
  return (bindStream f s vs, .seq 2)

theorem execOpenS_eq (f : FOpen) (s : State) :
    execOpenS f s = issue s { words := 2, handlerOk := false, pre := openClosed f.s.toNat } (openBody f) := rfl

section
variable {s : State} {f : FOpen} (hpar : Intact s.cur (entryPlaces f.lte.toNat))
include hpar

theorem openBody_bad (hbad : openEntryOk f s = false) : openBody f s = .error (illegal 0x04) := by
  have hparity : parityOk s.cur ((List.range 6).map fun w => tabPlace 0 (f.lte.toNat * 8 + w)) = .ok () := (parityOk_ok ..).2 hpar
  have hcond : (!layoutOk (layoutEntry s.cur f.lte.toNat) || !openRecOk s f.wr (layoutEntry s.cur f.lte.toNat)) = true := by
    rw [← Bool.not_and]
    exact congrArg not hbad
  unfold openBody
  rw [hparity, hcond]
  rfl

theorem openBody_good (hgood : openEntryOk f s = true) :
    openBody f s = (srcVals s (openCoords f)).bind fun vs =>
      if openStartOk f s vs = true then .ok (bindStream f s vs, .seq 2) else .error (illegal 0x04) := by
  have hparity : parityOk s.cur ((List.range 6).map fun w => tabPlace 0 (f.lte.toNat * 8 + w)) = .ok () := (parityOk_ok ..).2 hpar
  have hcond : (!layoutOk (layoutEntry s.cur f.lte.toNat) || !openRecOk s f.wr (layoutEntry s.cur f.lte.toNat)) = false := by
    rw [← Bool.not_and]
    exact congrArg not hgood
  unfold openBody
  rw [hparity, hcond]
  refine congrArg (Except.bind (srcVals s (openCoords f))) (funext fun vs => ?_)
  cases openStartOk f s vs with
  | false => rfl
  | true => rfl

end

/-- An OPEN of an entry that it may bind meets no ILLEGAL in its body. -/
theorem openBody_notIllegal {s : State} (hm : QueueMode s) {f : FOpen} (hpar : Intact s.cur (entryPlaces f.lte.toNat))
    (hgood : openEntryOk f s = true) (hfits : StartFits s f) : StopsAre NotIllegal (openBody f s) := by
  rw [openBody_good hpar hgood]
  cases hvals : srcVals s (openCoords f) with
  | error e =>
    refine .error ((srcVals_notIllegal fun hhandler => ?_).of_error e hvals)
    exact absurd (hm.2.symm.trans hhandler.2) (by decide)
  | ok vs =>
    have hready := srcsReady_of_srcVals hm hvals
    obtain rfl : srcValues s (openCoords f) = vs := Except.ok.inj ((srcVals_ready s _ hready).symm.trans hvals)
    show StopsAre NotIllegal (if openStartOk f s (srcValues s (openCoords f)) = true then _ else _)
    rw [if_pos (hfits hready)]
    exact .ok _

theorem openS_past {s : State} {l : LoopRec} {ls : List LoopRec} (hg : Unguarded s) (hl : loopsOf s = l :: ls) (hm : QueueMode s)
    (hend : (pcOf s + 0) % 65536 = l.last) {f : FOpen} (hpar : Intact s.cur (entryPlaces f.lte.toNat))
    (hgood : openEntryOk f s = true) (hfits : StartFits s f) : exec (.openS f) s = loopIllegal s 3 l.last := by
  have hcheck : loopCheck s 2 false = .error (illegal (0x0A + 3 * 2 ^ 8 + l.last * 2 ^ 16)) :=
    loopCheck_past hl nofun (k := 0) (by decide) hend
  refine (issue_loopIllegal hg rfl (.inr (queueMode_not_handler hm)) ?_ ?_ : execOpenS f s = _)
  · dsimp only
    rw [hcheck]
    unfold openClosed
    split
    · have hlower : (0x0A + 3 * 2 ^ 8 + l.last * 2 ^ 16) % 256 < (0x0D + 0x01 * 2 ^ 8 + f.s.toNat * 2 ^ 16) % 256 := by omega
      exact congrArg (fun a => Except.error (Stop.trap 0x01 a)) (if_pos hlower)
    · rfl
  · rw [bodyState_signs rfl]
    exact (openBody_notIllegal ((queueMode_signed ..).2 hm) ((intact_signed ..).2 hpar) ((openEntryOk_signed ..).trans hgood)
      ((startFits_signed ..).2 hfits)).classFrom _

/-- Settles O14: the transfers complete by their common form, and each ILLEGAL of loops is that of `loopCheck` or `loopRoom`, which no check of a lower class
precedes. -/
theorem controlTransfers : Obligations.ControlTransfers := by
  unfold Obligations.ControlTransfers
  refine ⟨controlActs_complete, fun s target call => ⟨?_, transfer_keeps, fun hm => goto_queue s target 1 hm,
    fun f hg hlow hfull => loop_full hg hlow hfull, fun l ls hg hl => ⟨fun hend => ⟨br_ends hg hl hend, call_ends hg hl hend, ?_, loop_ends hg hl hend,
      brc_ends hg hl hend, segend_ends hg hl hend⟩, fun f hm hactive htime => ⟨fun hend => ?_, fun hpast => ?_⟩,
      fun f hlow => ⟨fun hend hguarded => ?_, fun hpast => ?_⟩, fun f hm hend hpar hlay hrec hfits => openS_past hg hl hm hend hpar (Bool.and_eq_true_iff.2 ⟨hlay, hrec⟩) hfits⟩⟩⟩
  · rintro l ls hl rfl hin hout
    exact transfer_leaves hl hin hout
  · exact fun f hlow => ⟨jumpReg_ends hg hl hend f hlow false, jumpReg_ends hg hl hend f hlow true⟩
  · exact seg_stops hg f hm hactive htime (loopCheck_ends hl hend)
  · obtain ⟨k, hk, hend⟩ : ∃ k, k < 3 ∧ (pcOf s + k) % 65536 = l.last := by
      obtain h | h | h := hpast
      · exact ⟨0, by decide, h⟩
      · exact ⟨1, by decide, h⟩
      · exact ⟨2, by decide, h⟩
    exact seg_stops hg f hm hactive htime (loopCheck_past hl (fun _ => by omega) hk hend)
  · refine grd_stops hg f hlow ?_
    rw [hguarded]
    exact loopCheck_ends hl hend
  · exact grd_stops hg f hlow (loopCheck_past hl (fun _ => by omega) (k := 0) (by decide) hpast)

end Sys2Proof.Machine
end

section
/-! PROOFS. What PHASE, WAITQ, WAITF and FENCE wait for, and how they stop (R37, R120, R123, R124, R325). -/

namespace Sys2Proof.Machine
open Sys2Proof.Claims

/-! ## How a stop is taken -/

/-- A trap that no cancel takes the place of. -/
theorem takeStop_trap {cause : Nat} (hnan : cause ≠ 0x07) (hpoison : cause ≠ 0x15) (s : State) (einfo : Nat) :
    takeStop s (.trap cause einfo) = takeTrap s cause einfo := by
  simp [takeStop, cancels, hnan, hpoison]

/-- A freeze: ARRIVAL under MODE.LATE, else the core stands on its cycle (R37). -/
theorem takeStop_hold (s : State) (kind late : Nat) :
    takeStop s (.hold kind late) = if s.cur.mode.getLsbD 0 then takeTrap s 0x10 late
      else s.setCur { s.cur with frozen := some ⟨s.cur.now, kind, false, false⟩ } := by
  have hlate : bitB s.cur.mode.toNat 0 = s.cur.mode.getLsbD 0 := bitB_testBit ..
  show (if bitB s.cur.mode.toNat 0 then takeTrap s 0x10 late else _) = _
  rw [hlate]
  rfl

/-! ## A body that goes through its checks -/

theorem bind_of_ok {α β : Type} {r : Res α} {v : α} (h : r = .ok v) (f : α → Res β) : r.bind f = f v := by
  rw [h]
  rfl

theorem bind_of_error {α β : Type} {r : Res α} {e : Stop} (h : r = .error e) (f : α → Res β) : r.bind f = .error e := by
  rw [h]
  rfl

/-! ## What a signature leaves -/

section
variable (s : State) (n : Nat)

@[simp] theorem headQ_signed (q kind : Nat) : headQ (signed s n).cur q kind = headQ s.cur q kind :=
  headQ_congr _ _ q kind (qEntries_signed s n) (by rw [signed_cur])

@[simp] theorem flagOf_signed (g : Nat) : flagOf (signed s n).cur g = flagOf s.cur g := by
  rw [signed_cur]
  rfl

@[simp] theorem phaseNow_signed : phaseNow (signed s n) = phaseNow s := by
  obtain h | ⟨g, w, h⟩ := signed_frame s n <;> rw [h]
  simp [phaseNow]

@[simp] theorem fenceDone_signed : fenceDone (signed s n) = fenceDone s := by
  unfold fenceDone
  rw [phaseNow_signed, signed_cur]
  rfl

end

/-- One source that can be read gives its value, the words of the instruction signed or not. -/
theorem srcVals_signed_one {s : State} {q : Nat} {keep : Bool} (n : Nat) (h : SrcReady s q) :
    srcVals (signed s n) [(q, keep)] = .ok [srcValue s q] :=
  (srcVals_signed ..).trans (srcVals_ready s _ (by simpa [SrcsReady] using h))

/-! ## WAITQ (R123) -/

section
variable {s : State} (hm : QueueMode s) (hg : Unguarded s)

/-- What WAITQ does with the head of its queue. -/
def waitqBody (f : FA0) (s : State) : Res (State × Flow) :=
  match headQ s.cur f.a.toNat 0 with
  | .ok _ => .ok (s, .seq 1)
  | .error (.hold _ _) => .error (.hold 3 0x03)
  | .error e => .error e

theorem execWaitq_eq (f : FA0) (s : State) : execWaitq f s = issue s { handlerOk := false } (waitqBody f) := rfl

theorem waitqBody_ready {f : FA0} {v : Word} (h : headQ s.cur f.a.toNat 0 = .ok v) : waitqBody f s = .ok (s, .seq 1) := by
  unfold waitqBody
  rw [h]

theorem waitq_completes (f : FA0) (s : State) {x : Doing} (hx : waitActs (.waitq f) = some x) : Completes (.waitq f) s x := by
  cases hx
  refine completes_of _ s _ _ _ (execWaitq_eq f s) rfl rfl rfl (fun _ _ => rfl)
    (fun hmay => .inr (queueMode_not_handler hmay)) (fun _ _ => rfl) fun hmay hok _ => ?_
  have hmode := queueMode_atIssue (x := { may := QueueMode, ok := fun t _ => SrcReady t f.a.toNat }) hmay
  obtain hsys | ⟨hhandler, _⟩ | ⟨_, hhead⟩ := hok
  · exact absurd (hmode.1.symm.trans hsys) (by decide)
  · exact absurd (hmode.2.symm.trans hhandler.2) (by decide)
  · rw [popSrcs_nil]
    exact waitqBody_ready (headQ_ready _ _ 0 hmode hhead)

include hm hg

theorem issue_plain_stop {body : State → Res (State × Flow)} {st : Stop} (hb : body (signed s 1) = .error st) :
    issue s { handlerOk := false } body = .next (takeStop s st) :=
  issue_stop s _ body st hm.1 hg rfl (.inr (queueMode_not_handler hm)) rfl (loopCheck_one s) ((congrArg body (signed_def s 1)).trans hb)

theorem waitq_pending (f : FA0) {n : Nat} {es : List QEntry} (h0 : f.a.toNat ≠ 0) (hq : qEntries s.cur f.a.toNat = .pending n :: es) :
    exec (.waitq f) s = .next (takeStop s (.hold 3 0x03)) := by
  refine (execWaitq_eq f s).trans (issue_plain_stop hm hg ?_)
  have hhead : headQ s.cur f.a.toNat 0 = .error (.hold 2 0x02) := by simp [headQ, h0, hq]
  unfold waitqBody
  rw [headQ_signed, hhead]

theorem waitq_empty (f : FA0) (h0 : f.a.toNat ≠ 0) (hq : qEntries s.cur f.a.toNat = []) :
    exec (.waitq f) s = .next (takeStop s (.trap 0x03 f.a.toNat)) := by
  refine (execWaitq_eq f s).trans (issue_plain_stop hm hg ?_)
  have hhead : headQ s.cur f.a.toNat 0 = .error (.trap 0x03 f.a.toNat) := by simp [headQ, h0, hq]
  unfold waitqBody
  rw [headQ_signed, hhead]

end

/-! ## WAITF (R124) -/

/-- What WAITF finds of the flag that it names. -/
def flagCheck (c : Ctx) (a : Nat) : Res Unit :=
  if 2048 ≤ a then .error (illegalOp 0x11 0x03 a)
  else if (flagOf c a).ovr then .error (.trap 0x10 (0x01 + a * 2 ^ 8))
  else if !(flagOf c a).ready then .error (.hold 4 (0x04 + a * 2 ^ 8))
  else .ok ()

section
variable {c : Ctx} {a : Nat}

theorem flagCheck_large (h : 2048 ≤ a) : flagCheck c a = .error (illegalOp 0x11 0x03 a) := if_pos h

theorem flagCheck_overrun (h : a < 2048) (hovr : (flagOf c a).ovr = true) : flagCheck c a = .error (.trap 0x10 (0x01 + a * 2 ^ 8)) := by
  simp [flagCheck, Nat.not_le.2 h, hovr]

theorem flagCheck_waits (h : a < 2048) (hovr : (flagOf c a).ovr = false) (hready : (flagOf c a).ready = false) :
    flagCheck c a = .error (.hold 4 (0x04 + a * 2 ^ 8)) := by
  simp [flagCheck, Nat.not_le.2 h, hovr, hready]

theorem flagCheck_ready (h : a < 2048) (hovr : (flagOf c a).ovr = false) (hready : (flagOf c a).ready = true) : flagCheck c a = .ok () := by
  simp [flagCheck, Nat.not_le.2 h, hovr, hready]

end

@[simp] theorem flagCheck_signed (s : State) (n a : Nat) : flagCheck (signed s n).cur a = flagCheck s.cur a := by
  simp [flagCheck]

/-- What WAITF does. -/
def waitfBody (f : FA) (s : State) : Res (State × Flow) := do
  let vs ← srcVals s [(f.a.toNat, f.ka)]
  flagCheck s.cur (vs.headD 0).toNat
  return (popSrcs s [(f.a.toNat, f.ka)], .seq 1)

theorem execWaitf_eq (f : FA) (s : State) : execWaitf f s = issue s { handlerOk := false } (waitfBody f) := by
  refine congrArg (issue s _) (funext fun t => ?_)
  refine congrArg (Except.bind (srcVals t [(f.a.toNat, f.ka)])) (funext fun vs => ?_)
  unfold flagCheck
  dsimp only
  split
  · rfl
  · split
    · rfl
    · split
      · rfl
      · rfl

/-- The body of WAITF on an operand that can be read. -/
theorem waitfBody_read {f : FA} {t : State} {vs : List Word} (hvals : srcVals t [(f.a.toNat, f.ka)] = .ok vs) :
    waitfBody f t = (flagCheck t.cur (vs.headD 0).toNat).bind fun _ => .ok (popSrcs t [(f.a.toNat, f.ka)], .seq 1) := by
  unfold waitfBody
  rw [hvals]
  rfl

theorem waitf_completes (f : FA) (s : State) {x : Doing} (hx : waitActs (.waitf f) = some x) : Completes (.waitf f) s x := by
  cases hx
  refine completes_of _ s _ _ _ (execWaitf_eq f s) rfl rfl rfl (fun _ _ => rfl)
    (fun hmay => .inr (queueMode_not_handler hmay)) (fun _ _ => rfl) fun _ hok hvals => ?_
  obtain ⟨hsmall, hovr, hready⟩ := hok
  dsimp only at hvals
  rw [waitfBody_read hvals]
  exact bind_of_ok (flagCheck_ready hsmall hovr hready) _

section
variable {s : State} (hm : QueueMode s) (hg : Unguarded s)
include hm hg

theorem waitf_stop (f : FA) (hsrc : SrcReady s f.a.toNat) {st : Stop} (hst : flagCheck s.cur (srcValue s f.a.toNat).toNat = .error st) :
    exec (.waitf f) s = .next (takeStop s st) := by
  refine (execWaitf_eq f s).trans (issue_plain_stop hm hg ?_)
  rw [waitfBody_read (srcVals_signed_one 1 hsrc)]
  exact bind_of_error ((flagCheck_signed ..).trans hst) _

end

/-! ## FENCE (R325) -/

/-- What FENCE does. -/
def fenceBody (s : State) : Res State :=
  if s.onSys || s.cur.handler then .ok s
  else if !fenceDone s then .error (.hold 10 0x05)
  else match faultWaiting s.cur with
    | some n => .error (.fault n)
    | none => .ok s

theorem execFence_eq (s : State) : execFence s = issue s { handlerOk := true } (fun t => (fenceBody t).bind fun u => .ok (u, .seq 1)) := rfl

theorem fenceBody_passes {s : State} (h : QueueMode s → fenceDone s = true ∧ NoFault s) : fenceBody s = .ok s := by
  unfold fenceBody
  split
  · rfl
  next hmode =>
    have hqueue : QueueMode s := by simpa [QueueMode] using hmode
    obtain ⟨hdone, hfault⟩ := h hqueue
    rw [hdone, show faultWaiting s.cur = none from hfault]
    rfl

theorem fence_completes (s : State) {x : Doing} (hx : waitActs .fence = some x) : Completes .fence s x := by
  cases hx
  refine completes_of _ s _ _ _ (execFence_eq s) rfl rfl rfl (fun _ _ => rfl) (fun _ => .inl rfl)
    (fun _ _ => rfl) fun _ hok _ => ?_
  rw [popSrcs_nil]
  exact bind_of_ok (fenceBody_passes hok) _

theorem fence_waits {s : State} (hm : QueueMode s) (hg : Unguarded s) (h : fenceDone s = false) :
    exec .fence s = .next (takeStop s (.hold 10 0x05)) := by
  refine (issue1_stop true fenceBody hm.1 hg (.inl rfl) ?_ : execFence s = _)
  unfold fenceBody
  rw [signed_onSys, signed_handler, hm.1, hm.2, fenceDone_signed, h]
  rfl

/-! ## PHASE (R120) -/

/-- What PHASE finds on mask `m` once its operand and its table words are read, in the order of log 16. -/
def phaseCheck (c : Ctx) (m : Word) : Res Unit :=
  if (List.range 64).any (fun n => bitB m.toNat n && footBad c n) then .error (illegal 0x08)
  else if slotsClash c then .error (illegal 0x09)
  else match firstConflict c m.toNat with
    | some (i, j, g) => .error (.trap 0x0A (i + j * 2 ^ 8 + g * 2 ^ 16))
    | none =>
      if lotDraining c then .error (.hold 11 0x06)
      else if loadsOut c then .error (.hold 12 0x07)
      else match faultWaiting c with
        | some n => .error (.fault n)
        | none => .ok ()

/-- What PHASE does. -/
def phaseBody (f : FA) (s : State) : Res (State × Flow) := do
  let vs ← illegalFirst (slotsClash s.cur) (illegal 0x09) (oldestFault s.cur (srcVals s [(f.a.toNat, f.ka)]))
  parityOk s.cur (phasePlaces (vs.headD 0))
  phaseCheck s.cur (vs.headD 0)
  return ((popSrcs s [(f.a.toNat, f.ka)]).modCur (fun c => { c with post := c.post ++ [.phase (vs.headD 0)] }), .seq 1)

theorem execPhase_eq (f : FA) (s : State) : execPhase f s = issue s { handlerOk := false } (phaseBody f) := by
  refine congrArg (issue s _) (funext fun t => ?_)
  refine congrArg (Except.bind (illegalFirst _ _ _)) (funext fun vs => ?_)
  refine congrArg (Except.bind (parityOk ..)) (funext fun _ => ?_)
  unfold phaseCheck
  cases (List.range 64).any fun n => bitB (vs.headD 0).toNat n && footBad t.cur n with
  | true => rfl
  | false =>
    cases slotsClash t.cur with
    | true => rfl
    | false =>
      cases firstConflict t.cur (vs.headD 0).toNat with
      | some p => rfl
      | none =>
        cases lotDraining t.cur with
        | true => rfl
        | false =>
          cases loadsOut t.cur with
          | true => rfl
          | false =>
            cases faultWaiting t.cur with
            | some n => rfl
            | none => rfl

/-- A selected entry of the table breaks R69. -/
def SelectsBroken (c : Ctx) (m : Word) : Prop := ∃ n, n < 64 ∧ m.getLsbD n = true ∧ footBad c n = true

theorem anyBroken_iff (c : Ctx) (m : Word) : (List.range 64).any (fun n => bitB m.toNat n && footBad c n) = true ↔ SelectsBroken c m := by
  have hbit : ∀ n, bitB m.toNat n = m.getLsbD n := fun n => bitB_testBit m.toNat n
  simp [SelectsBroken, hbit]

section
variable {c : Ctx} {m : Word}

theorem phaseCheck_broken (h : SelectsBroken c m) : phaseCheck c m = .error (illegal 0x08) := if_pos ((anyBroken_iff c m).2 h)

section
variable (hok : ¬ SelectsBroken c m)
include hok

theorem phaseCheck_clash (h : slotsClash c = true) : phaseCheck c m = .error (illegal 0x09) := by
  unfold phaseCheck
  rw [if_neg (mt (anyBroken_iff c m).1 hok), if_pos h]

section
variable (hslots : slotsClash c = false)
include hslots

theorem phaseCheck_conflict {i j g : Nat} (h : firstConflict c m.toNat = some (i, j, g)) :
    phaseCheck c m = .error (.trap 0x0A (i + j * 2 ^ 8 + g * 2 ^ 16)) := by
  unfold phaseCheck
  rw [if_neg (mt (anyBroken_iff c m).1 hok), hslots, h]
  rfl

section
variable (hfree : firstConflict c m.toNat = none)
include hfree

theorem phaseCheck_draining (h : lotDraining c = true) : phaseCheck c m = .error (.hold 11 0x06) := by
  unfold phaseCheck
  rw [if_neg (mt (anyBroken_iff c m).1 hok), hslots, hfree, h]
  rfl

theorem phaseCheck_loads (hlot : lotDraining c = false) (h : loadsOut c = true) : phaseCheck c m = .error (.hold 12 0x07) := by
  unfold phaseCheck
  rw [if_neg (mt (anyBroken_iff c m).1 hok), hslots, hfree, hlot, h]
  rfl

theorem phaseCheck_passes (hlot : lotDraining c = false) (hloads : loadsOut c = false) (h : faultWaiting c = none) : phaseCheck c m = .ok () := by
  unfold phaseCheck
  rw [if_neg (mt (anyBroken_iff c m).1 hok), hslots, hfree, hlot, hloads, h]
  rfl

end
end
end
end

@[simp] theorem phaseCheck_signed (s : State) (n : Nat) (m : Word) : phaseCheck (signed s n).cur m = phaseCheck s.cur m := by
  rw [signed_cur]
  rfl

/-- The body of PHASE on an operand and on table words that can be read. -/
theorem phaseBody_read {f : FA} {t : State} {vs : List Word} (hvals : srcVals t [(f.a.toNat, f.ka)] = .ok vs)
    (hpar : Intact t.cur (phasePlaces (vs.headD 0))) :
    phaseBody f t = (phaseCheck t.cur (vs.headD 0)).bind fun _ =>
      .ok ((popSrcs t [(f.a.toNat, f.ka)]).modCur (fun c => { c with post := c.post ++ [.phase (vs.headD 0)] }), .seq 1) := by
  have hparity : parityOk t.cur (phasePlaces (vs.headD 0)) = .ok () := (parityOk_ok ..).2 hpar
  unfold phaseBody
  rw [hvals]
  exact bind_of_ok hparity _

theorem phase_completes (f : FA) (s : State) {x : Doing} (hx : waitActs (.phase f) = some x) : Completes (.phase f) s x := by
  cases hx
  refine completes_of _ s _ _ _ (execPhase_eq f s) rfl rfl rfl (fun _ _ => rfl)
    (fun hmay => .inr (queueMode_not_handler hmay)) (fun _ _ => rfl) fun _ hok hvals => ?_
  obtain ⟨hpar, hsound, hslots, hfree, hlot, hloads, hfault⟩ := hok
  have hbroken : ¬ SelectsBroken (atIssue s _).cur _ := fun ⟨n, hn, hbit, hbad⟩ => absurd ((hsound n hn hbit).symm.trans hbad) (by decide)
  dsimp only at hvals
  rw [phaseBody_read hvals hpar]
  exact bind_of_ok (phaseCheck_passes hbroken hslots hfree hlot hloads hfault) _

theorem phase_stop {s : State} (hm : QueueMode s) (hg : Unguarded s) (f : FA) (hsrc : SrcReady s f.a.toNat)
    (hpar : Intact s.cur (phasePlaces (srcValue s f.a.toNat))) {st : Stop} (hst : phaseCheck s.cur (srcValue s f.a.toNat) = .error st) :
    exec (.phase f) s = .next (takeStop s st) := by
  refine (execPhase_eq f s).trans (issue_plain_stop hm hg ?_)
  rw [phaseBody_read (srcVals_signed_one 1 hsrc) ((intact_signed ..).2 hpar)]
  exact bind_of_error ((phaseCheck_signed ..).trans hst) _

/-! ## The obligation -/

theorem waitActs_complete : ∀ i s x, waitActs i = some x → Completes i s x := by
  intro i s x hx
  cases i
  case phase f => exact phase_completes f s hx
  case waitq f => exact waitq_completes f s hx
  case waitf f => exact waitf_completes f s hx
  case fence => exact fence_completes s hx
  all_goals cases hx

/-- Settles O16: what each of the four waits for is one check, whose stops are listed case by case. -/
theorem waits : Obligations.Waits := by
  unfold Obligations.Waits
  refine ⟨waitActs_complete, fun s hm hg => ⟨fun f n es h0 hq => ?_, fun f h0 hq => ?_, fun f hsrc => ⟨fun hlarge => ?_, fun hsmall hovr => ?_,
    fun hsmall hovr hready => ?_⟩, fun hdone => ?_, fun f hsrc hpar => ⟨fun hbroken => ?_, fun hbroken hslots => ?_, fun hbroken hslots =>
      ⟨fun i j g hconflict => ?_, fun hfree => ⟨fun hlot => ?_, fun hlot hloads => ?_⟩⟩⟩⟩⟩
  · exact (waitq_pending hm hg f h0 hq).trans (congrArg Host.Outcome.next (takeStop_hold ..))
  · exact (waitq_empty hm hg f h0 hq).trans (congrArg Host.Outcome.next (takeStop_qunf ..))
  · exact (waitf_stop hm hg f hsrc (flagCheck_large hlarge)).trans (congrArg Host.Outcome.next (takeStop_illegal ..))
  · exact (waitf_stop hm hg f hsrc (flagCheck_overrun hsmall hovr)).trans (congrArg Host.Outcome.next (takeStop_trap (by decide) (by decide) ..))
  · exact (waitf_stop hm hg f hsrc (flagCheck_waits hsmall hovr hready)).trans (congrArg Host.Outcome.next (takeStop_hold ..))
  · exact (fence_waits hm hg hdone).trans (congrArg Host.Outcome.next (takeStop_hold ..))
  · exact (phase_stop hm hg f hsrc hpar (phaseCheck_broken hbroken)).trans (congrArg Host.Outcome.next (takeStop_illegal ..))
  · exact (phase_stop hm hg f hsrc hpar (phaseCheck_clash hbroken hslots)).trans (congrArg Host.Outcome.next (takeStop_illegal ..))
  · exact (phase_stop hm hg f hsrc hpar (phaseCheck_conflict hbroken hslots hconflict)).trans
      (congrArg Host.Outcome.next (takeStop_trap (by decide) (by decide) ..))
  · exact (phase_stop hm hg f hsrc hpar (phaseCheck_draining hbroken hslots hfree hlot)).trans (congrArg Host.Outcome.next (takeStop_hold ..))
  · exact (phase_stop hm hg f hsrc hpar (phaseCheck_loads hbroken hslots hfree hlot hloads)).trans (congrArg Host.Outcome.next (takeStop_hold ..))

end Sys2Proof.Machine
end

section
/-! PROOFS. OPEN, CLOSE, SADV, SREW and SSTAT, and their class 0x0D traps (R60, R61, R125–R128). -/

namespace Sys2Proof.Machine
open Sys2Proof.Claims

/-! ## The end of the cycle (R126, R127) -/

section
variable {c : Ctx} {n : Nat}

theorem streamPost_close : (streamPost c (.close n)).strms.find n = none := NMap.find_erase_same ..

theorem streamPost_sadv {st : Strm} (h : c.strms.find n = some st) (k : Nat) :
    streamPost c (.sadv n k) = { c with strms := c.strms.set n { st with
      adv := st.adv + k, remaining := st.remaining - k, cursor := st.cursor + k * st.entry.perWord } } := by
  simp only [streamPost, h]

theorem streamPost_srew {st : Strm} (h : c.strms.find n = some st) :
    streamPost c (.srew n) = { c with strms := c.strms.set n { st with
      t1 := c.now + st.off, adv := 0, remaining := st.cnt, cursor := st.start, sched := c.now, seen := [], seenScale := [] } } := by
  simp only [streamPost, h]

theorem streamPost_other {st : Strm} (h : c.strms.find n = some st) {k m : Nat} (hne : m ≠ n) :
    ∀ p ∈ [PostAct.close n, .sadv n k, .srew n], (streamPost c p).strms.find m = c.strms.find m := by
  simp only [List.forall_mem_cons]
  refine ⟨NMap.find_erase_other _ _ _ hne, ?_, ?_, nofun⟩
  · rw [streamPost_sadv h]
    exact NMap.find_set_other _ _ _ _ hne
  · rw [streamPost_srew h]
    exact NMap.find_set_other _ _ _ _ hne

end

/-! ## Streams at the issue -/

theorem strms_atIssue (s : State) (x : Doing) : (atIssue s x).cur.strms = s.cur.strms := by rw [atIssue_cur]

theorem openClosed_ok {s : State} {n : Nat} (h : s.cur.strms.find n = none) : openClosed n s = .ok () := by simp [openClosed, h]

theorem openClosed_open {s : State} {n : Nat} {st : Strm} (h : s.cur.strms.find n = some st) : openClosed n s = .error (streamIllegal 0x01 n) := by
  simp [openClosed, h]

theorem needOpen_ok {s : State} {n : Nat} (h : s.cur.strms.find n ≠ none) : needOpen n s = .ok () := if_pos (Option.isSome_iff_ne_none.2 h)

theorem needOpen_closed {s : State} {n : Nat} (h : s.cur.strms.find n = none) : needOpen n s = .error (streamIllegal 0x02 n) := by simp [needOpen, h]

/-! ## OPEN (R60, R61, R125) -/

theorem openS_completes (f : FOpen) (s : State) {x : Doing} (hx : streamActs (.openS f) = some x) : Completes (.openS f) s x := by
  cases hx
  refine completes_of _ s _ _ _ (execOpenS_eq f s) rfl rfl rfl (fun _ _ => rfl) (fun hmay => .inr (queueMode_not_handler hmay))
    (fun _ hok => openClosed_ok ((congrArg (NMap.find · _) (strms_atIssue ..)).symm.trans hok.2.1)) fun _ hok hvals => ?_
  obtain ⟨hpar, _, hlay, hrec, hstart⟩ := hok
  rw [openBody_good hpar (Bool.and_eq_true_iff.2 ⟨hlay, hrec⟩)]
  exact (bind_of_ok hvals _).trans (if_pos hstart)

section
variable {s : State} (hm : QueueMode s) (hg : Unguarded s) {f : FOpen} (hpar : Intact s.cur (entryPlaces f.lte.toNat))
include hm hg hpar

theorem openS_open {st : Strm} (hopen : s.cur.strms.find f.s.toNat = some st) (hloop : LoopRule s 2 false) (hgood : openEntryOk f s = true)
    (hfits : StartFits s f) : exec (.openS f) s = .next (takeTrap s 0x01 (0x010D + f.s.toNat * 2 ^ 16)) := by
  have hbody := openBody_notIllegal ((queueMode_signed s 2).2 hm) ((intact_signed ..).2 hpar) ((openEntryOk_signed ..).trans hgood)
    ((startFits_signed ..).2 hfits)
  refine ((execOpenS_eq f s).trans (issue_illegal (a := 0x010D + f.s.toNat * 2 ^ 16) hg rfl (.inr (queueMode_not_handler hm)) ?_ ?_)).trans ?_
  · dsimp only
    rw [openClosed_open hopen, loopCheck_ok s 2 false hloop]
    rfl
  · rw [bodyState_signs rfl]
    exact hbody.classFrom _
  · rw [hm.1]
    rfl

theorem openS_bad (hbad : openEntryOk f s = false) : exec (.openS f) s = .next (takeTrap s 0x01 0x0004) := by
  have hbody : openBody f (signed s 2) = .error (illegal 0x04) :=
    openBody_bad ((intact_signed ..).2 hpar) ((openEntryOk_signed ..).trans hbad)
  refine ((execOpenS_eq f s).trans (issue_lower s _ (openBody f) 0x04 hm.1 hg rfl (.inr (queueMode_not_handler hm)) ?_ ?_ ?_)).trans
    (congrArg Host.Outcome.next (takeStop_illegal ..))
  · intro st hst
    dsimp only [openClosed] at hst
    split at hst
    · cases hst
      exact ⟨_, rfl, by omega⟩
    · cases hst
  · intro st hst
    obtain ⟨a, rfl, ha⟩ := loopCheck_class _ _ _ _ hst
    exact ⟨a, rfl, by omega⟩
  · exact (congrArg (openBody f) (signed_def s 2)).trans hbody

end

/-! ## CLOSE, SREW and SSTAT (R127, R128) -/

theorem execClose_eq (f : FS) (s : State) :
    execClose f s = issue s { handlerOk := false } fun t => .ok (addPost t (.close f.s.toNat), .seq 1) := rfl

theorem execSstat_eq (f : FSD) (s : State) :
    execSstat f s = issue s { handlerOk := false } fun t =>
      .ok (t.modCur (fun c => { c with flight := c.flight ++ [onWay t 1 (.sstat f.a.toNat f.s.toNat) 0] }), .seq 1) := rfl

theorem close_completes (f : FS) (s : State) {x : Doing} (hx : streamActs (.close f) = some x) : Completes (.close f) s x := by
  cases hx
  refine completes_of _ s _ _ _ (execClose_eq f s) rfl rfl rfl (fun _ _ => rfl)
    (fun hmay => .inr (queueMode_not_handler hmay)) (fun _ _ => rfl) fun _ _ _ => ?_
  rw [popSrcs_nil]
  rfl

theorem sstat_completes (f : FSD) (s : State) {x : Doing} (hx : streamActs (.sstat f) = some x) : Completes (.sstat f) s x := by
  cases hx
  refine completes_of _ s _ _ _ (execSstat_eq f s) rfl rfl rfl (fun _ _ => rfl)
    (fun hmay => .inr (queueMode_not_handler hmay)) (fun _ _ => rfl) fun _ _ _ => ?_
  rw [popSrcs_nil]
  rfl

theorem srew_completes (f : FS) (s : State) {x : Doing} (hx : streamActs (.srew f) = some x) : Completes (.srew f) s x := by
  cases hx
  refine completes_of _ s _ _ _ (show execSrew f s = issue s _ _ from rfl) rfl rfl rfl (fun _ _ => rfl)
    (fun hmay => .inr (queueMode_not_handler hmay)) (fun _ hok => needOpen_ok ?_) fun _ _ _ => ?_
  · exact (congrArg (NMap.find · _) (strms_atIssue ..)).symm.trans_ne hok
  · rw [popSrcs_nil]
    rfl

/-- A body that meets no ILLEGAL below class 0x0D leaves the trap of a closed stream. -/
theorem issue_closed {s : State} (hm : QueueMode s) (hg : Unguarded s) {n : Nat} (hclosed : s.cur.strms.find n = none)
    {body : State → Res (State × Flow)} (hb : StopsAre (ClassFrom 0x0D) (body (signed s 1))) :
    issue s { handlerOk := false, pre := needOpen n } body = .next (takeTrap s 0x01 (0x020D + n * 2 ^ 16)) := by
  have hclass : (0x020D + n * 2 ^ 16) % 256 = 0x0D := by omega
  refine (issue_illegal (a := 0x020D + n * 2 ^ 16) hg rfl (.inr (queueMode_not_handler hm)) ?_ ?_).trans ?_
  · dsimp only
    rw [needOpen_closed hclosed, loopCheck_one]
    rfl
  · rw [bodyState_signs rfl, hclass]
    exact hb
  · rw [hm.1]
    rfl

theorem srew_closed {s : State} (hm : QueueMode s) (hg : Unguarded s) (f : FS) (hclosed : s.cur.strms.find f.s.toNat = none) :
    exec (.srew f) s = .next (takeTrap s 0x01 (0x020D + f.s.toNat * 2 ^ 16)) :=
  (issue_closed hm hg hclosed (.ok _) : execSrew f s = _)

/-! ## SADV (R126, R127) -/

/-- The words that SADV skips are left in its stream. -/
def skipCheck (c : Ctx) (n k : Nat) : Res Unit :=
  match c.strms.find n with
  | none => .error (streamIllegal 0x02 n)
  | some st => if st.remaining - b2n (st.due c.now) < k then .error (streamIllegal 0x03 n) else .ok ()

theorem skipCheck_ok {c : Ctx} {n k : Nat} {st : Strm} (h : c.strms.find n = some st) (hk : k + b2n (st.due c.now) ≤ st.remaining) :
    skipCheck c n k = .ok () := by
  unfold skipCheck
  rw [h]
  exact if_neg (by omega)

theorem skipCheck_past {c : Ctx} {n k : Nat} {st : Strm} (h : c.strms.find n = some st) (hk : st.remaining - b2n (st.due c.now) < k) :
    skipCheck c n k = .error (streamIllegal 0x03 n) := by
  unfold skipCheck
  rw [h]
  exact if_pos hk

theorem skipCheck_class (c : Ctx) (n k : Nat) : StopsAre (ClassFrom 0x0D) (skipCheck c n k) := by
  have hclass : ∀ reason, ClassFrom 0x0D (streamIllegal reason n) := fun reason => classFrom_illegal (by omega)
  unfold skipCheck
  split
  · exact .error (hclass _)
  · exact .ite (.error (hclass _)) (.ok _)

@[simp] theorem skipCheck_signed (s : State) (w n k : Nat) : skipCheck (signed s w).cur n k = skipCheck s.cur n k := by
  rw [signed_cur]
  rfl

/-- What SADV does. -/
def sadvBody (f : FSA) (s : State) : Res (State × Flow) := do
  let vs ← srcVals s [(f.a.toNat, f.ka)]
  skipCheck s.cur f.s.toNat (vs.headD 0).toNat
  return (addPost (popSrcs s [(f.a.toNat, f.ka)]) (.sadv f.s.toNat (vs.headD 0).toNat), .seq 1)

theorem execSadv_eq (f : FSA) (s : State) : execSadv f s = issue s { handlerOk := false, pre := needOpen f.s.toNat } (sadvBody f) := by
  refine congrArg (issue s _) (funext fun t => ?_)
  refine congrArg (Except.bind (srcVals t [(f.a.toNat, f.ka)])) (funext fun vs => ?_)
  unfold skipCheck
  dsimp only
  cases t.cur.strms.find f.s.toNat with
  | none => rfl
  | some st =>
    dsimp only
    split
    · rfl
    · rfl

/-- The body of SADV on an operand that can be read. -/
theorem sadvBody_read {f : FSA} {t : State} {vs : List Word} (hvals : srcVals t [(f.a.toNat, f.ka)] = .ok vs) :
    sadvBody f t = (skipCheck t.cur f.s.toNat (vs.headD 0).toNat).bind fun _ =>
      .ok (addPost (popSrcs t [(f.a.toNat, f.ka)]) (.sadv f.s.toNat (vs.headD 0).toNat), .seq 1) := by
  unfold sadvBody
  rw [hvals]
  rfl

theorem sadv_completes (f : FSA) (s : State) {x : Doing} (hx : streamActs (.sadv f) = some x) : Completes (.sadv f) s x := by
  cases hx
  refine completes_of _ s _ _ _ (execSadv_eq f s) rfl rfl rfl (fun _ _ => rfl) (fun hmay => .inr (queueMode_not_handler hmay))
    (fun _ hok => needOpen_ok ?_) fun _ hok hvals => ?_
  · obtain ⟨st, hfind, _⟩ := hok
    rw [← strms_atIssue, hfind]
    exact Option.some_ne_none st
  · obtain ⟨st, hfind, hleft⟩ := hok
    dsimp only at hvals
    rw [sadvBody_read hvals]
    exact bind_of_ok (skipCheck_ok hfind hleft) _

section
variable {s : State} (hm : QueueMode s) (hg : Unguarded s) (f : FSA)
include hm hg

theorem sadv_closed (hclosed : s.cur.strms.find f.s.toNat = none) :
    exec (.sadv f) s = .next (takeTrap s 0x01 (0x020D + f.s.toNat * 2 ^ 16)) := by
  refine (execSadv_eq f s).trans (issue_closed hm hg hclosed ?_)
  refine .bind ((srcVals_notIllegal fun hhandler => ?_).classFrom _) fun vs => .bind (skipCheck_class ..) fun _ => .pure _
  exact absurd (((queueMode_signed s 1).2 hm).2.symm.trans hhandler.2) (by decide)

theorem sadv_past {st : Strm} (hopen : s.cur.strms.find f.s.toNat = some st) (hsrc : SrcReady s f.a.toNat)
    (hpast : st.remaining - b2n (st.due s.cur.now) < (srcValue s f.a.toNat).toNat) :
    exec (.sadv f) s = .next (takeTrap s 0x01 (0x030D + f.s.toNat * 2 ^ 16)) := by
  have hneed : needOpen f.s.toNat s = .ok () := needOpen_ok (by simp [hopen])
  have hbody : sadvBody f (signed s 1) = .error (streamIllegal 0x03 f.s.toNat) := by
    rw [sadvBody_read (srcVals_signed_one 1 hsrc)]
    exact bind_of_error ((skipCheck_signed ..).trans (skipCheck_past hopen hpast)) _
  exact ((execSadv_eq f s).trans (issue_stop s _ _ _ hm.1 hg rfl (.inr (queueMode_not_handler hm)) hneed (loopCheck_one s)
    ((congrArg (sadvBody f) (signed_def s 1)).trans hbody))).trans (congrArg Host.Outcome.next (takeStop_illegal ..))

end

/-! ## The obligation -/

theorem streamActs_complete (i : Instr) (s : State) (x : Doing) (hx : streamActs i = some x) : Completes i s x := by
  cases i
  case openS f => exact openS_completes f s hx
  case close f => exact close_completes f s hx
  case sadv f => exact sadv_completes f s hx
  case srew f => exact srew_completes f s hx
  case sstat f => exact sstat_completes f s hx
  all_goals cases hx

/-- Settles O17: each instruction completes by the common form, and each trap is that of the one check that fails. -/
theorem streamInstructions : Obligations.StreamInstructions := by
  unfold Obligations.StreamInstructions
  refine ⟨streamActs_complete, fun c n k st hfind => ⟨streamPost_close, ?_, ?_, fun m hne => streamPost_other hfind hne⟩,
    fun s hm hg => ⟨fun f st hopen hloop hpar => ?_, fun f hpar hbad => openS_bad hm hg hpar ?_, fun f => sadv_closed hm hg f,
      fun f => srew_closed hm hg f, fun f st => sadv_past hm hg f⟩⟩
  · rw [streamPost_sadv hfind]
    exact NMap.find_set_same ..
  · rw [streamPost_srew hfind]
    exact NMap.find_set_same ..
  · exact fun hlay hrec hfits => openS_open hm hg hpar hopen hloop (Bool.and_eq_true_iff.2 ⟨hlay, hrec⟩) hfits
  · exact Bool.and_eq_false_iff.2 hbad

end Sys2Proof.Machine
end

section
/-! PROOFS. A word as the sum of its fields: a mask gives the sum of the fields that it covers, and each field is read at its bits (R2, R75). -/

namespace Sys2Proof.Machine

/-! ## Masks -/

theorem bits_eq (w hi lo : Nat) : bits w hi lo = w / 2 ^ lo % 2 ^ (hi + 1 - lo) := congrArg (· % _) (Nat.shiftRight_eq_div_pow w lo)

/-- The bits [hi:lo] of a mask. -/
def fieldMask (f : Nat × Nat) : Nat := 2 ^ f.2 * (2 ^ (f.1 + 1 - f.2) - 1)

theorem and_fieldMask (w : Nat) (f : Nat × Nat) : w &&& fieldMask f = 2 ^ f.2 * bits w f.1 f.2 := by
  refine Nat.eq_of_testBit_eq fun i => ?_
  simp only [fieldMask, bits_eq, Nat.testBit_and, Nat.testBit_two_pow_mul, Nat.testBit_two_pow_sub_one, Nat.testBit_mod_two_pow, Nat.testBit_div_two_pow]
  by_cases hi : f.2 ≤ i
  · simp [hi, Bool.and_comm]
  · simp [hi]

/-- The mask of several fields. -/
def maskOf (fs : List (Nat × Nat)) : Nat := fs.foldr (fun f m => fieldMask f + m) 0

/-- What a word holds in several fields. -/
def fieldsAt (w : Nat) (fs : List (Nat × Nat)) : Nat := fs.foldr (fun f m => 2 ^ f.2 * bits w f.1 f.2 + m) 0

/-- Fields from the highest down, none meeting the next. -/
abbrev Falling (fs : List (Nat × Nat)) : Prop := fs.Pairwise fun f g => g.1 < f.2

theorem maskOf_lt {fs : List (Nat × Nat)} (hfs : Falling fs) {n : Nat} (hn : ∀ f ∈ fs, f.1 < n) : maskOf fs < 2 ^ n := by
  induction fs generalizing n with
  | nil => exact Nat.two_pow_pos n
  | cons f fs ih =>
    obtain ⟨hbelow, hfs⟩ := List.pairwise_cons.1 hfs
    obtain ⟨hf, hn⟩ := List.forall_mem_cons.1 hn
    by_cases hle : f.2 ≤ f.1
    · calc maskOf (f :: fs) < 2 ^ f.2 * (2 ^ (f.1 + 1 - f.2) - 1) + 2 ^ f.2 := Nat.add_lt_add_left (ih hfs hbelow) _
        _ = 2 ^ f.2 * 2 ^ (f.1 + 1 - f.2) := by rw [← Nat.mul_succ, Nat.succ_eq_add_one, Nat.sub_add_cancel Nat.one_le_two_pow]
        _ = 2 ^ (f.1 + 1) := by rw [← Nat.pow_add, Nat.add_sub_cancel' (by omega)]
        _ ≤ 2 ^ n := Nat.pow_le_pow_right (by decide) hf
    · have hnone : f.1 + 1 - f.2 = 0 := by omega
      have hmask : maskOf (f :: fs) = maskOf fs := by simp [maskOf, fieldMask, hnone]
      exact hmask ▸ ih hfs hn

/-- A word under a mask is the sum of its fields. -/
theorem and_maskOf (w : Nat) {fs : List (Nat × Nat)} (hfs : Falling fs) : w &&& maskOf fs = fieldsAt w fs := by
  induction fs with
  | nil => exact Nat.and_zero w
  | cons f fs ih =>
    obtain ⟨hbelow, hfs⟩ := List.pairwise_cons.1 hfs
    have hlow : maskOf fs < 2 ^ f.2 := maskOf_lt hfs hbelow
    calc w &&& (fieldMask f + maskOf fs) = w &&& (fieldMask f ||| maskOf fs) := congrArg (w &&& ·) (Nat.two_pow_add_eq_or_of_lt hlow _)
      _ = 2 ^ f.2 * bits w f.1 f.2 ||| w &&& maskOf fs := by rw [Nat.and_or_distrib_left, and_fieldMask]
      _ = 2 ^ f.2 * bits w f.1 f.2 + (w &&& maskOf fs) := (Nat.two_pow_add_eq_or_of_lt (Nat.and_lt_two_pow w hlow) _).symm
      _ = fieldsAt w (f :: fs) := congrArg (_ + ·) (ih hfs)

theorem and_mask (w : Nat) {mask : Nat} (fs : List (Nat × Nat)) (hfs : Falling fs) (hmask : maskOf fs = mask) : w &&& mask = fieldsAt w fs :=
  hmask ▸ and_maskOf w hfs

/-! ## Words made of fields -/

/-- The word of a list of fields, each a width and a value, the lowest first. -/
def pack : List (Nat × Nat) → Nat
  | [] => 0
  | (k, v) :: fs => v + 2 ^ k * pack fs

/-- Each value has the width of its field. -/
def Fits : List (Nat × Nat) → Prop
  | [] => True
  | (k, v) :: fs => v < 2 ^ k ∧ Fits fs

/-- The width of the first `n` fields. -/
def widthOf : Nat → List (Nat × Nat) → Nat
  | n + 1, (k, _) :: fs => k + widthOf n fs
  | _, _ => 0

theorem pack_lt {fs : List (Nat × Nat)} (hfs : Fits fs) : pack fs < 2 ^ widthOf fs.length fs := by
  induction fs with
  | nil => exact Nat.one_pos
  | cons f fs ih =>
    obtain ⟨hf, hfs⟩ := hfs
    calc pack (f :: fs) < 2 ^ f.1 + 2 ^ f.1 * pack fs := Nat.add_lt_add_right hf _
      _ = 2 ^ f.1 * (pack fs + 1) := by rw [Nat.mul_succ, Nat.add_comm]
      _ ≤ 2 ^ f.1 * 2 ^ widthOf fs.length fs := Nat.mul_le_mul_left _ (ih hfs)
      _ = 2 ^ widthOf (f :: fs).length (f :: fs) := (Nat.pow_add ..).symm

/-- Field `n` of a word, which lies at the bits [hi:lo]. -/
theorem bits_pack {fs : List (Nat × Nat)} (hfs : Fits fs) {n hi v : Nat} (hget : fs[n]? = some (hi + 1 - widthOf n fs, v)) :
    bits (pack fs) hi (widthOf n fs) = v := by
  rw [bits_eq]
  generalize hi + 1 - widthOf n fs = k at hget
  induction n generalizing fs with
  | zero =>
    match fs, hfs, hget with
    | _ :: fs, hfs, rfl => exact (congrArg (· % _) (Nat.div_one _)).trans ((Nat.add_mul_mod_self_left ..).trans (Nat.mod_eq_of_lt hfs.1))
  | succ n ih =>
    match fs, hfs, hget with
    | f :: fs, hfs, hget =>
      have hskip : pack (f :: fs) / 2 ^ f.1 = pack fs := by
        rw [show pack (f :: fs) = f.2 + 2 ^ f.1 * pack fs from rfl, Nat.add_mul_div_left _ _ (Nat.two_pow_pos _), Nat.div_eq_of_lt hfs.1, Nat.zero_add]
      rw [← ih hfs.2 hget, ← hskip, Nat.div_div_eq_div_mul, ← Nat.pow_add]
      rfl

/-- The word `w` holds the fields `fs`. -/
structure Holds (w : Nat) (fs : List (Nat × Nat)) : Prop where
  eq : w = pack fs
  fits : Fits fs

section
variable {w n hi lo : Nat} {fs : List (Nat × Nat)} (hw : Holds w fs)
include hw

theorem Holds.bits (n : Nat) {v : Nat} (hlo : widthOf n fs = lo) (hget : fs[n]? = some (hi + 1 - lo, v)) : bits w hi lo = v := by
  subst hlo
  exact hw.eq ▸ bits_pack hw.fits hget

theorem Holds.ofNat_bits (n : Nat) {k : Nat} {v : BitVec k} (hlo : widthOf n fs = lo) (hget : fs[n]? = some (hi + 1 - lo, v.toNat)) :
    BitVec.ofNat k (Machine.bits w hi lo) = v := by
  rw [hw.bits n hlo hget, BitVec.ofNat_toNat, BitVec.setWidth_eq]

theorem Holds.bitB (n : Nat) {b : Bool} (hlo : widthOf n fs = lo) (hget : fs[n]? = some (1, bit b)) : bitB w lo = b := by
  have hbit := hw.bits n (hi := lo) hlo (by rw [hget, Nat.add_sub_cancel_left])
  have hmod : (w >>> lo) % 2 = bit b := by simpa [Machine.bits] using hbit
  rw [Machine.bitB, hmod]
  cases b <;> rfl

theorem Holds.lt (hlen : widthOf fs.length fs = n) : w < 2 ^ n := hlen ▸ hw.eq ▸ pack_lt hw.fits

end

theorem bit_lt (b : Bool) : bit b < 2 ^ 1 := by cases b <;> decide

end Sys2Proof.Machine
end

section
/-! PROOFS. Scalar words are read back by the sequencer's decoder (R73, R75, R76, R82). -/

namespace Sys2Proof.Machine
open Sys2Proof.Claims

/-! ## Words of the sequencer (R73, R75, R76, R82) -/

/-- A word with head `h` that has the pattern `p` under the mask of its row, which holds the major. -/
structure RowWord (w p h mask : Nat) : Prop where
  major : bits w 28 23 = p / 2 ^ 23
  fixed : w &&& mask = p
  head : w / 2 ^ 29 = h % 2 ^ 3
  lt : w < 2 ^ 32

theorem head_of_bits {w h : Nat} (hlt : w < 2 ^ 32) (hhead : bits w 31 29 = h) : w / 2 ^ 29 = h := by
  rw [← hhead, bits_eq]
  omega

/-- A row of format R: a pattern with a major and a minor in bits [2:0]. -/
abbrev MinorPattern (p : Nat) : Prop := p / 2 ^ 23 < 2 ^ 6 ∧ p % 2 ^ 23 < 2 ^ 3

/-- A row with a major alone. -/
abbrev MajorPattern (p : Nat) : Prop := p / 2 ^ 23 < 2 ^ 6 ∧ p % 2 ^ 23 = 0

/-- The words of a shape of operands whose rows have a minor: what is put is read back, under the mask of the rows. -/
def MinorShape {F : Type} (put : Nat → F → Nat) (get : Nat → F) (mask : Nat) : Prop :=
  ∀ (p h w : Nat) (f : F), MinorPattern p → w = put p f + h % 2 ^ 3 * 2 ^ 29 → RowWord w p h mask ∧ bits w 2 0 = p % 2 ^ 3 ∧ get w = f

/-- The words of a shape of operands whose rows have none. -/
def MajorShape {F : Type} (put : Nat → F → Nat) (get : Nat → F) (mask : Nat) : Prop :=
  ∀ (p h w : Nat) (f : F), MajorPattern p → w = put p f + h % 2 ^ 3 * 2 ^ 29 → RowWord w p h mask ∧ get w = f

section
variable {h p : Nat}

theorem mod_head_lt : h % 2 ^ 3 < 2 ^ 3 := Nat.mod_lt _ (by decide)

theorem putDAB_holds (f : FDAB) (hp : MinorPattern p) : Holds (putDAB p f + h % 2 ^ 3 * 2 ^ 29)
    [(3, p % 2 ^ 3), (1, bit f.kb), (1, bit f.ka), (6, f.b.toNat), (6, f.a.toNat), (6, f.d.toNat), (6, p / 2 ^ 23), (3, h % 2 ^ 3)] :=
  ⟨by simp only [putDAB, pack]; omega, mod_head_lt, bit_lt _, bit_lt _, f.b.isLt, f.a.isLt, f.d.isLt, hp.1, mod_head_lt, trivial⟩

theorem putDA_holds (f : FDA) (hp : MinorPattern p) : Holds (putDA p f + h % 2 ^ 3 * 2 ^ 29)
    [(3, p % 2 ^ 3), (1, 0), (1, bit f.ka), (6, 0), (6, f.a.toNat), (6, f.d.toNat), (6, p / 2 ^ 23), (3, h % 2 ^ 3)] :=
  ⟨by simp only [putDA, pack]; omega, mod_head_lt, by decide, bit_lt _, by decide, f.a.isLt, f.d.isLt, hp.1, mod_head_lt, trivial⟩

theorem putD_holds (f : FD) (hp : MinorPattern p) : Holds (putD p f + h % 2 ^ 3 * 2 ^ 29)
    [(3, p % 2 ^ 3), (14, 0), (6, f.d.toNat), (6, p / 2 ^ 23), (3, h % 2 ^ 3)] :=
  ⟨by simp only [putD, pack]; omega, mod_head_lt, by decide, f.d.isLt, hp.1, mod_head_lt, trivial⟩

theorem putImm_holds (f : FImm) (hp : MajorPattern p) : Holds (putImm p f + h % 2 ^ 3 * 2 ^ 29)
    [(10, f.imm.toNat), (1, bit f.ka), (6, f.a.toNat), (6, f.d.toNat), (6, p / 2 ^ 23), (3, h % 2 ^ 3)] :=
  ⟨by simp only [putImm, pack]; omega, f.imm.isLt, bit_lt _, f.a.isLt, f.d.isLt, hp.1, mod_head_lt, trivial⟩

theorem putShI_holds (f : FShI) (hp : MajorPattern p) : Holds (putShI p f + h % 2 ^ 3 * 2 ^ 29)
    [(6, f.cnt.toNat), (4, 0), (1, bit f.ka), (6, f.a.toNat), (6, f.d.toNat), (6, p / 2 ^ 23), (3, h % 2 ^ 3)] :=
  ⟨by simp only [putShI, pack]; omega, f.cnt.isLt, by decide, bit_lt _, f.a.isLt, f.d.isLt, hp.1, mod_head_lt, trivial⟩

theorem putU_holds (f : FU) (hp : MajorPattern p) : Holds (putU p f + h % 2 ^ 3 * 2 ^ 29)
    [(17, f.imm.toNat), (6, f.d.toNat), (6, p / 2 ^ 23), (3, h % 2 ^ 3)] :=
  ⟨by simp only [putU, pack]; omega, f.imm.isLt, f.d.isLt, hp.1, mod_head_lt, trivial⟩

end

theorem minorShape_DAB : MinorShape putDAB getDAB 0x1F800007 := by
  intro p h w f hp hw
  have hw := hw ▸ putDAB_holds (h := h) f hp
  have hmaj : bits w 28 23 = p / 2 ^ 23 := hw.bits 6 rfl rfl
  have hmin : bits w 2 0 = p % 2 ^ 3 := hw.bits 0 rfl rfl
  refine ⟨⟨hmaj, ?_, head_of_bits (hw.lt rfl) (hw.bits 7 rfl rfl), hw.lt rfl⟩, hmin, ?_⟩
  · rw [and_mask w [(28, 23), (2, 0)] (by decide) (by decide)]
    simp only [fieldsAt, List.foldr, hmaj, hmin]
    omega
  · unfold getDAB
    congr 1
    exacts [hw.ofNat_bits 5 rfl rfl, hw.ofNat_bits 4 rfl rfl, hw.ofNat_bits 3 rfl rfl, hw.bitB 2 rfl rfl, hw.bitB 1 rfl rfl]

theorem minorShape_DA : MinorShape putDA getDA 0x1F8007EF := by
  intro p h w f hp hw
  have hw := hw ▸ putDA_holds (h := h) f hp
  have hmaj : bits w 28 23 = p / 2 ^ 23 := hw.bits 6 rfl rfl
  have hmin : bits w 2 0 = p % 2 ^ 3 := hw.bits 0 rfl rfl
  have hb : bits w 10 5 = 0 := hw.bits 3 rfl rfl
  have hkb : bits w 3 3 = 0 := hw.bits 1 rfl rfl
  refine ⟨⟨hmaj, ?_, head_of_bits (hw.lt rfl) (hw.bits 7 rfl rfl), hw.lt rfl⟩, hmin, ?_⟩
  · rw [and_mask w [(28, 23), (10, 5), (3, 3), (2, 0)] (by decide) (by decide)]
    simp only [fieldsAt, List.foldr, hmaj, hmin, hb, hkb]
    omega
  · unfold getDA
    congr 1
    exacts [hw.ofNat_bits 5 rfl rfl, hw.ofNat_bits 4 rfl rfl, hw.bitB 2 rfl rfl]

theorem minorShape_D : MinorShape putD getD 0x1F81FFFF := by
  intro p h w f hp hw
  have hw := hw ▸ putD_holds (h := h) f hp
  have hmaj : bits w 28 23 = p / 2 ^ 23 := hw.bits 3 rfl rfl
  have hmin : bits w 2 0 = p % 2 ^ 3 := hw.bits 0 rfl rfl
  have hzero : bits w 16 3 = 0 := hw.bits 1 rfl rfl
  refine ⟨⟨hmaj, ?_, head_of_bits (hw.lt rfl) (hw.bits 4 rfl rfl), hw.lt rfl⟩, hmin, ?_⟩
  · rw [and_mask w [(28, 23), (16, 3), (2, 0)] (by decide) (by decide)]
    simp only [fieldsAt, List.foldr, hmaj, hmin, hzero]
    omega
  · exact congrArg FD.mk (hw.ofNat_bits 2 rfl rfl)

theorem majorShape_Imm : MajorShape putImm getImm 0x1F800000 := by
  intro p h w f hp hw
  have hw := hw ▸ putImm_holds (h := h) f hp
  have hmaj : bits w 28 23 = p / 2 ^ 23 := hw.bits 4 rfl rfl
  refine ⟨⟨hmaj, ?_, head_of_bits (hw.lt rfl) (hw.bits 5 rfl rfl), hw.lt rfl⟩, ?_⟩
  · rw [and_mask w [(28, 23)] (by decide) (by decide)]
    simp only [fieldsAt, List.foldr, hmaj]
    omega
  · unfold getImm
    congr 1
    exacts [hw.ofNat_bits 3 rfl rfl, hw.ofNat_bits 2 rfl rfl, hw.bitB 1 rfl rfl, hw.ofNat_bits 0 rfl rfl]

theorem majorShape_ShI : MajorShape putShI getShI 0x1F8003C0 := by
  intro p h w f hp hw
  have hw := hw ▸ putShI_holds (h := h) f hp
  have hmaj : bits w 28 23 = p / 2 ^ 23 := hw.bits 5 rfl rfl
  have hzero : bits w 9 6 = 0 := hw.bits 1 rfl rfl
  refine ⟨⟨hmaj, ?_, head_of_bits (hw.lt rfl) (hw.bits 6 rfl rfl), hw.lt rfl⟩, ?_⟩
  · rw [and_mask w [(28, 23), (9, 6)] (by decide) (by decide)]
    simp only [fieldsAt, List.foldr, hmaj, hzero]
    omega
  · unfold getShI
    congr 1
    exacts [hw.ofNat_bits 4 rfl rfl, hw.ofNat_bits 3 rfl rfl, hw.bitB 2 rfl rfl, hw.ofNat_bits 0 rfl rfl]

theorem majorShape_U : MajorShape putU getU 0x1F800000 := by
  intro p h w f hp hw
  have hw := hw ▸ putU_holds (h := h) f hp
  have hmaj : bits w 28 23 = p / 2 ^ 23 := hw.bits 2 rfl rfl
  refine ⟨⟨hmaj, ?_, head_of_bits (hw.lt rfl) (hw.bits 3 rfl rfl), hw.lt rfl⟩, ?_⟩
  · rw [and_mask w [(28, 23)] (by decide) (by decide)]
    simp only [fieldsAt, List.foldr, hmaj]
    omega
  · unfold getU
    congr 1
    exacts [hw.ofNat_bits 1 rfl rfl, hw.ofNat_bits 0 rfl rfl]

/-! ## Scalar words are read back -/

/-- A row whose word is the instruction's and whose fixed bits are those of the pattern decodes to it, where no field rule is broken. -/
theorem decode_row {w mask p : Nat} {e : List Nat} {i : Instr} (hrow : firstWord w e = .row mask p i) (hfixed : w &&& mask = p)
    (hmaj : bits w 28 23 ∉ [0x12, 0x30, 0x3B]) (hslath : i ≠ .slath) (hfields : fieldFaults false i = []) :
    decode false (w :: e) = .ok i (wordCount i) := by
  simp only [List.mem_cons, List.not_mem_nil, or_false, not_or] at hmaj
  obtain ⟨hgrd, hquant, hsys⟩ := hmaj
  have hown : ownFaults false w e = [] := by
    simp [ownFaults, hrow, hfixed, hfields, hquant, hsys, bad]
  have hall : allFaults false w e = [] := (if_neg hgrd).trans hown
  simp only [decode, hall, hrow]

/-- Every word of the instruction reads back as it, with its idle count in the head. -/
def ReadsBack (i : Instr) : Prop := ∀ (h : Nat) (rest : List Nat), h < 8 →
  decode false (encode h i ++ rest) = .ok i 1 ∧ ∃ w, encode h i = [w] ∧ w < 2 ^ 32 ∧ w / 2 ^ 29 = h

theorem readsBack_of_row {i : Instr} {b p mask : Nat} (hi : isScalar i = true) (henc : ∀ h, encode h i = [b + h % 2 ^ 3 * 2 ^ 29])
    (hfields : fieldFaults false i = []) (hmaj : p / 2 ^ 23 ∉ [0x12, 0x30, 0x3B])
    (hw : ∀ h e, RowWord (b + h % 2 ^ 3 * 2 ^ 29) p h mask ∧ firstWord (b + h % 2 ^ 3 * 2 ^ 29) e = .row mask p i) : ReadsBack i := by
  intro h rest hh
  obtain ⟨hword, hrow⟩ := hw h rest
  refine ⟨?_, _, henc h, hword.lt, hword.head.trans (Nat.mod_eq_of_lt hh)⟩
  have hslath : i ≠ .slath := by rintro rfl; cases hi
  have hcount : wordCount i = 1 := by
    unfold wordCount
    split
    · cases hi
    · cases hi
    · rfl
  rw [henc, List.singleton_append, decode_row hrow hword.fixed (hword.major ▸ hmaj) hslath hfields, hcount]

section
variable {F : Type} {put : Nat → F → Nat} {get : Nat → F} {mask p : Nat} {mk : F → Instr} {f : F}

theorem MinorShape.readsBack (hshape : MinorShape put get mask) (hi : isScalar (mk f) = true) (henc : ∀ h, encode h (mk f) = [put p f + h % 2 ^ 3 * 2 ^ 29])
    (hfields : fieldFaults false (mk f) = []) (hp : MinorPattern p) (hmaj : p / 2 ^ 23 ∉ [0x12, 0x30, 0x3B])
    (hrow : ∀ w e, bits w 28 23 = p / 2 ^ 23 → bits w 2 0 = p % 2 ^ 3 → firstWord w e = .row mask p (mk (get w))) : ReadsBack (mk f) :=
  readsBack_of_row hi henc hfields hmaj fun h e => by
    obtain ⟨hword, hmin, hget⟩ := hshape p h _ f hp rfl
    exact ⟨hword, (hrow _ e hword.major hmin).trans (by rw [hget])⟩

theorem MajorShape.readsBack (hshape : MajorShape put get mask) (hi : isScalar (mk f) = true) (henc : ∀ h, encode h (mk f) = [put p f + h % 2 ^ 3 * 2 ^ 29])
    (hfields : fieldFaults false (mk f) = []) (hp : MajorPattern p) (hmaj : p / 2 ^ 23 ∉ [0x12, 0x30, 0x3B])
    (hrow : ∀ w e, bits w 28 23 = p / 2 ^ 23 → firstWord w e = .row mask p (mk (get w))) : ReadsBack (mk f) :=
  readsBack_of_row hi henc hfields hmaj fun h e => by
    obtain ⟨hword, hget⟩ := hshape p h _ f hp rfl
    exact ⟨hword, (hrow _ e hword.major).trans (by rw [hget])⟩

end

theorem scalar_readsBack {i : Instr} (hi : isScalar i = true) : ReadsBack i := by
  cases i
  case add f | sub f | and f | or f | xor f | shl f | shr f | sra f | mul f | mulhs f | mulhu f | min f | max f | minu f | maxu f | andn f
      | seq f | sne f | slt f | sltu f | sge f | sgeu f | bext f | bflip f | div f | divu f | rem f | remu f | sext f | zext f
      | fadd f | fsub f | fmul f | fdiv f | fcmplt f =>
    exact minorShape_DAB.readsBack rfl (fun _ => rfl) rfl (by decide) (by decide) fun w e hmaj hmin => by
      simp only [firstWord, hmaj, first01, first02, first03, first04, first05, first1B, hmin, Nat.reduceDiv, Nat.reduceMod, Nat.reducePow]
  case clz f | ctz f | popc f | brev f | bswap f | fsqrt f | fcvti f | icvtf f =>
    exact minorShape_DA.readsBack rfl (fun _ => rfl) rfl (by decide) (by decide) fun w e hmaj hmin => by
      simp only [firstWord, hmaj, first05, first1B, hmin, Nat.reduceDiv, Nat.reduceMod, Nat.reducePow]
  case tbrd f =>
    exact minorShape_D.readsBack rfl (fun _ => rfl) rfl (by decide) (by decide) fun w e hmaj hmin => by
      simp only [firstWord, hmaj, first17, hmin, Nat.reduceDiv, Nat.reduceMod, Nat.reducePow]
  case addi f | andi f | ori f | xori f | slti f =>
    exact majorShape_Imm.readsBack rfl (fun _ => rfl) rfl (by decide) (by decide) fun w e hmaj => by
      simp only [firstWord, hmaj, first06, first07, first08, first09, first0D, Nat.reduceDiv, Nat.reducePow]
  case shli f | shri f | srai f =>
    exact majorShape_ShI.readsBack rfl (fun _ => rfl) rfl (by decide) (by decide) fun w e hmaj => by
      simp only [firstWord, hmaj, first0A, first0B, first0C, Nat.reduceDiv, Nat.reducePow]
  case li f | lcat f =>
    exact majorShape_U.readsBack rfl (fun _ => rfl) rfl (by decide) (by decide) fun w e hmaj => by
      simp only [firstWord, hmaj, first0E, first0F, Nat.reduceDiv, Nat.reducePow]
  all_goals cases hi

end Sys2Proof.Machine
end

section
/-! PROOFS. The words of the memory command tables and the collective words are read back, and with them every word of the round trip (R209, R347). -/

namespace Sys2Proof.Machine
open Sys2Proof.Claims

/-! ## Words of the engines' tables (R209, R347) -/

/-- What a row makes of a word: its instruction, but where a fixed bit differs from the pattern or a field rule is broken. -/
def rowOf (w mask p : Nat) (i : Instr) : Option Instr := if w &&& mask != p || !(fieldFaults false i).isEmpty then none else some i

theorem rowOf_some {w mask p : Nat} {i : Instr} (hfixed : w &&& mask = p) (hwf : WellFormed i) : rowOf w mask p i = some i := by
  have hempty : (fieldFaults false i).isEmpty = true := hwf
  simp [rowOf, hfixed, hempty]

/-! ### Memory command words (R209) -/

/-- A memory command word with delay `h` and the pattern `p`, whose code is in bits [23:20], under the mask of its row. -/
structure McWord (w p h mask : Nat) : Prop where
  code : bits w 23 20 = p / 2 ^ 20
  fixed : w &&& mask = p
  delay : bits w 31 24 = h % 2 ^ 8
  lt : w < 2 ^ 32

/-- A pattern with a code alone. -/
abbrev McPattern (p : Nat) : Prop := p / 2 ^ 20 < 2 ^ 4 ∧ p % 2 ^ 20 = 0

/-- The memory command words of a shape of operands: what is put is read back, under the mask of the rows. -/
def McShape {F : Type} (put : Nat → F → Nat) (get : Nat → F) (mask : Nat) : Prop :=
  ∀ (p h w : Nat) (f : F), McPattern p → w = put p f + h % 2 ^ 8 * 2 ^ 24 → McWord w p h mask ∧ get w = f

section
variable {p h : Nat}

theorem mod_delay_lt : h % 2 ^ 8 < 2 ^ 8 := Nat.mod_lt _ (by decide)

theorem putMcAct_holds (f : FMcAct) (hp : McPattern p) : Holds (putMcAct p f + h % 2 ^ 8 * 2 ^ 24)
    [(16, f.row.toNat), (4, f.bank.toNat), (4, p / 2 ^ 20), (8, h % 2 ^ 8)] :=
  ⟨by simp only [putMcAct, pack]; omega, f.row.isLt, f.bank.isLt, hp.1, mod_delay_lt, trivial⟩

theorem putMcCol_holds (f : FMcCol) (hp : McPattern p) : Holds (putMcCol p f + h % 2 ^ 8 * 2 ^ 24)
    [(11, f.stp.toNat), (1, bit f.ap), (4, f.col.toNat), (4, f.bank.toNat), (4, p / 2 ^ 20), (8, h % 2 ^ 8)] :=
  ⟨by simp only [putMcCol, pack]; omega, f.stp.isLt, bit_lt _, f.col.isLt, f.bank.isLt, hp.1, mod_delay_lt, trivial⟩

theorem putMcBank_holds (f : FMcBank) (hp : McPattern p) : Holds (putMcBank p f + h % 2 ^ 8 * 2 ^ 24)
    [(16, 0), (4, f.bank.toNat), (4, p / 2 ^ 20), (8, h % 2 ^ 8)] :=
  ⟨by simp only [putMcBank, pack]; omega, by decide, f.bank.isLt, hp.1, mod_delay_lt, trivial⟩

theorem putMcTag_holds (f : FMcTag) (hp : McPattern p) : Holds (putMcTag p f + h % 2 ^ 8 * 2 ^ 24)
    [(16, f.tag.toNat), (4, 0), (4, p / 2 ^ 20), (8, h % 2 ^ 8)] :=
  ⟨by simp only [putMcTag, pack]; omega, f.tag.isLt, by decide, hp.1, mod_delay_lt, trivial⟩

theorem putMcBind_holds (f : FMcBind) (hp : McPattern p) : Holds (putMcBind p f + h % 2 ^ 8 * 2 ^ 24)
    [(2, f.cursor.toNat), (18, 0), (4, p / 2 ^ 20), (8, h % 2 ^ 8)] :=
  ⟨by simp only [putMcBind, pack]; omega, f.cursor.isLt, by decide, hp.1, mod_delay_lt, trivial⟩

theorem putMcSvw_holds (f : FMcSvw) (hp : McPattern p) : Holds (putMcSvw p f + h % 2 ^ 8 * 2 ^ 24)
    [(14, f.len.toNat), (4, f.mask.toNat), (2, f.cls.toNat), (4, p / 2 ^ 20), (8, h % 2 ^ 8)] :=
  ⟨by simp only [putMcSvw, pack]; omega, f.len.isLt, f.mask.isLt, f.cls.isLt, hp.1, mod_delay_lt, trivial⟩

theorem putMcLoop_holds (f : FMcLoop) (hp : McPattern p) : Holds (putMcLoop p f + h % 2 ^ 8 * 2 ^ 24)
    [(9, f.count.toNat), (10, f.target.toNat), (1, f.level.toNat), (4, p / 2 ^ 20), (8, h % 2 ^ 8)] :=
  ⟨by simp only [putMcLoop, pack]; omega, f.count.isLt, f.target.isLt, f.level.isLt, hp.1, mod_delay_lt, trivial⟩

theorem putMcDly_holds (f : FMcDly) (hp : McPattern p) : Holds (putMcDly p f + h % 2 ^ 8 * 2 ^ 24)
    [(20, f.e.toNat), (4, p / 2 ^ 20), (8, h % 2 ^ 8)] :=
  ⟨by simp only [putMcDly, pack]; omega, f.e.isLt, hp.1, mod_delay_lt, trivial⟩

theorem mcPlain_holds (hp : McPattern p) : Holds (p + h % 2 ^ 8 * 2 ^ 24) [(20, 0), (4, p / 2 ^ 20), (8, h % 2 ^ 8)] :=
  ⟨by simp only [pack]; omega, by decide, hp.1, mod_delay_lt, trivial⟩

end

/-- A word whose row fixes nothing but the code. -/
theorem mcWord_of_code {w p h : Nat} {fs : List (Nat × Nat)} (hw : Holds w fs) (hlen : widthOf fs.length fs = 32) (hp : McPattern p)
    (hcode : bits w 23 20 = p / 2 ^ 20) (hdelay : bits w 31 24 = h % 2 ^ 8) : McWord w p h 0x00F00000 := by
  refine ⟨hcode, ?_, hdelay, hw.lt hlen⟩
  rw [and_mask w [(23, 20)] (by decide) (by decide)]
  simp only [fieldsAt, List.foldr, hcode]
  omega

theorem mcShape_Act : McShape putMcAct getMcAct 0x00F00000 := by
  intro p h w f hp hw
  have hw := hw ▸ putMcAct_holds (h := h) f hp
  refine ⟨mcWord_of_code hw rfl hp (hw.bits 2 rfl rfl) (hw.bits 3 rfl rfl), ?_⟩
  unfold getMcAct
  congr 1
  exacts [hw.ofNat_bits 1 rfl rfl, hw.ofNat_bits 0 rfl rfl]

theorem mcShape_Col : McShape putMcCol getMcCol 0x00F00000 := by
  intro p h w f hp hw
  have hw := hw ▸ putMcCol_holds (h := h) f hp
  refine ⟨mcWord_of_code hw rfl hp (hw.bits 4 rfl rfl) (hw.bits 5 rfl rfl), ?_⟩
  unfold getMcCol
  congr 1
  exacts [hw.ofNat_bits 3 rfl rfl, hw.ofNat_bits 2 rfl rfl, hw.bitB 1 rfl rfl, hw.ofNat_bits 0 rfl rfl]

theorem mcShape_Svw : McShape putMcSvw getMcSvw 0x00F00000 := by
  intro p h w f hp hw
  have hw := hw ▸ putMcSvw_holds (h := h) f hp
  refine ⟨mcWord_of_code hw rfl hp (hw.bits 3 rfl rfl) (hw.bits 4 rfl rfl), ?_⟩
  unfold getMcSvw
  congr 1
  exacts [hw.ofNat_bits 2 rfl rfl, hw.ofNat_bits 1 rfl rfl, hw.ofNat_bits 0 rfl rfl]

theorem mcShape_Loop : McShape putMcLoop getMcLoop 0x00F00000 := by
  intro p h w f hp hw
  have hw := hw ▸ putMcLoop_holds (h := h) f hp
  refine ⟨mcWord_of_code hw rfl hp (hw.bits 3 rfl rfl) (hw.bits 4 rfl rfl), ?_⟩
  unfold getMcLoop
  congr 1
  exacts [hw.ofNat_bits 2 rfl rfl, hw.ofNat_bits 1 rfl rfl, hw.ofNat_bits 0 rfl rfl]

theorem mcShape_Dly : McShape putMcDly getMcDly 0x00F00000 := by
  intro p h w f hp hw
  have hw := hw ▸ putMcDly_holds (h := h) f hp
  exact ⟨mcWord_of_code hw rfl hp (hw.bits 1 rfl rfl) (hw.bits 2 rfl rfl), congrArg FMcDly.mk (hw.ofNat_bits 0 rfl rfl)⟩

theorem mcShape_Bank : McShape putMcBank getMcBank 0x00F0FFFF := by
  intro p h w f hp hw
  have hw := hw ▸ putMcBank_holds (h := h) f hp
  have hcode : bits w 23 20 = p / 2 ^ 20 := hw.bits 2 rfl rfl
  have hzero : bits w 15 0 = 0 := hw.bits 0 rfl rfl
  refine ⟨⟨hcode, ?_, hw.bits 3 rfl rfl, hw.lt rfl⟩, congrArg FMcBank.mk (hw.ofNat_bits 1 rfl rfl)⟩
  rw [and_mask w [(23, 20), (15, 0)] (by decide) (by decide)]
  simp only [fieldsAt, List.foldr, hcode, hzero]
  omega

theorem mcShape_Tag : McShape putMcTag getMcTag 0x00FF0000 := by
  intro p h w f hp hw
  have hw := hw ▸ putMcTag_holds (h := h) f hp
  have hcode : bits w 23 20 = p / 2 ^ 20 := hw.bits 2 rfl rfl
  have hzero : bits w 19 16 = 0 := hw.bits 1 rfl rfl
  refine ⟨⟨hcode, ?_, hw.bits 3 rfl rfl, hw.lt rfl⟩, congrArg FMcTag.mk (hw.ofNat_bits 0 rfl rfl)⟩
  rw [and_mask w [(23, 20), (19, 16)] (by decide) (by decide)]
  simp only [fieldsAt, List.foldr, hcode, hzero]
  omega

theorem mcShape_Bind : McShape putMcBind getMcBind 0x00FFFFFC := by
  intro p h w f hp hw
  have hw := hw ▸ putMcBind_holds (h := h) f hp
  have hcode : bits w 23 20 = p / 2 ^ 20 := hw.bits 2 rfl rfl
  have hzero : bits w 19 2 = 0 := hw.bits 1 rfl rfl
  refine ⟨⟨hcode, ?_, hw.bits 3 rfl rfl, hw.lt rfl⟩, congrArg FMcBind.mk (hw.ofNat_bits 0 rfl rfl)⟩
  rw [and_mask w [(23, 20), (19, 2)] (by decide) (by decide)]
  simp only [fieldsAt, List.foldr, hcode, hzero]
  omega

/-- The words without operands. -/
theorem mcShape_plain : McShape (F := Unit) (fun p _ => p) (fun _ => ()) 0x00FFFFFF := by
  intro p h w _ hp hw
  have hw := hw ▸ mcPlain_holds (h := h) hp
  have hcode : bits w 23 20 = p / 2 ^ 20 := hw.bits 1 rfl rfl
  have hzero : bits w 19 0 = 0 := hw.bits 0 rfl rfl
  refine ⟨⟨hcode, ?_, hw.bits 2 rfl rfl, hw.lt rfl⟩, rfl⟩
  rw [and_mask w [(23, 20), (19, 0)] (by decide) (by decide)]
  simp only [fieldsAt, List.foldr, hcode, hzero]
  omega

/-- The memory command word of the instruction with delay `h` reads back as it. -/
def McReadsBack (i : Instr) (h : Nat) : Prop := ∃ w, encode h i = [w] ∧ w < 2 ^ 32 ∧ w / 2 ^ 24 = h ∧ decodeMc w = some i

theorem McShape.readsBack {F : Type} {put : Nat → F → Nat} {get : Nat → F} {mask p h : Nat} {mk : F → Instr} {f : F} (hshape : McShape put get mask)
    (henc : encode h (mk f) = [put p f + h % 2 ^ 8 * 2 ^ 24]) (hp : McPattern p) (hh : h < 256) (hwf : WellFormed (mk f))
    (hrow : ∀ w, bits w 23 20 = p / 2 ^ 20 → decodeMc w = rowOf w mask p (mk (get w))) : McReadsBack (mk f) h := by
  obtain ⟨hword, hget⟩ := hshape p h _ f hp rfl
  refine ⟨_, henc, hword.lt, ?_, ?_⟩
  · have hlt := hword.lt
    have hdelay := hword.delay
    rw [bits_eq] at hdelay
    omega
  · rw [hrow _ hword.code, hget, rowOf_some hword.fixed hwf]

theorem mc_readsBack {i : Instr} {h : Nat} (hi : isMcWord i = true) (hwf : WellFormed i) (hh : h < 256) : McReadsBack i h := by
  cases i
  case mcAct f => exact mcShape_Act.readsBack rfl (by decide) hh hwf fun w hcode => by simp only [decodeMc, hcode]; rfl
  case mcRd f | mcWr f => exact mcShape_Col.readsBack rfl (by decide) hh hwf fun w hcode => by simp only [decodeMc, hcode]; rfl
  case mcPre f | mcRefpb f => exact mcShape_Bank.readsBack rfl (by decide) hh hwf fun w hcode => by simp only [decodeMc, hcode]; rfl
  case mcPrea | mcRefab | mcEnd =>
    exact mcShape_plain.readsBack (f := ()) (mk := fun _ => _) rfl (by decide) hh hwf fun w hcode => by simp only [decodeMc, hcode]; rfl
  case mcTag f => exact mcShape_Tag.readsBack rfl (by decide) hh hwf fun w hcode => by simp only [decodeMc, hcode]; rfl
  case mcBind f => exact mcShape_Bind.readsBack rfl (by decide) hh hwf fun w hcode => by simp only [decodeMc, hcode]; rfl
  case mcSvw f => exact mcShape_Svw.readsBack rfl (by decide) hh hwf fun w hcode => by simp only [decodeMc, hcode]; rfl
  case mcLoop f => exact mcShape_Loop.readsBack rfl (by decide) hh hwf fun w hcode => by simp only [decodeMc, hcode]; rfl
  case mcDly f => exact mcShape_Dly.readsBack rfl (by decide) hh hwf fun w hcode => by simp only [decodeMc, hcode]; rfl
  all_goals cases hi

/-! ### Collective words (R347) -/

/-- A collective word with the pattern `p`, whose code is in bits [31:27], under the mask of its row. -/
structure CxWord (w p mask : Nat) : Prop where
  code : bits w 31 27 = p / 2 ^ 27
  fixed : w &&& mask = p
  lt : w < 2 ^ 32

/-- A pattern with a code alone. -/
abbrev CxPattern (p : Nat) : Prop := p / 2 ^ 27 < 2 ^ 5 ∧ p % 2 ^ 27 = 0

/-- The collective words of a shape of operands: what is put is read back, under the mask of the rows. -/
def CxShape {F : Type} (put : Nat → F → Nat) (get : Nat → F) (mask : Nat) : Prop :=
  ∀ (p w : Nat) (f : F), CxPattern p → w = put p f → CxWord w p mask ∧ get w = f

section
variable {p : Nat}

theorem putCxData_holds (f : FCxData) (hp : CxPattern p) : Holds (putCxData p f)
    [(11, 0), (5, f.wfmt.toNat), (5, f.ck.toNat), (6, f.slot.toNat), (5, p / 2 ^ 27)] :=
  ⟨by simp only [putCxData, pack]; omega, by decide, f.wfmt.isLt, f.ck.isLt, f.slot.isLt, hp.1, trivial⟩

theorem putCxCopy_holds (f : FCxCopy) (hp : CxPattern p) : Holds (putCxCopy p f)
    [(5, 0), (6, f.src.toNat), (5, 0), (5, f.ck.toNat), (6, f.slot.toNat), (5, p / 2 ^ 27)] :=
  ⟨by simp only [putCxCopy, pack]; omega, by decide, f.src.isLt, by decide, f.ck.isLt, f.slot.isLt, hp.1, trivial⟩

theorem putCxLoop_holds (f : FCxLoop) (hp : CxPattern p) : Holds (putCxLoop p f)
    [(8, f.body.toNat), (8, f.count.toNat), (11, 0), (5, p / 2 ^ 27)] :=
  ⟨by simp only [putCxLoop, pack]; omega, f.body.isLt, f.count.isLt, by decide, hp.1, trivial⟩

theorem putCxPeer_holds (f : FCxPeer) (hp : CxPattern p) : Holds (putCxPeer p f) [(16, 0), (5, f.k.toNat), (6, 0), (5, p / 2 ^ 27)] :=
  ⟨by simp only [putCxPeer, pack]; omega, by decide, f.k.isLt, by decide, hp.1, trivial⟩

theorem putCxMcast_holds (f : FCxMcast) (hp : CxPattern p) : Holds (putCxMcast p f)
    [(5, 0), (6, f.dst.toNat), (5, f.wfmt.toNat), (5, f.ck.toNat), (6, f.slot.toNat), (5, p / 2 ^ 27)] :=
  ⟨by simp only [putCxMcast, pack]; omega, by decide, f.dst.isLt, f.wfmt.isLt, f.ck.isLt, f.slot.isLt, hp.1, trivial⟩

theorem putCxSlot_holds (f : FCxSlot) (hp : CxPattern p) : Holds (putCxSlot p f) [(21, 0), (6, f.slot.toNat), (5, p / 2 ^ 27)] :=
  ⟨by simp only [putCxSlot, pack]; omega, by decide, f.slot.isLt, hp.1, trivial⟩

end

theorem cxShape_Data : CxShape putCxData getCxData 0xF80007FF := by
  intro p w f hp hw
  have hw := hw ▸ putCxData_holds f hp
  have hcode : bits w 31 27 = p / 2 ^ 27 := hw.bits 4 rfl rfl
  have hzero : bits w 10 0 = 0 := hw.bits 0 rfl rfl
  refine ⟨⟨hcode, ?_, hw.lt rfl⟩, ?_⟩
  · rw [and_mask w [(31, 27), (10, 0)] (by decide) (by decide)]
    simp only [fieldsAt, List.foldr, hcode, hzero]
    omega
  · unfold getCxData
    congr 1
    exacts [hw.ofNat_bits 3 rfl rfl, hw.ofNat_bits 2 rfl rfl, hw.ofNat_bits 1 rfl rfl]

theorem cxShape_Copy : CxShape putCxCopy getCxCopy 0xF800F81F := by
  intro p w f hp hw
  have hw := hw ▸ putCxCopy_holds f hp
  have hcode : bits w 31 27 = p / 2 ^ 27 := hw.bits 5 rfl rfl
  have hmid : bits w 15 11 = 0 := hw.bits 2 rfl rfl
  have hlow : bits w 4 0 = 0 := hw.bits 0 rfl rfl
  refine ⟨⟨hcode, ?_, hw.lt rfl⟩, ?_⟩
  · rw [and_mask w [(31, 27), (15, 11), (4, 0)] (by decide) (by decide)]
    simp only [fieldsAt, List.foldr, hcode, hmid, hlow]
    omega
  · unfold getCxCopy
    congr 1
    exacts [hw.ofNat_bits 4 rfl rfl, hw.ofNat_bits 3 rfl rfl, hw.ofNat_bits 1 rfl rfl]

theorem cxShape_Loop : CxShape putCxLoop getCxLoop 0xFFFF0000 := by
  intro p w f hp hw
  have hw := hw ▸ putCxLoop_holds f hp
  have hcode : bits w 31 27 = p / 2 ^ 27 := hw.bits 3 rfl rfl
  have hzero : bits w 26 16 = 0 := hw.bits 2 rfl rfl
  refine ⟨⟨hcode, ?_, hw.lt rfl⟩, ?_⟩
  · rw [and_mask w [(31, 27), (26, 16)] (by decide) (by decide)]
    simp only [fieldsAt, List.foldr, hcode, hzero]
    omega
  · unfold getCxLoop
    congr 1
    exacts [hw.ofNat_bits 1 rfl rfl, hw.ofNat_bits 0 rfl rfl]

theorem cxShape_Peer : CxShape putCxPeer getCxPeer 0xFFE0FFFF := by
  intro p w f hp hw
  have hw := hw ▸ putCxPeer_holds f hp
  have hcode : bits w 31 27 = p / 2 ^ 27 := hw.bits 3 rfl rfl
  have hhigh : bits w 26 21 = 0 := hw.bits 2 rfl rfl
  have hlow : bits w 15 0 = 0 := hw.bits 0 rfl rfl
  refine ⟨⟨hcode, ?_, hw.lt rfl⟩, congrArg FCxPeer.mk (hw.ofNat_bits 1 rfl rfl)⟩
  rw [and_mask w [(31, 27), (26, 21), (15, 0)] (by decide) (by decide)]
  simp only [fieldsAt, List.foldr, hcode, hhigh, hlow]
  omega

theorem cxShape_Mcast : CxShape putCxMcast getCxMcast 0xF800001F := by
  intro p w f hp hw
  have hw := hw ▸ putCxMcast_holds f hp
  have hcode : bits w 31 27 = p / 2 ^ 27 := hw.bits 5 rfl rfl
  have hzero : bits w 4 0 = 0 := hw.bits 0 rfl rfl
  refine ⟨⟨hcode, ?_, hw.lt rfl⟩, ?_⟩
  · rw [and_mask w [(31, 27), (4, 0)] (by decide) (by decide)]
    simp only [fieldsAt, List.foldr, hcode, hzero]
    omega
  · unfold getCxMcast
    congr 1
    exacts [hw.ofNat_bits 4 rfl rfl, hw.ofNat_bits 3 rfl rfl, hw.ofNat_bits 2 rfl rfl, hw.ofNat_bits 1 rfl rfl]

theorem cxShape_Slot : CxShape putCxSlot getCxSlot 0xF81FFFFF := by
  intro p w f hp hw
  have hw := hw ▸ putCxSlot_holds f hp
  have hcode : bits w 31 27 = p / 2 ^ 27 := hw.bits 2 rfl rfl
  have hzero : bits w 20 0 = 0 := hw.bits 0 rfl rfl
  refine ⟨⟨hcode, ?_, hw.lt rfl⟩, congrArg FCxSlot.mk (hw.ofNat_bits 1 rfl rfl)⟩
  rw [and_mask w [(31, 27), (20, 0)] (by decide) (by decide)]
  simp only [fieldsAt, List.foldr, hcode, hzero]
  omega

/-- The collective word of the instruction reads back as it. -/
def CxReadsBack (i : Instr) (h : Nat) : Prop := ∃ w, encode h i = [w] ∧ w < 2 ^ 32 ∧ decodeCx w = some i

theorem CxShape.readsBack {F : Type} {put : Nat → F → Nat} {get : Nat → F} {mask p h : Nat} {mk : F → Instr} {f : F} (hshape : CxShape put get mask)
    (henc : encode h (mk f) = [put p f]) (hp : CxPattern p) (hwf : WellFormed (mk f))
    (hrow : ∀ w, bits w 31 27 = p / 2 ^ 27 → decodeCx w = rowOf w mask p (mk (get w))) : CxReadsBack (mk f) h := by
  obtain ⟨hword, hget⟩ := hshape p _ f hp rfl
  exact ⟨_, henc, hword.lt, by rw [hrow _ hword.code, hget, rowOf_some hword.fixed hwf]⟩

/-! The two waits share a code and are told apart by bit 10. -/

/-- The fields of a wait, the bit that says whether it waits for a flag among them. -/
theorem cxWait_holds {flag : Bool} {ck : BitVec 5} {slot : BitVec 6} {w : Nat} (hw : w = 0x30000000 + bit flag * 2 ^ 10 + ck.toNat * 2 ^ 16 + slot.toNat) :
    Holds w [(6, slot.toNat), (4, 0), (1, bit flag), (5, 0), (5, ck.toNat), (6, 0), (5, 6)] :=
  ⟨by simp only [hw, pack]; omega, slot.isLt, by decide, bit_lt _, by decide, ck.isLt, by decide, by decide, trivial⟩

theorem cxWait_fixed {flag : Bool} {ck : BitVec 5} {slot : BitVec 6} {w : Nat}
    (hw : Holds w [(6, slot.toNat), (4, 0), (1, bit flag), (5, 0), (5, ck.toNat), (6, 0), (5, 6)]) :
    w &&& 0xFFE0FFC0 = 0x30000000 + bit flag * 2 ^ 10 := by
  have hcode : bits w 31 27 = 6 := hw.bits 6 rfl rfl
  have hhigh : bits w 26 21 = 0 := hw.bits 5 rfl rfl
  have hmid : bits w 15 11 = 0 := hw.bits 3 rfl rfl
  have hflag : bits w 10 10 = bit flag := hw.bits 2 rfl rfl
  have hlow : bits w 9 6 = 0 := hw.bits 1 rfl rfl
  rw [and_mask w [(31, 27), (26, 21), (15, 11), (10, 10), (9, 6)] (by decide) (by decide)]
  simp only [fieldsAt, List.foldr, hcode, hhigh, hmid, hflag, hlow]
  omega

theorem cxWait_readsBack {F : Type} {get : Nat → F} {mk : F → Instr} {f : F} {flag : Bool} {ck : BitVec 5} {slot : BitVec 6} {w h : Nat}
    (hput : w = 0x30000000 + bit flag * 2 ^ 10 + ck.toNat * 2 ^ 16 + slot.toNat) (henc : encode h (mk f) = [w]) (hwf : WellFormed (mk f))
    (hget : BitVec.ofNat 5 (bits w 20 16) = ck → BitVec.ofNat 6 (bits w 5 0) = slot → get w = f)
    (hrow : bits w 31 27 = 6 → bitB w 10 = flag → decodeCx w = rowOf w 0xFFE0FFC0 (0x30000000 + bit flag * 2 ^ 10) (mk (get w))) :
    CxReadsBack (mk f) h := by
  have hw := cxWait_holds hput
  refine ⟨w, henc, hw.lt rfl, ?_⟩
  rw [hrow (hw.bits 6 rfl rfl) (hw.bitB 2 rfl rfl), hget (hw.ofNat_bits 4 rfl rfl) (hw.ofNat_bits 0 rfl rfl)]
  exact rowOf_some (cxWait_fixed hw) hwf

theorem cxWaitDelivery_readsBack (f : FCxWaitD) (h : Nat) : CxReadsBack (.cxWaitDelivery f) h :=
  cxWait_readsBack (flag := false) (w := putCxWaitD 0x30000000 f) (get := getCxWaitD) rfl rfl rfl
    (fun hck hslot => congrArg₂ FCxWaitD.mk hck hslot) fun hcode hflag => by simp only [decodeCx, hcode, hflag]; rfl

theorem cxWaitFlag_readsBack (f : FCxWaitF) (h : Nat) : CxReadsBack (.cxWaitFlag f) h :=
  cxWait_readsBack (flag := true) (w := putCxWaitF 0x30000400 f) (get := getCxWaitF) rfl rfl rfl
    (fun hck hslot => congrArg₂ FCxWaitF.mk hck hslot) fun hcode hflag => by simp only [decodeCx, hcode, hflag]; rfl

theorem cx_readsBack {i : Instr} (h : Nat) (hi : isCxWord i = true) (hwf : WellFormed i) : CxReadsBack i h := by
  cases i
  case cxNop => exact ⟨0, rfl, by decide, by decide⟩
  case cxSend f | cxRecv f | cxRrs f | cxRed f => exact cxShape_Data.readsBack rfl (by decide) hwf fun w hcode => by simp only [decodeCx, hcode]; rfl
  case cxCopy f => exact cxShape_Copy.readsBack rfl (by decide) hwf fun w hcode => by simp only [decodeCx, hcode]; rfl
  case cxWaitDelivery f => exact cxWaitDelivery_readsBack f h
  case cxWaitFlag f => exact cxWaitFlag_readsBack f h
  case cxLoop f => exact cxShape_Loop.readsBack rfl (by decide) hwf fun w hcode => by simp only [decodeCx, hcode]; rfl
  case cxPeer f => exact cxShape_Peer.readsBack rfl (by decide) hwf fun w hcode => by simp only [decodeCx, hcode]; rfl
  case cxMcast f => exact cxShape_Mcast.readsBack rfl (by decide) hwf fun w hcode => by simp only [decodeCx, hcode]; rfl
  case cxDone f => exact cxShape_Slot.readsBack rfl (by decide) hwf fun w hcode => by simp only [decodeCx, hcode]; rfl
  all_goals cases hi

/-- Settles O56: each word is the sum of its fields, so that the decoder finds its row by the code and reads every field back. -/
theorem encodingRoundTrip : Obligations.EncodingRoundTrip := by
  unfold Obligations.EncodingRoundTrip
  exact ⟨fun i h rest hi hh => scalar_readsBack hi h rest hh, fun i h hi hwf hh => mc_readsBack hi hwf hh, fun i h hi hwf => cx_readsBack h hi hwf⟩

end Sys2Proof.Machine
end

section
/-! PROOFS. Table reads and writes, and the ready flags that an instruction arms and reads (R129, R297, R298, R397). -/

namespace Sys2Proof.Machine
open Sys2Proof.Claims

/-! ## One-word instructions whose sources can be read -/

@[simp] theorem srcValue_signed (s : State) (k q : Nat) : srcValue (signed s k) q = srcValue s q := by simp [srcValue]

/-- A one-word instruction completes where its body, in a state whose sources can be read, does what is said. -/
theorem completes_of_issue1 {i : Instr} {s : State} {x : Doing} {body : State → Res State} (he : exec i s = issue1 s true body)
    (hform : x.words = 1 ∧ x.ends = false ∧ x.signs = true ∧ x.flow = fun _ _ => .seq 1)
    (hb : ∀ t, SrcsReady t x.srcs → x.ok t (srcValues t x.srcs) → body t = .ok (x.eff t (popSrcs t x.srcs) (srcValues t x.srcs))) :
    Completes i s x := by
  obtain ⟨hwords, hends, hsigns, hflow⟩ := hform
  have hat : atIssue s x = signed s 1 := by unfold atIssue; rw [hsigns, hwords]; rfl
  intro hmay hg hl hsrcs hok
  refine completes_of i s x _ _ he hwords.symm hsigns.symm hends.symm (fun _ _ => rfl) (fun _ => .inl rfl) (fun _ _ => rfl) (fun _ _ _ => ?_)
    hmay hg hl hsrcs hok
  have hvalues : srcValues (signed s 1) x.srcs = srcValues s x.srcs := srcValues_signed ..
  rw [hat, ← hvalues] at hok
  rw [hflow, hat, ← hvalues]
  exact congrArg (fun r => r >>= fun t => Except.ok (t, Flow.seq 1)) (hb _ ((srcsReady_signed ..).2 hsrcs) hok)

/-- An ILLEGAL of the checks stands where the body meets none of a lower class (R88). -/
theorem lowerClass_illegal {α : Type} {a : Nat} {r : Res α} (hr : StopsAre (ClassFrom (a % 256)) r) :
    lowerClass (.error (.trap 0x01 a)) r = .error (.trap 0x01 a) := by
  match r, hr with
  | .ok _, _ => rfl
  | .error (.fault _), _ => rfl
  | .error (.hold _ _), _ => rfl
  | .error (.trap cause b), hr =>
    by_cases hcause : cause = 0x01
    · subst hcause
      simp only [lowerClass, if_neg (Nat.not_lt.2 (hr.of_error _ rfl b rfl))]
    · simp [lowerClass, hcause]

/-! ## Indexes of a table (R129) -/

/-- The index names a word of the table. -/
abbrev Table.Has (t : Table) (x : Word) : Prop := inTable t.wordBits t.words (2 ^ t.idxBits) x

/-- EINFO of an index that names none. -/
def badIndex (fn : Nat) (x : Word) : Nat := 0x0B + fn * 2 ^ 8 + (x.toNat % 2 ^ 32) * 2 ^ 32

theorem badIndex_class (fn : Nat) (x : Word) : badIndex fn x % 256 = 0x0B := by
  unfold badIndex
  omega

section
variable {t : Table} {x : Word}

theorem tableIndex_has (h : t.Has x) : tableIndex t x = .ok x.toNat := by
  obtain ⟨hidx, hword⟩ := h
  simp [tableIndex, Nat.not_le.2 hidx, Nat.not_le.2 hword]

theorem tableIndex_not_has (h : ¬ t.Has x) : tableIndex t x = .error (.trap 0x01 (badIndex t.fn x)) := by
  refine if_pos ?_
  simp only [inTable, not_and_or, not_lt] at h
  simpa using h

theorem tableIndex_classFrom : StopsAre (ClassFrom 0x0B) (tableIndex t x) := by
  unfold tableIndex
  split
  · exact .error (classFrom_illegal (badIndex_class t.fn x).ge)
  · exact .ok _

theorem indexFirst_ready {s : State} {a : Src} (h : SrcReady s a.1) : indexFirst s t a = (tableIndex t (srcValue s a.1)).bind fun _ => .ok () := by
  unfold indexFirst
  rw [srcVals_ready s [a] (List.forall_mem_singleton.2 h)]
  rfl

end

/-- The rule of a handler's source fields, of one that can be read (R51). -/
theorem handler_low_of_ready {s : State} {q : Nat} (h : SrcReady s q) : HandlerMode s → q < 16 := by
  rintro ⟨hsys, hhandler⟩
  obtain hready | ⟨_, hlow⟩ | ⟨⟨_, hqueue⟩, _⟩ := h
  · exact absurd (hready.symm.trans hsys) (by decide)
  · exact hlow
  · exact absurd (hhandler.symm.trans hqueue) (by decide)

/-! ## Table writes and reads (R129) -/

/-- What a write does to a table: the word is put, and has its parity again (log 48). -/
def tableWriteDoing (f : FAB) (t : Table) (put : Ctx → Nat → Word → Ctx) : Doing where
  srcs := [(f.a.toNat, f.ka), (f.b.toNat, f.kb)]
  ok := fun _ vs => t.Has (arg1 vs)
  eff := fun _ u vs => u.setCur (tabFresh (put u.cur (arg1 vs).toNat (arg2 vs)) (t.place (arg1 vs).toNat))

/-- What a read of a table does: a word that has its parity is pushed. -/
def tableReadDoing (f : FDA) (t : Table) (get : Ctx → Nat → Word) : Doing where
  srcs := [(f.a.toNat, f.ka)]
  ok := fun s vs => DstReady s f.d.toNat ∧ t.Has (arg1 vs) ∧ Intact s.cur [t.place (arg1 vs).toNat]
  eff := fun s u vs => result u 1 f.d.toNat (get s.cur (arg1 vs).toNat)

/-- What puts a word into the tables of a core, and what takes one from them. -/
def layoutPut (c : Ctx) (n : Nat) (v : Word) : Ctx := { c with layout := c.layout.set n v }
def footPut (c : Ctx) (n : Nat) (v : Word) : Ctx := { c with foot := c.foot.set n v }
def slotPut (c : Ctx) (n : Nat) (v : Word) : Ctx := { c with slots := c.slots.set n v }
def layoutGet (c : Ctx) (n : Nat) : Word := c.layout.getD n 0
def footGet (c : Ctx) (n : Nat) : Word := c.foot.getD n 0
def slotGet (c : Ctx) (n : Nat) : Word := c.slots.getD n 0

section
variable {t : Table} {s : State} {i : Instr}

theorem tableWrite_completes {f : FAB} {put : Ctx → Nat → Word → Ctx} (he : exec i s = tableWrite f t put s) :
    Completes i s (tableWriteDoing f t put) := by
  refine completes_of_issue1 he ⟨rfl, rfl, rfl, rfl⟩ fun u hsrcs hin => ?_
  have hindex := tableIndex_has hin
  have hfirst : indexFirst u t (f.a.toNat, f.ka) = .ok () := (indexFirst_ready (hsrcs _ List.mem_cons_self)).trans (bind_of_ok hindex _)
  have hvals : srcVals u [(f.a.toNat, f.ka), (f.b.toNat, f.kb)] = .ok [srcValue u f.a.toNat, srcValue u f.b.toNat] := srcVals_ready u _ hsrcs
  dsimp only
  rw [hfirst, lowerClass_ok, hvals]
  exact bind_of_ok hindex _

theorem tableRead_completes {f : FDA} {get : Ctx → Nat → Word} (he : exec i s = tableRead f t get s) :
    Completes i s (tableReadDoing f t get) := by
  refine completes_of_issue1 he ⟨rfl, rfl, rfl, rfl⟩ fun u hsrcs hok => ?_
  obtain ⟨hdst, hin, hpar⟩ := hok
  have hvals : srcVals u [(f.a.toNat, f.ka)] = .ok [srcValue u f.a.toNat] := srcVals_ready u _ hsrcs
  dsimp only
  rw [dstOk_ready u _ hdst, hvals]
  exact (bind_of_ok (tableIndex_has hin) _).trans (bind_of_ok ((parityOk_ok ..).2 hpar) _)

section
variable (hs : s.onSys = false) (hg : Unguarded s)
include hs hg

/-- The index is judged though the value cannot be read (R89, log 16). -/
theorem tableWrite_badIndex {f : FAB} (put : Ctx → Nat → Word → Ctx) (ha : SrcReady s f.a.toNat) (hb : s.cur.handler = true → f.b.toNat < 16)
    (hbad : ¬ t.Has (srcValue s f.a.toNat)) : tableWrite f t put s = .next (takeTrap s 0x01 (badIndex t.fn (srcValue s f.a.toNat))) := by
  have hfirst : indexFirst (signed s 1) t (f.a.toNat, f.ka) = .error (.trap 0x01 (badIndex t.fn (srcValue s f.a.toNat))) := by
    rw [indexFirst_ready ((srcReady_signed ..).2 ha), srcValue_signed]
    exact bind_of_error (tableIndex_not_has hbad) _
  refine (issue1_stop true _ hs hg (.inl rfl) ?_).trans (congrArg Host.Outcome.next (takeStop_illegal ..))
  dsimp only
  rw [hfirst, srcVals_signed]
  refine lowerClass_illegal ?_
  rw [badIndex_class]
  refine .bind ((srcVals_notIllegal fun hm => ?_).classFrom _) fun vs => ?_
  · exact List.forall_mem_cons.2 ⟨handler_low_of_ready ha hm, List.forall_mem_singleton.2 (hb hm.2)⟩
  · split
    · exact .bind tableIndex_classFrom fun _ => .pure _
    · exact .pure _

theorem tableRead_badIndex {f : FDA} (get : Ctx → Nat → Word) (ha : SrcReady s f.a.toNat) (hd : DstReady s f.d.toNat)
    (hbad : ¬ t.Has (srcValue s f.a.toNat)) : tableRead f t get s = .next (takeTrap s 0x01 (badIndex t.fn (srcValue s f.a.toNat))) := by
  refine (issue1_stop true _ hs hg (.inl rfl) ?_).trans (congrArg Host.Outcome.next (takeStop_illegal ..))
  dsimp only
  rw [dstOk_signed, dstOk_ready s _ hd, srcVals_signed_one 1 ha]
  exact bind_of_error (tableIndex_not_has hbad) _

end
end

theorem tableActs_complete (i : Instr) (s : State) (x : Doing) (hx : tableActs i = some x) : Completes i s x := by
  cases i
  case ltwr f => cases hx; exact tableWrite_completes (f := f) (t := layoutTable 0) (put := layoutPut) rfl
  case fpwr f => cases hx; exact tableWrite_completes (f := f) (t := footTable 2) (put := footPut) rfl
  case tswr f => cases hx; exact tableWrite_completes (f := f) (t := slotTable 4) (put := slotPut) rfl
  case ltrd f => cases hx; exact tableRead_completes (f := f) (t := layoutTable 1) (get := layoutGet) rfl
  case fprd f => cases hx; exact tableRead_completes (f := f) (t := footTable 3) (get := footGet) rfl
  case tsrd f => cases hx; exact tableRead_completes (f := f) (t := slotTable 5) (get := slotGet) rfl
  all_goals cases hx

/-! ## Ready flags (R297, R298) -/

/-- A source that can be read is judged by its value. -/
theorem peekCheck_ready {s : State} {f : Src} (h : SrcReady s f.1) (chk : Word → Res Unit) : peekCheck s f chk = chk (srcValue s f.1) := by
  unfold peekCheck
  rw [srcVals_ready s [f] (List.forall_mem_singleton.2 h)]
  rfl

theorem operandFirst_ok {s : State} {f : Src} (h : SrcReady s f.1) {ok : Nat → Bool} (hok : ok (srcValue s f.1).toNat = true) (cls reason : Nat) :
    operandFirst s f ok cls reason = .ok () := (peekCheck_ready h _).trans (if_pos hok)

theorem flagWord_eq (r : RFlag) : flagWord r = flagImage r := by
  have hbit : ∀ (b : Bool) (n : Nat), b2n b * n = if b then n else 0 := fun b n => by cases b <;> simp [b2n]
  simp only [flagWord, flagImage, hbit]

/-- A core whose flag `n` is armed with a target, ready where that is 0 (R297). -/
def armFlag (c : Ctx) (n : Nat) (target : Word) : Ctx :=
  { c with flags := c.flags.set n ⟨0, target.toNat, true, decide (target = 0), false⟩ }

theorem armFlag_eq (c : Ctx) (n : Nat) (target : Word) :
    { c with flags := c.flags.set n ⟨0, target.toNat, true, target.toNat == 0, false⟩ } = armFlag c n target := by
  have hready : (target.toNat == 0) = decide (target = 0) := by
    rw [Bool.eq_iff_iff, beq_iff_eq, decide_eq_true_iff]
    exact BitVec.toNat_eq (y := 0).symm
  rw [hready]
  rfl

def flagsetDoing (f : FAB) : Doing where
  srcs := [(f.a.toNat, f.ka), (f.b.toNat, f.kb)]
  ok := fun _ vs => (arg1 vs).toNat < 2048 ∧ (arg2 vs).toNat < 2 ^ 24
  eff := fun _ u vs => u.setCur (armFlag u.cur (arg1 vs).toNat (arg2 vs))

def flagrdDoing (f : FDA) : Doing where
  srcs := [(f.a.toNat, f.ka)]
  ok := fun t vs => DstReady t f.d.toNat ∧ (t.cur.handler = false → (arg1 vs).toNat < 2048)
    ∧ ((flagOf t.cur ((arg1 vs).toNat % 2048)).ovr = true → t.cur.handler = true)
  eff := fun t u vs => result u 1 f.d.toNat (flagImage (flagOf t.cur ((arg1 vs).toNat % 2048)))

theorem flagset_completes (f : FAB) (s : State) : Completes (.flagset f) s (flagsetDoing f) := by
  refine completes_of_issue1 (show execFlagset f s = _ from rfl) ⟨rfl, rfl, rfl, rfl⟩ fun u hsrcs hok => ?_
  obtain ⟨hflag, htarget⟩ := hok
  have ha : operandFirst u (f.a.toNat, f.ka) flagOk 0x11 0x03 = .ok () :=
    operandFirst_ok (hsrcs _ List.mem_cons_self) (decide_eq_true hflag) ..
  have hb : operandFirst u (f.b.toNat, f.kb) (fun x => decide (x < 2 ^ 24)) 0x11 0x03 = .ok () :=
    operandFirst_ok (hsrcs _ (List.mem_cons_of_mem _ List.mem_cons_self)) (decide_eq_true htarget) ..
  have hvals : srcVals u [(f.a.toNat, f.ka), (f.b.toNat, f.kb)] = .ok [srcValue u f.a.toNat, srcValue u f.b.toNat] := srcVals_ready u _ hsrcs
  refine (congrArg (lowerClass · _) ((bind_of_ok ha _).trans hb)).trans ((lowerClass_ok ..).trans ((bind_of_ok hvals _).trans ?_))
  exact congrArg (fun c => Except.ok ((popSrcs u _).setCur c)) (armFlag_eq ..)

theorem flagrd_completes (f : FDA) (s : State) : Completes (.flagrd f) s (flagrdDoing f) := by
  refine completes_of_issue1 (show execFlagrd f s = _ from rfl) ⟨rfl, rfl, rfl, rfl⟩ fun u hsrcs hok => ?_
  obtain ⟨hdst, hsmall, hovr⟩ := hok
  have hvals : srcVals u [(f.a.toNat, f.ka)] = .ok [srcValue u f.a.toNat] := srcVals_ready u _ hsrcs
  have hnamed : (!flagOk (srcValue u f.a.toNat).toNat && !u.cur.handler) = false := by
    cases hh : u.cur.handler
    · have hsmall : (srcValue u f.a.toNat).toNat < 2048 := hsmall hh
      simpa [flagOk] using hsmall
    · simp
  have hclear : ((flagOf u.cur ((srcValue u f.a.toNat).toNat % 2048)).ovr && !u.cur.handler) = false := by
    cases ho : (flagOf u.cur ((srcValue u f.a.toNat).toNat % 2048)).ovr
    · rfl
    · rw [hovr ho]
      rfl
  refine (bind_of_ok (dstOk_ready u _ hdst) _).trans ((bind_of_ok hvals _).trans ?_)
  refine (if_neg (ne_true_of_eq_false hnamed)).trans ((if_neg (ne_true_of_eq_false hclear)).trans ?_)
  exact congrArg (fun w => Except.ok (result (popSrcs u [(f.a.toNat, f.ka)]) 1 f.d.toNat w)) (flagWord_eq _)

theorem flagActs_complete (i : Instr) (s : State) (x : Doing) (hx : flagActs i = some x) : Completes i s x := by
  cases i
  case flagset f => cases hx; exact flagset_completes f s
  case flagrd f => cases hx; exact flagrd_completes f s
  all_goals cases hx

/-! ## The obligation -/

theorem exec_badIndex {i : Instr} {s : State} {a : Src} {fn wb words n : Nat} (hi : tableIndexOf i = some (a, fn, wb, words, n)) (hs : s.onSys = false)
    (hg : Unguarded s) (ha : SrcReady s a.1) (hd : ∀ d, tableDest i = some d → DstReady s d)
    (hb : ∀ b, tableValue i = some b → s.cur.handler = true → b < 16) (hbad : ¬ inTable wb words n (srcValue s a.1)) :
    exec i s = .next (takeTrap s 0x01 (badIndex fn (srcValue s a.1))) := by
  cases i
  case ltwr f => cases hi; exact tableWrite_badIndex (t := layoutTable 0) hs hg layoutPut ha (hb _ rfl) hbad
  case fpwr f => cases hi; exact tableWrite_badIndex (t := footTable 2) hs hg footPut ha (hb _ rfl) hbad
  case tswr f => cases hi; exact tableWrite_badIndex (t := slotTable 4) hs hg slotPut ha (hb _ rfl) hbad
  case ltrd f => cases hi; exact tableRead_badIndex (t := layoutTable 1) hs hg layoutGet ha (hd _ rfl) hbad
  case fprd f => cases hi; exact tableRead_badIndex (t := footTable 3) hs hg footGet ha (hd _ rfl) hbad
  case tsrd f => cases hi; exact tableRead_badIndex (t := slotTable 5) hs hg slotGet ha (hd _ rfl) hbad
  all_goals cases hi

/-- Settles O18: each access completes by the common form, and an index that names no word is the lowest ILLEGAL that the access meets. -/
theorem tablesAndFlags : Obligations.TablesAndFlags := by
  unfold Obligations.TablesAndFlags
  exact ⟨fun i s x hx => hx.elim (tableActs_complete i s x) (flagActs_complete i s x),
    fun s i a fn wb words n hi hs hg ha hd hb hbad => exec_badIndex hi hs hg ha hd hb hbad⟩

end Sys2Proof.Machine
end

section
/-! PROOFS. Words that are no instruction, and what a core that comes to one takes (R87–R89). -/

namespace Sys2Proof.Machine
open Sys2Proof.Claims

/-- Words with one fault are illegal by it. -/
theorem decode_fault {sys : Bool} {w r n : Nat} {e : List Nat} (h : allFaults sys w e = [(r, n)]) :
    decode sys (w :: e) = .illegal r n (if n = 0 then w else if n = 4 then e.getD 0 0 else e.getD (n - 1) 0) := by
  rw [decode, h]
  rfl

/-! ## Majors that no instruction has (R87) -/

/-- Majors none of whose words is an instruction. -/
def reservedMajors : List Nat := [0x2C, 0x2D, 0x2E, 0x2F, 0x33, 0x36, 0x37, 0x3C, 0x3D, 0x3E, 0x3F]

/-- The major of a word given by its fields. -/
theorem bits_major {m w : Nat} (hm : m < 64) (hw : w < 2 ^ 23) (h : Nat) : bits (h * 2 ^ 29 + m * 2 ^ 23 + w) 28 23 = m := by
  rw [bits_eq]
  omega

theorem firstWord_reserved {w : Nat} (hm : bits w 28 23 ∈ reservedMajors) (e : List Nat) : firstWord w e = .reserved 1 := by
  unfold firstWord
  generalize bits w 28 23 = m at hm
  simp only [reservedMajors, List.mem_cons, List.not_mem_nil, or_false] at hm
  rcases hm with rfl | rfl | rfl | rfl | rfl | rfl | rfl | rfl | rfl | rfl | rfl <;> rfl

theorem decode_reserved {w : Nat} (hm : bits w 28 23 ∈ reservedMajors) (e : List Nat) : decode false (w :: e) = .illegal 1 0 w := by
  have hgrd : bits w 28 23 ≠ 0x12 := fun h => absurd (h ▸ hm) (by decide)
  have hsystem : (bits w 28 23 == 0x3B) = false := beq_false_of_ne fun h => absurd (h ▸ hm) (by decide)
  have hfaults : allFaults false w e = [(1, 0)] := by
    simp [allFaults, ownFaults, hgrd, hsystem, firstWord_reserved hm]
  exact decode_fault hfaults

/-- A system word on a compute core (R88). -/
theorem decode_systemWord {w : Nat} (hm : bits w 28 23 = 0x3B) (e : List Nat) : decode false (w :: e) = .illegal 7 0 w := by
  have hfaults : allFaults false w e = [(7, 0)] := by simp [allFaults, ownFaults, hm]
  exact decode_fault hfaults

/-- A GRD before a word that has an idle count: the guarded word is at fault (R86, R88). -/
theorem decode_guardedIdle (rest : List Nat) : decode false (0x09182C00 :: 0x48105200 :: rest) = .illegal 6 4 0x48105200 := by
  have hgrd : bits 0x09182C00 28 23 = 0x12 := by decide
  have hguarded : guardedFaults false 0x48105200 = [(6, 4)] := by decide
  have hfaults : allFaults false 0x09182C00 (0x48105200 :: rest) = [(6, 4)] := by
    unfold allFaults
    rw [if_pos hgrd, List.getD_cons_zero, hguarded]
    decide
  exact decode_fault hfaults

/-! ## What a core takes at such a word (R88, R89) -/

section
variable {s : State} {reason word raw : Nat} (hdec : decode false (fetchWords s) = .illegal reason word raw) (hgood : s.cur.badWord = false)
include hdec hgood

/-- A word that is no instruction: the stop that ranks before its ILLEGAL, or that ILLEGAL. -/
theorem runWord_illegal : runWord s = .next (takeStop s ((segStop s).getD (.trap 0x01 (encodingInfo reason word raw)))) := by
  simp [runWord, hgood, hdec]

theorem runWord_encoding (hnone : segStop s = none) : runWord s = .next (takeTrap s 0x01 (encodingInfo reason word raw)) := by
  rw [runWord_illegal hdec hgood, hnone]
  exact congrArg Host.Outcome.next (takeStop_illegal ..)

theorem runWord_segStop {cause einfo : Nat} (hnan : cause ≠ 0x07) (hpoison : cause ≠ 0x15) (hsome : segStop s = some (.trap cause einfo)) :
    runWord s = .next (takeTrap s cause einfo) := by
  rw [runWord_illegal hdec hgood, hsome]
  exact congrArg Host.Outcome.next (takeStop_trap hnan hpoison ..)

end

section
variable {s : State} {a b : Nat} (hs : s.onSys = false) (hh : s.cur.handler = false)
include hs hh

/-- A SEG past its stamp is late, whatever is wrong with its fields (R28, R89). -/
theorem segStop_late {f : FSeg} (hrow : firstWord ((fetchWords s).headD 0) ((fetchWords s).drop 1) = .row a b (.seg f))
    (hopen : s.cur.seg.active = false) (htimed : f.opn = false) (hlate : s.cur.release + f.off.toNat < s.cur.now) :
    segStop s = some (.trap 0x08 ((s.cur.now - (s.cur.release + f.off.toNat)) % 2 ^ 32)) := by
  have hlegal : segLegal s = .ok () := by simp [segLegal, hs, hh, hopen]
  have htime : segOnTime f s = .error (.trap 0x08 ((s.cur.now - (s.cur.release + f.off.toNat)) % 2 ^ 32)) := by simp [segOnTime, htimed, hlate]
  unfold segStop
  rw [hrow]
  simp [hlegal, htime, stopOf]

/-- A SEGEND off its count, early or late, whatever is wrong with its fields (R29, R89). -/
theorem segStop_count (hrow : firstWord ((fetchWords s).headD 0) ((fetchWords s).drop 1) = .row a b .segend)
    (hopen : s.cur.seg.active = true) (htimed : s.cur.seg.opn = false) (hcount : s.cur.now ≠ s.cur.seg.start + s.cur.seg.cnt) :
    segStop s = some (.trap 0x06 ((s.cur.now - s.cur.seg.start) % 2 ^ 32)) := by
  have hlegal : segendLegal s = .ok () := by simp [segendLegal, hs, hh, hopen]
  have htime : segendOnTime s = .error (.trap 0x06 ((s.cur.now - s.cur.seg.start) % 2 ^ 32)) := by simp [segendOnTime, htimed, hcount]
  unfold segStop
  rw [hrow]
  simp [hlegal, htime, stopOf]

end

/-! ## The obligation -/

/-- Settles O54: reserved words by their major, the neighbouring encodings one by one, and the ranks of SEGLATE and SEGCNT by what `segStop` finds. -/
theorem illegalEncodings : Obligations.IllegalEncodings := by
  unfold Obligations.IllegalEncodings
  refine ⟨fun m hm h _ w hw rest => ?_, fun h _ w hw rest => ?_, fun _ => rfl, fun _ => rfl, fun _ => rfl, decode_guardedIdle, fun _ => rfl, ?_, ?_, ?_⟩
  · have hsmall : m < 64 := (by decide : ∀ m ∈ reservedMajors, m < 64) m hm
    exact decode_reserved ((bits_major hsmall hw h).symm ▸ hm) rest
  · exact decode_systemWord (bits_major (by decide) hw h) rest
  · exact fun s reason word raw hdec hgood hnone => runWord_encoding hdec hgood hnone
  · exact fun s reason word raw a b f hdec hgood hrow hs hopen hh htimed hlate =>
      runWord_segStop hdec hgood (by decide) (by decide) (segStop_late hs hh hrow hopen htimed hlate)
  · exact fun s reason word raw a b hdec hgood hrow hs hopen hh htimed hcount =>
      runWord_segStop hdec hgood (by decide) (by decide) (segStop_count hs hh hrow hopen htimed hcount)

end Sys2Proof.Machine
end

section
/-! PROOFS. The worked encodings of the spec. -/

namespace Sys2Proof.Machine

/-- Settles O55: each of the words is decoded. -/
theorem decodeSpecWords : Obligations.DecodeSpecWords := by
  unfold Obligations.DecodeSpecWords
  decide

end Sys2Proof.Machine
end

section
/-! PROOFS. What a step runs: the instruction that the words at the pc of its agent decode to (R87, R211, R344, R374, R403). -/

namespace Sys2Proof.Machine
open Sys2Proof.Claims

/-! ## Agents of a step -/

section
variable {s : State}

theorem step_event {i : Instr} {a : EvArg} {rest : List (Instr × EvArg)} (h : s.agenda = (i, a) :: rest) :
    step s = exec i { s with agenda := rest, ev := a } := by
  unfold step
  rw [h]

theorem step_agent {a : Agent} {rest : List Agent} (hnone : s.agenda = []) (h : s.todo = a :: rest) : step s = agentCycle { s with todo := rest } a := by
  unfold step
  rw [hnone, h]

/-- The word at the pc of a core, as its words decode. -/
theorem runWord_decoded {i : Instr} {k : Nat} (hgood : s.cur.badWord = false) (hdec : decode false (fetchWords s) = .ok i k) : runWord s = exec i s := by
  simp [runWord, hgood, hdec]

end

/-! ## Handler code, system cores, collective runs -/

section
variable {s : State} {i : Instr} {k : Nat}

theorem coreCycle_handler {n : Nat} (h : HandlerRuns s n) (hdec : decode false (fetchWords { s with curCore := n, onSys := false }) = .ok i k) :
    coreCycle s n = exec i { s with curCore := n, onSys := false } := by
  obtain ⟨hruns, hhandler, hfault, hgood⟩ := h
  have hclear : bitB { s with curCore := n, onSys := false }.cur.hfault.toNat 8 = false := (bitB_testBit ..).trans hfault
  unfold coreCycle
  dsimp only
  rw [if_neg (by simpa using hruns), if_pos hhandler, hclear]
  exact runWord_decoded hgood hdec

theorem sysCycle_runs {n : Nat} (h : SystemRuns s n) (hdec : decode true (fetchSysWords { s with curSys := n, onSys := true }) = .ok i k) :
    sysCycle s n = exec i { s with curSys := n, onSys := true } := by
  obtain ⟨hruns, hhalted, hquiet⟩ := h
  have hnow : (sysEventDue { s with curSys := n, onSys := true }.sys && !{ s with curSys := n, onSys := true }.sys.inEvent
      && sysBetween { s with curSys := n, onSys := true }.sys) = false := by
    obtain h | h | h := hquiet <;> simp [State.sys, h]
  unfold sysCycle
  dsimp only
  rw [if_neg (by simpa [State.sys] using hruns), hnow, if_neg Bool.false_ne_true, if_neg (by simpa [State.sys] using hhalted), hdec]

theorem cxeCycle_runs {d g : Nat} {r : Run} (hrun : runOf s d g = some r) (hlive : r.aborted = false) (hdec : decodeCx (r.words.getD r.pc 0) = some i) :
    cxeCycle s d g = exec i { s with curDie := d, curGroup := g, onSys := false } := by
  have hrun' : runOf { s with curDie := d, curGroup := g, onSys := false } d g = some r := hrun
  unfold cxeCycle
  dsimp only
  rw [hrun']
  dsimp only
  rw [hlive, if_neg Bool.false_ne_true, hdec]

end

/-! ## A core's word that is due -/

section
variable (s : State)

theorem enterSig_cur : (enterSig s).cur = { s.cur with sigNext := (enterSig s).cur.sigNext, seg := (enterSig s).cur.seg } := by
  unfold enterSig
  split
  · rfl
  · simp

theorem enterSig_curCore : (enterSig s).curCore = s.curCore := by
  unfold enterSig
  split <;> rfl

theorem enterSig_slotOf : (enterSig s).slotOf s.curCore = s.slotOf s.curCore := by
  unfold enterSig
  split
  · rfl
  · exact State.setCur_slotOf ..

theorem enterSig_fetchWord (n slot w : Nat) : (enterSig s).fetchWord n slot w = s.fetchWord n slot w := by
  unfold State.fetchWord
  rw [enterSig_mem]

theorem enterSig_fetchWords : fetchWords (enterSig s) = fetchWords s := by
  unfold fetchWords
  simp only [enterSig_fetchWord, enterSig_curCore, enterSig_slotOf]
  rw [enterSig_cur]

theorem enterSig_issueCycle : issueCycle (enterSig s) = issueCycle s := by
  unfold issueCycle idlAt
  simp only [enterSig_fetchWord, enterSig_curCore, enterSig_slotOf]
  rw [enterSig_cur]

end

section
variable {s : State}

/-- Nothing that came in a hold comes again where nothing is kept from one (R39). -/
theorem gapAgain_none (haus : ∀ r ∈ s.cur.aus, r.gap = false) (hwords : ∀ x ∈ (s.core s.curCore).inbound, x.gap = false) : gapAgain s = s := by
  refine if_pos ?_
  rw [Bool.and_eq_true, Bool.not_eq_true', Bool.not_eq_true', List.any_eq_false, List.any_eq_false]
  exact ⟨fun r hr => by simp [haus r hr], fun x hx => by simp [hwords x hx]⟩

/-- A word that is due is run (R27). -/
theorem issueNow_due (hslath : s.cur.slathed = true) (hpend : s.cur.slathPend = false) (hhalt : s.cur.halted = none) (hdue : issueCycle s ≤ s.cur.now) :
    issueNow s = runWord s := by
  have hready : wordReady s = true := by simp [wordReady, hhalt, hdue]
  simp [issueNow, beforeTb0, slathMissed, hready, hslath, hpend, hhalt]

end

/-- What a core's cycle comes to where nothing of the cycle stands before its word. -/
theorem coreCycle_due {s u : State} {n k : Nat} {i : Instr} (h : WordDue s n)
    (hdec : decode false (fetchWords { s with curCore := n, onSys := false }) = .ok i k)
    (hexec : exec i (enterSig { s with curCore := n, onSys := false }) = .next u) :
    coreCycle s n = .next (afterWord { s with curCore := n, onSys := false } (if u.cur.frozen = none then ⟨u, []⟩
      else ⟨enterSig { s with curCore := n, onSys := false }, [(wordRank u.cur, wordFinal { s with curCore := n, onSys := false } u)]⟩)) := by
  obtain ⟨hruns, hhandler, hfrozen, hslath, hpend, hhalt, hdue, hseg, hmoves, hstamped, hgood, haus, hwords⟩ := h
  unfold coreCycle
  dsimp only
  generalize ht : { s with curCore := n, onSys := false } = t at *
  have hcore : t.curCore = n := ht ▸ rfl
  subst hcore
  have hgap : gapAgain t = t := gapAgain_none haus hwords
  have hlate : segLate t.cur = false := by
    cases hactive : t.cur.seg.active
    · simp [segLate, hactive]
    · simp [segLate, hactive, hseg hactive]
  have hstop : stampedStop t = [] := by simp [stampedStop, hstamped]
  have hword : issueNow (enterSig t) = .next u := by
    have hcur := enterSig_cur t
    rw [issueNow_due (by rw [hcur]; exact hslath) (by rw [hcur]; exact hpend) (by rw [hcur]; exact hhalt)
      (by rw [enterSig_issueCycle, hcur]; exact hdue)]
    rw [runWord_decoded (by rw [hcur]; exact hgood) ((congrArg (decode false) (enterSig_fetchWords t)).trans hdec), hexec]
  rw [if_neg (by simpa using hruns), hhandler, if_neg Bool.false_ne_true, hfrozen]
  unfold coreRun
  simp only [hgap, hlate, hmoves, hstop, List.length_nil, runMoves, hword]
  cases hu : u.cur.frozen <;> simp

/-! ## An engine's word that is due -/

section
variable {s : State} (hfrozen : s.eng.frozen = none)
include hfrozen

/-- An event of an engine that leaves the state changes nothing but the argument. -/
theorem engEv_quiet {i : Instr} {a : EvArg} (h : exec i { s with ev := a } = .next { s with ev := a }) : engEv s i a = { s with ev := a } := by
  simp [engEv, hfrozen, evt, h]

theorem engEv_stop_quiet (hinbox : s.eng.inbox = []) (hgoing : s.eng.stopping = false) (a : EvArg) : engEv s .mcstopArrival a = { s with ev := a } := by
  refine engEv_quiet hfrozen ?_
  have hinbox' : { s with ev := a }.eng.inbox = [] := hinbox
  have hgoing' : { s with ev := a }.eng.stopping = false := hgoing
  have hmsg : msgAt { s with ev := a } 1 = none := by simp [msgAt, hinbox']
  show execMcstopArrival { s with ev := a } = _
  simp [execMcstopArrival, hmsg, stopNow, hgoing']

theorem engEv_window_quiet (hsvw : s.eng.svw = none) (a : EvArg) : engEv s .svwEnd a = { s with ev := a } := by
  refine engEv_quiet hfrozen ?_
  have hsvw' : { s with ev := a }.eng.svw = none := hsvw
  show execSvwEnd { s with ev := a } = _
  simp [execSvwEnd, hsvw']

theorem engEv_start_quiet (hrunning : s.eng.st = .running) (a : EvArg) : engEv s .tableStart a = { s with ev := a } := by
  refine engEv_quiet hfrozen ?_
  have hrunning' : { s with ev := a }.eng.st = .running := hrunning
  show execTableStart { s with ev := a } = _
  simp [execTableStart, hrunning']

theorem engEv_tick_quiet (htick : tickOf (engTb0? s s.curEng) s.eng.tREFI s.eng.now = none) (a : EvArg) : engEv s .refreshTick a = { s with ev := a } := by
  refine engEv_quiet hfrozen ?_
  have htick' : tickOf (engTb0? { s with ev := a } s.curEng) { s with ev := a }.eng.tREFI { s with ev := a }.eng.now = none := htick
  show execRefreshTick { s with ev := a } = _
  simp [execRefreshTick, htick']

end

/-- No window is open whose keeper could refresh (R227). -/
theorem windowKeeper_quiet {s : State} (hsvw : s.eng.svw = none) : windowKeeper s = s := by
  simp [windowKeeper, windowRefab, windowRefabAt, hsvw]

/-- No page is read of an engine to which nothing comes (R236). -/
theorem takePages_quiet {s : State} (hinbox : s.eng.inbox = []) : takePages s = s.setEng s.eng := by
  refine congrArg s.setEng ?_
  dsimp only
  rw [hinbox]
  exact congrArg (fun l => { s.eng with inbox := l }) hinbox.symm

/-- The word at the PC of an engine, where it is due (R211). -/
theorem engWord_due {s : State} {w : Nat} {i : Instr} (hfrozen : s.eng.frozen = none) (hrunning : s.eng.st = .running) (hgoing : s.eng.stopping = false)
    (hdue : wordDue s.eng (engTb0 s s.curEng) = s.eng.now) (hgood : s.eng.pc ∉ s.eng.badWords) (hword : tableAt s.eng s.eng.pc = some w)
    (hdec : decodeMc w = some i) : engWord s = exec i s := by
  simp [engWord, hfrozen, hrunning, hgoing, hdue, hgood, hword, hdec]

theorem engCycle_due {s u : State} {n w : Nat} {i : Instr} (h : EngineWordDue s n)
    (hword : tableAt { s with curEng := n, onSys := false }.eng { s with curEng := n, onSys := false }.eng.pc = some w) (hdec : decodeMc w = some i)
    (hexec : exec i { { s with curEng := n, onSys := false }.setEng { s with curEng := n, onSys := false }.eng with ev := EvArg.none } = .next u) :
    engCycle s n = .next (if u.eng.frozen = none then engEnd u
      else engTrapped ({ s with curEng := n, onSys := false }.setEng { s with curEng := n, onSys := false }.eng) u) := by
  obtain ⟨hfrozen, hrunning, hgoing, hinbox, hsvw, htick, hdue, hgood⟩ := h
  unfold engCycle
  dsimp only
  generalize ht : { s with curEng := n, onSys := false } = t at *
  have hn : t.curEng = n := ht ▸ rfl
  subst hn
  rw [takePages_quiet hinbox]
  generalize ht0 : t.setEng t.eng = t0 at *
  have heng : t0.eng = t.eng := ht0 ▸ State.eng_setEng ..
  have hcur : t0.curEng = t.curEng := ht0 ▸ rfl
  have htb0 : engTb0? t0 t.curEng = engTb0? t t.curEng := ht0 ▸ rfl
  have htb0' : engTb0 t0 t.curEng = engTb0 t t.curEng := ht0 ▸ rfl
  rw [← heng] at hfrozen hrunning hgoing hinbox hsvw htick hdue hgood hword
  rw [← htb0, ← hcur] at htick
  rw [← htb0', ← hcur] at hdue
  have hquiet : windowKeeper (engEv (engEv (engEv (engEv t0 .mcstopArrival (arg 0 0 0)) .svwEnd .none) .tableStart .none) .refreshTick .none)
      = { t0 with ev := EvArg.none } := by
    rw [engEv_stop_quiet hfrozen hinbox hgoing, engEv_window_quiet (s := { t0 with ev := arg 0 0 0 }) hfrozen hsvw,
      engEv_start_quiet (s := { t0 with ev := EvArg.none }) hfrozen hrunning, engEv_tick_quiet (s := { t0 with ev := EvArg.none }) hfrozen htick]
    exact windowKeeper_quiet (s := { t0 with ev := EvArg.none }) hsvw
  have hrun : engWord { t0 with ev := EvArg.none } = .next u :=
    (engWord_due (s := { t0 with ev := EvArg.none }) hfrozen hrunning hgoing hdue hgood hword hdec).trans hexec
  simp only [hfrozen, hinbox, List.length_nil, runMsgs, holdTables, hquiet, hrun]
  cases hu : u.eng.frozen <;> simp

/-! ## The obligation -/

/-- Settles O53: a step goes to its agent, and each agent's cycle runs the word that its decoder reads. -/
theorem stepRunsDecoded : Obligations.StepRunsDecoded := by
  unfold Obligations.StepRunsDecoded
  refine ⟨?_, ?_, ?_, ?_, ?_, fun s i a rest h => step_event h⟩
  · exact fun s n k rest i hnone htodo hruns hdec => (step_agent hnone htodo).trans (coreCycle_handler hruns hdec)
  · exact fun s u n k rest i hnone htodo hdue hdec hexec => (step_agent hnone htodo).trans (coreCycle_due hdue hdec hexec)
  · exact fun s n k rest i hnone htodo hruns hdec => (step_agent hnone htodo).trans (sysCycle_runs hruns hdec)
  · exact fun s d g rest i r hnone htodo hrun hlive hdec => (step_agent hnone htodo).trans (cxeCycle_runs hrun hlive hdec)
  · exact fun s u n w rest i hnone htodo hdue hword hdec hexec => (step_agent hnone htodo).trans (engCycle_due hdue hword hdec hexec)

end Sys2Proof.Machine
end

section
/-! PROOFS. The table words of LPTWR: which index is legal, and what its word answers and writes (R304, R314, R407). -/

namespace Sys2Proof.Machine
open Sys2Proof.Claims

/-! ## Fields of an index -/

theorem shiftRight_bne_zero {x n : Nat} : (x >>> n != 0) = decide (2 ^ n ≤ x) := by
  rw [Bool.eq_iff_iff, bne_iff_ne, decide_eq_true_iff, Nat.shiftRight_eq_div_pow, ← Nat.pos_iff_ne_zero, Nat.div_pos_iff]
  exact ⟨And.right, fun h => ⟨Nat.two_pow_pos n, h⟩⟩

theorem bitB_eq (x n : Nat) : bitB x n = decide (x / 2 ^ n % 2 = 1) := by
  rw [bitB, Nat.shiftRight_eq_div_pow]
  exact Bool.beq_eq_decide_eq ..

/-! ## A page table entry -/

theorem putPte_eq (d : DieSt) (page w v : Nat) : putPte d page w v = entryWritten d page w v := by
  have hnew : (if w = 0 then bits v 5 0 + bits (pteWord d page w) 7 6 * 2 ^ 6 + bits v 47 8 * 2 ^ 8 else bits v 24 0)
      = if w = 0 then v % 2 ^ 6 + pteWord d page w / 2 ^ 6 % 4 * 2 ^ 6 + v / 2 ^ 8 % 2 ^ 40 * 2 ^ 8 else v % 2 ^ 25 := by
    simp only [bits_eq, Nat.pow_zero, Nat.div_one]
    rfl
  unfold putPte entryWritten
  simp only [hnew]
  generalize (if w = 0 then v % 2 ^ 6 + pteWord d page w / 2 ^ 6 % 4 * 2 ^ 6 + v / 2 ^ 8 % 2 ^ 40 * 2 ^ 8 else v % 2 ^ 25) = new
  have hvalid : (decide (w = 0) && !bitB (pteWord d page w) 0 && bitB new 0) = decide (w = 0 ∧ pteWord d page w % 2 = 0 ∧ new % 2 = 1) := by
    obtain hold | hold := Nat.mod_two_eq_zero_or_one (pteWord d page w) <;> simp [bitB_eq, hold]
  have hlarge : bitB new 1 = decide (new / 2 % 2 = 1) := bitB_eq new 1
  simp only [hvalid, hlarge, decide_eq_true_eq]

/-! ## A table word -/

section
variable (s : State) (a v : Nat)

/-- A die of the partition by its index. -/
theorem selDie_eq (idx : Nat) : selDie s a idx = if (s.part (sysPart s)).size ≤ idx then .error (sysIllegal 0x02 a) else .ok (sysPart s + idx) := rfl

/-- What LPTWR answers and writes, or the reason for which its index is illegal. -/
def lptOutcome : Res (Word × State) := (lptReason s a).elim (.ok (lptWritten s a v)) fun r => .error (sysIllegal r a)

end

section
variable {s : State} {a : Nat} (v : Nat) (ha : a < 2 ^ 64)

theorem bits_table {a : Nat} (ha : a < 2 ^ 64) : bits a 63 60 = a / 2 ^ 60 := by rw [bits_eq]; omega

theorem bits_selector (a : Nat) : bits a 59 0 = a % 2 ^ 60 := by rw [bits_eq]; omega

theorem engNo_eq (n k : Nat) : engNo n k = 128 * n + k := congrArg (· + k) (Nat.mul_comm n 128)

include ha

/-! Each table in turn: what the bits of its selector name, then its checks in their order. -/

theorem lptWrite_page (htable : a / 2 ^ 60 = 0) (hin : a % 2 ^ 60 < 2 ^ 36) : lptWrite s a v = lptOutcome s a v := by
  unfold lptWrite lptOutcome lptReason lptWritten
  rw [bits_table ha, bits_selector, htable]
  generalize a % 2 ^ 60 = sel at hin
  have hdie : bits sel 35 33 = sel / 2 ^ 33 := by rw [bits_eq]; omega
  have hpage : bits sel 31 0 = sel % 2 ^ 32 := by rw [bits_eq]; omega
  have hword : bits sel 32 32 = sel / 2 ^ 32 % 2 := bits_eq ..
  simp only [-Nat.reducePow, shiftRight_bne_zero, lptBits, Nat.not_le.2 hin, selDie_eq, sysPart, List.getD_cons_zero, hdie, hpage, hword, putPte_eq]
  by_cases hsize : (s.part (s.partOfDie (s.curSys / 2))).size ≤ sel / 2 ^ 33
  · simp [-Nat.reducePow, hsize]
    rfl
  by_cases hbusy : bits (pteWord (s.die (s.partOfDie (s.curSys / 2) + sel / 2 ^ 33)) (sel % 2 ^ 32) 0) 7 6 = 1
  · simp [-Nat.reducePow, hsize, hbusy]
    exact if_pos hbusy
  · simp [-Nat.reducePow, hsize, hbusy]
    exact if_neg hbusy

theorem lptWrite_timing (htable : a / 2 ^ 60 = 1) (hin : a % 2 ^ 60 < 2 ^ 13) : lptWrite s a v = lptOutcome s a v := by
  unfold lptWrite lptOutcome lptReason lptWritten
  rw [bits_table ha, bits_selector, htable]
  generalize a % 2 ^ 60 = sel at hin
  have hdie : bits sel 9 7 = sel / 2 ^ 7 % 8 := bits_eq ..
  have heng : bits sel 6 0 = sel % 2 ^ 7 := by rw [bits_eq]; omega
  have hword : bits sel 12 10 = sel / 2 ^ 10 := by rw [bits_eq]; omega
  simp only [-Nat.reducePow, shiftRight_bne_zero, lptBits, Nat.not_le.2 hin, selDie_eq, sysPart,
    List.getD_cons_zero, List.getD_cons_succ, hdie, heng, hword, engNo_eq, timingFields]
  by_cases hsize : (s.part (s.partOfDie (s.curSys / 2))).size ≤ sel / 2 ^ 7 % 8
  · simp [-Nat.reducePow, hsize]
    rfl
  by_cases hbusy : taskOn s (s.partOfDie (s.curSys / 2)) (s.partOfDie (s.curSys / 2) + sel / 2 ^ 7 % 8) = true
  · simp [-Nat.reducePow, hsize, hbusy]
    exact if_pos hbusy
  · simp [-Nat.reducePow, hsize, hbusy]
    exact if_neg hbusy

theorem lptWrite_group (htable : a / 2 ^ 60 = 2) (hin : a % 2 ^ 60 < 2 ^ 16) : lptWrite s a v = lptOutcome s a v := by
  unfold lptWrite lptOutcome lptReason lptWritten
  rw [bits_table ha, bits_selector, htable]
  generalize a % 2 ^ 60 = sel at hin
  have hgroup : bits sel 5 0 = sel % 2 ^ 6 := by rw [bits_eq]; omega
  have hword : bits sel 15 6 = sel / 2 ^ 6 := by rw [bits_eq]; omega
  simp only [-Nat.reducePow, shiftRight_bne_zero, lptBits, Nat.not_le.2 hin, sysPart, List.getD_cons_zero, List.getD_cons_succ, hgroup, hword]
  rfl

theorem lptWrite_owner (htable : a / 2 ^ 60 = 3) (hin : a % 2 ^ 60 < 2 ^ 12) : lptWrite s a v = lptOutcome s a v := by
  unfold lptWrite lptOutcome lptReason lptWritten
  rw [bits_table ha, bits_selector, htable]
  generalize a % 2 ^ 60 = sel at hin
  simp only [-Nat.reducePow, shiftRight_bne_zero, lptBits, Nat.not_le.2 hin, sysPart, List.getD_cons_zero, List.getD_cons_succ]
  by_cases hsize : (s.part (s.partOfDie (s.curSys / 2))).size ≤ sel / 512
  · simp [-Nat.reducePow, hsize]
    rfl
  · simp [-Nat.reducePow, hsize]
    rfl

theorem lptWrite_permission (htable : a / 2 ^ 60 = 4) (hin : a % 2 ^ 60 < 2 ^ 6) : lptWrite s a v = lptOutcome s a v := by
  unfold lptWrite lptOutcome lptReason lptWritten
  rw [bits_table ha, bits_selector, htable]
  generalize a % 2 ^ 60 = sel at hin
  simp only [-Nat.reducePow, shiftRight_bne_zero, lptBits, Nat.not_le.2 hin, sysPart, List.getD_cons_zero, List.getD_cons_succ]
  rfl

theorem lptWrite_save (htable : a / 2 ^ 60 = 5) (hin : a % 2 ^ 60 < 2 ^ 9) : lptWrite s a v = lptOutcome s a v := by
  unfold lptWrite lptOutcome lptReason lptWritten
  rw [bits_table ha, bits_selector, htable]
  generalize a % 2 ^ 60 = sel at hin
  have hcore : bits sel 7 0 = sel % 2 ^ 8 := by rw [bits_eq]; omega
  simp only [-Nat.reducePow, shiftRight_bne_zero, lptBits, Nat.not_le.2 hin, sysPart, List.getD_cons_zero, List.getD_cons_succ, hcore]
  by_cases hsize : 32 * (s.part (s.partOfDie (s.curSys / 2))).size ≤ sel % 2 ^ 8
  · simp [-Nat.reducePow, hsize]
    rfl
  · simp [-Nat.reducePow, hsize]
    rfl

theorem lptWrite_scrub (htable : a / 2 ^ 60 = 6) (hin : a % 2 ^ 60 < 2 ^ 10) : lptWrite s a v = lptOutcome s a v := by
  unfold lptWrite lptOutcome lptReason lptWritten
  rw [bits_table ha, bits_selector, htable]
  generalize a % 2 ^ 60 = sel at hin
  have hdie : bits sel 9 7 = sel / 2 ^ 7 := by rw [bits_eq]; omega
  have hmod : sel / 2 ^ 7 % 8 = sel / 2 ^ 7 := by omega
  have heng : bits sel 6 0 = sel % 2 ^ 7 := by rw [bits_eq]; omega
  simp only [-Nat.reducePow, shiftRight_bne_zero, lptBits, Nat.not_le.2 hin, selDie_eq, sysPart,
    List.getD_cons_zero, List.getD_cons_succ, hdie, hmod, heng, engNo_eq]
  by_cases hsize : (s.part (s.partOfDie (s.curSys / 2))).size ≤ sel / 2 ^ 7
  · simp [-Nat.reducePow, hsize]
  · simp [-Nat.reducePow, hsize]

theorem lptWrite_limit (htable : a / 2 ^ 60 = 7) (hin : a % 2 ^ 60 < 2 ^ 1) : lptWrite s a v = lptOutcome s a v := by
  unfold lptWrite lptOutcome lptReason lptWritten
  rw [bits_table ha, bits_selector, htable]
  generalize a % 2 ^ 60 = sel at hin
  simp only [-Nat.reducePow, shiftRight_bne_zero, lptBits, Nat.not_le.2 hin, sysPart, List.getD_cons_zero, List.getD_cons_succ]
  by_cases hfirst : sel = 0
  · simp [-Nat.reducePow, hfirst]
    rfl
  · simp [-Nat.reducePow, hfirst]
    rfl

/-- A reserved table, or a bit that the table does not name. -/
theorem lptWrite_reserved (hbad : 8 ≤ a / 2 ^ 60 ∨ 2 ^ [36, 13, 16, 12, 6, 9, 10, 1].getD (a / 2 ^ 60) 0 ≤ a % 2 ^ 60) :
    lptWrite s a v = lptOutcome s a v := by
  have hbits : ∀ t < 8, lptBits t = [36, 13, 16, 12, 6, 9, 10, 1].getD t 0 := by decide
  have hcheck : (decide (a / 2 ^ 60 ≥ 8) || (a % 2 ^ 60) >>> lptBits (a / 2 ^ 60) != 0) = true := by
    by_cases hmany : 8 ≤ a / 2 ^ 60
    · rw [decide_eq_true hmany, Bool.true_or]
    · rw [shiftRight_bne_zero, hbits _ (Nat.lt_of_not_le hmany), decide_eq_true (hbad.resolve_left hmany), Bool.or_true]
  have hreason : lptReason s a = some 1 := if_pos hbad
  unfold lptWrite lptOutcome
  rw [bits_table ha, bits_selector, hreason]
  exact if_pos hcheck

/-- LPTWR of each table, as its word is written or its index refused (R407). -/
theorem lptWrite_eq : lptWrite s a v = lptOutcome s a v := by
  by_cases hbad : 8 ≤ a / 2 ^ 60 ∨ 2 ^ [36, 13, 16, 12, 6, 9, 10, 1].getD (a / 2 ^ 60) 0 ≤ a % 2 ^ 60
  · exact lptWrite_reserved v ha hbad
  obtain ⟨hmany, hin⟩ := not_or.1 hbad
  have hin := Nat.lt_of_not_le hin
  have htable := Nat.lt_of_not_le hmany
  generalize ht : a / 2 ^ 60 = table at hin htable
  match table with
  | 0 => exact lptWrite_page v ha ht hin
  | 1 => exact lptWrite_timing v ha ht hin
  | 2 => exact lptWrite_group v ha ht hin
  | 3 => exact lptWrite_owner v ha ht hin
  | 4 => exact lptWrite_permission v ha ht hin
  | 5 => exact lptWrite_save v ha ht hin
  | 6 => exact lptWrite_scrub v ha ht hin
  | 7 => exact lptWrite_limit v ha ht hin

end

end Sys2Proof.Machine
end

section
/-! PROOFS. The system instructions: on a system core their answers (R406–R408), on a compute core their ILLEGAL (R88). -/

namespace Sys2Proof.Machine
open Sys2Proof.Claims

/-! ## A system core at issue (R403) -/

section
variable {s : State} (h : SystemMode s)
include h

theorem signed_system (n : Nat) : signed s n = s := if_pos h

theorem popSrcs_system (fs : List Src) : popSrcs s fs = s := if_pos (by rw [h]; rfl)

theorem inHandler_system : inHandler s = false := by
  unfold inHandler
  rw [h]
  rfl

theorem sysOnly_system : sysOnly s = .ok () := if_pos h

end

/-! ## Operands in, an answer out (R403) -/

/-- The end of an instruction that has its answer, or the wait for it. -/
def answered (f : FDAB) : Option (Word × State) × State → State × Flow
  | (some (v, t), _) => (writeG t f.d.toNat v, .seq 1)
  | (none, t) => (t, .settled)

theorem answered_eq (f : FDAB) (o : Option (Word × State) × State) :
    answered f o = (match o with | (some r, _) => writeG r.2 f.d.toNat r.1 | (none, u) => u, if o.1.isSome then .seq 1 else .settled) := by
  obtain ⟨_ | ⟨v, t⟩, u⟩ := o <;> rfl

/-- What such an instruction does once its checks have passed. -/
def sysBody (f : FDAB) (body : State → Nat → Nat → Res (Option (Word × State) × State)) (s : State) : Res (State × Flow) :=
  (body s (readG s f.a.toNat).toNat (readG s f.b.toNat).toNat).map (answered f)

section
variable {f : FDAB} {s : State} {body : State → Nat → Nat → Res (Option (Word × State) × State)}

theorem sysWait_eq : sysWait f s body = issue s { pre := sysOnly } (sysBody f body) := by
  refine congrArg (issue s { pre := sysOnly }) (funext fun t => ?_)
  unfold sysBody
  match body t (readG t f.a.toNat).toNat (readG t f.b.toNat).toNat with
  | .ok (some (_, _), _) => rfl
  | .ok (none, _) => rfl
  | .error _ => rfl

/-- An instruction of a system core completes where its body answers, or waits, as is said. -/
theorem sysWait_completes {i : Instr} {x : Doing} (he : exec i s = sysWait f s body)
    (hform : x.srcs = [] ∧ x.words = 1 ∧ x.ends = false ∧ x.signs = true ∧ x.may = SystemMode)
    (hb : SystemMode s → x.ok s [] → sysBody f body s = .ok (x.eff s s [], x.flow s [])) : Completes i s x := by
  obtain ⟨hsrcs, hwords, hends, hsigns, hmay⟩ := hform
  intro hm
  have hsys : SystemMode s := hmay ▸ hm
  have hat : atIssue s x = s := by
    unfold atIssue
    rw [hsigns]
    exact signed_system hsys _
  refine completes_of i s x _ _ (he.trans sysWait_eq) hwords.symm hsigns.symm hends.symm (fun _ _ => rfl) (fun _ => .inl rfl)
    (fun _ _ => sysOnly_system hsys) (fun _ hok _ => ?_) hm
  rw [hat, hsrcs] at hok ⊢
  rw [popSrcs_nil]
  exact hb hsys hok

/-- On a compute core it takes the ILLEGAL of its major (R88). -/
theorem sysWait_compute (hs : s.onSys = false) (hg : Unguarded s)
    (hb : ∀ t a b, a < 2 ^ 64 → StopsAre (ClassFrom 0x01) (body t a b)) :
    sysWait f s body = .next (takeTrap s 0x01 (0x0701 + s.fetchWord s.curCore (s.slotOf s.curCore) s.cur.pc * 2 ^ 32)) := by
  have hpre : sysOnly s = .error (.trap 0x01 (0x0701 + s.fetchWord s.curCore (s.slotOf s.curCore) s.cur.pc * 2 ^ 32)) := by
    unfold sysOnly
    rw [hs]
    rfl
  have hclass : (0x0701 + s.fetchWord s.curCore (s.slotOf s.curCore) s.cur.pc * 2 ^ 32) % 256 = 0x01 := by omega
  rw [sysWait_eq, issue_illegal hg rfl (.inl rfl) (a := 0x0701 + s.fetchWord s.curCore (s.slotOf s.curCore) s.cur.pc * 2 ^ 32), hs]
  · rfl
  · dsimp only
    rw [hpre, loopCheck_one]
    rfl
  · rw [hclass]
    generalize bodyState s _ = t
    have hstops := hb t (readG t f.a.toNat).toNat (readG t f.b.toNat).toNat (BitVec.isLt _)
    unfold sysBody
    generalize body t _ _ = r at hstops
    cases r with
    | ok _ => exact .ok _
    | error e => exact .error (hstops.of_error e rfl)

/-- A stop of its body on a system core is taken as a trap (log 11). -/
theorem sysWait_trap {cause einfo : Nat} (hs : SystemMode s) (hg : Unguarded s)
    (hb : body s (readG s f.a.toNat).toNat (readG s f.b.toNat).toNat = .error (.trap cause einfo)) :
    sysWait f s body = .next (sysTrap s cause einfo) := by
  have hbody : sysBody f body s = .error (.trap cause einfo) := by
    unfold sysBody
    rw [hb]
    rfl
  have hrun : sysBody f body (if s.onSys || !true then s else signWords s 1) = .error (.trap cause einfo) := by
    rw [signed_def, signed_system hs]
    exact hbody
  rw [sysWait_eq]
  unfold issue
  rw [if_neg hg]
  simp only [sysOnly_system hs, loopCheck_one, lowerClass_ok, hrun]
  rw [hs]
  rfl

theorem sysOp_eq {body : State → Nat → Nat → Res (Option (Word × State))} :
    sysOp f s body = sysWait f s fun s a b => (body s a b).map (·, s) := by
  refine congrArg (sysWait f s) (funext fun t => funext fun a => funext fun b => ?_)
  cases body t a b <;> rfl

/-- An instruction that answers at once completes where its body answers so. -/
theorem systemAct_completes {i : Instr} {body : State → Nat → Nat → Res (Option (Word × State))} {ok : State → Nat → Nat → Prop}
    {eff : State → Nat → Nat → Word × State} (he : exec i s = sysOp f s body)
    (hb : ∀ a b, a < 2 ^ 64 → ok s a b → body s a b = .ok (some (eff s a b))) : Completes i s (systemAct f ok eff) := by
  refine sysWait_completes (he.trans sysOp_eq) ⟨rfl, rfl, rfl, rfl, rfl⟩ fun _ hok => ?_
  exact congrArg (fun r => Except.map (answered f) (Except.map (·, s) r)) (hb _ _ (BitVec.isLt _) hok)

/-- A body that answers only, and its stops. -/
theorem sysOp_compute {body : State → Nat → Nat → Res (Option (Word × State))} (hs : s.onSys = false) (hg : Unguarded s)
    (hb : ∀ t a b, a < 2 ^ 64 → StopsAre (ClassFrom 0x01) (body t a b)) :
    sysOp f s body = .next (takeTrap s 0x01 (0x0701 + s.fetchWord s.curCore (s.slotOf s.curCore) s.cur.pc * 2 ^ 32)) := by
  rw [sysOp_eq]
  refine sysWait_compute hs hg fun t a b ha => ?_
  have hstops := hb t a b ha
  generalize body t a b = r at hstops
  cases r with
  | ok _ => exact .ok _
  | error e => exact .error (hstops.of_error e rfl)

end

/-! ## The translation buffer (R406) -/

theorem sysIllegal_classFrom (r a : Nat) : ClassFrom 0x01 (sysIllegal r a) := by
  refine classFrom_illegal ?_
  omega

/-- What the buffer gives up: whether it held the page, and the state without it (R406). -/
def dropPage (s : State) (a : Nat) : Res (Option (Word × State)) :=
  match tlbPage (s.die (vaDie a)) (vaOff a) with
  | none => .ok (some (0, s))
  | some p => if pageInUse s (vaDie a) p then .ok none
    else .ok (some (1, s.setDie (vaDie a) { s.die (vaDie a) with tlb := (s.die (vaDie a)).tlb.erase p.first }))

/-- What the buffer takes in: whether the page table holds the page, and the state with it (R406). -/
def loadPage (s : State) (a : Nat) : Res (Option (Word × State)) :=
  match pageAt (s.die (vaDie a)) (vaOff a) with
  | none => .ok (some (0, s))
  | some p => .ok (some (1, s.setDie (vaDie a) { s.die (vaDie a) with tlb := (s.die (vaDie a)).tlb.set p.first (p.w0, p.w1) }))

section
variable {f : FDAB} {s : State}

theorem execMtlbinv_eq : execMtlbinv f s = sysOp f s fun s a b => (pageArg s true a b).bind fun _ => dropPage s a := by
  refine congrArg (sysOp f s) (funext fun t => funext fun a => funext fun b => ?_)
  refine congrArg (Except.bind (pageArg t true a b)) (funext fun _ => ?_)
  unfold dropPage
  dsimp only
  cases tlbPage (t.die (vaDie a)) (vaOff a) with
  | none => rfl
  | some p => dsimp only; cases pageInUse t (vaDie a) p <;> rfl

theorem execMtlbwr_eq : execMtlbwr f s = sysOp f s fun s a b => (pageArg s false a b).bind fun _ => loadPage s a := by
  refine congrArg (sysOp f s) (funext fun t => funext fun a => funext fun b => ?_)
  refine congrArg (Except.bind (pageArg t false a b)) (funext fun _ => ?_)
  unfold loadPage
  dsimp only
  cases pageAt (t.die (vaDie a)) (vaOff a) <;> rfl

theorem pageArg_ok {low : Bool} {a : Nat} (hlow : low = true → a % 65536 = 0) (hown : ownDie s a = true) : pageArg s low a 0 = .ok () := by
  unfold pageArg
  rw [hown]
  cases low
  · rfl
  · simp [hlow rfl]

theorem pageArg_classFrom (low : Bool) (a b : Nat) : StopsAre (ClassFrom 0x01) (pageArg s low a b) :=
  .ite (.error (sysIllegal_classFrom _ _)) (.ite (.error (sysIllegal_classFrom _ _)) (.ok _))

theorem dropPage_stops (P : Stop → Prop) (a : Nat) : StopsAre P (dropPage s a) := by
  unfold dropPage
  split
  · exact .ok _
  · exact .ite (.ok _) (.ok _)

theorem loadPage_stops (P : Stop → Prop) (a : Nat) : StopsAre P (loadPage s a) := by
  unfold loadPage
  split <;> exact .ok _

theorem mtlbinv_completes {x : Doing} (hx : systemActs (.mtlbinv f) = some x) : Completes (.mtlbinv f) s x := by
  cases hx
  refine systemAct_completes execMtlbinv_eq fun a b _ hok => ?_
  obtain ⟨haligned, rfl, hown, hfree⟩ := hok
  rw [pageArg_ok (fun _ => haligned) hown]
  show dropPage s a = _
  unfold dropPage
  dsimp only
  cases hpage : tlbPage (s.die (vaDie a)) (vaOff a) with
  | none => rfl
  | some p => exact if_neg (ne_true_of_eq_false (hfree p hpage))

theorem mtlbwr_completes {x : Doing} (hx : systemActs (.mtlbwr f) = some x) : Completes (.mtlbwr f) s x := by
  cases hx
  refine systemAct_completes execMtlbwr_eq fun a b _ hok => ?_
  obtain ⟨rfl, hown⟩ := hok
  rw [pageArg_ok (fun h => absurd h (by decide)) hown]
  show loadPage s a = _
  unfold loadPage
  dsimp only
  cases pageAt (s.die (vaDie a)) (vaOff a) <;> rfl

end

/-! ## The partition's tables (R407) -/

section
variable {f : FDAB} {s : State}

theorem execLptwr_eq : execLptwr f s = sysOp f s fun s a v => (lptWrite s a v).map some := by
  refine congrArg (sysOp f s) (funext fun t => funext fun a => funext fun v => ?_)
  cases lptWrite t a v <;> rfl

theorem lptwr_completes {x : Doing} (hx : systemActs (.lptwr f) = some x) : Completes (.lptwr f) s x := by
  cases hx
  refine systemAct_completes execLptwr_eq fun a v ha hlegal => ?_
  rw [lptWrite_eq v ha, lptOutcome, hlegal]
  rfl

theorem lptWrite_classFrom {a : Nat} (v : Nat) (ha : a < 2 ^ 64) : StopsAre (ClassFrom 0x01) ((lptWrite s a v).map some) := by
  rw [lptWrite_eq v ha, lptOutcome]
  cases lptReason s a with
  | none => exact .ok _
  | some r => exact .error (sysIllegal_classFrom _ _)

/-- An index that R407 does not allow (log 11). -/
theorem lptwr_illegal {r : Nat} (hs : SystemMode s) (hg : Unguarded s) (hbad : lptReason s (readG s f.a.toNat).toNat = some r) :
    exec (.lptwr f) s = .next (sysTrap s 0x01 (0x15 + r * 2 ^ 8 + (readG s f.a.toNat).toNat % 2 ^ 32 * 2 ^ 32)) := by
  refine (execLptwr_eq.trans sysOp_eq).trans (sysWait_trap hs hg ?_)
  rw [lptWrite_eq _ (BitVec.isLt _), lptOutcome, hbad]
  rfl

end

/-! ## Hypervisor calls (R408, R411) -/

section
variable {s : State}

/-- The number of the die that gets a paged access of a system core (R403). -/
def askedDie (s : State) (va : Nat) : Nat := if vaPkg va = s.pkg.pkg then vaDie va else s.curSys / 2

/-- A paged access of a system core at its die. -/
def asked (s : State) (op : AuOp) (va size b0 : Nat) (cas : Option Nat) : State :=
  ({ s with free := s.free + 1 } : State).setDie (askedDie s va) { s.die (askedDie s va) with ext := (s.die (askedDie s va)).ext ++ [
    { id := s.free, op := op, va := va, size := size, agent := Config.sysAgent s.curSys, pbase := s.partOfDie (s.curSys / 2),
      ph := Config.sysPhase s.curSys, ssn := 0, key := Config.sysKey s.curSys, value := b0, cas := cas, run := none,
      sys := some s.curSys, queued := false, left := [], poison := none }] }

theorem sysAsk_eq (op : AuOp) (va size b0 : Nat) (cas : Option Nat) :
    sysAsk s op va size b0 cas = (asked s op va size b0 cas).setSys { s.sys with req := some s.free } := rfl

theorem asked_setSys (x : SysSt) (op : AuOp) (va size b0 : Nat) (cas : Option Nat) :
    asked (s.setSys x) op va size b0 cas = (asked s op va size b0 cas).setSys x := rfl

/-- The record of a system core is put anew by its access. -/
theorem sysAsk_setSys (op : AuOp) (va size b0 : Nat) (cas : Option Nat) : sysAsk (s.setSys s.sys) op va size b0 cas = sysAsk s op va size b0 cas := by
  rw [sysAsk_eq, asked_setSys, State.setSys_setSys, State.sys_setSys, sysAsk_eq]
  rfl

/-- ATTEST before its first access, and while one is out. -/
theorem attest_ask (va : Nat) (hans : s.sys.ans = none) : attest s va = attestAnswer s va := by
  have hrecord : { s.sys with ans := none } = s.sys := congrArg (fun a => { s.sys with ans := a }) hans.symm
  unfold attest attestAnswer
  simp only [hrecord, sysAsk_setSys, shiftRight_bne_zero]
  rw [hans]
  cases s.sys.req <;> simp

/-- ATTEST with the answer of its first access: the nonce, or a fault. -/
theorem attest_nonce (va : Nat) {cause v : Nat} (hans : s.sys.ans = some (cause, v)) (hnonce : s.sys.nonce = none) : attest s va = attestAnswer s va := by
  cases cause <;> simp [attest, attestAnswer, hans, hnonce]

/-- ATTEST with the answer of its second access: the quote written, or a fault. -/
theorem attest_quote (va : Nat) {cause v n : Nat} (hans : s.sys.ans = some (cause, v)) (hnonce : s.sys.nonce = some n) : attest s va = attestAnswer s va := by
  cases cause <;> simp [attest, attestAnswer, hans, hnonce, b2n]

theorem attest_eq (va : Nat) : attest s va = attestAnswer s va := by
  match hans : s.sys.ans, hnonce : s.sys.nonce with
  | none, _ => exact attest_ask va hans
  | some _, none => exact attest_nonce va hans hnonce
  | some _, some _ => exact attest_quote va hans hnonce

end

section
variable {f : FDAB} {s : State}

theorem hvcall_eq : hvcall f s = sysWait f s fun s a b => .ok (hvAnswer s a b) := by
  refine congrArg (sysWait f s) (funext fun t => funext fun a => funext fun b => congrArg Except.ok ?_)
  unfold hvAnswer
  match a with
  | 0 => rfl
  | 1 => rfl
  | 2 => rfl
  | 3 => exact attest_eq b
  | _ + 4 => rfl

theorem hvcall_completes {i : Instr} (he : exec i s = hvcall f s) : Completes i s (hvAct f) :=
  sysWait_completes (he.trans hvcall_eq) ⟨rfl, rfl, rfl, rfl, rfl⟩ fun _ _ => congrArg Except.ok (answered_eq ..)

theorem hvcall_compute (hs : s.onSys = false) (hg : Unguarded s) :
    hvcall f s = .next (takeTrap s 0x01 (0x0701 + s.fetchWord s.curCore (s.slotOf s.curCore) s.cur.pc * 2 ^ 32)) := by
  rw [hvcall_eq]
  exact sysWait_compute hs hg fun _ _ _ _ => .ok _

end

/-! ## MOV, DROP, QCNT and QCLR of a system core (R403, log 12) -/

section
variable {s : State}

/-- One of the four completes on a system core where its body does what is said. -/
theorem plain_completes {i : Instr} {x : Doing} {r : IssueRule} {body : State → Res (State × Flow)} (he : exec i s = issue s r body)
    (hform : r.words = x.words ∧ r.signs = x.signs ∧ r.endsBody = x.ends ∧ x.may = SystemMode) (hfirst : r.first s = .ok ())
    (hpre : SystemMode s → r.pre s = .ok ())
    (hb : SystemMode s → srcVals s x.srcs = .ok (srcValues s x.srcs) → body s = .ok (x.eff s s (srcValues s x.srcs), x.flow s (srcValues s x.srcs))) :
    Completes i s x := by
  obtain ⟨hwords, hsigns, hends, hmay⟩ := hform
  intro hm
  have hsys : SystemMode s := hmay ▸ hm
  have hat : atIssue s x = s := by
    unfold atIssue
    rw [signed_system hsys, ite_self]
  refine completes_of i s x r body he hwords hsigns hends (fun _ _ => hfirst) (fun _ => .inr (inHandler_system hsys)) (fun _ _ => hpre hsys)
    (fun _ _ hvals => ?_) hm
  rw [hat] at hvals ⊢
  rw [popSrcs_system hsys]
  exact hb hsys hvals

theorem mov_plain {f : FMov} {x : Doing} (hx : plainActs (.mov f) = some x) : Completes (.mov f) s x := by
  cases hx
  refine plain_completes (show execMov f s = _ from rfl) ⟨rfl, rfl, rfl, rfl⟩ rfl (fun hsys => ?_) fun hsys hvals => ?_
  · simp [widthOk, inHandler_system hsys]
  · have hdst : DstReady s f.d.toNat := fun hm => absurd (hm.1.symm.trans hsys) (by decide)
    refine (bind_of_ok (dstOk_ready s _ hdst) _).trans ((bind_of_ok hvals _).trans ?_)
    rw [popSrcs_system hsys]
    exact congrArg (fun t => Except.ok (t, Flow.seq 1)) (if_pos hsys)

theorem drop_plain {f : FAW} {x : Doing} (hx : plainActs (.drop f) = some x) : Completes (.drop f) s x := by
  cases hx
  refine plain_completes (show execDrop f s = _ from rfl) ⟨rfl, rfl, rfl, rfl⟩ rfl (fun _ => rfl) fun hsys hvals => ?_
  refine (bind_of_ok hvals _).trans ?_
  rw [popSrcs_system hsys]
  rfl

theorem qcnt_plain {f : FDAW} {x : Doing} (hx : plainActs (.qcnt f) = some x) : Completes (.qcnt f) s x := by
  cases hx
  exact plain_completes (show execQcnt f s = _ from rfl) ⟨rfl, rfl, rfl, rfl⟩ rfl (fun _ => rfl) fun hsys _ => if_pos hsys

theorem qclr_plain {f : FAW} {x : Doing} (hx : plainActs (.qclr f) = some x) : Completes (.qclr f) s x := by
  cases hx
  refine plain_completes (show execQclr f s = _ from rfl) ⟨rfl, rfl, rfl, rfl⟩ rfl (fun _ => rfl) fun hsys _ => ?_
  exact congrArg (fun t => Except.ok (t, Flow.seq 1)) (if_pos hsys)

end

/-! ## The obligation -/

theorem systemActs_complete (i : Instr) (s : State) (x : Doing) (hx : systemActs i = some x) : Completes i s x := by
  cases i
  case mtlbinv f => exact mtlbinv_completes hx
  case mtlbwr f => exact mtlbwr_completes hx
  case lptwr f => exact lptwr_completes hx
  case hvcallVersion f | hvcallPartinfo f | hvcallFrames f | hvcallAttest f =>
    cases hx
    exact hvcall_completes rfl
  all_goals cases hx

theorem plainActs_complete (i : Instr) (s : State) (x : Doing) (hx : plainActs i = some x) : Completes i s x := by
  cases i
  case mov f => exact mov_plain hx
  case drop f => exact drop_plain hx
  case qcnt f => exact qcnt_plain hx
  case qclr f => exact qclr_plain hx
  all_goals cases hx

theorem systemMajor_illegal (i : Instr) (s : State) (hi : isSystemMajor i = true) (hs : s.onSys = false) (hg : Unguarded s) :
    exec i s = .next (takeTrap s 0x01 (0x0701 + s.fetchWord s.curCore (s.slotOf s.curCore) s.cur.pc * 2 ^ 32)) := by
  cases i
  case mtlbinv f => exact execMtlbinv_eq.trans (sysOp_compute hs hg fun _ _ _ _ => .bind (pageArg_classFrom ..) fun _ => dropPage_stops ..)
  case mtlbwr f => exact execMtlbwr_eq.trans (sysOp_compute hs hg fun _ _ _ _ => .bind (pageArg_classFrom ..) fun _ => loadPage_stops ..)
  case lptwr f => exact execLptwr_eq.trans (sysOp_compute hs hg fun _ _ v ha => lptWrite_classFrom v ha)
  case hvcallVersion f | hvcallPartinfo f | hvcallFrames f | hvcallAttest f => exact hvcall_compute hs hg
  all_goals cases hi

/-- Settles O39: the answers of a system core by the body of each instruction, and the ILLEGAL of a compute core as the lowest of its classes. -/
theorem systemInstructions : Obligations.SystemInstructions := by
  unfold Obligations.SystemInstructions
  exact ⟨fun i s x hx => hx.elim (systemActs_complete i s x) (plainActs_complete i s x), systemMajor_illegal,
    fun f s r hs hg hbad => lptwr_illegal hs hg hbad⟩

end Sys2Proof.Machine
end

section
/-! PROOFS. Scalar instructions complete with the values that `scalarOf` lists, the floating ones under the rounding mode in force (R97, R101–R104,
R107, R108). -/

namespace Sys2Proof.Machine
open Sys2Proof.Claims

/-! ## Values -/

theorem slt_ite {α : Type} (x y : Word) (a b : α) : (if x.slt y then a else b) = if x.toInt < y.toInt then a else b :=
  if_congr BitVec.slt_iff_toInt_lt rfl rfl

theorem ult_ite {α : Type} (x y : Word) (a b : α) : (if x.ult y then a else b) = if x.toNat < y.toNat then a else b :=
  if_congr BitVec.ult_iff_lt rfl rfl

theorem not_slt_eq (x y : Word) : (!x.slt y) = decide (y.toInt ≤ x.toInt) := decide_not.symm.trans (decide_eq_decide.2 Int.not_lt)

theorem not_ult_eq (x y : Word) : (!x.ult y) = decide (y.toNat ≤ x.toNat) := decide_not.symm.trans (decide_eq_decide.2 Nat.not_lt)

theorem bne_eq_decide_ne (x y : Word) : (x != y) = decide (x ≠ y) := by
  by_cases h : x = y <;> simp [h]

/-- The tested bit as a word (R101). -/
theorem bitAt_eq_flagWord01 (x : Word) (n : Nat) : BitVec.ofNat 64 (bitAt x.toNat n) = flagWord01 (x.getLsbD n) := by
  have hbit : bitB x.toNat n = x.getLsbD n := bitB_testBit x.toNat n
  unfold flagWord01 bitAt
  rw [← hbit, bitB]
  obtain h | h := Nat.mod_two_eq_zero_or_one (x.toNat >>> n) <;> rw [h] <;> rfl

theorem clz64_eq (x : Word) : clz64 x.toNat = if x = 0 then 64 else 63 - x.toNat.log2 := by
  unfold clz64
  simp only [← BitVec.toNat_inj]
  rfl

/-! ## Instructions of two sources, of one and of none -/

section
variable {i : Instr} {s : State}

theorem op2_completes {d a b : Nat} {ka kb : Bool} {f : Nat} {op : Word → Word → Word × Nat} {val : List Word → Word × Nat}
    (he : exec i s = op2 s d a b ka kb f op) (hval : ∀ u v, op u v = val [u, v]) : CompletesAs i s ⟨d, [(a, ka), (b, kb)], f, val⟩ := by
  intro hg hsrcs hd
  rw [he, op2_ok s d a b ka kb f op hg hsrcs hd, hval]
  rfl

theorem op1_completes {d a : Nat} {ka : Bool} {f : Nat} {op : Word → Word × Nat} {val : List Word → Word × Nat}
    (he : exec i s = op1 s d a ka f op) (hval : ∀ u, op u = val [u]) : CompletesAs i s ⟨d, [(a, ka)], f, val⟩ := by
  intro hg hsrcs hd
  rw [he, op1_ok s d a ka f op hg hsrcs hd, hval]
  rfl

theorem op0_completes {d : Nat} {v : State → Word} (he : exec i s = issue1 s true fun t => do dstOk t d; return result t 1 d (v t))
    (hv : v (signed s 1) = v s) : CompletesAs i s ⟨d, [], 1, fun _ => (v s, 0)⟩ := by
  intro hg _ hd
  rw [he, issue1_ok s true _ (result (signed s 1) 1 d (v s)) hg (.inl rfl) ?_]
  · rw [popSrcs_nil]
  · rw [dstOk_signed, dstOk_ready s d hd, hv]
    rfl

end

/-- Every scalar instruction completes, a floating one under the rounding mode in force. -/
theorem scalar_completes {i : Instr} {s : State} {x : Scalar} (hx : scalarOf (frmMode s) s.cur.now i = some x) : CompletesAs i s x := by
  cases i
  case add | sub | and | or | xor | shl | shr | sra | mul | mulhs | mulhu | andn | seq | slt | sltu | bflip | div | divu | rem | remu | sext | zext
    | fadd | fsub | fmul | fdiv | fcmplt =>
    cases hx
    exact op2_completes rfl fun _ _ => rfl
  case clz =>
    cases hx
    exact op1_completes rfl fun u => congrArg (fun n => (BitVec.ofNat 64 n, 0)) (clz64_eq u)
  case ctz | popc | brev | bswap | addi | andi | ori | xori | slti | shli | shri | srai | lcat | fsqrt | fcvti | icvtf =>
    cases hx
    exact op1_completes rfl fun _ => rfl
  case min | max =>
    cases hx
    exact op2_completes rfl fun u v => congrArg (·, 0) (slt_ite u v _ _)
  case minu | maxu =>
    cases hx
    exact op2_completes rfl fun u v => congrArg (·, 0) (ult_ite u v _ _)
  case sne =>
    cases hx
    exact op2_completes rfl fun u v => congrArg (flagWord01 ·, 0) (bne_eq_decide_ne u v)
  case sge =>
    cases hx
    exact op2_completes rfl fun u v => congrArg (flagWord01 ·, 0) (not_slt_eq u v)
  case sgeu =>
    cases hx
    exact op2_completes rfl fun u v => congrArg (flagWord01 ·, 0) (not_ult_eq u v)
  case bext =>
    cases hx
    exact op2_completes rfl fun u v => congrArg (·, 0) (bitAt_eq_flagWord01 u _)
  case li f =>
    cases hx
    exact op0_completes (v := fun _ => BitVec.ofInt 64 f.imm.toInt) rfl rfl
  case tbrd f =>
    cases hx
    exact op0_completes (v := fun t => BitVec.ofNat 64 t.cur.now) rfl (by rw [signed_cur])
  all_goals cases hx

/-! ## The rounding mode and the cycle matter to some only -/

/-- An integer instruction, and TBRD, rounds nothing. -/
theorem scalarOf_integer {i : Instr} (hi : isFloat i = false) (m m' t : Nat) : scalarOf m t i = scalarOf m' t i := by
  cases i
  case fadd | fsub | fmul | fdiv | fcmplt | fsqrt | fcvti | icvtf => cases hi
  all_goals rfl

/-- A floating instruction does not read the timebase. -/
theorem scalarOf_float {i : Instr} (hi : isFloat i = true) (m t t' : Nat) : scalarOf m t i = scalarOf m t' i := by
  cases i
  case fadd | fsub | fmul | fdiv | fcmplt | fsqrt | fcvti | icvtf => rfl
  all_goals cases hi

theorem frmMode_core {s : State} (hs : s.onSys = false) : frmMode s = frmCode s.cur.frm := by simp [frmMode, hs]

theorem frmMode_system {s : State} (hs : s.onSys = true) : frmMode s = frmCode s.sys.frm := by simp [frmMode, hs]

/-- Settles O1: each instruction is an operation on two sources, on one or on none, whose value is that of its entry. -/
theorem scalarResults : Obligations.ScalarResults := by
  unfold Obligations.ScalarResults
  exact fun i s x hx hi _ => scalar_completes ((scalarOf_integer hi ..).trans hx)

/-- Settles O60: the rounding mode in force is that of the agent's own FRM. -/
theorem floatResults : Obligations.FloatResults := by
  unfold Obligations.FloatResults
  refine fun i s x hi => ⟨fun hs hx => scalar_completes ?_, fun hs hx => scalar_completes ?_⟩
  · rw [frmMode_core hs, scalarOf_float hi _ _ 0, hx]
  · rw [frmMode_system hs, scalarOf_float hi _ _ 0, hx]

end Sys2Proof.Machine
end

section
/-! PROOFS. A scalar instruction changes nothing but its sources, its result on its way and the sequencing of its context (R97). -/

namespace Sys2Proof.Machine
open Sys2Proof.Claims

/-! ## States that differ in the sequencing, the queues and the results on their way of the current context -/

/-- Outside the current context the states agree, and in it but for its sequencing, its queues and the results on their way. -/
structure Sequenced (s t : State) : Prop where
  outside : ∀ c, t.setCur c = s.setCur c
  ctx : t.cur = { s.cur with pc := t.cur.pc, base := t.cur.base, nic := t.cur.nic, guard := t.cur.guard, loops := t.cur.loops,
                             seg := t.cur.seg, sigNext := t.cur.sigNext, q := t.cur.q, flight := t.cur.flight }

namespace Sequenced
variable {s t u : State}

protected theorem refl (s : State) : Sequenced s s := ⟨fun _ => rfl, rfl⟩

protected theorem trans (hst : Sequenced s t) (htu : Sequenced t u) : Sequenced s u :=
  ⟨fun c => (htu.outside c).trans (hst.outside c), htu.ctx.trans (by rw [hst.ctx])⟩

theorem of_setCur {c : Ctx} (h : t = s.setCur c)
    (hc : c = { s.cur with pc := c.pc, base := c.base, nic := c.nic, guard := c.guard, loops := c.loops,
                           seg := c.seg, sigNext := c.sigNext, q := c.q, flight := c.flight }) : Sequenced s t := by
  subst h
  exact ⟨fun d => State.setCur_setCur .., by rw [State.setCur_cur]; exact hc⟩

theorem queueMode (h : Sequenced s t) (hm : QueueMode s) : QueueMode t := by
  obtain ⟨hsys, hhandler⟩ := hm
  have honSys : t.onSys = s.onSys := (congrArg State.onSys (h.outside t.cur) :)
  exact ⟨honSys.trans hsys, by rw [h.ctx]; exact hhandler⟩

end Sequenced

/-! ## The parts of a scalar instruction -/

theorem sequenced_signed (s : State) (n : Nat) : Sequenced s (signed s n) := by
  obtain h | ⟨g, w, h⟩ := signed_frame s n
  · rw [h]
    exact .refl s
  · exact .of_setCur h rfl

section
variable {s : State} (hm : QueueMode s)
include hm

theorem sequenced_popSrcs (fs : List Src) : Sequenced s (popSrcs s fs) := by
  obtain h | h := sourcesPopOnce.2.1 s fs hm
  · rw [h]
    exact .refl s
  · exact .of_setCur h rfl

/-- A queue that no field pops keeps its entries, q0 among them. -/
theorem qEntries_popSrcs_kept {fs : List Src} {q : Nat} (hkeep : ∀ f ∈ fs, f.1 = q → f.2 = true) :
    qEntries (popSrcs s fs).cur q = qEntries s.cur q := by
  rw [cur_popSrcs_queue s hm]
  refine qEntries_dropHeads_other _ _ q fun hmem => ?_
  obtain ⟨f, hf, hfq, hpop⟩ := (mem_poppedQs fs q).1 hmem
  exact absurd ((hkeep f hf hfq).symm.trans hpop) (by decide)

theorem advance_queue (n c : Nat) : ∃ pc ls, advance s n c =
    s.setCur { s.cur with pc := pc, base := s.cur.now + c, nic := none, guard := none, loops := ls } := by
  unfold advance
  dsimp only
  split
  · split
    · split
      · exact ⟨_, _, goto_setLoops_queue s _ _ _ hm⟩
      · exact ⟨_, _, goto_setLoops_queue s _ _ _ hm⟩
    · exact ⟨_, _, goto_queue s _ _ hm⟩
  · exact ⟨_, _, goto_queue s _ _ hm⟩

/-- A result that goes on its way, and the sequencer that goes on, leave every queue. -/
theorem advance_result_queue (f d : Nat) (v : Word) (fl n c : Nat) : ∃ t : Ctx, advance (result s f d v fl) n c = s.setCur t
    ∧ Sequenced s (s.setCur t) ∧ t.q = s.cur.q := by
  have hresult := result_queue s f d v fl hm
  have hseq : Sequenced s (result s f d v fl) := .of_setCur hresult rfl
  obtain ⟨pc, ls, hadvance⟩ := advance_queue (hseq.queueMode hm) n c
  refine ⟨_, hadvance.trans (hseq.outside _), .of_setCur rfl ?_, ?_⟩ <;> rw [hresult, State.setCur_cur]

end

/-- Settles O2: the words that issue, the sources, the result and the sequencer each change a part of the current context. -/
theorem scalarFrame : Obligations.ScalarFrame := by
  unfold Obligations.ScalarFrame
  intro i s t x hx hm hg hsrcs hexec
  have hd : DstReady s x.d := fun hh => absurd (hm.2.symm.trans hh.2) (by decide)
  have hnext := Host.Outcome.next.inj (hexec.symm.trans (scalar_completes hx hg hsrcs hd))
  have hsigned := sequenced_signed s 1
  have hm1 := hsigned.queueMode hm
  have hpop := sequenced_popSrcs hm1 x.srcs
  obtain ⟨c, hc, hseq, hq⟩ := advance_result_queue (hpop.queueMode hm1) x.off x.d (x.val (srcValues s x.srcs)).1 (x.val (srcValues s x.srcs)).2 1 1
  rw [hc] at hnext
  have hall : Sequenced s t := hnext ▸ (hsigned.trans hpop).trans hseq
  have hstate : t = s.setCur t.cur := by
    rw [← hall.outside, hnext, State.setCur_setCur, State.setCur_cur]
  refine ⟨hstate, by rw [hstate]; rfl, hall.ctx, fun q hkeep => ?_⟩
  calc qEntries t.cur q
    _ = qEntries (popSrcs (signed s 1) x.srcs).cur q := by rw [hnext, State.setCur_cur, qEntries, hq]; rfl
    _ = qEntries (signed s 1).cur q := qEntries_popSrcs_kept hm1 hkeep
    _ = qEntries s.cur q := qEntries_signed ..

end Sys2Proof.Machine
end

section
/-! PROOFS. MOV, DROP, QCNT and QCLR of a compute core, at every width (R105). -/

namespace Sys2Proof.Machine
open Sys2Proof.Claims

/-- What MOV does with its values on a compute core: handler code writes its register, else they are on their way to the queues (R105). -/
theorem moved_eq {t : State} (hs : t.onSys = false) (fs : List Src) (d : Nat) (vs : List Word) :
    (if t.onSys then writeGs (popSrcs t fs) d vs else if t.cur.handler then result (popSrcs t fs) 1 d (vs.headD 0)
        else resultWide (popSrcs t fs) 1 d vs)
      = if t.cur.handler then result (popSrcs t fs) 1 d (arg1 vs)
        else (popSrcs t fs).setCur { (popSrcs t fs).cur with flight := (popSrcs t fs).cur.flight ++ [onWay t 1 (.pushQ d vs) 0] } := by
  have hway : onWay t 1 (.pushQ d vs) 0 = onWay (popSrcs t fs) 1 (.pushQ d vs) 0 := by
    unfold onWay
    rw [popSrcs_cur]
  rw [hs, hway]
  rfl

section
variable {s : State}

theorem mov_completes {f : FMov} {x : Doing} (hx : queueActs (.mov f) = some x) : Completes (.mov f) s x := by
  cases hx
  refine completes_of _ s _ _ _ (show execMov f s = issue s _ _ from rfl) rfl rfl rfl (fun _ _ => rfl) (fun _ => .inl rfl) (fun hmay _ => ?_)
    fun hmay hok hvals => ?_
  · obtain hm | ⟨_, hwd⟩ := hmay
    · simp [widthOk, queueMode_not_handler hm]
    · simp [widthOk, hwd]
  · have hsys : s.onSys = false := hmay.elim (·.1) (·.1.1)
    refine (bind_of_ok (dstOk_ready _ _ hok) _).trans ((bind_of_ok hvals _).trans ?_)
    exact congrArg (fun t => Except.ok (t, Flow.seq 1)) (moved_eq ((atIssue_onSys ..).trans hsys) ..)

theorem drop_completes {f : FAW} {x : Doing} (hx : queueActs (.drop f) = some x) : Completes (.drop f) s x := by
  cases hx
  refine completes_of _ s _ _ _ (show execDrop f s = issue s _ _ from rfl) rfl rfl rfl (fun _ _ => rfl)
    (fun hmay => .inr (queueMode_not_handler hmay)) (fun _ _ => rfl) fun _ _ hvals => ?_
  exact bind_of_ok hvals _

theorem qcnt_completes {f : FDAW} {x : Doing} (hx : queueActs (.qcnt f) = some x) : Completes (.qcnt f) s x := by
  cases hx
  refine completes_of _ s _ _ _ (show execQcnt f s = issue s _ _ from rfl) rfl rfl rfl (fun _ _ => rfl)
    (fun hmay => .inr (queueMode_not_handler hmay)) (fun _ _ => rfl) fun hmay _ _ => ?_
  dsimp only
  rw [atIssue_onSys, hmay.1, popSrcs_nil]
  rfl

theorem qclr_completes {f : FAW} {x : Doing} (hx : queueActs (.qclr f) = some x) : Completes (.qclr f) s x := by
  cases hx
  refine completes_of _ s _ _ _ (show execQclr f s = issue s _ _ from rfl) rfl rfl rfl (fun _ _ => rfl)
    (fun hmay => .inr (queueMode_not_handler hmay)) (fun _ _ => rfl) fun hmay _ _ => ?_
  dsimp only
  rw [atIssue_onSys, hmay.1, popSrcs_nil]
  rfl

end

/-- Settles O13: each of the four completes by the common form, its body read in the mode that it runs in. -/
theorem queueOperations : Obligations.QueueOperations := by
  unfold Obligations.QueueOperations
  intro i s x hx
  cases i
  case mov f => exact mov_completes hx
  case drop f => exact drop_completes hx
  case qcnt f => exact qcnt_completes hx
  case qclr f => exact qclr_completes hx
  all_goals cases hx

end Sys2Proof.Machine
end

section
/-! PROOFS. What handler mode forbids and what it alone allows: ILLEGAL with EINFO 0x0003, which no check of the same word precedes (R32, R88, R100). -/

namespace Sys2Proof.Machine
open Sys2Proof.Claims

/-! ## Classes of what operands and table words meet -/

theorem srcVals_classFrom (s : State) (fs : List Src) : StopsAre (ClassFrom 0x05) (srcVals s fs) := by
  by_cases hlow : HandlerMode s → ∀ f ∈ fs, f.1 < 16
  · exact (srcVals_notIllegal hlow).classFrom _
  · push Not at hlow
    obtain ⟨hm, f, hf, h16⟩ := hlow
    rw [srcVals_handler_bad hm hf h16]
    exact .error (classFrom_illegal (by decide))

theorem dstOk_classFrom (s : State) (d : Nat) : StopsAre (ClassFrom 0x05) (dstOk s d) := by
  unfold dstOk
  exact .ite (.error (classFrom_illegal (by decide))) (.ok _)

theorem parityOk_notIllegal (c : Ctx) (ps : List Nat) : StopsAre NotIllegal (parityOk c ps) := by
  unfold parityOk
  split
  · exact .error (notIllegal_trap (by decide) _)
  · exact .ok _

theorem ClassFrom.mono {j k : Nat} (hjk : j ≤ k) {e : Stop} (h : ClassFrom k e) : ClassFrom j e := fun b hb => hjk.trans (h b hb)

/-- A result that meets no ILLEGAL of a class below 3, that of a forbidden instruction. -/
abbrev AfterMode {α : Type} (r : Res α) : Prop := StopsAre (ClassFrom 0x03) r

theorem srcVals_afterMode (s : State) (fs : List Src) : AfterMode (srcVals s fs) := (srcVals_classFrom s fs).mono fun _ => .mono (by decide)

theorem dstOk_afterMode (s : State) (d : Nat) : AfterMode (dstOk s d) := (dstOk_classFrom s d).mono fun _ => .mono (by decide)

/-! ## The two ways in which an instruction is forbidden -/

section
variable {s : State} (hg : Unguarded s) {r : IssueRule} {body : State → Res (State × Flow)} (hf : r.first s = .ok ())
  (hb : AfterMode (body (bodyState s r)))
include hg hf hb

/-- An instruction whose rule forbids handler mode. -/
theorem issue_forbidden (hm : HandlerMode s) (hh : r.handlerOk = false) : issue s r body = .next (takeTrap s 0x01 0x0003) := by
  have hmode : (!r.handlerOk && inHandler s) = true := by simp [hh, inHandler, hm.1, hm.2]
  have hgo : lowerClass (.error (illegal 0x03)) (body (bodyState s r)) = .error (illegal 0x03) := lowerClass_illegal hb
  unfold bodyState at hgo
  unfold issue
  rw [if_neg hg]
  simp only [hf, hmode, if_true, bind, Except.bind, throw, throwThe, MonadExceptOf.throw, hgo]
  rw [if_neg (by simp [hm.1])]
  exact congrArg _ (takeStop_illegal ..)

/-- An instruction that a check of its own forbids. -/
theorem issue_checked (hs : s.onSys = false) (hh : r.handlerOk = true) (hp : r.pre s = .error (illegal 0x03)) :
    issue s r body = .next (takeTrap s 0x01 0x0003) := by
  have hloop : StopsAre (ClassFrom 0x03) (loopCheck s r.words r.endsBody) := by
    refine ⟨fun e he b hb => ?_⟩
    obtain ⟨a, rfl, ha⟩ := loopCheck_class _ _ _ _ he
    cases hb
    omega
  refine (issue_illegal (a := 0x03) hg hf (.inl hh) ?_ hb).trans (by rw [hs]; rfl)
  rw [hp]
  exact lowerClass_illegal hloop

end

/-! ## The bodies that meet an ILLEGAL at all -/

theorem waitqBody_notIllegal (f : FA0) (s : State) : StopsAre NotIllegal (waitqBody f s) := by
  have hhead := headQ_notIllegal s.cur f.a.toNat 0
  unfold waitqBody
  split
  · exact .ok _
  · exact .error (notIllegal_hold _ _)
  next he => exact .error (hhead.of_error _ he)

theorem flagCheck_afterMode (c : Ctx) (a : Nat) : AfterMode (flagCheck c a) := by
  unfold flagCheck
  exact .ite (.error (classFrom_illegal (by omega))) (.ite (.error ((notIllegal_trap (by decide) _).classFrom _))
    (.ite (.error ((notIllegal_hold _ _).classFrom _)) (.ok _)))

theorem waitfBody_afterMode (f : FA) (s : State) : AfterMode (waitfBody f s) :=
  .bind (srcVals_afterMode ..) fun _ => .bind (flagCheck_afterMode ..) fun _ => .pure _

/-- Which faulted request a PHASE reports makes no ILLEGAL. -/
theorem oldestFault_afterMode {α : Type} (c : Ctx) {r : Res α} (h : AfterMode r) : AfterMode (oldestFault c r) := by
  unfold oldestFault
  split
  · exact .error ((notIllegal_fault _).classFrom _)
  · exact h

theorem illegalFirst_afterMode {α : Type} (b : Bool) {e : Stop} (he : ClassFrom 0x03 e) {r : Res α} (h : AfterMode r) : AfterMode (illegalFirst b e r) := by
  unfold illegalFirst
  split
  next x =>
    cases b with
    | true => exact .error he
    | false => exact h
  · exact .ok _

theorem phaseCheck_afterMode (c : Ctx) (m : Word) : AfterMode (phaseCheck c m) := by
  unfold phaseCheck
  refine .ite (.error (classFrom_illegal (by decide))) (.ite (.error (classFrom_illegal (by decide))) ?_)
  split
  · exact .error ((notIllegal_trap (by decide) _).classFrom _)
  · refine .ite (.error ((notIllegal_hold _ _).classFrom _)) (.ite (.error ((notIllegal_hold _ _).classFrom _)) ?_)
    split
    · exact .error ((notIllegal_fault _).classFrom _)
    · exact .ok _

theorem phaseBody_afterMode (f : FA) (s : State) : AfterMode (phaseBody f s) :=
  .bind (illegalFirst_afterMode _ (classFrom_illegal (by decide)) (oldestFault_afterMode _ (srcVals_afterMode ..))) fun _ =>
    .bind ((parityOk_notIllegal ..).classFrom _) fun _ => .bind (phaseCheck_afterMode ..) fun _ => .pure _

theorem openBody_afterMode (f : FOpen) (s : State) : AfterMode (openBody f s) := by
  have hbad : ClassFrom 0x03 (illegal 0x04) := classFrom_illegal (by decide)
  exact .bind ((parityOk_notIllegal ..).classFrom _) fun _ => .ite (.throw_bind hbad) (.bind (srcVals_afterMode ..) fun _ => .ite (.throw_bind hbad) (.pure _))

theorem sadvBody_afterMode (f : FSA) (s : State) : AfterMode (sadvBody f s) :=
  .bind (srcVals_afterMode ..) fun _ => .bind ((skipCheck_class ..).mono fun _ => .mono (by decide)) fun _ => .pure _

theorem mxIllegal_afterMode (reason tile operand : Nat) : ClassFrom 0x03 (mxIllegal reason tile operand) := classFrom_illegal (by omega)

theorem ctxIllegal_afterMode (reason idx : Nat) : ClassFrom 0x03 (ctxIllegal reason idx) := classFrom_illegal (by omega)

theorem ctxTarget_afterMode (s : State) (idx : Nat) : AfterMode (ctxTarget s idx) := by
  have hbad := ctxIllegal_afterMode 0x02 idx
  unfold ctxTarget
  exact .ite (.error hbad) (.ite (.ite (.error hbad) (.ok _)) (.ite (.error hbad) (.ok _)))

theorem ctxCsrWrite_afterMode (s : State) (core slot n idx : Nat) (v : Word) : AfterMode (ctxCsrWrite s core slot n idx v) := by
  unfold ctxCsrWrite
  exact .ite (.ite (.error (ctxIllegal_afterMode _ _)) (.ok _)) (.ite (.ok _) (.ok _))

theorem ctxPut_afterMode (s : State) (core slot idx : Nat) (v : Word) : AfterMode (ctxPut s core slot idx v) := by
  have hbad : AfterMode (.error (ctxIllegal 0x03 idx) : Res State) := .error (ctxIllegal_afterMode _ _)
  unfold ctxPut
  dsimp only
  split
  · exact .ite hbad (.ite (.ok _) (.ite (.ok _) (.ok _)))
  · exact .ite hbad (.ok _)
  · split
    · exact hbad
    · exact .ok _
  · exact ctxCsrWrite_afterMode ..
  · exact hbad

/-! ## The instructions -/

section
variable {s : State} (hg : Unguarded s)
include hg

/-- SEG inside a segment or in handler mode (R32, R116). -/
theorem seg_illegal (f : FSeg) (hs : s.onSys = false) (h : s.cur.seg.active = true ∨ s.cur.handler = true) :
    exec (.seg f) s = .next (takeTrap s 0x01 0x0003) := by
  have hlegal : segLegal s = .error (illegal 0x03) := by
    obtain h | h := h
    · simp [segLegal, h]
    · simp [segLegal, h]
  refine (issue_checked hg rfl (.ite (.ok _) (.ok _)) hs rfl ?_ : execSeg f s = _)
  dsimp only
  rw [hlegal]
  rfl

/-- SEGEND outside a segment or in handler mode (R32, R117). -/
theorem segend_illegal (hs : s.onSys = false) (h : s.cur.seg.active = false ∨ s.cur.handler = true) :
    exec .segend s = .next (takeTrap s 0x01 0x0003) := by
  have hlegal : segendLegal s = .error (illegal 0x03) := by
    obtain h | h := h
    · simp [segendLegal, h]
    · simp [segendLegal, h]
  refine (issue_checked hg rfl (.ite (.error ((notIllegal_trap (by decide) _).classFrom _)) (.ok _)) hs rfl ?_ : execSegend s = _)
  dsimp only
  rw [hlegal]
  rfl

theorem mov_wide_illegal (f : FMov) (hm : HandlerMode s) (hwd : f.wd.toNat ≠ 0) : exec (.mov f) s = .next (takeTrap s 0x01 0x0003) := by
  have hwidth : widthOk f.wd.toNat s = .error (illegal 0x03) := by simp [widthOk, inHandler, hm.1, hm.2, hwd]
  exact (issue_checked hg rfl (.bind (dstOk_afterMode ..) fun _ => .bind (srcVals_afterMode ..) fun _ => .pure _) hm.1 rfl hwidth : execMov f s = _)

end

theorem notInHandler_illegal {i : Instr} {s : State} (hi : notInHandler i = true) (hm : HandlerMode s) (hg : Unguarded s) :
    exec i s = .next (takeTrap s 0x01 0x0003) := by
  cases i
  case mov f => exact mov_wide_illegal hg f hm (by simpa [notInHandler] using hi)
  case drop f => exact (issue_forbidden hg rfl (.bind (srcVals_afterMode ..) fun _ => .pure _) hm rfl : execDrop f s = _)
  case qcnt f => exact (issue_forbidden hg rfl (.ite (.pure _) (.pure _)) hm rfl : execQcnt f s = _)
  case qclr f => exact (issue_forbidden hg rfl (.ok _) hm rfl : execQclr f s = _)
  case waitq f => exact (execWaitq_eq f s).trans (issue_forbidden hg rfl ((waitqBody_notIllegal ..).classFrom _) hm rfl)
  case waitf f => exact (execWaitf_eq f s).trans (issue_forbidden hg rfl (waitfBody_afterMode ..) hm rfl)
  case phase f => exact (execPhase_eq f s).trans (issue_forbidden hg rfl (phaseBody_afterMode ..) hm rfl)
  case slath => exact (issue_forbidden hg rfl (.ite (.error ((notIllegal_trap (by decide) _).classFrom _)) (.ok _)) hm rfl : execSlath s = _)
  case seg f => exact seg_illegal hg f hm.1 (.inr hm.2)
  case segend => exact segend_illegal hg hm.1 (.inr hm.2)
  case openS f => exact (execOpenS_eq f s).trans (issue_forbidden hg rfl (openBody_afterMode ..) hm rfl)
  case close f => exact (execClose_eq f s).trans (issue_forbidden hg rfl (.ok _) hm rfl)
  case sadv f => exact (execSadv_eq f s).trans (issue_forbidden hg rfl (sadvBody_afterMode ..) hm rfl)
  case srew f => exact (issue_forbidden hg rfl (.ok _) hm rfl : execSrew f s = _)
  case sstat f => exact (execSstat_eq f s).trans (issue_forbidden hg rfl (.ok _) hm rfl)
  all_goals cases hi

theorem onlyInHandler_illegal {i : Instr} {s : State} (hi : onlyInHandler i = true) (hm : QueueMode s) (hg : Unguarded s) :
    exec i s = .next (takeTrap s 0x01 0x0003) := by
  have hmode : (if s.onSys || s.cur.handler then (.ok () : Res Unit) else .error (illegal 0x03)) = .error (illegal 0x03) := by
    rw [hm.1, hm.2]
    rfl
  have honly : handlerOnly s = .error (illegal 0x03) := by
    unfold handlerOnly
    rw [queueMode_not_handler hm]
    rfl
  cases i
  case wbrd f => exact (issue_checked hg rfl (.bind (dstOk_afterMode ..) fun _ => .pure _) hm.1 rfl hmode : execWbrd f s = _)
  case tret => exact (issue_checked hg rfl (.ite (.ok _) (.ok _)) hm.1 rfl hmode : execTret s = _)
  case resume f =>
    refine (issue_checked hg rfl (.bind (srcVals_afterMode ..) fun vs => ?_) hm.1 rfl honly : execResume f s = _)
    split
    · exact .ite (.throw_bind (mxIllegal_afterMode _ _ _)) (.pure _)
    · exact .pure _
  case eabort f =>
    refine (issue_checked hg rfl (.bind (srcVals_afterMode ..) fun vs => ?_) hm.1 rfl honly : execEabort f s = _)
    split
    · exact .ite (.throw_bind (mxIllegal_afterMode _ _ _)) (.pure _)
    · exact .pure _
  case ctxrd f =>
    refine (issue_checked hg rfl (.bind (dstOk_afterMode ..) fun _ => .bind (srcVals_afterMode ..) fun vs =>
      .bind (ctxTarget_afterMode ..) fun t => ?_) hm.1 rfl hmode : execCtxrd f s = _)
    split
    · exact .throw (ctxIllegal_afterMode _ _)
    · exact .pure _
  case ctxwr f =>
    exact (issue_checked hg rfl (.bind (srcVals_afterMode ..) fun vs => .bind (ctxTarget_afterMode ..) fun t => .bind (ctxPut_afterMode ..) fun _ => .pure _)
      hm.1 rfl hmode : execCtxwr f s = _)
  all_goals cases hi

/-- Settles O10: each such instruction fails the check of its mode, and nothing else that it can meet is an ILLEGAL of a class below 3. -/
theorem handlerModeRules : Obligations.HandlerModeRules := by
  unfold Obligations.HandlerModeRules
  exact ⟨fun i s hi hm hg => notInHandler_illegal hi hm hg, fun i s hi hm hg => onlyInHandler_illegal hi hm hg⟩

end Sys2Proof.Machine
end

section
/-! PROOFS. SEG, SEGEND, SLATH and WBRD, the traps of a timed segment and the running signature (R25, R28–R31, R116, R117, R119). -/

namespace Sys2Proof.Machine
open Sys2Proof.Claims

/-! ## A check that is no ILLEGAL -/

/-- Only ILLEGALs are ranked by class: any other stop of the checks comes before the body's (R88). -/
theorem lowerClass_notIllegal {α : Type} {st : Stop} (h : NotIllegal st) (r : Res α) : lowerClass (.error st) r = .error st := by
  match st, h with
  | .trap cause a, h =>
    have hcause : cause ≠ 0x01 := fun hc => h a (congrArg (Stop.trap · a) hc)
    simp [lowerClass, hcause]
  | .fault _, _ => rfl
  | .hold _ _, _ => rfl

/-- A stop of the checks that is no ILLEGAL is taken, whatever the loop rule and the body find. -/
theorem issue_check_stop {s : State} {r : IssueRule} {body : State → Res (State × Flow)} {st : Stop} (hs : s.onSys = false) (hg : Unguarded s)
    (hf : r.first s = .ok ()) (hh : r.handlerOk = true) (hp : r.pre s = .error st) (hst : NotIllegal st) :
    issue s r body = .next (takeStop s st) := by
  unfold issue
  rw [if_neg hg]
  simp only [hf, hh, hp, hs, bind, Except.bind, Bool.not_true, Bool.false_and, Bool.false_eq_true, if_false, lowerClass_notIllegal hst]

/-! ## SEG (R28, R116) -/

/-- What SEG does once its checks pass: it waits for its stamp or opens the segment. -/
def segBody (f : FSeg) (s : State) : Res (State × Flow) :=
  if !f.opn && s.cur.now < s.cur.release + f.off.toNat then .ok (s, .settled)
  else .ok (s.modCur (fun c => { c with seg := ⟨true, f.opn, c.now, f.cnt.toNat, f.sig.toNat, 0xFFFFFFFF⟩ }), .seq 4)

theorem execSeg_eq (f : FSeg) (s : State) : execSeg f s =
    issue s { words := 4, endsBody := true, pre := fun s => do segLegal s; segOnTime f s, signs := false } (segBody f) := rfl

section
variable {s : State} {f : FSeg}

theorem segLegal_ok (hm : QueueMode s) (hactive : s.cur.seg.active = false) : segLegal s = .ok () := by simp [segLegal, hm.1, hm.2, hactive]

theorem segOnTime_ok (h : f.opn = true ∨ s.cur.now ≤ s.cur.release + f.off.toNat) : segOnTime f s = .ok () := by
  obtain h | h := h
  · simp [segOnTime, h]
  · simp [segOnTime, Nat.not_lt.2 h]

theorem segOnTime_late (hopn : f.opn = false) (h : s.cur.release + f.off.toNat < s.cur.now) :
    segOnTime f s = .error (.trap 0x08 ((s.cur.now - (s.cur.release + f.off.toNat)) % 2 ^ 32)) := by simp [segOnTime, hopn, h]

theorem segBody_opens (h : f.opn = true ∨ s.cur.now = s.cur.release + f.off.toNat) : segBody f s =
    .ok (s.setCur { s.cur with seg := ⟨true, f.opn, s.cur.now, f.cnt.toNat, f.sig.toNat, 0xFFFFFFFF⟩ }, .seq 4) := by
  refine if_neg ?_
  obtain h | h := h
  · simp [h]
  · simp [h]

theorem segBody_waits (hopn : f.opn = false) (h : s.cur.now < s.cur.release + f.off.toNat) : segBody f s = .ok (s, .settled) :=
  if_pos (by simp [hopn, h])

theorem seg_completes {x : Doing} (hx : segmentActs (.seg f) = some x) : Completes (.seg f) s x := by
  cases hx
  refine completes_of _ s _ _ _ (execSeg_eq f s) rfl rfl rfl (fun _ _ => rfl) (fun _ => .inl rfl) (fun hmay hok => ?_) fun _ hok _ => ?_
  · exact (bind_of_ok (segLegal_ok hmay.1 hmay.2) _).trans (segOnTime_ok (hok.imp_right (le_of_eq ·)))
  · rw [popSrcs_nil]
    exact segBody_opens hok

section
variable (hm : QueueMode s) (hg : Unguarded s) (hactive : s.cur.seg.active = false) (hopn : f.opn = false)
include hm hg hactive hopn

theorem seg_late (h : s.cur.release + f.off.toNat < s.cur.now) :
    exec (.seg f) s = .next (takeStop s (.trap 0x08 ((s.cur.now - (s.cur.release + f.off.toNat)) % 2 ^ 32))) :=
  (execSeg_eq f s).trans (issue_check_stop hm.1 hg rfl rfl ((bind_of_ok (segLegal_ok hm hactive) _).trans (segOnTime_late hopn h))
    (notIllegal_trap (by decide) _))

theorem seg_waits (hloop : LoopRule s 4 true) (h : s.cur.now < s.cur.release + f.off.toNat) : exec (.seg f) s = .next s := by
  refine (execSeg_eq f s).trans (issue_ok s _ _ s .settled hg rfl (.inl rfl) ?_ (loopCheck_ok _ _ _ hloop) ?_)
  · exact (bind_of_ok (segLegal_ok hm hactive) _).trans (segOnTime_ok (.inr h.le))
  · exact (congrArg (segBody f) (if_pos (Bool.or_true _))).trans (segBody_waits hopn h)

end
end

/-! ## SEGEND (R29–R31, R117) -/

/-- What SEGEND does once its count agrees: it checks the signature and closes the segment. -/
def segendBody (s : State) : Res (State × Flow) :=
  if !s.cur.seg.opn && (s.cur.seg.sig ^^^ 0xFFFFFFFF) != s.cur.seg.expSig then
    .error (.trap 0x07 ((s.cur.seg.sig ^^^ 0xFFFFFFFF) + s.cur.seg.expSig * 2 ^ 32))
  else
    let t := s.modCur (fun c => { c with seg := { c.seg with active := false } })
    .ok (t.setCurDom { t.curDom with livew := 0 }, .seq 1)

theorem execSegend_eq (s : State) : execSegend s =
    issue s { endsBody := true, pre := fun s => do segendLegal s; segendOnTime s, signs := false } segendBody := rfl

section
variable {s : State}

theorem segendLegal_ok (hm : QueueMode s) (hactive : s.cur.seg.active = true) : segendLegal s = .ok () := by
  simp [segendLegal, hm.1, hm.2, hactive]

theorem segendOnTime_ok (h : s.cur.seg.opn = true ∨ s.cur.now = s.cur.seg.start + s.cur.seg.cnt) : segendOnTime s = .ok () := by
  obtain h | h := h
  · simp [segendOnTime, h]
  · simp [segendOnTime, h]

theorem segendOnTime_off (hopn : s.cur.seg.opn = false) (h : s.cur.now ≠ s.cur.seg.start + s.cur.seg.cnt) :
    segendOnTime s = .error (.trap 0x06 ((s.cur.now - s.cur.seg.start) % 2 ^ 32)) := by simp [segendOnTime, hopn, h]

/-- The segment of the current context ends, and LIVEW of its domain starts again (R117, R384). -/
theorem segendBody_closes (h : s.cur.seg.opn = true ∨ s.cur.seg.sig ^^^ 0xFFFFFFFF = s.cur.seg.expSig) : segendBody s =
    let v := s.setCur { s.cur with seg := { s.cur.seg with active := false } }
    .ok (v.setCurDom { v.curDom with livew := 0 }, .seq 1) := by
  refine if_neg ?_
  obtain h | h := h
  · simp [h]
  · simp [h]

theorem segendBody_wrong (hopn : s.cur.seg.opn = false) (h : s.cur.seg.sig ^^^ 0xFFFFFFFF ≠ s.cur.seg.expSig) : segendBody s =
    .error (.trap 0x07 ((s.cur.seg.sig ^^^ 0xFFFFFFFF) + s.cur.seg.expSig * 2 ^ 32)) := if_pos (by simp [hopn, h])

theorem segend_completes {x : Doing} (hx : segmentActs .segend = some x) : Completes .segend s x := by
  cases hx
  refine completes_of _ s _ _ _ (execSegend_eq s) rfl rfl rfl (fun _ _ => rfl) (fun _ => .inl rfl) (fun hmay hok => ?_) fun _ hok _ => ?_
  · exact (bind_of_ok (segendLegal_ok hmay.1 hmay.2) _).trans (segendOnTime_ok (hok.imp_right (·.1)))
  · rw [popSrcs_nil]
    exact segendBody_closes (hok.imp_right (·.2))

section
variable (hm : QueueMode s) (hg : Unguarded s) (hactive : s.cur.seg.active = true) (hopn : s.cur.seg.opn = false)
include hm hg hactive hopn

theorem segend_off (h : s.cur.now ≠ s.cur.seg.start + s.cur.seg.cnt) :
    exec .segend s = .next (takeStop s (.trap 0x06 ((s.cur.now - s.cur.seg.start) % 2 ^ 32))) :=
  (execSegend_eq s).trans (issue_check_stop hm.1 hg rfl rfl ((bind_of_ok (segendLegal_ok hm hactive) _).trans (segendOnTime_off hopn h))
    (notIllegal_trap (by decide) _))

theorem segend_wrong (hloop : LoopRule s 1 true) (htime : s.cur.now = s.cur.seg.start + s.cur.seg.cnt)
    (h : s.cur.seg.sig ^^^ 0xFFFFFFFF ≠ s.cur.seg.expSig) :
    exec .segend s = .next (takeStop s (.trap 0x07 ((s.cur.seg.sig ^^^ 0xFFFFFFFF) + s.cur.seg.expSig * 2 ^ 32))) := by
  refine (execSegend_eq s).trans (issue_stop s _ _ _ hm.1 hg rfl (.inl rfl) ?_ (loopCheck_ok _ _ _ hloop) ?_)
  · exact (bind_of_ok (segendLegal_ok hm hactive) _).trans (segendOnTime_ok (.inr htime))
  · exact (congrArg segendBody (if_pos (Bool.or_true _))).trans (segendBody_wrong hopn h)

end
end

/-! ## SLATH and WBRD (R25, R119) -/

theorem slath_completes {s : State} {x : Doing} (hx : segmentActs .slath = some x) : Completes .slath s x := by
  cases hx
  refine completes_of _ s _ _ _ (show execSlath s = issue s _ _ from rfl) rfl rfl rfl (fun _ _ => rfl)
    (fun hmay => .inr (queueMode_not_handler hmay.1)) (fun _ _ => rfl) fun hmay _ _ => ?_
  rw [popSrcs_nil]
  exact if_neg (by rw [atIssue_unsigned _ _ rfl, hmay.2]; decide)

theorem wbrd_completes {f : FD} {s : State} {x : Doing} (hx : segmentActs (.wbrd f) = some x) : Completes (.wbrd f) s x := by
  cases hx
  refine completes_of _ s _ _ _ (show execWbrd f s = issue s _ _ from rfl) rfl rfl rfl (fun _ _ => rfl) (fun _ => .inl rfl) (fun hmay _ => ?_)
    fun _ hok _ => ?_
  · refine if_pos ?_
    obtain hsys | hm := hmay
    · simp [show s.onSys = true from hsys]
    · simp [hm.2]
  · rw [popSrcs_nil]
    exact bind_of_ok (dstOk_ready _ _ hok) _

/-! ## The running signature (R30, R117) -/

theorem signed_queue {s : State} (hm : QueueMode s) (n : Nat) : signed s n =
    if s.cur.seg.active = true ∧ s.cur.seg.opn = false then
      let word (k : Nat) := s.fetchWord s.curCore (s.slotOf s.curCore) (s.cur.pc + k)
      s.setCur { s.cur with seg := { s.cur.seg with sig := crcWord s.cur.seg.sig (word 0) }, sigNext := if n = 2 then some (word 1) else none }
    else s := by
  obtain ⟨hsys, hhandler⟩ := hm
  unfold signed signWords
  rw [hsys, hhandler, if_neg Bool.false_ne_true]
  exact if_congr (by simp) rfl rfl

theorem enterSig_due {s : State} {w : Nat} (h : s.cur.sigNext = some w) :
    enterSig s = s.setCur { s.cur with sigNext := none, seg := { s.cur.seg with sig := crcWord s.cur.seg.sig w } } := by
  unfold enterSig
  rw [h]
  rfl

/-! ## The obligation -/

theorem segmentActs_complete (i : Instr) (s : State) (x : Doing) (hx : segmentActs i = some x) : Completes i s x := by
  cases i
  case seg f => exact seg_completes hx
  case segend => exact segend_completes hx
  case slath => exact slath_completes hx
  case wbrd f => exact wbrd_completes hx
  all_goals cases hx

/-- Settles O15: each instruction completes by the common form, and each trap is that of the one check that fails: legality, then time, then signature. -/
theorem segmentRules : Obligations.SegmentRules := by
  unfold Obligations.SegmentRules
  exact ⟨segmentActs_complete,
    fun f s hm hg hactive hloop hopn => ⟨seg_late hm hg hactive hopn, seg_waits hm hg hactive hopn hloop⟩,
    fun s hm hg hactive hloop hopn => ⟨segend_off hm hg hactive hopn, segend_wrong hm hg hactive hopn hloop⟩,
    fun f s hs hg => ⟨seg_illegal hg f hs, segend_illegal hg hs⟩, fun s n hm => signed_queue hm n, fun s w h => enterSig_due h⟩

end Sys2Proof.Machine
end

section
/-! PROOFS. The elementwise instructions of the vector unit complete: each is an operation on vector sources that pass their checks (R133–R143). -/

namespace Sys2Proof.Machine
open Sys2Proof.Claims

/-! ## Sources that are popped or tapped -/

/-- Contexts that differ in nothing but their w queues and their streams. -/
structure VectorPopped (c d : Ctx) : Prop where
  ctx : d = { c with w := d.w, strms := d.strms }

namespace VectorPopped

theorem setW (c : Ctx) (n : Nat) (es : List WEntry) : VectorPopped c (setW c n es) := ⟨rfl⟩

theorem moveCursor (c : Ctx) (strm : Nat) (l : LaneSlot) : VectorPopped c (moveCursor c strm l) := by
  unfold Machine.moveCursor
  split <;> exact ⟨rfl⟩

theorem foldl {α : Type} {f : Ctx → α → Ctx} (hf : ∀ c x, VectorPopped c (f c x)) (l : List α) (c : Ctx) : VectorPopped c (l.foldl f c) := by
  induction l generalizing c with
  | nil => exact ⟨rfl⟩
  | cons x l ih =>
    refine ⟨?_⟩
    rw [List.foldl_cons, (ih (f c x)).ctx, (hf c x).ctx]

end VectorPopped

/-- The sources of a vector instruction leave all but the w queues and the cursors of the streams. -/
theorem vpop_popped (s : State) (xs : List VSrc) : VectorPopped s.cur (vpop s xs).cur := by
  unfold vpop
  dsimp only
  rw [State.modCur_cur, State.modCur_cur]
  refine ⟨?_⟩
  rw [(VectorPopped.foldl (fun c x => ?_) xs _).ctx, (VectorPopped.foldl (fun c n => .setW c n _) _ s.cur).ctx]
  split
  · exact .moveCursor ..
  · exact ⟨rfl⟩

/-- The result of a vector instruction, on its way from the cycle and the address of the issue (R134). -/
theorem vresult_vpop (t : State) (xs : List VSrc) (off d : Nat) (v : LaneWord) (fl t3 : Nat) :
    vresult (vpop t xs) off d v fl t3 = (vpop t xs).setCur { (vpop t xs).cur with flight := (vpop t xs).cur.flight ++
      [⟨t.cur.now, t.cur.pc, t.cur.now + off - 1, vdst d v, fl, t3, none, true⟩] } := by
  have hnow : (vpop t xs).cur.now = t.cur.now := by rw [(vpop_popped t xs).ctx]
  have hpc : (vpop t xs).cur.pc = t.cur.pc := by rw [(vpop_popped t xs).ctx]
  rw [← hnow, ← hpc]
  rfl

/-! ## An operation on vector sources -/

/-- What a vector instruction does at its issue: the checks of its fields (R65), its sources, its result. -/
def vopBody (off d : Nat) (srcs : List Nat) (op : Ctx → List VSrc → LaneWord × Flags) (t : State) : Res State := do
  if !(srcs.all (srcStreamOk t.cur) && dstStreamOk t.cur d) then throw (illegal 0x07)
  let xs ← gather (srcs.map (vread t))
  let r := op t.cur xs
  return vresult (vpop t xs) off d r.1 r.2 0

theorem vop_eq (s : State) (off d : Nat) (srcs : List Nat) (op : Ctx → List VSrc → LaneWord × Flags) :
    vop s off d srcs op = issue1 s false (vopBody off d srcs op) := rfl

theorem vopBody_ok {t : State} {off d : Nat} {srcs : List Nat} {op : Ctx → List VSrc → LaneWord × Flags} {xs : List VSrc}
    (hsrcs : ∀ f ∈ srcs, srcStreamOk t.cur f = true) (hd : dstStreamOk t.cur d = true) (hxs : gather (srcs.map (vread t)) = .ok xs) :
    vopBody off d srcs op t = .ok (vresult (vpop t xs) off d (op t.cur xs).1 (op t.cur xs).2 0) := by
  have hfields : srcs.all (srcStreamOk t.cur) = true := List.all_eq_true.2 hsrcs
  unfold vopBody
  rw [hfields, hd, hxs]
  rfl

theorem vecAct_eff {t : State} {off d : Nat} {srcs : List Nat} {op : Ctx → List VSrc → LaneWord × Flags} {xs : List VSrc}
    (hxs : gather (srcs.map (vread t)) = .ok xs) (u : State) (vs : List Word) :
    (vecAct off d srcs op).eff t u vs = vresult (vpop t xs) off d (op t.cur xs).1 (op t.cur xs).2 0 := by
  rw [vresult_vpop]
  unfold vecAct
  dsimp only
  rw [hxs]

section
variable {i : Instr} {s : State}

/-- A one-word instruction of queue mode whose body does what is said. -/
theorem issue1_completes {x : Doing} {body : State → Res State} (he : exec i s = issue1 s false body) (hwords : x.words = 1)
    (hsigns : x.signs = true) (hends : x.ends = false) (hmay : x.may s → QueueMode s) (hflow : ∀ t vs, x.flow t vs = .seq 1)
    (hb : ∀ t, x.ok t (srcValues s x.srcs) → srcVals t x.srcs = .ok (srcValues s x.srcs) →
      body t = .ok (x.eff t (popSrcs t x.srcs) (srcValues s x.srcs))) : Completes i s x := by
  refine completes_of i s x { handlerOk := false } _ he hwords.symm hsigns.symm hends.symm (fun _ _ => rfl)
    (fun hm => .inr (queueMode_not_handler (hmay hm))) (fun _ _ => rfl) fun _ hok hvals => ?_
  rw [hflow]
  exact bind_of_ok (hb _ hok hvals) _

/-- An instruction that is one operation on vector sources, and what it then does. -/
inductive IsVop (i : Instr) (s : State) : Doing → Prop where
  | intro {off d : Nat} {srcs : List Nat} {op : Ctx → List VSrc → LaneWord × Flags} (he : exec i s = vop s off d srcs op) :
    IsVop i s (vecAct off d srcs op)

theorem IsVop.completes {x : Doing} (h : IsVop i s x) : Completes i s x := by
  obtain ⟨he⟩ := h
  refine issue1_completes (he.trans (vop_eq ..)) rfl rfl rfl id (fun _ _ => rfl) fun t hok _ => ?_
  obtain ⟨hsrcs, hd, xs, hxs⟩ := hok
  exact (vopBody_ok hsrcs hd hxs).trans (congrArg Except.ok (vecAct_eff hxs ..).symm)

/-- An operation that is said in other words. -/
theorem IsVop.of_eq {off d : Nat} {srcs : List Nat} {op op' : Ctx → List VSrc → LaneWord × Flags} (he : exec i s = vop s off d srcs op)
    (hop : ∀ c xs, op c xs = op' c xs) : IsVop i s (vecAct off d srcs op') := by
  obtain rfl : op = op' := funext₂ hop
  exact .intro he

theorem v3_isVop {f : FV3} {off : Nat} {op op' : Ctx → Nat → Nat → Nat → Nat × Flags} {x : Doing} (hx : elem2 f off op' = some x)
    (he : exec i s = v3 f s off op) (hop : ∀ c m a b, op c m a b = op' c m a b) : IsVop i s x := by
  cases hx
  exact .of_eq he fun c xs => congrArg (map2 _ · xs) (funext₂ (hop c _))

theorem vbits_isVop {f : FV3} {op op' : Nat → Nat → Nat → Nat} {x : Doing} (hx : elemBits f op' = some x)
    (he : exec i s = vbits f s op) (hop : ∀ w a b, op w a b = op' w a b) : IsVop i s x :=
  v3_isVop hx he fun c m a b => by rw [hop]

theorem vcmp_isVop {f : FV3} {rel : Val → Val → Bool} {nan : Bool} {fl : Flags} {x : Doing} (hx : elemCmp f rel nan fl = some x)
    (he : exec i s = vcmp f s rel (nan, fl)) : IsVop i s x :=
  v3_isVop hx he fun c m a b => by
    dsimp only
    split <;> rfl

end

/-- Each elementwise instruction is an operation on its sources; a shift is a product or quotient by a power of two, a compare one of the
decoded values. -/
theorem elementActs_isVop {i : Instr} {x : Doing} (hx : elementActs i = some x) (s : State) : IsVop i s x := by
  cases i
  case vadd | vsub | vdiff | vmul | vfma | vfms | vmin | vmax | vabs | vneg | vadds | vsubs | vmulhi | vrcp | vrsq | vsqrt | vexp2 | vlog2
    | vfloor | vround | vscale | vpopc | vsel | vand | vor | vxor | vandn | vsra =>
    cases hx
    exact .intro rfl
  case vshl =>
    dsimp only [elementActs] at hx
    exact vbits_isVop (op := fun w a b => a <<< (b % w)) hx rfl fun _ _ _ => Nat.shiftLeft_eq ..
  case vshr =>
    dsimp only [elementActs] at hx
    exact vbits_isVop (op := fun w a b => a >>> (b % w)) hx rfl fun _ _ _ => Nat.shiftRight_eq_div_pow ..
  case vceq | vcne | vclt | vcle | vcun =>
    dsimp only [elementActs] at hx
    exact vcmp_isVop hx rfl
  all_goals cases hx

/-- Settles O28: each instruction is one operation on vector sources, and such an operation completes. -/
theorem vectorElementwise : Obligations.VectorElementwise := by
  unfold Obligations.VectorElementwise
  exact fun i s x hx => (elementActs_isVop hx s).completes

end Sys2Proof.Machine
end

section
/-! PROOFS. Integer elements are added, subtracted and multiplied exactly, then wrapped or saturated (R138, R140, R169, R175). -/

namespace Sys2Proof.Machine
open Sys2Proof.Claims

/-! ## The bounds of a signed width -/

theorem ofInt_max {w : Nat} (hw : 0 < w) : ofInt w (2 ^ (w - 1) - 1) = 2 ^ (w - 1) - 1 := by
  have hdouble : 2 ^ w = 2 * 2 ^ (w - 1) := (mul_pow_sub_one hw.ne' 2).symm
  have hcast : (2 ^ (w - 1) : Int) = ((2 ^ (w - 1) : Nat) : Int) := by push_cast; rfl
  have hpos : 0 < 2 ^ (w - 1) := Nat.two_pow_pos _
  unfold ofInt
  rw [hdouble, hcast]
  generalize 2 ^ (w - 1) = h at *
  rw [Int.emod_eq_of_lt (by omega) (by omega)]
  omega

theorem ofInt_min {w : Nat} (hw : 0 < w) : ofInt w (-2 ^ (w - 1)) = 2 ^ (w - 1) := by
  have hdouble : 2 ^ w = 2 * 2 ^ (w - 1) := (mul_pow_sub_one hw.ne' 2).symm
  have hcast : (2 ^ (w - 1) : Int) = ((2 ^ (w - 1) : Nat) : Int) := by push_cast; rfl
  have hpos : 0 < 2 ^ (w - 1) := Nat.two_pow_pos _
  unfold ofInt
  rw [hdouble, hcast]
  generalize 2 ^ (w - 1) = h at *
  rw [← Int.add_emod_right, Int.emod_eq_of_lt (by omega) (by omega)]
  omega

/-! ## Exact results in a format -/

/-- What becomes of an exact result of `w` bits: it stands where it fits, else it wraps or is the nearest bound (R169). -/
def WrapsOrSaturates (w : Nat) (sat : Bool) (z : Int) (r : Nat × Flags) : Prop :=
  let fits := -(2 ^ (w - 1) : Int) ≤ z ∧ z < 2 ^ (w - 1)
  (fits → r = (ofInt w z, 0)) ∧ (¬ fits → sat = false → r.1 = ofInt w z)
    ∧ (sat = true → z ≥ 2 ^ (w - 1) → r.1 = 2 ^ (w - 1) - 1) ∧ (sat = true → z < -(2 ^ (w - 1) : Int) → r.1 = 2 ^ (w - 1))

/-- The formats INT32, INT16 and INT8 hold the integers of their width. -/
theorem intBounds_signed {m : Nat} (hm : m ∈ [0x0A, 0x0B, 0x0C]) :
    0 < fmtWidth m ∧ intBounds m = (-2 ^ (fmtWidth m - 1), 2 ^ (fmtWidth m - 1) - 1) := by
  revert m
  decide

theorem ifit_signed {m : Nat} (hm : m ∈ [0x0A, 0x0B, 0x0C]) (z : Int) (sat : Bool) : WrapsOrSaturates (fmtWidth m) sat z (ifit m z sat) := by
  obtain ⟨hw, hbounds⟩ := intBounds_signed hm
  have hmax := ofInt_max hw
  have hmin := ofInt_min hw
  have hpos : (0 : Int) < 2 ^ (fmtWidth m - 1) := by positivity
  unfold WrapsOrSaturates ifit
  rw [hbounds]
  dsimp only
  refine ⟨fun hfits => ?_, fun hfits hsat => ?_, fun hsat hz => ?_, fun hsat hz => ?_⟩
  · rw [if_pos (by omega)]
  · rw [if_neg (by omega), hsat]
    rfl
  · rw [if_neg (by omega), if_pos hsat, if_neg (by omega)]
    exact hmax
  · rw [if_neg (by omega), if_pos hsat, if_pos hz]
    exact hmin

theorem isIntFmt_signed {m : Nat} (hm : m ∈ [0x0A, 0x0B, 0x0C]) : isIntFmt m = true := by
  revert m
  decide

/-- Settles O31: the three operations fit the exact result into the format, and what fitting does is `ifit_signed`. -/
theorem vectorIntegers : Obligations.VectorIntegers := by
  unfold Obligations.VectorIntegers
  intro c m a b hm _ _
  have hint := isIntFmt_signed hm
  have hout := fun z => ifit_signed hm z (vrmSat c)
  have hadd : elemAdd c m false a b = ifit m (decodeInt m a + decodeInt m b) (vrmSat c) := if_pos hint
  have hsub : elemAdd c m true a b = ifit m (decodeInt m a - decodeInt m b) (vrmSat c) := if_pos hint
  have hmul : elemMul c m a b = ifit m (decodeInt m a * decodeInt m b) (vrmSat c) := if_pos hint
  rw [hadd, hsub, hmul]
  exact ⟨hout _, hout _, hout _⟩

end Sys2Proof.Machine
end

section
/-! PROOFS. Reductions, conversion, permutes, unpacking, queue moves and fills of vectors complete (R144–R153). -/

namespace Sys2Proof.Machine
open Sys2Proof.Claims

section
variable {i : Instr} {s : State}

/-- The extreme of the elements themselves (R145). -/
theorem vext_isVop {f : FV2} {larger : Bool} {x : Doing} (hx : extreme f larger = some x)
    (he : exec i s = vext f s (fun _ e => e) larger) : IsVop i s x := by
  cases hx
  refine .of_eq he fun c xs => ?_
  dsimp only
  rw [List.map_id'] <;> rfl

/-! ## Queue moves (R152) -/

/-- What VTOQ does at its issue: elements of its source go to the queues as words (R152). -/
def vtoqBody (f : FVtoq) (t : State) : Res State := do
  let x ← vread t f.w.toNat
  let m := fmt3 f.fmt.toNat
  let k := 8 * f.k3.toNat + f.k.toNat
  return resultWide (vpop t [x]) 2 (32 + f.q.toNat) ((((elemsOf m x.word).drop (k * 2 ^ f.wd.toNat)).take (2 ^ f.wd.toNat)).map fun v =>
    if isIntFmt m then BitVec.ofInt 64 (decodeInt m v) else BitVec.ofNat 64 v)

theorem execVtoq_eq (f : FVtoq) (s : State) : execVtoq f s = issue1 s false (vtoqBody f) := rfl

/-- A wide result of popped vector sources, on its way from the cycle and the address of the issue. -/
theorem resultWide_vpop (t : State) (xs : List VSrc) (off d : Nat) (vs : List Word) :
    resultWide (vpop t xs) off d vs = (vpop t xs).setCur { (vpop t xs).cur with flight := (vpop t xs).cur.flight ++
      [onWay t off (.pushQ d vs) 0] } := by
  have hway : onWay t off (.pushQ d vs) 0 = onWay (vpop t xs) off (.pushQ d vs) 0 := by
    unfold onWay
    rw [(vpop_popped t xs).ctx]
  rw [hway]
  rfl

theorem vtoq_completes {f : FVtoq} {x : Doing} (hx : wordActs (.vtoq f) = some x) : Completes (.vtoq f) s x := by
  cases hx
  refine issue1_completes (execVtoq_eq f s) rfl rfl rfl id (fun _ _ => rfl) fun t hok _ => ?_
  obtain ⟨y, hy⟩ := hok
  refine (bind_of_ok hy _).trans ?_
  dsimp only
  rw [hy]
  exact congrArg Except.ok (resultWide_vpop ..)

/-- The queues that VFROMQ takes its words from. -/
def vfromqSrcs (f : FVfromq) : List Src := (List.range (2 ^ f.wd.toNat)).map fun i => (32 + f.q.toNat + i, false)

/-- What VFROMQ does at its issue: the words of its queues become elements of its result (R152). -/
def vfromqBody (f : FVfromq) (t : State) : Res State := do
  let vs ← srcVals t (vfromqSrcs f)
  let m := fmt3 f.fmt.toNat
  let k := 8 * f.k3.toNat + f.k.toNat
  return vresult (popSrcs t (vfromqSrcs f)) 2 f.w.toNat
    (wordOf m (List.replicate (k * 2 ^ f.wd.toNat) 0 ++ vs.map fun v => v.toNat % 2 ^ fmtWidth m)) 0 0

theorem execVfromq_eq (f : FVfromq) (s : State) : execVfromq f s = issue1 s false (vfromqBody f) := rfl

/-- A vector result of popped queues, on its way from the cycle and the address of the issue. -/
theorem vresult_popSrcs (t : State) (fs : List Src) (off d : Nat) (v : LaneWord) (fl t3 : Nat) :
    vresult (popSrcs t fs) off d v fl t3 = (popSrcs t fs).setCur { (popSrcs t fs).cur with flight := (popSrcs t fs).cur.flight ++
      [⟨t.cur.now, t.cur.pc, t.cur.now + off - 1, vdst d v, fl, t3, none, true⟩] } := by
  have hnow : (popSrcs t fs).cur.now = t.cur.now := by rw [popSrcs_cur]
  have hpc : (popSrcs t fs).cur.pc = t.cur.pc := by rw [popSrcs_cur]
  rw [← hnow, ← hpc]
  rfl

theorem vfromq_completes {f : FVfromq} {x : Doing} (hx : wordActs (.vfromq f) = some x) : Completes (.vfromq f) s x := by
  cases hx
  refine issue1_completes (execVfromq_eq f s) rfl rfl rfl id (fun _ _ => rfl) fun t _ hvals => ?_
  exact (bind_of_ok hvals _).trans (congrArg Except.ok (vresult_popSrcs ..))

/-! ## VUNPK3 (R149) -/

/-- The trits at a place of the bytes of a source, none for a byte that is no T3 code. -/
def tritsOf (p : Nat) (x : VSrc) : List (Option Nat) := (fieldsOf 8 128 x.word.toNat).map (tritOf p)

/-- The body of VUNPK3: with MODE.T3TRAP an illegal byte stops it in the state `s` before the issue, where the record takes effect. -/
def vunpk3Body (f : FVp) (s t : State) : Res (State × Flow) := do
  if !(srcStreamOk t.cur f.va.toNat && dstStreamOk t.cur f.vd.toNat) then throw (illegal 0x07)
  let x ← vread t f.va.toNat
  let n := ((tritsOf f.p.toNat x).filter Option.isNone).length
  if n ≠ 0 ∧ bitB t.cur.mode.toNat 1 then
    return (takeStop (s.modCur fun c => addT3 (orFlags c fT3) n) (.trap 0x19 ((tritsOf f.p.toNat x).findIdx Option.isNone)), .settled)
  return (vresult (vpop t [x]) 2 f.vd.toNat (BitVec.ofNat 1024 (ofFields 8 ((tritsOf f.p.toNat x).map (·.getD 0)))) (if n = 0 then 0 else fT3) n,
    .seq 1)

theorem execVunpk3_eq (f : FVp) (s : State) : execVunpk3 f s = issue s { handlerOk := false } (vunpk3Body f s) := rfl

/-- No byte is illegal, or none traps. -/
theorem vunpk3Body_ok {f : FVp} {s t : State} {x : VSrc} (hsrc : srcStreamOk t.cur f.va.toNat = true) (hd : dstStreamOk t.cur f.vd.toNat = true)
    (hx : vread t f.va.toNat = .ok x) (htrits : t.cur.mode.getLsbD 1 = true → none ∉ tritsOf f.p.toNat x) :
    vunpk3Body f s t = .ok (vresult (vpop t [x]) 2 f.vd.toNat (BitVec.ofNat 1024 (ofFields 8 ((tritsOf f.p.toNat x).map (·.getD 0))))
      (if ((tritsOf f.p.toNat x).filter Option.isNone).length = 0 then 0 else fT3) ((tritsOf f.p.toNat x).filter Option.isNone).length, .seq 1) := by
  have hgoes : ¬ (((tritsOf f.p.toNat x).filter Option.isNone).length ≠ 0 ∧ bitB t.cur.mode.toNat 1 = true) := by
    rintro ⟨hn, hmode⟩
    rw [bitB_testBit] at hmode
    refine hn (List.length_eq_zero_iff.2 (List.filter_eq_nil_iff.2 fun o ho hnone => htrits hmode ?_))
    rwa [Option.isNone_iff_eq_none.1 hnone] at ho
  unfold vunpk3Body
  rw [hsrc, hd, hx]
  exact if_neg hgoes

theorem vunpk3_completes {f : FVp} {x : Doing} (hx : wordActs (.vunpk3 f) = some x) : Completes (.vunpk3 f) s x := by
  cases hx
  refine completes_of _ s _ _ _ (execVunpk3_eq f s) rfl rfl rfl (fun _ _ => rfl) (fun hmay => .inr (queueMode_not_handler hmay))
    (fun _ _ => rfl) fun _ hok _ => ?_
  obtain ⟨hsrc, hd, y, hy, htrits⟩ := hok
  refine (vunpk3Body_ok hsrc hd hy htrits).trans ?_
  dsimp only
  rw [hy]
  exact congrArg (fun u => Except.ok (u, Flow.seq 1)) (vresult_vpop ..)

end

/-- The instructions that are no single operation on vector sources. -/
def MovesVector (i : Instr) : Prop := (∃ f, i = .vunpk3 f) ∨ (∃ f, i = .vtoq f) ∨ ∃ f, i = .vfromq f

theorem wordActs_isVop {i : Instr} {x : Doing} (hx : wordActs i = some x) (s : State) : MovesVector i ∨ IsVop i s x := by
  cases i
  case vunpk3 f => exact .inl (.inl ⟨f, rfl⟩)
  case vtoq f => exact .inl (.inr (.inl ⟨f, rfl⟩))
  case vfromq f => exact .inl (.inr (.inr ⟨f, rfl⟩))
  case vsum | vsumsq | vdot | vamaxr | vcvt | vbcast | vzip | vunzip | vrev | vshufl | vrotl | vunpk4 | viota | vzero =>
    cases hx
    exact .inr (.intro rfl)
  case vmaxr | vminr =>
    dsimp only [wordActs] at hx
    exact .inr (vext_isVop hx rfl)
  all_goals cases hx

/-- Settles O29: but for VUNPK3, VTOQ and VFROMQ, whose bodies are their own, each instruction is one operation on vector sources. -/
theorem vectorWords : Obligations.VectorWords := by
  unfold Obligations.VectorWords
  intro i s x hx
  obtain (⟨f, rfl⟩ | ⟨f, rfl⟩ | ⟨f, rfl⟩) | h := wordActs_isVop hx s
  · exact vunpk3_completes hx
  · exact vtoq_completes hx
  · exact vfromq_completes hx
  · exact h.completes

end Sys2Proof.Machine
end

section
/-! PROOFS. In handler mode the commands of the vector unit, the matrix array and the quantisation engine, the paged accesses and RSTQ are illegal
(R138, R205, R244, R265, R291, R319): nothing that their issue meets is an ILLEGAL of a lower class. -/

namespace Sys2Proof.Machine
open Sys2Proof.Claims

/-! ## Vector sources -/

theorem footCheck_notIllegal (c : Ctx) (eng : Nat) (wr : Bool) (space : Nat) (gs : List Nat) : StopsAre NotIllegal (footCheck c eng wr space gs) := by
  rw [footCheck_eq]
  split
  · exact .ok _
  · exact .error (notIllegal_trap (by decide) _)

theorem tapSlot_notIllegal (s : State) (strm station eng : Nat) : StopsAre NotIllegal (tapSlot s strm station eng) := by
  have hlane : ∀ b, StopsAre NotIllegal (.error (.trap 0x04 b) : Res (LaneSlot × List Nat)) := fun b => .error (notIllegal_trap (by decide) b)
  unfold tapSlot
  dsimp only
  split
  · exact hlane _
  · split
    · exact .ite (.bind (footCheck_notIllegal ..) fun _ => .pure _) (.ite (hlane _) (hlane _))
    · exact .ite (hlane _) (hlane _)

theorem tapPoison_notIllegal (x : LaneSlot × List Nat) : StopsAre NotIllegal (tapPoison x) := by
  unfold tapPoison
  dsimp only
  split
  · exact .error (notIllegal_trap (by decide) _)
  · exact .ok _

theorem vread_notIllegal (s : State) (f : Nat) : StopsAre NotIllegal (vread s f) := by
  unfold vread
  refine .ite ?_ (.bind (.bind (tapSlot_notIllegal ..) fun x => tapPoison_notIllegal x) fun _ => .pure _)
  split
  · exact .error (notIllegal_trap (by decide) _)
  · split
    · exact .error (notIllegal_trap (by decide) _)
    · exact .ok _

theorem vread_afterMode (s : State) (f : Nat) : AfterMode (vread s f) := (vread_notIllegal s f).classFrom _

/-- A stream of the wrong direction (R65). -/
theorem wrongStream_afterMode : ClassFrom 0x03 (illegal 0x07) := classFrom_illegal (by decide)

theorem vopBody_afterMode (off d : Nat) (srcs : List Nat) (op : Ctx → List VSrc → LaneWord × Flags) (t : State) :
    AfterMode (vopBody off d srcs op t) := by
  have hread : AfterMode (gather (srcs.map (vread t))) := by
    refine (gather_notIllegal fun r hr => ?_).classFrom _
    obtain ⟨f, _, rfl⟩ := List.mem_map.1 hr
    exact vread_notIllegal ..
  exact .ite (.throw_bind wrongStream_afterMode) (.bind hread fun _ => .pure _)

theorem vunpk3Body_afterMode (f : FVp) (s t : State) : AfterMode (vunpk3Body f s t) :=
  .ite (.throw_bind wrongStream_afterMode) (.bind (vread_afterMode ..) fun _ => .ite (.pure _) (.pure _))

/-! ## Operands of paged accesses -/

theorem peekCheck_afterMode {s : State} {f : Src} {chk : Word → Res Unit} (h : ∀ x, AfterMode (chk x)) : AfterMode (peekCheck s f chk) := by
  unfold peekCheck
  split
  · exact h _
  · exact .ok _

theorem illegalOp_afterMode {cls : Nat} (h3 : 0x03 ≤ cls) (hcls : cls < 256) (reason x : Nat) : ClassFrom 0x03 (illegalOp cls reason x) := by
  rintro b ⟨⟩
  omega

theorem operandFirst_afterMode {cls : Nat} (h3 : 0x03 ≤ cls) (hcls : cls < 256) (s : State) (a : Src) (ok : Nat → Bool) (reason : Nat) :
    AfterMode (operandFirst s a ok cls reason) :=
  peekCheck_afterMode fun _ => .ite (.ok _) (.error (illegalOp_afterMode h3 hcls _ _))

theorem lotRoom_afterMode (s : State) (x : Nat) : AfterMode (lotRoom s x) := by
  unfold lotRoom
  exact .ite (.error (illegalOp_afterMode (by decide) (by decide) _ _)) (.ok _)

theorem vaCheck_afterMode (a x : Nat) : AfterMode (vaCheck a x) := by
  unfold vaCheck
  exact .ite (.error (illegalOp_afterMode (by decide) (by decide) _ _)) (.ok _)

theorem vaAligned_afterMode (a size x : Nat) : AfterMode (vaAligned a size x) := by
  unfold vaAligned
  exact .ite (.error (illegalOp_afterMode (by decide) (by decide) _ _)) (.ok _)

theorem storeAddrFirst_afterMode (s : State) (a : Src) (addr : Word → Nat) (size : Nat) : AfterMode (storeAddrFirst s a addr size) :=
  .bind (peekCheck_afterMode fun _ => .bind (vaCheck_afterMode ..) fun _ => vaAligned_afterMode ..) fun _ => .ite (.pure _) (lotRoom_afterMode ..)

theorem bodyState_onSys {s : State} {r : IssueRule} (h : r.signs = true) : (bodyState s r).onSys = s.onSys := by
  rw [bodyState_signs h, signed_onSys]

/-! ## Tiles and streams of commands -/

theorem closedCheck_notIllegal (c : Ctx) (station : Nat) (ss : List Nat) : StopsAre NotIllegal (closedCheck c station ss) := by
  unfold closedCheck
  split
  · exact .error (notIllegal_trap (by decide) _)
  · exact .ok _

theorem dirtyCheck_notIllegal (s : State) (eng : Nat) (tiles : List Nat) (w : Nat) : StopsAre NotIllegal (dirtyCheck s eng tiles w) := by
  unfold dirtyCheck
  split
  · exact .error (notIllegal_trap (by decide) _)
  · exact .ok _

theorem tileChecks_notIllegal (s : State) (reads writes : List Nat) (w : Nat) : StopsAre NotIllegal (tileChecks s reads writes w) :=
  .bind (footCheck_notIllegal ..) fun _ => .bind (footCheck_notIllegal ..) fun _ => dirtyCheck_notIllegal ..

theorem tilePoison_notIllegal (s : State) (tile : Nat) (rows : List Nat) : StopsAre NotIllegal (tilePoison s tile rows) := by
  unfold tilePoison
  split
  · exact .error (notIllegal_trap (by decide) _)
  · exact .ok _

theorem chainPoison_notIllegal (s : State) (issue tile : Nat) (rows : List Nat) : StopsAre NotIllegal (chainPoison s issue tile rows) :=
  tilePoison_notIllegal ..

theorem quantIllegal_afterMode (reason rid operand : Nat) : ClassFrom 0x03 (quantIllegal reason rid operand) := classFrom_illegal (by omega)

theorem blockSide_afterMode (st : Strm) : AfterMode (blockSide st) := by
  unfold blockSide
  exact .ite (.error (classFrom_illegal (by omega))) (.ok _)

theorem qzeStreams_afterMode (s : State) (sa sd : Nat) : AfterMode (qzeStreams s sa sd) := by
  refine .bind ((closedCheck_notIllegal ..).classFrom _) fun _ => ?_
  split
  · exact .ite (.throw wrongStream_afterMode) (.pure _)
  · exact .throw ((notIllegal_trap (by decide) _).classFrom _)

theorem busyCheck_free {s : State} {station : Nat} (h : s.cur.freeAt.getD station 0 ≤ s.cur.now) : busyCheck station s = .ok () :=
  if_neg (Nat.not_lt.2 h)

/-! ## The instructions -/

section
variable {s : State} (hm : HandlerMode s) (hg : Unguarded s)
include hm hg

theorem issue1_forbidden {body : State → Res State} (hb : ∀ t, AfterMode (body t)) : issue1 s false body = .next (takeTrap s 0x01 0x0003) :=
  issue_forbidden hg rfl (.bind (hb _) fun _ => .pure _) hm rfl

theorem IsVop.forbidden {i : Instr} {x : Doing} (h : IsVop i s x) : exec i s = .next (takeTrap s 0x01 0x0003) := by
  obtain ⟨he⟩ := h
  exact (he.trans (vop_eq ..)).trans (issue1_forbidden hm hg fun t => vopBody_afterMode _ _ _ _ t)

theorem word_forbidden {i : Instr} {x : Doing} (hx : wordActs i = some x) : exec i s = .next (takeTrap s 0x01 0x0003) := by
  obtain (⟨f, rfl⟩ | ⟨f, rfl⟩ | ⟨f, rfl⟩) | h := wordActs_isVop hx s
  · exact (execVunpk3_eq f s).trans (issue_forbidden hg rfl (vunpk3Body_afterMode ..) hm rfl)
  · exact (execVtoq_eq f s).trans (issue1_forbidden hm hg fun _ => .bind (vread_afterMode ..) fun _ => .pure _)
  · exact (execVfromq_eq f s).trans (issue1_forbidden hm hg fun _ => .bind (srcVals_afterMode ..) fun _ => .pure _)
  · exact h.forbidden hm hg

theorem loadIssue_forbidden (f : FLs) (size : Nat) (sign : Bool) : loadIssue f size sign s = .next (takeTrap s 0x01 0x0003) := by
  unfold loadIssue
  refine issue_forbidden hg rfl ?_ hm rfl
  refine .bind (srcVals_afterMode ..) fun _ => .bind (vaCheck_afterMode ..) fun _ => .bind (vaAligned_afterMode ..) fun _ => ?_
  dsimp only
  rw [bodyState_onSys rfl, hm.1]
  exact .pure _

theorem storeIssue_forbidden (f : FLs) (size : Nat) : storeIssue f size s = .next (takeTrap s 0x01 0x0003) := by
  unfold storeIssue
  refine issue_forbidden hg rfl ?_ hm rfl
  refine .bind (storeAddrFirst_afterMode ..) fun _ => .bind (srcVals_afterMode ..) fun _ => ?_
  rw [bodyState_onSys rfl, hm.1]
  exact .pure _

theorem ldq_forbidden (f : FDA) : ldq f s = .next (takeTrap s 0x01 0x0003) := by
  have hbad : ∀ reason x, ClassFrom 0x03 (illegalOp 0x12 reason x) := illegalOp_afterMode (by decide) (by decide)
  unfold ldq
  refine issue_forbidden hg rfl ?_ hm rfl
  exact .bind (srcVals_afterMode ..) fun _ => .bind (vaCheck_afterMode ..) fun _ => .ite (.throw_bind (hbad _ _)) (.ite (.throw_bind (hbad _ _))
    (.ite (.pure _) (.pure _)))

theorem paged_forbidden {i : Instr} {x : Doing} (hx : pagedActs i = some x) (hother : ∀ f g, i ≠ .austat f ∧ i ≠ .pamoadd g ∧ i ≠ .pamocas g) :
    exec i s = .next (takeTrap s 0x01 0x0003) := by
  cases i
  case ldsD | ldsWu | ldsWs | ldsHu | ldsBu => exact loadIssue_forbidden hm hg ..
  case stsD | stsW | stsH | stsB => exact storeIssue_forbidden hm hg ..
  case ldq | ldqLineFill => exact ldq_forbidden hm hg _
  case stq f =>
    exact (issue_forbidden hg rfl (.bind (storeAddrFirst_afterMode ..) fun _ => .bind (srcVals_afterMode ..) fun _ => .pure _) hm rfl : execStq f s = _)
  case migr f =>
    refine (issue_forbidden hg rfl ?_ hm rfl : execMigr f s = _)
    exact .bind (peekCheck_afterMode fun _ => .bind (vaCheck_afterMode ..) fun _ => vaAligned_afterMode ..) fun _ =>
      .bind (operandFirst_afterMode (by decide) (by decide) ..) fun _ => .bind (lotRoom_afterMode ..) fun _ => .bind (srcVals_afterMode ..) fun _ => .pure _
  case austat f => exact absurd rfl (hother f ⟨0, 0, 0, false, false⟩).1
  case pamoadd g => exact absurd rfl (hother ⟨0⟩ g).2.1
  case pamocas g => exact absurd rfl (hother ⟨0⟩ g).2.2
  all_goals cases hx

theorem rstq_forbidden (f : FAB) : execRstq f s = .next (takeTrap s 0x01 0x0003) :=
  issue_forbidden hg rfl (.bind (operandFirst_afterMode (by decide) (by decide) ..) fun _ =>
    .bind (peekCheck_afterMode fun _ => .ite (lotRoom_afterMode ..) (.ok _)) fun _ => .bind (srcVals_afterMode ..) fun _ => .ite (.pure _) (.pure _)) hm rfl

end

/-! ## The commands of the stations 1 and 5 -/

section
variable {s : State} (hm : HandlerMode s) (hg : Unguarded s)
include hm hg

section
variable (hfree : s.cur.freeAt.getD 1 0 ≤ s.cur.now)
include hfree

theorem mmaIssue_forbidden (f : FMma) (mode : Nat) : mmaIssue f mode s = .next (takeTrap s 0x01 0x0003) := by
  unfold mmaIssue
  refine issue_forbidden hg (busyCheck_free hfree) ?_ hm rfl
  refine .bind ((closedCheck_notIllegal ..).classFrom _) fun _ => ?_
  split
  · refine .ite (.throw_bind wrongStream_afterMode) ?_
    dsimp only
    split
    · exact .throw_bind (mxIllegal_afterMode _ _ _)
    · exact .bind ((tileChecks_notIllegal ..).classFrom _) fun _ => .ite (.bind ((chainPoison_notIllegal ..).classFrom _) fun _ => .pure _) (.pure _)
  · exact .throw ((notIllegal_trap (by decide) _).classFrom _)

theorem accz_forbidden (f : FT) : execAccz f s = .next (takeTrap s 0x01 0x0003) :=
  issue_forbidden hg (busyCheck_free hfree) (.bind ((tileChecks_notIllegal ..).classFrom _) fun _ => .pure _) hm rfl

theorem accIssue_forbidden (f : FTS) (kind : CmdKind) : accIssue f kind s = .next (takeTrap s 0x01 0x0003) := by
  unfold accIssue
  refine issue_forbidden hg (busyCheck_free hfree) ?_ hm rfl
  refine .bind ((closedCheck_notIllegal ..).classFrom _) fun _ => ?_
  split
  · exact .throw ((notIllegal_trap (by decide) _).classFrom _)
  · exact .ite (.throw_bind wrongStream_afterMode) (.ite (.throw_bind (mxIllegal_afterMode _ _ _))
      (.bind ((tileChecks_notIllegal ..).classFrom _) fun _ => .ite (.bind ((chainPoison_notIllegal ..).classFrom _) fun _ => .pure _) (.pure _)))

theorem accmv_forbidden (f : FAmv) : execAccmv f s = .next (takeTrap s 0x01 0x0003) := by
  unfold execAccmv
  refine issue_forbidden hg (busyCheck_free hfree) ?_ hm rfl
  refine .bind ((closedCheck_notIllegal ..).classFrom _) fun _ => ?_
  split
  · exact .throw ((notIllegal_trap (by decide) _).classFrom _)
  · exact .ite (.throw_bind wrongStream_afterMode) (.ite (.throw_bind (mxIllegal_afterMode _ _ _))
      (.bind ((footCheck_notIllegal ..).classFrom _) fun _ => .bind ((tilePoison_notIllegal ..).classFrom _) fun _ => .pure _))

theorem factIssue_forbidden (kind : CmdKind) (tile tile2 fl : Nat) : factIssue s kind tile tile2 fl = .next (takeTrap s 0x01 0x0003) := by
  unfold factIssue
  exact issue_forbidden hg (busyCheck_free hfree) (.ite (.throw_bind (mxIllegal_afterMode _ _ _))
    (.ite (.pure _) (.bind ((tileChecks_notIllegal ..).classFrom _) fun _ => .pure _))) hm rfl

theorem matrix_forbidden {i : Instr} {x : Doing} (hx : matrixActs i = some x) : exec i s = .next (takeTrap s 0x01 0x0003) := by
  cases i
  case mmaFlt | mmaW4 | mmaL6 | mmaT3 | mmaI8 | mmaF32 => exact mmaIssue_forbidden hm hg hfree ..
  case accld | accadd => exact accIssue_forbidden hm hg hfree ..
  case accz => exact accz_forbidden hm hg hfree _
  case accmv => exact accmv_forbidden hm hg hfree _
  all_goals cases hx

theorem factor_forbidden {i : Instr} {x : Doing} (hx : factorActs i = some x) : exec i s = .next (takeTrap s 0x01 0x0003) := by
  cases i
  case chol | lup | givqr | grot | trsm => exact factIssue_forbidden hm hg hfree ..
  all_goals cases hx

end

section
variable (hfree : s.cur.freeAt.getD 5 0 ≤ s.cur.now)
include hfree

theorem quantIssue_forbidden (mode sd sa rnd seed : Nat) (rte : Bool) : quantIssue s mode sd sa rnd seed rte = .next (takeTrap s 0x01 0x0003) := by
  have hbad := quantIllegal_afterMode
  unfold quantIssue
  exact issue_forbidden hg (busyCheck_free hfree) (.bind (qzeStreams_afterMode ..) fun _ => .ite (.throw_bind (hbad _ _ _))
    (.ite (.throw_bind (hbad _ _ _)) (.ite (.throw_bind (hbad _ _ _)) (.bind (blockSide_afterMode _) fun _ =>
      .ite (.throw_bind (hbad _ _ _)) (.pure _))))) hm rfl

theorem dequantIssue_forbidden (mode sd sa : Nat) : dequantIssue s mode sd sa = .next (takeTrap s 0x01 0x0003) := by
  have hbad := quantIllegal_afterMode
  unfold dequantIssue
  exact issue_forbidden hg (busyCheck_free hfree) (.bind (qzeStreams_afterMode ..) fun _ => .ite (.throw_bind (hbad _ _ _))
    (.ite (.throw_bind (hbad _ _ _)) (.bind (blockSide_afterMode _) fun _ => .pure _))) hm rfl

theorem quant_forbidden {i : Instr} {x : Doing} (hx : quantActs i = some x) : exec i s = .next (takeTrap s 0x01 0x0003) := by
  cases i
  case quantTensor | quantBlock | quantBlockTensor | quantCast => exact quantIssue_forbidden hm hg hfree ..
  case dequantTensor | dequantBlock | dequantBlockTensor | dequantCast => exact dequantIssue_forbidden hm hg hfree ..
  all_goals cases hx

end

end

/-- Settles O36: the rule of each forbids handler mode, its station accepts, and nothing else that it can meet is an ILLEGAL of a class below 3. -/
theorem enginesNotInHandler : Obligations.EnginesNotInHandler := by
  unfold Obligations.EnginesNotInHandler
  rintro i s x hm hg (hx | hx | hx | ⟨hx, hother⟩ | ⟨hx | hx, hfree⟩ | ⟨hx, hfree⟩)
  · exact (elementActs_isVop hx s).forbidden hm hg
  · exact word_forbidden hm hg hx
  · cases i
    case rstq f => exact rstq_forbidden hm hg f
    all_goals cases hx
  · exact paged_forbidden hm hg hx hother
  · exact matrix_forbidden hm hg hfree hx
  · exact factor_forbidden hm hg hfree hx
  · exact quant_forbidden hm hg hfree hx

end Sys2Proof.Machine
end

section
/-! PROOFS. The quantisation engine accepts a command whose streams, formats, record and block side pass their checks (R193–R195, R199–R201). -/

namespace Sys2Proof.Machine
open Sys2Proof.Claims

/-! ## Checks that pass -/

theorem closedCheck_open {c : Ctx} {ss : List Nat} (h : ∀ n ∈ ss, c.strms.find n ≠ none) (station : Nat) :
    closedCheck c station ss = .ok () := by
  have hclosed : ss.filter (fun n => (c.strms.find n).isNone) = [] := by
    simpa only [List.filter_eq_nil_iff, Option.isNone_iff_eq_none] using h
  unfold closedCheck
  rw [hclosed]
  rfl

theorem qzeStreams_ok {t : State} {sa sd : Nat} {a d : Strm} (h : QuantStreams t sa sd a d) : qzeStreams t sa sd = .ok (a, d) := by
  obtain ⟨ha, hd, hread, hwrite⟩ := h
  have hopen : closedCheck t.cur 5 [sa, sd] = .ok () := closedCheck_open (by simp [ha, hd]) 5
  refine (bind_of_ok hopen _).trans ?_
  simp [ha, hd, hread, hwrite, pure, Except.pure]

/-- A check that some commands alone make does not fire where these pass it. -/
theorem not_and_not_of_imp {p q : Bool} (h : p = true → q = true) : ¬ (p && !q) = true := by simpa using h

theorem not_not_of_true {p : Bool} (hp : p = true) : ¬ (!p) = true := by simpa using hp

theorem not_or_of_true {p q : Bool} (hp : p = true) (hq : q = false) : ¬ (!p || q) = true := by simp [hp, hq]

theorem recNamed_of_owns {t : State} {rid : Nat} (h : OwnsRec t rid) : recNamed (t.part t.curPart).size rid = true := by
  obtain ⟨hne, hdie, -⟩ := h
  simp [recNamed, hne, hdie]

theorem recOwned_of_owns {t : State} {rid : Nat} (h : OwnsRec t rid) : recOwned (t.part t.curPart) (t.slotOf t.curCore) rid = true := by
  obtain ⟨-, -, howner⟩ := h
  exact howner

/-! ## Acceptance -/

/-- A command of the quantisation engine pops nothing, so it completes where its body does from the state at issue what is said. -/
theorem completes_of_station5 {i : Instr} {s : State} {x : Doing} {body : State → Res (State × Flow)}
    (he : exec i s = issue s { handlerOk := false, first := busyCheck 5 } body)
    (hform : x.srcs = [] ∧ x.words = 1 ∧ x.ends = false ∧ x.signs = true ∧ x.flow = fun _ _ => .seq 1)
    (hmay : x.may s → QueueMode s ∧ StationFree s 5)
    (hb : ∀ t, x.ok t [] → body t = .ok (x.eff t t [], .seq 1)) : Completes i s x := by
  obtain ⟨hsrcs, hwords, hends, hsigns, hflow⟩ := hform
  refine completes_of i s x _ _ he hwords.symm hsigns.symm hends.symm (fun hm _ => busyCheck_free (hmay hm).2)
    (fun hm => .inr (queueMode_not_handler (hmay hm).1)) (fun _ _ => rfl) fun _ hok _ => ?_
  rw [hsrcs] at hok ⊢
  rw [popSrcs_nil, hflow]
  exact hb _ hok

theorem quantIssue_completes {i : Instr} {s : State} {mode sd sa rnd seed : Nat} {rte : Bool} (he : exec i s = quantIssue s mode sd sa rnd seed rte) :
    Completes i s (quantAct mode sd sa rnd seed rte) := by
  unfold quantIssue at he
  refine completes_of_station5 he ⟨rfl, rfl, rfl, rfl, rfl⟩ id fun t hok => ?_
  obtain ⟨a, d, hstreams, hsrc, hdst, hside, howns⟩ := hok
  have hmode : bitB t.cur.mode.toNat 3 = t.cur.mode.getLsbD 3 := bitB_testBit ..
  refine (bind_of_ok (qzeStreams_ok hstreams) _).trans ?_
  refine (if_neg (Nat.not_lt.2 hsrc)).trans ((if_neg (not_not_of_true hdst)).trans ?_)
  refine (if_neg (not_and_not_of_imp fun h => recNamed_of_owns (howns h))).trans ((bind_of_ok hside _).trans ?_)
  refine (if_neg (not_and_not_of_imp fun h => recOwned_of_owns (howns h))).trans ?_
  obtain ⟨ha, hd, -, -⟩ := hstreams
  simp only [quantAct, ha, hd, hmode]
  rfl

theorem dequantIssue_completes {i : Instr} {s : State} {mode sd sa : Nat} (he : exec i s = dequantIssue s mode sd sa) :
    Completes i s (dequantAct mode sd sa) := by
  unfold dequantIssue at he
  refine completes_of_station5 he ⟨rfl, rfl, rfl, rfl, rfl⟩ id fun t hok => ?_
  obtain ⟨a, d, hstreams, hsrc, hdst, hside⟩ := hok
  refine (bind_of_ok (qzeStreams_ok hstreams) _).trans ?_
  refine (if_neg (not_not_of_true hsrc)).trans ((if_neg (Nat.not_lt.2 hdst)).trans ((bind_of_ok hside _).trans ?_))
  obtain ⟨ha, hd, -, -⟩ := hstreams
  simp only [dequantAct, ha, hd]
  rfl

/-- Settles O35: in each mode the command meets no fault once its streams, formats, record and block side are good. -/
theorem quantCommands : Obligations.QuantCommands := by
  unfold Obligations.QuantCommands
  intro i s x hx
  cases i
  case quantTensor | quantBlock | quantBlockTensor | quantCast => cases hx; exact quantIssue_completes rfl
  case dequantTensor | dequantBlock | dequantBlockTensor | dequantCast => cases hx; exact dequantIssue_completes rfl
  all_goals cases hx

end Sys2Proof.Machine
end

section
/-! PROOFS. The record instructions on operands that pass their checks, and what Combine gives of two record values (R184, R186, R203–R205). -/

namespace Sys2Proof.Machine
open Sys2Proof.Claims

/-! ## Operands that pass the checks of R204 -/

theorem lowerClass_of_ok {α : Type} {checks : Res Unit} {r : Res α} {v : α} (hc : checks = .ok ()) (hr : r = .ok v) :
    lowerClass checks r = .ok v := by rw [hc, hr, lowerClass_ok]

theorem zeroAbove_ok {n : Nat} {x : Word} (h : x.toNat < 2 ^ n) (rid : Nat) : zeroAbove n rid x = .ok () := if_neg (Nat.not_le.2 h)

theorem recCheck_ok {t : State} {rid : Nat} (h : OwnsRec t rid) (opd a : Word) : recCheck t rid opd a = .ok () := by
  simp [recCheck, recCtx, recNamed_of_owns h, recOwned_of_owns h]

theorem indexCheck_ok {t : State} {x : Word} (set : Bool) (h : recIndexOk t x.toNat) (hpart : bits x.toNat 19 18 ≠ 3)
    (hset : set = true → bits x.toNat 19 18 = 0) : indexCheck t set x = .ok () := by
  obtain ⟨hlow, howns, hword⟩ := h
  refine (bind_of_ok (zeroAbove_ok hlow _) _).trans ((bind_of_ok (recCheck_ok howns x x) _).trans (if_neg ?_))
  simpa [Nat.not_lt.2 hword, hpart] using hset

/-- What STBIND checks of its record: 0 binds none (R204). -/
def bindCheck (t : State) (a : Src) (rid : Word) : Res Unit := do
  zeroAbove 12 (rid.toNat % 4096) rid
  if rid != 0 then recCheck t rid.toNat rid (seenOr t a)

theorem bindCheck_ok {t : State} {rid : Word} (hrid : rid.toNat < 2 ^ 12) (howns : rid ≠ 0 → OwnsRec t rid.toNat) (a : Src) :
    bindCheck t a rid = .ok () := by
  refine (bind_of_ok (zeroAbove_ok hrid _) _).trans ?_
  by_cases hzero : rid = 0
  · exact if_neg (by simp [hzero])
  · exact (if_pos (bne_iff_ne.2 hzero)).trans (recCheck_ok (howns hzero) ..)

/-! ## Popped sources leave the agent and the cycle -/

@[simp] theorem popSrcs_curCore (t : State) (fs : List Src) : (popSrcs t fs).curCore = t.curCore := by
  unfold popSrcs
  split <;> rfl

@[simp] theorem popSrcs_curPart (t : State) (fs : List Src) : (popSrcs t fs).curPart = t.curPart := by
  unfold popSrcs
  split <;> rfl

@[simp] theorem popSrcs_now (t : State) (fs : List Src) : (popSrcs t fs).cur.now = t.cur.now := by rw [popSrcs_cur]

theorem stampHere_popSrcs (t : State) (fs : List Src) (kind rid word : Nat) (v : Word) :
    stampHere (popSrcs t fs) kind rid 0 word v [] = stamped t (popSrcs t fs) kind rid word v := by
  simp [stampHere, stampChange, stamped]

/-- An overflow bit set in either word raises the flag. -/
theorem b2n_either_mul (m n k : Nat) : b2n (m != 0 || n != 0) * k = if m ≠ 0 ∨ n ≠ 0 then k else 0 := by
  by_cases h : m ≠ 0 ∨ n ≠ 0
  · have hset : (m != 0 || n != 0) = true := by simpa using h
    simp [hset, h, b2n]
  · have hclear : (m != 0 || n != 0) = false := by simpa using h
    simp [hclear, h, b2n]

/-! ## The instructions (R184, R203–R205) -/

section
variable {s : State} {x : Doing}

theorem stbind_completes {f : FAB} (hx : recordActs (.stbind f) = some x) : Completes (.stbind f) s x := by
  cases hx
  refine completes_of_issue1 (show _ = execStbind f s from rfl) ⟨rfl, rfl, rfl, rfl⟩ fun t hsrcs hok => ?_
  obtain ⟨hentry, hrid, hpar, howns⟩ := hok
  have ha : peekCheck t (f.a.toNat, f.ka) (zeroAbove 8 0) = .ok () :=
    (peekCheck_ready (hsrcs _ List.mem_cons_self) _).trans (zeroAbove_ok hentry 0)
  have hb : peekCheck t (f.b.toNat, f.kb) (bindCheck t (f.a.toNat, f.ka)) = .ok () :=
    (peekCheck_ready (hsrcs _ (List.mem_cons_of_mem _ List.mem_cons_self)) _).trans (bindCheck_ok hrid howns _)
  refine (bind_of_ok (lowerClass_of_ok ((bind_of_ok ha _).trans hb) (srcVals_ready t _ hsrcs)) _).trans ?_
  exact bind_of_ok ((parityOk_ok ..).2 (List.forall_mem_singleton.2 hpar)) _

theorem stclr_completes {f : FA} (hx : recordActs (.stclr f) = some x) : Completes (.stclr f) s x := by
  cases hx
  refine completes_of_issue1 (show execStclr f s = _ from rfl) ⟨rfl, rfl, rfl, rfl⟩ fun t hsrcs hok => ?_
  obtain ⟨hrid, howns⟩ := hok
  refine (bind_of_ok (srcVals_ready t _ hsrcs) _).trans ?_
  refine (bind_of_ok (zeroAbove_ok hrid _) _).trans ((bind_of_ok (recCheck_ok howns _ _) _).trans ?_)
  exact congrArg Except.ok (stampHere_popSrcs ..)

theorem stset_completes {f : FAB} (hx : recordActs (.stset f) = some x) : Completes (.stset f) s x := by
  cases hx
  refine completes_of_issue1 (show execStset f s = _ from rfl) ⟨rfl, rfl, rfl, rfl⟩ fun t hsrcs hok => ?_
  obtain ⟨hindex, hhome⟩ := hok
  have hcheck : peekCheck t (f.a.toNat, f.ka) (indexCheck t true) = .ok () :=
    (peekCheck_ready (hsrcs _ List.mem_cons_self) _).trans (indexCheck_ok true hindex (hhome.trans_ne (by decide)) fun _ => hhome)
  refine (bind_of_ok (lowerClass_of_ok hcheck (srcVals_ready t _ hsrcs)) _).trans ?_
  exact congrArg Except.ok (stampHere_popSrcs ..)

theorem stmerge_completes {f : FA} (hx : recordActs (.stmerge f) = some x) : Completes (.stmerge f) s x := by
  cases hx
  refine completes_of_issue1 (show execStmerge f s = _ from rfl) ⟨rfl, rfl, rfl, rfl⟩ fun t hsrcs hok => ?_
  obtain ⟨hlow, hdst, hsrc, hne⟩ := hok
  refine (bind_of_ok (srcVals_ready t _ hsrcs) _).trans ((bind_of_ok (zeroAbove_ok hlow _) _).trans ?_)
  refine (if_neg (not_not_of_true (recNamed_of_owns hdst))).trans ?_
  refine (if_neg (not_or_of_true (recNamed_of_owns hsrc) (beq_false_of_ne hne))).trans ?_
  refine (if_neg (not_not_of_true (recOwned_of_owns hdst))).trans ((if_neg (not_not_of_true (recOwned_of_owns hsrc))).trans ?_)
  simp only [popSrcs_curPart]
  rfl

theorem strd_completes {f : FDA} (hx : recordActs (.strd f) = some x) : Completes (.strd f) s x := by
  cases hx
  refine completes_of_issue1 (show execStrd f s = _ from rfl) ⟨rfl, rfl, rfl, rfl⟩ fun t hsrcs hok => ?_
  obtain ⟨hdest, hindex, hpart⟩ := hok
  refine (bind_of_ok (dstOk_ready t _ hdest) _).trans ((bind_of_ok (srcVals_ready t _ hsrcs) _).trans ?_)
  exact bind_of_ok (indexCheck_ok false hindex hpart nofun) _

theorem stgen_completes {f : FDA} (hx : recordActs (.stgen f) = some x) : Completes (.stgen f) s x := by
  cases hx
  refine completes_of_issue1 (show execStgen f s = _ from rfl) ⟨rfl, rfl, rfl, rfl⟩ fun t hsrcs hok => ?_
  obtain ⟨hdest, hrid, howns⟩ := hok
  refine (bind_of_ok (dstOk_ready t _ hdest) _).trans ((bind_of_ok (srcVals_ready t _ hsrcs) _).trans ?_)
  refine (bind_of_ok (zeroAbove_ok hrid _) _).trans ((bind_of_ok (recCheck_ok howns _ _) _).trans ?_)
  simp only [b2n_either_mul]
  rfl

end

theorem recordActs_complete (i : Instr) (s : State) (x : Doing) (hx : recordActs i = some x) : Completes i s x := by
  cases i
  case stbind => exact stbind_completes hx
  case stclr => exact stclr_completes hx
  case stset => exact stset_completes hx
  case stmerge => exact stmerge_completes hx
  case strd => exact strd_completes hx
  case stgen => exact stgen_completes hx
  all_goals cases hx

/-! ## Combine (R186) -/

theorem addSat_sum (a b : Nat) : (addSat a b).1 = min (a + b) (2 ^ 32 - 1) := by
  unfold addSat
  split
  · exact (min_eq_right (by omega)).symm
  · exact (min_eq_left (by omega)).symm

theorem addSat_lt (a b : Nat) : (addSat a b).1 < 2 ^ 32 := by
  rw [addSat_sum]
  omega

theorem combineRec_length (x y : List Nat) : (combineRec x y).length = 36 := by simp [combineRec]

theorem combineRec_amax (x y : List Nat) : (combineRec x y).getD 0 0 % 2 ^ 32 = max (x.getD 0 0 % 2 ^ 32) (y.getD 0 0 % 2 ^ 32) := by
  have hmax : max (x.getD 0 0 % 2 ^ 32) (y.getD 0 0 % 2 ^ 32) < 2 ^ 32 := by omega
  simp only [combineRec, List.cons_append, List.getD_cons_zero]
  omega

theorem combineRec_nan (x y : List Nat) :
    (combineRec x y).getD 2 0 % 2 ^ 32 = min (x.getD 2 0 % 2 ^ 32 + y.getD 2 0 % 2 ^ 32) (2 ^ 32 - 1) := by
  have hlow := addSat_lt (x.getD 2 0 % 2 ^ 32) (y.getD 2 0 % 2 ^ 32)
  rw [← addSat_sum]
  simp only [combineRec, List.cons_append, List.getD_cons_succ, List.getD_cons_zero]
  omega

theorem getD_four_append {α : Type} (a b c d : α) (l : List α) (n : Nat) (e : α) : ([a, b, c, d] ++ l).getD (4 + n) e = l.getD n e := by
  rw [Nat.add_comm]
  rfl

theorem getD_map_map_range {α β : Type} (f : Nat → α) (g : α → β) {n k : Nat} (h : k < n) (d : β) :
    (((List.range n).map f).map g).getD k d = g (f k) := by
  rw [List.getD_eq_getElem?_getD, List.map_map, List.getElem?_map, List.getElem?_range h]
  rfl

/-- A word of two counters: zeros and infinities, or two bins. -/
theorem combineRec_counters (x y : List Nat) {k : Nat} (hk : k = 1 ∨ (4 ≤ k ∧ k < 36)) :
    (combineRec x y).getD k 0 = (addSat (x.getD k 0 % 2 ^ 32) (y.getD k 0 % 2 ^ 32)).1
      + (addSat (x.getD k 0 >>> 32) (y.getD k 0 >>> 32)).1 * 2 ^ 32 := by
  obtain rfl | ⟨hlow, hhigh⟩ := hk
  · simp only [combineRec, List.cons_append, List.getD_cons_succ, List.getD_cons_zero]
  · obtain ⟨n, rfl⟩ := Nat.exists_eq_add_of_le hlow
    unfold combineRec
    rw [getD_four_append, getD_map_map_range _ _ (show n < 32 by omega)]

theorem combineRec_halves (x y : List Nat) {k : Nat} (hk : k = 1 ∨ (4 ≤ k ∧ k < 36)) :
    (combineRec x y).getD k 0 % 2 ^ 32 = min (x.getD k 0 % 2 ^ 32 + y.getD k 0 % 2 ^ 32) (2 ^ 32 - 1)
      ∧ (combineRec x y).getD k 0 / 2 ^ 32 = min (x.getD k 0 / 2 ^ 32 + y.getD k 0 / 2 ^ 32) (2 ^ 32 - 1) := by
  have hlow := addSat_lt (x.getD k 0 % 2 ^ 32) (y.getD k 0 % 2 ^ 32)
  rw [combineRec_counters x y hk, ← addSat_sum, ← addSat_sum, Nat.shiftRight_eq_div_pow, Nat.shiftRight_eq_div_pow]
  omega

/-- Settles O26: each instruction completes by the common form once its record passes the checks of R204, and Combine word by word. -/
theorem recordInstructions : Obligations.RecordInstructions := by
  unfold Obligations.RecordInstructions
  refine ⟨recordActs_complete, fun x y _ _ _ _ => ⟨combineRec_length x y, combineRec_amax x y, ?_, combineRec_nan x y⟩⟩
  exact fun k hk => combineRec_halves x y hk

end Sys2Proof.Machine
end

section
/-! PROOFS. What MEMTIME names of the rules that a command breaks (R218, R220), and what it leaves of its engine (R221, R222). -/

namespace Sys2Proof.Machine
open Sys2Proof.Claims

/-! ## The rule, the bank and the deficit (R218) -/

section
variable {c : Nat} {ns : List Need}

/-- The requirements that are not met on a cycle. -/
def unmet (c : Nat) (ns : List Need) : List Need := ns.filter (fun n => decide (c < n.2.2))

theorem mem_unmet {n : Need} : n ∈ unmet c ns ↔ n ∈ ns ∧ c < n.2.2 := by
  rw [unmet, List.mem_filter, decide_eq_true_eq]

/-- A minimum of a list that has a member is that of some member, and no member is below it. -/
theorem exists_minOf {l : List Need} {n : Need} (h : n ∈ l) (f : Need → Nat) :
    ∃ x ∈ l, f x = ((l.map f).min?).getD 0 ∧ ∀ y ∈ l, f x ≤ f y := by
  obtain ⟨m, hm⟩ : ∃ m, (l.map f).min? = some m :=
    Option.ne_none_iff_exists'.1 fun hnone => List.ne_nil_of_mem (List.mem_map_of_mem h) (List.min?_eq_none_iff.1 hnone)
  obtain ⟨hmem, hle⟩ := List.min?_eq_some_iff.1 hm
  obtain ⟨x, hx, rfl⟩ := List.mem_map.1 hmem
  exact ⟨x, hx, by rw [hm]; rfl, fun y hy => hle _ (List.mem_map_of_mem hy)⟩

theorem exists_maxOf {l : List Need} {n : Need} (h : n ∈ l) (f : Need → Nat) :
    ∃ x ∈ l, f x = ((l.map f).max?).getD 0 ∧ ∀ y ∈ l, f y ≤ f x := by
  obtain ⟨m, hm⟩ : ∃ m, (l.map f).max? = some m :=
    Option.ne_none_iff_exists'.1 fun hnone => List.ne_nil_of_mem (List.mem_map_of_mem h) (List.max?_eq_none_iff.1 hnone)
  obtain ⟨hmem, hle⟩ := List.max?_eq_some_iff.1 hm
  obtain ⟨x, hx, rfl⟩ := List.mem_map.1 hmem
  exact ⟨x, hx, by rw [hm]; rfl, fun y hy => hle _ (List.mem_map_of_mem hy)⟩

theorem failing_eq_none_iff : failing c ns = none ↔ ∀ n ∈ ns, n.2.2 ≤ c := by
  have hmet : ((unmet c ns).map (·.1)).min? = none ↔ ∀ n ∈ ns, n.2.2 ≤ c := by
    simp [List.min?_eq_none_iff, unmet, List.filter_eq_nil_iff]
  rw [← hmet]
  unfold failing
  dsimp only
  split
  next h => exact iff_of_true rfl h
  next r h => exact iff_of_false (Option.some_ne_none _) fun h' => Option.some_ne_none r (h.symm.trans h')

/-- What is reported: the lowest rule with a requirement that is not met, and of those of this rule the lowest bank and the largest deficit (R218). -/
theorem failing_eq_some {rule b d : Nat} (h : failing c ns = some (rule, b, d)) :
    ((unmet c ns).map (·.1)).min? = some rule
      ∧ b = ((((unmet c ns).filter (fun n => n.1 == rule)).map (fun n => n.2.1)).min?).getD 0
      ∧ d = ((((unmet c ns).filter (fun n => n.1 == rule)).map (fun n => n.2.2 - c)).max?).getD 0 := by
  unfold failing at h
  dsimp only at h
  split at h
  · cases h
  next r hr =>
    obtain ⟨⟩ := h
    exact ⟨hr, rfl, rfl⟩

theorem failing_named {rule b d : Nat} (h : failing c ns = some (rule, b, d)) :
    (∃ n ∈ ns, n.1 = rule ∧ c < n.2.2 ∧ n.2.1 = b) ∧ (∃ n ∈ ns, n.1 = rule ∧ n.2.2 = c + d ∧ 0 < d)
      ∧ ∀ n ∈ ns, c < n.2.2 → rule ≤ n.1 ∧ (n.1 = rule → b ≤ n.2.1 ∧ n.2.2 ≤ c + d) := by
  obtain ⟨hrule, rfl, rfl⟩ := failing_eq_some h
  obtain ⟨hmem, hlow⟩ := List.min?_eq_some_iff.1 hrule
  obtain ⟨n, hn, rfl⟩ := List.mem_map.1 hmem
  have hmine {m : Need} : m ∈ (unmet c ns).filter (fun x => x.1 == n.1) ↔ (m ∈ ns ∧ c < m.2.2) ∧ m.1 = n.1 := by
    rw [List.mem_filter, mem_unmet, beq_iff_eq]
  have hn' := hmine.2 ⟨mem_unmet.1 hn, rfl⟩
  obtain ⟨x, hx, hbank, hleast⟩ := exists_minOf hn' (fun m => m.2.1)
  obtain ⟨y, hy, hdeficit, hmost⟩ := exists_maxOf hn' (fun m => m.2.2 - c)
  rw [← hbank, ← hdeficit]
  obtain ⟨⟨hxs, hxc⟩, hxr⟩ := hmine.1 hx
  obtain ⟨⟨hys, hyc⟩, hyr⟩ := hmine.1 hy
  refine ⟨⟨x, hxs, hxr, hxc, rfl⟩, ⟨y, hys, hyr, by omega, by omega⟩, fun m hm hmc => ⟨hlow _ ?_, fun hmr => ?_⟩⟩
  · exact List.mem_map_of_mem (mem_unmet.2 ⟨hm, hmc⟩)
  · have hm' := hmine.2 ⟨⟨hm, hmc⟩, hmr⟩
    have hlate := hmost m hm'
    exact ⟨hleast m hm', by omega⟩

end

/-- Settles O43: the rule is a minimum over the unmet requirements, its bank and deficit a minimum and a maximum over those of that rule. -/
theorem timingRuleReported : Obligations.TimingRuleReported := by
  unfold Obligations.TimingRuleReported
  refine fun c ns => ⟨failing_eq_none_iff.2, fun ⟨n, hn, hlate⟩ => ?_, fun rule b d => failing_named⟩
  exact Option.ne_none_iff_exists'.1 fun hnone => Nat.not_le.2 hlate (failing_eq_none_iff.1 hnone n hn)

/-! ## The trap (R221, R222) -/

/-- The controller of a MEMTIME that no arrival caused: the core that started the table, or the lowest core of the task on the die (R222). -/
theorem memController_stopped (s : State) : memController s s.curEng none =
    if s.eng.st = .started ∨ s.eng.st = .running then 32 * engPart s s.curEng + s.eng.ctrl
      else (engCores s s.curEng).headD (32 * engDie s.curEng) := by
  have hruns : (s.eng.st == .started || s.eng.st == .running) = true ↔ s.eng.st = .started ∨ s.eng.st = .running := by
    simp only [Bool.or_eq_true, beq_iff_eq]
  simp only [← hruns]
  rfl

/-- Settles O44: MEMTIME is written out once its controller is. -/
theorem memtimeEntry : Obligations.MemtimeEntry := by
  unfold Obligations.MemtimeEntry
  intro s reason rule bank deficit
  dsimp only
  rw [← memController_stopped]
  rfl

end Sys2Proof.Machine
end

section
/-! PROOFS. The words of a memory command table: each is its checks, and its effect where they pass (R209–R220, R224, R227). -/

namespace Sys2Proof.Machine
open Sys2Proof.Claims

/-! ## The present engine changed -/

@[simp] theorem State.setEngOf_setEngOf (s : State) (n : Nat) (x y : EngSt) : (s.setEngOf n x).setEngOf n y = s.setEngOf n y := by
  simp [State.setEngOf]

@[simp] theorem State.modEng_modEng (s : State) (f g : EngSt → EngSt) : (s.modEng f).modEng g = s.modEng (fun e => g (f e)) := by
  have heng : (s.setEngOf s.curEng (f s.eng)).eng = f s.eng := State.eng_setEng ..
  simp only [State.modEng, State.setEng, State.setEngOf_curEng, State.setEngOf_setEngOf, heng]

/-- A word done in order: the present engine changed and the next word due (R211). -/
theorem nextTableWord_modEng (s : State) (f : EngSt → EngSt) : nextTableWord (s.modEng f) = onEngine s f := by
  unfold nextTableWord
  rw [State.modEng_modEng]
  rfl

/-- A table word issues with its effect where its checks pass, and takes the MEMTIME of its first check that fails. -/
def Issues (o : Host.Outcome State Fault Refusal) (s : State) (r : WordRule) (t : State) : Prop :=
  (wordFault s.eng r = none → o = .next t)
    ∧ ∀ reason rule b d, wordFault s.eng r = some (reason, rule, b, d) → o = .next (memTrap s reason rule b d)

theorem mcWord_issues {s t : State} {r : WordRule} {act : State → State} (ht : act s = t) : Issues (mcWord s r act) s r t := by
  refine ⟨fun hnone => ?_, fun reason rule b d hsome => ?_⟩
  · rw [mcWord, hnone, ← ht]
  · rw [mcWord, hsome]

theorem tooFar_bound (e : EngSt) (b : Nat) :
    (if tooFar e b then some b else none) = if e.owe b - 1 < -(e.maxPost : Int) then some b else none := by
  simp only [tooFar, decide_eq_true_eq]

/-- A level of LOOP: its counter, whether it is active, and the PC after the word (R212). -/
theorem loopWord_eq (left : Nat) (act : Bool) (k target count : Nat) :
    let l := if act then left else count
    loopWord left act k target count = (l - 1, decide (0 < l), if decide (0 < l) then target else k + 1) := by
  intro l
  by_cases hl : 0 < l
  · simp only [loopWord, l] at hl ⊢
    simp [hl]
  · have hz : l = 0 := by omega
    simp only [loopWord, l] at hz ⊢
    simp [hz]

/-- The landings of a granule at a core, taken out of those at the core (R216). -/
theorem lastLanding_eq (c core g : Nat) (log : List (Nat × Nat × Nat)) :
    (((log.filter (fun x => x.2.1 == core)).filter (fun x => x.1 == g)).map (fun x => x.2.2)).foldl max c = lastLanding c core g log := by
  rw [List.filter_filter]
  exact congrArg (fun p => ((log.filter p).map (fun x => x.2.2)).foldl max c) (funext fun x => Bool.and_comm _ _)

theorem tagMoves_eq (e : EngSt) (n slot tag core : Nat) : tagMoves e n slot tag core = stampsAt e n slot tag core := by
  simp only [tagMoves, stampsAt, lastLanding_eq]

theorem mcLoop_issues (f : FMcLoop) (s : State) {r : WordRule} {t : State} (h : tableWord s (.mcLoop f) = some (r, t)) :
    Issues (execMcLoop f s) s r t := by
  cases h
  refine mcWord_issues ?_
  simp only [loopStep, loopWord_eq, State.modEng]
  split
  · rfl
  · rfl

theorem foldl_curEng {α : Type} {f : State → α → State} (h : ∀ s x, (f s x).curEng = s.curEng) (l : List α) (s : State) :
    (l.foldl f s).curEng = s.curEng := by
  induction l generalizing s with
  | nil => rfl
  | cons x l ih => rw [List.foldl_cons, ih, h]

@[simp] theorem sendStamp_curEng (s : State) (core : Nat) (m : Move) : (sendStamp s core m).curEng = s.curEng := by
  unfold sendStamp
  split <;> rfl

/-- The stamps of a TAG at every core of a list. -/
theorem tagStamps_eq (e : EngSt) (n tag : Nat) (cores : List Nat) (s : State) (hn : s.curEng = n) :
    cores.foldl (fun s core => (tagMoves e n (engSlot s n) tag core).foldl (fun s m => sendStamp s core m) s) s
      = cores.foldl (fun s core => (stampsAt e s.curEng (engSlot s s.curEng) tag core).foldl (fun s m => sendStamp s core m) s) s := by
  induction cores generalizing s with
  | nil => rfl
  | cons core cores ih =>
    rw [List.foldl_cons, List.foldl_cons, tagMoves_eq, hn]
    exact ih _ ((foldl_curEng (fun s m => sendStamp_curEng s core m) _ s).trans hn)

theorem mcTag_issues (f : FMcTag) (s : State) {r : WordRule} {t : State} (h : tableWord s (.mcTag f) = some (r, t)) :
    Issues (execMcTag f s) s r t := by
  cases h
  refine mcWord_issues ((nextTableWord_modEng ..).trans ?_)
  rw [tagStamps_eq _ _ _ _ _ rfl]
  rfl

end Sys2Proof.Machine

namespace Sys2Proof.Claims
open Sys2Proof.Machine

/-- Settles O42: each word's `exec` is `mcWord` of the rule and the effect that `tableWord` lists. -/
theorem tableWords : Obligations.TableWords := by
  unfold Obligations.TableWords
  intro i s r t h
  show Issues (exec i s) s r t
  cases i
  case mcAct | mcPre | mcPrea | mcRefpb | mcRefab | mcRd | mcWr | mcBind | mcSvw =>
    cases h
    simp only [exec, ← tooFar_bound, execMcAct, execMcPre, execMcPrea, execMcRefpb, execMcRefab, execMcRd, execMcWr, execMcBind, execMcSvw]
    exact mcWord_issues (nextTableWord_modEng ..)
  case mcTag f => exact mcTag_issues f s h
  case mcLoop f => exact mcLoop_issues f s h
  case mcEnd | mcDly =>
    cases h
    simp only [exec, execMcEnd, execMcDly]
    exact mcWord_issues rfl
  all_goals cases h

end Sys2Proof.Claims
end

section
/-! PROOFS. The engine instructions of a core: their messages outside handler mode, MCSTOP and MCSTAT of a frozen engine in it, and the others' ILLEGAL there
(R223, R231–R236, R239). -/

namespace Sys2Proof.Machine
open Sys2Proof.Claims

/-! ## One-word instructions of one mode -/

/-- A one-word instruction of a compute core in one mode completes where its body, in a state of that mode whose sources can be read, does what is said. -/
theorem completes_of_mode {i : Instr} {s : State} {x : Doing} {handlerOk : Bool} {body : State → Res (State × Flow)}
    (he : exec i s = issue s { handlerOk := handlerOk } body)
    (hform : x.words = 1 ∧ x.ends = false ∧ x.signs = true ∧ x.flow = fun _ _ => .seq 1)
    (hmode : (x.may = QueueMode) ∨ (x.may = HandlerMode ∧ handlerOk = true))
    (hb : ∀ t, x.may t → SrcsReady t x.srcs → x.ok t (srcValues t x.srcs) →
      body t = .ok (x.eff t (popSrcs t x.srcs) (srcValues t x.srcs), .seq 1)) : Completes i s x := by
  obtain ⟨hwords, hends, hsigns, hflow⟩ := hform
  have hat : atIssue s x = signed s 1 := by unfold atIssue; rw [hsigns, hwords]; rfl
  have hh : x.may s → handlerOk = true ∨ inHandler s = false := by
    obtain h | ⟨-, h⟩ := hmode
    · exact fun hm => .inr (queueMode_not_handler (h ▸ hm))
    · exact fun _ => .inl h
  have hmay : x.may s → x.may (signed s 1) := by
    obtain h | ⟨h, -⟩ := hmode <;> rw [h]
    · exact (queueMode_signed s 1).2
    · exact fun hm => handlerMode_signed hm 1
  intro hm hg hl hsrcs hok
  refine completes_of i s x _ _ he hwords.symm hsigns.symm hends.symm (fun _ _ => rfl) hh (fun _ _ => rfl) (fun _ _ _ => ?_) hm hg hl hsrcs hok
  have hvalues : srcValues (signed s 1) x.srcs = srcValues s x.srcs := srcValues_signed ..
  rw [hat, ← hvalues] at hok
  rw [hflow, hat, ← hvalues]
  exact hb _ (hmay hm) ((srcsReady_signed ..).2 hsrcs) hok

@[simp] theorem popSrcs_engOf (t : State) (fs : List Src) (n : Nat) : (popSrcs t fs).engOf n = t.engOf n := by
  unfold popSrcs
  split <;> rfl

/-- A message from a core that has popped its operands. -/
theorem sendMsg_popSrcs (t : State) (fs : List Src) (n : Nat) (m : McMsg) :
    sendMsg (popSrcs t fs) n m = (popSrcs t fs).setEngOf n { t.engOf n with inbox := (t.engOf n).inbox ++ [m] } := by
  rw [sendMsg, popSrcs_engOf]

/-! ## Messages (R231–R234) -/

theorem engOnly_of_lt {a : Nat} (h : a < 128) : engOnly a = true := by
  have hz : a >>> 7 = 0 := by rw [Nat.shiftRight_eq_div_pow]; omega
  rw [engOnly, hz]
  rfl

theorem engCursor_of_lt {a : Nat} (h : a < 2 ^ 10) (hbit : a / 128 % 2 = 0) : engCursor a = true := by
  have hz : a >>> 10 = 0 := by rw [Nat.shiftRight_eq_div_pow]; omega
  have hb : bitB a 7 = false := by rw [bitB_eq]; exact decide_eq_false (by omega)
  rw [engCursor, hz, hb]
  rfl

section
variable {t : State}

/-- Operands of an engine instruction that can be read, each by itself. -/
theorem srcReady_two {a b : Src} (h : SrcsReady t [a, b]) : SrcReady t a.1 ∧ SrcReady t b.1 :=
  ⟨h a List.mem_cons_self, h b (List.mem_cons_of_mem _ List.mem_cons_self)⟩

theorem engineAFirst_ok {f : Src} (h : SrcReady t f.1) {zero : Nat → Bool} (hz : zero (srcValue t f.1).toNat = true) : engineAFirst t f zero = .ok () :=
  (peekCheck_ready h _).trans (if_pos hz)

theorem mcbindChk_ok {a b : Nat} (hb : b < 2 ^ 32) (hbit : b / 2 ^ 23 % 2 = 0) (halign : b % 64 = 0) (hrank : rankHere t (bits b 31 24) = true) :
    mcbindChk t a b = .ok () := by
  have h23 : bitB b 23 = false := by rw [bitB_eq]; exact decide_eq_false (by omega)
  unfold mcbindChk
  rw [h23, shiftRight_bne_zero, decide_eq_false (Nat.not_le.2 hb), hrank, halign]
  rfl

theorem mcbaseChk_ok {a b : Nat} (hb : b < 2 ^ 28) (halign : b % 128 = 0) (hrows : bits b 22 0 + 128 * (bits b 27 23 + 1) ≤ 2 ^ 23) :
    mcbaseChk t a b = .ok () := by
  unfold mcbaseChk mcbaseRows
  have hfits : decide (bits b 22 0 + 128 * (bits b 27 23 + 1) > 0x800000) = false := decide_eq_false (Nat.not_lt.2 hrows)
  rw [shiftRight_bne_zero, decide_eq_false (Nat.not_le.2 hb), halign, hfits]
  rfl

theorem mcstartChk_ok {a b : Nat} (hb : b < 2 ^ 32) (htime : t.cur.now + 24 ≤ t.cur.release + b) : mcstartChk t a b = .ok () := by
  unfold mcstartChk
  rw [shiftRight_bne_zero, decide_eq_false (Nat.not_le.2 hb), if_neg Bool.false_ne_true, if_neg (Nat.not_lt.2 htime)]

end

/-- An engine instruction that sends a message completes where its checks pass. -/
theorem engineSend_completes {i : Instr} {s : State} {x : Doing} {f : FP2} {fn : Nat} {zero : Nat → Bool} {chk : State → Nat → Nat → Res Unit}
    (he : exec i s = engineSend f fn zero chk s)
    (hform : x.words = 1 ∧ x.ends = false ∧ x.signs = true ∧ x.flow = fun _ _ => .seq 1)
    (hopd : x.srcs = [(f.a.toNat, false), (f.b.toNat, false)] ∧ x.may = QueueMode)
    (hok : ∀ t vs, x.ok t vs → zero (arg1 vs).toNat = true ∧ ∀ a, chk t a (arg2 vs).toNat = .ok ())
    (heff : ∀ t u vs, x.eff t u vs =
      let v := sendMsg u (engineOf t (arg1 vs).toNat) ⟨t.cur.now + 24, t.curCore, fn, (arg1 vs).toNat, (arg2 vs).toNat, []⟩
      if fn = 2 then v.modCur (fun c => baseIssued c (mcbaseRows (arg2 vs).toNat)) else v) : Completes i s x := by
  obtain ⟨hsrcs, hmay⟩ := hopd
  refine completes_of_mode he hform (.inl hmay) fun t _ hr ho => ?_
  rw [hsrcs] at hr ho
  obtain ⟨ha, hb⟩ := srcReady_two hr
  obtain ⟨hzero, hchk⟩ := hok t _ ho
  refine (bind_of_ok (engineAFirst_ok ha hzero) _).trans ((bind_of_ok ((peekCheck_ready hb _).trans (hchk _)) _).trans ?_)
  refine (bind_of_ok (srcVals_ready t _ hr) _).trans ?_
  rw [heff, hsrcs]
  rfl

theorem mcstart_completes {f : FP2} {s : State} {x : Doing} (hx : engineActs (.mcstart f) = some x) : Completes (.mcstart f) s x := by
  cases hx
  refine engineSend_completes (show execMcstart f s = _ from rfl) ⟨rfl, rfl, rfl, rfl⟩ ⟨rfl, rfl⟩ (fun t vs hok => ?_) fun _ _ _ => rfl
  obtain ⟨ha, hb, htime⟩ := hok
  exact ⟨engOnly_of_lt ha, fun _ => mcstartChk_ok hb htime⟩

theorem mcbase_completes {f : FP2} {s : State} {x : Doing} (hx : engineActs (.mcbase f) = some x) : Completes (.mcbase f) s x := by
  cases hx
  refine engineSend_completes (show execMcbase f s = _ from rfl) ⟨rfl, rfl, rfl, rfl⟩ ⟨rfl, rfl⟩ (fun t vs hok => ?_) fun _ _ _ => rfl
  obtain ⟨ha, hb, halign, hrows⟩ := hok
  exact ⟨engOnly_of_lt ha, fun _ => mcbaseChk_ok hb halign hrows⟩

theorem mcbind_completes {f : FP2} {s : State} {x : Doing} (hx : engineActs (.mcbind f) = some x) : Completes (.mcbind f) s x := by
  cases hx
  refine engineSend_completes (show execMcbind f s = _ from rfl) ⟨rfl, rfl, rfl, rfl⟩ ⟨rfl, rfl⟩ (fun t vs hok => ?_) fun _ _ _ => rfl
  obtain ⟨ha, hbit, hb, hzero, halign, hrank⟩ := hok
  exact ⟨engCursor_of_lt ha hbit, fun _ => mcbindChk_ok hb hzero halign hrank⟩

/-! ## MCSTOP (R223, R235) -/

section
variable {t : State} {fa fb : Src}

theorem stopFirst_ok (ha : SrcReady t fa.1) (hb : SrcReady t fb.1) (hlow : (srcValue t fa.1).toNat < 128)
    (hmode : (srcValue t fb.1).toNat = 0 ∨ (t.cur.handler = true ∧ (srcValue t fb.1).toNat = 1)) : stopFirst t fa fb = .ok () := by
  refine (bind_of_ok (engineAFirst_ok ha (engOnly_of_lt hlow)) _).trans ((peekCheck_ready hb _).trans ?_)
  obtain h | ⟨hh, h⟩ := hmode
  · rw [h]
    simp
  · rw [h, hh]
    rfl

/-- The operands of MCSTOP that pass its checks. -/
theorem stopVals_ok (hr : SrcsReady t [fa, fb]) (hlow : (srcValue t fa.1).toNat < 128)
    (hmode : (srcValue t fb.1).toNat = 0 ∨ (t.cur.handler = true ∧ (srcValue t fb.1).toNat = 1)) :
    lowerClass (stopFirst t fa fb) (srcVals t [fa, fb]) = .ok (srcValues t [fa, fb]) := by
  obtain ⟨ha, hb⟩ := srcReady_two hr
  exact lowerClass_of_ok (stopFirst_ok ha hb hlow hmode) (srcVals_ready t _ hr)

end

theorem engNo_engineOf {t : State} {a : Nat} (ha : a < 128) : engNo (t.curCore / 32) a = engineOf t a := by
  rw [engineOf, Nat.mod_eq_of_lt ha]
  rfl

/-- MCSTOP outside handler mode is sent (R235). -/
theorem mcstop_sent {i : Instr} {s : State} {f : FP2} (he : exec i s = mcstop f s) :
    Completes i s (engineAct f 1 (fun _ a b => a < 128 ∧ b = 0)) := by
  refine completes_of_mode he ⟨rfl, rfl, rfl, rfl⟩ (.inl rfl) fun t hm hr hok => ?_
  obtain ⟨hsys, hq⟩ := hm
  obtain ⟨(ha : (srcValue t f.a.toNat).toNat < 128), hb⟩ := hok
  refine (bind_of_ok (stopVals_ok hr ha (.inl hb)) _).trans ?_
  refine (if_pos (by rw [hq]; rfl)).trans ?_
  change _ = Except.ok (sendMsg _ (engineOf t (srcValue t f.a.toNat).toNat) _, Flow.seq 1)
  rw [sendMsg_popSrcs, ← engNo_engineOf ha]
  rfl

/-- MCSTOP in handler mode acts on its engine, which stands frozen, by its mode (R223). -/
theorem mcstop_frozen {i : Instr} {s : State} {x : Doing} {f : FP2} (he : exec i s = mcstop f s)
    (hform : x.words = 1 ∧ x.ends = false ∧ x.signs = true ∧ x.flow = fun _ _ => .seq 1)
    (hopd : x.srcs = [(f.a.toNat, false), (f.b.toNat, false)] ∧ x.may = HandlerMode)
    (hok : ∀ t a b, x.ok t [a, b] → a.toNat < 128 ∧ (b.toNat = 0 ∨ b.toNat = 1) ∧ (t.engOf (engineOf t a.toNat)).frozen ≠ none
      ∧ (b.toNat = 1 → (t.engOf (engineOf t a.toNat)).st = .trapped ∧ skippable (t.engOf (engineOf t a.toNat)).reason = true))
    (heff : ∀ t u a b, x.ok t [a, b] → x.eff t u [a, b] = if (t.engOf (engineOf t a.toNat)).st != .trapped then stopEngine t (engineOf t a.toNat)
      else resolveEngine t (engineOf t a.toNat) (b.toNat == 1)) : Completes i s x := by
  obtain ⟨hsrcs, hmay⟩ := hopd
  refine completes_of_mode he hform (.inr ⟨hmay, rfl⟩) fun t hm hr ho => ?_
  rw [hmay] at hm
  rw [hsrcs] at hr ho ⊢
  obtain ⟨hsys, hh⟩ := hm
  change _ = Except.ok (x.eff t _ [srcValue t f.a.toNat, srcValue t f.b.toNat], _)
  rw [heff t _ _ _ ho]
  obtain ⟨hlow, hmode, hfrozen, hskip⟩ := hok t _ _ ho
  refine (bind_of_ok (stopVals_ok hr hlow (hmode.imp_right fun h => ⟨hh, h⟩)) _).trans ?_
  rw [← engNo_engineOf hlow] at hfrozen hskip ⊢
  have hmay : ¬ (decide ((srcValue t f.b.toNat).toNat = 1)
      && ((t.engOf (engNo (t.curCore / 32) (srcValue t f.a.toNat).toNat)).st != .trapped
        || !skippable (t.engOf (engNo (t.curCore / 32) (srcValue t f.a.toNat).toNat)).reason)) = true := by simpa using hskip
  exact (if_neg (by rw [hh]; exact Bool.false_ne_true)).trans ((if_neg (mt Option.isNone_iff_eq_none.1 hfrozen)).trans (if_neg hmay))

/-! ## MCSTAT (R236) -/

section
variable {t : State} {fa fb : Src}

/-- The checks of the handler's form: of A alone. -/
theorem statFirst_handler (hh : t.cur.handler = true) (ha : SrcReady t fa.1) (hlow : (srcValue t fa.1).toNat < 2 ^ 15)
    (hzero : bits (srcValue t fa.1).toNat 9 7 = 0) (hpage : bits (srcValue t fa.1).toNat 11 10 < 3) : statFirst t fa fb = .ok () := by
  unfold statFirst
  simp only [hh, peekCheck_ready ha, hzero, shiftRight_bne_zero, decide_eq_false (Nat.not_le.2 hlow), decide_eq_false hpage.ne]
  rfl

/-- The checks of the timed form. -/
theorem statFirst_timed (hh : t.cur.handler = false) (ha : SrcReady t fa.1) (hb : SrcReady t fb.1) (hlow : (srcValue t fa.1).toNat < 2 ^ 12)
    (hzero : bits (srcValue t fa.1).toNat 9 7 = 0) (hpage : bits (srcValue t fa.1).toNat 11 10 < 3) (haddr : (srcValue t fb.1).toNat < 2 ^ 23)
    (halign : (srcValue t fb.1).toNat % 64 = 0) : statFirst t fa fb = .ok () := by
  have hlow' : ¬ 2 ^ 15 ≤ (srcValue t fa.1).toNat := by omega
  have hword : bits (srcValue t fa.1).toNat 14 12 = 0 := by rw [bits_eq]; omega
  unfold statFirst
  simp only [hh, peekCheck_ready ha, peekCheck_ready hb, hzero, hword, halign, shiftRight_bne_zero, decide_eq_false hlow',
    decide_eq_false (Nat.not_le.2 haddr), decide_eq_false hpage.ne]
  rfl

end

/-- MCSTAT outside handler mode is sent. -/
theorem mcstat_sent {f : FP2} {s : State} {x : Doing} (hx : engineActs (.mcstat f) = some x) : Completes (.mcstat f) s x := by
  cases hx
  refine completes_of_mode (show execMcstat f s = _ from rfl) ⟨rfl, rfl, rfl, rfl⟩ (.inl rfl) fun t hm hr hok => ?_
  obtain ⟨hsys, hq⟩ := hm
  obtain ⟨ha, hb⟩ := srcReady_two hr
  obtain ⟨hlow, hzero, hpage, haddr, halign⟩ := hok
  have hvals := srcVals_ready t _ hr
  dsimp only
  rw [hq]
  refine (bind_of_ok (statFirst_timed hq ha hb hlow hzero hpage haddr halign) _).trans ((bind_of_ok hvals _).trans ?_)
  change _ = Except.ok (sendMsg _ _ _, Flow.seq 1)
  rw [sendMsg_popSrcs]
  rfl

theorem mcstat_frozen {f : FP2} {s : State} {x : Doing} (hx : frozenEngineActs (.mcstat f) = some x) : Completes (.mcstat f) s x := by
  cases hx
  refine completes_of_mode (show execMcstat f s = _ from rfl) ⟨rfl, rfl, rfl, rfl⟩ (.inr ⟨rfl, rfl⟩) fun t hm hr hok => ?_
  obtain ⟨hsys, hh⟩ := hm
  obtain ⟨hd, hlow, hzero, hpage, hfrozen⟩ := hok
  have ha : SrcReady t f.a.toNat := hr _ List.mem_cons_self
  have hvals := srcVals_ready t _ hr
  dsimp only
  rw [hh]
  refine (bind_of_ok (dstOk_ready t _ hd) _).trans ((bind_of_ok (statFirst_handler hh ha hlow hzero hpage) _).trans ?_)
  exact (bind_of_ok hvals _).trans (if_neg (mt Option.isNone_iff_eq_none.1 hfrozen))

/-! ## In handler mode -/

theorem mcstopStop_frozen {f : FP2} {s : State} {x : Doing} (hx : frozenEngineActs (.mcstopStop f) = some x) : Completes (.mcstopStop f) s x := by
  cases hx
  refine mcstop_frozen (show execMcstopStop f s = _ from rfl) ⟨rfl, rfl, rfl, rfl⟩ ⟨rfl, rfl⟩ (fun t a b hok => ?_) (fun t u a b hok => ?_)
  · obtain ⟨hlow, (hmode : b.toNat = 0), hfrozen⟩ := hok
    exact ⟨hlow, .inl hmode, hfrozen, fun hone => absurd (hmode.symm.trans hone) (by decide)⟩
  · obtain ⟨-, (hmode : b.toNat = 0), -⟩ := hok
    rw [hmode]
    by_cases htrap : (t.engOf (engineOf t a.toNat)).st = .trapped
    · exact (if_pos htrap).trans (if_neg (by simpa using htrap)).symm
    · exact (if_neg htrap).trans (if_pos (by simpa using htrap)).symm

theorem mcstopSkip_frozen {f : FP2} {s : State} {x : Doing} (hx : frozenEngineActs (.mcstopSkip f) = some x) : Completes (.mcstopSkip f) s x := by
  cases hx
  refine mcstop_frozen (show execMcstopSkip f s = _ from rfl) ⟨rfl, rfl, rfl, rfl⟩ ⟨rfl, rfl⟩ (fun t a b hok => ?_) (fun t u a b hok => ?_)
  · obtain ⟨hlow, hmode, hfrozen, htrap, hskip⟩ := hok
    exact ⟨hlow, .inr hmode, hfrozen, fun _ => ⟨htrap, hskip⟩⟩
  · obtain ⟨-, (hmode : b.toNat = 1), -, (htrap : (t.engOf (engineOf t a.toNat)).st = .trapped), -⟩ := hok
    rw [hmode, if_neg (by simpa using htrap)]
    rfl

theorem mcIllegal_afterMode (reason a b : Nat) : ClassFrom 0x03 (mcIllegal reason a b) := classFrom_illegal (by omega)

theorem mcbindChk_afterMode (s : State) (a b : Nat) : AfterMode (mcbindChk s a b) :=
  .ite (.error (mcIllegal_afterMode _ _ _)) (.ite (.error (mcIllegal_afterMode _ _ _)) (.ok _))

theorem mcbaseChk_afterMode (s : State) (a b : Nat) : AfterMode (mcbaseChk s a b) :=
  .ite (.error (mcIllegal_afterMode _ _ _)) (.ite (.error (mcIllegal_afterMode _ _ _)) (.ok _))

theorem mcstartChk_afterMode (s : State) (a b : Nat) : AfterMode (mcstartChk s a b) :=
  .ite (.error (mcIllegal_afterMode _ _ _)) (.ite (.error (mcIllegal_afterMode _ _ _)) (.ok _))

/-- An engine instruction that sends a message is forbidden in handler mode (R231). -/
theorem engineSend_forbidden {s : State} (hm : HandlerMode s) (hg : Unguarded s) {f : FP2} {fn : Nat} {zero : Nat → Bool}
    {chk : State → Nat → Nat → Res Unit} (hchk : ∀ s a b, AfterMode (chk s a b)) : engineSend f fn zero chk s = .next (takeTrap s 0x01 0x0003) :=
  issue_forbidden hg rfl (.bind (peekCheck_afterMode fun _ => .ite (.ok _) (.error (mcIllegal_afterMode _ _ _))) fun _ =>
    .bind (peekCheck_afterMode fun _ => hchk ..) fun _ => .bind (srcVals_afterMode ..) fun _ => .pure _) hm rfl

/-- Settles O37: the messages complete by one form, MCSTOP and MCSTAT also as they act on a frozen engine. -/
theorem engineInstructions : Obligations.EngineInstructions := by
  unfold Obligations.EngineInstructions
  refine ⟨fun i s x hx => ?_, fun i s x hx => ?_, fun f s hm hg => ⟨?_, ?_, ?_⟩⟩
  · cases i
    case mcstart f => exact mcstart_completes hx
    case mcbase f => exact mcbase_completes hx
    case mcbind f => exact mcbind_completes hx
    case mcstopStop f =>
      cases hx
      exact mcstop_sent (show execMcstopStop f s = _ from rfl)
    case mcstopSkip f =>
      cases hx
      exact mcstop_sent (show execMcstopSkip f s = _ from rfl)
    case mcstat f => exact mcstat_sent hx
    all_goals cases hx
  · cases i
    case mcstopStop f => exact mcstopStop_frozen hx
    case mcstopSkip f => exact mcstopSkip_frozen hx
    case mcstat f => exact mcstat_frozen hx
    all_goals cases hx
  · exact engineSend_forbidden hm hg mcbindChk_afterMode
  · exact engineSend_forbidden hm hg mcbaseChk_afterMode
  · exact engineSend_forbidden hm hg mcstartChk_afterMode

end Sys2Proof.Machine
end

section
/-! PROOFS. The events of paged memory (R305, R306, R311, R317, R318), windows of an engine among them (R217, R218, R227). -/

namespace Sys2Proof.Machine
open Sys2Proof.Claims

/-! ## Windows as propositions (R227, R317) -/

theorem windowClass_iff (e : EngSt) (cls : Nat) : windowClass e cls = true ↔ Claims.windowOpen e cls := by
  unfold windowClass Claims.windowOpen
  cases e.svw with
  | none => simp
  | some w => simp [Prod.ext_iff]

theorem servesPaged_iff (e : EngSt) : servesPaged e = true ↔ Serves e := by
  simp only [servesPaged, Serves, Bool.and_eq_true, Bool.or_eq_true, decide_eq_true_eq, windowClass_iff, Option.isNone_iff_eq_none, gt_iff_lt]

section
variable (s : State)

/-! ## PAGED_REQUEST_ARRIVAL (R305) -/

theorem execPagedRequestArrival_context (hd : s.ev.d = 0) : execPagedRequestArrival s = .next (arriveAu s s.ev.a s.ev.b) := by
  simp only [execPagedRequestArrival, hd]

theorem execPagedRequestArrival_other (hd : s.ev.d = 1) : execPagedRequestArrival s = .next (arriveExt s s.ev.a s.ev.b) := by
  simp only [execPagedRequestArrival, hd]

theorem execPagedRequestArrival_foreign (hd : s.ev.d = 2) : execPagedRequestArrival s = .next (foreignReq s) := by
  simp only [execPagedRequestArrival, hd]

theorem execPagedRequestArrival_word (hd : 3 ≤ s.ev.d) : execPagedRequestArrival s = .next (foreignWord s) := by
  obtain ⟨n, hn⟩ := Nat.exists_eq_add_of_le' hd
  simp only [execPagedRequestArrival, hn]

/-! ## PAGED_REQUEST_PERFORM (R317) -/

theorem execPagedRequestPerform_here (hd : s.ev.d = 0) : execPagedRequestPerform s = .next (performHead s s.ev.a) := by
  simp only [execPagedRequestPerform, hd]

theorem execPagedRequestPerform_far (hd : s.ev.d = 1) : execPagedRequestPerform s = .next (performFar s s.ev.a s.ev.b) := by
  simp only [execPagedRequestPerform, hd]

theorem execPagedRequestPerform_farExt (hd : 2 ≤ s.ev.d) : execPagedRequestPerform s = .next (performFarExt s s.ev.a s.ev.b) := by
  obtain ⟨n, hn⟩ := Nat.exists_eq_add_of_le' hd
  simp only [execPagedRequestPerform, hn]

variable (n : Nat)

/-- The line in the queue of an engine that is to perform next. -/
def nextPart : Option PagedPart := (s.engOf n).queue.find? (fun x => partTurn s n x && partMasked s n x && !partKept s n x)

/-- A line performs, once the window of its engine has issued its commands. -/
def performPart (x : PagedPart) (e : EngSt) : State :=
  let t := alsoNew (s.setEngOf n { e with queue := e.queue.erase x, paged := min (e.paged + 1) 0xFFFFFFFF }) (engDie n) x
  if x.key ≠ 0 then match auReqOf t (x.key - 1) x.id with
    | some r => performAu t (x.key - 1) r x.part
    | none => t
  else match (t.die (engDie n)).ext.find? (fun q => q.id == x.id) with
    | some q => performExt t (engDie n) q x.part
    | none => t

theorem performHead_idle (h : ¬ Serves (s.engOf n)) : performHead s n = s := by
  rw [performHead, if_neg (mt (servesPaged_iff _).1 h)]

theorem performHead_serves (h : Serves (s.engOf n)) :
    performHead s n = (nextPart s n).elim s fun x => (partServe s n x).elim s (performPart s n x) := by
  rw [performHead, if_pos ((servesPaged_iff _).2 h)]
  unfold nextPart
  cases (s.engOf n).queue.find? (fun x => partTurn s n x && partMasked s n x && !partKept s n x) with
  | none => rfl
  | some x =>
    dsimp only [Option.elim]
    cases partServe s n x with
    | none => rfl
    | some e =>
      by_cases hk : x.key = 0
      · exact (if_pos hk).trans (if_neg (not_not_intro hk)).symm
      · exact (if_neg hk).trans (if_pos hk).symm

end

/-! ## SPACE_MANAGER_ANSWER (R306, R311) -/

section
variable (s : State)

theorem execSpaceManagerAnswer_context (hd : s.ev.d = 0) : execSpaceManagerAnswer s = .next (answerAu s s.ev.a (s.ev.c == 1)) := by
  simp only [execSpaceManagerAnswer, hd]

theorem execSpaceManagerAnswer_other (hd : s.ev.d ≠ 0) : execSpaceManagerAnswer s =
    .next (((s.die s.ev.a).ext.find? (fun q => q.id == s.ev.b)).elim s fun q =>
      if s.ev.c = 1 ∧ q.queued = false then failExt s s.ev.a q 0x0C 1 else s) := by
  obtain ⟨n, hn⟩ := Nat.exists_eq_succ_of_ne_zero hd
  cases hq : (s.die s.ev.a).ext.find? (fun q => q.id == s.ev.b) with
  | none => simp only [execSpaceManagerAnswer, hn, hq, Option.elim]
  | some q =>
    simp only [execSpaceManagerAnswer, hn, hq, Option.elim, Bool.and_eq_true, decide_eq_true_eq, Bool.not_eq_true']
    exact (apply_ite Host.Outcome.next _ _ _).symm

end

/-! ## MIGR_COMPLETION, MIGRATION_LINE_COPY (R318) -/

section
variable (s : State)

theorem execMigrCompletion_found {r : AuReq} (h : auReqOf s s.ev.a s.ev.b = some r) :
    let c := s.ctxOf (s.ev.a / 4) (s.ev.a % 4)
    let stamped (st : Nat) : Ctx := { c with migrs := c.migrs ++ [(c.now, c.release + r.b0.toNat % 2 ^ 32, st, 0)] }
    execMigrCompletion s =
      if r.op = .migr ∧ r.ahead ≠ 1 then
        if r.place = .performed then
          .next (s.setCtx (s.ev.a / 4) (s.ev.a % 4) (auMod (stamped r.value) r.seqNo (fun x => { x with place := .landed })))
        else if (r.place = .faulted ∨ r.place = .delivered) ∧ r.value = 0 then
          .next (s.setCtx (s.ev.a / 4) (s.ev.a % 4) (auMod (stamped 2) r.seqNo (fun x => { x with value := 2 })))
        else .next s
      else .next s := by
  intro c stamped
  have hbar : (r.op != .migr || r.ahead == 1) = true ↔ ¬ (r.op = .migr ∧ r.ahead ≠ 1) := by
    rw [Bool.or_eq_true, bne_iff_ne, beq_iff_eq, not_and_or, not_not]
  simp only [execMigrCompletion, h, hbar, ite_not, Bool.and_eq_true, Bool.or_eq_true, beq_iff_eq, decide_eq_true_eq]
  rfl

theorem setMark_line (m : NMap Nat) (l : Nat) (poison : Option Nat) :
    setMark m l true poison = match poison with | some p => m.set l p | none => m.erase l := by
  cases poison <;> rfl

/-- The marks of copied lines (R398). -/
theorem setMark_lines (old : NMap Nat) (source target : Nat → Nat) (ls : List Nat) :
    ls.foldl (fun m l => setMark m (target l) true (old.find (source l))) old
      = ls.foldl (fun m l => match old.find (source l) with | some p => m.set (target l) p | none => m.erase (target l)) old :=
  congrArg (fun f => ls.foldl f old) (funext fun m => funext fun l => setMark_line m (target l) (old.find (source l)))

end

theorem pagedEvents_happen (s : State) : ∀ x ∈ pagedEvents s, Happens x.1 s x.2 := by
  unfold pagedEvents
  simp only [List.forall_mem_cons]
  refine ⟨?pagedRequestArrival, ?pagedRequestPerform, ?spaceManagerAnswer, ?migrCompletion, ?migrationLineCopy, ?migrationCopyEnd,
    fun x hx => absurd hx List.not_mem_nil⟩
  case pagedRequestArrival =>
    refine ⟨?_, fun _ hno => ?_⟩
    · simp only [List.forall_mem_cons]
      exact ⟨execPagedRequestArrival_context s, execPagedRequestArrival_other s, execPagedRequestArrival_foreign s, execPagedRequestArrival_word s,
        fun x hx => absurd hx List.not_mem_nil⟩
    · simp only [List.forall_mem_cons] at hno
      obtain ⟨h0, h1, h2, h3, -⟩ := hno
      omega
  case pagedRequestPerform =>
    refine .three (fun ⟨hd, hserves, x, e, hx, he⟩ => ?_) (execPagedRequestPerform_far s) (execPagedRequestPerform_farExt s) (fun _ h h' h'' => ?_)
    · refine (execPagedRequestPerform_here s hd).trans (congrArg _ ?_)
      rw [performHead_serves s _ hserves]
      simp only [nextPart, hx, he, Option.elim]
      rfl
    · have hd : s.ev.d = 0 := by omega
      refine (execPagedRequestPerform_here s hd).trans (congrArg _ ?_)
      by_cases hserves : Serves (s.engOf s.ev.a)
      · rw [performHead_serves s _ hserves]
        cases hx : nextPart s s.ev.a with
        | none => rfl
        | some x =>
          cases he : partServe s s.ev.a x with
          | none => simp only [Option.elim, he]
          | some e => exact absurd ⟨hd, hserves, x, e, hx, he⟩ h
      · exact performHead_idle s _ hserves
  case spaceManagerAnswer =>
    refine .two (execSpaceManagerAnswer_context s) (fun ⟨hd, hc, q, hq, hw⟩ => ?_) (fun _ hd h => ?_)
    · refine (execSpaceManagerAnswer_other s hd).trans (congrArg _ ?_)
      simp only [hq]
      exact if_pos ⟨hc, hw⟩
    · refine (execSpaceManagerAnswer_other s hd).trans (congrArg _ ?_)
      cases hq : (s.die s.ev.a).ext.find? (fun q => q.id == s.ev.b) with
      | none => rfl
      | some q => exact if_neg fun ⟨hc, hw⟩ => h ⟨hd, hc, q, hq, hw⟩
  case migrCompletion =>
    split
    next h => exact .never (by show execMigrCompletion s = _; simp only [execMigrCompletion, h])
    next r h =>
      have hexec := execMigrCompletion_found s h
      dsimp only at hexec
      refine .two (fun ⟨hop, ha, hp⟩ => ?_) (fun ⟨hop, ha, hp, hv⟩ => ?_) (fun _ h h' => hexec.trans ?_)
      · exact hexec.trans ((if_pos ⟨hop, ha⟩).trans (if_pos hp))
      · have hnot : r.place ≠ .performed := by
          intro hperf
          rw [hperf] at hp
          exact hp.elim nofun nofun
        exact hexec.trans ((if_pos ⟨hop, ha⟩).trans ((if_neg hnot).trans (if_pos ⟨hp, hv⟩)))
      · split
        next hm =>
          obtain ⟨hop, ha⟩ := hm
          exact (if_neg fun hp => h ⟨hop, ha, hp⟩).trans (if_neg fun ⟨hp, hv⟩ => h' ⟨hop, ha, hp, hv⟩)
        next => rfl
  case migrationLineCopy =>
    split
    next h => exact .never (by show execMigrationLineCopy s = _; simp only [execMigrationLineCopy, h])
    next m h =>
      have hbar : (engDie s.ev.b != s.ev.a || !windowClass (s.engOf s.ev.b) 2 || (s.engOf s.ev.b).frozen.isSome) = true
          ↔ ¬ (engDie s.ev.b = s.ev.a ∧ Claims.windowOpen (s.engOf s.ev.b) 2 ∧ (s.engOf s.ev.b).frozen = none) := by
        rw [← windowClass_iff, Bool.or_eq_true, Bool.or_eq_true, bne_iff_ne, Bool.not_eq_true', Option.isSome_iff_ne_none, ← Bool.not_eq_true,
          not_and_or, not_and_or, or_assoc]
      refine .once (fun hc => ?_) (fun hc => ?_)
      · show execMigrationLineCopy s = _
        simp only [execMigrationLineCopy, h]
        refine (if_neg (mt hbar.1 (not_not_intro hc))).trans ?_
        rw [setMark_lines] <;> rfl
      · show execMigrationLineCopy s = _
        simp only [execMigrationLineCopy, h]
        exact if_pos (hbar.2 hc)
  case migrationCopyEnd =>
    split
    next h => exact .never (by show execMigrationCopyEnd s = _; simp only [execMigrationCopyEnd, h])
    next m h =>
      have hbar : (!(migrLines m).all (fun l => m.copied.contains l)) = true ↔ ¬ ∀ l ∈ migrLines m, l ∈ m.copied := by
        simp
      refine .once (fun hc => ?_) (fun hc => ?_)
      · show execMigrationCopyEnd s = _
        simp only [execMigrationCopyEnd, h]
        exact if_neg (mt hbar.1 (not_not_intro hc))
      · show execMigrationCopyEnd s = _
        simp only [execMigrationCopyEnd, h]
        exact if_pos (hbar.2 hc)

/-- Settles O49: each event of paged memory by the equations of its `exec`. -/
theorem pagedEvents : Obligations.PagedEvents := pagedEvents_happen

end Sys2Proof.Machine
end

section
/-! PROOFS. The events of a memory command engine: arrivals (R220, R232–R235), the start of a table (R234), refresh (R224, R225), windows (R228), scrubbing
(R400, R401) and the keeper of a hold (R226, R229, R230). -/

namespace Sys2Proof.Machine
open Sys2Proof.Claims

section
variable (s : State)

/-! ## Arrivals (R220, R232–R235) -/

/-- The present engine changed once its message is taken. -/
theorem dropMsg_modEng (f : EngSt → EngSt) : (dropMsg s).modEng f = Claims.taken s f := State.modEng_modEng ..

section
variable {s} {m : McMsg}

theorem msgAt_due {fn : Nat} (h : DueMsg s fn m) : msgAt s fn = some m := by
  obtain ⟨hm, hfn, hdue⟩ := h
  simp only [msgAt, hm, hfn, hdue, beq_self_eq_true, Bool.and_self, if_true]

theorem msgAt_notDue {fn : Nat} (hm : s.eng.inbox[s.ev.c]? = some m) (h : ¬ DueMsg s fn m) : msgAt s fn = none := by
  have hnot : ¬ (m.fn == fn && m.due == s.eng.now) = true := by
    rw [Bool.and_eq_true, beq_iff_eq, beq_iff_eq]
    exact fun ⟨hfn, hdue⟩ => h ⟨hm, hfn, hdue⟩
  simp only [msgAt, hm, if_neg hnot]

theorem msgAt_empty {fn : Nat} (hm : s.eng.inbox[s.ev.c]? = none) : msgAt s fn = none := by
  simp only [msgAt, hm]

/-- A message that is due neither at a busy engine nor at an idle one is not due. -/
theorem not_due_of_busy {fn : Nat} (h : ¬ (DueMsg s fn m ∧ s.eng.busy = true)) (h' : ¬ (DueMsg s fn m ∧ s.eng.busy = false)) : ¬ DueMsg s fn m := by
  intro hdue
  cases hbusy : s.eng.busy
  · exact h' ⟨hdue, hbusy⟩
  · exact h ⟨hdue, hbusy⟩

/-- Only a message of the function is due for it. -/
theorem not_dueMsg_of_fn {fn : Nat} (h : m.fn ≠ fn) : ¬ DueMsg s fn m := fun ⟨_, hfn, _⟩ => h hfn

end

/-- MCBASE_ARRIVAL of a message that is no MCBASE now due: the table of an accepted one replaces the engine's once its last row has come (R233). -/
theorem execMcbaseArrival_waiting {m : McMsg} (hm : s.eng.inbox[s.ev.c]? = some m) (h : ¬ DueMsg s 2 m) : execMcbaseArrival s =
    if m.fn = mcbaseAccepted ∧ m.due + bits m.b 27 23 ≤ s.eng.now ∧ m.words.length = 32 * (bits m.b 27 23 + 1) then
      .next (Claims.taken s (fun e => { e with table := (m.words.zipIdx).map (fun w => (w.2, w.1)), loaded := m.words.length, badWords := [] }))
    else .next s := by
  simp only [execMcbaseArrival, msgAt_notDue hm h, hm, dropMsg_modEng, Bool.and_eq_true, beq_iff_eq, decide_eq_true_eq, and_assoc]
  rfl

theorem stopNow_eq : stopNow s = if s.eng.stopping = true ∧ failing s.eng.now (needPrea s.eng) = none then
    s.setEng { closeAll s.eng with st := .idle, stopping := false, pc := 0, left0 := 0, left1 := 0, act0 := false, act1 := false } else s := by
  simp only [stopNow, Bool.and_eq_true, Option.isNone_iff_eq_none]
  rfl

/-! ## Ticks (R224, R225) -/

theorem tickOf_eq_some {tb0 : Option Nat} {n now k : Nat} :
    tickOf tb0 n now = some k ↔ n ≠ 0 ∧ ∃ t, tb0 = some t ∧ 0 < k ∧ now = t + k * n := by
  cases tb0 with
  | none => simp [tickOf]
  | some t =>
    simp only [tickOf, Option.ite_none_right_eq_some, Bool.and_eq_true, bne_iff_ne, decide_eq_true_eq, beq_iff_eq, Option.some.injEq]
    constructor
    · rintro ⟨⟨⟨hn, hlt⟩, hmod⟩, rfl⟩
      have hdvd := Nat.dvd_of_mod_eq_zero hmod
      have hle := Nat.le_of_dvd (Nat.sub_pos_of_lt hlt) hdvd
      have hmul := Nat.div_mul_cancel hdvd
      exact ⟨hn, t, rfl, Nat.div_pos hle (Nat.pos_of_ne_zero hn), by omega⟩
    · rintro ⟨hn, _, rfl, hk, rfl⟩
      have hn' := Nat.pos_of_ne_zero hn
      have hpos := Nat.mul_pos hk hn'
      rw [Nat.add_sub_cancel_left, Nat.mul_mod_left, Nat.mul_div_cancel _ hn']
      exact ⟨⟨⟨hn, by omega⟩, rfl⟩, rfl⟩

/-- A bank that the next tick would take past MAXPOST (R224). -/
def tickPast (e : EngSt) (b : Nat) : Bool := decide (e.owe b + 1 > (e.maxPost : Int))

theorem noTickPast_iff (e : EngSt) : (List.range 16).find? (tickPast e) = none ↔ ∀ b, b < 16 → e.owe b + 1 ≤ (e.maxPost : Int) := by
  simp only [List.find?_eq_none, List.mem_range, tickPast, decide_eq_true_eq, not_lt, gt_iff_lt]

theorem tickPast_first {e : EngSt} {b : Nat} (hb : b < 16) (hpast : (e.maxPost : Int) < e.owe b + 1)
    (hlow : ∀ a, a < b → e.owe a + 1 ≤ (e.maxPost : Int)) : (List.range 16).find? (tickPast e) = some b :=
  List.find?_range_eq_some.2 ⟨decide_eq_true hpast, List.mem_range.2 hb, fun a ha => by simpa [tickPast] using hlow a ha⟩

/-- REFRESH_TICK on a cycle of a tick: every bank owes one refresh more (R224). -/
theorem execRefreshTick_counts {k : Nat} (h : tickOf (engTb0? s s.curEng) s.eng.tREFI s.eng.now = some k)
    (hfit : (List.range 16).find? (tickPast s.eng) = none) : execRefreshTick s = .next (s.setEng { s.eng with
      owed := (List.range 16).foldl (fun m b => NMap.set m b (s.eng.owe b + 1)) s.eng.owed, ticks := s.eng.ticks + 1 }) := by
  unfold tickPast at hfit
  simp only [execRefreshTick, h, hfit]
  rfl

/-- A tick that would take a bank past MAXPOST is MEMTIME 0x03 (R220, R224). -/
theorem execRefreshTick_past {k b : Nat} (h : tickOf (engTb0? s s.curEng) s.eng.tREFI s.eng.now = some k)
    (hpast : (List.range 16).find? (tickPast s.eng) = some b) : execRefreshTick s = .next (memTrap s 0x03 0 b 0) := by
  unfold tickPast at hpast
  simp only [execRefreshTick, h, hpast]

theorem execRefreshTick_none (h : tickOf (engTb0? s s.curEng) s.eng.tREFI s.eng.now = none) : execRefreshTick s = .next s := by
  simp only [execRefreshTick, h]

theorem execStandingRefresh_due {k : Nat} (h : tickOf (engTb0? s s.curEng) s.eng.tREFIpb s.eng.now = some k) : execStandingRefresh s =
    if (s.eng.st = .idle ∨ s.eng.st = .started) ∧ s.eng.isOpen (k % 16) = false ∧ failing s.eng.now (needRefpb s.eng (k % 16)) = none
      ∧ tooFar s.eng (k % 16) = false then
      .next (s.setEng { refreshBank s.wb s.eng (k % 16) with standing := s.eng.standing + 1 })
    else .next s := by
  simp only [execStandingRefresh, h, Bool.and_eq_true, Bool.or_eq_true, beq_iff_eq, Bool.not_eq_true', Option.isNone_iff_eq_none, and_assoc]
  rfl

/-! ## The start of a table, the end of a window (R228, R234) -/

theorem execTableStart_eq : execTableStart s =
    if s.eng.st = .started ∧ s.eng.stopping = false ∧ s.eng.now = engTb0 s s.curEng + s.eng.start then
      if s.eng.loaded = 0 then .next (memTrap s 0x09 0 0 0) else .next (s.setEng { s.eng with st := .running })
    else .next s := by
  simp only [execTableStart, Bool.and_eq_true, beq_iff_eq, Bool.not_eq_true', and_assoc]
  rfl

/-! ## Scrubbing (R400, R401) -/

/-- A scrub window is open that is not left to paged requests and has room for a step (R227, R401). -/
theorem scrubs_iff (n : Nat) :
    (windowClass (s.engOf n) 1 && (s.engOf n).frozen.isNone && decide ((s.engOf n).queue.length ≤ bits (scrubWord (s.engOf n)) 31 16)
        && scrubRoom s n) = true
      ↔ Claims.windowOpen (s.engOf n) 1 ∧ (s.engOf n).frozen = none ∧ (s.engOf n).queue.length ≤ bits (scrubWord (s.engOf n)) 31 16
        ∧ scrubRoom s n = true := by
  simp only [Bool.and_eq_true, decide_eq_true_eq, windowClass_iff, Option.isNone_iff_eq_none, and_assoc]

theorem keeperScrubs_iff (n : Nat) : keeperScrubs s n = true ↔
    ((s.engOf n).busyTill ≤ s.wb ∧ (s.engOf n).frozen ≠ none ∧ (s.engOf n).keeper = 1 ∧ (s.engOf n).hw ≤ 0
        ∧ holdOver s (engPart s n) (engSlot s n) = false)
      ∨ ((s.engOf n).frozen = none ∧ Claims.windowOpen (s.engOf n) 3 ∧ windowRefabAt (s.engOf n) = none) := by
  simp only [keeperScrubs, Bool.or_eq_true, Bool.and_eq_true, decide_eq_true_eq, beq_iff_eq, Bool.not_eq_true', windowClass_iff,
    Option.isSome_iff_ne_none, Option.isNone_iff_eq_none, and_assoc]

/-- What serves a keeper's scrub step: the wall time of a hold, or a window. -/
def keeperServe (x : EngSt) : Option EngSt :=
  if x.frozen.isSome then some { x with busyTill := s.wb + scrubTime x (colsBack s.ev.data) } else scrubServe x s.ev.data

theorem execKeeperScrubStep_served {f : EngSt} (h : keeperScrubs s s.ev.a = true ∧ scrubRoom s s.ev.a = true)
    (hf : keeperServe s (s.engOf s.ev.a) = some f) : execKeeperScrubStep s =
      .next (scrubRow (s.setEngOf s.ev.a { f with scrub := f.scrub + 1 }) s.ev.a
        (if (s.engOf s.ev.a).frozen.isSome then 15 else windowMask (s.engOf s.ev.a)) (goodCols s.ev.data) (badCols s.ev.data)) := by
  unfold keeperServe at hf
  refine (if_pos (Bool.and_eq_true_iff.2 h)).trans ?_
  simp only [hf]

theorem execKeeperScrubStep_idle (h : keeperScrubs s s.ev.a = true → scrubRoom s s.ev.a = true → keeperServe s (s.engOf s.ev.a) = none) :
    execKeeperScrubStep s = .next s := by
  by_cases hb : (keeperScrubs s s.ev.a && scrubRoom s s.ev.a) = true
  · obtain ⟨hscrubs, hroom⟩ := Bool.and_eq_true_iff.1 hb
    have hf := h hscrubs hroom
    unfold keeperServe at hf
    refine (if_pos hb).trans ?_
    simp only [hf]
  · exact if_neg hb

/-! ## The keeper (R226, R229, R230) -/

/-- A REFAB issued by a window whose view of the banks is `v`. -/
theorem keeperRefab_svcPut (wb : Nat) (e v : EngSt) : keeperRefab wb (svcPut e v) = { svcPut e v with
    hw := max (e.hw - (e.tREFI : Int)) (-((e.maxPost * e.tREFI : Nat) : Int)), busyTill := wb + e.tRFCab, refWall := wb + e.tRFCab } := rfl

/-- A REFAB at one engine of a list, of a hold where `owes`, else of a window; `w` is the engine with the window's own commands. -/
theorem refabStep_eq (wb : Nat) (m : NMap EngSt) (n : Nat) (owes window : Bool) {e w v : EngSt} (hw : w = svcPut e v) :
    (if owes then NMap.set m n (keeperRefab wb e) else if window then NMap.set m n (keeperRefab wb w) else m)
      = if owes || window then NMap.set m n { (if owes then e else w) with
          hw := max (e.hw - (e.tREFI : Int)) (-((e.maxPost * e.tREFI : Nat) : Int)), busyTill := wb + e.tRFCab, refWall := wb + e.tRFCab }
        else m := by
  subst hw
  cases owes with
  | true => rfl
  | false => cases window with
    | true => exact congrArg (NMap.set m n) (keeperRefab_svcPut wb e v)
    | false => rfl

/-- A REFAB of a keeper, of a hold or of a class-3 window, on the engines of a list. -/
theorem execKeeperRefab_eq : execKeeperRefab s = .next (onEngines s s.ev.data
    (fun n e => owesRefab s n e || windowRefab s.wb e)
    (fun n e => { (if owesRefab s n e then e else windowPut e) with
      hw := max (e.hw - (e.tREFI : Int)) (-((e.maxPost * e.tREFI : Nat) : Int)), busyTill := s.wb + e.tRFCab, refWall := s.wb + e.tRFCab })) := by
  have howes (n : Nat) (e : EngSt) : (refabDue s.wb e || restRefab s n) = owesRefab s n e := rfl
  have hput (e : EngSt) : windowPut e = svcPut e { closedView e with refAll := some e.now } := rfl
  unfold execKeeperRefab onEngines
  simp only [howes, fun m n e => refabStep_eq s.wb m n (owesRefab s n e) (windowRefab s.wb e) (hput e)]

end

theorem engineEvents_happen (s : State) : ∀ x ∈ engineEvents s, Happens x.1 s x.2 := by
  unfold engineEvents
  simp only [List.forall_mem_cons]
  refine ⟨?mcbindArrival, ?mcbaseArrival, ?mcstartArrival, ?mcstopArrival, ?tableStart, ?refreshTick, ?standingRefresh, ?svwEnd, ?scrubStep,
    ?keeperEntry, ?keeperRefab, ?keeperScrubStep, ?keeperReopen, fun x hx => absurd hx List.not_mem_nil⟩
  case mcbindArrival =>
    split
    next hm => exact .never (by show execMcbindArrival s = _; simp only [execMcbindArrival, msgAt_empty hm])
    next m hm =>
      refine .once (fun h => ?_) (fun h => ?_)
      · show execMcbindArrival s = _
        simp only [execMcbindArrival, msgAt_due h, dropMsg_modEng]
      · show execMcbindArrival s = _
        simp only [execMcbindArrival, msgAt_notDue hm h]
  case mcbaseArrival =>
    split
    next hm => exact .never (by show execMcbaseArrival s = _; simp only [execMcbaseArrival, msgAt_empty hm, hm])
    next m hm =>
      refine .three (fun ⟨hdue, hbusy⟩ => ?_) (fun ⟨hdue, hbusy⟩ => ?_) (fun hheld => ?_) (fun _ h h' h'' => ?_)
      · show execMcbaseArrival s = _
        simp only [execMcbaseArrival, msgAt_due hdue, hbusy, if_true]
      · show execMcbaseArrival s = _
        simp only [execMcbaseArrival, msgAt_due hdue, hbusy, Bool.false_eq_true, if_false]
        rfl
      · have hfn : m.fn ≠ 2 := hheld.1.trans_ne (by decide)
        exact (execMcbaseArrival_waiting s hm (not_dueMsg_of_fn hfn)).trans (if_pos hheld)
      · have hdue : ¬ DueMsg s 2 m := not_due_of_busy h h'
        exact (execMcbaseArrival_waiting s hm hdue).trans (if_neg h'')
  case mcstartArrival =>
    split
    next hm => exact .never (by show execMcstartArrival s = _; simp only [execMcstartArrival, msgAt_empty hm])
    next m hm =>
      refine .two (fun ⟨hdue, hbusy⟩ => ?_) (fun ⟨hdue, hbusy⟩ => ?_) (fun _ h h' => ?_)
      · show execMcstartArrival s = _
        simp only [execMcstartArrival, msgAt_due hdue, hbusy, if_true]
      · show execMcstartArrival s = _
        simp only [execMcstartArrival, msgAt_due hdue, hbusy, Bool.false_eq_true, if_false, dropMsg_modEng]
        rfl
      · have hdue : ¬ DueMsg s 0 m := not_due_of_busy h h'
        show execMcstartArrival s = _
        simp only [execMcstartArrival, msgAt_notDue hm hdue]
  case mcstopArrival =>
    have hwaits (hno : msgAt s 1 = none) : execMcstopArrival s = .next (stopNow s) := by simp only [execMcstopArrival, hno]
    split
    next m hm =>
      refine .two (fun hdue => ?_) (fun ⟨hdue, hstop⟩ => ?_) (fun _ hdue h => ?_)
      · show execMcstopArrival s = _
        simp only [execMcstopArrival, msgAt_due hdue]
        rfl
      · exact (hwaits (msgAt_notDue hm hdue)).trans (congrArg _ ((stopNow_eq s).trans (if_pos hstop)))
      · exact (hwaits (msgAt_notDue hm hdue)).trans (congrArg _ ((stopNow_eq s).trans (if_neg fun hstop => h ⟨hdue, hstop⟩)))
    next hm =>
      have hexec := hwaits (msgAt_empty hm)
      exact .once (fun h => hexec.trans (congrArg _ ((stopNow_eq s).trans (if_pos h))))
        (fun h => hexec.trans (congrArg _ ((stopNow_eq s).trans (if_neg h))))
  case tableStart =>
    have hexec := execTableStart_eq s
    refine .two (fun ⟨hst, hstop, hnow, hl⟩ => ?_) (fun ⟨hst, hstop, hnow, hl⟩ => ?_) (fun _ h h' => hexec.trans (if_neg fun ⟨hst, hstop, hnow⟩ => ?_))
    · exact hexec.trans ((if_pos ⟨hst, hstop, hnow⟩).trans (if_neg hl))
    · exact hexec.trans ((if_pos ⟨hst, hstop, hnow⟩).trans (if_pos hl))
    · by_cases hl : s.eng.loaded = 0
      · exact h' ⟨hst, hstop, hnow, hl⟩
      · exact h ⟨hst, hstop, hnow, hl⟩
  case refreshTick =>
    refine ⟨?_, fun hfits hno => ?_⟩
    · simp only [List.forall_mem_cons]
      refine ⟨fun ⟨hn, ⟨t, k, htb, hk, hnow⟩, hfits⟩ => ?_, fun x hx => absurd hx List.not_mem_nil⟩
      exact execRefreshTick_counts s (tickOf_eq_some.2 ⟨hn, t, htb, hk, hnow⟩) ((noTickPast_iff s.eng).2 hfits)
    · cases htick : tickOf (engTb0? s s.curEng) s.eng.tREFI s.eng.now with
      | none => exact execRefreshTick_none s htick
      | some k =>
        obtain ⟨hn, t, htb, hk, hnow⟩ := tickOf_eq_some.1 htick
        exact absurd ⟨hn, ⟨t, k, htb, hk, hnow⟩, hfits⟩ (hno _ List.mem_cons_self)
  case standingRefresh =>
    split
    next h => exact .never (by show execStandingRefresh s = _; simp only [execStandingRefresh, h])
    next k h =>
      have hexec := execStandingRefresh_due s h
      exact .once (fun hc => hexec.trans (if_pos hc)) (fun hc => hexec.trans (if_neg hc))
  case svwEnd =>
    split
    next h => exact .never (by show execSvwEnd s = _; simp only [execSvwEnd, h])
    next w h =>
      have hexec : execSvwEnd s = if w.2.2 ≤ s.eng.now then .next (s.setEng { s.eng with svw := none }) else .next s := by
        simp only [execSvwEnd, h]
        rfl
      exact .once (fun hc => hexec.trans (if_pos hc)) (fun hc => hexec.trans (if_neg hc))
  case scrubStep =>
    refine .once (fun ⟨hw, hf, hq, hroom, f, hs⟩ => ?_) (fun h => ?_)
    · refine (if_pos ((scrubs_iff s _).2 ⟨hw, hf, hq, hroom⟩)).trans ?_
      simp only [hs]
    · by_cases hgo : (windowClass (s.engOf s.ev.a) 1 && (s.engOf s.ev.a).frozen.isNone
          && decide ((s.engOf s.ev.a).queue.length ≤ bits (scrubWord (s.engOf s.ev.a)) 31 16) && scrubRoom s s.ev.a) = true
      · obtain ⟨hw, hf, hq, hroom⟩ := (scrubs_iff s _).1 hgo
        refine (if_pos hgo).trans ?_
        cases hs : scrubServe (s.engOf s.ev.a) s.ev.data with
        | none => rfl
        | some f => exact absurd ⟨hw, hf, hq, hroom, f, hs⟩ h
      · exact if_neg hgo
  case keeperEntry => exact .always rfl
  case keeperRefab => exact .always (execKeeperRefab_eq s)
  case keeperScrubStep =>
    refine .once (fun ⟨⟨f, hf⟩, hroom, hscrubs⟩ => ?_) (fun h => execKeeperScrubStep_idle s fun hscrubs hroom => ?_)
    · refine (execKeeperScrubStep_served s ⟨(keeperScrubs_iff s _).2 hscrubs, hroom⟩ hf).trans ?_
      simp only [hf]
    · exact Option.eq_none_iff_forall_ne_some.2 fun f hf => h ⟨⟨f, hf⟩, hroom, (keeperScrubs_iff s _).1 hscrubs⟩
  case keeperReopen => exact .always rfl

/-- Settles O50: each event of an engine by the equations of its `exec`, and a tick past MAXPOST by the lowest bank that it takes there. -/
theorem engineEvents : Obligations.EngineEvents := by
  unfold Obligations.EngineEvents
  refine ⟨engineEvents_happen, fun s t k b hn htb hk hnow hb hpast hlow => ?_⟩
  exact execRefreshTick_past s (tickOf_eq_some.2 ⟨hn, t, htb, hk, hnow⟩) (tickPast_first hb hpast hlow)

end Sys2Proof.Machine
end

section
/-! PROOFS. The matrix array accepts a command whose streams, formats and tiles pass their checks (R249–R260, R265–R267). -/

namespace Sys2Proof.Machine
open Sys2Proof.Claims

/-! ## Streams that a command reads -/

theorem mem_opStreams (c : Ctx) (n : Nat) : n ∈ opStreams c n := by
  unfold opStreams
  split
  · split <;> exact List.mem_cons_self
  · exact List.mem_cons_self

section
variable {t : State} {ss : List Nat} (h : ReadStreams t ss)
include h

theorem closedCheck_read (station : Nat) : closedCheck t.cur station ss = .ok () :=
  closedCheck_open (fun n hn => by obtain ⟨st, hst, -⟩ := h n hn; simp [hst]) station

theorem not_any_written_of_read : ¬ ss.any (fun n => (t.cur.strms.find n).any (·.wr)) = true := by
  rw [List.any_eq_true]
  rintro ⟨n, hn, hwr⟩
  obtain ⟨st, hst, hread⟩ := h n hn
  simp [hst, hread] at hwr

end

/-! ## Acceptance -/

/-- A command of a station pops nothing, so it completes where its body does from the state at issue what is said. -/
theorem completes_of_station {n : Nat} {i : Instr} {s : State} {x : Doing} {body : State → Res (State × Flow)}
    (he : exec i s = issue s { handlerOk := false, first := busyCheck n } body)
    (hform : x.srcs = [] ∧ x.words = 1 ∧ x.ends = false ∧ x.signs = true ∧ x.flow = fun _ _ => .seq 1)
    (hmay : x.may s → QueueMode s ∧ StationFree s n)
    (hb : ∀ t, x.ok t [] → body t = .ok (x.eff t t [], .seq 1)) : Completes i s x := by
  obtain ⟨hsrcs, hwords, hends, hsigns, hflow⟩ := hform
  refine completes_of i s x _ _ he hwords.symm hsigns.symm hends.symm (fun hm _ => busyCheck_free (hmay hm).2)
    (fun hm => .inr (queueMode_not_handler (hmay hm).1)) (fun _ _ => rfl) fun _ hok _ => ?_
  rw [hsrcs] at hok ⊢
  rw [popSrcs_nil, hflow]
  exact hb _ hok

/-- MMA of any mode; with ACC it also takes its tile from the chain of writes (R245, R249–R256). -/
theorem mmaIssue_completes {i : Instr} {s : State} {f : FMma} {mode : Nat} (he : exec i s = mmaIssue f mode s) :
    Completes i s (mmaAct f mode) := by
  unfold mmaIssue at he
  refine completes_of_station he ⟨rfl, rfl, rfl, rfl, rfl⟩ id fun t hok => ?_
  obtain ⟨hread, hchecks, hchain⟩ := hok
  obtain ⟨a, ha, -⟩ := hread _ (List.mem_append_left _ (mem_opStreams ..))
  obtain ⟨b, hb, -⟩ := hread _ (List.mem_append_right _ (mem_opStreams ..))
  obtain ⟨hfault, htiles⟩ := hchecks a b ha hb
  refine (bind_of_ok (closedCheck_read hread 1) _).trans ?_
  have hwr := not_any_written_of_read hread
  simp only [mmaAct, ha, hb]
  refine (if_neg hwr).trans ?_
  rw [hfault]
  refine (bind_of_ok htiles _).trans ?_
  cases hacc : f.acc
  · rfl
  · exact bind_of_ok (hchain hacc) _

/-- ACCZ writes its tile as it issues (R258). -/
theorem accz_completes {s : State} {f : FT} {x : Doing} (hx : matrixActs (.accz f) = some x) : Completes (.accz f) s x := by
  cases hx
  exact completes_of_station (show _ = execAccz f s from rfl) ⟨rfl, rfl, rfl, rfl, rfl⟩ id fun t htiles => bind_of_ok htiles _

/-- ACCLD and ACCADD, of which ACCADD takes its rows from the chain of writes (R245, R259). -/
theorem accIssue_completes {i : Instr} {s : State} {f : FTS} {kind : CmdKind} (he : exec i s = accIssue f kind s) :
    Completes i s (accAct f kind) := by
  unfold accIssue at he
  refine completes_of_station he ⟨rfl, rfl, rfl, rfl, rfl⟩ id fun t hok => ?_
  obtain ⟨⟨a, ha, hread, hfmt, hspace⟩, htiles, hchain⟩ := hok
  have hopen : closedCheck t.cur 1 [f.s.toNat % 16] = .ok () := closedCheck_open (by simp [ha]) 1
  refine (bind_of_ok hopen _).trans ?_
  simp only [accAct, ha]
  refine (if_neg (by simp [hread])).trans ((if_neg (by rcases hfmt with hfmt | hfmt <;> simp [hfmt, hspace])).trans ?_)
  by_cases hold : kind = .accadd
  · subst hold
    exact (bind_of_ok htiles _).trans (bind_of_ok (hchain rfl) _)
  · simp only [hold, beq_iff_eq, if_false] at htiles ⊢
    exact bind_of_ok htiles _

/-- ACCMV drives its converted rows from two cycles after its issue on (R260). -/
theorem accmv_completes {s : State} {f : FAmv} {x : Doing} (hx : matrixActs (.accmv f) = some x) : Completes (.accmv f) s x := by
  cases hx
  have he : exec (.accmv f) s = execAccmv f s := rfl
  unfold execAccmv at he
  refine completes_of_station he ⟨rfl, rfl, rfl, rfl, rfl⟩ id fun t hok => ?_
  obtain ⟨⟨st, hst, hwr, hdst, hspace⟩, hfoot, hpoison⟩ := hok
  have hopen : closedCheck t.cur 1 [f.s.toNat % 16] = .ok () := closedCheck_open (by simp [hst]) 1
  refine (bind_of_ok hopen _).trans ?_
  simp only [hst]
  refine (if_neg (not_not_of_true hwr)).trans ((if_neg (not_or_of_true hdst (by simp [hspace]))).trans ?_)
  exact (bind_of_ok hfoot _).trans (bind_of_ok hpoison _)

/-! ## Factorisations and solves -/

/-- The steps that a command of a kind takes are those of its dimensions (R267). -/
theorem factSteps_eq (x : Cmd) : factSteps x = factLength x.kind x.dimM x.dimN := by
  unfold factSteps factLength
  cases x.kind <;> rfl

theorem factIssue_completes {i : Instr} {s : State} {kind : CmdKind} {tile tile2 fl : Nat} (he : exec i s = factIssue s kind tile tile2 fl) :
    Completes i s (factAct kind tile tile2 fl) := by
  unfold factIssue at he
  refine completes_of_station he ⟨rfl, rfl, rfl, rfl, rfl⟩ id fun t hok => ?_
  obtain ⟨hdiff, htiles⟩ := hok
  have htwo : ¬ ((kind == .trsm || kind == .grot) && tile == tile2) = true := by simpa using hdiff
  refine (if_neg htwo).trans ?_
  simp only [factSteps_eq, factAct]
  by_cases hzero : (factLength kind (dimM t.cur) (dimN t.cur)).1 = 0
  · refine (if_pos hzero).trans ?_
    rw [if_pos hzero]
    rfl
  · refine (if_neg hzero).trans ((bind_of_ok (htiles hzero) _).trans ?_)
    rw [if_neg hzero]
    rfl

/-- Settles O32: with its streams, formats and tiles good, each command meets no fault and its station takes it for its cycles. -/
theorem matrixCommands : Obligations.MatrixCommands := by
  unfold Obligations.MatrixCommands
  rintro i s x (hx | hx)
  · cases i
    case mmaFlt | mmaW4 | mmaL6 | mmaT3 | mmaI8 | mmaF32 => cases hx; exact mmaIssue_completes rfl
    case accld | accadd => cases hx; exact accIssue_completes rfl
    case accz => exact accz_completes hx
    case accmv => exact accmv_completes hx
    all_goals cases hx
  · cases i
    case chol | lup | givqr | grot | trsm => cases hx; exact factIssue_completes rfl
    all_goals cases hx

end Sys2Proof.Machine
end

section
/-! PROOFS. Element access, the step counters, the pivot state, RESUME and EABORT on operands that pass their checks (R261–R263, R275, R281). -/

namespace Sys2Proof.Machine
open Sys2Proof.Claims

/-! ## Operands -/

@[simp] theorem arg1_srcValues (t : State) (a : Src) (fs : List Src) : arg1 (srcValues t (a :: fs)) = srcValue t a.1 := rfl

/-! ## Element access (R261) -/

section
variable (x : Word)

theorem bits_idxTile : bits x.toNat 6 0 = idxTile x := (bits_eq ..).trans (by rw [pow_zero, Nat.div_one]; rfl)
theorem bits_idxRow : bits x.toNat 12 7 = idxRow x := bits_eq ..
theorem bits_idxCol : bits x.toNat 18 13 = idxCol x := bits_eq ..

end

section
variable {t : State} {wr : Bool} {x : Word}

theorem accIndexOk_ok (h : x.toNat < 2 ^ 19) : accIndexOk x = .ok () := if_neg (Nat.not_le.2 h)

theorem accAccess_reached (h : Reaches t wr x) : accAccess t wr x = .ok (reached t wr x) := by
  obtain ⟨w, hw⟩ := h
  rw [reached, hw]

end

theorem accrd_completes {f : FDA} {s : State} {x : Doing} (hx : elementAccessActs (.accrd f) = some x) : Completes (.accrd f) s x := by
  cases hx
  refine completes_of_issue1 (show _ = execAccrd f s from rfl) ⟨rfl, rfl, rfl, rfl⟩ fun t hr hok => ?_
  obtain ⟨hd, hlow, hreach, hpoison⟩ := hok
  refine (bind_of_ok (dstOk_ready t _ hd) _).trans ((bind_of_ok (srcVals_ready t _ hr) _).trans ?_)
  refine (bind_of_ok (accIndexOk_ok hlow) _).trans ((bind_of_ok (accAccess_reached hreach) _).trans ?_)
  simp only [arg1_srcValues] at hpoison
  simp only [bits_idxTile, bits_idxRow, bits_idxCol, hpoison]
  rfl

theorem accwr_completes {f : FAB} {s : State} {x : Doing} (hx : elementAccessActs (.accwr f) = some x) : Completes (.accwr f) s x := by
  cases hx
  refine completes_of_issue1 (show _ = execAccwr f s from rfl) ⟨rfl, rfl, rfl, rfl⟩ fun t hr hok => ?_
  obtain ⟨hlow, hreach⟩ := hok
  have hfirst : peekCheck t (f.a.toNat, f.ka) accIndexOk = .ok () := (peekCheck_ready (srcReady_two hr).1 _).trans (accIndexOk_ok hlow)
  refine (bind_of_ok (lowerClass_of_ok hfirst (srcVals_ready t _ hr)) _).trans ((bind_of_ok (accAccess_reached hreach) _).trans ?_)
  simp only [bits_idxTile, bits_idxRow, bits_idxCol]
  rfl

/-! ## The step counters and the pivot state (R262, R275) -/

theorem estep_completes {f : FDA} {s : State} {x : Doing} (hx : elementAccessActs (.estep f) = some x) : Completes (.estep f) s x := by
  cases hx
  refine completes_of_issue1 (show _ = execEstep f s from rfl) ⟨rfl, rfl, rfl, rfl⟩ fun t hr hok => ?_
  obtain ⟨hd, hstation⟩ := hok
  refine (bind_of_ok (dstOk_ready t _ hd) _).trans ((bind_of_ok (srcVals_ready t _ hr) _).trans ?_)
  refine (if_neg (not_not_of_true (List.contains_iff_mem.2 hstation))).trans ?_
  simp only [arg1_srcValues, List.mem_cons, List.not_mem_nil, or_false] at hstation ⊢
  rcases hstation with h | h | h | h <;> rw [h] <;> rfl

/-- A read of the pivot state gives the entry of an index below the limit. -/
theorem pivRead_completes {i : Instr} {s : State} {x : Doing} {f : FDA} {lim : Nat} {get : Ctx → Nat → Nat} (he : exec i s = pivRead f s lim get)
    (hform : x.words = 1 ∧ x.ends = false ∧ x.signs = true ∧ x.flow = fun _ _ => .seq 1) (hsrcs : x.srcs = [(f.a.toNat, f.ka)])
    (hok : ∀ t vs, x.ok t vs → DstReady t f.d.toNat ∧ (arg1 vs).toNat < lim)
    (heff : ∀ t u vs, (arg1 vs).toNat < lim → x.eff t u vs = result u 1 f.d.toNat (BitVec.ofNat 64 (get t.cur (arg1 vs).toNat))) :
    Completes i s x := by
  refine completes_of_issue1 he hform fun t hr ho => ?_
  obtain ⟨hd, hlim⟩ := hok t _ ho
  rw [heff _ _ _ hlim]
  rw [hsrcs] at hr hlim ⊢
  refine (bind_of_ok (dstOk_ready t _ hd) _).trans ((bind_of_ok (srcVals_ready t _ hr) _).trans ?_)
  exact if_neg (Nat.not_le.2 hlim)

theorem pivrd_completes {f : FDA} {s : State} {x : Doing} (hx : elementAccessActs (.pivrd f) = some x) : Completes (.pivrd f) s x := by
  cases hx
  exact pivRead_completes (show _ = execPivrd f s from rfl) ⟨rfl, rfl, rfl, rfl⟩ rfl (fun _ _ h => h) fun _ _ _ _ => rfl

theorem gfrd_completes {f : FDA} {s : State} {x : Doing} (hx : elementAccessActs (.gfrd f) = some x) : Completes (.gfrd f) s x := by
  cases hx
  refine pivRead_completes (show _ = execGfrd f s from rfl) ⟨rfl, rfl, rfl, rfl⟩ rfl (fun _ _ h => h) fun t u vs hlim => ?_
  have hindex : (arg1 vs).toNat = 0 ∨ (arg1 vs).toNat = 1 ∨ (arg1 vs).toNat = 2 := by omega
  rcases hindex with h | h | h <;> simp only [h] <;> rfl

/-! ## RESUME and EABORT (R263, R281) -/

/-- An instruction of one source that is legal in handler mode alone completes there where its body does what is said. -/
theorem completes_of_handlerOnly {i : Instr} {s : State} {x : Doing} {a : Src} {body : State → Res (State × Flow)}
    (he : exec i s = issue s { pre := handlerOnly } body)
    (hform : x.words = 1 ∧ x.ends = false ∧ x.signs = true ∧ x.flow = fun _ _ => .seq 1) (hsrcs : x.srcs = [a]) (hmay : x.may = HandlerMode)
    (hb : ∀ t v, srcVals t [a] = .ok [v] → x.ok t [v] → body t = .ok (x.eff t (popSrcs t [a]) [v], .seq 1)) : Completes i s x := by
  obtain ⟨hwords, hends, hsigns, hflow⟩ := hform
  refine completes_of i s x _ _ he hwords.symm hsigns.symm hends.symm (fun _ _ => rfl) (fun _ => .inl rfl) (fun hm _ => ?_) fun _ hok hvals => ?_
  · rw [hmay] at hm
    obtain ⟨hsys, hh⟩ := hm
    exact if_pos (by rw [inHandler, hsys, hh]; rfl)
  · rw [hsrcs] at hok hvals ⊢
    rw [hflow]
    exact hb _ _ hvals hok

theorem resume_completes {f : FA} {s : State} {x : Doing} (hx : elementAccessActs (.resume f) = some x) : Completes (.resume f) s x := by
  cases hx
  refine completes_of_handlerOnly (show _ = execResume f s from rfl) ⟨rfl, rfl, rfl, rfl⟩ rfl rfl fun t v hvals hone => ?_
  exact (bind_of_ok hvals _).trans (if_neg (by simpa [arg1] using hone))

section
variable {s : State}

/-- A context stored as it stands is no change to a later store of it. -/
theorem modCur_setCur_self (g : Ctx → Ctx) : (s.setCur s.cur).modCur g = s.modCur g := by simp [State.modCur]

/-- The sequencer of a compute core stores the context, so that it goes on alike from a state whose context has been stored as it stands. -/
theorem advance_setCur_self (hsys : s.onSys = false) (n cycles : Nat) : advance (s.setCur s.cur) n cycles = advance s n cycles := by
  have hgoto : ∀ target, goto (s.setCur s.cur) target cycles = goto s target cycles := fun target => by
    simp only [goto, State.setCur_onSys, hsys, Bool.false_eq_true, if_false, modCur_setCur_self]
  have hloops : ∀ ls, setLoops (s.setCur s.cur) ls = setLoops s ls := fun ls => by
    simp only [setLoops, State.setCur_onSys, hsys, Bool.false_eq_true, if_false, modCur_setCur_self]
  have hstack : loopsOf (s.setCur s.cur) = loopsOf s := by simp [loopsOf]
  have hpc : pcOf (s.setCur s.cur) = pcOf s := by simp [pcOf]
  simp only [advance, hgoto, hloops, hstack, hpc]

end

/-- EABORT, its effect said by `abortCmd`. -/
def abortDoing (f : FA) : Doing where
  srcs := [(f.a.toNat, f.ka)]
  may := HandlerMode
  ok := fun _ vs => (arg1 vs).toNat = 1 ∨ (arg1 vs).toNat = 5
  eff := fun t _ vs => t.modCur (fun c => abortCmd c (arg1 vs).toNat)

theorem eabort_aborts (f : FA) (s : State) : Completes (.eabort f) s (abortDoing f) := by
  refine completes_of_handlerOnly (show _ = execEabort f s from rfl) ⟨rfl, rfl, rfl, rfl⟩ rfl rfl fun t v hvals hstation => ?_
  have hmem : [1, 5].contains v.toNat = true := by simpa [abortDoing, arg1] using hstation
  exact (bind_of_ok hvals _).trans (if_neg (not_not_of_true hmem))

/-- The sequencer goes on alike from what is said of EABORT: where no command is in progress it stores the context as it stands. -/
theorem advance_abortCmd {f : FA} {x : Doing} (hx : elementAccessActs (.eabort f) = some x) {t : State} (hsys : t.onSys = false) (u : State)
    (vs : List Word) : advance (t.modCur (fun c => abortCmd c (arg1 vs).toNat)) 1 1 = advance (x.eff t u vs) 1 1 := by
  cases hx
  cases hcmd : currentCmd t.cur (arg1 vs).toNat with
  | none =>
    simp only [abortCmd, hcmd, State.modCur]
    exact advance_setCur_self hsys 1 1
  | some y => simp only [abortCmd, hcmd, State.modCur]

theorem eabort_completes {f : FA} {s : State} {x : Doing} (hx : elementAccessActs (.eabort f) = some x) : Completes (.eabort f) s x := by
  have heff := fun {t} hsys => advance_abortCmd (t := t) hx hsys
  cases hx
  intro hmay hg hl hr hok
  refine (eabort_aborts f s hmay hg hl hr hok).trans (congrArg Host.Outcome.next ?_)
  obtain ⟨hsys, -⟩ := hmay
  exact heff ((atIssue_onSys s (abortDoing f)).trans hsys) _ _

/-- Settles O34: each instruction of the family completes once its operands pass its checks, EABORT also where no command is in progress. -/
theorem elementAccess : Obligations.ElementAccess := by
  unfold Obligations.ElementAccess
  intro i s x hx
  cases i
  case accrd => exact accrd_completes hx
  case accwr => exact accwr_completes hx
  case estep => exact estep_completes hx
  case pivrd => exact pivrd_completes hx
  case gfrd => exact gfrd_completes hx
  case resume => exact resume_completes hx
  case eabort => exact eabort_completes hx
  all_goals cases hx

end Sys2Proof.Machine
end

section
/-! PROOFS. Paged instructions, RSTQ and scratchpad atomics enter their requests (R286, R287, R290, R291, R307, R308, R318, R320–R324). -/

namespace Sys2Proof.Machine
open Sys2Proof.Claims

/-! ## Checks of an address and of the lot (R302, R307, R326) -/

section
variable {a : Nat} (opd : Nat)

theorem vaCheck_ok (h : a < 2 ^ 57) : vaCheck a opd = .ok () :=
  if_neg (by rw [shiftRight_bne_zero]; simpa using h)

theorem vaCheck_high (h : 2 ^ 57 ≤ a) : vaCheck a opd = .error (illegalOp 0x12 0x01 opd) :=
  if_pos (shiftRight_bne_zero.trans (decide_eq_true h))

theorem vaAligned_ok {size : Nat} (h : a % size = 0) : vaAligned a size opd = .ok () := if_neg (by simp [h])

theorem vaAligned_misaligned {size : Nat} (h : a % size ≠ 0) : vaAligned a size opd = .error (illegalOp 0x12 0x02 opd) := if_pos (bne_iff_ne.2 h)

end

/-- The check of an address that a store and a MIGR make before any other (R326). -/
def addressCheck (va : Word → Nat) (size : Nat) (x : Word) : Res Unit := (vaCheck (va x) x.toNat).bind fun _ => vaAligned (va x) size x.toNat

section
variable {va : Word → Nat} {size : Nat} {x : Word}

theorem addressCheck_ok (h : vaOk (va x) size) : addressCheck va size x = .ok () := by
  obtain ⟨hlow, halign⟩ := h
  exact (bind_of_ok (vaCheck_ok _ hlow) _).trans (vaAligned_ok _ halign)

theorem addressCheck_high (h : 2 ^ 57 ≤ va x) : addressCheck va size x = .error (illegalOp 0x12 0x01 x.toNat) := bind_of_error (vaCheck_high _ h) _

theorem addressCheck_misaligned (h : va x < 2 ^ 57) (hbad : va x % size ≠ 0) : addressCheck va size x = .error (illegalOp 0x12 0x02 x.toNat) :=
  (bind_of_ok (vaCheck_ok _ h) _).trans (vaAligned_misaligned _ hbad)

end

theorem pagedWordOk_iff {a : Nat} : pagedWordOk a = true ↔ vaOk a 8 := by
  have hhigh : (a >>> 57 == 0) = decide (a < 2 ^ 57) := by
    rw [← Bool.not_inj_iff, ← bne, shiftRight_bne_zero, ← decide_not]
    exact decide_eq_decide.2 Nat.not_lt.symm
  simp only [pagedWordOk, hhigh, vaOk, Bool.and_eq_true, decide_eq_true_iff, beq_iff_eq]

theorem lotRoom_ok {s : State} (h : lotCount s < 256) (opd : Nat) : lotRoom s opd = .ok () := if_neg (Nat.not_le.2 h)

theorem lotRoom_full {s : State} (h : 256 ≤ lotCount s) (opd : Nat) : lotRoom s opd = .error (illegalOp 0x12 0x05 opd) := if_pos h

/-! ## A request enters the sequence (R307, R308) -/

/-- A request enters with the reservation of its destination. -/
theorem auEnter_reserveQ (u : State) (r : AuReq) : (auEnter u r).modCur (fun c => reserveQ c r.dest r.seqNo) = u.setCur (enterRequest u.cur r) := by
  simp only [auEnter, State.modCur, State.setCur_cur, State.setCur_setCur]
  refine congrArg u.setCur ?_
  unfold reserveQ enterRequest
  by_cases hsent : u.cur.aus.any (fun x => (x.seqNo == r.seqNo && x.ahead == 1) && x.place != .faulted) = true
  · by_cases hd : r.dest = 0 <;> simp [hsent, hd]
  · by_cases hd : r.dest = 0 <;> simp [hsent, hd]

/-- A request without a destination enters. -/
theorem auEnter_eq (u : State) {r : AuReq} (h : r.dest = 0) : auEnter u r = u.setCur (enterRequest u.cur r) := by
  rw [← auEnter_reserveQ, h]
  simp [reserveQ, auEnter, State.modCur]

/-- A destination of 0 is q0. -/
theorem destination_zero {α : Type} (d : BitVec 6) (x y : α) : (if d.toNat = 0 then x else y) = if d = 0 then x else y :=
  if_congr (BitVec.toNat_eq (y := 0)).symm rfl rfl

/-! ## Loads and stores (R320, R321, R323) -/

theorem load_completes {i : Instr} {s : State} {f : FLs} {size : Nat} {sign : Bool} (he : exec i s = loadIssue f size sign s) :
    Completes i s (loadAct f size sign) := by
  refine completes_of_mode he ⟨rfl, rfl, rfl, rfl⟩ (.inl rfl) fun t hm hr hok => ?_
  obtain ⟨hsys, -⟩ := hm
  obtain ⟨hlow, halign⟩ := hok
  have hvals := srcVals_ready t _ hr
  refine (bind_of_ok hvals _).trans ((bind_of_ok (vaCheck_ok _ hlow) _).trans ((bind_of_ok (vaAligned_ok _ halign) _).trans ?_))
  dsimp only
  rw [hsys, destination_zero]
  exact congrArg (fun u => Except.ok (u, Flow.seq 1)) (auEnter_reserveQ _ _)

/-- The address of a store and the room in the lot pass. -/
theorem storeAddrFirst_ok {t : State} {a : Src} {addr : Word → Nat} {size : Nat} (hsys : t.onSys = false) (ha : SrcReady t a.1)
    (hva : vaOk (addr (srcValue t a.1)) size) (hroom : lotCount t < 256) : storeAddrFirst t a addr size = .ok () :=
  (bind_of_ok ((peekCheck_ready ha (addressCheck _ _)).trans (addressCheck_ok hva)) _).trans ((if_neg (ne_true_of_eq_false hsys)).trans (lotRoom_ok hroom _))

theorem store_completes {i : Instr} {s : State} {f : FLs} {size : Nat} (he : exec i s = storeIssue f size s) :
    Completes i s (storeAct f size) := by
  refine completes_of_mode he ⟨rfl, rfl, rfl, rfl⟩ (.inl rfl) fun t hm hr hok => ?_
  obtain ⟨hsys, -⟩ := hm
  obtain ⟨hva, hroom⟩ := hok
  obtain ⟨ha, -⟩ := srcReady_two hr
  have hvals := srcVals_ready t _ hr
  refine (bind_of_ok (storeAddrFirst_ok hsys ha hva hroom) _).trans ((bind_of_ok hvals _).trans ((if_neg (ne_true_of_eq_false hsys)).trans ?_))
  exact congrArg (fun u => Except.ok (u, Flow.seq 1)) (auEnter_eq _ rfl)

section
variable {s : State} {x : Doing}

theorem stq_completes {f : FAB} (hx : pagedActs (.stq f) = some x) : Completes (.stq f) s x := by
  cases hx
  refine completes_of_mode (show _ = execStq f s from rfl) ⟨rfl, rfl, rfl, rfl⟩ (.inl rfl) fun t hm hr hok => ?_
  obtain ⟨hsys, -⟩ := hm
  obtain ⟨hva, hroom⟩ := hok
  obtain ⟨ha, -⟩ := srcReady_two hr
  have hvals := srcVals_ready t _ hr
  refine (bind_of_ok (storeAddrFirst_ok hsys ha hva hroom) _).trans ((bind_of_ok hvals _).trans ?_)
  exact congrArg (fun u => Except.ok (u, Flow.seq 1)) (auEnter_eq _ rfl)

/-! ## MIGR, AUSTAT, LDQ (R318, R322, R324) -/

theorem migr_completes {f : FAB} (hx : pagedActs (.migr f) = some x) : Completes (.migr f) s x := by
  cases hx
  refine completes_of_mode (show _ = execMigr f s from rfl) ⟨rfl, rfl, rfl, rfl⟩ (.inl rfl) fun t hm hr hok => ?_
  obtain ⟨hva, hdeadline, hroom⟩ := hok
  obtain ⟨ha, hb⟩ := srcReady_two hr
  have hvals := srcVals_ready t _ hr
  refine (bind_of_ok ((peekCheck_ready ha (addressCheck _ _)).trans (addressCheck_ok hva)) _).trans ?_
  refine (bind_of_ok (operandFirst_ok hb (decide_eq_true hdeadline) ..) _).trans ((bind_of_ok (lotRoom_ok hroom _) _).trans ?_)
  exact (bind_of_ok hvals _).trans (congrArg (fun u => Except.ok (u, Flow.seq 1)) (auEnter_eq _ rfl))

theorem austat_completes {f : FD} (hx : pagedActs (.austat f) = some x) : Completes (.austat f) s x := by
  cases hx
  refine completes_of_issue1 (show _ = execAustat f s from rfl) ⟨rfl, rfl, rfl, rfl⟩ fun t _ hd => ?_
  rw [popSrcs_nil]
  exact bind_of_ok (dstOk_ready t _ hd) _

end

/-- The context with the address of the next line fill (R313, R322). -/
theorem landNext_eq (c : Ctx) :
    landNext c = { c with land := BitVec.ofNat 64 (c.land.toNat / 2 ^ 23 * 2 ^ 23 + (c.land.toNat % 2 ^ 23 + 128) % 2 ^ 23) } := by
  have hput : putBits c.land.toNat 22 0 ((bits c.land.toNat 22 0 + 128) % 2 ^ 23)
      = c.land.toNat / 2 ^ 23 * 2 ^ 23 + (c.land.toNat % 2 ^ 23 + 128) % 2 ^ 23 := by
    unfold putBits bits
    simp only [Nat.shiftRight_zero]
    omega
  unfold landNext
  rw [hput]

/-- A line fill enters, and LAND goes on to the next line (R322). -/
theorem auEnter_landNext (u : State) (r : AuReq) :
    (auEnter u r).modCur (fun c => landNext (reserveQ c r.dest r.seqNo)) = u.setCur (landNext (enterRequest u.cur r)) := by
  have hfold : ∀ v : State, v.modCur (fun c => landNext (reserveQ c r.dest r.seqNo)) = (v.modCur (fun c => reserveQ c r.dest r.seqNo)).modCur landNext := by
    simp [State.modCur]
  rw [hfold, auEnter_reserveQ]
  simp [State.modCur]

theorem enterRequest_land (c : Ctx) (r : AuReq) : (enterRequest c r).land = c.land := rfl

theorem ldqAct_eff_word {f : FDA} {t u : State} {vs : List Word} (h : (arg1 vs).toNat % 8 = 0) :
    (ldqAct f).eff t u vs = u.setCur (enterRequest u.cur
      { newRequest t (if f.d = 0 then .touch else .load) (arg1 vs).toNat 8 with dest := f.d.toNat }) := if_pos h

theorem ldqAct_eff_line {f : FDA} {t u : State} {vs : List Word} (h : (arg1 vs).toNat % 8 ≠ 0) (hland : u.cur.land = t.cur.land) :
    (ldqAct f).eff t u vs = u.setCur (landNext (enterRequest u.cur
      { newRequest t (if f.d = 0 then .touch else .fill) ((arg1 vs).toNat - 1) 128 with
        dest := f.d.toNat, b1 := BitVec.ofNat 64 (t.cur.land.toNat % 2 ^ 23), tag := t.cur.land.toNat / 2 ^ 48 })) := by
  rw [landNext_eq, enterRequest_land, hland]
  exact if_neg h

theorem ldq_completes {i : Instr} {s : State} {f : FDA} (he : exec i s = ldq f s) : Completes i s (ldqAct f) := by
  refine completes_of_mode he ⟨rfl, rfl, rfl, rfl⟩ (.inl rfl) fun t hm hr hok => ?_
  have hvals := srcVals_ready t _ hr
  generalize srcValues t (ldqAct f).srcs = vs at hvals hok
  obtain ⟨hlow, hform⟩ := hok
  refine (bind_of_ok hvals _).trans ((bind_of_ok (vaCheck_ok _ hlow) _).trans ?_)
  change (arg1 vs).toNat % 8 = 0 ∨ (arg1 vs).toNat % 128 = 1 at hform
  have hknown : ¬ 2 ≤ (arg1 vs).toNat % 8 := by omega
  have haligned : ¬ (decide ((arg1 vs).toNat % 8 = 1) && bits (arg1 vs).toNat 6 3 != 0) = true := by
    simp only [bits_eq, Bool.and_eq_true, decide_eq_true_iff, bne_iff_ne, not_and_or, not_not]
    omega
  refine (if_neg hknown).trans ((if_neg haligned).trans ?_)
  by_cases hword : (arg1 vs).toNat % 8 = 0
  · have hop : ∀ o : AuOp, (if f.d.toNat = 0 then AuOp.touch else if (arg1 vs).toNat % 8 = 0 then .load else o)
        = if f.d = 0 then .touch else .load := fun o => by rw [destination_zero, if_pos hword]
    rw [ldqAct_eff_word hword, ← hop .fill]
    exact (if_pos hword).trans (congrArg (fun u => Except.ok (u, Flow.seq 1)) (auEnter_reserveQ _ _))
  · have hland : (popSrcs t (ldqAct f).srcs).cur.land = t.cur.land := by rw [popSrcs_cur]
    have hplace : bits t.cur.land.toNat 22 0 = t.cur.land.toNat % 2 ^ 23 := by simp [bits_eq]
    have htag : bits t.cur.land.toNat 63 48 = t.cur.land.toNat / 2 ^ 48 := by
      have hword64 := t.cur.land.isLt
      rw [bits_eq]
      omega
    have hop : ∀ o : AuOp, (if f.d.toNat = 0 then AuOp.touch else if (arg1 vs).toNat % 8 = 0 then o else .fill)
        = if f.d = 0 then .touch else .fill := fun o => by rw [destination_zero, if_neg hword]
    rw [ldqAct_eff_line hword hland, ← hplace, ← htag, ← hop .load]
    exact (if_neg hword).trans (congrArg (fun u => Except.ok (u, Flow.seq 1)) (auEnter_landNext _ _))

/-! ## Paged atomics (R290) -/

theorem pagedAtomic_completes {i : Instr} {s : State} {f : FDAB} {cas : Bool} (he : exec i s = pagedAtomic f cas s) :
    Completes i s (pagedAtomicAct f cas) := by
  refine completes_of_mode he ⟨rfl, rfl, rfl, rfl⟩ (.inl rfl) fun t hm hr hok => ?_
  obtain ⟨hsys, -⟩ := hm
  obtain ⟨hva, hroom⟩ := hok
  have ha : SrcReady t f.a.toNat := hr _ List.mem_cons_self
  have hvals := srcVals_ready t _ hr
  have hcore : (!t.onSys) = true := by rw [hsys]; rfl
  refine (bind_of_ok (operandFirst_ok ha (pagedWordOk_iff.2 hva) ..) _).trans ((if_pos hcore).trans ((bind_of_ok (lotRoom_ok hroom _) _).trans ?_))
  cases cas <;> exact (bind_of_ok hvals _).trans ((if_neg (ne_true_of_eq_false hsys)).trans
    (congrArg (fun u => Except.ok (u, Flow.seq 1)) (auEnter_reserveQ _ _)))

/-! ## RSTQ (R291) -/

/-- A local RSTQ is due after the cycles of the dies between (R291). -/
theorem rstqArrival_eq (t : State) (a : Nat) (v : Word) :
    rstqArrival t a v = { rstqArrival t a v with
      due := t.cur.now + 24 + 8 * (if t.curCore / 32 ≤ (32 * t.curPart + bits a 30 23) / 32
        then (32 * t.curPart + bits a 30 23) / 32 - t.curCore / 32 else t.curCore / 32 - (32 * t.curPart + bits a 30 23) / 32) } := by
  have hfar : ∀ m n : Nat, max m n - min m n = if m ≤ n then n - m else m - n := fun m n => by split <;> omega
  rw [← hfar]
  rfl

/-- A remote RSTQ enters with its operands (R291, R307). -/
theorem auEnter_rstq (t u : State) (va tag : Nat) (a v : Word) :
    auEnter u { auNew t .rstq va 8 with b0 := v, b1 := BitVec.ofNat 64 a.toNat, tag := tag }
      = u.setCur (enterRequest u.cur { newRequest t .rstq va 8 with b0 := v, b1 := a, tag := tag }) := by
  rw [BitVec.ofNat_toNat, BitVec.setWidth_eq]
  exact auEnter_eq _ rfl

theorem rstq_completes {i : Instr} {s : State} {x : Doing} (hx : rstqActs i = some x) : Completes i s x := by
  cases i
  case rstq f =>
    cases hx
    refine completes_of_mode (show _ = execRstq f s from rfl) ⟨rfl, rfl, rfl, rfl⟩ (.inl rfl) fun t hm hr hok => ?_
    obtain ⟨htarget, hroom⟩ := hok
    obtain ⟨ha, hb⟩ := srcReady_two hr
    have hvals := srcVals_ready t _ hr
    have hremote : bitB (srcValue t f.a.toNat).toNat 36 = (srcValue t f.a.toNat).getLsbD 36 := bitB_testBit ..
    have hlot : peekCheck t (f.a.toNat, f.ka) (fun x => if bitB x.toNat 36 then lotRoom t x.toNat else .ok ()) = .ok () := by
      rw [peekCheck_ready ha, hremote]
      split
      next h => exact lotRoom_ok (hroom h) _
      next => rfl
    refine (bind_of_ok (operandFirst_ok ha htarget ..) _).trans ((bind_of_ok hlot _).trans ((bind_of_ok hvals _).trans ?_))
    by_cases hpkg : (srcValue t f.a.toNat).getLsbD 36 = true
    · exact (if_pos (hremote.trans hpkg)).trans (congrArg (fun u => Except.ok (u, Flow.seq 1)) ((auEnter_rstq ..).trans (if_pos hpkg).symm))
    · refine (if_neg (hremote.trans_ne hpkg)).trans (congrArg (fun u => Except.ok (u, Flow.seq 1)) (Eq.trans ?_ (if_neg hpkg).symm))
      exact congrArg (sendArrival _ _) (rstqArrival_eq ..)
  all_goals cases hx

/-! ## Scratchpad atomics (R286, R287) -/

/-- The reserved cycles of an atomic start from its core, of which popping its operands leaves the cycle and the address. -/
theorem atomicAct_eff {f : FDAB} {op : Nat} {t u : State} {vs : List Word} (hnow : u.cur.now = t.cur.now) (hpc : u.cur.pc = t.cur.pc) :
    (atomicAct f op).eff t u vs = u.modCur fun c => { c with atomics := c.atomics ++
      [{ issue := c.now, addr := c.pc, op := op, a := bits (arg1 vs).toNat 22 0, perm := bits (arg1 vs).toNat 27 24, b0 := vs.getD 1 0,
         b1 := vs.getD 2 0, d := f.d.toNat, x := none, poison := none }] } := by
  unfold atomicAct
  dsimp only
  rw [← hnow, ← hpc]
  rfl

theorem atomic_completes {i : Instr} {s : State} {f : FDAB} {op : Nat} (he : exec i s = atomic f op s) : Completes i s (atomicAct f op) := by
  refine completes_of_mode he ⟨rfl, rfl, rfl, rfl⟩ (.inl rfl) fun t hm hr hok => ?_
  have ha : SrcReady t f.a.toNat := hr _ List.mem_cons_self
  have hvals := srcVals_ready t _ hr
  have hlegal : (!atomicBad (srcValue t f.a.toNat).toNat) = true := congrArg (!·) hok
  have hsources : ((f.a.toNat, f.ka) :: if (op == 3) = true then [(f.b.toNat, f.kb), (f.b.toNat + 1, f.kb)] else [(f.b.toNat, f.kb)])
      = (atomicAct f op).srcs := by
    by_cases hop : op = 3 <;> simp [atomicAct, hop]
  refine (bind_of_ok (operandFirst_ok ha hlegal ..) _).trans ?_
  dsimp only
  rw [hsources, atomicAct_eff (popSrcs_now ..) (by rw [popSrcs_cur])]
  exact bind_of_ok hvals _

/-- Settles O22: every access enters by `auEnter`, which is `enterRequest`; a local RSTQ and a scratchpad atomic leave the access unit alone. -/
theorem memoryInstructions : Obligations.MemoryInstructions := by
  unfold Obligations.MemoryInstructions
  rintro i s x (hx | hx | hx)
  · cases i
    case ldsD f => cases hx; exact load_completes (f := f) (size := 8) (sign := false) rfl
    case ldsWu f => cases hx; exact load_completes (f := f) (size := 4) (sign := false) rfl
    case ldsWs f => cases hx; exact load_completes (f := f) (size := 4) (sign := true) rfl
    case ldsHu f => cases hx; exact load_completes (f := f) (size := 2) (sign := false) rfl
    case ldsBu f => cases hx; exact load_completes (f := f) (size := 1) (sign := false) rfl
    case stsD f => cases hx; exact store_completes (f := f) (size := 8) rfl
    case stsW f => cases hx; exact store_completes (f := f) (size := 4) rfl
    case stsH f => cases hx; exact store_completes (f := f) (size := 2) rfl
    case stsB f => cases hx; exact store_completes (f := f) (size := 1) rfl
    case ldq f => cases hx; exact ldq_completes (f := f) rfl
    case ldqLineFill f => cases hx; exact ldq_completes (f := f) rfl
    case stq f => exact stq_completes hx
    case migr f => exact migr_completes hx
    case pamoadd f => cases hx; exact pagedAtomic_completes (f := f) (cas := false) rfl
    case pamocas f => cases hx; exact pagedAtomic_completes (f := f) (cas := true) rfl
    case austat f => exact austat_completes hx
    all_goals cases hx
  · exact rstq_completes hx
  · cases i
    case amoadd f => cases hx; exact atomic_completes (f := f) (op := 0) rfl
    case amomax f => cases hx; exact atomic_completes (f := f) (op := 1) rfl
    case amoswp f => cases hx; exact atomic_completes (f := f) (op := 2) rfl
    case amocas f => cases hx; exact atomic_completes (f := f) (op := 3) rfl
    all_goals cases hx

end Sys2Proof.Machine
end

section
/-! PROOFS. Paged addresses out of range or misaligned, reserved forms and a full lot are ILLEGAL (R301, R302, R326). -/

namespace Sys2Proof.Machine
open Sys2Proof.Claims

/-! ## What a signature leaves -/

section
variable (s : State) (n : Nat)

@[simp] theorem lotCount_signed : lotCount (signed s n) = lotCount s := by
  unfold lotCount
  rw [phaseNow_signed, signed_cur]
  rfl

@[simp] theorem rstqOk_signed (a : Nat) : rstqOk (signed s n) a = rstqOk s a := by
  obtain h | ⟨g, w, h⟩ := signed_frame s n <;> rw [h]
  simp [rstqOk]

@[simp] theorem seenOr_signed (f : Src) : seenOr (signed s n) f = seenOr s f := by
  have hfree : (signed s n).free = s.free := by
    obtain h | ⟨g, w, h⟩ := signed_frame s n <;> rw [h]
    rfl
  unfold seenOr
  rw [srcVals_signed, hfree]

end

/-! ## Operands that are judged first (R89, R326) -/

theorem seenOr_ready {s : State} {f : Src} (h : SrcReady s f.1) : seenOr s f = srcValue s f.1 := by
  unfold seenOr
  rw [srcVals_ready s [f] (List.forall_mem_singleton.2 h)]
  rfl

section
variable {s : State} {f : Src} {chk : Word → Res Unit}

theorem peekCheck_signed (h : SrcReady s f.1) (chk : Word → Res Unit) : peekCheck (signed s 1) f chk = chk (srcValue s f.1) := by
  rw [peekCheck_ready ((srcReady_signed ..).2 h), srcValue_signed]

/-- A source that cannot be read is not judged. -/
theorem peekCheck_signed_passes (hm : QueueMode s) (h : SrcReady s f.1 → chk (srcValue s f.1) = .ok ()) :
    peekCheck (signed s 1) f chk = .ok () := by
  by_cases hready : SrcReady s f.1
  · exact (peekCheck_signed hready chk).trans (h hready)
  · unfold peekCheck
    rw [srcVals_signed]
    split
    next v hv => exact absurd (srcsReady_of_srcVals hm hv _ List.mem_cons_self) hready
    next => rfl

theorem lotRoom_signed_full (hfull : 256 ≤ lotCount s) (f : Src) :
    lotRoom (signed s 1) (seenOr (signed s 1) f).toNat = .error (illegalOp 0x12 0x05 (seenOr s f).toNat) := by
  rw [seenOr_signed]
  exact lotRoom_full (hfull.trans_eq (lotCount_signed ..).symm) _

end

/-- A store stops at its address. -/
theorem storeAddrFirst_illegal {s : State} {a : Src} {addr : Word → Nat} {size : Nat} {e : Stop} (ha : SrcReady s a.1)
    (hbad : addressCheck addr size (srcValue s a.1) = .error e) : storeAddrFirst (signed s 1) a addr size = .error e :=
  bind_of_error ((peekCheck_signed ha (addressCheck addr size)).trans hbad) _

/-- A store stops at the full lot. -/
theorem storeAddrFirst_full {s : State} (hm : QueueMode s) {a : Src} {addr : Word → Nat} {size : Nat} (hfull : 256 ≤ lotCount s)
    (hva : SrcReady s a.1 → vaOk (addr (srcValue s a.1)) size) :
    storeAddrFirst (signed s 1) a addr size = .error (illegalOp 0x12 0x05 (seenOr s a).toNat) := by
  have hcore : (signed s 1).onSys = false := (signed_onSys ..).trans hm.1
  have haddr : peekCheck (signed s 1) a (addressCheck addr size) = .ok () := peekCheck_signed_passes hm fun ha => addressCheck_ok (hva ha)
  exact (bind_of_ok haddr _).trans ((if_neg (ne_true_of_eq_false hcore)).trans (lotRoom_signed_full hfull a))

/-- An instruction takes the ILLEGAL of its address where that is out of range or misaligned; EINFO shows the operand `x` (R326). -/
structure AddressIllegal (i : Instr) (s : State) (x : Word) (va size : Nat) : Prop where
  high : 2 ^ 57 ≤ va → exec i s = illegalWith s 0x12 0x01 x
  misaligned : va < 2 ^ 57 → va % size ≠ 0 → exec i s = illegalWith s 0x12 0x02 x

section
variable {s : State} (hm : QueueMode s) (hg : Unguarded s)
include hm hg

/-- The ILLEGAL of a body is taken. -/
theorem issue_plain_illegal {body : State → Res (State × Flow)} {cls reason : Nat} {x : Word}
    (hb : body (signed s 1) = .error (illegalOp cls reason x.toNat)) : issue s { handlerOk := false } body = illegalWith s cls reason x :=
  (issue_plain_stop hm hg hb).trans (congrArg Host.Outcome.next (takeStop_illegal ..))

/-! ## Loads (R308, R320, R322) -/

theorem load_illegal {i : Instr} {f : FLs} {size : Nat} {sign : Bool} (ha : SrcReady s f.a.toNat) (he : exec i s = loadIssue f size sign s) :
    AddressIllegal i s (srcValue s f.a.toNat) (pagedAddr (srcValue s f.a.toNat) f.disp size) size where
  high h := he.trans (issue_plain_illegal hm hg ((bind_of_ok (srcVals_signed_one 1 ha) _).trans (bind_of_error (vaCheck_high _ h) _)))
  misaligned h hbad := he.trans (issue_plain_illegal hm hg ((bind_of_ok (srcVals_signed_one 1 ha) _).trans
    ((bind_of_ok (vaCheck_ok _ h) _).trans (bind_of_error (vaAligned_misaligned _ hbad) _))))

section
variable {f : FDA} (ha : SrcReady s f.a.toNat)
include ha

theorem ldq_high (h : 2 ^ 57 ≤ (srcValue s f.a.toNat).toNat) : ldq f s = illegalWith s 0x12 0x01 (srcValue s f.a.toNat) :=
  issue_plain_illegal hm hg ((bind_of_ok (srcVals_signed_one 1 ha) _).trans (bind_of_error (vaCheck_high _ h) _))

theorem ldq_misaligned (h : (srcValue s f.a.toNat).toNat < 2 ^ 57) (hline : (srcValue s f.a.toNat).toNat % 8 = 1)
    (hbad : bits (srcValue s f.a.toNat).toNat 6 3 ≠ 0) : ldq f s = illegalWith s 0x12 0x02 (srcValue s f.a.toNat) := by
  have hknown : ¬ 2 ≤ (srcValue s f.a.toNat).toNat % 8 := by omega
  have hfill : (decide ((srcValue s f.a.toNat).toNat % 8 = 1) && bits (srcValue s f.a.toNat).toNat 6 3 != 0) = true := by simp [hline, hbad]
  refine issue_plain_illegal hm hg ((bind_of_ok (srcVals_signed_one 1 ha) _).trans ((bind_of_ok (vaCheck_ok _ h) _).trans ?_))
  exact (if_neg hknown).trans (if_pos hfill)

theorem ldq_reserved (h : (srcValue s f.a.toNat).toNat < 2 ^ 57) (hform : 2 ≤ (srcValue s f.a.toNat).toNat % 8) :
    ldq f s = illegalWith s 0x12 0x03 (srcValue s f.a.toNat) :=
  issue_plain_illegal hm hg ((bind_of_ok (srcVals_signed_one 1 ha) _).trans ((bind_of_ok (vaCheck_ok _ h) _).trans (if_pos hform)))

end

/-! ## Stores and MIGR (R318, R321, R323) -/

section
variable {f : FLs} {size : Nat}

theorem store_address {reason : Nat} (ha : SrcReady s f.a.toNat)
    (hbad : addressCheck (fun x => pagedAddr x f.disp size) size (srcValue s f.a.toNat) = .error (illegalOp 0x12 reason (srcValue s f.a.toNat).toNat)) :
    storeIssue f size s = illegalWith s 0x12 reason (srcValue s f.a.toNat) :=
  issue_plain_illegal hm hg (bind_of_error (storeAddrFirst_illegal (a := (f.a.toNat, f.ka)) ha hbad) _)

theorem store_full (hfull : 256 ≤ lotCount s) (hva : SrcReady s f.a.toNat → vaOk (pagedAddr (srcValue s f.a.toNat) f.disp size) size) :
    storeIssue f size s = illegalWith s 0x12 0x05 (seenOr s (f.a.toNat, f.ka)) :=
  issue_plain_illegal hm hg (bind_of_error (storeAddrFirst_full hm hfull hva) _)

end

section
variable {f : FAB}

theorem stq_address {reason : Nat} (ha : SrcReady s f.a.toNat)
    (hbad : addressCheck BitVec.toNat 8 (srcValue s f.a.toNat) = .error (illegalOp 0x12 reason (srcValue s f.a.toNat).toNat)) :
    execStq f s = illegalWith s 0x12 reason (srcValue s f.a.toNat) :=
  issue_plain_illegal hm hg (bind_of_error (storeAddrFirst_illegal (a := (f.a.toNat, f.ka)) ha hbad) _)

theorem stq_full (hfull : 256 ≤ lotCount s) (hva : SrcReady s f.a.toNat → vaOk (srcValue s f.a.toNat).toNat 8) :
    execStq f s = illegalWith s 0x12 0x05 (seenOr s (f.a.toNat, f.ka)) :=
  issue_plain_illegal hm hg (bind_of_error (storeAddrFirst_full hm hfull hva) _)

theorem migr_address {reason : Nat} (ha : SrcReady s f.a.toNat)
    (hbad : addressCheck BitVec.toNat 65536 (srcValue s f.a.toNat) = .error (illegalOp 0x12 reason (srcValue s f.a.toNat).toNat)) :
    execMigr f s = illegalWith s 0x12 reason (srcValue s f.a.toNat) :=
  issue_plain_illegal hm hg (bind_of_error ((peekCheck_signed (f := (f.a.toNat, f.ka)) ha (addressCheck BitVec.toNat 65536)).trans hbad) _)

/-- The address and the deadline come before the lot. -/
theorem migr_full (hfull : 256 ≤ lotCount s) (hdeadline : (srcValue s f.b.toNat).toNat < 2 ^ 32)
    (hva : SrcReady s f.a.toNat → vaOk (srcValue s f.a.toNat).toNat 65536) : execMigr f s = illegalWith s 0x12 0x05 (seenOr s (f.a.toNat, f.ka)) := by
  have haddr : peekCheck (signed s 1) (f.a.toNat, f.ka) (addressCheck BitVec.toNat 65536) = .ok () :=
    peekCheck_signed_passes hm fun ha => addressCheck_ok (hva ha)
  have htime : operandFirst (signed s 1) (f.b.toNat, f.kb) (fun y => decide (y < 2 ^ 32)) 0x12 0x04 = .ok () :=
    peekCheck_signed_passes hm fun _ => if_pos (decide_eq_true hdeadline)
  exact issue_plain_illegal hm hg ((bind_of_ok haddr _).trans ((bind_of_ok htime _).trans (bind_of_error (lotRoom_signed_full hfull _) _)))

theorem migr_deadline (ha : SrcReady s f.a.toNat) (hb : SrcReady s f.b.toNat) (hva : vaOk (srcValue s f.a.toNat).toNat 65536)
    (hlate : 2 ^ 32 ≤ (srcValue s f.b.toNat).toNat) : execMigr f s = illegalWith s 0x12 0x04 (srcValue s f.b.toNat) := by
  have haddr : peekCheck (signed s 1) (f.a.toNat, f.ka) (addressCheck BitVec.toNat 65536) = .ok () :=
    (peekCheck_signed ha _).trans (addressCheck_ok hva)
  have htime : operandFirst (signed s 1) (f.b.toNat, f.kb) (fun y => decide (y < 2 ^ 32)) 0x12 0x04
      = .error (illegalOp 0x12 0x04 (srcValue s f.b.toNat).toNat) :=
    (peekCheck_signed hb _).trans (if_neg (mt of_decide_eq_true (Nat.not_lt.2 hlate)))
  exact issue_plain_illegal hm hg ((bind_of_ok haddr _).trans (bind_of_error htime _))

end

section
variable {i : Instr} {a : Src} {va : Word → Nat} {size : Nat} (hi : egressOf i = some (a, va, size))
include hi

theorem egress_address {reason : Nat} (ha : SrcReady s a.1)
    (hbad : addressCheck va size (srcValue s a.1) = .error (illegalOp 0x12 reason (srcValue s a.1).toNat)) :
    exec i s = illegalWith s 0x12 reason (srcValue s a.1) := by
  cases i
  case stsD f => cases hi; exact store_address hm hg (f := f) ha hbad
  case stsW f => cases hi; exact store_address hm hg (f := f) ha hbad
  case stsH f => cases hi; exact store_address hm hg (f := f) ha hbad
  case stsB f => cases hi; exact store_address hm hg (f := f) ha hbad
  case stq f => cases hi; exact stq_address hm hg (f := f) ha hbad
  case migr f => cases hi; exact migr_address hm hg (f := f) ha hbad
  all_goals cases hi

theorem egress_illegal (ha : SrcReady s a.1) : AddressIllegal i s (srcValue s a.1) (va (srcValue s a.1)) size where
  high h := egress_address hm hg hi ha (addressCheck_high h)
  misaligned h hbad := egress_address hm hg hi ha (addressCheck_misaligned h hbad)

theorem egress_full (hfull : 256 ≤ lotCount s) (hdeadline : ∀ f, i = .migr f → (srcValue s f.b.toNat).toNat < 2 ^ 32)
    (hva : SrcReady s a.1 → vaOk (va (srcValue s a.1)) size) : exec i s = illegalWith s 0x12 0x05 (seenOr s a) := by
  cases i
  case stsD f => cases hi; exact store_full hm hg (f := f) hfull hva
  case stsW f => cases hi; exact store_full hm hg (f := f) hfull hva
  case stsH f => cases hi; exact store_full hm hg (f := f) hfull hva
  case stsB f => cases hi; exact store_full hm hg (f := f) hfull hva
  case stq f => cases hi; exact stq_full hm hg (f := f) hfull hva
  case migr f => cases hi; exact migr_full hm hg (f := f) hfull (hdeadline f rfl) hva
  all_goals cases hi

end

/-! ## Paged atomics and RSTQ (R290, R291, R301) -/

theorem pagedAtomic_address {f : FDAB} {cas : Bool} (ha : SrcReady s f.a.toNat) (hbad : ¬ vaOk (srcValue s f.a.toNat).toNat 8) :
    pagedAtomic f cas s = illegalWith s 0x11 0x04 (srcValue s f.a.toNat) :=
  issue_plain_illegal hm hg (bind_of_error ((peekCheck_signed ha _).trans (if_neg (mt pagedWordOk_iff.1 hbad))) _)

theorem pagedAtomic_full {f : FDAB} {cas : Bool} (hfull : 256 ≤ lotCount s) (hva : SrcReady s f.a.toNat → vaOk (srcValue s f.a.toNat).toNat 8) :
    pagedAtomic f cas s = illegalWith s 0x12 0x05 (seenOr s (f.a.toNat, f.ka)) := by
  have hcore : (!(signed s 1).onSys) = true := by rw [signed_onSys, hm.1]; rfl
  have hfirst : operandFirst (signed s 1) (f.a.toNat, f.ka) pagedWordOk 0x11 0x04 = .ok () :=
    peekCheck_signed_passes hm fun ha => if_pos (pagedWordOk_iff.2 (hva ha))
  exact issue_plain_illegal hm hg ((bind_of_ok hfirst _).trans ((if_pos hcore).trans (bind_of_error (lotRoom_signed_full hfull _) _)))

theorem rstq_full {f : FAB} (ha : SrcReady s f.a.toNat) (hfull : 256 ≤ lotCount s) (hok : rstqOk s (srcValue s f.a.toNat).toNat = true)
    (hremote : (srcValue s f.a.toNat).getLsbD 36 = true) : execRstq f s = illegalWith s 0x12 0x05 (srcValue s f.a.toNat) := by
  have hfirst : operandFirst (signed s 1) (f.a.toNat, f.ka) (rstqOk (signed s 1)) 0x11 0x02 = .ok () :=
    (peekCheck_signed ha _).trans (if_pos ((rstqOk_signed ..).trans hok))
  have hbit : bitB (srcValue s f.a.toNat).toNat 36 = true := (bitB_testBit ..).trans hremote
  have hlot : lotRoom (signed s 1) (srcValue s f.a.toNat).toNat = .error (illegalOp 0x12 0x05 (srcValue s f.a.toNat).toNat) :=
    lotRoom_full (hfull.trans_eq (lotCount_signed ..).symm) _
  exact issue_plain_illegal hm hg ((bind_of_ok hfirst _).trans (bind_of_error ((peekCheck_signed ha _).trans ((if_pos hbit).trans hlot)) _))

end

/-! ## The obligation -/

/-- A load or a store whose address is its operand with a displacement. -/
theorem displaced_illegal {i : Instr} {f : FLs} {size : Nat} {s : State} (hi : (i, size) ∈ [(Instr.ldsD f, 8), (.ldsWu f, 4), (.ldsWs f, 4),
      (.ldsHu f, 2), (.ldsBu f, 1), (.stsD f, 8), (.stsW f, 4), (.stsH f, 2), (.stsB f, 1)])
    (hm : QueueMode s) (hg : Unguarded s) (ha : SrcReady s f.a.toNat) :
    AddressIllegal i s (srcValue s f.a.toNat) (pagedAddr (srcValue s f.a.toNat) f.disp size) size := by
  simp only [List.mem_cons, List.not_mem_nil, or_false, Prod.mk.injEq] at hi
  obtain ⟨rfl, rfl⟩ | ⟨rfl, rfl⟩ | ⟨rfl, rfl⟩ | ⟨rfl, rfl⟩ | ⟨rfl, rfl⟩ | ⟨rfl, rfl⟩ | ⟨rfl, rfl⟩ | ⟨rfl, rfl⟩ | ⟨rfl, rfl⟩ := hi
  · exact load_illegal hm hg (sign := false) ha rfl
  · exact load_illegal hm hg (sign := false) ha rfl
  · exact load_illegal hm hg (sign := true) ha rfl
  · exact load_illegal hm hg (sign := false) ha rfl
  · exact load_illegal hm hg (sign := false) ha rfl
  · exact egress_illegal hm hg (i := .stsD f) rfl ha
  · exact egress_illegal hm hg (i := .stsW f) rfl ha
  · exact egress_illegal hm hg (i := .stsH f) rfl ha
  · exact egress_illegal hm hg (i := .stsB f) rfl ha

theorem pagedAtomicOf_exec {i : Instr} {s : State} {f : FDAB} (hi : pagedAtomicOf i = some f) : ∃ cas, exec i s = pagedAtomic f cas s := by
  cases i
  case pamoadd g => cases hi; exact ⟨false, rfl⟩
  case pamocas g => cases hi; exact ⟨true, rfl⟩
  all_goals cases hi

/-- Settles O24: each ILLEGAL is that of the first check which fails, and no check of these instructions comes before them. -/
theorem pagedIllegal : Obligations.PagedIllegal := by
  unfold Obligations.PagedIllegal
  refine ⟨fun i f size s hi hm hg ha => ?_, fun i s a va size hi hm hg => ?_, fun f s hm hg ha hb hva hlate => migr_deadline hm hg ha hb hva hlate,
    ?_, fun i f s hi hm hg => ?_, fun f s hm hg ha hfull hok hremote => rstq_full hm hg ha hfull hok hremote⟩
  · have h := displaced_illegal hi hm hg ha
    exact ⟨h.high, h.misaligned⟩
  · refine ⟨fun ha => (egress_illegal hm hg hi ha).high, fun ha => (egress_illegal hm hg hi ha).misaligned, fun hfull hdeadline =>
      ⟨fun ha hva => ?_, fun ha => ⟨_, egress_full hm hg hi hfull hdeadline fun h => absurd h ha⟩⟩⟩
    exact (egress_full hm hg hi hfull hdeadline fun _ => hva).trans (congrArg (illegalWith s 0x12 0x05) (seenOr_ready ha))
  · rintro i f s hi hm hg ha
    have he : exec i s = ldq f s := by obtain rfl | rfl := hi <;> rfl
    rw [he]
    exact ⟨ldq_high hm hg ha, ldq_misaligned hm hg ha, ldq_reserved hm hg ha⟩
  · obtain ⟨cas, he⟩ := pagedAtomicOf_exec hi
    rw [he]
    refine ⟨pagedAtomic_address hm hg, fun hfull => ⟨fun ha hva => ?_, fun ha => ⟨_, pagedAtomic_full hm hg hfull fun h => absurd h ha⟩⟩⟩
    exact (pagedAtomic_full hm hg hfull fun _ => hva).trans (congrArg (illegalWith s 0x12 0x05) (seenOr_ready ha))

end Sys2Proof.Machine
end

section
/-! PROOFS. What a scratchpad atomic writes (R56, R288, R394). -/

namespace Sys2Proof.Machine
open Sys2Proof.Claims

/-- Bytes that lie in one word of the scratchpad are written together (R56). -/
theorem permWrite_mem {s : State} {core perm a : Nat} {bs : List Byte} (h : a % 128 + bs.length ≤ 128) :
    (permWrite s core perm a bs).mem = s.mem.writeN (spAddr core (permAddr perm a)) bs := by
  unfold permWrite
  rw [if_pos h]
  rfl

theorem atomicNew_eq (op : Nat) (v b0 b1 : Word) :
    atomicNew op v b0 b1 = (match op with
      | 0 => v + b0
      | 1 => if v.toInt < b0.toInt then b0 else v
      | 2 => b0
      | _ => if v = b0 then b1 else v) := by
  match op with
  | 0 => rfl
  | 1 => exact if_congr BitVec.slt_iff_toInt_lt rfl rfl
  | 2 => rfl
  | _ + 3 => rfl

/-- The undo store changes no memory, and the eight aligned bytes lie in one word of one bank. -/
theorem atomicWrite_mem (s : State) {x : Atomic} {v : Word} (hv : x.x = some v) (halign : x.a % 8 = 0) :
    Yields (fun t => t.mem = s.mem.writeN (spAddr s.curCore (permAddr x.perm x.a)) (bytesOf 8 (atomicNew x.op v x.b0 x.b1).toNat))
      (atomicWrite s x) := by
  have hone : x.a % 128 + 8 ≤ 128 := by omega
  unfold atomicWrite
  rw [hv]
  refine .bind_of (undoCopy_yields ..) fun u hu => ?_
  rw [← hu]
  exact permWrite_mem hone

/-- Settles O25, with `atomicWrite_mem`. -/
theorem atomicWritesBack : Obligations.AtomicWritesBack := by
  unfold Obligations.AtomicWritesBack
  intro s t x v hv _ halign hwrite
  exact ((atomicWrite_mem s hv halign).of_ok hwrite).trans (congrArg (fun w : Word => s.mem.writeN _ (bytesOf 8 w.toNat)) (atomicNew_eq ..))

end Sys2Proof.Machine
end

section
/-! PROOFS. A paged access of a system core (R290, R320, R321, R403). -/

namespace Sys2Proof.Machine
open Sys2Proof.Claims

section
variable {s : State} (h : SystemMode s)
include h

theorem srcVals_system (fs : List Src) : srcVals s fs = .ok (fs.map fun f => readG s f.1) := if_pos h

theorem peekCheck_system (f : Src) (chk : Word → Res Unit) : peekCheck s f chk = chk (readG s f.1) := by
  unfold peekCheck
  rw [srcVals_system h]
  rfl

end

/-- A paged access of a system core has come out so: an answer ends it, it waits for one, or it asks the owner. -/
structure PagedOutcome (s : State) (o : Host.Outcome State Fault Refusal) (op : AuOp) (va size b0 : Nat) (cas : Option Nat)
    (finish : State → Nat → State) : Prop where
  answered : ∀ v, s.sys.ans = some (0, v) → o = .next (advance (finish (s.setSys { s.sys with req := none, ans := none }) v) 1 1)
  waits : s.sys.ans = none → s.sys.req ≠ none → o = .next s
  asks : s.sys.ans = none → s.sys.req = none →
    o = .next ((asked s op va size b0 cas).setSys { s.sys with req := some s.free })

section
variable {s : State} (hm : SystemMode s) (hg : Unguarded s)
include hm hg

theorem issue_system {body : State → Res (State × Flow)} {t : State} {fl : Flow} (hb : body s = .ok (t, fl)) :
    issue s { handlerOk := false } body = .next (flowOn t 1 fl) :=
  issue_ok s _ body t fl hg rfl (.inr (inHandler_system hm)) rfl (loopCheck_one s)
    ((congrArg body ((signed_def s 1).trans (signed_system hm 1))).trans hb)

/-- An instruction whose body is a paged access. -/
theorem pagedOutcome {body : State → Res (State × Flow)} {op : AuOp} {va size b0 : Nat} {cas : Option Nat} {finish : State → Nat → State}
    (hb : body s = sysPaged s op va size b0 cas finish) : PagedOutcome s (issue s { handlerOk := false } body) op va size b0 cas finish where
  answered v hans := issue_system hm hg (fl := .seq 1) (hb.trans (by simp [sysPaged, hans]))
  waits hans hreq := issue_system hm hg (fl := .settled) (hb.trans (by simp [sysPaged, hans, Option.isSome_iff_ne_none.2 hreq]))
  asks hans hreq := issue_system hm hg (t := sysAsk s op va size b0 cas) (fl := .settled) (hb.trans (by simp [sysPaged, hans, hreq]))

theorem load_system (f : FLs) {size : Nat} (sign : Bool) (hva : vaOk (pagedAddr (readG s f.a.toNat) f.disp size) size) :
    PagedOutcome s (loadIssue f size sign s) (if f.d = 0 then .touch else .load) (pagedAddr (readG s f.a.toNat) f.disp size) size 0 none
      (fun t v => writeG t f.d.toNat (if sign then BitVec.ofInt 64 (toSigned (8 * size) v) else BitVec.ofNat 64 v)) := by
  obtain ⟨hlow, halign⟩ := hva
  refine pagedOutcome hm hg ((bind_of_ok (srcVals_system hm _) _).trans ?_)
  refine (bind_of_ok (vaCheck_ok _ hlow) _).trans ((bind_of_ok (vaAligned_ok _ halign) _).trans ((if_pos hm).trans ?_))
  rw [← destination_zero]
  rfl

theorem store_system (f : FLs) {size : Nat} (hva : vaOk (pagedAddr (readG s f.a.toNat) f.disp size) size) :
    PagedOutcome s (storeIssue f size s) .store (pagedAddr (readG s f.a.toNat) f.disp size) size (readG s f.d.toNat).toNat none (fun t _ => t) := by
  have hfirst : storeAddrFirst s (f.a.toNat, f.ka) (fun x => dispAddr x f.disp size) size = .ok () :=
    (bind_of_ok ((peekCheck_system hm _ (addressCheck _ _)).trans (addressCheck_ok hva)) _).trans (if_pos hm)
  exact pagedOutcome hm hg ((bind_of_ok hfirst _).trans ((bind_of_ok (srcVals_system hm _) _).trans (if_pos hm)))

theorem pagedAtomic_system (f : FDAB) (cas : Bool) (hva : vaOk (readG s f.a.toNat).toNat 8) :
    PagedOutcome s (pagedAtomic f cas s) .atomic (readG s f.a.toNat).toNat 8 (readG s f.b.toNat).toNat
      (if cas then some (readG s (f.b.toNat + 1)).toNat else none) (fun t v => writeG t f.d.toNat (BitVec.ofNat 64 v)) := by
  have hfirst : operandFirst s (f.a.toNat, f.ka) pagedWordOk 0x11 0x04 = .ok () :=
    (peekCheck_system hm _ _).trans (if_pos (pagedWordOk_iff.2 hva))
  have hcore : ¬ (!s.onSys) = true := not_not_of_true hm
  refine pagedOutcome hm hg ((bind_of_ok hfirst _).trans ((if_neg hcore).trans ?_))
  cases cas <;> exact (bind_of_ok (srcVals_system hm _) _).trans (if_pos hm)

end

/-- Settles O41: each access comes to its checks, then to `sysPaged`. -/
theorem systemPagedAccess : Obligations.SystemPagedAccess := by
  unfold Obligations.SystemPagedAccess
  intro i s op va size b0 cas hm hg hi hlow halign
  have spec {o finish} (h : PagedOutcome s o op va size b0 cas finish) := And.intro h.answered (And.intro h.waits h.asks)
  cases i
  case ldsD f => cases hi; exact spec (load_system hm hg f false ⟨hlow, halign⟩)
  case ldsWu f => cases hi; exact spec (load_system hm hg f false ⟨hlow, halign⟩)
  case ldsWs f => cases hi; exact spec (load_system hm hg f true ⟨hlow, halign⟩)
  case ldsHu f => cases hi; exact spec (load_system hm hg f false ⟨hlow, halign⟩)
  case ldsBu f => cases hi; exact spec (load_system hm hg f false ⟨hlow, halign⟩)
  case stsD f => cases hi; exact spec (store_system hm hg f ⟨hlow, halign⟩)
  case stsW f => cases hi; exact spec (store_system hm hg f ⟨hlow, halign⟩)
  case stsH f => cases hi; exact spec (store_system hm hg f ⟨hlow, halign⟩)
  case stsB f => cases hi; exact spec (store_system hm hg f ⟨hlow, halign⟩)
  case pamoadd f => cases hi; exact spec (pagedAtomic_system hm hg f false ⟨hlow, halign⟩)
  case pamocas f => cases hi; exact spec (pagedAtomic_system hm hg f true ⟨hlow, halign⟩)
  all_goals cases hi

end Sys2Proof.Machine
end

section
/-! PROOFS. Forwarding: which store gives a byte of a load, and how a load goes on (R309, R311). -/

namespace Sys2Proof.Machine

/-- A store of a lower number than `n` that has not performed and covers byte `a`. -/
def givesByte (n a : Nat) (w : AuReq) : Bool := w.forwards && w.covers a && decide (w.seqNo < n)

theorem givesByte_iff {n a : Nat} {w : AuReq} :
    givesByte n a w = true ↔ w.op = .store ∧ w.place ∈ [AuPlace.lot, .held, .departed, .queued, .untaken] ∧ w.va ≤ a
      ∧ a < w.va + w.size ∧ w.seqNo < n := by
  simp [givesByte, AuReq.forwards, AuReq.covers, and_assoc, or_assoc]

section
variable {c : Ctx} {n a : Nat}

theorem forwardByte_eq :
    forwardByte c n a = ((c.aus.filter (givesByte n a)).getLast?).map fun w => w.b0.toNat / 2 ^ (8 * (a - w.va)) % 256 := by
  refine congrArg (fun byte => Option.map byte _) (funext fun w => ?_)
  have hwidth : 8 * (a - w.va) + 7 + 1 - 8 * (a - w.va) = 8 := by omega
  rw [bits_eq, hwidth]
  rfl

/-- No request behind the youngest store gives the byte, so the filter keeps that store last. -/
theorem forwardByte_youngest {l r : List AuReq} {w : AuReq} (haus : c.aus = l ++ w :: r) (hw : givesByte n a w = true)
    (hr : ∀ x ∈ r, ¬ givesByte n a x = true) : forwardByte c n a = some (w.b0.toNat / 2 ^ (8 * (a - w.va)) % 256) := by
  rw [forwardByte_eq, haus, List.filter_append, List.filter_cons_of_pos hw, List.filter_eq_nil_iff.2 hr, List.getLast?_concat, Option.map_some]

theorem forwardByte_none (h : ∀ x ∈ c.aus, ¬ givesByte n a x = true) : forwardByte c n a = none := by
  rw [forwardByte_eq, List.filter_eq_nil_iff.2 h, List.getLast?_nil, Option.map_none]

end

section
variable {c : Ctx} {r : AuReq}

theorem loadDepart_whole (hlot : r.place = .lot) (h : ∀ x ∈ forwardBytes c r.seqNo r.va r.size, x.isSome = true) :
    loadDepart c r = { r with
      place := if r.op == .touch then .landed else .performed
      value := ofByteNats ((forwardBytes c r.seqNo r.va r.size).map (·.getD 0))
      land := r.issue + 23
      forwarded := true } :=
  if_pos (by rw [hlot, List.all_eq_true.2 h]; rfl)

/-- A load with a byte that no store gives keeps everything but its place. -/
theorem loadDepart_not_whole (h : ∃ x ∈ forwardBytes c r.seqNo r.va r.size, x = none) :
    loadDepart c r = { r with
      place := if (forwardBytes c r.seqNo r.va r.size).any Option.isSome || c.auHalt.any (· < r.seqNo) then .waiting else .departed } := by
  obtain ⟨x, hx, rfl⟩ := h
  have hall : (forwardBytes c r.seqNo r.va r.size).all Option.isSome = false := List.all_eq_false.2 ⟨none, hx, nofun⟩
  refine (if_neg (by rw [hall, Bool.and_false]; exact Bool.false_ne_true)).trans ?_
  split <;> rfl

theorem loadDepart_part (hsome : ∃ x ∈ forwardBytes c r.seqNo r.va r.size, x.isSome = true)
    (hnone : ∃ x ∈ forwardBytes c r.seqNo r.va r.size, x = none) : loadDepart c r = { r with place := .waiting } := by
  rw [loadDepart_not_whole hnone, List.any_eq_true.2 hsome, Bool.true_or, if_pos rfl]

theorem loadDepart_none (hne : forwardBytes c r.seqNo r.va r.size ≠ []) (h : ∀ x ∈ forwardBytes c r.seqNo r.va r.size, x = none) :
    loadDepart c r = { r with place := if c.auHalt.any (· < r.seqNo) then .waiting else .departed } := by
  obtain ⟨x, hx⟩ := List.exists_mem_of_ne_nil _ hne
  have hany : (forwardBytes c r.seqNo r.va r.size).any Option.isSome = false :=
    List.any_eq_false.2 fun y hy => by rw [h y hy]; exact nofun
  rw [loadDepart_not_whole ⟨x, hx, h x hx⟩, hany, Bool.false_or]

end

/-- Settles O23: the youngest store that gives a byte, then the outcomes of `loadDepart` by what its bytes find. -/
theorem loadForwarding : Obligations.LoadForwarding := by
  unfold Obligations.LoadForwarding
  refine ⟨fun c n a => ⟨fun l w r haus hw hr => ?_, fun h => ?_⟩,
    fun c r hlot => ⟨fun h hop => ?_, fun h hop => ?_, loadDepart_part, loadDepart_none⟩⟩
  · exact forwardByte_youngest haus (givesByte_iff.2 hw) fun x hx => mt givesByte_iff.1 (hr x hx)
  · exact forwardByte_none fun x hx => mt givesByte_iff.1 (h x hx)
  · rw [loadDepart_whole hlot h]
    exact ⟨if_neg (mt eq_of_beq hop), rfl, rfl⟩
  · rw [loadDepart_whole hlot h]
    exact if_pos (beq_iff_eq.2 hop)

end Sys2Proof.Machine
end

section
/-! PROOFS. A trap as it is taken, the double fault of a trap in handler mode, and the return from either handler (R371, R374–R376, R386, R387, R403). -/

namespace Sys2Proof.Machine
open Sys2Proof.Claims

section
variable (s : State)

/-! ## Events of system cores (R403) -/

/-- The system cores of a partition, each with a bit of its SEVT set. -/
def withEvent (p bit : Nat) (m : NMap SysSt) (n : Nat) : NMap SysSt :=
  (List.range n).foldl (fun m k =>
    m.set (2 * p + k) { m.getD (2 * p + k) SysSt.reset with sevt := (m.getD (2 * p + k) SysSt.reset).sevt ||| 2 ^ bit }) m

theorem sysEventOn_syss (p bit : Nat) : (sysEventOn s p bit).syss = withEvent p bit s.syss (2 * (s.part p).size) := rfl

theorem sysEventOn_parts (p bit : Nat) : (sysEventOn s p bit).parts = s.parts := rfl

theorem withEvent_testBit (p bit : Nat) (m : NMap SysSt) {n k : Nat} (hk : k < n) :
    (((withEvent p bit m n).getD (2 * p + k) SysSt.reset).sevt).testBit bit = true := by
  unfold withEvent
  induction n with
  | zero => exact absurd hk (Nat.not_lt_zero k)
  | succ n ih =>
    rw [List.range_succ, List.foldl_append, List.foldl_cons, List.foldl_nil]
    by_cases hn : k = n
    · subst hn
      rw [NMap.getD_set_same]
      simp
    · rw [NMap.getD_set_other _ _ _ _ _ (by omega)]
      exact ih (by omega)

/-- Every system core of the partition has the bit. -/
theorem sysEventOn_testBit (p bit : Nat) {k : Nat} (hk : k < 2 * (s.part p).size) :
    (((sysEventOn s p bit).syss.getD (2 * p + k) SysSt.reset).sevt).testBit bit = true := by
  rw [sysEventOn_syss]
  exact withEvent_testBit p bit s.syss hk

/-! ## Traps outside handler mode (R371, R374) -/

theorem trapPc_eq (c : Ctx) (cause : Nat) :
    trapPc c cause = if cause = 0x01 ∧ c.guard.isSome then (c.pc + 65535) % 65536 else c.pc % 65536 := by
  simp only [trapPc, Bool.and_eq_true, decide_eq_true_eq]

/-- Settles O8: outside handler mode the trap is not a double fault, and its EPC is `trapPc`. -/
theorem trapEntry : Obligations.TrapEntry := by
  unfold Obligations.TrapEntry
  intro s cause einfo hq
  rw [← trapPc_eq]
  exact if_neg (by rw [hq]; exact Bool.false_ne_true)

/-! ## Double faults (R375, R386) -/

theorem takeTrap_handler {s : State} (hh : s.cur.handler = true) (cause einfo : Nat) : takeTrap s cause einfo = doubleFault s cause einfo := if_pos hh

/-- What a double fault writes: HFAULT of the context and the events of the system cores. -/
theorem doubleFault_eq (code info : Nat) : doubleFault s code info =
    sysEventOn (s.setCur { s.cur with hfault := BitVec.ofNat 64 (code + 2 ^ 8 + s.cur.pc * 2 ^ 16 + (info % 2 ^ 32) * 2 ^ 32) }) s.curPart 4 := rfl

theorem sysEventOn_cur (p bit : Nat) : (sysEventOn s p bit).cur = s.cur := rfl

theorem signWords_handler {s : State} (hh : s.cur.handler = true) (n : Nat) : signWords s n = s :=
  if_neg (by rw [hh]; simp)

theorem signed_handlerMode {s : State} (hm : HandlerMode s) (n : Nat) : signed s n = s := by
  have ⟨hsys, hh⟩ := hm
  rw [signed, hsys, if_neg Bool.false_ne_true, signWords_handler hh]

/-- A one-word instruction that any agent may run does its body, on the state at its issue, once its checks pass. -/
theorem issue_body {s t : State} {i : Instr} {pre : State → Res Unit} {body : State → Res (State × Flow)} {fl : Flow} (hg : Unguarded s)
    (he : exec i s = issue s { pre := pre } body) (hp : pre s = .ok ()) (hb : body (signed s 1) = .ok (t, fl)) : exec i s = .next (flowOn t 1 fl) :=
  he.trans <| issue_ok s _ body t fl hg rfl (.inl rfl) hp (loopCheck_one s) ((congrArg body (signed_def s 1)).trans hb)

/-- TRAP in handler mode hands the context over, its operand in a register below h16 (R375). -/
theorem trap_handler {s : State} (hm : HandlerMode s) (hg : Unguarded s) {f : FA} (ha : f.a.toNat < 16) :
    exec (.trap f) s = .next (takeTrap s 0x18 (readH s.cur f.a.toNat).toNat) := by
  have ⟨hsys, hh⟩ := hm
  have hvals : srcVals s [(f.a.toNat, f.ka)] = .ok [readH s.cur f.a.toNat] := by
    simp [srcVals, hsys, hh, ha]
  rw [takeTrap_handler hh]
  refine issue_body (fl := .settled) hg (show execTrap f s = _ from rfl) rfl ?_
  rw [signed_handlerMode hm]
  refine (bind_of_ok hvals _).trans ?_
  rw [hsys, hh]
  rfl

/-! ## TRET (R376, R387, R403) -/

/-- The guard that comes back with the word at EPC. -/
theorem leaveHandler_eq : leaveHandler s = s.setCur { s.cur with
    handler := false, pc := s.cur.epc.toNat % 65536, hloops := [], savedGuard := none
    guard := s.cur.savedGuard.bind (fun g => if g.1 = s.cur.epc.toNat % 65536 then some g.2 else none)
    frozen := s.cur.frozen.map (fun f => { f with clear := true }) } := by
  unfold leaveHandler State.modCur
  cases h : s.cur.savedGuard <;> simp only [h] <;> rfl

end

section
variable {s : State} (hg : Unguarded s)
include hg

theorem tret_handler (hm : HandlerMode s) : exec .tret s = .next (leaveHandler s) := by
  have ⟨hsys, hh⟩ := hm
  refine issue_body (fl := .settled) hg (show execTret s = _ from rfl) (by rw [hsys, hh]; rfl) ?_
  rw [signed_handlerMode hm, hsys]
  rfl

theorem tret_system (hm : SystemMode s) :
    exec .tret s = .next (s.setSys { s.sys with pc := s.sys.sepc % 65536, inEvent := false, guard := none }) := by
  refine issue_body (fl := .settled) hg (show execTret s = _ from rfl) (by rw [show s.onSys = true from hm]; rfl) ?_
  rw [signed_system hm]
  exact if_pos hm

end

/-- Settles O12: a handler's TRET is `leaveHandler`, a system core's goes to SEPC. -/
theorem trapReturn : Obligations.TrapReturn := by
  unfold Obligations.TrapReturn
  refine ⟨fun s hm hg => ?_, fun s hm hg => tret_system hg hm⟩
  have ⟨_, hh⟩ := hm
  rw [signWords_handler hh, ← leaveHandler_eq]
  exact tret_handler hg hm

end Sys2Proof.Machine

namespace Sys2Proof.Claims
open Sys2Proof.Machine

/-- Settles O9: in handler mode a trap and TRAP are each a `doubleFault` of the model. -/
theorem doubleFault : Obligations.DoubleFault := by
  unfold Obligations.DoubleFault
  refine ⟨fun s cause einfo hh => ?_, fun f s hm hg ha => trap_handler hm hg ha⟩
  rw [takeTrap_handler hh, doubleFault_eq]
  refine ⟨?_, rfl, rfl, fun k hk => sysEventOn_testBit _ _ 4 hk⟩
  rw [sysEventOn_cur, State.setCur_cur]

end Sys2Proof.Claims
end

section
/-! PROOFS. CSRRD, CSRWR, TRAP, SNAP and HALT, TRAP and HALT of a system core among them (R178, R386, R390, R402–R404). -/

namespace Sys2Proof.Machine
open Sys2Proof.Claims

/-! ## One-word instructions that their agent's mode allows -/

/-- A one-word instruction completes where its checks pass and its body, in a state of the same mode whose sources can be read, does what is said. -/
theorem completes_of_body {i : Instr} {s : State} {x : Doing} {pre : State → Res Unit} {body : State → Res (State × Flow)}
    (he : exec i s = issue s { pre := pre } body) (hform : x.words = 1 ∧ x.ends = false ∧ x.signs = true)
    (hmay : x.may s → x.may (signed s 1)) (hpre : x.may s → pre s = .ok ())
    (hb : ∀ t, x.may t → SrcsReady t x.srcs → x.ok t (srcValues t x.srcs) →
      body t = .ok (x.eff t (popSrcs t x.srcs) (srcValues t x.srcs), x.flow t (srcValues t x.srcs))) : Completes i s x := by
  obtain ⟨hwords, hends, hsigns⟩ := hform
  have hat : atIssue s x = signed s 1 := by unfold atIssue; rw [hsigns, hwords]; rfl
  intro hm hg hl hsrcs hok
  refine completes_of i s x _ _ he hwords.symm hsigns.symm hends.symm (fun _ _ => rfl) (fun _ => .inl rfl) (fun hm _ => hpre hm) (fun _ _ _ => ?_)
    hm hg hl hsrcs hok
  have hvalues : srcValues (signed s 1) x.srcs = srcValues s x.srcs := srcValues_signed ..
  rw [hat, ← hvalues] at hok ⊢
  exact hb _ (hmay hm) ((srcsReady_signed ..).2 hsrcs) hok

theorem queueMode_of_queueMode {s : State} (h : QueueMode s) : QueueMode (signed s 1) := (queueMode_signed s 1).2 h

/-! ## CSRs (R178, R390) -/

theorem csrrd_completes {f : FCsrR} {s : State} {x : Doing} (hx : csrActs (.csrrd f) = some x) : Completes (.csrrd f) s x := by
  cases hx
  refine completes_of_body (show _ = execCsrrd f s from rfl) ⟨rfl, rfl, rfl⟩ id (fun _ => rfl) fun t _ _ hok => ?_
  obtain ⟨hd, hwait⟩ := hok
  refine (bind_of_ok (dstOk_ready t _ hd) _).trans ?_
  dsimp only
  rw [popSrcs_nil]
  cases hsys : t.onSys with
  | true => rfl
  | false =>
    have hgoes : ¬ (t.cur.handler && f.csr.toNat == 0x35 && !onF t) = true := by
      simp only [Bool.and_eq_true, Bool.not_eq_true', beq_iff_eq]
      rintro ⟨⟨hh, hn⟩, hf⟩
      exact absurd (hwait ⟨hsys, hh⟩ (BitVec.eq_of_toNat_eq hn)) (by rw [hf]; exact Bool.false_ne_true)
    exact if_neg hgoes

theorem csrwr_completes {f : FCsrW} {s : State} {x : Doing} (hx : csrActs (.csrwr f) = some x) : Completes (.csrwr f) s x := by
  cases hx
  refine completes_of_body (show _ = execCsrwr f s from rfl) ⟨rfl, rfl, rfl⟩ id (fun _ => rfl) fun t _ hr _ => ?_
  exact bind_of_ok (srcVals_ready t _ hr) _

/-! ## TRAP (R386, R403) -/

theorem trap_completes {f : FA} {s : State} {x : Doing} (hx : csrActs (.trap f) = some x) : Completes (.trap f) s x := by
  cases hx
  refine completes_of_body (show _ = execTrap f s from rfl) ⟨rfl, rfl, rfl⟩ queueMode_of_queueMode (fun _ => rfl) fun t hm hr _ => ?_
  obtain ⟨hsys, hq⟩ := hm
  refine (bind_of_ok (srcVals_ready t _ hr) _).trans ?_
  dsimp only
  rw [hsys, hq]
  rfl

/-! ## SNAP (R402) -/

theorem snap_completes {s : State} {x : Doing} (hx : csrActs .snap = some x) : Completes .snap s x := by
  cases hx
  refine completes_of_issue1 (show _ = execSnap s from rfl) ⟨rfl, rfl, rfl, rfl⟩ fun t _ _ => ?_
  dsimp only [countTrigger]
  rw [popSrcs_nil]
  cases t.onSys with
  | true =>
    simp only [if_true]
    split <;> rfl
  | false => cases t.cur.handler <;> rfl

/-! ## HALT (R404) -/

@[simp] theorem signed_segActive (s : State) (n : Nat) : (signed s n).cur.seg.active = s.cur.seg.active := by
  unfold signed signWords
  split
  · rfl
  · split
    · rw [State.modCur_cur]
    · rfl

/-- A request as a HALT of phase `p` leaves it: in the lot of the phase it departs, stamped, and none is one that departed before. -/
def haltDeparts (c : Ctx) (p : Nat) (r : AuReq) : AuReq :=
  if r.place == .lot && r.phase == p then
    { r with place := if c.auHalt.any (fun n => decide (n < r.seqNo)) then .held else .departed, stampPh := p % 2 ^ 16,
             stampSsn := c.ssn.toNat % 2 ^ 16, ahead := 0 }
  else { r with ahead := 0 }

/-- The lot that departs at a HALT of phase `p`, whatever else the HALT has set. -/
theorem departLot_halt (c : Ctx) (now : Option Nat) (gone : Nat × Nat) (ph : Nat) :
    departLot { c with halted := now, haltCols := gone, aus := c.aus.map (fun r => { r with ahead := 0 }) } (· == ph) ph
      = { c with halted := now, haltCols := gone, aus := c.aus.map (haltDeparts c ph) } := by
  unfold departLot
  simp only [List.map_map]
  rfl

theorem halt_completes {s : State} {x : Doing} (hx : csrActs .halt = some x) : Completes .halt s x := by
  cases hx
  refine completes_of_body (show _ = execHalt s from rfl) ⟨rfl, rfl, rfl⟩ ?_ ?_ fun t hm _ _ => ?_
  · rintro ⟨hq, hseg⟩
    exact ⟨queueMode_of_queueMode hq, (signed_segActive s 1).trans hseg⟩
  · rintro ⟨⟨hsys, hq⟩, hseg⟩
    rw [haltLegal, hsys, hq, hseg]
    rfl
  · obtain ⟨⟨hsys, hq⟩, hseg⟩ := hm
    dsimp only
    rw [hsys, popSrcs_nil, if_neg Bool.false_ne_true, State.modCur, departLot_halt]
    rfl

/-! ## On a system core (R403) -/

section
variable {s : State} (hm : SystemMode s) (hg : Unguarded s)
include hm hg

theorem halt_system : exec .halt s = .next ((advance s 1 1).setSys { (advance s 1 1).sys with halted := true }) := by
  have hend : haltLegal s = .ok () := by rw [haltLegal, show s.onSys = true from hm]; rfl
  refine issue_body (fl := .settled) hg (show _ = execHalt s from rfl) hend ?_
  rw [signed_system hm]
  exact if_pos hm

theorem trap_system (f : FA) : exec (.trap f) s = .next (s.setSys { s.sys with
    cause := 0x18, einfo := readG s f.a.toNat, sepc := (s.sys.pc + 1) % 65536, pc := s.sys.svec, inEvent := true, guard := none
    req := none, ans := none, nonce := none }) := by
  refine issue_body (fl := .settled) hg (show _ = execTrap f s from rfl) rfl ?_
  rw [signed_system hm]
  refine (bind_of_ok (srcVals_system hm _) _).trans ((if_pos hm).trans ?_)
  simp only [sysTrap, State.setSys_setSys, State.sys_setSys, BitVec.ofNat_toNat, BitVec.setWidth_eq]
  rfl

end

/-- Settles O19: each instruction completes by the common form; HALT and TRAP on a system core by their bodies. -/
theorem controlRegisters : Obligations.ControlRegisters := by
  unfold Obligations.ControlRegisters
  refine ⟨fun i s x hx => ?_, fun s hm hg => ⟨halt_system hm hg, trap_system hm hg⟩⟩
  cases i
  case csrrd => exact csrrd_completes hx
  case csrwr => exact csrwr_completes hx
  case trap => exact trap_completes hx
  case snap => exact snap_completes hx
  case halt => exact halt_completes hx
  all_goals cases hx

end Sys2Proof.Machine
end

section
/-! PROOFS. Items of a context: what CTXRD and CTXWR reach, the entries of queues by their positions, and CSRs (R388, R391). -/

namespace Sys2Proof.Machine
open Sys2Proof.Claims

/-! ## CTXRD and CTXWR -/

section
variable {s : State}

theorem ctxMode_signed (h : SystemMode s ∨ HandlerMode s) : SystemMode (signed s 1) ∨ HandlerMode (signed s 1) :=
  h.imp ((signed_onSys s 1).trans ·) (handlerMode_signed · 1)

/-- The agents that may execute CTXRD, CTXWR and TRET pass their check. -/
theorem ctxMode_ok (h : SystemMode s ∨ HandlerMode s) : (if s.onSys || s.cur.handler then .ok () else .error (illegal 0x03) : Res Unit) = .ok () :=
  if_pos (h.elim (fun h => by rw [show s.onSys = true from h]; rfl) fun h => by rw [h.2, Bool.or_true])

theorem ctxrd_completes {f : FDA} {x : Doing} (hx : itemActs (.ctxrd f) = some x) : Completes (.ctxrd f) s x := by
  cases hx
  refine completes_of_body (show _ = execCtxrd f s from rfl) ⟨rfl, rfl, rfl⟩ ctxMode_signed ctxMode_ok fun t _ hr hok => ?_
  obtain ⟨hd, k, v, w, htarget, hitem⟩ := hok
  refine (bind_of_ok (dstOk_ready t _ hd) _).trans ((bind_of_ok (srcVals_ready t _ hr) _).trans ((bind_of_ok htarget _).trans ?_))
  dsimp only [arg1] at htarget hitem ⊢
  rw [htarget]
  dsimp only
  rw [hitem]
  rfl

theorem ctxwr_completes {f : FAB} {x : Doing} (hx : itemActs (.ctxwr f) = some x) : Completes (.ctxwr f) s x := by
  cases hx
  refine completes_of_body (show _ = execCtxwr f s from rfl) ⟨rfl, rfl, rfl⟩ ctxMode_signed ctxMode_ok fun t _ hr hok => ?_
  obtain ⟨k, w, htarget, hput⟩ := hok
  refine (bind_of_ok (srcVals_ready t _ hr) _).trans ((bind_of_ok htarget _).trans ((bind_of_ok hput _).trans ?_))
  dsimp only
  rw [htarget]
  dsimp only
  rw [hput]
  rfl

end

/-! ## Entries of queues -/

section
variable (s : State) (core slot : Nat) {q p : Nat}

/-- The fields of the index of an entry: its class, its queue and its position. -/
theorem entryIndex (hq : q < 64) (hp : p < 4) : bits (q + p * 64) 19 16 = 0 ∧ bits (bits (q + p * 64) 15 0) 5 0 = q
    ∧ bits (bits (q + p * 64) 15 0) 7 6 = p := by
  simp only [bits_eq]
  omega

theorem ctxPut_entry (hq : q < 64) (hp : p < 4) (v : Word) : ctxPut s core slot (q + p * 64) v =
    if p > (qEntries (s.ctxOf core slot) q).length then .error (ctxIllegal 0x03 (q + p * 64))
    else if q = 0 then .ok s
    else if p = (qEntries (s.ctxOf core slot) q).length then
      .ok (s.setCtx core slot (setQ (s.ctxOf core slot) q (qEntries (s.ctxOf core slot) q ++ [.val v none])))
    else .ok (s.setCtx core slot (setQ (s.ctxOf core slot) q ((qEntries (s.ctxOf core slot) q).set p (.val v none)))) := by
  obtain ⟨hclass, hqueue, hpos⟩ := entryIndex hq hp
  simp only [ctxPut, hclass, hqueue, hpos]

/-- The value of an entry is its item. -/
theorem ctxItem_val (hq : q < 64) (hp : p < 4) {w : Word} {k : Option Nat} (h : (qEntries (s.ctxOf core slot) q)[p]? = some (.val w k)) :
    ctxItem s core slot (q + p * 64) = some (w, s) := by
  obtain ⟨hclass, hqueue, hpos⟩ := entryIndex hq hp
  simp only [ctxItem, hclass, hqueue, hpos, h]

theorem ctxItem_beyond (hq : q < 64) (hp : p < 4) (h : (qEntries (s.ctxOf core slot) q).length ≤ p) : ctxItem s core slot (q + p * 64) = none := by
  obtain ⟨hclass, hqueue, hpos⟩ := entryIndex hq hp
  simp only [ctxItem, hclass, hqueue, hpos, List.getElem?_eq_none h]

theorem ctxPut_beyond (hq : q < 64) (hp : p < 4) (v : Word) (h : (qEntries (s.ctxOf core slot) q).length < p) :
    ctxPut s core slot (q + p * 64) v = .error (ctxIllegal 0x03 (q + p * 64)) := by
  rw [ctxPut_entry s core slot hq hp, if_pos h]

/-- A queue stored with an entry at a position: the entry is read back there. -/
theorem ctxItem_stored (hq : q < 64) (hp : p < 4) {es : List QEntry} {v : Word} (h : es[p]? = some (.val v none)) :
    let t := s.setCtx core slot (setQ (s.ctxOf core slot) q es)
    ctxItem t core slot (q + p * 64) = some (v, t) :=
  ctxItem_val _ core slot hq hp (k := none) (by rw [State.ctxOf_setCtx, qEntries_setQ, h])

theorem ctxPut_readsBack (hq : q < 64) (hp : p < 4) (v : Word) (hq0 : q ≠ 0) (h : p ≤ (qEntries (s.ctxOf core slot) q).length) :
    ∃ t, ctxPut s core slot (q + p * 64) v = .ok t ∧ ctxItem t core slot (q + p * 64) = some (v, t) := by
  rw [ctxPut_entry s core slot hq hp, if_neg (Nat.not_lt.2 h), if_neg hq0]
  split
  next hend => exact ⟨_, rfl, ctxItem_stored s core slot hq hp (by rw [hend]; exact List.getElem?_concat_length)⟩
  next hin => exact ⟨_, rfl, ctxItem_stored s core slot hq hp (by rw [List.getElem?_set_self (by omega)])⟩

/-! ## CSRs -/

theorem ctxItem_csr {n : Nat} (hn : n < 2048) : ctxItem s core slot (7 * 2 ^ 16 + n) = some (csrRead s core slot n, s) := by
  have hclass : bits (7 * 2 ^ 16 + n) 19 16 = 7 := by rw [bits_eq]; omega
  have hitem : bits (7 * 2 ^ 16 + n) 15 0 = n := by rw [bits_eq]; omega
  simp only [ctxItem, hclass, hitem]

end

/-- Settles O21: CTXRD and CTXWR by the common form, an entry of a queue by its position. -/
theorem contextItems : Obligations.ContextItems := by
  unfold Obligations.ContextItems
  refine ⟨fun i s x hx => ?_, fun s core slot q p v hq hp => ⟨fun w k => ctxItem_val s core slot hq hp, ctxItem_beyond s core slot hq hp,
    fun hq0 => ctxPut_readsBack s core slot hq hp v hq0, fun _ => ctxPut_beyond s core slot hq hp v, fun n => ctxItem_csr s core slot⟩⟩
  cases i
  case ctxrd => exact ctxrd_completes hx
  case ctxwr => exact ctxwr_completes hx
  all_goals cases hx

end Sys2Proof.Machine
end

section
/-! PROOFS. COLSTART, COLSTAT and COLABORT, COLSTAT in handler mode too (R364–R368). -/

namespace Sys2Proof.Machine
open Sys2Proof.Claims

theorem shiftRight_beq_zero {x n : Nat} (h : x < 2 ^ n) : (x >>> n == 0) = true := by
  rw [beq_iff_eq, Nat.shiftRight_eq_div_pow, Nat.div_eq_of_lt h]

@[simp] theorem popSrcs_cxe (t : State) (fs : List Src) (n : Nat) : (popSrcs t fs).cxe n = t.cxe n := by
  unfold popSrcs
  split <;> rfl

/-- The checks of a block's address, of a page's address, and of a group's number with the word of its page. -/
theorem alignedBelow {a m n : Nat} (hlow : a < 2 ^ n) (halign : a % m = 0) : (a % m == 0 && a >>> n == 0) = true := by
  rw [shiftRight_beq_zero hlow, halign]
  rfl

theorem groupAlone {a : Nat} (hlow : a < 64) : (bits a 7 6 == 0 && a >>> 11 == 0 && (false || bits a 10 8 == 0)) = true := by
  have hfields : bits a 7 6 = 0 ∧ bits a 10 8 = 0 := by simp only [bits_eq]; omega
  rw [hfields.1, hfields.2, shiftRight_beq_zero (show a < 2 ^ 11 by omega)]
  rfl

theorem groupWithWord {a : Nat} (hlow : a < 2 ^ 11) (hzero : bits a 7 6 = 0) :
    (bits a 7 6 == 0 && a >>> 11 == 0 && (true || bits a 10 8 == 0)) = true := by
  rw [hzero, shiftRight_beq_zero hlow]
  rfl

/-! ## COLSTART (R365) -/

/-- A replay issues again a COLSTART that departed as the core halted. -/
theorem againCols_lt_sentCols {c : Ctx} {ph : Nat} : againCols c ph < sentCols c ph ↔ c.haltCols.1 = ph ∧ c.seenCols < c.haltCols.2 := by
  unfold againCols sentCols
  by_cases h : c.haltCols.1 = ph
  · rw [if_pos h, if_pos h, and_iff_right h]
  · rw [if_neg h, if_neg h]
    exact ⟨fun hlt => absurd hlt (Nat.lt_irrefl 0), fun hand => absurd hand.1 h⟩

/-- What COLSTART enters, from a state with its operands popped: the fields of B and the place in the lot. -/
theorem modCur_colstart {t u : State} (hhalt : u.cur.haltCols = t.cur.haltCols) (hseen : u.cur.seenCols = t.cur.seenCols) (ph a : Nat) (b : Word) :
    u.modCur (fun c => if againCols c ph < sentCols c ph then { c with seenCols := c.seenCols + 1 }
        else { c with cols := c.cols ++ [⟨ph, a, bits b.toNat 8 0, bitB b.toNat 9⟩] })
      = if t.cur.haltCols.1 = ph ∧ t.cur.seenCols < t.cur.haltCols.2 then u.setCur { u.cur with seenCols := u.cur.seenCols + 1 }
        else u.setCur { u.cur with cols := u.cur.cols ++ [⟨ph, a, b.toNat % 512, b.getLsbD 9⟩] } := by
  have hrank : bits b.toNat 8 0 = b.toNat % 512 := by rw [bits_eq]; omega
  have htrap : bitB b.toNat 9 = b.getLsbD 9 := bitB_testBit b.toNat 9
  simp only [State.modCur, againCols_lt_sentCols, hhalt, hseen, hrank, htrap]
  exact apply_ite u.setCur _ _ _

theorem colstart_completes {f : FP2} {s : State} {x : Doing} (hx : collectiveActs (.colstart f) = some x) : Completes (.colstart f) s x := by
  cases hx
  refine completes_of_mode (show _ = execColstart f s from rfl) ⟨rfl, rfl, rfl, rfl⟩ (.inl rfl) fun t _ hr hok => ?_
  obtain ⟨hlow, halign, hrank, hroom⟩ := hok
  obtain ⟨ha, hb⟩ := srcReady_two hr
  refine (bind_of_ok (lotRoom_ok hroom _) _).trans ?_
  refine (bind_of_ok (operandFirst_ok ha (alignedBelow hlow halign) _ _) _).trans ?_
  refine (bind_of_ok (operandFirst_ok hb (shiftRight_beq_zero hrank) _ _) _).trans ((bind_of_ok (srcVals_ready t _ hr) _).trans ?_)
  exact congrArg (fun u => Except.ok (u, Flow.seq 1)) (modCur_colstart (by rw [popSrcs_cur]) (by rw [popSrcs_cur]) _ _ _)

/-! ## COLSTAT (R366) -/

theorem colstat_completes {f : FP2} {s : State} {x : Doing} (hx : collectiveActs (.colstat f) = some x) : Completes (.colstat f) s x := by
  cases hx
  refine completes_of_mode (show _ = execColstat f s from rfl) ⟨rfl, rfl, rfl, rfl⟩ (.inl rfl) fun t hm hr hok => ?_
  obtain ⟨hgroup, hlow, haddr, halign⟩ := hok
  obtain ⟨-, hq⟩ := hm
  obtain ⟨ha, hb⟩ := srcReady_two hr
  dsimp only
  rw [hq]
  refine (bind_of_ok (operandFirst_ok ha hgroup _ _) _).trans ((bind_of_ok (operandFirst_ok ha (groupAlone hlow) _ _) _).trans ?_)
  refine (bind_of_ok (operandFirst_ok hb (alignedBelow haddr halign) _ _) _).trans ((bind_of_ok (srcVals_ready t _ hr) _).trans ?_)
  have hnumber : ((srcValues t [(f.a.toNat, false), (f.b.toNat, false)]).headD 0).toNat % 64
      = ((srcValues t [(f.a.toNat, false), (f.b.toNat, false)]).headD 0).toNat := Nat.mod_eq_of_lt hlow
  dsimp only
  simp only [Bool.false_eq_true, if_false, hnumber]
  rfl

theorem colstat_frozen {f : FP2} {s : State} {x : Doing} (hx : frozenCollectiveActs (.colstat f) = some x) : Completes (.colstat f) s x := by
  cases hx
  refine completes_of_mode (show _ = execColstat f s from rfl) ⟨rfl, rfl, rfl, rfl⟩ (.inr ⟨rfl, rfl⟩) fun t hm hr hok => ?_
  obtain ⟨hd, hgroup, hlow, hzero⟩ := hok
  obtain ⟨-, hh⟩ := hm
  have ha : SrcReady t f.a.toNat := hr _ List.mem_cons_self
  dsimp only
  rw [hh]
  refine (bind_of_ok (dstOk_ready t _ hd) _).trans ?_
  refine (bind_of_ok (operandFirst_ok ha hgroup _ _) _).trans ?_
  refine (bind_of_ok (operandFirst_ok ha (groupWithWord hlow hzero) _ _) _).trans ?_
  exact bind_of_ok (srcVals_ready t _ hr) _

/-! ## COLABORT (R367) -/

theorem colabort_completes {f : FP1} {s : State} {x : Doing} (hx : collectiveActs (.colabort f) = some x) : Completes (.colabort f) s x := by
  cases hx
  refine completes_of_body (show _ = execColabort f s from rfl) ⟨rfl, rfl, rfl⟩ ((signed_onSys s 1).trans ·) (fun _ => rfl) fun t _ hr hok => ?_
  obtain ⟨hgroup, hlow⟩ := hok
  have hhigh : ¬ ((srcValue t f.a.toNat).toNat >>> 6 != 0) = true := by
    rw [shiftRight_bne_zero, decide_eq_true_iff]
    exact Nat.not_le.2 hlow
  refine (bind_of_ok (srcVals_ready t _ hr) _).trans ((if_neg (not_not_of_true hgroup)).trans ((if_neg hhigh).trans ?_))
  have hnumber : (srcValue t f.a.toNat).toNat % 64 = (srcValue t f.a.toNat).toNat := Nat.mod_eq_of_lt hlow
  dsimp only
  rw [popSrcs_cxe]
  exact congrArg (fun n => Except.ok ((popSrcs t [(f.a.toNat, false)]).setCxe (t.curCore / 32)
    { t.cxe (t.curCore / 32) with stops := (t.cxe (t.curCore / 32)).stops ++ [n] }, Flow.seq 1)) hnumber

/-- Settles O38: each instruction completes by the common form once its operands pass its checks. -/
theorem collectiveInstructions : Obligations.CollectiveInstructions := by
  unfold Obligations.CollectiveInstructions
  rintro i s x (hx | hx)
  · cases i
    case colstart => exact colstart_completes hx
    case colstat => exact colstat_completes hx
    case colabort => exact colabort_completes hx
    all_goals cases hx
  · cases i
    case colstat => exact colstat_frozen hx
    all_goals cases hx

end Sys2Proof.Machine
end

section
/-! PROOFS. CTXSW on a system core by its operand, and its refusal on a compute core (R379, R381, R389, R391). -/

namespace Sys2Proof.Machine
open Sys2Proof.Claims

section
variable {t : State} {p slot : Nat}

/-! ## What an operation asks of the slot, as propositions -/

theorem streaming_iff {q : PartSt} : streaming q slot = true ↔ q.str ≠ 0 ∧ q.strSlot = slot := by
  rw [streaming, Bool.and_eq_true, bne_iff_ne, beq_iff_eq]

theorem mayBeSaved_iff {q : PartSt} {d : Domain} :
    (q.str = 0 && d.task.isSome && q.runSlot != some slot && !inHandlerMode t p slot && !q.switchTo.contains slot) = true
      ↔ q.str = 0 ∧ d.task ≠ none ∧ q.runSlot ≠ some slot ∧ inHandlerMode t p slot = false ∧ slot ∉ q.switchTo := by
  simp [Option.isSome_iff_ne_none, and_assoc]

theorem mayBeRestored_iff {q : PartSt} {d : Domain} : (q.str = 0 && d.task.isNone) = true ↔ q.str = 0 ∧ d.task = none := by
  rw [Bool.and_eq_true, decide_eq_true_iff, Option.isNone_iff_eq_none]

theorem mayBeHeld_iff {q : PartSt} {d : Domain} : (q.runSlot = some slot && d.task.isSome) = true ↔ q.runSlot = some slot ∧ d.task ≠ none := by
  rw [Bool.and_eq_true, decide_eq_true_iff, Option.isSome_iff_ne_none]

/-- An operand names an operation in its bits [4:2]; one of 32 or more, or of slot 2 or 3, names none. -/
theorem ctxswOp_eq (a : Nat) : ctxswOp t a = switchOp t a := by
  have hbad : (a >>> 5 != 0 || decide (a % 4 ≥ 2)) = true ↔ a ≥ 32 ∨ a % 4 ≥ 2 := by
    rw [shiftRight_bne_zero, Bool.or_eq_true, decide_eq_true_iff, decide_eq_true_iff]
    rfl
  unfold ctxswOp switchOp
  simp only [hbad]
  split
  · rfl
  next hvalid =>
    have hlow : a < 32 := Nat.not_le.1 fun h => hvalid (.inl h)
    have hop : bits a 4 2 = a / 4 := by rw [bits_eq]; omega
    have hcases : a / 4 = 0 ∨ a / 4 = 1 ∨ a / 4 = 2 ∨ a / 4 = 3 ∨ a / 4 = 4 ∨ a / 4 = 5 ∨ a / 4 = 6 ∨ a / 4 = 7 := by omega
    rw [hop]
    simp only [streaming_iff, mayBeSaved_iff, mayBeRestored_iff, mayBeHeld_iff]
    rcases hcases with h | h | h | h | h | h | h | h <;> rw [h] <;> rfl

end

section
variable {s : State} (f : FA)

/-- CTXSW on a system core does its operand's operation. -/
theorem ctxsw_completes {i : Instr} {x : Doing} (he : exec i s = ctxsw f s) (hform : x.words = 1 ∧ x.ends = false ∧ x.signs = true)
    (hopd : x.srcs = [] ∧ x.may = SystemMode) (hact : x.eff = fun t _ _ => switchOp t (readG t f.a.toNat).toNat) (hflow : x.flow = fun _ _ => .seq 1) :
    Completes i s x := by
  obtain ⟨hsrcs, hmay⟩ := hopd
  refine completes_of_body he hform (hmay ▸ ((signed_onSys s 1).trans ·)) (fun _ => rfl) fun t hm _ _ => ?_
  rw [hmay] at hm
  rw [hact, hflow]
  exact (if_pos hm).trans (congrArg (fun u => Except.ok (u, Flow.seq 1)) (ctxswOp_eq _))

/-- On a compute core it is illegal, with the operand that stands at the head of its queue (R391). -/
theorem ctxsw_compute (hm : QueueMode s) (hg : Unguarded s) (ha : SrcReady s f.a.toNat) :
    ctxsw f s = .next (takeTrap s 0x01 (0x0114 + ((srcValue s f.a.toNat).toNat % 2 ^ 32) * 2 ^ 32)) := by
  have hvals : srcVals (signed s 1) [(f.a.toNat, false)] = .ok [srcValue s f.a.toNat] := by
    rw [srcVals_signed]
    exact srcVals_ready s _ fun g hg => List.mem_singleton.1 hg ▸ ha
  obtain ⟨hsys, hq⟩ := hm
  rw [← takeStop_illegal]
  refine issue_stop s _ _ _ hsys hg rfl (.inl rfl) rfl (loopCheck_one s) ?_
  rw [signed_def]
  refine (if_neg (by rw [signed_onSys, hsys]; exact Bool.false_ne_true)).trans ?_
  refine (if_neg (by rw [signed_handler, hq]; exact Bool.false_ne_true)).trans ?_
  rw [hvals]
  rfl

end

/-- Settles O40: all six are one instruction, whose operand is what counts. -/
theorem contextSwitches : Obligations.ContextSwitches := by
  unfold Obligations.ContextSwitches
  refine ⟨fun i s x hx => ?_, fun f s hm hg ha i hi => ?_⟩
  · cases i
    case ctxswSwitch f | ctxswSave f | ctxswRestore f | ctxswRelease f | ctxswEnd f | ctxswHold f =>
      cases hx
      exact ctxsw_completes f rfl ⟨rfl, rfl, rfl⟩ ⟨rfl, rfl⟩ rfl rfl
    all_goals cases hx
  · have he : exec i s = ctxsw f s := by
      simp only [List.mem_cons, List.not_mem_nil, or_false] at hi
      rcases hi with rfl | rfl | rfl | rfl | rfl | rfl <;> rfl
    exact he.trans (ctxsw_compute f hm hg ha)

end Sys2Proof.Machine
end

section
/-! PROOFS. The words of a collective program (R347, R349, R350, R354–R359). -/

namespace Sys2Proof.Machine
open Sys2Proof.Claims

/-! ## The die of the engine stays current -/

section
variable (s : State) (die : Nat) (r : Run)

@[simp] theorem sendUnit_curDie (q : Nat) (slot : Option Nat) (chunk wfmt : Nat) (data : List Nat) (poison : Option Nat) :
    (sendUnit s die r q slot chunk wfmt data poison).1.curDie = s.curDie := rfl

@[simp] theorem dropUnit_curDie (u : ColUnit) : (dropUnit s die u).curDie = s.curDie := rfl

@[simp] theorem portWrite_curDie (addr : Nat) (tag : Option Nat) (bs : List Byte) (poison bar : Option Nat) :
    (portWrite s die r addr tag bs poison bar).curDie = s.curDie := rfl

@[simp] theorem runWrite_curDie (slot k : Nat) (es : List Nat) (poison : Option Nat) : (runWrite s die r slot k es poison).1.curDie = s.curDie := by
  unfold runWrite
  dsimp only
  split
  all_goals
    refine foldl_keeps (fun t : State => t.curDie = s.curDie) _ (fun t x h => ?_) _ _ ?_
    · exact h
    · rfl

end

/-- An executed word leaves the die of its engine current. -/
def CxRes.OnDie (d : Nat) : CxRes → Prop
  | .done t _ => t.curDie = d
  | _ => True

/-! ## What a word comes to -/

section
variable (s : State) (r : Run)

theorem runDone_eq (t : State) (wb : Nat) : runDone t wb r = putRun t t.curDie (cxNext r wb) := by
  unfold runDone cxNext
  cases h : r.loopAt <;> rfl

/-- A word of the active run does what its act comes to. -/
theorem cxWord_outcome {act : State → Run → CxRes} (hrun : runOf s s.curDie s.curGroup = some r) (hdie : CxRes.OnDie s.curDie (act s r)) :
    cxWord s act = .next (cxOutcome s r (act s r)) := by
  unfold cxWord
  rw [hrun]
  dsimp only
  cases h : act s r with
  | done t r1 =>
    rw [h] at hdie
    simp only [cxOutcome, runDone_eq]
    rw [show t.curDie = s.curDie from hdie]
  | wait | mismatch | fault st => rfl

theorem cxWord_idle (act : State → Run → CxRes) (hrun : runOf s s.curDie s.curGroup = none) : cxWord s act = .next s := by
  unfold cxWord
  rw [hrun]

theorem ownNarrowed_error {slot k : Nat} {st : Stop} (h : ownChunk s r slot k = .error st) (fmt : Nat) : ownNarrowed s r slot k fmt = .error st := by
  rw [ownNarrowed, h]
  rfl

theorem ownNarrowed_ok {slot k : Nat} {o : List Nat × Option Nat} (h : ownChunk s r slot k = .ok o) (fmt : Nat) : ownNarrowed s r slot k fmt
    = .ok ((narrowAll (r.desc slot).fmt fmt o.1).1, (narrowAll (r.desc slot).fmt fmt o.1).2, o.2) := by
  rw [ownNarrowed, h]
  rfl

theorem takeUnit_eq (k wfmt : Nat) (go : State → Run → ColUnit → CxRes) : takeUnit s r k wfmt go = withUnit s r k wfmt go := by
  unfold takeUnit withUnit
  cases nextUnit s s.curDie r with
  | none => rfl
  | some u =>
    have hother : (u.chunk != k || u.wfmt != wfmt) = true ↔ ¬ (u.chunk = k ∧ u.wfmt = wfmt) := by
      rw [Bool.or_eq_true, bne_iff_ne, bne_iff_ne, not_and_or]
    dsimp only
    rw [if_congr hother rfl rfl, ite_not]

variable {d : Nat}

theorem withChunk_onDie (slot k : Nat) {go : List Nat → Option Nat → CxRes} (h : ∀ es p, CxRes.OnDie d (go es p)) :
    CxRes.OnDie d (withChunk s r slot k go) := by
  unfold withChunk
  split
  · trivial
  · exact h _ _

theorem withUnit_onDie (k wfmt : Nat) {go : State → Run → ColUnit → CxRes} (h : ∀ t r u, t.curDie = s.curDie → CxRes.OnDie s.curDie (go t r u)) :
    CxRes.OnDie s.curDie (withUnit s r k wfmt go) := by
  unfold withUnit
  split
  · trivial
  · split
    · exact h _ _ _ rfl
    · trivial

theorem writeNarrowed_onDie (slot k src : Nat) (es : List Nat) (p : Option Nat) : CxRes.OnDie s.curDie (writeNarrowed s r slot k src es p) :=
  runWrite_curDie ..

end

/-! ## The words -/

/-- A word is `cxWord` of an act that comes to `x` for the run. -/
structure CxRuns (i : Instr) (s : State) (r : Run) (x : CxRes) (act : State → Run → CxRes) : Prop where
  exec : exec i s = cxWord s act
  act : act s r = x
  onDie : CxRes.OnDie s.curDie x

theorem CxRuns.outcome {i : Instr} {s : State} {r : Run} {x : CxRes} {act : State → Run → CxRes} (h : CxRuns i s r x act)
    (hrun : runOf s s.curDie s.curGroup = some r) : Machine.exec i s = .next (cxOutcome s r x) :=
  h.exec.trans (h.act ▸ cxWord_outcome s r hrun (h.act ▸ h.onDie))

section
variable {s : State} {r : Run} {x : CxRes} (hrun : runOf s s.curDie s.curGroup = some r)
include hrun

theorem cxSend_outcome {f : FCxData} (hx : collectiveWord s r (.cxSend f) = some x) : exec (.cxSend f) s = .next (cxOutcome s r x) := by
  cases hx
  refine CxRuns.outcome ⟨(show execCxSend f s = _ from rfl), ?_, withChunk_onDie s r _ _ fun es p => rfl⟩ hrun
  dsimp only [withChunk]
  cases h : ownChunk s r f.slot.toNat (r.chunk f.ck) with
  | error st => rw [ownNarrowed_error s r h]
  | ok o => rw [ownNarrowed_ok s r h]

theorem cxRecv_outcome {f : FCxData} (hx : collectiveWord s r (.cxRecv f) = some x) : exec (.cxRecv f) s = .next (cxOutcome s r x) := by
  cases hx
  exact CxRuns.outcome ⟨(show execCxRecv f s = _ from rfl), takeUnit_eq .., withUnit_onDie s r _ _ fun t r u ht => ht ▸ writeNarrowed_onDie ..⟩ hrun

theorem cxRrs_outcome {f : FCxData} (hx : collectiveWord s r (.cxRrs f) = some x) : exec (.cxRrs f) s = .next (cxOutcome s r x) := by
  cases hx
  exact CxRuns.outcome ⟨(show execCxRrs f s = _ from rfl), takeUnit_eq ..,
    withUnit_onDie s r _ _ fun t r u ht => withChunk_onDie t r _ _ fun es p => ht⟩ hrun

theorem cxRed_outcome {f : FCxData} (hx : collectiveWord s r (.cxRed f) = some x) : exec (.cxRed f) s = .next (cxOutcome s r x) := by
  cases hx
  exact CxRuns.outcome ⟨(show execCxRed f s = _ from rfl), takeUnit_eq ..,
    withUnit_onDie s r _ _ fun t r u ht => withChunk_onDie t r _ _ fun es p => ht ▸ writeNarrowed_onDie ..⟩ hrun

theorem cxCopy_outcome {f : FCxCopy} (hx : collectiveWord s r (.cxCopy f) = some x) : exec (.cxCopy f) s = .next (cxOutcome s r x) := by
  cases hx
  exact CxRuns.outcome ⟨(show execCxCopy f s = _ from rfl), rfl, withChunk_onDie s r _ _ fun es p => writeNarrowed_onDie ..⟩ hrun

theorem cxWaitDelivery_outcome {f : FCxWaitD} (hx : collectiveWord s r (.cxWaitDelivery f) = some x) :
    exec (.cxWaitDelivery f) s = .next (cxOutcome s r x) := by
  have hwaits : (decide (r.undelivered > 0) || sendsOut s s.curDie r) = true ↔ 0 < r.undelivered ∨ sendsOut s s.curDie r = true := by
    rw [Bool.or_eq_true, decide_eq_true_iff]
  cases hx
  refine CxRuns.outcome ⟨(show execCxWaitDelivery f s = _ from rfl), if_congr hwaits rfl rfl, ?_⟩ hrun
  split
  · trivial
  · rfl

theorem cxWaitFlag_outcome {f : FCxWaitF} (hx : collectiveWord s r (.cxWaitFlag f) = some x) : exec (.cxWaitFlag f) s = .next (cxOutcome s r x) := by
  cases hx
  refine CxRuns.outcome ⟨(show execCxWaitFlag f s = _ from rfl), rfl, ?_⟩ hrun
  split
  · rfl
  · trivial

theorem cxMcast_outcome {f : FCxMcast} (hx : collectiveWord s r (.cxMcast f) = some x) : exec (.cxMcast f) s = .next (cxOutcome s r x) := by
  cases hx
  refine CxRuns.outcome ⟨(show execCxMcast f s = _ from rfl), ?_, withChunk_onDie s r _ _ fun es p => ?_⟩ hrun
  · dsimp only [withChunk]
    cases h : ownChunk s r f.slot.toNat (r.chunk f.ck) with
    | error st => rw [ownNarrowed_error s r h]
    | ok o => rw [ownNarrowed_ok s r h]
  · dsimp only
    split
    · exact writeNarrowed_onDie ..
    · exact foldl_keeps (fun t : State × Run => t.1.curDie = s.curDie) _ (fun t q ht => (sendUnit_curDie ..).trans ht) _ _ rfl

/-- Every word but DONE. -/
theorem collectiveWord_outcome {i : Instr} (hx : collectiveWord s r i = some x) : exec i s = .next (cxOutcome s r x) := by
  cases i
  case cxNop =>
    cases hx
    exact CxRuns.outcome ⟨(show execCxNop s = _ from rfl), rfl, rfl⟩ hrun
  case cxLoop f =>
    cases hx
    exact CxRuns.outcome ⟨(show execCxLoop f s = _ from rfl), rfl, rfl⟩ hrun
  case cxPeer f =>
    cases hx
    exact CxRuns.outcome ⟨(show execCxPeer f s = _ from rfl), rfl, rfl⟩ hrun
  case cxSend => exact cxSend_outcome hrun hx
  case cxRecv => exact cxRecv_outcome hrun hx
  case cxRrs => exact cxRrs_outcome hrun hx
  case cxRed => exact cxRed_outcome hrun hx
  case cxCopy => exact cxCopy_outcome hrun hx
  case cxWaitDelivery => exact cxWaitDelivery_outcome hrun hx
  case cxWaitFlag => exact cxWaitFlag_outcome hrun hx
  case cxMcast => exact cxMcast_outcome hrun hx
  all_goals cases hx

/-! ## DONE (R329, R356, R359) -/

theorem cxDone_waits (f : FCxSlot) (h : r.mcDone < r.mcDue ∨ 0 < r.undelivered) : exec (.cxDone f) s = .next s := by
  have hwaits : (decide (r.mcDone < r.mcDue) || decide (r.undelivered > 0)) = true := by
    rw [Bool.or_eq_true, decide_eq_true_iff, decide_eq_true_iff]
    exact h
  show execCxDone f s = _
  unfold execCxDone
  rw [hrun]
  exact if_pos hwaits

theorem cxDone_ends (f : FCxSlot) (hcasts : r.mcDue ≤ r.mcDone) (hanswers : r.undelivered = 0) : exec (.cxDone f) s = .next (endRun s s.curDie
    { r with nword := min (r.nword + 1) (2 ^ 32 - 1), lastWb := s.wb, status := 0, recSlot := some f.slot.toNat }) := by
  have hends : ¬ (decide (r.mcDone < r.mcDue) || decide (r.undelivered > 0)) = true := by
    rw [Bool.or_eq_true, decide_eq_true_iff, decide_eq_true_iff]
    omega
  show execCxDone f s = _
  unfold execCxDone
  rw [hrun]
  exact if_neg hends

end

/-- Without a run of the group a collective word does nothing. -/
theorem cxWord_norun {i : Instr} {s : State} (hi : isCxWord i = true) (hrun : runOf s s.curDie s.curGroup = none) : exec i s = .next s := by
  cases i
  case cxDone f =>
    show execCxDone f s = _
    unfold execCxDone
    rw [hrun]
  case cxNop | cxSend | cxRecv | cxRrs | cxRed | cxCopy | cxWaitDelivery | cxWaitFlag | cxLoop | cxPeer | cxMcast =>
    simp only [exec, execCxNop, execCxSend, execCxRecv, execCxRrs, execCxRed, execCxCopy, execCxWaitDelivery, execCxWaitFlag, execCxLoop, execCxPeer,
      execCxMcast]
    exact cxWord_idle s _ hrun
  all_goals cases hi

/-- Settles O45: each word is `cxWord` of its act, and DONE ends the run once nothing of it is due. -/
theorem collectiveWords : Obligations.CollectiveWords := by
  unfold Obligations.CollectiveWords
  refine ⟨fun i s hi => ⟨cxWord_norun hi, fun r x hrun hx => collectiveWord_outcome hrun hx⟩, fun f s r hrun => ⟨cxDone_waits hrun f, cxDone_ends hrun f⟩⟩

end Sys2Proof.Machine
end

section
/-! PROOFS. The events of the collective engine: starts, units, aborts, timeouts and the delivery of COLLABORT (R344, R349, R355, R360, R361, R367). -/

namespace Sys2Proof.Machine
open Sys2Proof.Claims

theorem happens_never {i : Instr} {s : State} {q : Prop} (h : q → exec i s = .next s) : Happens i s ⟨[], q⟩ :=
  ⟨fun _ hx => absurd hx List.not_mem_nil, fun hq _ => h hq⟩

section
variable (s : State)

/-! ## COLLECTIVE_RUN_START (R344) -/

theorem execCollectiveRunStart_full (h : ¬ (s.cxe s.ev.a).runs.length < 8) : execCollectiveRunStart s = .next s := if_pos (Nat.le_of_not_lt h)

theorem execCollectiveRunStart_none (h : nextStart s s.ev.a = none) : execCollectiveRunStart s = .next s := by
  simp only [execCollectiveRunStart, h, ite_self]

/-- The state with a COLSTART taken from those that wait. -/
def startTaken (w : ColWait) : State := s.setCxe s.ev.a { s.cxe s.ev.a with waits := (s.cxe s.ev.a).waits.erase w }

theorem execCollectiveRunStart_starts {w : ColWait} (hroom : (s.cxe s.ev.a).runs.length < 8) (h : nextStart s s.ev.a = some w) {u : Unit}
    (hread : portRead s w true 8 = .ok u) : execCollectiveRunStart s = .next (startRun (startTaken s w) s.ev.a w) := by
  simp only [execCollectiveRunStart, h, hread]
  exact if_neg (Nat.not_le.2 hroom)

theorem execCollectiveRunStart_faults {w : ColWait} (hroom : (s.cxe s.ev.a).runs.length < 8) (h : nextStart s s.ev.a = some w) {st : Stop}
    (hread : portRead s w true 8 = .error st) : execCollectiveRunStart s = .next (stopStarter (startTaken s w) w.core w.slot st) := by
  simp only [execCollectiveRunStart, h, hread]
  exact if_neg (Nat.not_le.2 hroom)

/-! ## COLLECTIVE_UNIT_ARRIVAL (R344, R349, R355) -/

/-- A unit that is buffered changes neither the wall cycle nor the event. -/
theorem bufferUnit_wb_ev {u : ColUnit} {v : State} (h : bufferUnit s u = some v) : v.wb = s.wb ∧ v.ev = s.ev := by
  unfold bufferUnit at h
  dsimp only at h
  split at h
  · exact Option.some.inj h ▸ ⟨rfl, rfl⟩
  · split at h
    · cases h
    · rw [← Option.some.inj h]
      split <;> exact ⟨rfl, rfl⟩

/-- The sender's run has progressed from the member at a location. -/
def heardFrom (die loc wb : Nat) (u : ColUnit) (v : State) : State :=
  match sendRun v die u with
  | some r => putRun v die { r with heard := r.heard.set (r.members.idxOf loc) wb }
  | none => v

/-- The state with a unit taken from the outbox. -/
def unitLeft : State := s.setCxe s.ev.a { s.cxe s.ev.a with outbox := (s.cxe s.ev.a).outbox.eraseIdx s.ev.b }

theorem execCollectiveUnitArrival_none (hd : s.ev.d ≠ 1) (h : (s.cxe s.ev.a).outbox[s.ev.b]? = none) : execCollectiveUnitArrival s = .next s := by
  simp only [execCollectiveUnitArrival, if_neg hd, h]

section
variable {s} (hd : s.ev.d ≠ 1) {loc : Nat} {u : ColUnit} (h : (s.cxe s.ev.a).outbox[s.ev.b]? = some (loc, u))
include hd h

theorem execCollectiveUnitArrival_held (hhere : locHere s loc = true) (hfull : bufferUnit (unitLeft s) u = none) :
    execCollectiveUnitArrival s = .next s := by
  unfold unitLeft at hfull
  simp only [execCollectiveUnitArrival, if_neg hd, h, if_pos hhere, hfull]
  rfl

theorem execCollectiveUnitArrival_buffered (hhere : locHere s loc = true) {v : State} (hroom : bufferUnit (unitLeft s) u = some v) :
    execCollectiveUnitArrival s = .next (heardFrom s.ev.a loc s.wb u v) := by
  obtain ⟨hwb, hev⟩ := bufferUnit_wb_ev (unitLeft s) hroom
  have hwb : s.wb = v.wb := hwb.symm
  have hdie : s.ev.a = v.ev.a := congrArg EvArg.a hev.symm
  unfold unitLeft at hroom
  simp only [execCollectiveUnitArrival, if_neg hd, h, if_pos hhere, hroom]
  rw [hdie, hwb]
  rfl

theorem execCollectiveUnitArrival_sent (haway : locHere s loc = false) :
    execCollectiveUnitArrival s = .next (heardFrom s.ev.a loc s.wb u (unitLeft s)) := by
  simp only [execCollectiveUnitArrival, if_neg hd, h, haway]
  rfl

end

/-! ## MCAST_UNIT_ARRIVAL (R349, R355) -/

/-- A multicast unit fits no chunk of the slot that it names. -/
def FitsNoChunk (r : Run) (z : Nat) (u : ColUnit) : Prop :=
  r.ns ≤ z ∨ (r.desc z).kind ≠ 0 ∨ (r.desc z).cw = 0 ∨ r.n ≤ u.chunk ∨ isIntFmt u.wfmt ≠ isIntFmt (r.desc z).fmt

theorem fitsNoChunk_iff (r : Run) (z : Nat) (u : ColUnit) :
    (decide (z ≥ r.ns) || (r.desc z).kind != 0 || decide ((r.desc z).cw = 0) || decide (u.chunk ≥ r.n)
      || isIntFmt u.wfmt != isIntFmt (r.desc z).fmt) = true ↔ FitsNoChunk r z u := by
  simp only [FitsNoChunk, Bool.or_eq_true, decide_eq_true_iff, bne_iff_ne, or_assoc, ge_iff_le]

/-- The chunk of a multicast unit written, the unit taken and counted. -/
def unitApplied (die : Nat) (r : Run) (z : Nat) (u : ColUnit) : State :=
  let v := narrowAll u.wfmt (r.desc z).fmt u.data
  let t := runWrite (dropUnit s die u) die { countSat r v.2 with
    mcDone := r.mcDone + 1, taken := r.taken ++ [(u.sender, u.seqNo)]
    mcFrom := r.mcFrom.set u.sender (r.mcFrom.getD u.sender 0 + 1) } z u.chunk v.1 u.poison
  putRun t.1 die t.2

theorem execMcastUnitArrival_none (h : (s.cxe s.ev.a).units[s.ev.b]? = none) : execMcastUnitArrival s = .next s := by
  simp only [execMcastUnitArrival, h]

section
variable {s} {u : ColUnit} (h : (s.cxe s.ev.a).units[s.ev.b]? = some u)
include h

theorem execMcastUnitArrival_plain (hslot : u.slot = none) : execMcastUnitArrival s = .next s := by
  simp only [execMcastUnitArrival, h, hslot]

theorem execMcastUnitArrival_norun (hrun : unitRun s s.ev.a u = none) : execMcastUnitArrival s = .next s := by
  simp only [execMcastUnitArrival, h, hrun]
  cases u.slot <;> rfl

variable {z : Nat} {r : Run} (hslot : u.slot = some z) (hrun : unitRun s s.ev.a u = some r)
include hslot hrun

theorem execMcastUnitArrival_early (hfirst : unitFirst s s.ev.a r u = false) : execMcastUnitArrival s = .next s := by
  simp only [execMcastUnitArrival, h, hslot, hrun, hfirst]
  rfl

theorem execMcastUnitArrival_mismatch (hfirst : unitFirst s s.ev.a r u = true) (hbad : FitsNoChunk r z u) :
    execMcastUnitArrival s = .next (abortRun s s.ev.a r 0x03) := by
  simp only [execMcastUnitArrival, h, hslot, hrun, hfirst]
  exact (if_neg Bool.false_ne_true).trans (if_pos ((fitsNoChunk_iff r z u).2 hbad))

theorem execMcastUnitArrival_applied (hfirst : unitFirst s s.ev.a r u = true) (hfits : ¬ FitsNoChunk r z u) :
    execMcastUnitArrival s = .next (unitApplied s s.ev.a r z u) := by
  simp only [execMcastUnitArrival, h, hslot, hrun, hfirst]
  exact (if_neg Bool.false_ne_true).trans (if_neg (mt (fitsNoChunk_iff r z u).1 hfits))

end

/-! ## Aborts (R355, R360, R361, R367) -/

/-- The state with an abort unit taken from those sent. -/
def abortLeft : State := s.setCxe s.ev.a { s.cxe s.ev.a with outAborts := (s.cxe s.ev.a).outAborts.eraseIdx s.ev.b }

theorem execAbortUnitArrival_none (hd : s.ev.d ≠ 1) (h : (s.cxe s.ev.a).outAborts[s.ev.b]? = none) : execAbortUnitArrival s = .next s := by
  simp only [execAbortUnitArrival, if_neg hd, h]

theorem execAbortUnitArrival_some {loc g ep st o born : Nat} (hd : s.ev.d ≠ 1)
    (h : (s.cxe s.ev.a).outAborts[s.ev.b]? = some (loc, g, ep, st, o, born)) : execAbortUnitArrival s =
      if (locHere s loc && !oldInstall (abortLeft s) (loc % 256 / 32) g born) = true
      then .next (abortArrives (abortLeft s) (loc % 256) g ep st o) else .next (abortLeft s) := by
  simp only [execAbortUnitArrival, if_neg hd, h]
  rfl

theorem execCollectiveTimeout_none (h : runOf s s.ev.a s.ev.b = none) : execCollectiveTimeout s = .next s := by
  simp only [execCollectiveTimeout, h]

/-- A run waits for a member that COLTO has passed without progress from (R355). -/
theorem waitsForSilent_iff (die : Nat) (r : Run) : (waitsForMember s die r).any (memberSilent s die r) = true ↔
    ∃ q ∈ waitsForMember s die r, max r.lastWb (r.heard.getD q 0) + coltoOf (s.part (s.partOfDie die)) ≤ s.wb := by
  simp only [List.any_eq_true, memberSilent, decide_eq_true_iff]

theorem execCollectiveTimeout_some {r : Run} (h : runOf s s.ev.a s.ev.b = some r) : execCollectiveTimeout s =
    if (waitsForMember s s.ev.a r).any (memberSilent s s.ev.a r) = true then .next (abortRun s s.ev.a r 0x02) else .next s := by
  simp only [execCollectiveTimeout, h]

theorem execColabortArrival_none (h : (s.cxe s.ev.a).stops = []) : execColabortArrival s = .next s := by
  simp only [execColabortArrival, h]

theorem execCollabort_none (h : (s.cxe s.ev.a).colaborts[s.ev.b]? = none) : execCollabort s = .next s := by
  simp only [execCollabort, h]

theorem execCollabort_some {key info : Nat} (h : (s.cxe s.ev.a).colaborts[s.ev.b]? = some (key, info)) : execCollabort s =
    if canTake s (key / 4) (key % 4) = true then
      .next (deliverTrap (s.setCxe s.ev.a { s.cxe s.ev.a with colaborts := (s.cxe s.ev.a).colaborts.eraseIdx s.ev.b }) (key / 4) (key % 4) 0x16 info)
    else .next s := by
  simp only [execCollabort, h]

end

/-! ## Every event -/

theorem collectiveEvents_happen (s : State) : ∀ x ∈ collectiveEvents s, Happens x.1 s x.2 := by
  unfold collectiveEvents
  simp only [List.forall_mem_cons]
  refine ⟨?runStart, ?unitArrival, ?mcastArrival, ?abortArrival, ?timeout, ?colabortArrival, ?collabort, fun x hx => absurd hx List.not_mem_nil⟩
  case runStart =>
    split
    next h => exact .never (execCollectiveRunStart_none s h)
    next w h =>
      refine .once (fun hroom => ?_) (execCollectiveRunStart_full s)
      cases hread : portRead s w true 8 with
      | ok _ => exact execCollectiveRunStart_starts s hroom h hread
      | error st => exact execCollectiveRunStart_faults s hroom h hread
  case unitArrival =>
    split
    next h => exact happens_never fun hd => execCollectiveUnitArrival_none s hd h
    next loc u h =>
      refine .three (fun ⟨hd, hhere, hfull⟩ => execCollectiveUnitArrival_held hd h hhere hfull) (fun ⟨hd, hhere, v, hroom⟩ => ?_)
        (fun ⟨hd, haway⟩ => execCollectiveUnitArrival_sent hd h haway) (fun hd hheld hbuffered hsent => ?_)
      · refine (execCollectiveUnitArrival_buffered hd h hhere hroom).trans ?_
        rw [hroom]
        rfl
      · have hhere : locHere s loc = true := Bool.not_eq_false _ ▸ fun haway => hsent ⟨hd, haway⟩
        cases hroom : bufferUnit (unitLeft s) u with
        | none => exact absurd ⟨hd, hhere, hroom⟩ hheld
        | some v => exact absurd ⟨hd, hhere, v, hroom⟩ hbuffered
  case mcastArrival =>
    split
    next h => exact .never (execMcastUnitArrival_none s h)
    next u h =>
      split
      next z r hslot hrun =>
        refine .two (fun ⟨hfirst, hfits⟩ => execMcastUnitArrival_applied h hslot hrun hfirst hfits)
          (fun ⟨hfirst, hbad⟩ => execMcastUnitArrival_mismatch h hslot hrun hfirst hbad) (fun _ happlied hbad => ?_)
        cases hfirst : unitFirst s s.ev.a r u with
        | false => exact execMcastUnitArrival_early h hslot hrun hfirst
        | true => exact absurd ⟨hfirst, fun hb => hbad ⟨hfirst, hb⟩⟩ happlied
      next hnone =>
        refine .never ?_
        cases hslot : u.slot with
        | none => exact execMcastUnitArrival_plain h hslot
        | some z =>
          cases hrun : unitRun s s.ev.a u with
          | none => exact execMcastUnitArrival_norun h hrun
          | some r => exact absurd hrun (hnone z r hslot)
  case abortArrival =>
    split
    next h => exact happens_never fun hd => execAbortUnitArrival_none s hd h
    next loc g ep st o born h =>
      refine .two (fun ⟨hd, hhere, hnew⟩ => (execAbortUnitArrival_some s hd h).trans (if_pos ?_))
        (fun ⟨hd, hgone⟩ => (execAbortUnitArrival_some s hd h).trans (if_neg ?_)) (fun hd harrives hgone => ?_)
      · rw [hhere]
        exact Bool.not_eq_true' _ ▸ hnew
      · rw [Bool.and_eq_true, Bool.not_eq_true']
        rintro ⟨hhere, hnew⟩
        exact hgone.elim (fun haway => Bool.false_ne_true (haway.symm.trans hhere)) (fun hold => Bool.false_ne_true (hnew.symm.trans hold))
      · have hhere : locHere s loc = true := Bool.not_eq_false _ ▸ fun haway => hgone ⟨hd, .inl haway⟩
        have hnew : oldInstall (abortLeft s) (loc % 256 / 32) g born = false := Bool.not_eq_true _ ▸ fun hold => hgone ⟨hd, .inr hold⟩
        exact absurd ⟨hd, hhere, hnew⟩ harrives
  case timeout =>
    split
    next h => exact .never (execCollectiveTimeout_none s h)
    next r h =>
      exact .once (fun hsilent => (execCollectiveTimeout_some s h).trans (if_pos ((waitsForSilent_iff s _ r).2 hsilent)))
        (fun hsilent => (execCollectiveTimeout_some s h).trans (if_neg (mt (waitsForSilent_iff s _ r).1 hsilent)))
  case colabortArrival =>
    split
    next h => exact .never (execColabortArrival_none s h)
    next g rest h =>
      refine .always ?_
      show execColabortArrival s = _
      simp only [execColabortArrival, h]
      split <;> rfl
  case collabort =>
    split
    next h => exact .never (execCollabort_none s h)
    next key info h => exact .once (fun hc => (execCollabort_some s h).trans (if_pos hc)) (fun hc => (execCollabort_some s h).trans (if_neg hc))

/-- Settles O51: every event of the collective engine happens as its equations say. -/
theorem collectiveEvents : Obligations.CollectiveEvents := collectiveEvents_happen

end Sys2Proof.Machine
end

section
/-! PROOFS. Why the holds of a power sample (R412) are not stated right for every table of partitions: a partition table whose entries do not rise. -/

namespace Sys2Proof.Machine
open Sys2Proof.Claims

/-- The partition of die 1 is listed before that of die 0, which runs a task. -/
def unsortedParts : State :=
  { State.reset with parts :=
      [(1, PartSt.boot 1), (0, { PartSt.boot 1 with runSlot := some 0, dom0 := { Domain.reset with task := some loneTask } })] }

/-- A hold of the unsorted table lists die 0's partition once more, before the others. -/
theorem holdAll_unsortedParts_twice (kind : Nat) : (holdAll unsortedParts kind).parts.map (·.1) = [0, 1, 0] := rfl

/-- So the hold of KIND 7 after that of KIND 6 reaches its domain twice, and the domain waits for three holds. -/
theorem powerAct_unsortedParts_reqs : (((powerAct unsortedParts 101#64 4000#64).dom 0 0).reqs.map HoldReq.kind) = [6, 7, 7] := by decide

theorem isHot_unsortedParts : IsHot unsortedParts 101#64 := ⟨0, by decide, by decide⟩

theorem isHigh_unsortedParts : IsHigh unsortedParts 4000#64 := by
  unfold IsHigh
  decide

/-- Refutes O52: with a die at 101 °C and the package at 4000, above THOLD 100 and PLIM 3200, the running domain of die 0 should get one hold request of
KIND 6 and one of KIND 7. The statement asks that no partition is listed twice, but not that the table rises: in `unsortedParts` the entry that the hold of
KIND 6 writes is set before the old one, so that the hold of KIND 7 meets the partition twice. -/
theorem not_packageEvents : ¬ Obligations.PackageEvents := by
  unfold Obligations.PackageEvents
  intro ⟨_, hpower⟩
  obtain ⟨_, _, _, _, _, hholds, _, _⟩ := hpower unsortedParts 101#64 4000#64
  obtain ⟨_, _, hboth, _⟩ := hholds 0 0 (by decide) rfl rfl nofun
  have hreqs := congrArg (fun d => d.reqs.map HoldReq.kind) (hboth (.inl isHot_unsortedParts) isHigh_unsortedParts)
  dsimp only at hreqs
  rw [powerAct_unsortedParts_reqs] at hreqs
  exact absurd hreqs (by decide)

end Sys2Proof.Machine
end
